-- ==== Sys2Proof/Word.lean ====
section
/-! DEFINITION. Word.lean: the word types of the block and the one sparse-array type of the state. -/

namespace Sys2Proof

/-- One byte (00 R5: structures are little-endian bytes). -/
abbrev Byte := BitVec 8
/-- An error code or another 16-bit word (00 R12). -/
abbrev W16 := BitVec 16
/-- A configuration-bus word (02 R52). -/
abbrev W32 := BitVec 32
/-- A 64-bit register (02 R53). -/
abbrev W64 := BitVec 64

/-- An array held sparsely: (index, value) pairs with strictly rising indices and no value equal to the
array's reset value. Every table and memory of the state has this form. -/
abbrev Sparse (α : Type) := List (Nat × α)

end Sys2Proof
end

