-- ==== Sys2Proof/Syntax.lean ====
section
/-! DEFINITION. Syntax.lean: the commands of the block, one constructor for each row of the opcode table. -/

namespace Sys2Proof

/-- What the SECDED check of an arriving word found (02 R39, 13 R389). -/
inductive Ecc where
  | clean
  | single
  | double
deriving DecidableEq, Repr

/-- Who sends a register access: on the configuration bus the CMC, the privileged host function, or an unprivileged
requester, which reaches only its own context window (02 R52, R71); or the debug bus, with the level of DEBUG_UNLOCK at
the access (02 R66). -/
inductive Requester where
  | cmc
  | host
  | context (c : Fin 64)
  | debug (unlock : Bool)
deriving DecidableEq, Repr

/-- The two causes of R45: REFWIN outside the configured window, or SCHED falling. -/
inductive SchedCause where
  | refwinOutside
  | schedFell
deriving DecidableEq, Repr

/-- Which of the two requests of R494 a freeze event concerns: DBG.CTL.FREEZE, written on the debug bus at a level of
DEBUG_UNLOCK, or the DBG_FREEZE input. -/
inductive FreezeSource where
  | register (unlock : Bool)
  | input
deriving DecidableEq, Repr

/-- Transmit or receive side of a link (02 R56: direction 0 is transmit, 1 is receive). -/
inductive Dir where
  | tx
  | rx
deriving DecidableEq, Repr

/-- A waiter on a sync object (11 R361): a ring head (0 to 255) or monitor m of context c. -/
inductive Waiter where
  | ring (r : Fin 256)
  | monitor (c : Fin 64) (m : Fin 64)
deriving DecidableEq, Repr

/-- The pages whose index register R471 names or that select an entry. -/
inductive IndexReg where
  | fin
  | row
  | gas
  | opt
  | uprog
  | spx
  | stash
deriving DecidableEq, Repr

/-- The two parts of a memory return's address: the sub-channel and the request's tag there (02 R43, R44). -/
structure EmpTag where
  sub : Fin 8
  tag : BitVec 10
deriving DecidableEq, Repr

/-- A flit as the PHY delivers it: its 1,024 bits and how many symbols the FEC corrected in it (02 R49, 04 R133). -/
structure PhyFlit where
  bits : BitVec 1024
  fecCorr : Byte
deriving DecidableEq, Repr

/-- A wake source (15 R456). The code that the PWC drives is 0, or the reserved 3, which is taken as run (02 R59). -/
inductive WakeFrom where
  | psReq (reserved : Bool)
  | bandFlit
  | doorbell
  | tileWord
  | access
  | syncTimeout
  | resetInput
deriving DecidableEq, Repr

/-- A write of DBG.SEL on the debug bus, with the level of DEBUG_UNLOCK at the access (02 R66). -/
structure DbgWrite where
  unlock : Bool
  value : W32
deriving DecidableEq, Repr

/-- A read of one half of DBG.DATA on the debug bus, with the level of DEBUG_UNLOCK at the access (02 R66). -/
structure DbgRead where
  unlock : Bool
  high : Bool
deriving DecidableEq, Repr

/-- The commands: one constructor for each row of spec/opcode_table.json, in the table's order. The operands
are what the row's rule says comes with the event (log 3). -/
inductive Instr where
  -- tile ports and intake
  | tailTransfer (port : Fin 64) (word : W64) (ecc : Ecc)
  | cdataBeat (port : Fin 64) (beat : BitVec 512) (last : Bool) (ecc : Ecc)
  | ddataDeposit (port : Fin 64) (header : W64) (beat : BitVec 512) (ecc : Ecc)
  | odataTransfer (port : Fin 64)
  | intakeSlot
  | expertDispatchRoute (slot : Fin 4096)
  | chunkIssue
  | tagExhausted
  | chunkRetire (tag : Fin 65536)
  -- message-signalled interrupts, sequencer, memory port
  | msixRequest (vec : Fin 262)
  | msixAck
  | csqWdogKick
  | csqWatchdog
  | sequencerResume
  | rdataReturn (tag : EmpTag) (poison : Byte) (ecc : Ecc)
  | wackReturn (tag : EmpTag)
  | schedModeLost (cause : SchedCause)
  | empTimingWrite (value : W32)
  | configWrite (who : Requester) (word : BitVec 22) (value : W32)
  -- mailbox, keys, attestation
  | mbxInDoorbell (value : W32)
  | mbxOutDbClear (value : W32)
  | keyLoad (slot : Fin 40) (key : BitVec 256) (fixed : W32)
  | keyReq (port : Fin 10) (dir : Dir)
  | keyTimeout (port : Fin 10) (dir : Dir)
  | zeroise
  | attMessage (port : Fin 10) (msg : Byte) (bytes : List Byte)
  | attestationFlit (port : Fin 10) (flit : PhyFlit)
  | attestTimeout (port : Fin 10)
  -- power
  | dozeRequest
  | sleepRequest
  | sleepEntryDone
  | runRequest
  | wakeSource (cause : WakeFrom)
  | pwrGood
  | sleepWakeDone
  | dozeWakeDone
  | thrLimitChange (limit : Byte)
  | throttleInForce
  | peakClr (value : W32)
  -- resets and debug
  | rstColdN
  | rstWarmN
  | rstEngN
  | rstDone
  | ctxRstReq (ctx : Fin 64)
  | ctxRstAck (ctx : Fin 64)
  | debugFreezeRequest (source : FreezeSource)
  | debugFreezeDone
  | debugFreezeEnd (source : FreezeSource)
  | dbgSelWrite (value : DbgWrite)
  | dbgDataRead (high : DbgRead)
  -- router and links
  | ringMapWrite (value : W32)
  | routeHold
  | holdDone
  | routeHoldRelease
  | headerRoute (input : Fin 11)
  | phyLock (port : Fin 10)
  | linkLost (port : Fin 10) (lock : Bool) (laneOk : W16)
  | trainingFlit (port : Fin 10) (flit : PhyFlit)
  | trainingTimeout (port : Fin 10)
  | portRetrain (port : Fin 10) (value : W32)
  | portMapWrite (port : Fin 10) (value : W32)
  | flitReceive (port : Fin 10) (flit : BitVec 1024) (frame : W32) (index : Fin 63) (uncorrectable : Bool) (fecCorr : Byte)
  | lcfReceive (port : Fin 10) (flit : PhyFlit) (uncorrectable : Bool)
  | lcfSend (port : Fin 10)
  | retryTimeout (port : Fin 10)
  | chunkReceive
  -- queues, templates, regions
  | doorbell (who : Requester) (ctx : Fin 64) (ring : Fin 256) (count : W32)
  | tplInstall
  | tplRead
  | tplInvalidate
  | regionEntryWrite (value : W32)
  | ringEnable (value : W32)
  | ringDisable (value : W32)
  | abort
  -- reduction and admission
  | nodeCombine (slot : Fin 4096) (seq : W32) (level : Fin 5) (node : Fin 16)
  | absent
  | redFailLogClear (value : W32)
  | admissionScan
  | grant
  | revoke
  | admitMsg
  | firm
  | refuse
  | retract
  | go
  | stageAfterTimeout (slot : Fin 4096)
  | slotReturn
  | transposeRowBlock (slot : Fin 4096) (block : Nat)
  | depositEntryWrite (value : W64)
  -- finish stage and row statistics
  | finChunk
  | rowPass (slot : Fin 4096)
  | rowStatisticsFinal (slot : Fin 4096) (block : Nat)
  | finEntryCommit (value : W64)
  | rowEntryCommit (value : W64)
  | entryIndexWrite (reg : IndexReg) (value : W32)
  -- step machine
  | preloadSweep
  | releaseContribution
  | stepDeadline
  | release
  | updateWave
  | mirrorSend (bucket : Fin 4096)
  | mirrorPacket
  | mirrorAck
  | mirrorTimeout (bucket : Fin 4096)
  | commitVote
  | commit
  | stepEnable (value : W32)
  | stepDisable (value : W32)
  | bucketEntryCommit (value : W64)
  | optEntryCommit (value : W32)
  | uprogWrite (value : W32)
  -- exchange
  | expertPacket
  | expertCombineOutput (slot : Fin 4096)
  | clearToSend
  | receiveReady (slot : Fin 4096)
  | stashRelease (who : Requester) (ctx : Fin 64) (stash : Fin 16) (value : W32)
  | stashCfgWrite (value : W64)
  | spxEntryCommit (value : W64)
  -- sync fabric
  | segmentWrite (value : W64)
  | windowSet (ctx : Fin 64) (value : W32)
  | windowAdd (ctx : Fin 64) (value : W32)
  | monitorArm (ctx : Fin 64) (value : W64)
  | syncTimeout (waiter : Waiter)
  | preempt (value : W32)
  | resume (value : W32)
  | signal
  | arrive
  | crownTimeout (chan : Fin 64)
  | synDbgSelWrite (value : W32)
  | dbgWaiterRead
  -- record and replay
  | gapRecord
  | captureModeWrite (value : W32)
  | captureFreeze
  | replayGo
  | replayStop
  | replayDelivery (port : Fin 10)
  | replayForcedChoice (record : Nat)
  -- faults and recovery
  | eccSingleBit (mem : Fin 12)
  | eccDoubleBit (mem : Fin 12) (word : W32)
  | eccLogClear (value : W32)
  | lateContribution (slot : Fin 4096)
  | histClear (value : W32)
  | adopt
  | returnGen
  | restore
  | restoreRecordVerify (bucket : Fin 4096)
  | recTimeout
  | seed
  | setGen
  | lost
  | remirror
  | injectArm (value : W32)
  | stragglerExpiry (slot : Fin 4096)
  | silentChipExpiry
  | authLogClear (value : W32)
  | ucodeDataWrite (value : W32)
  | csqStart (value : W32)
  | microcodeCheckDone
  | pageErrClear (page : Fin 19) (value : W32)
  | pageIrqClear (page : Fin 19) (value : W32)
  | pageIrqMaskWrite (page : Fin 19) (value : W32)
  | trainingFlitSend (port : Fin 10)
  | phyPresentChange (port : Fin 10) (present : Bool)
  | remoteSignalComplete (ring : Fin 256)
  | schedRise
deriving DecidableEq, Repr

end Sys2Proof
end

