-- ==== Sys2Proof/Machine/Bits.lean ====
section
/-! DEFINITION. Machine/Bits.lean: bit fields, little-endian bytes, saturating counters and the one
sparse-array read and write. -/

namespace Sys2Proof.Machine

/-- Bits [hi:lo] of a natural number (00 R4). -/
def bits (v hi lo : Nat) : Nat := (v >>> lo) % 2 ^ (hi + 1 - lo)

/-- Bit i of a natural number. -/
def bit (v i : Nat) : Bool := v.testBit i

/-- A Bool as the bit it stands for. -/
def b2n (b : Bool) : Nat := if b then 1 else 0

/-- The n low bytes of v, least significant first (00 R5). -/
def leBytes : Nat → Nat → List Byte
  | 0, _ => []
  | n + 1, v => BitVec.ofNat 8 v :: leBytes n (v / 256)

/-- The number a little-endian byte list holds (00 R5). -/
def leNat : List Byte → Nat
  | [] => 0
  | b :: rest => b.toNat + 256 * leNat rest

/-- Byte i of a list, zero past its end. -/
def byteAt (l : List Byte) (i : Nat) : Byte := l.getD i 0

/-- n bytes of a list from position i, zero past its end. -/
def slice (l : List Byte) (i n : Nat) : List Byte :=
  let r := (l.drop i).take n
  r ++ List.replicate (n - r.length) 0

/-- The little-endian number of n bytes at position i. -/
def leAt (l : List Byte) (i n : Nat) : Nat := leNat (slice l i n)

/-- Divide a list into pieces of n elements (n not zero); fuel bounds the number of pieces. -/
def piecesAux {α : Type} (n : Nat) : Nat → List α → List (List α)
  | 0, _ => []
  | _, [] => []
  | fuel + 1, l => l.take n :: piecesAux n fuel (l.drop n)

/-- Divide a list into pieces of n elements; the last may be short. -/
def pieces {α : Type} (n : Nat) (l : List α) : List (List α) := piecesAux n l.length l

/-- Ceiling division. -/
def cdiv (a b : Nat) : Nat := (a + b - 1) / b

/-- a rounded up to a multiple of b. -/
def roundUp (a b : Nat) : Nat := cdiv a b * b

/-- The least k with 2^k ≥ v (zero for 0 and 1). -/
def clog2 (v : Nat) : Nat := if v ≤ 1 then 0 else (v - 1).log2 + 1

/-- A counter advanced by n, saturating at all ones (16 R472). -/
def satAdd {w : Nat} (c : BitVec w) (n : Nat) : BitVec w :=
  if c.toNat + n < 2 ^ w then BitVec.ofNat w (c.toNat + n) else BitVec.allOnes w

/-- Number of ones in the low n bits of v. -/
def popcount : Nat → Nat → Nat
  | 0, _ => 0
  | n + 1, v => v % 2 + popcount n (v / 2)

/-- Serial-number order modulo 2^32 (05 R153): a at or after b. -/
def serialGe (a b : W32) : Bool := (a - b).toNat < 2 ^ 31

/-- Serial-number order modulo 2^32: a strictly after b. -/
def serialGt (a b : W32) : Bool := a != b && serialGe a b

/-- Insert an element before the first one that it is not after. -/
def sortInsert {α : Type} (le : α → α → Bool) (a : α) : List α → List α
  | [] => [a]
  | b :: rest => if le a b then a :: b :: rest else b :: sortInsert le a rest

/-- A list in order; equal elements keep theirs. -/
def sortBy {α : Type} (le : α → α → Bool) (l : List α) : List α := l.foldr (sortInsert le) []

/-- The value a sparse array holds at an index; d is the reset value of an element. -/
def Sparse.get {α : Type} (d : α) : Sparse α → Nat → α
  | [], _ => d
  | (j, v) :: rest, i => if i = j then v else Sparse.get d rest i

/-- A sparse array without the element at an index. -/
def Sparse.erase {α : Type} (m : Sparse α) (i : Nat) : Sparse α :=
  m.filter (fun p => p.1 != i)

/-- Insert a pair before the first larger index. -/
def Sparse.insert {α : Type} (i : Nat) (v : α) : Sparse α → Sparse α
  | [] => [(i, v)]
  | (j, u) :: rest => if i < j then (i, v) :: (j, u) :: rest else (j, u) :: Sparse.insert i v rest

/-- A sparse array with the element at an index set; an element set to d is not listed. -/
def Sparse.set {α : Type} [DecidableEq α] (d : α) (m : Sparse α) (i : Nat) (v : α) : Sparse α :=
  if v = d then Sparse.erase m i else Sparse.insert i v (Sparse.erase m i)

/-- Replace the element at an index by a function of it. -/
def Sparse.modify {α : Type} [DecidableEq α] (d : α) (m : Sparse α) (i : Nat) (f : α → α) : Sparse α :=
  Sparse.set d m i (f (Sparse.get d m i))

/-- The canonical form of a sparse array: indices strictly rising, no element equal to d. -/
def Sparse.wf {α : Type} (d : α) (m : Sparse α) : Prop :=
  m.Pairwise (fun a b => a.1 < b.1) ∧ ∀ p ∈ m, p.2 ≠ d

/-- Replace every listed element by a function of its index and itself. -/
def Sparse.mapAll {α : Type} [DecidableEq α] (d : α) (m : Sparse α) (f : Nat → α → α) : Sparse α :=
  (m.map fun p => (p.1, f p.1 p.2)).filter fun p => decide (p.2 ≠ d)

/-- Set n elements of a list from the first: position i of a plain list, unchanged past its end. -/
def setAt {α : Type} (l : List α) (i : Nat) (v : α) : List α := l.set i v

/-- Fold a state function over a list, first element first. -/
def foldS {σ α : Type} (l : List α) (s : σ) (f : α → σ → σ) : σ := l.foldl (fun t a => f a t) s

end Sys2Proof.Machine
end

