-- ==== Sys2Proof/Machine/Gcm.lean ====
section
/-! DEFINITION. Machine/Gcm.lean: AES-256-GCM with 96-bit IVs and 128-bit tags (14 R423 to R425), by the published
standards FIPS 197 and SP 800-38D that the spec names (log 13). -/

namespace Sys2Proof.Machine

/-! ### AES-256 -/

/-- Multiply by x in GF(2^8). -/
def xtime (b : Byte) : Byte := if b.msb then (b <<< 1) ^^^ 0x1B else b <<< 1

def gfMulAux : Nat → Byte → Byte → Byte
  | 0, _, _ => 0
  | n + 1, a, b => (if b.getLsbD 0 then a else 0) ^^^ gfMulAux n (xtime a) (b >>> 1)

def gfMul (a b : Byte) : Byte := gfMulAux 8 a b

/-- The inverse in GF(2^8), a^254; zero for zero. -/
def gfInv (a : Byte) : Byte :=
  let a2 := gfMul a a
  let a4 := gfMul a2 a2
  let a8 := gfMul a4 a4
  let a16 := gfMul a8 a8
  let a32 := gfMul a16 a16
  let a64 := gfMul a32 a32
  let a128 := gfMul a64 a64
  gfMul a2 (gfMul a4 (gfMul a8 (gfMul a16 (gfMul a32 (gfMul a64 a128)))))

def aesSub (a : Byte) : Byte :=
  let b := gfInv a
  b ^^^ b.rotateLeft 1 ^^^ b.rotateLeft 2 ^^^ b.rotateLeft 3 ^^^ b.rotateLeft 4 ^^^ 0x63

def xorBytes (a b : List Byte) : List Byte := List.zipWith (· ^^^ ·) a b

/-- The key schedule: words of four bytes, latest first; rc is the next round constant. -/
def aesExpand : Nat → Nat → Byte → List (List Byte) → List (List Byte)
  | 0, _, _, ws => ws
  | n + 1, i, rc, ws =>
    let t := ws.headD []
    let t1 := if i % 8 = 0 then
        (match t with
        | [a, b, c, d] => [aesSub b ^^^ rc, aesSub c, aesSub d, aesSub a]
        | l => l)
      else if i % 8 = 4 then t.map aesSub else t
    aesExpand n (i + 1) (if i % 8 = 0 then xtime rc else rc) (xorBytes (ws.getD 7 []) t1 :: ws)

/-- The 15 round keys of a 256-bit key given as its 32 bytes. -/
def aesKeys (key : List Byte) : List (List Byte) :=
  (pieces 4 (aesExpand 52 8 1 (pieces 4 key).reverse).reverse).map List.flatten

def shiftRows (b : List Byte) : List Byte := (List.range 16).map fun i => byteAt b ((i + 4 * (i % 4)) % 16)

def mixColumn (c : List Byte) : List Byte :=
  match c with
  | [a, b, c, d] =>
    [xtime a ^^^ (xtime b ^^^ b) ^^^ c ^^^ d, a ^^^ xtime b ^^^ (xtime c ^^^ c) ^^^ d,
     a ^^^ b ^^^ xtime c ^^^ (xtime d ^^^ d), (xtime a ^^^ a) ^^^ b ^^^ c ^^^ xtime d]
  | l => l

def aesRounds : List (List Byte) → List Byte → List Byte
  | [], b => b
  | [k], b => xorBytes (shiftRows (b.map aesSub)) k
  | k :: ks, b => aesRounds ks (xorBytes ((pieces 4 (shiftRows (b.map aesSub))).flatMap mixColumn) k)

/-- Encrypt one block. -/
def aesBlock (keys : List (List Byte)) (b : List Byte) : List Byte :=
  aesRounds (keys.drop 1) (xorBytes b (keys.headD []))

/-! ### GCM -/

def beNat (l : List Byte) : Nat := leNat l.reverse
def beBytes (n v : Nat) : List Byte := (leBytes n v).reverse

/-- Multiplication in GF(2^128), bit 0 leftmost. -/
def ghMulAux : Nat → BitVec 128 → BitVec 128 → BitVec 128 → BitVec 128
  | 0, _, _, z => z
  | n + 1, x, v, z =>
    ghMulAux n (x <<< 1) (if v.getLsbD 0 then (v >>> 1) ^^^ (0xE1 <<< 120) else v >>> 1) (if x.msb then z ^^^ v else z)

def ghMul (x y : BitVec 128) : BitVec 128 := ghMulAux 128 x y 0

def pad16 (l : List Byte) : List Byte := l ++ List.replicate (roundUp l.length 16 - l.length) 0

def ghash (h : BitVec 128) (l : List Byte) : BitVec 128 :=
  (pieces 16 l).foldl (fun y b => ghMul (y ^^^ BitVec.ofNat 128 (beNat b)) h) 0

/-- The key stream block of a counter value. -/
def ctrBlock (keys : List (List Byte)) (iv : List Byte) (c : Nat) : List Byte := aesBlock keys (iv ++ beBytes 4 c)

/-- Encrypt or decrypt n plaintext bytes that start at byte pos of the message. -/
def gcmCrypt (keys : List (List Byte)) (iv : List Byte) (pos : Nat) (b : List Byte) : List Byte :=
  let first := pos / 16
  let n := cdiv (pos % 16 + b.length) 16
  let ks := (List.range n).flatMap fun i => ctrBlock keys iv (2 + first + i)
  xorBytes b (ks.drop (pos % 16))

/-- The tag over additional data and ciphertext. -/
def gcmTag (keys : List (List Byte)) (iv aad ct : List Byte) : List Byte :=
  let h := BitVec.ofNat 128 (beNat (aesBlock keys (List.replicate 16 0)))
  let s := ghash h (pad16 aad ++ pad16 ct ++ beBytes 8 (8 * aad.length) ++ beBytes 8 (8 * ct.length))
  xorBytes (beBytes 16 s.toNat) (ctrBlock keys iv 1)

end Sys2Proof.Machine
end

