-- ==== Sys2Proof/Machine/Codes.lean ====
section
/-! DEFINITION. Machine/Codes.lean: the error codes of 05 R182. -/

namespace Sys2Proof.Machine

/-! Each constant is the numeric value that R182 gives the name; 0x0000 means success. -/

abbrev cOk : W16 := 0x0000
abbrev cOpcodeInvalid : W16 := 0x0101
abbrev cFieldInvalid : W16 := 0x0102
abbrev cUnsupportedFormat : W16 := 0x0103
abbrev cRedOpInvalid : W16 := 0x0104
abbrev cLedgerScaleInvalid : W16 := 0x0105
abbrev cGroupInvalid : W16 := 0x0106
abbrev cStepRange : W16 := 0x0107
abbrev cStageCfgInvalid : W16 := 0x0108
abbrev cTemplateInvalid : W16 := 0x0109
abbrev cTemplateBusy : W16 := 0x010A
abbrev cTailInvalid : W16 := 0x010B
abbrev cTileNotMember : W16 := 0x010C
abbrev cDuplicatePart : W16 := 0x010D
abbrev cInstanceRange : W16 := 0x010E
abbrev cContextMismatch : W16 := 0x010F
abbrev cTcpDataError : W16 := 0x0110
abbrev cSpareInactive : W16 := 0x0111
abbrev cRegionInvalid : W16 := 0x0201
abbrev cRegionPermission : W16 := 0x0202
abbrev cRegionKind : W16 := 0x0203
abbrev cOffsetMisaligned : W16 := 0x0204
abbrev cLengthExceedsRegion : W16 := 0x0205
abbrev cLengthMisaligned : W16 := 0x0206
abbrev cRegionBusy : W16 := 0x0207
abbrev cDoorbellInvalid : W16 := 0x0301
abbrev cQueueDisabled : W16 := 0x0302
abbrev cAccessDenied : W16 := 0x0303
abbrev cContextReset : W16 := 0x0304
abbrev cSessionConflict : W16 := 0x0401
abbrev cTagExhausted : W16 := 0x0402
abbrev cPeerAborted : W16 := 0x0403
abbrev cAdmissionUnfit : W16 := 0x0404
abbrev cLinkCapabilityMissing : W16 := 0x0405
abbrev cLateContribution : W16 := 0x0406
abbrev cCrcMismatch : W16 := 0x0501
abbrev cLedgerMismatch : W16 := 0x0502
abbrev cPoisonedBucket : W16 := 0x0503
abbrev cStepRepeated : W16 := 0x0601
abbrev cStateLost : W16 := 0x0602
abbrev cMirrorFailed : W16 := 0x0603
abbrev cMaskInvalid : W16 := 0x0701
abbrev cIndexRange : W16 := 0x0702
abbrev cRoutingInvalid : W16 := 0x0703
abbrev cSyncIdUnmapped : W16 := 0x0801
abbrev cSyncTimeout : W16 := 0x0802
abbrev cOrphaned : W16 := 0x0803
abbrev cBarrierMismatch : W16 := 0x0804
abbrev cLinkProtocol : W16 := 0x0901
abbrev cLinkRetryExhausted : W16 := 0x0902
abbrev cLinkTrainFailed : W16 := 0x0903
abbrev cLinkVersionRefused : W16 := 0x0904
abbrev cLinkMapMismatch : W16 := 0x0905
abbrev cLinkLost : W16 := 0x0906
abbrev cLinkAuthFailed : W16 := 0x0A01
abbrev cAttestFailed : W16 := 0x0A02
abbrev cKeyTimeout : W16 := 0x0A03
abbrev cConfigInvalid : W16 := 0x0B01
abbrev cSchedModeLost : W16 := 0x0B02
abbrev cMemUncorrectable : W16 := 0x0B03
abbrev cSramUncorrectable : W16 := 0x0B04
abbrev cCsqWatchdog : W16 := 0x0B05
abbrev cCsqHalted : W16 := 0x0B06
abbrev cReplayDiverged : W16 := 0x0C01

/-- The group bit of a code for RRU.CAP_CTL.TRIG_MASK (12 R387): bit k - 1 for group 0x0k. -/
def codeGroup (c : W16) : Nat := c.toNat / 256

/-! Page numbers (16 R464). -/

abbrev pgCtl : Nat := 0
abbrev pgQue : Nat := 1
abbrev pgTpl : Nat := 2
abbrev pgSes : Nat := 3
abbrev pgTrk : Nat := 4
abbrev pgRed : Nat := 5
abbrev pgFin : Nat := 6
abbrev pgRow : Nat := 7
abbrev pgGas : Nat := 8
abbrev pgOpt : Nat := 9
abbrev pgSpx : Nat := 10
abbrev pgSyn : Nat := 11
abbrev pgRtr : Nat := 12
abbrev pgLnk : Nat := 13
abbrev pgLsu : Nat := 14
abbrev pgRru : Nat := 15
abbrev pgFlt : Nat := 16
abbrev pgPwr : Nat := 17
abbrev pgDbg : Nat := 18

end Sys2Proof.Machine
end

