-- ==== Sys2Proof/Machine/Fp.lean ====
section
/-! DEFINITION. Machine/Fp.lean: binary32 arithmetic, the element formats of 00 R10 and their conversions,
each computed exactly on integers and rounded once (06 R188 to R194, 08 R243 to R250). -/

namespace Sys2Proof.Machine

/-- A binary32 value as its bits. -/
abbrev F32 := BitVec 32

/-- The NaN that an invalid operation gives (06 R189, 08 R244). -/
def f32NaN : F32 := 0x7FC00000
def f32Inf : F32 := 0x7F800000
def f32One : F32 := 0x3F800000
def f32Half : F32 := 0x3F000000

def f32Neg (x : F32) : Bool := x.msb
def f32Exp (x : F32) : Nat := (x.toNat >>> 23) % 256
def f32Man (x : F32) : Nat := x.toNat % 2 ^ 23
def f32IsNaN (x : F32) : Bool := f32Exp x == 255 && f32Man x != 0
def f32IsInf (x : F32) : Bool := f32Exp x == 255 && f32Man x == 0
def f32IsFin (x : F32) : Bool := f32Exp x != 255
def f32IsZero (x : F32) : Bool := x.toNat % 2 ^ 31 == 0

/-- Quieting sets bit 22 and keeps every other bit (06 R189). -/
def f32Quiet (x : F32) : F32 := x ||| 0x00400000

/-- A finite value in units of 2^-149, the least subnormal. -/
def f32Mag (x : F32) : Nat :=
  if f32Exp x = 0 then f32Man x else (2 ^ 23 + f32Man x) <<< (f32Exp x - 1)

def f32Int (x : F32) : Int := if f32Neg x then - Int.ofNat (f32Mag x) else Int.ofNat (f32Mag x)

/-- num/den rounded to an integer, ties to even. -/
def rdiv (num den : Nat) : Nat :=
  let q := num / den
  let r := num % den
  if 2 * r > den || (2 * r == den && q % 2 == 1) then q + 1 else q

/-- floor(log2(num/den)) for a positive quotient. -/
def flog2Rat (num den : Nat) : Int :=
  let k : Int := Int.ofNat num.log2 - Int.ofNat den.log2
  let ge : Bool := match k with
    | .ofNat n => decide (num ≥ den * 2 ^ n)
    | .negSucc n => decide (num * 2 ^ (n + 1) ≥ den)
  if ge then k else k - 1

/-- The magnitude bits of num/den in a binary format with mb stored mantissa bits and the given bias,
rounded to nearest, ties to even, subnormals kept; the exponent field is not bounded above. -/
def encodeMag (mb bias : Nat) (num den : Nat) : Nat :=
  if num = 0 then 0
  else
    let emin : Int := 1 - Int.ofNat bias
    let e : Int := max (flog2Rat num den) emin - Int.ofNat mb
    let q := match e with
      | .ofNat n => rdiv num (den * 2 ^ n)
      | .negSucc n => rdiv (num * 2 ^ (n + 1)) den
    let field := (e + Int.ofNat mb - emin).toNat
    -- field is the exponent field less one; a subnormal has q below 2^mb and field 0
    field * 2 ^ mb + q

/-- Round a rational to binary32; an overflow gives the infinity of its sign (06 R188). -/
def f32Round (neg : Bool) (num den : Nat) : F32 :=
  let m := encodeMag 23 127 num den
  let m := if m ≥ 0x7F800000 then 0x7F800000 else m
  BitVec.ofNat 32 (m + if neg then 2 ^ 31 else 0)

/-- Round an integer count of units of 2^-149. -/
def f32RoundInt (v : Int) : F32 := f32Round (v < 0) v.natAbs (2 ^ 149)

/-- Binary32 sum of left operand a and right operand b (06 R188, R189). -/
def f32Add (a b : F32) : F32 :=
  if f32IsNaN a then f32Quiet a
  else if f32IsNaN b then f32Quiet b
  else if f32IsInf a then (if f32IsInf b && f32Neg a != f32Neg b then f32NaN else a)
  else if f32IsInf b then b
  else
    let v := f32Int a + f32Int b
    if v = 0 then
      (if f32IsZero a && f32IsZero b && f32Neg a && f32Neg b then 0x80000000 else 0)
    else f32RoundInt v

/-- Binary32 difference: a NaN operand is the result, quieted, the left one first (08 R244). -/
def f32Sub (a b : F32) : F32 :=
  if f32IsNaN a then f32Quiet a
  else if f32IsNaN b then f32Quiet b
  else f32Add a (b ^^^ 0x80000000)

def f32Mul (a b : F32) : F32 :=
  if f32IsNaN a then f32Quiet a
  else if f32IsNaN b then f32Quiet b
  else
    let neg := f32Neg a != f32Neg b
    if f32IsInf a || f32IsInf b then
      (if f32IsZero a || f32IsZero b then f32NaN else if neg then 0xFF800000 else f32Inf)
    else f32Round neg (f32Mag a * f32Mag b) (2 ^ 298)

def f32Div (a b : F32) : F32 :=
  if f32IsNaN a then f32Quiet a
  else if f32IsNaN b then f32Quiet b
  else
    let neg := f32Neg a != f32Neg b
    let z : F32 := if neg then 0x80000000 else 0
    let inf : F32 := if neg then 0xFF800000 else f32Inf
    if f32IsInf a then (if f32IsInf b then f32NaN else inf)
    else if f32IsInf b then z
    else if f32IsZero b then (if f32IsZero a then f32NaN else inf)
    else if f32IsZero a then z
    else f32Round neg (f32Mag a) (f32Mag b)

/-- floor(sqrt n) by fuel-bounded Newton steps from above. -/
def isqrtAux (n : Nat) : Nat → Nat → Nat
  | 0, x => x
  | fuel + 1, x => let y := (x + n / x) / 2; if y < x then isqrtAux n fuel y else x

def isqrt (n : Nat) : Nat := if n = 0 then 0 else isqrtAux n (2 * n.log2 + 4) (2 ^ (n.log2 / 2 + 1))

/-- sqrt(num/den) rounded to binary32: the root is taken to many spare bits, and an inexact root is moved off
every rounding boundary by a sticky bit. -/
def f32SqrtRat (num den : Nat) : F32 :=
  let k := 300
  let y := num * 2 ^ (2 * k)
  let r := isqrt (y / den)
  if r * r * den = y then f32Round false r (2 ^ k) else f32Round false (2 * r + 1) (2 ^ (k + 1))

def f32Sqrt (a : F32) : F32 :=
  if f32IsNaN a then f32Quiet a
  else if f32IsZero a then a
  else if f32Neg a then f32NaN
  else if f32IsInf a then a
  else f32SqrtRat (f32Mag a) (2 ^ 149)

/-- Reciprocal square root (08 R244, R257; the result for -0 is IEEE 754's, log 14). -/
def f32Rsqrt (a : F32) : F32 :=
  if f32IsNaN a then f32Quiet a
  else if f32IsZero a then (if f32Neg a then 0xFF800000 else f32Inf)
  else if f32Neg a then f32NaN
  else if f32IsInf a then 0
  else f32SqrtRat (2 ^ 149) (f32Mag a)

/-- Terms of the exponential series at t, in fixed point with 320 fraction bits. -/
def expSeries (t : Nat) : Nat → Nat → Nat → Nat
  | 0, _, _ => 0
  | fuel + 1, k, term => term + expSeries t fuel (k + 1) (term * t / (k * 2 ^ 320))

/-- Repeated squaring in fixed point with 320 fraction bits. -/
def squareTimes : Nat → Nat → Nat
  | 0, x => x
  | n + 1, x => squareTimes n (x * x / 2 ^ 320)

/-- e^(m / 2^149) for a magnitude below 128, in fixed point with 320 fraction bits. -/
def expFix (m : Nat) : Nat :=
  squareTimes 9 (expSeries (m * 2 ^ (320 - 149) / 2 ^ 9) 60 1 (2 ^ 320))

/-- exp, correctly rounded: the series carries far more bits than any binary32 case needs (log 14). -/
def f32ExpFn (a : F32) : F32 :=
  if f32IsNaN a then f32Quiet a
  else if f32IsInf a then (if f32Neg a then 0 else f32Inf)
  else if f32Mag a ≥ 110 * 2 ^ 149 then (if f32Neg a then 0 else f32Inf)
  else if f32Mag a = 0 then f32One
  else if f32Neg a then f32Round false (2 ^ 320) (expFix (f32Mag a))
  else f32Round false (expFix (f32Mag a)) (2 ^ 320)

/-- tanh, correctly rounded (log 14). -/
def f32Tanh (a : F32) : F32 :=
  if f32IsNaN a then f32Quiet a
  else if f32IsZero a then a
  else
    let one : F32 := if f32Neg a then 0xBF800000 else f32One
    if f32IsInf a then one
    else if f32Mag a ≥ 20 * 2 ^ 149 then one
    else
      let e2 := expFix (2 * f32Mag a)
      f32Round (f32Neg a) (e2 - 2 ^ 320) (e2 + 2 ^ 320)

/-- Numeric order of two finite or infinite values; -0 below +0 (06 R190). -/
def f32Lt (a b : F32) : Bool :=
  let key (x : F32) : Int := if f32Neg x then - Int.ofNat (x.toNat % 2 ^ 31) - 1 else Int.ofNat (x.toNat % 2 ^ 31)
  key a < key b

/-- Numeric greater-than in which the two zeros are equal and a NaN is not greater. -/
def f32Gt (a b : F32) : Bool :=
  !f32IsNaN a && !f32IsNaN b && !(f32IsZero a && f32IsZero b) && f32Lt b a

def f32Min (a b : F32) : F32 :=
  if f32IsNaN a then f32Quiet a else if f32IsNaN b then f32Quiet b else if f32Lt b a then b else a

def f32Max (a b : F32) : F32 :=
  if f32IsNaN a then f32Quiet a else if f32IsNaN b then f32Quiet b else if f32Lt a b then b else a

/-- The exact error of a finite binary32 sum, itself a binary32 value (06 R194). -/
def f32SumErr (s1 s2 s : F32) : F32 := f32RoundInt (f32Int s1 + f32Int s2 - f32Int s)

/-- One combine of pair mode (06 R194). The third value is t, which the bound of R204 needs. -/
def pairAdd (a b : F32 × F32) : (F32 × F32) × F32 :=
  let s := f32Add a.1 b.1
  let t := f32Add a.2 b.2
  if f32IsFin s then
    let e := f32Add t (f32SumErr a.1 b.1 s)
    ((s, e), t)
  else ((s, 0), t)

/-- finish_pair of 06 R194. -/
def pairFinish (p : F32 × F32) : F32 :=
  if f32IsZero p.2 || !f32IsFin p.1 then p.1 else f32Add p.1 p.2

/-! Element formats (00 R10). -/

/-- Element size in bytes; a reserved code has size 0. -/
def fmtSize : Nat → Nat
  | 0 => 4
  | 1 => 2
  | 2 => 2
  | 3 => 1
  | 4 => 1
  | 5 => 1
  | 6 => 4
  | 7 => 1
  | _ => 0

/-- Bytes that n elements of a format occupy, MXFP8 with its scale bytes (08 R250). -/
def fmtBytes (f n : Nat) : Nat := if f = 5 then n + n / 32 else n * fmtSize f

/-- BF16 widens by appending 16 zero bits (06 R184). -/
def widenBf16 (x : BitVec 16) : F32 := x.zeroExtend 32 <<< 16

/-- FP16 widens exactly; NaN payloads are kept (06 R184). -/
def widenFp16 (x : BitVec 16) : F32 :=
  let neg := x.msb
  let e := (x.toNat >>> 10) % 32
  let m := x.toNat % 1024
  let sgn := if neg then 2 ^ 31 else 0
  if e = 31 then BitVec.ofNat 32 (sgn + 0x7F800000 + m * 2 ^ 13)
  else if e = 0 then f32Round neg m (2 ^ 24)
  else f32Round neg ((1024 + m) * 2 ^ e) (2 ^ 25)

/-- The binary32 widening of an element of format 0 to 2 (06 R184); another format's bits are kept. -/
def widen (f : Nat) (raw : Nat) : F32 :=
  if f = 1 then widenBf16 (BitVec.ofNat 16 raw)
  else if f = 2 then widenFp16 (BitVec.ofNat 16 raw)
  else BitVec.ofNat 32 raw

/-- What a conversion gives: the element's bits, whether SAT_COUNT counts it, whether it is a NaN (08 R249, R498). -/
structure Conv where
  raw : Nat
  sat : Bool
  nan : Bool
deriving DecidableEq, Repr

/-- Convert a binary32 value to a target format under 08 R249. MXFP8 is encoded by block, not here. -/
def convert (f : Nat) (sat : Bool) (x : F32) : Conv :=
  let neg := f32Neg x
  let narrow (mb bias maxFin top nanMag width : Nat) (infIsOver : Bool) : Conv :=
    let sgn := if neg then 2 ^ (width - 1) else 0
    if f32IsNaN x then ⟨sgn + nanMag, false, true⟩
    else if f32IsInf x then
      (if infIsOver then
        (if sat then ⟨sgn + maxFin, true, false⟩ else ⟨sgn + top, true, true⟩)
      else ⟨sgn + top, false, false⟩)
    else
      let m := encodeMag mb bias (f32Mag x) (2 ^ 149)
      if m > maxFin then
        (if sat then ⟨sgn + maxFin, true, false⟩ else ⟨sgn + top, true, infIsOver⟩)
      else ⟨sgn + m, false, false⟩
  match f with
  | 1 => narrow 7 127 0x7F7F 0x7F80 ((x.toNat >>> 16) % 2 ^ 15 ||| 0x40) 16 false
  | 2 => narrow 10 15 0x7BFF 0x7C00 (0x7C00 + ((f32Man x >>> 13) ||| 0x200)) 16 false
  | 3 => narrow 3 7 0x7E 0x7F 0x7F 8 true
  | 4 => narrow 2 15 0x7B 0x7C 0x7E 8 false
  | _ => ⟨x.toNat, false, f32IsNaN x⟩

/-- One MXFP8 block of binary32 values: element bytes, scale byte, and whether it is a NaN block (08 R250). -/
def mxBlock (e5m2 : Bool) (vs : List F32) : List Byte × Byte × Bool :=
  if vs.any (fun v => !f32IsFin v) then (vs.map (fun _ => 0), 0xFF, true)
  else
    let a := vs.foldl (fun m v => max m (f32Mag v)) 0
    if a = 0 then (vs.map (fun v => if f32Neg v then 0x80 else 0), 127, false)
    else
      let emax : Int := if e5m2 then 15 else 8
      let x0 : Int := flog2Rat a (2 ^ 149) - emax
      let x : Int := max (-127) (min 127 x0)
      let el (v : F32) : Byte :=
        let num := match x with
          | .ofNat _ => f32Mag v
          | .negSucc n => f32Mag v * 2 ^ (n + 1)
        let den := match x with
          | .ofNat n => 2 ^ 149 * 2 ^ n
          | .negSucc _ => 2 ^ 149
        let m := if e5m2 then min (encodeMag 2 15 num den) 0x7B else min (encodeMag 3 7 num den) 0x7E
        BitVec.ofNat 8 (m + if f32Neg v then 128 else 0)
      (vs.map el, BitVec.ofNat 8 (x + 127).toNat, false)

/-! Activations (08 R246). -/

def c0 : F32 := 0x3F4C422A
def c1 : F32 := 0x3D372713
def c3 : F32 := 0x3E095D4F

def relu (p : F32) : F32 := if f32IsNaN p then f32Quiet p else if f32Gt p 0 then p else 0
def reluD (p : F32) : F32 := if f32IsNaN p then f32Quiet p else if f32Gt p 0 then f32One else 0

/-- t1 and th of gelu. -/
def geluParts (p : F32) : F32 × F32 :=
  let t1 := f32Mul p p
  let t2 := f32Mul t1 p
  let t3 := f32Mul c1 t2
  let t4 := f32Add p t3
  let t5 := f32Mul c0 t4
  (t1, f32Tanh t5)

def gelu (p : F32) : F32 :=
  let th := (geluParts p).2
  let t7 := f32Add f32One th
  let t8 := f32Mul f32Half p
  f32Mul t8 t7

def geluD (p : F32) : F32 :=
  let (t1, th) := geluParts p
  let d1 := f32Mul th th
  let d2 := f32Sub f32One d1
  let d3 := f32Mul c3 t1
  let d4 := f32Add f32One d3
  let d5 := f32Mul c0 d4
  let d6 := f32Mul d2 d5
  let d7 := f32Mul p d6
  let d8 := f32Mul f32Half d7
  let d9 := f32Add f32One th
  let d10 := f32Mul f32Half d9
  f32Add d10 d8

/-- sg of silu. -/
def siluGate (p : F32) : F32 :=
  let e := f32ExpFn (p ^^^ 0x80000000)
  let d := f32Add f32One e
  f32Div f32One d

def silu (p : F32) : F32 := f32Mul p (siluGate p)

def siluD (p : F32) : F32 :=
  let sg := siluGate p
  let q1 := f32Sub f32One sg
  let q2 := f32Mul p q1
  let q3 := f32Add f32One q2
  f32Mul sg q3

/-- The activation of a finish entry (08 R264 ACT). -/
def activation (act : Nat) (p : F32) : F32 :=
  match act with
  | 1 => relu p
  | 2 => gelu p
  | 3 => silu p
  | _ => p

/-- The derivative of an activation; the identity has none and is handled by its caller (08 R245). -/
def activationD (act : Nat) (p : F32) : F32 :=
  match act with
  | 1 => reluD p
  | 2 => geluD p
  | 3 => siluD p
  | _ => f32One

/-! Reduction operators (06 R183, R189, R190). -/

/-- Signed value of an n-bit pattern. -/
def sval (w v : Nat) : Int := (BitVec.ofNat w v).toInt

/-- One combine of two raw elements under RED_OP; fmt is the wire format (0, 6 or 7). Sum and the
floating-point minimum and maximum act on binary32. -/
def redOp (op fmt a b : Nat) : Nat :=
  let w := if fmt = 7 then 8 else 32
  if fmt = 0 then
    match op with
    | 0 => (f32Add (BitVec.ofNat 32 a) (BitVec.ofNat 32 b)).toNat
    | 2 => (f32Min (BitVec.ofNat 32 a) (BitVec.ofNat 32 b)).toNat
    | 3 => (f32Max (BitVec.ofNat 32 a) (BitVec.ofNat 32 b)).toNat
    | _ => a
  else
    match op with
    | 0 => (a + b) % 2 ^ w
    | 2 => if sval w b < sval w a then b else a
    | 3 => if sval w a < sval w b then b else a
    | 4 => a &&& b
    | 5 => a ||| b
    | 6 => a ^^^ b
    | _ => a

/-- The empty value of a reduction (06 R187), in the wire format. -/
def emptyValue (op fmt : Nat) : Nat :=
  match op with
  | 2 => if fmt = 0 then 0x7F800000 else if fmt = 6 then 0x7FFFFFFF else 0x7F
  | 3 => if fmt = 0 then 0xFF800000 else if fmt = 6 then 0x80000000 else 0x80
  | 4 => if fmt = 7 then 0xFF else 0xFFFFFFFF
  | _ => 0

/-- A 32-bit unsigned integer as binary32, rounded. -/
def f32OfNat (n : Nat) : F32 := f32Round false n 1

end Sys2Proof.Machine
end

