-- ==== Sys2Proof/Machine/Packet.lean ====
section
/-! DEFINITION. Machine/Packet.lean: coordinates, packets, the cuff, chunk, mirror and expert headers, band
messages, descriptors and the CRCs, as the wire and the memory hold them. -/

namespace Sys2Proof.Machine

/-- A chip's coordinates, logical or physical (03 R73, R99). -/
structure Coord where
  x : Nat
  y : Nat
  z : Nat
  w : Nat
deriving DecidableEq, Repr

/-- The coordinate word of the common header and of a training flit (04 R109, R127). -/
def Coord.word (c : Coord) (gen : Nat) : Nat :=
  c.x % 32 + c.y % 16 * 2 ^ 5 + c.z % 16 * 2 ^ 9 + c.w % 16 * 2 ^ 13 + gen % 16 * 2 ^ 17

def Coord.ofWord (v : Nat) : Coord := ⟨bits v 4 0, bits v 8 5, bits v 12 9, bits v 16 13⟩

/-- The four 4-bit logical coordinates as RTR.COORD lays them out (03 R99, 11 R350). -/
def Coord.nibbles (c : Coord) : Nat := c.x % 16 + c.y % 16 * 16 + c.z % 16 * 256 + c.w % 16 * 4096

def Coord.ofNibbles (v : Nat) : Coord := ⟨bits v 3 0, bits v 7 4, bits v 11 8, bits v 15 12⟩

/-- Coordinate on axis a: 0 X, 1 Y, 2 Z, 3 W (05 R157). -/
def Coord.get (c : Coord) (a : Nat) : Nat :=
  match a with
  | 0 => c.x
  | 1 => c.y
  | 2 => c.z
  | _ => c.w

def Coord.set (c : Coord) (a v : Nat) : Coord :=
  match a with
  | 0 => { c with x := v }
  | 1 => { c with y := v }
  | 2 => { c with z := v }
  | _ => { c with w := v }

/-! CRCs. -/

/-- One step of CRC-32C on a reflected register (06 R201). -/
def crc32cStep (c : BitVec 32) : BitVec 32 :=
  if c.getLsbD 0 then (c >>> 1) ^^^ 0x82F63B78 else c >>> 1

def crc32cByte (c : BitVec 32) (b : Byte) : BitVec 32 :=
  let c := c ^^^ b.zeroExtend 32
  crc32cStep (crc32cStep (crc32cStep (crc32cStep (crc32cStep (crc32cStep (crc32cStep (crc32cStep c)))))))

/-- CRC-32C of a byte list, in ascending address order (06 R201). -/
def crc32c (l : List Byte) : BitVec 32 := l.foldl crc32cByte 0xFFFFFFFF ^^^ 0xFFFFFFFF

def crc64Step (c : BitVec 64) : BitVec 64 :=
  if c.msb then (c <<< 1) ^^^ 0x42F0E1EBA9EA3693 else c <<< 1

def crc64Byte (c : BitVec 64) (b : Byte) : BitVec 64 :=
  let c := c ^^^ (b.zeroExtend 64 <<< 56)
  crc64Step (crc64Step (crc64Step (crc64Step (crc64Step (crc64Step (crc64Step (crc64Step c)))))))

/-- CRC-64 run over a byte list from a given register (12 R373). -/
def crc64From (c : BitVec 64) (l : List Byte) : BitVec 64 := l.foldl crc64Byte c

/-! Packets. -/

/-- A packet: the common header (04 R109), the packet's virtual channel, and its body bytes from 16 on
(108 bytes of the head or single flit, then 124 of each body flit); a byte past the list is zero.
The last five fields are the engine's own bookkeeping and are not on the wire: the tag a local chunk holds,
the ring whose remote signal this is, the outstanding source reads, the cycle of arrival, and the router input it
came by (10 for this chip's own). -/
structure Packet where
  dst : Coord
  gen : Nat
  src : Coord
  srcGen : Nat
  ptype : Nat
  len : Nat
  flags : Nat
  hops : Nat
  session : Nat
  vc : Nat
  body : List Byte
  tag : Option Nat
  ring : Option Nat
  reads : List Nat
  ccc : Nat
  inport : Nat
  /-- the channel it came by, whose buffer it holds -/
  invc : Nat
deriving DecidableEq, Repr

def ptChunk : Nat := 0x01
def ptPair : Nat := 0x02
def ptTopk : Nat := 0x03
def ptExpert : Nat := 0x04
def ptMirror : Nat := 0x05
def ptBand : Nat := 0x10

/-- Length in flits that a PTYPE fixes (04 R110, 09 R293, 10 R322, 11 R349). -/
def ptypeLen (t : Nat) : Nat := if t = ptBand then 1 else 34

def Packet.isBand (p : Packet) : Bool := p.ptype == ptBand

/-- The 124 body bytes of flit i of a packet (04 R109, R110). -/
def Packet.flitBody (p : Packet) (i : Nat) : List Byte :=
  if i = 0 then
    leBytes 4 (p.dst.word p.gen) ++ leBytes 4 (p.src.word p.srcGen) ++
      [BitVec.ofNat 8 p.ptype, BitVec.ofNat 8 p.len, BitVec.ofNat 8 p.flags, BitVec.ofNat 8 p.hops] ++
      leBytes 4 p.session ++ slice p.body 0 108
  else slice p.body (108 + (i - 1) * 124) 124

/-- The flit word of flit i (04 R106). -/
def Packet.flitWord (p : Packet) (i : Nat) : Nat :=
  let kind := if p.len = 1 then 3 else if i = 0 then 1 else 2
  kind + p.vc * 4 + (if i + 1 = p.len then 32 else 0) + i * 64

/-- Read a packet back from the bodies of its flits in order (04 R109). -/
def Packet.ofBodies (vc ccc port : Nat) (b : List Byte) : Packet :=
  { dst := Coord.ofWord (leAt b 0 4), gen := bits (leAt b 0 4) 20 17, src := Coord.ofWord (leAt b 4 4),
    srcGen := bits (leAt b 4 4) 20 17, ptype := leAt b 8 1, len := leAt b 9 1, flags := leAt b 10 1,
    hops := leAt b 11 1, session := leAt b 12 4, vc := vc, body := b.drop 16, tag := none, ring := none,
    reads := [], ccc := ccc, inport := port, invc := vc }

/-! The chunk header and cuff (05 R168, 06 R199). -/

structure ChunkHdr where
  seq : Nat
  bucket : Nat
  rank : Nat
  axis : Nat
  level : Nat
  offset : Nat
  elems : Nat
  fmt : Nat
  op : Nat
  last : Bool
  masked : Bool
  staged : Bool
  step : Nat
deriving DecidableEq, Repr

def ChunkHdr.bytes (h : ChunkHdr) : List Byte :=
  leBytes 4 h.seq ++ leBytes 2 h.bucket ++
    [BitVec.ofNat 8 (h.rank % 16 + h.axis % 4 * 16), BitVec.ofNat 8 h.level] ++ leBytes 8 (h.offset % 2 ^ 36) ++
    leBytes 2 h.elems ++ [BitVec.ofNat 8 (h.fmt % 16 + h.op % 16 * 16),
      BitVec.ofNat 8 (b2n h.last + 2 * b2n h.masked + 4 * b2n h.staged)] ++ leBytes 2 h.step ++
    List.replicate 18 0

def ChunkHdr.ofBytes (b : List Byte) : ChunkHdr :=
  { seq := leAt b 0 4, bucket := leAt b 4 2, rank := bits (leAt b 6 1) 3 0, axis := bits (leAt b 6 1) 5 4,
    level := leAt b 7 1, offset := bits (leAt b 8 8) 35 0, elems := leAt b 16 2, fmt := bits (leAt b 18 1) 3 0,
    op := bits (leAt b 18 1) 7 4, last := bit (leAt b 19 1) 0, masked := bit (leAt b 19 1) 1,
    staged := bit (leAt b 19 1) 2, step := leAt b 20 2 }

/-- The cuff's fields but for its CRCs. -/
structure Cuff where
  seq : Nat
  bucket : Nat
  step : Nat
  poison : Bool
  inf : Bool
  skip : Bool
  noledger : Bool
  pair : Bool
  leaves : Nat
  lscale : Int
  lsum : Int
  lbound : Nat
  nans : Nat
  infs : Nat
deriving DecidableEq, Repr

/-- The 64 cuff bytes over a payload, with fresh PCRC and CCRC (06 R199, R206). -/
def Cuff.bytes (c : Cuff) (pcrc : Nat) : List Byte :=
  let head := leBytes 4 pcrc ++ leBytes 4 c.seq ++ leBytes 2 c.bucket ++ leBytes 2 c.step ++
    [BitVec.ofNat 8 (b2n c.poison + 2 * b2n c.inf + 4 * b2n c.skip + 8 * b2n c.noledger + 16 * b2n c.pair),
      BitVec.ofNat 8 c.leaves, BitVec.ofInt 8 c.lscale, 0] ++
    leBytes 24 (BitVec.ofInt 192 c.lsum).toNat ++ leBytes 16 (c.lbound % 2 ^ 128) ++
    leBytes 2 c.nans ++ leBytes 2 c.infs
  head ++ leBytes 4 (crc32c head).toNat

def Cuff.ofBytes (b : List Byte) : Cuff :=
  let f := leAt b 12 1
  { seq := leAt b 4 4, bucket := leAt b 8 2, step := leAt b 10 2, poison := bit f 0, inf := bit f 1,
    skip := bit f 2, noledger := bit f 3, pair := bit f 4, leaves := leAt b 13 1,
    lscale := (BitVec.ofNat 8 (leAt b 14 1)).toInt, lsum := (BitVec.ofNat 192 (leAt b 16 24)).toInt,
    lbound := leAt b 40 16, nans := leAt b 56 2, infs := leAt b 58 2 }

/-- Full 4,096-byte payload of a byte list (05 R168). -/
def payload4096 (p : List Byte) : List Byte := slice p 0 4096

def pcrcOf (p : List Byte) : Nat := (crc32c (payload4096 p)).toNat

/-- A chunk: header, cuff bytes as carried, payload (bytes past the list are zero). -/
structure Chunk where
  hdr : ChunkHdr
  cuff : List Byte
  payload : List Byte
deriving DecidableEq, Repr

/-- The packet body bytes from 16 on of a chunk (04 R110). -/
def Chunk.body (c : Chunk) : List Byte := slice c.hdr.bytes 0 40 ++ slice c.cuff 0 64 ++ payload4096 c.payload

def Chunk.ofBody (b : List Byte) : Chunk :=
  { hdr := ChunkHdr.ofBytes (slice b 0 40), cuff := slice b 40 64, payload := slice b 104 4096 }

/-- Mirror packet header (09 R293). -/
structure MirrorHdr where
  seq : Nat
  bucket : Nat
  kind : Nat
  offset : Nat
  words : Nat
  last : Bool
  step : Nat
  gen : Bool
deriving DecidableEq, Repr

def MirrorHdr.bytes (h : MirrorHdr) : List Byte :=
  leBytes 4 h.seq ++ leBytes 2 h.bucket ++ [BitVec.ofNat 8 (h.kind % 4), 0] ++ leBytes 8 (h.offset % 2 ^ 40) ++
    leBytes 2 h.words ++ [0, BitVec.ofNat 8 (b2n h.last)] ++ leBytes 2 h.step ++ [BitVec.ofNat 8 (b2n h.gen)] ++
    List.replicate 17 0

def MirrorHdr.ofBytes (b : List Byte) : MirrorHdr :=
  { seq := leAt b 0 4, bucket := leAt b 4 2, kind := bits (leAt b 6 1) 1 0, offset := bits (leAt b 8 8) 39 0,
    words := leAt b 16 2, last := bit (leAt b 19 1) 0, step := leAt b 20 2, gen := bit (leAt b 22 1) 0 }

/-- Expert packet header (10 R322). -/
structure ExpertHdr where
  seq : Nat
  bucket : Nat
  kind : Nat
  offset : Nat
  bytes_ : Nat
  fmt : Nat
  last : Bool
  step : Nat
deriving DecidableEq, Repr

def ExpertHdr.bytes (h : ExpertHdr) : List Byte :=
  leBytes 4 h.seq ++ leBytes 2 h.bucket ++ [BitVec.ofNat 8 h.kind, 0] ++ leBytes 8 (h.offset % 2 ^ 40) ++
    leBytes 2 h.bytes_ ++ [BitVec.ofNat 8 (h.fmt % 16), BitVec.ofNat 8 (b2n h.last)] ++ leBytes 2 h.step ++
    List.replicate 18 0

def ExpertHdr.ofBytes (b : List Byte) : ExpertHdr :=
  { seq := leAt b 0 4, bucket := leAt b 4 2, kind := leAt b 6 1, offset := bits (leAt b 8 8) 39 0,
    bytes_ := leAt b 16 2, fmt := bits (leAt b 18 1) 3 0, last := bit (leAt b 19 1) 0, step := leAt b 20 2 }

/-! Band messages (11 R349, R350). -/

/-- STATUS of an arrival or release, as its byte's bits (11 R350). -/
structure BandStatus where
  late : Bool
  fail : Bool
  nonfinite : Bool
  timeout : Bool
  mismatch : Bool
deriving DecidableEq, Repr

def BandStatus.zero : BandStatus := ⟨false, false, false, false, false⟩
def BandStatus.byte (s : BandStatus) : Nat :=
  b2n s.late + 2 * b2n s.fail + 4 * b2n s.nonfinite + 8 * b2n s.timeout + 16 * b2n s.mismatch
def BandStatus.ofByte (v : Nat) : BandStatus := ⟨bit v 0, bit v 1, bit v 2, bit v 3, bit v 4⟩
def BandStatus.or (a b : BandStatus) : BandStatus :=
  ⟨a.late || b.late, a.fail || b.fail, a.nonfinite || b.nonfinite, a.timeout || b.timeout, a.mismatch || b.mismatch⟩

/-- Fields that ARRIVE and RELEASE share. -/
structure Arrival where
  chan : Nat
  op : Nat
  fmt : Nat
  gsize : Nat
  status : BandStatus
  epoch : W32
  count : Nat
  value : W32
  crown : Coord
deriving DecidableEq, Repr

inductive BandMsg where
  | signal (obj : Nat) (set : Bool) (value : W32) (fenceBytes : Nat) (source : Nat)
  | arrive (a : Arrival)
  | release (a : Arrival)
  | abort (code : W16) (rank : Nat) (home : Bool)
  | absent (level rank firstSeq bitmap : Nat)
  | slotReturn (level buffers : Nat)
  | clearToSend (count fmtOut : Nat)
  | mirrorAck (bucket : Nat) (gen : Bool)
  | grant (need : Nat) (staged : Bool) (axis gsize rank : Nat) (rank0 : Coord)
  | revoke
  | admitted
  | firm
  | refuse
  | retract
  | go
  | reserved (btype : Nat)
deriving DecidableEq, Repr

structure Band where
  ctx : Nat
  step : W16
  msg : BandMsg
deriving DecidableEq, Repr

def BandMsg.btype : BandMsg → Nat
  | .signal .. => 0x01
  | .arrive _ => 0x02
  | .release _ => 0x03
  | .abort .. => 0x04
  | .absent .. => 0x05
  | .slotReturn .. => 0x06
  | .clearToSend .. => 0x07
  | .mirrorAck .. => 0x08
  | .grant .. => 0x10
  | .revoke => 0x11
  | .admitted => 0x12
  | .firm => 0x13
  | .refuse => 0x14
  | .retract => 0x15
  | .go => 0x16
  | .reserved b => b

/-- Bytes of an arrival or release from body byte 20 (11 R350). -/
def Arrival.bytes (a : Arrival) : List Byte :=
  [BitVec.ofNat 8 (a.chan % 64), BitVec.ofNat 8 (a.op % 16 + a.fmt % 16 * 16), BitVec.ofNat 8 (a.gsize % 32),
    BitVec.ofNat 8 a.status.byte] ++ leBytes 4 a.epoch.toNat ++ leBytes 2 a.count ++ [0, 0] ++
    leBytes 4 a.value.toNat ++ leBytes 2 a.crown.nibbles

def Arrival.ofBytes (b : List Byte) : Arrival :=
  { chan := leAt b 0 1 % 64, op := leAt b 1 1 % 16, fmt := leAt b 1 1 / 16, gsize := leAt b 2 1 % 32,
    status := BandStatus.ofByte (leAt b 3 1), epoch := BitVec.ofNat 32 (leAt b 4 4), count := leAt b 8 2,
    value := BitVec.ofNat 32 (leAt b 12 4), crown := Coord.ofNibbles (leAt b 16 2) }

/-- Body bytes 20 on of a message (11 R350). -/
def BandMsg.bytes : BandMsg → List Byte
  | .signal obj set value fence source =>
    leBytes 4 (obj % 2 ^ 20 + b2n set * 2 ^ 20) ++ leBytes 4 value.toNat ++ leBytes 6 fence ++ leBytes 2 (source % 512)
  | .arrive a => a.bytes
  | .release a => a.bytes
  | .abort code rank home => leBytes 2 code.toNat ++ [BitVec.ofNat 8 (rank % 16 + b2n home * 128)]
  | .absent level rank firstSeq bitmap =>
    [BitVec.ofNat 8 level, BitVec.ofNat 8 (rank % 16), 0, 0] ++ leBytes 4 firstSeq ++ leBytes 8 bitmap
  | .slotReturn level buffers => [BitVec.ofNat 8 level, 0] ++ leBytes 2 buffers
  | .clearToSend count fmtOut => [0, 0, 0, 0] ++ leBytes 8 (count % 2 ^ 36) ++ [BitVec.ofNat 8 (fmtOut % 16)]
  | .mirrorAck bucket gen => leBytes 2 bucket ++ [BitVec.ofNat 8 (b2n gen)]
  | .grant need staged axis gsize rank rank0 =>
    [0, 0, 0, 0] ++ leBytes 4 need ++ [BitVec.ofNat 8 (b2n staged), BitVec.ofNat 8 (axis % 4),
      BitVec.ofNat 8 (gsize % 32), BitVec.ofNat 8 (rank % 16), 0, 0, 0, 0] ++ leBytes 2 rank0.nibbles
  | _ => []

def Band.body (m : Band) : List Byte :=
  [BitVec.ofNat 8 m.msg.btype, BitVec.ofNat 8 (m.ctx % 64)] ++ leBytes 2 m.step.toNat ++ m.msg.bytes

/-- Read the band payload of a single flit's body bytes 16 on (11 R350). -/
def Band.ofBody (b : List Byte) : Band :=
  let p := b.drop 4
  let msg := match leAt b 0 1 with
    | 0x01 => BandMsg.signal (bits (leAt p 0 3) 19 0) (bits (leAt p 0 3) 21 20 == 1) (BitVec.ofNat 32 (leAt p 4 4))
        (leAt p 8 6) (leAt p 14 2 % 512)
    | 0x02 => .arrive (Arrival.ofBytes p)
    | 0x03 => .release (Arrival.ofBytes p)
    | 0x04 => .abort (BitVec.ofNat 16 (leAt p 0 2)) (leAt p 2 1 % 16) (bit (leAt p 2 1) 7)
    | 0x05 => .absent (leAt p 0 1) (leAt p 1 1 % 16) (leAt p 4 4) (leAt p 8 8)
    | 0x06 => .slotReturn (leAt p 0 1) (leAt p 2 2)
    | 0x07 => .clearToSend (bits (leAt p 4 8) 35 0) (leAt p 12 1 % 16)
    | 0x08 => .mirrorAck (leAt p 0 2) (bit (leAt p 2 1) 0)
    | 0x10 => .grant (leAt p 4 4) (bit (leAt p 8 1) 0) (leAt p 9 1 % 4) (leAt p 10 1 % 32) (leAt p 11 1 % 16)
        (Coord.ofNibbles (leAt p 16 2))
    | 0x11 => .revoke
    | 0x12 => .admitted
    | 0x13 => .firm
    | 0x14 => .refuse
    | 0x15 => .retract
    | 0x16 => .go
    | b => .reserved b
  { ctx := leAt b 1 1 % 64, step := BitVec.ofNat 16 (leAt b 2 2), msg := msg }

/-! Descriptors (05 R157). -/

/-- The fields of a descriptor or of a session made from a template (05 R148, R149, R157). -/
structure Desc where
  opc : Nat
  redOp : Nat
  fmtIn : Nat
  fmtOut : Nat
  axis : Nat
  ring : Bool
  adapt : Bool
  stageOk : Bool
  fin : Bool
  mask : Bool
  fence : Bool
  vc : Nat
  gsid : Nat
  count : Nat
  gsize : Nat
  lscale : Int
  stageCfg : Nat
  srcOff : Nat
  srcReg : Nat
  bucket : Nat
  dstOff : Nat
  dstReg : Nat
  auxOff : Nat
  auxReg : Nat
  doneObj : Nat
  doneMode : Nat
  doneValue : W32
  waitObj : Nat
  waitCond : Nat
  waitValue : W32
  step : W16
  peer : Nat
  /-- a bit the layout marks zero is set -/
  dirty : Bool
deriving DecidableEq, Repr

/-- Decode a 64-byte descriptor, given as its eight 64-bit words (05 R157). -/
def Desc.ofWords (w : List Nat) : Desc :=
  let w0 := w.getD 0 0
  let w1 := w.getD 1 0
  let w2 := w.getD 2 0
  let w3 := w.getD 3 0
  let w4 := w.getD 4 0
  let w5 := w.getD 5 0
  let w6 := w.getD 6 0
  let w7 := w.getD 7 0
  { opc := bits w0 7 0, redOp := bits w0 11 8, fmtIn := bits w0 15 12, fmtOut := bits w0 19 16, axis := bits w0 21 20,
    ring := bit w0 22, adapt := bit w0 23, stageOk := bit w0 24, fin := bit w0 25, mask := bit w0 26,
    fence := bit w0 27, vc := bits w0 30 28, gsid := bits w0 62 32, count := bits w1 35 0, gsize := bits w1 44 40,
    lscale := (BitVec.ofNat 8 (bits w1 55 48)).toInt, stageCfg := bits w1 63 56, srcOff := bits w2 39 0,
    srcReg := bits w2 47 40, bucket := bits w2 63 48, dstOff := bits w3 39 0, dstReg := bits w3 47 40,
    auxOff := bits w4 39 0, auxReg := bits w4 47 40, doneObj := bits w5 19 0, doneMode := bits w5 21 20,
    doneValue := BitVec.ofNat 32 (bits w5 63 32), waitObj := bits w6 19 0, waitCond := bits w6 23 20,
    waitValue := BitVec.ofNat 32 (bits w6 63 32), step := BitVec.ofNat 16 (bits w7 15 0), peer := bits w7 19 16,
    dirty := bit w0 31 || bit w0 63 || bits w1 39 36 != 0 || bits w1 47 45 != 0 || bits w3 63 48 != 0 ||
      bits w4 63 48 != 0 || bits w5 31 22 != 0 || bits w6 31 24 != 0 || bits w7 63 20 != 0 }

/-- The eight words of 64 bytes. -/
def words64 (b : List Byte) : List Nat := (List.range 8).map fun i => leAt b (8 * i) 8

end Sys2Proof.Machine
end

