-- ==== Sys2Proof/Machine/Operands.lean ====
section
/-! DEFINITION. Machine/Operands.lean: the elements of a chunk in every layout, the ledger, the cuff of a contribution
and the combination of two operand chunks (06). -/

namespace Sys2Proof.Machine

/-! ### Elements of a chunk (06 R195, 10 R308) -/

/-- Elements as bytes: plain elements of sz bytes, or a run of pairs (s words, then e words from byte gap on). -/
def elemsOut (pair : Bool) (sz gap : Nat) (l : List Nat) : List Byte :=
  if pair then slice (l.flatMap fun v => leBytes 4 v) 0 gap ++ slice (l.flatMap fun v => leBytes 4 (v / 2 ^ 32)) 0 gap
  else l.flatMap fun v => leBytes sz v

/-- The n elements that a run of bytes holds. -/
def elemsIn (pair : Bool) (sz gap n : Nat) (b : List Byte) : List Nat :=
  if pair then
    List.zipWith (fun s e => leNat s + 2 ^ 32 * leNat e) ((pieces 4 (slice b 0 gap)).take n) ((pieces 4 (slice b gap gap)).take n)
  else ((pieces sz (slice b 0 (n * sz))).map leNat).take n

/-- Bytes of one block of 64 elements (10 R308). -/
def blockBytes (pair : Bool) (sz : Nat) : Nat := if pair then 512 else 64 * sz

/-- The blocks of a compacted payload, given the chunk mask's blocks still to read. -/
def blocksIn (pair : Bool) (sz : Nat) (mask : Nat) : List Nat → List Byte → List (List (Option Nat))
  | [], _ => []
  | j :: js, b =>
    if bit mask j then
      (elemsIn pair sz 256 64 b).map some :: blocksIn pair sz mask js (b.drop (blockBytes pair sz))
    else List.replicate 64 none :: blocksIn pair sz mask js b

/-- The elements of a chunk at each of its n positions; none is an elided element. -/
def chunkElems (pair : Bool) (sz n : Nat) (c : Chunk) : List (Option Nat) :=
  if c.hdr.masked then
    ((blocksIn pair sz (leAt c.payload 0 8) (List.range (cdiv n 64)) (c.payload.drop 8)).flatten).take n
  else (elemsIn pair sz 2048 (min n c.hdr.elems) c.payload).map some

/-- How the elements of a chunk travel: whether compacted, the count of present elements, the payload. -/
def layChunk (pair : Bool) (sz : Nat) (es : List (Option Nat)) : Bool × Nat × List Byte :=
  if es.all Option.isSome then
    let l := es.map (·.getD 0)
    (false, l.length, elemsOut pair sz 2048 l)
  else
    let bs := pieces 64 es
    let here := bs.map fun b => b.any Option.isSome
    let mask := (List.range bs.length).foldl (fun m j => m + if here.getD j false then 2 ^ j else 0) 0
    let body := bs.flatMap fun b => if b.any Option.isSome then elemsOut pair sz 256 (b.map (·.getD 0)) else []
    (true, (bs.filter fun b => b.any Option.isSome).foldl (fun n b => n + b.length) 0, leBytes 8 mask ++ body)

/-! ### NaN, infinity and the ledger (06 R191, R202 to R204) -/

/-- An element's binary32 parts: a value and, in pair mode, its error term. -/
def elemS (v : Nat) : F32 := BitVec.ofNat 32 v
def elemE (pair : Bool) (v : Nat) : F32 := if pair then BitVec.ofNat 32 (v / 2 ^ 32) else 0

/-- Whether an element in a format is a NaN or an infinity; integers are neither. -/
def isNaNIn (fmt : Nat) (v : Nat) : Bool :=
  if fmt ≤ 2 then f32IsNaN (widen fmt v)
  else if fmt = 3 then v % 128 == 0x7F
  else if fmt = 4 then v % 128 > 0x7C
  else false

def isInfIn (fmt : Nat) (v : Nat) : Bool :=
  if fmt ≤ 2 then f32IsInf (widen fmt v) else if fmt = 4 then v % 128 == 0x7C else false

/-- The exact value of an element in units of 2^-149, when it is finite (06 R202). -/
def elemInt (pair : Bool) (v : Nat) : Option Int :=
  if f32IsFin (elemS v) && f32IsFin (elemE pair v) then some (f32Int (elemS v) + f32Int (elemE pair v)) else none

/-- floor(v / 2^s), zero for an element that is not finite (06 R202). -/
def ledgerOf (pair : Bool) (s : Int) (v : Nat) : Int :=
  match elemInt pair v with
  | none => 0
  | some z => z / (2 ^ (149 + s).toNat : Nat)

/-- Inside the ledger window |v| < 2^(136 + s) (06 R203). -/
def inWindow (pair : Bool) (s : Int) (v : Nat) : Bool :=
  match elemInt pair v with
  | none => false
  | some z => z.natAbs < 2 ^ (285 + s).toNat

def ledgerSum (pair : Bool) (s : Int) (l : List Nat) : Int := l.foldl (fun a v => a + ledgerOf pair s v) 0

/-- h(r) of 06 R204; zero for a value that is not finite (R202). -/
def hTerm (s : Int) (r : F32) : Nat :=
  if !f32IsFin r then 0
  else
    let ex : Int := max ((f32Exp r : Int) - 127) (-126)
    let k := ex - 24 - s
    if k ≤ 0 then 1 else 2 ^ k.toNat

/-! ### Cuffs -/

/-- The cuff of a contribution, or of a chunk of an opcode that does not reduce (06 R199, R200, R204). ledger says
whether the reduction is sum or pair sum. -/
def sourceCuff (ledger pair : Bool) (fmt : Nat) (s : Int) (seq bucket step : Nat) (l : List Nat) : Cuff :=
  let nans := (l.filter (isNaNIn fmt)).length
  let infs := (l.filter (isInfIn fmt)).length
  { seq := seq, bucket := bucket, step := step, poison := nans != 0, inf := infs != 0,
    skip := ledger && l.any (fun v => !inWindow pair s v), noledger := !ledger, pair := pair, leaves := 1, lscale := s,
    lsum := if ledger then ledgerSum pair s l else 0, lbound := 0, nans := nans, infs := infs }

/-- Whether a cuff's own CRC stands (06 R206 check 1). -/
def ccrcOk (b : List Byte) : Bool := leAt b 60 4 == (crc32c (slice b 0 60)).toNat

/-- The first failure of checks 1 to 4 of 06 R206 over the operands, left before right: cause and operand. -/
def operandFault (lscale : Int) (ops : List Chunk) : Option (Nat × Nat) :=
  let check (cause : Nat) (bad : Chunk → Bool) : Option (Nat × Nat) :=
    (List.range ops.length).findSome? fun i => (ops[i]?).bind fun c => if bad c then some (cause, i) else none
  (check 1 fun c => !ccrcOk c.cuff).orElse fun _ =>
    (check 2 fun c => let k := Cuff.ofBytes c.cuff; k.seq != c.hdr.seq || k.bucket != c.hdr.bucket || k.step != c.hdr.step).orElse fun _ =>
      (check 3 fun c => leAt c.cuff 0 4 != pcrcOf c.payload).orElse fun _ =>
        check 5 fun c => (Cuff.ofBytes c.cuff).lscale != lscale

/-! ### Combination of two operand chunks (06 R185 to R195, R204, R205) -/

/-- What an output chunk's elements and cuff are, before the ledger check. -/
structure Combined where
  elems : List (Option Nat)
  cuff : Cuff
  lres : Int
  limit : Nat
deriving DecidableEq, Repr

/-- The binary32 that finish_pair makes of a pair (06 R194). -/
def finishElem (v : Nat) : Nat := (pairFinish (elemS v, elemE true v)).toNat

/-- One element of a node: its value, and its bound terms where it was combined. At a pair root the combined value is
finished, which adds one term more (06 R204). -/
def combineElem (op fmt : Nat) (root : Bool) (s : Int) (a b : Option Nat) : Option Nat × Nat :=
  match a, b with
  | none, b => (b, 0)
  | a, none => (a, 0)
  | some x, some y =>
    if op = 1 then
      let r := pairAdd (elemS x, elemE true x) (elemS y, elemE true y)
      let v := r.1.1.toNat + 2 ^ 32 * r.1.2.toNat
      -- an element that is not finite has no terms (R202)
      (some v, if (elemInt true v).isNone then 0
        else hTerm s r.2 + hTerm s r.1.2 + if root then hTerm s (BitVec.ofNat 32 (finishElem v)) else 0)
    else
      let v := redOp op fmt x y
      (some v, if op = 0 then hTerm s (BitVec.ofNat 32 v) else 0)

/-- The elements and cuff of a node's output over two present operand chunks (06 R204); at a pair root the elements
are the finished ones. -/
def combineChunks (op fmt : Nat) (root : Bool) (s : Int) (a b : List (Option Nat)) (ka kb : Cuff) : Combined :=
  let ledger : Bool := op ≤ 1
  let pair : Bool := op == 1
  let out := pair && !root
  let rs := List.zipWith (combineElem op fmt root s) a b
  let es := rs.map fun r => if pair && root then r.1.map finishElem else r.1
  let l := es.filterMap id
  let ins := a.filterMap id ++ b.filterMap id
  let nans := (l.filter (isNaNIn fmt)).length
  let infs := (l.filter (isInfIn fmt)).length
  let lsum := ka.lsum + kb.lsum
  let lbound := ka.lbound + kb.lbound + (rs.map Prod.snd).foldl (· + ·) 0
  let leaves := ka.leaves + kb.leaves
  let cuff : Cuff :=
    { seq := ka.seq, bucket := ka.bucket, step := ka.step, poison := nans != 0 || ka.poison || kb.poison,
      inf := infs != 0 || ka.inf || kb.inf,
      skip := ledger && (ka.skip || kb.skip || ins.any (fun v => !inWindow pair s v) || l.any fun v => !inWindow out s v),
      noledger := !ledger, pair := out, leaves := leaves, lscale := s, lsum := if ledger then lsum else 0,
      lbound := if ledger then lbound else 0, nans := nans, infs := infs }
  { elems := es, cuff := cuff, lres := if ledger then ledgerSum out s l else 0,
    limit := lbound + (leaves + 1) * l.length }

/-- The ledger check of 06 R205, on an output that is neither skipped nor without a ledger. -/
def Combined.passes (c : Combined) : Bool :=
  c.cuff.skip || c.cuff.noledger || (c.lres - c.cuff.lsum).natAbs ≤ c.limit

/-- The tree of 06 R185 over a list, by an operation on two present values. -/
def treeLevel {α : Type} (f : α → α → α) : List (Option α) → List (Option α)
  | a :: b :: rest =>
    (match a, b with
    | none, b => b
    | a, none => a
    | some x, some y => some (f x y)) :: treeLevel f rest
  | l => l

def treeAux {α : Type} (f : α → α → α) : Nat → List (Option α) → Option α
  | 0, l => l.headD none
  | n + 1, l => if l.length ≤ 1 then l.headD none else treeAux f n (treeLevel f l)

def tree {α : Type} (f : α → α → α) (l : List (Option α)) : Option α := treeAux f l.length l

end Sys2Proof.Machine
end

