-- ==== Sys2Proof/Config.lean ====
section
/-! DEFINITION. Config.lean: the free values of the model. Each is opaque: nothing can be proved about the
value it takes, so a statement holds for every value. -/

namespace Sys2Proof

/-- A byte the spec leaves open: of a stash entry whose RECEIVE failed (10 R325; log 11), of a combined token whose format has no
widening (log 28), the outcome of a choice (log 27). Applied to the state's free-value counter and the byte's index. -/
opaque Config.freeByte : Nat → Nat → Byte

/-- PWR_EST, the power over the last tick, "computed from the slot use" by a formula the spec does not
give (15 R458; log 12). Applied to the state's free-value counter. -/
opaque Config.powerEst : Nat → Byte

/-- A 64-bit word the spec names but does not determine: a raw word of the palm, and a word of the sequencer's data memory,
which its microcode alone writes (16 R495; log 22). Applied to the free-value counter. -/
opaque Config.freeWord : Nat → W64

/-- REQ_READY of a sub-channel for a kind of request in a cycle outside scheduled mode: an input pin that no command of the
table drives (02 R43, R44; log 61). Applied to the free-value counter, the sub-channel and whether the request is a write. -/
opaque Config.reqReady : Nat → Nat → Bool → Bool

/-- The reach class of the plus hop of an axis at a chip other than this one and its neighbour: the port maps are each chip's
own (03 R79; 07 R220; log 18). Applied to the axis and the chip's logical coordinates. -/
opaque Config.hopReach : Nat → Nat → Fin 4

/-- The own virtual channel, less one, of a packet that made a sidestep on VC7 and whose session is not at this chip: no
field of the packet carries it (03 R85; 04 R109; log 42). Applied to the packet's SESSION and to its SRC word. -/
opaque Config.ownVc : Nat → Nat → Fin 7

/-- An output element of a session that does not reduce whose input element lies in an absent part (05 R144; log 79): the spec
gives it no value. Applied to the GSID and the element's number. -/
opaque Config.absentOut : Nat → Nat → BitVec 32

/-- The port whose link buffers a word index of memories 8 and 9 lies in, and the session whose palm buffer a word index of
memory 5 lies in: the spec lays out neither memory (13 R389, R391, R393; log 33). Applied to the word index; taken
modulo the number of ports or sessions. -/
opaque Config.bufferOwner : Nat → Nat

/-- The size, less one, of the group whose shards a bucket holds, on a chip that has run no gradient session of the bucket: no
field of the bucket entry names it (09 R301, 13 R405; log 29). Applied to the bucket's number; taken modulo 16. -/
opaque Config.bucketGroup : Nat → Nat

end Sys2Proof
end

