-- ==== Sys2Proof/Machine/State.lean ====
section
/-! DEFINITION. Machine/State.lean: the state of the block, its reset values, and the reasons a step can stop.
Each field's default is its value at reset; INVENTORY.md gives the rule of every field. An element of a sparse
array that is not listed has the element type's default. -/

namespace Sys2Proof.Machine

/-! ### Page headers (16 R466 to R470) -/

structure Hdr where
  irqErr : Bool := false
  irqSat : Bool := false
  maskErr : Bool := true
  maskSat : Bool := true
  code : W16 := 0
  count : Byte := 0
  scratch : W32 := 0
deriving DecidableEq, Repr

/-! ### Memory port (02 R43 to R48) -/

/-- What an outstanding EMP write is for. -/
inductive WPurpose where
  | session (slot bytes : Nat) (tag : Option Nat)
  /-- output of a row block of a ROW_STATS session -/
  | rowOut (slot bytes block : Nat)
  | record (ring : Nat)
  | gas (bucket : Nat)
  | wave (bucket upTo : Nat)
  | mirror (bucket : Nat) (isSeal : Bool) (gsrc : Coord) (step : W16) (gen : Bool)
  | restore (bucket : Nat)
  | other
deriving DecidableEq, Repr

/-- What an outstanding EMP read was for (13 R394). -/
inductive RPurpose where
  | gasAcc (bucket : Nat)
  | preload (bucket span : Nat)
  | wave (bucket start : Nat)
  | mirror (bucket : Nat)
  | restore (bucket : Nat)
  | session (slot gsid : Nat)
  | fin (slot gsid seq : Nat)
  | desc (ring : Nat)
  | other
deriving DecidableEq, Repr

/-- A write of the engine: its number, and how many of its requests are not yet acknowledged. -/
structure WReq where
  tag : Nat
  purpose : WPurpose
  left : Nat := 1
deriving DecidableEq, Repr

/-- A read of the engine; undo holds the bytes that a poisoned return puts back. -/
structure RReq where
  tag : Nat
  addr : Nat
  beats : Nat
  purpose : RPurpose
  undo : List Host.Cell
  left : Nat := 1
deriving DecidableEq, Repr

/-- A request on the port (R43): the read or write it is part of, its first beat (address [47:6]) and 1 to 8 beats within
one 512-byte block, whose beat mask they are. -/
structure EmpReq where
  op : Nat
  write : Bool
  beat : Nat
  beats : Nat
deriving DecidableEq, Repr

structure Emp where
  reads : List RReq := []
  writes : List WReq := []
  nextTag : Nat := 0
  sched : Bool := false
  /-- requests not yet issued, oldest first -/
  wait : List EmpReq := []
  /-- requests issued and not returned, with their tags; a sub-channel has its own tags for reads and for writes -/
  out : List (BitVec 10 × EmpReq) := []
  /-- beats issued in this period, by sub-channel (R46) -/
  used : Sparse Nat := []
  /-- bytes to write to parts of beats that wait while RD_LAT is 0 (R48) -/
  held : List (WPurpose × Nat × List Byte) := []
deriving DecidableEq, Repr

/-! ### Page CTL (01 R20 to R24, 02 R48, 15 R451, R461) -/

structure Ctl where
  run : Bool := false
  halted : Bool := false
  restarts : BitVec 4 := 0
  lastCause : BitVec 2 := 0
  eccCorrected : W16 := 0
  wdogTimeout : BitVec 24 := 25000
  wdogCount : Nat := 0
  expired : Bool := false
  restarting : Bool := false
  issueStopped : Bool := false
  digest : W64 := 0
  decisions : Nat := 0
  rdLat : Byte := 0
  refOffset : BitVec 11 := 0
  refLen : Byte := 0
  schedLost : Bool := false
  ucodeAddr : W16 := 0
  ucode : Sparse W32 := []
  data : Sparse W32 := []
  ucodeCrc : W32 := 0
  csqLen : BitVec 17 := 0
  crcCheck : Option W32 := none
  stepStart : W64 := 0
deriving DecidableEq, Repr

/-! ### Page QUE and the tile ports -/

/-- What the head of a ring waits on (05 R154, R502; 11 R346, R357), with the tick the wait began. -/
inductive HeadState where
  | idle
  /-- the descriptor is being read -/
  | fetch
  | fence
  | wait (phys start : Nat)
  | slot
  /-- the channel's last arrival is still out -/
  | chan
  | barrier (chan start : Nat)
  | remote
deriving DecidableEq, Repr

structure Ring where
  base : W64 := 0
  cpl : W64 := 0
  enable : Bool := false
  sizeLog2 : BitVec 5 := 0
  ctx : BitVec 6 := 0
  producer : W32 := 0
  head : W32 := 0
  done : W32 := 0
  code : W16 := 0
  cur : Option Desc := none
  headState : HeadState := .idle
  tagStall : Bool := false
  /-- descriptors completed ahead of DONE, by number -/
  written : List W32 := []
deriving DecidableEq, Repr

structure Tcp where
  ctx : BitVec 6 := 0
  en : Bool := false
deriving DecidableEq, Repr

/-- What a tail word's data became (05 R503). -/
inductive PartUse where
  | unresolved
  | bound (slot part beats : Nat)
  | discard
deriving DecidableEq, Repr

/-- The CDATA of one tail word, in acceptance order. -/
structure Part where
  idx : BitVec 2
  use : PartUse := .unresolved
  data : List Byte := []
  beats : Nat := 0
  consumed : Nat := 0
  closed : Bool := false
  /-- a part with an uncorrectable beat or a wrong length while unresolved -/
  bad : Bool := false
deriving DecidableEq, Repr

structure Tile where
  /-- tail words not yet taken: word, intake index, whether it arrived with a double-bit error -/
  intake : List (W64 × BitVec 2 × Bool) := []
  nextIdx : BitVec 2 := 0
  parts : List Part := []
  odata : List (BitVec 512 × W16) := []
  stat : List (W16 × BitVec 2) := []
  held : Option (W64 × BitVec 512) := none
deriving DecidableEq, Repr

structure Que where
  ringIndex : Byte := 0
  rings : Sparse Ring := []
  tcp : Sparse Tcp := []
  /-- one mask bit per vector 0 to 271; an unlisted vector is masked -/
  unmasked : Sparse Bool := []
  slot : Nat := 0
deriving DecidableEq, Repr

/-- Message-signalled interrupts (02 R62, R63); a ring's vector waits for its record's WACK (R64). -/
structure Msix where
  pendingVecs : Sparse Bool := []
  outstanding : Option (BitVec 9) := none
deriving DecidableEq, Repr

/-! ### Page TPL (05 R148, R178) -/

structure Tpl where
  index : BitVec 10 := 0
  data : Sparse W32 := []
  entries : Sparse (BitVec 512) := []
deriving DecidableEq, Repr

/-! ### Page SES -/

inductive SesSource where
  | ring (r : Nat) (n : W32)
  | tpl (t : Nat) (step : W16) (inst : Nat)
deriving DecidableEq, Repr

/-- Slot states (16 R496). -/
inductive SesState where
  | wait
  | held
  | firm
  | run
  | rejected
deriving DecidableEq, Repr

/-- A pair of a top-k stream: its index, its value, and POISON and INF of the chunk it came in (06 R192, R499). -/
structure TopkPair where
  idx : Nat
  val : W32
  poison : Bool
  inf : Bool
deriving DecidableEq, Repr

/-- A top-k node's stream state (10 R315, R316): pairs waiting on each side and the running sums. -/
structure TopkNode where
  left : List TopkPair := []
  right : List TopkPair := []
  leftLast : Bool := false
  rightLast : Bool := false
  leftAbsent : Bool := false
  rightAbsent : Bool := false
  sumA : Int := 0
  pIn : Nat := 0
  skip : Bool := false
  poison : Bool := false
  inf : Bool := false
  leavesL : Nat := 0
  leavesR : Nat := 0
  /-- chunks taken from each side -/
  fedL : Nat := 0
  fedR : Nat := 0
  done : Bool := false
deriving DecidableEq, Repr

/-- One block of a row-statistics session (08 R258, R259). phase: statistics chunks received per rank. -/
structure RowBlock where
  /-- the local input in binary32 (none: absent), held since the first pass; in a backward mode x too, and the records (R258, R260) -/
  xs : List (Option W32) := []
  saved : List W32 := []
  recs : List (W32 × W32) := []
  /-- γ and β as read at the first pass -/
  gammas : List W32 := []
  betas : List W32 := []
  firstDone : Bool := false
  midDone : Bool := false
  lastDone : Bool := false
  final0 : Bool := false
  final1 : Bool := false
  /-- reduced statistics, two binary32 values a row -/
  stat0 : List W32 := []
  stat1 : List W32 := []
  /-- output elements in binary32, kept where MXFP8 blocks cross row blocks -/
  ys : List W32 := []
  /-- the block's output has returned WACK: its hold place is free -/
  written : Bool := false
deriving DecidableEq, Repr

/-- What this chip does with source data once they have been read (02 R47): output runs to the destination, with the chunk
to note; nothing but the counters of 08 R498; expert rows or counts to this chip; a transposed row block; the output of a
group of one; the routing of a dispatch; the tokens of a combine. -/
inductive LocalWork where
  | deliver (m : Nat) (runs : List (Nat × List Byte × List Byte)) (got : Option Nat)
  | count
  | row (kind offset : Nat) (bytes : List Byte)
  | counts (l : List Nat)
  | block (writes : List (Nat × List Byte))
  | root (els : List (Option Nat)) (fmt : Nat) (poison skip : Bool)
  | route
  | tokens
deriving DecidableEq, Repr

/-- Work that waits for reads, with the chunk's tag and what it adds to the counters of 08 R498. -/
structure LocalOp where
  reads : List Nat
  tag : Option Nat
  seq : Nat
  work : LocalWork
  sats : Nat := 0
  nans : Nat := 0
  mxs : Nat := 0
deriving DecidableEq, Repr

structure Session where
  gsid : Nat
  ctx : Nat
  src : SesSource
  d : Desc
  st : SesState
  code : W16 := 0
  tileMask : W64 := 0
  partCount : Nat := 0
  heard : W64 := 0
  absentParts : W64 := 0
  n : Nat
  rank : Nat
  base : Nat
  palm : Nat := 0
  staged : Bool := false
  waitTick : Nat := 0
  progTick : Nat := 0
  cursor : Nat := 0
  issued : Nat := 0
  /-- pairs of a top-k list that have been read (10 R313) -/
  listPos : Nat := 0
  /-- source data being read for use at this chip -/
  locals : List LocalOp := []
  /-- absent outputs not yet declared: destination rank, level, lowest rank covered, SEQ (10 R310) -/
  absentDue : List (Nat × Nat × Nat × Nat) := []
  rootDone : Nat := 0
  /-- outputs released by each node hosted here, by shard x 256 + level x 16 + node -/
  nodeNext : Sparse Nat := []
  sums : List (Nat × W32) := []
  infs : Nat := 0
  poison : Bool := false
  skip : Bool := false
  /-- operand chunks sent and not yet returned, by rank × 8 + level (07 R221) -/
  used : Sparse Nat := []
  owed : Sparse Nat := []
  /-- operand packets that wait for credit: destination rank, level, packet -/
  outs : List (Nat × Nat × Packet) := []
  landed : Nat := 0
  got : Sparse Bool := []
  topk : Sparse TopkNode := []
  routed : Bool := false
  expertBytes : Sparse Nat := []
  expertWant : Sparse Nat := []
  combined : Bool := false
  rows : Sparse RowBlock := []
  rowNext : Nat := 0
  /-- its region check was made: it counts in USERS (05 R160) -/
  regionChecked : Bool := true
  /-- the class of pass last completed: 0 none, 1 first, 2 middle, 3 last -/
  rowLast : Nat := 0
  cts : Bool := false
  ctsSent : Bool := false
  stash : Option (Nat × W32) := none
  stashWaited : Bool := false
  tblocks : Sparse Bool := []
  /-- output for the tiles: first element and element bytes; first block and scale bytes (R150) -/
  outE : List (Nat × List Byte) := []
  outS : List (Nat × List Byte) := []
  holdUntil : Option Nat := none
  held : Bool := false
  done : Bool := false
deriving DecidableEq, Repr

structure Region where
  base : W64 := 0
  len : W64 := 0
  valid : Bool := false
  rd : Bool := false
  wr : Bool := false
  kind : BitVec 2 := 0
deriving DecidableEq, Repr

/-- A coordinated session at this chip as home (07 R229). -/
structure HomeSes where
  gsid : Nat
  ctx : Nat
  step : W16
  axis : Nat
  gsize : Nat
  rank0 : Coord
  granted : BitVec 16 := 0
  firm : BitVec 16 := 0
  admitted : Bool := false
deriving DecidableEq, Repr

structure Ses where
  slots : List (Nat × Session) := []
  regIndex : W32 := 0
  regBase : W64 := 0
  regLen : W64 := 0
  regions : Sparse Region := []
  fullStalls : W32 := 0
  abortDrops : W32 := 0
  lastReject : W32 := 0
  abortList : List Nat := []
  stageAfter : BitVec 24 := 2500
  admitRetracts : W32 := 0
  stageBase : W64 := 0
  stageLen : W64 := 0
  depIndex : Byte := 0
  dep : Sparse W64 := []
  homes : List HomeSes := []
deriving DecidableEq, Repr

/-! ### Page TRK (05 R165 to R167, R181) -/

structure Tag where
  slot : Nat
  gsid : Nat
  seq : Nat
  retired : Bool := false
deriving DecidableEq, Repr

structure Trk where
  tags : List (Nat × Tag) := []
  highWater : BitVec 17 := 0
  tagStalls : W64 := 0
  stallWarn : BitVec 24 := 25000
  lastServed : Option Nat := none
  stallStart : Option Nat := none
  reported : Bool := false
deriving DecidableEq, Repr

/-! ### Page RED and the palm (06 R209 to R214) -/

/-- An operand held at a node: none is a known absence (06 R186, 10 R310). peer is the group rank of the remote
host that sent it. -/
structure Operand where
  gsid : Nat
  seq : Nat
  level : Nat
  node : Nat
  right : Bool
  chunk : Option Chunk
  peer : Option Nat
  ccc : Nat
  /-- the reads the chunk awaits -/
  reads : List Nat
  /-- a staged operand: its buffer of the staging area, and whether it has been read back from it (07 R233) -/
  area : Option (Nat × Bool) := none
  /-- the tag of a contribution that its reads still owe to the palm (05 R165) -/
  tag : Option Nat := none
deriving DecidableEq, Repr

structure Red where
  ledgerChecks : W64 := 0
  ledgerSkips : W32 := 0
  ledgerFails : W32 := 0
  crcFails : W32 := 0
  poisoned : W32 := 0
  failGsid : W32 := 0
  failSeq : W32 := 0
  failInfo : W32 := 0
  failDelta : W32 := 0
  poisonGsid : W32 := 0
  skipIrq : Bool := false
  poisonIrq : Bool := true
  operands : List Operand := []
deriving DecidableEq, Repr

/-! ### Pages FIN and ROW (08) -/

/-- A result chunk waiting to enter FIN (08 R248): first element within the session, raw result elements with
absent ones empty-valued, and its auxiliary read. -/
structure FinItem where
  slot : Nat
  gsid : Nat
  seq : Nat
  first : Nat
  vals : List Nat
  fmt : Nat
  /-- the auxiliary reads' bias block and pre-activations (08 R247, R248) -/
  bias : List W32 := []
  pre : List W32 := []
  /-- the reads the chunk awaits -/
  reads : List Nat
  tag : Option Nat
deriving DecidableEq, Repr

structure Fin' where
  index : Byte := 0
  entries : Sparse (BitVec 128) := []
  held : Option W64 := none
  satCount : W32 := 0
  nanOut : W32 := 0
  mxNanBlocks : W32 := 0
  queue : List FinItem := []
deriving DecidableEq, Repr

structure Row where
  index : Byte := 0
  entries : Sparse (BitVec 192) := []
  /-- data words written and not yet committed, by number (16 R471) -/
  held : List (Nat × W64) := []
  nanRows : W32 := 0
  holdStalls : W32 := 0
  thimble : Sparse W64 := []
  bad : Sparse Bool := []
deriving DecidableEq, Repr

/-! ### Pages GAS and OPT (09) -/

structure Park where
  gsid : Nat
  ctx : Nat
  ring : Nat
  n : W32
  d : Desc
  poison : Bool
  infs : Nat
  sumSq : W32
  skip : Bool
  /-- group size and this chip's rank -/
  gsize : Nat
  rank : Nat
  /-- payload bytes that had landed (11 R347) -/
  landed : Nat := 0
deriving DecidableEq, Repr

structure Bkt where
  deposits : W32 := 0
  ready : Bool := false
  reduced : Bool := false
  poison : Bool := false
  updated : Bool := false
  mirrored : Bool := false
  gathered : Bool := false
  tailFail : Bool := false
  park : Option Park := none
  infs : Nat := 0
  sumSq : W32 := 0
  /-- shard elements whose waves have returned WACK (R286) -/
  cursor : Nat := 0
  /-- shard elements whose waves have been run -/
  waveAt : Nat := 0
  /-- shard elements of the record sent, and the next packet number -/
  mirrorAt : Nat := 0
  mirrorSeq : Nat := 0
  sealSent : Bool := false
  mirrorTick : Option Nat := none
  resends : Nat := 0
  /-- q of the bucket's latest gradient session; 0 before one -/
  shard : Nat := 0
  /-- bytes of the record a RESTORE has placed, as beats, and its seal -/
  restored : Sparse Bool := []
  restoreSeal : List Byte := []
  verified : Bool := false
deriving DecidableEq, Repr

structure Gas where
  winBase : W64 := 0
  winLen : W64 := 0
  bktIndex : BitVec 12 := 0
  buckets : Sparse (BitVec 512) := []
  held : List (Nat × W64) := []
  bkt : Sparse Bkt := []
  depRejects : W32 := 0
  lastReject : W32 := 0
  frozenDrops : W32 := 0
  staleDrops : W32 := 0
  holdCycles : W64 := 0
  epoch : Sparse Bool := []
  used : Sparse Nat := []
  rejRaised : Bool := false
deriving DecidableEq, Repr

/-- Constants of one optimizer entry (09 R282): k0 to k15, then p1 and p2. -/
structure OptK where
  /-- word 0 of the entry: RULE, PFMT, NSTATE and the microprogram's place (R282) -/
  w0 : W32 := 0
  k : List W32
  p1 : W32
  p2 : W32
deriving DecidableEq, Repr

structure Opt where
  step : W16 := 0
  en : Bool := false
  policy : Bool := false
  repeatMax : BitVec 4 := 3
  mirrorVc : BitVec 3 := 6
  mirrorEn : Bool := false
  deadline : BitVec 24 := 250000
  state : BitVec 3 := 6
  attempt : BitVec 4 := 0
  verdict : BitVec 2 := 0
  committed : W16 := 0
  normSq : W32 := 0
  normLocal : W32 := 0
  buddy : W16 := 0
  mirrorSrc : BitVec 17 := 0
  mirrorBase : W64 := 0
  mirrorLen : W64 := 0
  mirrorTimeout : BitVec 24 := 25000
  gen : Bool := false
  entIndex : BitVec 6 := 0
  entries : Sparse (BitVec 512) := []
  held : List (Nat × W32) := []
  upIndex : BitVec 6 := 0
  uprog : Sparse W32 := []
  zeroed : W32 := 0
  skipped : W32 := 0
  repeats : W32 := 0
  mirrorResends : W32 := 0
  consts : List (Nat × OptK) := []
  /-- GSIDs retired by the latest repeat and by the one before it (R283) -/
  repeatA : List Nat := []
  repeatB : List Nat := []
  failed : Bool := false
  /-- a gradient session of the next step has failed (R280) -/
  failedNext : Bool := false
  deadlineStart : Option Nat := none
  late : Bool := false
  voted : Bool := false
  /-- a COMMIT result waiting for earlier frames' tag checks (14 R431): step, frames awaited by port and FRAME_SEQ -/
  commitWait : Option (W16 × List (Nat × W32)) := none
  authHalt : Bool := false
  advanceB : Bool := false
  updated : Bool := false
deriving DecidableEq, Repr

/-! ### Page SPX (10 R330 to R332) -/

structure Stash where
  cfg : W64 := 0
  assigned : W32 := 0
  filled : W32 := 0
  released : W32 := 0
deriving DecidableEq, Repr

structure Spx where
  index : Byte := 0
  entries : Sparse (BitVec 192) := []
  held : List (Nat × W64) := []
  stashIndex : BitVec 4 := 0
  stash : Sparse Stash := []
  elided : W64 := 0
  absentMsgs : W32 := 0
  topkPairs : W32 := 0
  overflows : W32 := 0
  drops : W32 := 0
  stashFullEvents : W32 := 0
  stashFullCycles : W64 := 0
  sendWaitCycles : W64 := 0
  lastFail : W16 := 0
deriving DecidableEq, Repr

/-! ### Page SYN (11) -/

/-- Object states (11 R333). -/
inductive ObjState where
  | free
  | live
  | orphaned
deriving DecidableEq, Repr

structure Obj where
  value : W32 := 0
  ctx : BitVec 6 := 0
  st : ObjState := .free
  tmo : BitVec 2 := 0
  rewritten : Bool := false
deriving DecidableEq, Repr

structure Fenced where
  gsid : Nat
  need : Nat
  ctx : Nat
  obj : Nat
  set : Bool
  value : W32
  source : Nat
  chip : Coord
deriving DecidableEq, Repr

/-- A node's place in a tree: child ports, parent port (none at the crown), participation, participants. -/
structure Tree where
  children : List Nat
  parent : Option Nat
  participant : Bool
  expect : Nat
deriving DecidableEq, Repr

/-- A combining entry of a node (11 R353): arrivals by port, 10 for the chip's own, in arrival order. -/
structure Combine where
  chan : Nat
  crown : Coord
  ctx : Nat
  step : W16
  arrivals : List (Nat × Arrival)
  mismatch : Bool
  sent : Bool
  /-- tick of the first arrival, for the crown's timer (R356) -/
  start : Nat
  /-- the group tree, formed at the first arrival (R352) -/
  tree : Tree
deriving DecidableEq, Repr

structure Monitor where
  cfg : W64 := 0
  target : W64 := 0
  armed : Bool := false
  /-- the physical object it waits on since it was armed (R336, R342) -/
  phys : Nat := 0
  start : Nat := 0
  code : W16 := 0
deriving DecidableEq, Repr

structure Window where
  obj : BitVec 20 := 0
  monIndex : BitVec 6 := 0
  code : W16 := 0
  winCode : W16 := 0
  resetPending : Bool := false
deriving DecidableEq, Repr

/-- The stored result of a channel's last RELEASE (11 R354). -/
structure LastRelease where
  status : Byte := 0
  count : W16 := 0
  value : W32 := 0
deriving DecidableEq, Repr

structure Syn where
  objects : Sparse Obj := []
  segIndex : W32 := 0
  segments : Sparse W64 := []
  timeouts : Sparse (BitVec 24) := []
  crownTimeout : BitVec 24 := 375000
  preempted : W64 := 0
  treeMachine : W32 := 0
  treeDomain : W32 := 0
  chanSel : BitVec 6 := 0
  arrived : Sparse W32 := []
  released : Sparse W32 := []
  lastRelease : Sparse LastRelease := []
  traceEn : Bool := false
  traceBase : W64 := 0
  dbgSel : BitVec 18 := 0
  dbgNext : Nat := 0
  fenceDrops : W32 := 0
  bandDrops : W32 := 0
  staleArrivals : W32 := 0
  timeoutCount : W32 := 0
  orphanReleases : W32 := 0
  chanCfg : Sparse (BitVec 7) := []
  fenced : List Fenced := []
  combine : List Combine := []
  /-- waits whose timeout ran out in doze or sleep, with their codes: released after the wake (01 R36) -/
  expired : List (Waiter × W16) := []
  windows : Sparse Window := []
  monitors : Sparse Monitor := []
deriving DecidableEq, Repr

/-! ### Page RTR (03 R97 to R104) -/

structure RingMap where
  excluded : BitVec 5 := 31
  x0 : BitVec 5 := 0
  dead : Bool := false
deriving DecidableEq, Repr

structure Rtr where
  shape : W32 := 0
  coord : W32 := 0
  origin : W16 := 0
  role : W32 := 3
  axisMap : Byte := 0xE4
  hold : Bool := true
  holdDone : Bool := true
  adaptEn : Bool := true
  mapGen : BitVec 4 := 0
  misroute : W32 := 0
  ringIndex : BitVec 12 := 0
  ringMap : Sparse RingMap := []
  /-- port-map words [19:0] -/
  portMap : Sparse (BitVec 20) := []
  /-- packets at the router inputs of ports 0 to 9 and of the chip itself (10), oldest first -/
  inputs : Sparse (List Packet) := []
  /-- packets that reached this chip, oldest first -/
  inbox : List Packet := []
deriving DecidableEq, Repr

/-! ### Page LNK, and LSU per port -/

/-- One traffic flit as the retry buffer and the tag see it: flit word and cipher body. -/
structure TFlit where
  word : W32
  cipher : List Byte
deriving DecidableEq, Repr

/-- A frame sent and not acknowledged (04 R120), with its LCF bytes once sent. -/
structure Frame where
  seq : W32
  flits : List TFlit
  lcf : Option (List Byte)
  replays : Nat
  epoch : Nat
deriving DecidableEq, Repr

/-- A packet queued toward a port: whether it enters a ring there (03 R84). -/
structure Queued where
  pkt : Packet
  enter : Bool
deriving DecidableEq, Repr

structure Port where
  st : BitVec 3 := 0
  attempts : BitVec 2 := 0
  peerVersion : BitVec 4 := 0
  peerCaps : BitVec 4 := 0
  agreedCaps : BitVec 4 := 0
  nakSent : W32 := 0
  nakRcvd : W32 := 0
  fecCorr : W32 := 0
  uncorr : W32 := 0
  dup : W32 := 0
  failCode : W16 := 0
  present : Bool := false
  lock : Bool := false
  laneOk : W16 := 0
  phyEn : Bool := false
  /-- PHY_CTL.LANE_EN (02 R49) -/
  laneEn : W16 := 0
  /-- the capabilities offered in this training (04 R134) -/
  offer : BitVec 4 := 0xF
  trainReq : Bool := false
  seenRx : Bool := false
  rxSeen : Bool := false
  txSeen : Bool := false
  stateTick : Nat := 0
  partner : Option Coord := none
  /-- the link has been down since it was last up: packets toward it are discarded (13 R395) -/
  lost : Bool := false
  -- transmit
  txSeq : W32 := 0
  txFlits : List TFlit := []
  lcfSlot : Nat := 0
  lcfSent : Bool := false
  lcfRcvd : Bool := false
  credits : Sparse Nat := []
  queues : List Queued := []
  current : Option (Queued × Nat) := none
  deficit : Sparse Nat := []
  rrVc : Nat := 1
  rrOpen : Bool := false
  retry : List Frame := []
  /-- replays of the frame that is still open (04 R124) -/
  openReplays : Nat := 0
  ackTick : Nat := 0
  sentVc : Sparse Bool := []
  wire : List (List Byte) := []
  -- receive
  rxSeq : W32 := 0
  rxIdx : Nat := 0
  discarding : Bool := false
  nakDue : Option W32 := none
  ackSeq : W32 := 0xFFFFFFFF
  rxFlits : List TFlit := []
  partial_ : List (Nat × Packet × List Byte × Nat) := []
  freed : Sparse Nat := []
  grants : Sparse Nat := []
  toGrant : Sparse Nat := []
  pool : Nat := 0
  demandIn : Byte := 0
  captures : List (Packet × W32) := []
  -- security
  txEpoch : Nat := 0
  rxEpoch : Nat := 0
  txF : Nat := 0
  rxF : Nat := 0
  txReq : Option Nat := none
  rxReq : Option Nat := none
  txNext : Bool := false
  rxNext : Bool := false
  authFails : W32 := 0
  attFails : W32 := 0
  attBuf : List Byte := []
  attMsg : Nat := 0
  attIdx : Nat := 0
  doneSent : Bool := false
  doneRcvd : Bool := false
deriving DecidableEq, Repr

structure Lnk where
  capsEn : BitVec 4 := 0xF
  /-- weights of VC1 to VC7; an unlisted weight is 1 -/
  weights : Sparse Byte := []
  maxNak : BitVec 4 := 8
  timeoutLoops : BitVec 4 := 4
  lcfGap : Byte := 64
  ports : Sparse Port := []
deriving DecidableEq, Repr

structure Key where
  key : BitVec 256 := 0
  fixed : W32 := 0
  loaded : Bool := false
deriving DecidableEq, Repr

structure Lsu where
  attTimeout : BitVec 24 := 125000
  keyTimeout : BitVec 24 := 25000
  authLog : W32 := 0
  authLogSeq : W32 := 0
  authLogCcc : W64 := 0
  keys : Sparse Key := []
  keyAck : Option Nat := none
  /-- the cycle of the latest ZEROISE (02 R58) -/
  zeroised : Option W64 := none
  /-- messages passed to the Trust Block on ATT: port, MSG, bytes -/
  attOut : List (Nat × Nat × List Byte) := []
deriving DecidableEq, Repr

/-! ### Page RRU (12 R386 to R388) -/

structure Rru where
  mode : BitVec 2 := 0
  mirrorPay : Bool := false
  trigMask : BitVec 12 := 0
  active : Bool := false
  frozen : Bool := false
  hdrWrapped : Bool := false
  payWrapped : Bool := false
  hdrBase : W64 := 0
  hdrLen : W64 := 0
  payBase : W64 := 0
  payLen : W64 := 0
  hdrWrite : W64 := 0
  payWrite : W64 := 0
  budget : BitVec 15 := 2500
  dropped : W32 := 0
  choiceCount : W64 := 0
  choiceLast : W64 := 0
  timeDigest : W64 := 0
  steps : W16 := 1
  run : Bool := false
  endCode : BitVec 3 := 0
  replayStart : W64 := 0
  slip : W64 := 0
  fencedIn : W32 := 0
  fencedOut : W32 := 0
  lostHdr : Nat := 0
  lostPay : Nat := 0
  /-- beats written in this period, by sub-channel (R378) -/
  used : Sparse Nat := []
  goCcc : W64 := 0
  t0 : W64 := 0
  commits : Nat := 0
  /-- next record of the span for each port (15: records of no port) -/
  next : Sparse W64 := []
  digestPos : W64 := 0
deriving DecidableEq, Repr

/-! ### Page FLT (13 R419 to R422) -/

structure Flt where
  ctlLost : Bool := false
  gasLost : Bool := false
  updateBegun : Bool := false
  holds : BitVec 4 := 0
  mbxLost : Bool := false
  eccWarn : W16 := 1024
  eccLog : W64 := 0
  eccUncorr : W32 := 0
  sessTimeout : BitVec 24 := 250000
  lastLate : W32 := 0
  lastLateInfo : BitVec 7 := 0
  histEn : Bool := true
  maxLevel : BitVec 3 := 1
  lateWorst : Sparse W32 := []
  holdWarn : BitVec 4 := 3
  recArg : W32 := 0
  recOp : BitVec 3 := 0
  recState : BitVec 2 := 0
  recCode : W16 := 0
  recDone : BitVec 13 := 0
  recExpect : BitVec 13 := 0
  recTimeout : BitVec 24 := 25000
  lostStep : BitVec 17 := 0
  injKind : BitVec 4 := 0
  injArm : Bool := false
  injRepeat : Byte := 0
  injFired : Nat := 0
  injTarget : W64 := 0
  injCount : W32 := 0
  eccCorr : Sparse W32 := []
  hist : Sparse W32 := []
  recTick : Nat := 0
  recLast : Bool := false
  /-- packets of a RETURN issued (13 R404) -/
  recPos : Nat := 0
  silentUntil : Option Nat := none
  silent : Bool := false
deriving DecidableEq, Repr

/-! ### Page PWR, the mailbox and resets (15, 16 R491, R492) -/

structure Pwr where
  cur : BitVec 2 := 0
  req : BitVec 2 := 0
  wakeCause : BitVec 4 := 0
  refused : Bool := false
  lastReset : BitVec 2 := 0
  limit : Byte := 0xAA
  capD : BitVec 5 := 16
  capN : BitVec 6 := 63
  est : Byte := 0
  peak : Byte := 0
  tickPhase : BitVec 6 := 0
  phaseFixed : Bool := false
  idleTicks : W32 := 0
  dozeTicks : W64 := 0
  sleepTicks : W64 := 0
  thrFrames : W64 := 0
  naks : W32 := 0
  mbxUnknown : W32 := 0
  entry : Option Nat := none
  iso : Bool := false
  nak : Bool := false
  wakeReq : Bool := false
  thrAck : Bool := false
  good : Bool := true
  waking : Option Nat := none
  /-- the level of THR_LIMIT, and the changes sampled and not yet in force, with their ticks -/
  thrPin : Byte := 0xAA
  thrNew : List (Byte × Nat) := []
  /-- CCC as the always-on domain sampled it at the last tick (02 R65) -/
  cccSample : W64 := 0
  /-- accesses to gated domains, which complete after the wake (02 R54) -/
  waiting : List Instr := []
  mbxIn : Sparse W32 := []
  inFull : Bool := false
  mbxOut : Sparse W32 := []
  outFull : Bool := false
  heldMsgs : List (Nat × List W32) := []
deriving DecidableEq, Repr

structure Rst where
  /-- reset awaiting RST_DONE: 1 engine, 2 warm, 3 cold -/
  kind : Nat := 0
  release : Nat := 0
  done : Bool := true
  ctx : List Nat := []
  ctxAck : List Nat := []
  /-- a reset that waits for the wake from sleep (15 R450) -/
  pendingKind : Nat := 0
deriving DecidableEq, Repr

/-! ### Page DBG (16 R493) -/

structure Dbg where
  unlock : Bool := true
  freezeIn : Bool := false
  freeze : Bool := false
  frozen : Bool := false
  issueStopped : Bool := false
  sel : BitVec 4 := 0
  addr : BitVec 36 := 0
  freezes : W32 := 0
  /-- the latched high half of a 64-bit register read, by address; DBG.DATA's own (02 R53) -/
  latch : W32 := 0
  latches : List (Nat × W32) := []
  /-- the data a bus returned to the last modelled read (02 R52) -/
  readData : W32 := 0
  /-- the last configuration-bus write got the ERROR response (02 R52) -/
  busError : Bool := false
deriving DecidableEq, Repr

/-- The whole state. -/
structure State where
  ccc : W64 := 0
  tick : Nat := 0
  free : Nat := 0
  pending : List Instr := []
  hdrs : Sparse Hdr := []
  /-- low halves of 64-bit registers written and not yet committed, by address (02 R53) -/
  heldLow : List (Nat × W32) := []
  msix : Msix := {}
  mem : List Host.Cell := []
  emp : Emp := {}
  ctl : Ctl := {}
  que : Que := {}
  tiles : Sparse Tile := []
  tpl : Tpl := {}
  ses : Ses := {}
  trk : Trk := {}
  red : Red := {}
  fin : Fin' := {}
  row : Row := {}
  gas : Gas := {}
  opt : Opt := {}
  spx : Spx := {}
  syn : Syn := {}
  rtr : Rtr := {}
  lnk : Lnk := {}
  lsu : Lsu := {}
  rru : Rru := {}
  flt : Flt := {}
  pwr : Pwr := {}
  rst : Rst := {}
  dbg : Dbg := {}
deriving DecidableEq, Repr

/-- The machine right after reset: every field at its reset value, no packet, session or command waiting. -/
def State.reset : State := {}

/-- Why the machine stops with a fault. -/
inductive Fault where
  /-- Raised by RDATA_RETURN, WACK_RETURN and MSIX_ACK when nothing is outstanding for the return: the host's
  guarantees exclude it and the spec gives it no effect (02 R44, R62, R71). Safe: the model stops. Log 5. -/
  | unmatchedReturn
deriving DecidableEq, Repr

/-- Why a command has no meaning. -/
inductive Refusal where
  /-- Raised by an arm of exec whose command is not modelled yet. Safe. -/
  | notModelled (mnemonic : String)
deriving DecidableEq, Repr

end Sys2Proof.Machine
end

