-- ==== Sys2Proof/Machine/Topo.lean ====
section
/-! DEFINITION. Machine/Topo.lean: shape, ranks, the ring map, deterministic paths and combining trees
(03, 07 R218, 11 R352), as functions of page RTR. -/

namespace Sys2Proof.Machine

/-- Logical size of an axis (03 R98). -/
def Rtr.size (r : Rtr) (a : Nat) : Nat :=
  let v := r.shape.toNat
  match a with
  | 0 => bits v 4 0
  | 1 => bits v 9 5
  | 2 => bits v 14 10
  | _ => bits v 19 15

/-- SHAPE.SPARE. -/
def Rtr.spare (r : Rtr) : Bool := bit r.shape.toNat 20

/-- Every size field in its range (03 R72). -/
def Rtr.shapeOk (r : Rtr) : Bool :=
  2 ≤ r.size 0 && r.size 0 ≤ 16 && 1 ≤ r.size 1 && r.size 1 ≤ 16 && 1 ≤ r.size 2 && r.size 2 ≤ 16 &&
    1 ≤ r.size 3 && r.size 3 ≤ 12

/-- Physical length of an X ring (03 R73). -/
def Rtr.ringLen (r : Rtr) : Nat := r.size 0 + b2n r.spare

/-- Physical size of an axis. -/
def Rtr.physSize (r : Rtr) (a : Nat) : Nat := if a = 0 then r.ringLen else r.size a

/-- ROLE.ROLE (03 R100): 0 worker, 1 domain manager, 2 top manager, 3 spare. -/
def Rtr.roleCode (r : Rtr) : Nat := bits r.role.toNat 1 0
def Rtr.isSpare (r : Rtr) : Bool := r.roleCode == 3

/-- This chip's logical coordinates (03 R99). -/
def Rtr.me (r : Rtr) : Coord := Coord.ofNibbles r.coord.toNat
/-- This chip's physical coordinates (03 R99, R500). -/
def Rtr.phys (r : Rtr) : Coord := { r.me with x := bits r.coord.toNat 20 16 }

/-- The coordinates this chip names itself by: logical, and on a spare, which has no logical X, those of its position
(03 R500). -/
def Rtr.self (r : Rtr) : Coord := if r.isSpare then r.phys else r.me

/-- The ring-map entry of the ring through a position (03 R75). -/
def Rtr.entry (r : Rtr) (c : Coord) : RingMap := Sparse.get {} r.ringMap (c.y + 16 * c.z + 256 * c.w)

def RingMap.excl (e : RingMap) : Option Nat := if e.excluded = 31 then none else some e.excluded.toNat

/-- k of 03 R75. -/
def Rtr.exclK (r : Rtr) (e : RingMap) : Nat :=
  match e.excl with
  | none => r.size 0
  | some p => (p + r.ringLen - e.x0.toNat % r.ringLen) % r.ringLen

/-- Physical position of a logical coordinate (03 R75). -/
def Rtr.toPhys (r : Rtr) (c : Coord) : Coord :=
  let e := r.entry c
  { c with x := (e.x0.toNat + c.x + b2n (decide (c.x ≥ r.exclK e))) % r.ringLen }

/-- Whether the slot at a position is excluded, and whether it is dead (03 R75). -/
def Rtr.isExcl (r : Rtr) (c : Coord) : Bool := (r.entry c).excl == some c.x
def Rtr.isDead (r : Rtr) (c : Coord) : Bool := r.isExcl c && (r.entry c).dead

/-- A destination names a position outside the shape (03 R91). -/
def Rtr.outside (r : Rtr) (c : Coord) : Bool :=
  c.x ≥ r.ringLen || c.y ≥ r.size 1 || c.z ≥ r.size 2 || c.w ≥ r.size 3

/-- Steps from a to b in the plus direction of a ring of n positions. -/
def ringDist (n a b : Nat) : Nat := (b + n - a % n) % n

/-- The shorter way around a ring of n positions; a tie goes plus (03 R83). true is plus. -/
def shorterPlus (n a b : Nat) : Bool := let d := ringDist n a b; d ≤ n - d

/-- One step around a ring. -/
def ringStep (n a : Nat) (plus : Bool) : Nat := if plus then (a + 1) % n else (a + n - 1) % n

/-- A hop: the output port, the next position, whether it is a sidestep. -/
structure Hop where
  port : Nat
  next : Coord
  side : Bool
deriving DecidableEq, Repr

/-- Port index of a direction on an axis (02 R49). -/
def axisPort (a : Nat) (plus : Bool) : Nat := 2 * a + b2n (!plus)

/-- The X-leg hop of 03 R83. -/
def Rtr.xHop (r : Rtr) (here : Coord) (d : Nat) : Hop :=
  let l := r.ringLen
  let toward (plus : Bool) : Hop := ⟨axisPort 0 plus, { here with x := ringStep l here.x plus }, false⟩
  if r.isExcl { here with x := d } then toward (shorterPlus l here.x d)
  else if r.isExcl here then toward (shorterPlus l here.x d)
  else
    -- positions on the logical cycle: physical order without the excluded slot
    let pos (p : Nat) : Nat := match (r.entry here).excl with
      | none => p
      | some e => if p > e then p - 1 else p
    let n := match (r.entry here).excl with
      | none => l
      | some _ => l - 1
    let plus := shorterPlus n (pos here.x) (pos d)
    let nx := ringStep l here.x plus
    if r.isExcl { here with x := nx } then
      ⟨if plus then 8 else 9, { here with x := ringStep l nx plus }, false⟩
    else ⟨axisPort 0 plus, { here with x := nx }, false⟩

/-- The sidestep hop of 03 R85. -/
def Rtr.sidestep (r : Rtr) (here : Coord) : Hop :=
  let l := r.ringLen
  let nx := ringStep l here.x true
  if r.isExcl { here with x := nx } then ⟨8, { here with x := ringStep l nx true }, true⟩
  else ⟨axisPort 0 true, { here with x := nx }, true⟩

/-- The deterministic hop from here toward a physical destination (03 R83); none at the destination. -/
def Rtr.route (r : Rtr) (here dst : Coord) : Option Hop :=
  let leg (a : Nat) : Hop :=
    let n := r.size a
    let plus := shorterPlus n (here.get a) (dst.get a)
    let nx := here.set a (ringStep n (here.get a) plus)
    if r.isDead nx then r.sidestep here else ⟨axisPort a plus, nx, false⟩
  if here.w ≠ dst.w then some (leg 3)
  else if here.z ≠ dst.z then some (leg 2)
  else if here.y ≠ dst.y then some (leg 1)
  else if here.x ≠ dst.x then some (r.xHop here dst.x)
  else none

/-- The deterministic path: hops from here to dst; fuel bounds its length (03 R91). -/
def Rtr.pathAux (r : Rtr) : Nat → Coord → Coord → List Hop
  | 0, _, _ => []
  | n + 1, here, dst => match r.route here dst with
    | none => []
    | some h => h :: r.pathAux n h.next dst

def Rtr.path (r : Rtr) (here dst : Coord) : List Hop := r.pathAux 128 here dst

/-! Ranks and groups. -/

/-- Rank on an axis (00 R11). -/
def Rtr.rank (r : Rtr) (a : Nat) (c : Coord) : Nat :=
  let n := r.size a
  (c.get a + n - (Coord.ofNibbles r.origin.toNat).get a % n) % n

/-- Coordinate on an axis of a rank. -/
def Rtr.ofRank (r : Rtr) (a k : Nat) : Nat :=
  let n := r.size a
  (k + (Coord.ofNibbles r.origin.toNat).get a) % n

/-- Group size: 0 names the whole axis (05 R157). -/
def Rtr.groupSize (r : Rtr) (a gsize : Nat) : Nat := if gsize = 0 then r.size a else gsize

/-- Logical coordinates of group rank k of the group on axis a whose first axis rank is base. -/
def Rtr.member (r : Rtr) (a base k : Nat) : Coord := r.me.set a (r.ofRank a (base + k))

/-- Latency in ns of one hop over a port, from its reach class (03 R79). -/
def reachNs (v : Nat) : Nat :=
  match v with
  | 0 => 25
  | 1 => 40
  | 2 => 60
  | _ => 120

def Rtr.reach (r : Rtr) (port : Nat) : Nat := bits (Sparse.get (0 : BitVec 20) r.portMap port).toNat 18 17

/-! The placement of 07 R218. A node at level k and index j covers group ranks j·2^k to min((j+1)·2^k, n) - 1;
it combines only when its right half is not empty. -/

def treeDepth (n : Nat) : Nat := clog2 n

/-- A node has both children. -/
def nodeCombines (n k j : Nat) : Bool := k ≥ 1 && (2 * j + 1) * 2 ^ (k - 1) < n

/-- Lowest and highest group rank a node covers. -/
def nodeLo (k j : Nat) : Nat := j * 2 ^ k
def nodeHi (n k j : Nat) : Nat := min ((j + 1) * 2 ^ k) n - 1

/-- Hops between two ranks of an axis of size m, either way round. -/
def hopDist (m a b : Nat) : Nat := min (ringDist m a b) (ringDist m b a)

/-- The group rank that hosts node (k, j) of shard s's tree (07 R218); base is the group's first axis rank, m the
axis size. -/
def nodeHost (m base n s k j : Nat) : Nat :=
  let lo := nodeLo k j
  let hi := nodeHi n k j
  if k = 0 then j
  else if lo ≤ s && s ≤ hi then s
  else if hopDist m (base + lo) (base + s) ≤ hopDist m (base + hi) (base + s) then lo else hi

/-- The next combining ancestor of node (k, j): its level, index, and whether the node is its right operand;
none for the root's output. -/
def parentNode (n : Nat) : Nat → Nat → Nat → Option (Nat × Nat × Bool)
  | 0, _, _ => none
  | fuel + 1, k, j =>
    if k ≥ treeDepth n then none
    else if nodeCombines n (k + 1) (j / 2) then some (k + 1, j / 2, j % 2 == 1)
    else parentNode n fuel (k + 1) (j / 2)

def parentOf (n k j : Nat) : Option (Nat × Nat × Bool) := parentNode n 8 k j

/-- The host that holds an operand node's output: the host of the nearest combining descendant or the leaf. -/
def producer (n : Nat) : Nat → Nat → Nat → Nat × Nat
  | 0, k, j => (k, j)
  | fuel + 1, k, j =>
    if k = 0 then (0, j) else if nodeCombines n k j then (k, j) else producer n fuel (k - 1) (2 * j)

def producerOf (n k j : Nat) : Nat × Nat := producer n 8 k j

/-- The operand paths of level k over all shards: from the axis rank of an operand's host to that of its node's host. -/
def levelPaths (m base n k : Nat) : List (Nat × Nat) :=
  (List.range n).flatMap fun s => (List.range 16).flatMap fun j =>
    if nodeCombines n k j then
      let side (c : Nat) : Nat × Nat :=
        let p := producerOf n (k - 1) c
        ((base + nodeHost m base n s p.1 p.2) % m, (base + nodeHost m base n s k j) % m)
      [side (2 * j), side (2 * j + 1)]
    else []

/-- D_k of 07 R220: the largest hop count from an operand's host to a level-k node's host over all shards. -/
def levelDist (m base n k : Nat) : Nat := (levelPaths m base n k).foldl (fun d p => max d (hopDist m p.1 p.2)) 0

/-- W_k of 07 R221 for a path of `ns` nanoseconds: ceil(2 L x 370.6 GB/s / 4160 B) + 4. -/
def wBuffers (ns : Nat) : Nat := cdiv (2 * ns * 3706) 41600 + 4

/-! Combining trees (11 R352). -/

/-- Every logical coordinate of the machine. -/
def Rtr.allChips (r : Rtr) : List Coord :=
  (List.range (r.size 3)).flatMap fun w => (List.range (r.size 2)).flatMap fun z =>
    (List.range (r.size 1)).flatMap fun y => (List.range (r.size 0)).map fun x => ⟨x, y, z, w⟩

/-- Participants of a channel's scope (11 R351), given its crown. -/
def Rtr.participants (r : Rtr) (chan gsize : Nat) (crown : Coord) : List Coord :=
  if chan < 16 then r.allChips
  else if chan < 32 then r.allChips.filter fun c => c.z == crown.z && c.w == crown.w
  else
    let a := (chan - 32) / 8
    (List.range (r.groupSize a gsize)).map fun k => crown.set a (r.ofRank a (r.rank a crown + k))

/-- The crown of a channel as this chip knows it (11 R351). -/
def Rtr.crownOf (r : Rtr) (chan gsize : Nat) : Coord :=
  let v := r.role.toNat
  if chan < 16 then ⟨bits v 15 12, bits v 19 16, bits v 23 20, bits v 27 24⟩
  else if chan < 32 then { r.me with x := bits v 7 4, y := bits v 11 8 }
  else
    let a := (chan - 32) / 8
    let n := r.groupSize a gsize
    r.me.set a (r.ofRank a (r.rank a r.me / n * n))

/-- The port of this chip whose neighbour lies at a physical position, by the port map (03 R78). -/
def Rtr.portTo (r : Rtr) (c : Coord) (oppositeOf : Nat) : Nat :=
  let opp := match oppositeOf with
    | 8 => 9
    | 9 => 8
    | p => if p % 2 = 0 then p + 1 else p - 1
  if Coord.ofWord (Sparse.get (0 : BitVec 20) r.portMap opp).toNat == c then opp
  else (((List.range 10).find? fun p =>
    Coord.ofWord (Sparse.get (0 : BitVec 20) r.portMap p).toNat == c &&
      bit (Sparse.get (0 : BitVec 20) r.portMap p).toNat 19).getD opp)

/-- The tree of a set of participants toward a crown, as seen from this chip. -/
def Rtr.tree (r : Rtr) (parts : List Coord) (crown : Coord) : Tree :=
  let here := r.phys
  let root := r.toPhys crown
  let ports := parts.foldl (fun (acc : List Nat) c =>
    let start := r.toPhys c
    let hops := r.path start root
    -- the hop of the path that ends here
    match hops.find? (fun h => h.next == here) with
    | none => acc
    | some h =>
      let before := (start :: hops.map Hop.next).takeWhile (fun p => p != here)
      let p := r.portTo (before.getLastD start) h.port
      if acc.contains p then acc else acc ++ [p]) []
  { children := (List.range 10).filter fun p => ports.contains p,
    parent := (r.route here root).map Hop.port,
    participant := !r.isSpare && parts.contains r.self,
    expect := parts.length }

/-- The register word of a tree (11 R365). -/
def Tree.word (t : Tree) : W32 :=
  BitVec.ofNat 32 (t.children.foldl (fun v p => v + 2 ^ p) 0 + (t.parent.getD 15) * 2 ^ 10 +
    b2n t.participant * 2 ^ 14 + t.expect % 2 ^ 16 * 2 ^ 16)

/-- The tree that a register word describes. -/
def Tree.ofWord (v : Nat) : Tree :=
  { children := (List.range 10).filter (bit v), parent := if bits v 13 10 = 15 then none else some (bits v 13 10),
    participant := bit v 14, expect := bits v 31 16 }

/-- The logical coordinates of the chip at a physical position; at an excluded slot, those of the position. -/
def Rtr.toLogical (r : Rtr) (c : Coord) : Coord :=
  { c with x := ((List.range 16).find? fun x => r.toPhys { c with x := x } == c).getD c.x }

end Sys2Proof.Machine
end

