-- ==== Sys2Proof/Machine/Ops.lean ====
section
/-! DEFINITION. Machine/Ops.lean: the named operations every meaning is built from: memory and the memory port,
page errors and interrupts, mailbox messages, digests, capture records, packets to the router, session slots,
sync objects and completion. -/

namespace Sys2Proof.Machine

/-! ### Parts of the state -/

def mCtl (f : Ctl → Ctl) (s : State) : State := { s with ctl := f s.ctl }
def mQue (f : Que → Que) (s : State) : State := { s with que := f s.que }
def mSes (f : Ses → Ses) (s : State) : State := { s with ses := f s.ses }
def mTrk (f : Trk → Trk) (s : State) : State := { s with trk := f s.trk }
def mRed (f : Red → Red) (s : State) : State := { s with red := f s.red }
def mFin (f : Fin' → Fin') (s : State) : State := { s with fin := f s.fin }
def mRow (f : Row → Row) (s : State) : State := { s with row := f s.row }
def mGas (f : Gas → Gas) (s : State) : State := { s with gas := f s.gas }
def mOpt (f : Opt → Opt) (s : State) : State := { s with opt := f s.opt }
def mSpx (f : Spx → Spx) (s : State) : State := { s with spx := f s.spx }
def mSyn (f : Syn → Syn) (s : State) : State := { s with syn := f s.syn }
def mRtr (f : Rtr → Rtr) (s : State) : State := { s with rtr := f s.rtr }
def mLnk (f : Lnk → Lnk) (s : State) : State := { s with lnk := f s.lnk }
def mLsu (f : Lsu → Lsu) (s : State) : State := { s with lsu := f s.lsu }
def mRru (f : Rru → Rru) (s : State) : State := { s with rru := f s.rru }
def mFlt (f : Flt → Flt) (s : State) : State := { s with flt := f s.flt }
def mPwr (f : Pwr → Pwr) (s : State) : State := { s with pwr := f s.pwr }
def mRst (f : Rst → Rst) (s : State) : State := { s with rst := f s.rst }
def mDbg (f : Dbg → Dbg) (s : State) : State := { s with dbg := f s.dbg }
def mEmp (f : Emp → Emp) (s : State) : State := { s with emp := f s.emp }
def mTpl (f : Tpl → Tpl) (s : State) : State := { s with tpl := f s.tpl }

def tileOf (s : State) (p : Nat) : Tile := Sparse.get {} s.tiles p
def mTile (p : Nat) (f : Tile → Tile) (s : State) : State := { s with tiles := Sparse.modify {} s.tiles p f }
def ringOf (s : State) (r : Nat) : Ring := Sparse.get {} s.que.rings r
def mRing (r : Nat) (f : Ring → Ring) (s : State) : State :=
  mQue (fun q => { q with rings := Sparse.modify {} q.rings r f }) s
def tcpOf (s : State) (p : Nat) : Tcp := Sparse.get {} s.que.tcp p
def portOf (s : State) (p : Nat) : Port := Sparse.get {} s.lnk.ports p
def mPort (p : Nat) (f : Port → Port) (s : State) : State :=
  mLnk (fun l => { l with ports := Sparse.modify {} l.ports p f }) s
def bktOf (s : State) (b : Nat) : Bkt := Sparse.get {} s.gas.bkt b
def mBkt (b : Nat) (f : Bkt → Bkt) (s : State) : State :=
  mGas (fun g => { g with bkt := Sparse.modify {} g.bkt b f }) s
def objOf (s : State) (p : Nat) : Obj := Sparse.get {} s.syn.objects p
def mObj (p : Nat) (f : Obj → Obj) (s : State) : State :=
  mSyn (fun y => { y with objects := Sparse.modify {} y.objects p f }) s
def winOf (s : State) (c : Nat) : Window := Sparse.get {} s.syn.windows c
def mWin (c : Nat) (f : Window → Window) (s : State) : State :=
  mSyn (fun y => { y with windows := Sparse.modify {} y.windows c f }) s

/-! ### Lists of numbered pairs (session slots, tags) -/

/-- The pair of a number, if listed. -/
def assoc? {α : Type} (l : List (Nat × α)) (i : Nat) : Option α := (l.find? fun p => p.1 == i).map Prod.snd
def assocErase {α : Type} (l : List (Nat × α)) (i : Nat) : List (Nat × α) := l.filter fun p => p.1 != i
def assocSet {α : Type} (l : List (Nat × α)) (i : Nat) (v : α) : List (Nat × α) := Sparse.insert i v (assocErase l i)

/-- The lowest number below n that is not listed. -/
def lowestFree {α : Type} (l : List (Nat × α)) (n : Nat) : Option Nat :=
  (List.range (min n (l.length + 1))).find? fun i => !(l.any fun p => p.1 == i)

def slot? (s : State) (i : Nat) : Option Session := assoc? s.ses.slots i
def putSlot (i : Nat) (x : Session) (s : State) : State :=
  mSes (fun e => { e with slots := assocSet e.slots i x }) s
def mSlot (i : Nat) (f : Session → Session) (s : State) : State :=
  match slot? s i with
  | none => s
  | some x => putSlot i (f x) s
def eraseSlot (i : Nat) (s : State) : State := mSes (fun e => { e with slots := assocErase e.slots i }) s
/-- The slot of the session that a GSID names; a rejected one (05 R146) is no target of messages any more. -/
def slotOfGsid (s : State) (g : Nat) : Option Nat :=
  (s.ses.slots.find? fun p => p.2.gsid == g && p.2.st != .rejected).map Prod.fst

/-! ### Memory (02 R43, R47) -/

/-- The byte at an address; an address has 48 bits, and a byte nothing has written reads 0x00 (log 1). -/
def readByte (m : List Host.Cell) (a : Nat) : Byte := Sparse.get (0 : Byte) m (a % 2 ^ 48)
def writeByte (m : List Host.Cell) (a : Nat) (b : Byte) : List Host.Cell := Sparse.set (0 : Byte) m (a % 2 ^ 48) b
def readBytes (m : List Host.Cell) (a n : Nat) : List Byte := (List.range n).map fun i => readByte m (a + i)
def writeBytes (m : List Host.Cell) (a : Nat) : List Byte → List Host.Cell
  | [] => m
  | b :: rest => writeBytes (writeByte m a b) (a + 1) rest

/-- The canonical form of memory. -/
def Memory.wf (m : List Host.Cell) : Prop :=
  m.Pairwise (fun a b => a.1 < b.1) ∧ ∀ p ∈ m, p.2 ≠ (0 : Byte)

/-- A byte list filled with zeros to whole 64 B beats (05 R162). -/
def padBeats (l : List Byte) : List Byte := l ++ List.replicate (roundUp l.length 64 - l.length) 0

/-- No request is issued while RD_LAT is 0 (02 R48). -/
def empReady (s : State) : Bool := s.ctl.rdLat != 0

/-! ### Power (01 R33; 15 R455, R457) -/

/-- The Control domain's clock runs. -/
def ctlOn (s : State) : Bool := s.pwr.cur == 0

/-- The clocks run and no entry into sleep is under way. -/
def awake (s : State) : Bool := s.pwr.cur == 0 && s.pwr.entry.isNone

/-- The datapath serves nothing: its clocks are gated, or the power limit leaves it no slot (15 R458). -/
def datapathOff (s : State) : Bool := s.pwr.cur != 0 || s.pwr.capD == 0

/-- A port is UP (04 R126). -/
def portUp (s : State) (p : Nat) : Bool := (portOf s p).st == 6

/-- The Fabric domain runs in doze and sleep while any link is up (01 R33). -/
def fabricOn (s : State) : Bool := ctlOn s || (List.range 10).any (portUp s)

/-- The time an event carries: the CCC, in doze and sleep as the always-on domain sampled it at the last tick (02 R65). -/
def stamp (s : State) : W64 := if s.pwr.cur == 0 then s.ccc else s.pwr.cccSample

/-! ### Reads and writes of memory, as requests of the port (02 R43 to R48) -/

/-- The requests of n beats from a beat on: none crosses a 512-byte boundary. fuel bounds their number. -/
def empPieces (op : Nat) (write : Bool) : Nat → Nat → Nat → List EmpReq
  | 0, _, _ => []
  | fuel + 1, beat, n =>
    if n = 0 then []
    else
      let k := min n (8 - beat % 8)
      ⟨op, write, beat, k⟩ :: empPieces op write fuel (beat + k) (n - k)

/-- The requests of an access of a number of bytes. -/
def empSplit (op : Nat) (write : Bool) (addr bytes : Nat) : List EmpReq :=
  let n := max 1 (cdiv (addr % 64 + bytes) 64)
  empPieces op write (n / 8 + 2) (addr % 2 ^ 48 / 64) n

/-- Write whole beats: the bytes are visible from this step, and its requests wait for their turn on the port (log 6). -/
def empWrite (p : WPurpose) (addr : Nat) (bytes : List Byte) (s : State) : State :=
  let t := s.emp.nextTag
  let rs := empSplit t true addr (padBeats bytes).length
  { s with mem := writeBytes s.mem addr (padBeats bytes),
           emp := { s.emp with writes := s.emp.writes ++ [⟨t, p, rs.length⟩], nextTag := t + 1, wait := s.emp.wait ++ rs } }

/-- Write bytes that lie within one beat: the beat is written whole, with its other bytes as they are. -/
def empPatch (p : WPurpose) (addr : Nat) (bytes : List Byte) (s : State) : State :=
  let beat := addr / 64 * 64
  let old := readBytes s.mem beat 64
  empWrite p beat (old.take (addr % 64) ++ bytes ++ old.drop (addr % 64 + bytes.length)) s

/-- A record, of at most a beat: it waits while RD_LAT is 0. -/
def empRecord (p : WPurpose) (addr : Nat) (bytes : List Byte) (s : State) : State :=
  if empReady s then empPatch p addr bytes s
  else { s with emp := { s.emp with held := s.emp.held ++ [(p, addr, bytes)] } }

/-- Records that waited are written once RD_LAT is set. -/
def empFlush (s : State) : State :=
  if empReady s then
    s.emp.held.foldl (fun t h => empPatch h.1 h.2.1 h.2.2 t) { s with emp := { s.emp with held := [] } }
  else s

/-- A write for a purpose is not yet acknowledged. -/
def empWriting (s : State) (f : WPurpose → Bool) : Bool :=
  (s.emp.writes.any fun w => f w.purpose) || s.emp.held.any fun h => f h.1

/-- Store bytes without a request: those that work on a poisoned read had replaced go back (log 6). -/
def putBack (undo : List Host.Cell) (s : State) : State :=
  { s with mem := undo.foldl (fun m c => writeByte m c.1 c.2) s.mem }

/-- Bytes whose values the spec leaves undefined (log 11). -/
def undefBytes (a n : Nat) (s : State) : State :=
  let s1 := putBack ((List.range n).map fun i => (a + i, Config.freeByte s.free i)) s
  { s1 with free := s1.free + 1 }

/-- Read whole beats: the data are those of this step (log 6), and its requests wait for their turn on the port. -/
def empRead (p : RPurpose) (addr bytes : Nat) (undo : List Host.Cell) (s : State) : State :=
  let t := s.emp.nextTag
  let rs := empSplit t false addr bytes
  { s with emp :=
      { s.emp with
        reads := s.emp.reads ++ [⟨t, addr, cdiv bytes 64, p, undo, rs.length⟩], nextTag := t + 1, wait := s.emp.wait ++ rs } }

/-- Record a read of a session and answer its number. -/
def readFor (p : RPurpose) (addr bytes : Nat) (s : State) : Nat × State := (s.emp.nextTag, empRead p addr bytes [] s)

/-- The configured refresh window is open in this cycle (02 R45). -/
def refOpen (s : State) : Bool :=
  decide ((s.ccc.toNat % 1760 + 1760 - s.ctl.refOffset.toNat % 1760) % 1760 < s.ctl.refLen.toNat)

/-- Bits [11:9] of an address select the sub-channel. -/
def subChannel (addr : Nat) : Nat := addr / 512 % 8

/-- The sub-channel of a request. -/
def EmpReq.sub (r : EmpReq) : Nat := r.beat / 8 % 8

/-- A sub-channel may issue a request of a kind in this cycle: in scheduled mode outside the refresh window, otherwise
when REQ_READY says so, a free value of the cycle (log 61). -/
def empMayIssue (s : State) (sub : Nat) (write : Bool) : Bool :=
  if s.emp.sched then !refOpen s else Config.reqReady s.free sub write

/-- Issue the oldest request of a sub-channel and kind, with the lowest tag that is free, within the period's 25,000 beats
(02 R46; log 9 for the tag). -/
def empIssueOne (sub : Nat) (write : Bool) (s : State) : State :=
  match s.emp.wait.find? fun r => r.write == write && r.sub == sub with
  | none => s
  | some r =>
    let busy := (s.emp.out.filter fun q => q.2.write == write && q.2.sub == sub).map fun q => (q.1.toNat, ())
    let used := Sparse.get 0 s.emp.used sub + r.beats
    match lowestFree busy 1024 with
    | none => s
    | some t =>
      if used > 25000 then s
      else { s with emp :=
        { s.emp with
          wait := s.emp.wait.erase r, out := s.emp.out ++ [(BitVec.ofNat 10 t, r)], used := Sparse.set 0 s.emp.used sub used } }

/-- One cycle of the port: each sub-channel takes at most one read and one write (02 R43, R44, R48). -/
def empIssue (s : State) : State :=
  if s.emp.wait.isEmpty || !empReady s || !ctlOn s then s
  else
    let t := (List.range 8).foldl (fun t sub =>
      [false, true].foldl (fun t write => if empMayIssue s sub write then empIssueOne sub write t else t) t) s
    if s.emp.sched then t else { t with free := t.free + 1 }

/-- Whether a session has a write or a read outstanding. -/
def sessionBusy (s : State) (slot : Nat) : Bool :=
  (s.emp.writes.any fun w => match w.purpose with
    | .session i _ _ => i == slot
    | .rowOut i _ _ => i == slot
    | _ => false) ||
  (s.emp.reads.any fun w => match w.purpose with
    | .session i _ => i == slot
    | .fin i _ _ => i == slot
    | _ => false)

/-! ### Vectors, page errors and counters -/

def vecMasked (s : State) (v : Nat) : Bool := !Sparse.get false s.que.unmasked v

/-- Request a vector: its pending bit is set unless its mask bit is set (log 9); an event merges with the vector's request
while that is pending or outstanding (02 R63). -/
def raiseVec (v : Nat) (s : State) : State :=
  if vecMasked s v || s.msix.outstanding == some (BitVec.ofNat 9 v) then s
  else { s with msix := { s.msix with pendingVecs := Sparse.set false s.msix.pendingVecs v true } }

/-- The vector of a page's own interrupt bits (16 R464). -/
def pageVec (p : Nat) : Nat :=
  if p = 14 then 258 else if p = 15 then 259 else if p = 16 then 257 else if p = 17 then 260 else 256

def hdrOf (s : State) (p : Nat) : Hdr := Sparse.get {} s.hdrs p
def mHdr (p : Nat) (f : Hdr → Hdr) (s : State) : State := { s with hdrs := Sparse.modify {} s.hdrs p f }

/-- Set the ERR bit; an unmasked bit that becomes set requests the vector (16 R469). -/
def setErr (p : Nat) (s : State) : State :=
  let h := hdrOf s p
  let s1 := mHdr p (fun h => { h with irqErr := true }) s
  if !h.irqErr && !h.maskErr then raiseVec (pageVec p) s1 else s1

def setSat (p : Nat) (s : State) : State :=
  let h := hdrOf s p
  let s1 := mHdr p (fun h => { h with irqSat := true }) s
  if !h.irqSat && !h.maskSat then raiseVec (pageVec p) s1 else s1

/-- Advance a counter of page p by n, saturating; reaching all ones sets SAT (16 R472). -/
def bump {w : Nat} (p : Nat) (get : State → BitVec w) (put : BitVec w → State → State) (n : Nat) (s : State) : State :=
  let o := get s
  let v := satAdd o n
  let s1 := put v s
  if o != BitVec.allOnes w && v == BitVec.allOnes w then setSat p s1 else s1

/-! ### Wake sources (15 R455, R456; 02 R54) -/

/-- A request of the PWC is refused: PS_NAK pulses (15 R455, 02 R70). -/
def powerNak (s : State) : State :=
  bump pgPwr (·.pwr.naks) (fun v => mPwr fun p => { p with naks := v }) 1
    (mPwr (fun p => { p with refused := true, nak := true }) s)

/-- A wake source: it cancels an entry that is under way, and in doze and sleep drives WAKE_REQ and starts the wake. The
wake's start is a cycle in doze and a tick in sleep. PS_REQ = 0 in the same wake keeps its cause (15 R460). -/
def wakeBy (cause : Nat) (s : State) : State :=
  let note (s : State) : State :=
    mPwr (fun p => { p with wakeCause := if p.waking.isSome && p.wakeCause == 1 then 1 else BitVec.ofNat 4 cause }) s
  let s1 := if s.pwr.entry.isSome then powerNak (note (mPwr (fun p => { p with entry := none }) s)) else s
  if s.pwr.cur = 0 then s1
  else
    let start := if s.pwr.cur = 1 then s.ccc.toNat else s.tick
    mPwr (fun p => { p with wakeReq := true, waking := p.waking.orElse fun _ => some start }) (note s1)

/-- An access to a gated domain wakes it and completes after the wake: it waits, and the step after the wake puts it at
the front of the queue (02 R54; log 62). -/
def holdAccess (cause : Nat) (c : Instr) (s : State) : State :=
  wakeBy cause (mPwr (fun p => { p with waiting := p.waiting ++ [c] }) s)

/-! ### Capture records (12 R374 to R379) -/

/-- Where the next header record and the next payload slot go (12 R374). -/
def hdrSlot (s : State) : Nat := s.rru.hdrBase.toNat + s.rru.hdrWrite.toNat % max 1 (s.rru.hdrLen.toNat / 128) * 128
def paySlot (s : State) : Nat := s.rru.payBase.toNat + s.rru.payWrite.toNat % max 1 (s.rru.payLen.toNat / 4096) * 4096

/-- Beats of an area that capture takes from its budget, by sub-channel (12 R378). -/
def capUse (addr beats : Nat) (s : State) : State :=
  mRru (fun r =>
    { r with
      used := (List.range beats).foldl (fun m i => Sparse.modify 0 m (subChannel (addr + 64 * i)) (· + 1)) r.used }) s

/-- Beats left to capture on the sub-channel of an address in this period: CAP_BUDGET for each sub-channel (12 R378). -/
def capLeft (s : State) (addr : Nat) : Nat := s.rru.budget.toNat - Sparse.get 0 s.rru.used (subChannel addr)

/-- The budget takes the next header record; and the next payload slot with it, 8 beats on each sub-channel. -/
def capHdrRoom (s : State) : Bool := 2 ≤ capLeft s (hdrSlot s)
def capPayRoom (s : State) : Bool :=
  (List.range 8).all fun k => 8 + (if k == subChannel (hdrSlot s) then 2 else 0) ≤ capLeft s (512 * k)

/-- Write one 128-byte header record with its first 16 bytes formed here (12 R375). -/
def hdrRecord (ccc kind port vc : Nat) (pay : Option Nat) (rest : List Byte) (s : State) : State :=
  let cap := s.rru.hdrLen.toNat / 128
  if cap = 0 then s
  else
    let n := s.rru.hdrWrite.toNat
    let rec16 := leBytes 8 ccc ++ leBytes 2 (kind % 16 + port % 16 * 16 + vc % 8 * 256 + b2n pay.isSome * 2048) ++
      leBytes 2 n ++ leBytes 4 (pay.getD 0)
    let s1 := empWrite .other (hdrSlot s) (slice (rec16 ++ rest) 0 128) s
    bump pgRru (·.rru.hdrWrite) (fun v => mRru fun r => { r with hdrWrite := v, hdrWrapped := r.hdrWrapped || n + 1 > cap })
      1 s1

/-- Write one 4,096-byte payload slot (12 R374). -/
def payRecord (payload : List Byte) (s : State) : State :=
  let cap := s.rru.payLen.toNat / 4096
  if cap = 0 then s
  else
    let n := s.rru.payWrite.toNat
    let s1 := empWrite .other (paySlot s) (slice payload 0 4096) s
    bump pgRru (·.rru.payWrite) (fun v => mRru fun r => { r with payWrite := v, payWrapped := r.payWrapped || n + 1 > cap })
      1 s1

def capturing (s : State) : Bool := s.rru.active && !s.rru.frozen && empReady s

/-- A header record with the beats it takes from the budget. -/
def hdrPaid (ccc kind port vc : Nat) (pay : Option Nat) (rest : List Byte) (s : State) : State :=
  capUse (hdrSlot s) 2 (hdrRecord ccc kind port vc pay rest s)

/-- Records and payloads dropped for want of budget (12 R378). -/
def capDrop (h p : Nat) (s : State) : State :=
  bump pgRru (·.rru.dropped) (fun v => mRru fun r => { r with dropped := v, lostHdr := r.lostHdr + h, lostPay := r.lostPay + p })
    (h + p) s

/-- Once the budget has room again, one gap record gives the counts lost, before any other record (12 R378). -/
def gapRecord (s : State) : State :=
  if !capturing s || s.rru.lostHdr + s.rru.lostPay = 0 || !capHdrRoom s then s
  else
    mRru (fun r => { r with lostHdr := 0, lostPay := 0 })
      (hdrPaid s.ccc.toNat 6 15 0 none (leBytes 4 s.rru.lostHdr ++ leBytes 4 s.rru.lostPay) s)

/-- Write a record if the budget takes it, else count the drop: the payload first, then the header too (12 R378). -/
def captureRec (ccc kind port vc : Nat) (rest : List Byte) (payload : Option (List Byte)) (s0 : State) : State :=
  if !capturing s0 then s0
  else
    let s := gapRecord s0
    let wantPay := payload.isSome && s.rru.mode.toNat ≥ 2 && s.rru.payLen.toNat ≥ 4096
    if !capHdrRoom s then capDrop 1 (b2n wantPay) s
    else if wantPay && capPayRoom s then
      hdrPaid ccc kind port vc (some (s.rru.payWrite.toNat % 2 ^ 32)) rest
        (capUse (paySlot s) 64 (payRecord (payload.getD []) s))
    else hdrPaid ccc kind port vc none rest (if wantPay then capDrop 0 1 s else s)

/-- Freeze capture: the freeze record is written and both areas stop (12 R379). -/
def freezeCapture (code : W16) (s : State) : State :=
  if !s.rru.active || s.rru.frozen then s
  else
    let s1 := if empReady s then hdrRecord s.ccc.toNat 7 15 0 none (leBytes 2 code.toNat) s else s
    mRru (fun r => { r with frozen := true, active := false }) s1

/-- An error the engine reports may trigger a freeze (12 R379, R387). -/
def reportCode (code : W16) (s : State) : State :=
  let g := codeGroup code
  if 1 ≤ g && g ≤ 12 && s.rru.trigMask.getLsbD (g - 1) then freezeCapture code s else s

/-- Record a code in a page's PAGE_ERR_CODE (16 R470, R469). -/
def pageErr (p : Nat) (code : W16) (s : State) : State :=
  let s1 := bump p (fun s => (hdrOf s p).count) (fun v => mHdr p fun h => { h with code := code, count := v }) 1 s
  reportCode code (setErr p s1)

/-- Raise the error function vector with a code (02 R62). -/
def raiseError (code : W16) (s : State) : State := raiseVec 256 (reportCode code s)
def raiseSecurity (code : W16) (s : State) : State := raiseVec 258 (reportCode code s)
def raiseStep (s : State) : State := raiseVec 261 s

/-! ### Mailbox messages to the CMC (02 R55, 13 R416) -/

def writeMbx (ws : List W32) (s : State) : State :=
  mPwr (fun p => { p with mbxOut := (List.range 8).foldl (fun m i => Sparse.set 0 m i (ws.getD i 0)) [], outFull := true }) s

/-- Send a message, or hold it, one per type, while FULL is set; a replaced message sets MBX_LOST (13 R416). -/
def sendMbx (type : Nat) (ws : List W32) (s : State) : State :=
  if !s.pwr.outFull && s.pwr.heldMsgs.isEmpty then writeMbx ws s
  else if s.pwr.heldMsgs.any (fun m => m.1 == type) then
    mFlt (fun f => { f with mbxLost := true })
      (mPwr (fun p => { p with heldMsgs := p.heldMsgs.map fun m => if m.1 = type then (type, ws) else m }) s)
  else mPwr (fun p => { p with heldMsgs := p.heldMsgs ++ [(type, ws)] }) s

def w32 (n : Nat) : W32 := BitVec.ofNat 32 n

/-- Raise the fault function vector: the vector and the FAULT message (13 R416, R417). -/
def raiseFault (code : W16) (where_ detail : Nat) (injected : Bool) (s : State) : State :=
  let s1 := raiseVec 257 (reportCode code s)
  sendMbx 0x40 [w32 (0x40 + b2n injected * 256 + code.toNat * 65536), w32 where_, w32 detail, (stamp s).extractLsb' 0 32,
    (stamp s).extractLsb' 32 32] s1

/-! ### Corrected errors and injected faults (13 R389, R417) -/

/-- Count a corrected single-bit error of memory n; a multiple of ECC_WARN raises the fault vector. The FAULT message of
such a raise carries code 0 (log 26). -/
def eccSingleAs (n : Nat) (injected : Bool) (s : State) : State :=
  let o := Sparse.get (0 : W32) s.flt.eccCorr n
  let s1 := bump pgFlt (fun s => Sparse.get (0 : W32) s.flt.eccCorr n)
    (fun v => mFlt fun f => { f with eccCorr := Sparse.set 0 f.eccCorr n v }) 1 s
  let v := o.toNat + 1
  if v < 2 ^ 32 && v % max 1 s.flt.eccWarn.toNat = 0 then raiseFault 0 n 0 injected s1 else s1

def eccSingle (n : Nat) (s : State) : State := eccSingleAs n false s

/-- Count a double-bit error, and log it if the log is empty (13 R389). -/
def logDouble (n word : Nat) (injected : Bool) (s : State) : State :=
  mFlt (fun f => if f.eccLog.getLsbD 63 then f
      else { f with eccLog := BitVec.ofNat 64 (n % 16 + 16 * b2n injected + word % 2 ^ 32 * 256 + 2 ^ 63) })
    (bump pgFlt (·.flt.eccUncorr) (fun v => mFlt fun f => { f with eccUncorr := v }) 1 s)

/-- An injected fault of a kind is armed. -/
def injOn (s : State) (kind : Nat) : Bool := s.flt.injArm && s.flt.injKind.toNat == kind

/-- An injected fault of a kind is armed for a session. -/
def injFor (s : State) (kind gsid : Nat) : Bool := injOn s kind && bits s.flt.injTarget.toNat 31 0 == gsid

/-- The armed fault fires once; it disarms after REPEAT firings. -/
def fireInject (s : State) : State :=
  mFlt (fun f =>
    let n := f.injFired + 1
    { f with injFired := n, injArm := f.injArm && decide (n < max 1 f.injRepeat.toNat) })
    (bump pgFlt (·.flt.injCount) (fun v => mFlt fun f => { f with injCount := v }) 1 s)

/-! ### Choices and digests (12 R371 to R373) -/

/-- Count a choice (12 R371); a recorded class writes its record. Its outcome code is the error code's low byte in the
classes that give one, 3 and 7; the spec names none for the others, which take a free value (log 27). -/
def choice (cls outcome : Nat) (subject : Nat) (s0 : State) : State :=
  let coded : Bool := cls == 3 || cls == 7
  let out : Byte := if coded then BitVec.ofNat 8 outcome else Config.freeByte s0.free 0
  let s : State := if coded then s0 else { s0 with free := s0.free + 1 }
  let s1 := bump pgRru (·.rru.choiceCount) (fun v => mRru fun r => { r with choiceCount := v }) 1 s
  let s2 := mRru (fun r => { r with choiceLast := BitVec.ofNat 64 (cls % 8 + (s.ccc.toNat % 2 ^ 56) * 256) }) s1
  if cls = 0 || cls = 6 then s2
  else captureRec s.ccc.toNat 5 15 0 ([BitVec.ofNat 8 cls, out] ++ leBytes 2 s.opt.step.toNat ++
    leBytes 4 subject ++ leBytes 4 ((s.ccc - s.ctl.stepStart).toNat % 2 ^ 32)) none s2

/-- Fold one decision record into both digests (12 R372, R373). subject is the GSID, or STEP for DKIND 4 to 7. -/
def decision (dkind slot subject tag code arg : Nat) (s : State) : State :=
  let rec_ (sl tg : Nat) := [BitVec.ofNat 8 dkind, 0] ++ leBytes 2 sl ++ leBytes 4 subject ++ leBytes 2 tg ++
    leBytes 2 code ++ leBytes 4 arg
  let off := (s.ccc - s.ctl.stepStart).toNat % 2 ^ 32
  { s with ctl := { s.ctl with digest := s.ctl.digest + crc64From 0 (rec_ 0 0), decisions := s.ctl.decisions + 1 },
           rru := { s.rru with timeDigest := crc64From s.rru.timeDigest (rec_ slot tag ++ leBytes 4 off) } }

/-- The step header record (12 R375, R376). -/
def stepHeader (s : State) : State :=
  let o := s.opt
  captureRec s.ccc.toNat 3 15 0 (leBytes 2 o.step.toNat ++ [o.attempt.zeroExtend 8, s.rtr.axisMap] ++
    leBytes 4 s.rtr.shape.toNat ++ leBytes 4 s.rtr.coord.toNat ++ [s.rtr.mapGen.zeroExtend 8,
      BitVec.ofNat 8 (b2n o.en + 2 * b2n o.policy + 16 * o.repeatMax.toNat)] ++ [0, 0] ++
    leBytes 4 (s.rru.mode.toNat + 4 * b2n s.rru.mirrorPay + s.rru.trigMask.toNat * 65536) ++
    leBytes 2 s.rru.budget.toNat) none s

/-- Enter HALTED (09 R295). -/
def haltStep (s : State) : State := mOpt (fun o => { o with state := 5 }) s

/-! ### Packets leaving this chip -/

/-- The common header of a packet of this chip to a logical destination (03 R82). DESIGN CHOICE: the destination is
converted, and MAP_GEN taken, when the packet is formed, also for one that then waits over a change of the maps (log 70). -/
def mkPacket (s : State) (dst : Coord) (ptype session vc flags : Nat) (body : List Byte) : Packet :=
  { dst := s.rtr.toPhys dst, gen := s.rtr.mapGen.toNat, src := s.rtr.phys, srcGen := s.rtr.mapGen.toNat,
    ptype := ptype, len := ptypeLen ptype, flags := flags, hops := 0, session := session, vc := vc, body := body,
    tag := none, ring := none, reads := [], ccc := s.ccc.toNat, inport := 10, invc := vc }

/-- The retire condition of a tag's chunk is met (05 R165). -/
def meetTag (t : Option Nat) (s : State) : State :=
  match t with
  | none => s
  | some t => match assoc? s.trk.tags t with
    | none => s
    | some g => mTrk (fun k => { k with tags := assocSet k.tags t { g with retired := true } }) s

/-- Hand a packet to the router: one for this chip reaches it at once, any other waits at the local input. During a
replay it is discarded at link entry (12 R381). -/
def inject (p : Packet) (s : State) : State :=
  if p.dst = s.rtr.phys then meetTag p.tag (mRtr (fun r => { r with inbox := r.inbox ++ [p] }) s)
  else mRtr (fun r => { r with inputs := Sparse.modify [] r.inputs 10 (· ++ [p]) }) s

/-- Send a band message to a logical destination (11 R349). -/
def sendBand (dst : Coord) (ctx : Nat) (step : W16) (gsid : Nat) (m : BandMsg) (s : State) : State :=
  inject (mkPacket s dst ptBand gsid 0 0 (Band.body ⟨ctx, step, m⟩)) s

/-- Take the oldest packet at this chip that a test accepts. -/
def takeInbox (ok : Packet → Bool) (s : State) : Option (Packet × State) :=
  match s.rtr.inbox.find? ok with
  | none => none
  | some p => some (p, mRtr (fun r => { r with inbox := r.inbox.erase p }) s)

def Packet.band (p : Packet) : Band := Band.ofBody p.body

def isBandOf (t : Nat) (p : Packet) : Bool := p.isBand && p.band.msg.btype == t

/-- Take the oldest band message of a type. -/
def takeBand (t : Nat) (s : State) : Option (Packet × Band × State) :=
  (takeInbox (isBandOf t) s).map fun x => (x.1, x.1.band, x.2)

/-! ### Regions and session geometry -/

def regionOf (s : State) (ctx reg : Nat) : Region := Sparse.get {} s.ses.regions (ctx * 256 + reg)
def regAddr (s : State) (ctx reg off : Nat) : Nat := (regionOf s ctx reg).base.toNat + off

/-- q of 07 R215. -/
def shardQ (d : Desc) (n : Nat) : Nat :=
  if d.fmtIn = 5 || d.fmtOut = 5 then 32 * cdiv d.count (32 * n) else cdiv d.count n

def isReduce (opc : Nat) : Bool := opc == 0x01 || opc == 0x08

/-- Wire format of a session's chunks (06 R183, 07 R216). DESIGN CHOICE: for a REDUCE_SCATTER of a format that has none, it is
FMT_IN; a different FMT_OUT is then no permitted pair, and FIELD_INVALID comes before RED_OP_INVALID (log 77). -/
def wireFmt (d : Desc) : Nat :=
  if d.opc = 0x01 || d.opc = 0x08 then (if d.fmtIn ≤ 2 then 0 else d.fmtIn) else d.fmtOut

/-- E of 07 R216: elements of a chunk. -/
def chunkE (d : Desc) : Nat :=
  if isReduce d.opc && d.redOp = 1 then 512
  else if !isReduce d.opc && d.fmtOut = 5 then 3968
  else 4096 / max 1 (fmtSize (wireFmt d))

def isGradient (s : State) (d : Desc) (ctx : Nat) : Bool :=
  d.opc == 0x01 && (regionOf s ctx d.srcReg).valid && (regionOf s ctx d.srcReg).kind == 1

/-- Coordinates of a group rank of a session. -/
def memberOf (s : State) (x : Session) (k : Nat) : Coord := s.rtr.member x.d.axis x.base k

/-- Ring and descriptor of a session, when it has them. -/
def Session.ringN (x : Session) : Option (Nat × W32) :=
  match x.src with
  | .ring r n => some (r, n)
  | .tpl .. => none

def Session.isTpl (x : Session) : Bool :=
  match x.src with
  | .tpl .. => true
  | .ring .. => false

/-- Progress of a session restarts its watchdog (13 R398). -/
def progress (slot : Nat) (s : State) : State := mSlot slot (fun x => { x with progTick := s.tick }) s

/-! ### Sync objects (11) -/

/-- Segment fields (11 R364). -/
def segEn (v : W64) : Bool := v.getLsbD 0
def segWait (v : W64) : Bool := v.getLsbD 1
def segTmo (v : W64) : Nat := bits v.toNat 3 2
def segV (v : W64) : Nat := bits v.toNat 19 6 * 64
def segP (v : W64) : Nat := bits v.toNat 31 20 * 64
def segLen (v : W64) : Nat := bits v.toNat 44 32 * 64

def segOf (s : State) (c i : Nat) : W64 := Sparse.get 0 s.syn.segments (c * 16 + i)

/-- Translate a virtual object of a context: the physical object and whether it is mapped by a wait segment
(11 R335). -/
def translate (s : State) (ctx v : Nat) : Option (Nat × Bool) :=
  ((List.range 16).find? fun i =>
    let g := segOf s ctx i
    segEn g && segV g ≤ v && v < segV g + segLen g).map fun i =>
      let g := segOf s ctx i
      (segP g + (v - segV g), segWait g)

/-- The condition codes of 11 R339. -/
def condHolds (cond : Nat) (x k : W32) : Bool :=
  match cond with
  | 1 => x == k
  | 2 => x != k
  | 3 => (x - k).toNat < 2 ^ 31
  | 4 => (x - k).toNat ≥ 2 ^ 31
  | 5 => (x &&& k) == k
  | 6 => (x &&& k) != 0
  | _ => false

def monOf (s : State) (c m : Nat) : Monitor := Sparse.get {} s.syn.monitors (c * 64 + m)
def mMon (c m : Nat) (f : Monitor → Monitor) (s : State) : State :=
  mSyn (fun y => { y with monitors := Sparse.modify {} y.monitors (c * 64 + m) f }) s

/-- The record of a monitor that fires, to memory or to a tile; it disarms (11 R342). -/
def fireMonitor (c m : Nat) (code : W16) (s : State) : State :=
  let mo := monOf s c m
  let cfg := mo.cfg.toNat
  let rec16 := leBytes 4 (objOf s mo.phys).value.toNat ++ leBytes 2 code.toNat ++ leBytes 2 m ++ leBytes 8 (stamp s).toNat
  let s1 := mMon c m (fun mo => { mo with armed := false, code := code }) s
  let tgt := mo.target.toNat
  if bit cfg 24 then
    mTile (bits cfg 31 26) (fun t => { t with odata := t.odata ++
      [(BitVec.ofNat 512 (leNat rec16), BitVec.ofNat 16 (bits tgt 63 48))] }) s1
  else empRecord .other (regAddr s c (bits tgt 47 40) (bits tgt 39 0)) (padBeats rec16) s1

/-- After a change of an object, every armed monitor on it evaluates and fires (11 R340, R342). A ring head that
waits is released by its condition holding (11 R341): it is no longer stalled. -/
def evalMonitors (p : Nat) (s : State) : State :=
  s.syn.monitors.foldl (fun t e =>
    let c := e.1 / 64
    let m := e.1 % 64
    let mo := e.2
    let cfg := mo.cfg.toNat
    if mo.armed && mo.phys == p && condHolds (bits cfg 23 20) (objOf t p).value (BitVec.ofNat 32 (bits cfg 63 32))
    then fireMonitor c m cOk t else t) s

/-- The trace record of a SET or ADD (11 R361). -/
def traceRec (p ctx source : Nat) (chip : Coord) (s : State) : State :=
  if s.syn.traceEn then
    empRecord .other (s.syn.traceBase.toNat + 16 * p)
      (leBytes 8 (stamp s).toNat ++ [BitVec.ofNat 8 ctx] ++ leBytes 2 source ++ [0] ++ leBytes 2 chip.nibbles ++ [0, 0]) s
  else s

/-- Apply SET or ADD to a physical object (11 R338, R345). local_ says the primitive was issued locally in context
ctx, which returns the owner's orphaned object to LIVE. -/
def applyPrim (p : Nat) (set : Bool) (v : W32) (local_ : Bool) (ctx source : Nat) (chip : Coord) (s : State) : State :=
  let o := objOf s p
  let val := if set then v else o.value + v
  let mayLive := local_ && o.ctx.toNat == ctx && !s.syn.preempted.getLsbD ctx && !s.rst.ctx.contains ctx
  let o1 := { o with value := val }
  let o2 := if o.st = .orphaned && mayLive then
      (if o.rewritten then (if set then { o1 with st := .live, rewritten := false } else o1)
        else { o1 with st := .live })
    else o1
  traceRec p ctx source chip (evalMonitors p (mObj p (fun _ => o2) s))

/-- A local completion signal or readiness ADD (11 R338). An unmapped object or one mapped by a wait segment is not
changed; the answer says whether it was. -/
def localPrim (ctx v : Nat) (set : Bool) (val : W32) (source : Nat) (s : State) : Bool × State :=
  match translate s ctx v with
  | some (p, false) => (true, applyPrim p set val true ctx source s.rtr.self s)
  | _ => (false, s)

/-- A session's or descriptor's completion signal (05 R157 DONE_MODE). -/
def doneSignal (d : Desc) (ctx source : Nat) (s : State) : State :=
  if d.doneMode = 0 then (localPrim ctx d.doneObj false d.doneValue source s).2
  else if d.doneMode = 1 then (localPrim ctx d.doneObj true d.doneValue source s).2
  else s

/-! ### Completion of descriptors (05 R155) -/

/-- Leave a code on a tile port's STAT with an intake index (02 R42). -/
def statCode (port : Nat) (code : W16) (idx : BitVec 2) (s : State) : State :=
  mTile port (fun t => { t with stat := t.stat ++ [(code, idx)] }) (reportCode code s)

/-- DONE advances over descriptors written ahead of it, in ring order. -/
def advanceDone : Nat → Ring → Ring
  | 0, r => r
  | n + 1, r => if r.written.contains r.done then advanceDone n { r with done := r.done + 1, written := r.written.erase r.done } else r

/-- Write descriptor n's completion record and count it (05 R155). The vector is requested at the record's WACK
(02 R64). -/
def completeDesc (r : Nat) (n : W32) (gsid : Nat) (code : W16) (flags : Nat) (p : WPurpose) (s : State) : State :=
  let g := ringOf s r
  let size := 2 ^ g.sizeLog2.toNat
  let phase := 1 - n.toNat / size % 2
  let addr := g.cpl.toNat + n.toNat % size * 16
  let rec_ := leBytes 2 code.toNat ++ [BitVec.ofNat 8 (phase + flags), 0] ++ leBytes 4 gsid ++ leBytes 8 (stamp s).toNat
  let s1 := empRecord p addr rec_ (reportCode code s)
  mRing r (fun g => advanceDone (g.written.length + 1) { g with written := g.written ++ [n] }) s1

/-- Source number of LAST_REJECT and of a SIGNAL (05 R179, 11 R350). -/
def SesSource.number (x : SesSource) : Nat :=
  match x with
  | .ring r _ => r
  | .tpl .. => 256

/-! ### Abort notices (05 R170) -/

/-- Send the abort notice to every other member of a group. -/
def abortGroup (axis base n rank ctx gsid : Nat) (step : W16) (code : W16) (s : State) : State :=
  (List.range n).foldl (fun t k => if k = rank then t
    else sendBand (t.rtr.member axis base k) ctx step gsid (.abort code rank false) t) s

end Sys2Proof.Machine
end

