-- ==== Sys2Proof/Machine/Session.lean ====
section
/-! DEFINITION. Machine/Session.lean: templates, the geometry of a session, and the checks that a descriptor or a
template passes before it becomes a session (05 R148, R149, R157, R158, R161; 08 R242, R243; 10 R328). -/

namespace Sys2Proof.Machine

/-! ### Configuration entries -/

/-- Finish entry fields (08 R264), on the 128-bit entry. -/
def finEntry (s : State) (i : Nat) : Nat := (Sparse.get (0 : BitVec 128) s.fin.entries i).toNat
def finMode (e : Nat) : Nat := bits e 1 0
def finAct (e : Nat) : Nat := bits e 3 2
def finScaleEn (e : Nat) : Bool := bit e 4
def finBiasEn (e : Nat) : Bool := bit e 5
def finSavePre (e : Nat) : Bool := bit e 6
def finPreFmt (e : Nat) : Nat := bits e 11 8
def finEwOp (e : Nat) : Nat := bits e 13 12
def finSat (e : Nat) : Bool := bit e 16
def finMx (e : Nat) : Bool := bit e 17
def finCtx (e : Nat) : Nat := bits e 29 24
def finValid (e : Nat) : Bool := bit e 31
def finScale (e : Nat) : F32 := BitVec.ofNat 32 (bits e 63 32)
def finCols (e : Nat) : Nat := bits e 87 64
def finPreOff (e : Nat) : Nat := bits e 127 96

/-- Row entry fields (08 R266), on the 192-bit entry. -/
def rowEntry (s : State) (i : Nat) : Nat := (Sparse.get (0 : BitVec 192) s.row.entries i).toNat
def rowMode (e : Nat) : Nat := bits e 2 0
def rowGamma (e : Nat) : Bool := bit e 3
def rowBeta (e : Nat) : Bool := bit e 4
def rowPair (e : Nat) : Bool := bit e 5
def rowXFmt (e : Nat) : Nat := bits e 9 6
def rowSat (e : Nat) : Bool := bit e 10
def rowMx (e : Nat) : Bool := bit e 11
def rowHold (e : Nat) : Nat := bits e 22 18
def rowBlock (e : Nat) : Nat := 2 ^ bits e 26 23
def rowCtx (e : Nat) : Nat := bits e 32 27
def rowValid (e : Nat) : Bool := bit e 63
def rowEps (e : Nat) : F32 := BitVec.ofNat 32 (bits e 95 64)
def rowK (e : Nat) : Nat := bits e 119 96
def rowThm (e : Nat) : Nat := bits e 147 128
def rowThmStride (e : Nat) : Nat := bits e 167 148

/-- Statistics per row of a mode (08 R253). -/
def rowStatsOf (mode : Nat) : Nat := if mode = 0 || mode = 3 then 2 else 1

/-- Exchange entry fields (10 R331), on the 192-bit entry. -/
def spxEntry (s : State) (i : Nat) : Nat := (Sparse.get (0 : BitVec 192) s.spx.entries i).toNat
def spxKind (e : Nat) : Nat := bits e 1 0
def spxSparse (e : Nat) : Bool := bit e 2
def spxRoute (e : Nat) : Bool := bit e 3
def spxCtx (e : Nat) : Nat := bits e 13 8
def spxELocal (e : Nat) : Nat := bits e 26 16
def spxCap (e : Nat) : Nat := bits e 47 32
def spxValid (e : Nat) : Bool := bit e 63
def spxKMax (e : Nat) : Nat := bits e 83 64
def spxRow (e : Nat) : Nat := bits e 103 84
def spxStats (e : Nat) : Nat := bits e 127 104
def spxRet (e : Nat) : Nat := bits e 159 128

/-- Deposit entry fields (07 R241). -/
def depEntry (s : State) (i : Nat) : Nat := (Sparse.get (0 : W64) s.ses.dep i).toNat
def depTranspose (e : Nat) : Bool := bit e 0
def depRows (e : Nat) : Nat := bits e 31 8
def depCols (e : Nat) : Nat := bits e 55 32
def depValid (e : Nat) : Bool := bit e 63

/-- Stash fields (10 R332). -/
def stashOf (s : State) (i : Nat) : Stash := Sparse.get {} s.spx.stash i
def stReg (c : W64) : Nat := bits c.toNat 7 0
def stCtx (c : W64) : Nat := bits c.toNat 13 8
def stSize (c : W64) : Nat := 2 ^ bits c.toNat 20 16
def stNent (c : W64) : Nat := bits c.toNat 44 32
def stValid (c : W64) : Bool := bit c.toNat 63

/-- Channel configuration: owner context [5:0] and enable [6] (11 R351, R363). -/
def chanCfg (s : State) (c : Nat) : Nat :=
  if c = 14 || c = 15 then 0x40 else (Sparse.get (0 : BitVec 7) s.syn.chanCfg c).toNat
def chanEn (v : Nat) : Bool := bit v 6
def chanCtx (v : Nat) : Nat := bits v 5 0

/-- Bucket entry fields (09 R301), on the 512-bit entry. -/
def bktEntry (s : State) (b : Nat) : Nat := (Sparse.get (0 : BitVec 512) s.gas.buckets b).toNat
def bktWord (e i : Nat) : Nat := bits e (64 * i + 63) (64 * i)

/-! ### Templates (05 R148, R149) -/

/-- Word i of a template entry. -/
def tplWord (e : BitVec 512) (i : Nat) : Nat := bits e.toNat (64 * i + 63) (64 * i)
def tplOf (s : State) (t : Nat) : BitVec 512 := Sparse.get (0 : BitVec 512) s.tpl.entries t
def tplValid (e : BitVec 512) : Bool := bit (tplWord e 0) 63
def tplCtx (e : BitVec 512) : Nat := bits (tplWord e 0) 37 32
def tplPart (e : BitVec 512) : Nat := bits (tplWord e 1) 35 0
def tplMask (e : BitVec 512) : Nat := tplWord e 2
def tplTiles (e : BitVec 512) : Nat := popcount 64 (tplMask e)
def tplLimit (e : BitVec 512) : Nat := let v := bits (tplWord e 6) 63 48; if v = 0 then 65536 else v

/-- The zero fields of R148. -/
def tplDirty (e : BitVec 512) : Bool :=
  let w := tplWord e
  bit (w 0) 27 || bit (w 0) 31 || bits (w 0) 62 38 != 0 || bits (w 1) 39 36 != 0 || bits (w 1) 47 45 != 0 ||
    bits (w 4) 63 48 != 0 || bits (w 5) 31 30 != 0 || bits (w 6) 47 40 != 0 || bits (w 7) 63 40 != 0

/-- The values a session of instance i takes (05 R149); n is the group size. -/
def tplDesc (e : BitVec 512) (t i n : Nat) (step : W16) : Desc :=
  let w := tplWord e
  let base := Desc.ofWords [bits (w 0) 31 0, w 1, 0, 0, 0, 0, 0, 0]
  let total := tplPart e * tplTiles e
  { base with
    gsid := 2 ^ 31 + t % 1024 * 2 ^ 21 + step.toNat % 32 * 2 ^ 16 + i % 2 ^ 16,
    count := if base.opc = 0x02 then total * n else total,
    srcReg := 255, srcOff := 0,
    dstOff := bits (w 3) 39 0 + i * bits (w 4) 39 0, dstReg := bits (w 3) 47 40,
    bucket := (bits (w 3) 63 48 + i) % 2 ^ 16,
    auxOff := bits (w 6) 39 0 + i * bits (w 7) 39 0, auxReg := bits (w 4) 47 40,
    doneObj := (bits (w 5) 19 0 + i * bits (w 5) 29 22) % 2 ^ 20, doneMode := bits (w 5) 21 20,
    doneValue := BitVec.ofNat 32 (bits (w 5) 63 32), step := step, dirty := tplDirty e }

/-! ### Sizes -/

/-- Capacity for rows and expert geometry (10 R318): bytes of a row in a format, rounded up to 64 B. -/
def rowBytes (f elems : Nat) : Nat := roundUp (fmtBytes f elems) 64

/-- Bytes of a count block (10 R321). -/
def countBlock (eLocal n : Nat) : Nat := roundUp (4 * eLocal * n) 64

/-- The conversion that a session's output needs: its result format (08 R243). -/
def resultFmt (d : Desc) : Nat :=
  if isReduce d.opc then wireFmt d else if d.fmtIn ≤ 2 then 0 else d.fmtIn

/-- The permitted pairs of result format and FMT_OUT (08 R243). -/
def pairPermitted (res out : Nat) : Bool :=
  if res = 0 then decide (out ≤ 5) else res == out

/-- Opcodes whose output passes R243. -/
def converts (opc : Nat) : Bool := opc == 1 || opc == 2 || opc == 3 || opc == 4 || opc == 5 || opc == 6 || opc == 8 || opc == 9 || opc == 10 || opc == 11

/-! ### Buckets and optimizer entries named by a session (09 R276, R291, R301, R305) -/

def bkCtx (e : Nat) : Nat := bits (bktWord e 0) 5 0
def bkFrozen (e : Nat) : Bool := bit (bktWord e 0) 6
def bkNorm (e : Nat) : Bool := bit (bktWord e 0) 7
def bkPreload (e : Nat) : Nat := bits (bktWord e 0) 9 8
def bkTag (e : Nat) : Nat := bits (bktWord e 0) 31 16
def bkOpt (e : Nat) : Nat := bits (bktWord e 0) 37 32
def bkGreg (e : Nat) : Nat := bits (bktWord e 0) 47 40
def bkValid (e : Nat) : Bool := bit (bktWord e 0) 63
def bkBase (e : Nat) : Nat := bits (bktWord e 1) 39 0
def bkCount (e : Nat) : Nat := bits (bktWord e 2) 27 0
def bkExpect (e : Nat) : Nat := bits (bktWord e 2) 59 28
def bkReadyObj (e : Nat) : Nat := bits (bktWord e 3) 19 0
def bkPreReg (e : Nat) : Nat := bits (bktWord e 3) 31 24
def bkPeriod (e : Nat) : Nat := bits (bktWord e 3) 55 32
def bkPreOff (e : Nat) : Nat := bits (bktWord e 4) 39 0
def bkParamReg (e : Nat) : Nat := bits (bktWord e 4) 47 40
def bkParamOff (e : Nat) : Nat := bits (bktWord e 5) 39 0
def bkStateOff (e : Nat) : Nat := bits (bktWord e 6) 39 0
def bkStateReg (e : Nat) : Nat := bits (bktWord e 6) 47 40
def bkMirrorOff (e : Nat) : Nat := bits (bktWord e 7) 39 0
/-- Active: VALID = 1 and FROZEN = 0 (09 R269). -/
def bkActive (e : Nat) : Bool := bkValid e && !bkFrozen e

/-- Word n of an optimizer entry (09 R305). -/
def optWord (s : State) (i n : Nat) : Nat := bits (Sparse.get (0 : BitVec 512) s.opt.entries i).toNat (32 * n + 31) (32 * n)
/-- Word 0 of an entry in force: from an UPDATE verdict to the commit, the one of the verdict (R282). -/
def optForce (s : State) (i : Nat) : Nat := ((assoc? s.opt.consts i).map fun k => k.w0.toNat).getD (optWord s i 0)
def optRule (s : State) (i : Nat) : Nat := bits (optForce s i) 1 0
def optPfmt (s : State) (i : Nat) : Nat := bits (optForce s i) 5 2
def optUpStart (s : State) (i : Nat) : Nat := bits (optForce s i) 11 6
def optUpLen (s : State) (i : Nat) : Nat := bits (optForce s i) 18 12
def optCtx (s : State) (i : Nat) : Nat := bits (optWord s i 0) 29 24
def optValid (s : State) (i : Nat) : Bool := bit (optWord s i 0) 31
/-- NSTATE: state words per element, fixed by rules 0 to 2 (09 R305, R287). -/
def optNState (s : State) (i : Nat) : Nat :=
  match optRule s i with
  | 0 => 0
  | 1 => 1
  | 2 => 2
  | _ => bits (optForce s i) 20 19

/-- Numbers of the buckets a test accepts, ascending. -/
def bucketsWhere (s : State) (f : Nat → Bool) : List Nat := (s.gas.buckets.map Prod.fst).filter f
def activeBuckets (s : State) : List Nat := bucketsWhere s fun b => bkActive (bktEntry s b)

/-- The active bucket of a context whose TAG a session's BUCKET is (09 R276, R291). -/
def bucketFor (s : State) (ctx tag : Nat) : Option Nat :=
  (activeBuckets s).find? fun b => bkCtx (bktEntry s b) == ctx && bkTag (bktEntry s b) == tag

/-- A parameter session: an ALL_GATHER over an active bucket (09 R291). -/
def paramBucket (s : State) (ctx : Nat) (d : Desc) : Option Nat :=
  if d.opc = 0x02 then bucketFor s ctx d.bucket else none

/-- The bucket of a gradient session. -/
def gradBucket (s : State) (ctx : Nat) (d : Desc) : Option Nat :=
  if isGradient s d ctx then bucketFor s ctx d.bucket else none

/-! ### Channels (11 R351) -/

/-- A descriptor's channel may be used: enabled for the context, not the engine's, on the descriptor's axis. -/
def channelOk (s : State) (ctx : Nat) (d : Desc) : Bool :=
  let c := d.stageCfg % 64
  let v := chanCfg s c
  chanEn v && chanCtx v == ctx && c != 14 && c != 15 && (c < 32 || (c - 32) / 8 == d.axis)

/-! ### The field checks of 05 R158, orders 3 to 11 -/

def isSync (d : Desc) : Bool := d.opc == 0x00
def syncClass (d : Desc) : Nat := d.stageCfg / 64

/-- The FIN bit against 08 R242; a reserved format is judged at order 5 (log 23). -/
def finBitOk (d : Desc) : Bool :=
  if d.opc = 0x01 then !d.fin || d.fmtIn ≤ 5 || d.fmtIn ≥ 8
  else if d.opc = 0x0B then d.fin else !d.fin

/-- Order 4. Format pairs are judged here only when neither code is reserved (order 5); log 23. -/
def fieldInvalid (d : Desc) : Bool :=
  d.dirty || d.vc == 0 || d.doneMode == 3 || d.waitCond ≥ 7 ||
    (d.redOp != 0 && !(d.opc == 0x01 || d.opc == 0x06 || d.opc == 0x07 || d.opc == 0x08)) ||
    !finBitOk d || (d.mask && d.opc != 0x01) ||
    (isSync d && (syncClass d == 3 || (syncClass d != 1 && d.count != 0) || (syncClass d == 1 && d.doneMode == 2))) ||
    (d.opc == 0x07 && d.count > 1) ||
    ((d.opc == 0x06 || d.opc == 0x0B) && d.fmtIn > 2 && d.fmtIn < 8) ||
    (converts d.opc && d.fmtIn < 8 && d.fmtOut < 8 && !pairPermitted (resultFmt d) d.fmtOut)

/-- Order 6 (06 R183, 10 R312, 11 R358). -/
def redOpInvalid (d : Desc) : Bool :=
  match d.opc with
  | 0x01 =>
    if d.fmtIn ≤ 2 then d.redOp > 3
    else if d.fmtIn = 6 || d.fmtIn = 7 then !(decide (2 ≤ d.redOp) && decide (d.redOp ≤ 6)) else true
  | 0x06 => d.redOp > 1
  | 0x07 =>
    if d.fmtIn = 0 then !(d.redOp == 0 || d.redOp == 2 || d.redOp == 3)
    else if d.fmtIn = 6 then !(d.redOp == 0 || (decide (2 ≤ d.redOp) && decide (d.redOp ≤ 6))) else true
  | 0x08 => !(d.fmtIn == 0 && (d.redOp == 0 || d.redOp == 2 || d.redOp == 3))
  | _ => false

/-- Order 7. -/
def lscaleInvalid (d : Desc) : Bool :=
  (((d.opc == 0x01 || d.opc == 0x08) && d.redOp ≤ 1) || d.opc == 0x06) && !(decide (-128 ≤ d.lscale) && decide (d.lscale ≤ -16))

/-- Order 8. -/
def groupInvalid (s : State) (d : Desc) : Bool :=
  let m := s.rtr.size d.axis
  let n := s.rtr.groupSize d.axis d.gsize
  !s.rtr.shapeOk || n > m || m % n != 0 || (d.ring && n != m) || d.peer ≥ n || (d.opc == 0x0B && d.gsize != 1) ||
    (d.opc == 0x06 && n == 1)

/-- A step number is the uncommitted step or the next. -/
def stepNear (s : State) (step : W16) : Bool := step == s.opt.step || step == s.opt.step + 1

/-- Order 9, for gradient and parameter sessions. -/
def stepInvalid (s : State) (ctx : Nat) (d : Desc) : Bool :=
  (isGradient s d ctx || (paramBucket s ctx d).isSome) && !stepNear s d.step

/-- Rows that fill a 64-byte beat (07 R227). -/
def rowBlockRows (f : Nat) : Nat := 64 / max 1 (fmtSize f)

/-- Order 10. -/
def stageCfgInvalid (s : State) (ctx : Nat) (d : Desc) : Bool :=
  match d.opc with
  | 0x00 => syncClass d == 2 && !channelOk s ctx d
  | 0x01 =>
    d.fin &&
      (let e := finEntry s d.stageCfg
       !finValid e || finCtx e != ctx || finMode e > 1 ||
         (d.mask && (finBiasEn e || finSavePre e || finMode e == 1)))
  | 0x02 =>
    d.stageCfg != 255 &&
      (let e := depEntry s d.stageCfg
       !depValid e || (depTranspose e &&
         (depRows e * depCols e != d.count || depRows e % rowBlockRows d.fmtOut != 0 || d.fmtOut == 5)))
  | 0x06 =>
    let e := rowEntry s d.stageCfg
    !rowValid e || rowCtx e != ctx || d.count % max 1 (rowK e) != 0 ||
      ((d.redOp == 1 || rowPair e) && rowBlock e * rowStatsOf (rowMode e) > 512)
  | 0x07 => !channelOk s ctx d
  | 0x08 => let e := spxEntry s d.stageCfg; !spxValid e || spxCtx e != ctx || spxKind e != 0
  | 0x0B => let e := finEntry s d.stageCfg; !finValid e || finCtx e != ctx || finMode e != 2
  | _ => false

/-- Whether an object can be set or added to by a context (11 R337). -/
def ownsObj (s : State) (ctx v : Nat) : Bool :=
  match translate s ctx v with
  | some (_, false) => true
  | _ => false

/-- Order 11. The object of a remote signal is the peer's (11 R346). -/
def syncIdInvalid (s : State) (ctx : Nat) (d : Desc) : Bool :=
  (d.doneMode != 2 && !(isSync d && syncClass d == 1) && !ownsObj s ctx d.doneObj) ||
    (d.waitCond != 0 && (translate s ctx d.waitObj).isNone)

/-- Orders 3 to 8 of R158. -/
def fieldCode (s : State) (d : Desc) : Option W16 :=
  if d.opc > 0x0B then some cOpcodeInvalid
  else if fieldInvalid d then some cFieldInvalid
  else if d.fmtIn ≥ 8 || d.fmtOut ≥ 8 then some cUnsupportedFormat
  else if redOpInvalid d then some cRedOpInvalid
  else if lscaleInvalid d then some cLedgerScaleInvalid
  else if groupInvalid s d then some cGroupInvalid
  else none

/-- Orders 1 to 11 of R158 for a descriptor of a context. -/
def headCode (s : State) (ctx : Nat) (d : Desc) : Option W16 :=
  if s.rst.ctx.contains ctx then some cContextReset
  else if s.rtr.isSpare then some cSpareInactive
  else (fieldCode s d).orElse fun _ =>
    if stepInvalid s ctx d then some cStepRange
    else if stageCfgInvalid s ctx d then some cStageCfgInvalid
    else if syncIdInvalid s ctx d then some cSyncIdUnmapped
    else none

/-! ### Region ranges and checks (05 R161, 07 R217, 08 R247, R254, 09 R276, 10 R306 to R323) -/

/-- A byte range a session uses: how it is read and written, and the kinds it may lie in. -/
structure Need where
  reg : Nat
  off : Nat
  len : Nat
  rd : Bool
  wr : Bool
  kinds : List Nat
deriving DecidableEq, Repr

def srcNeed (reg off len : Nat) : Need := ⟨reg, off, len, true, false, [0]⟩
def dstNeed (reg off len : Nat) : Need := ⟨reg, off, len, false, true, [0]⟩
def bothNeed (reg off len : Nat) : Need := ⟨reg, off, len, true, true, [0]⟩

/-- Offsets of the auxiliary blocks of a ROW_STATS session (08 R254): γ, β, x. -/
def rowAux (e : Nat) : Nat × Nat × Nat :=
  let g := if rowGamma e then roundUp (4 * rowK e) 64 else 0
  let b := if rowBeta e then roundUp (4 * rowK e) 64 else 0
  (0, g, g + b)

/-- The destination size of a session's output in bytes. -/
def outBytes (d : Desc) (n : Nat) : Nat :=
  if isReduce d.opc then fmtBytes d.fmtOut (shardQ d n) else fmtBytes d.fmtOut d.count

/-- The ranges of a session, in the order of R161. tpl says that the source, and a destination of 255, are the tiles. -/
def needs (s : State) (ctx : Nat) (d : Desc) (tpl : Bool) (n : Nat) : List Need :=
  let q := shardQ d n
  let src (len : Nat) : List Need := if tpl then [] else [srcNeed d.srcReg d.srcOff len]
  let dst (len : Nat) : List Need := if tpl && d.dstReg == 255 then [] else [dstNeed d.dstReg d.dstOff len]
  match d.opc with
  | 0x01 =>
    let kinds := if d.ring then [0] else [0, 1]
    (src (fmtBytes d.fmtIn d.count)).map (fun x => { x with kinds := kinds }) ++ dst (fmtBytes d.fmtOut q) ++
      (if d.mask then [srcNeed d.auxReg d.auxOff (cdiv (cdiv d.count 64) 8)] else []) ++
      (if d.fin then
        let e := finEntry s d.stageCfg
        -- the pre-activations of this rank's own shard (R247)
        let own := min q (d.count - s.rtr.rank d.axis s.rtr.me % max 1 n * q)
        (if finBiasEn e then [srcNeed d.auxReg d.auxOff (4 * finCols e)] else []) ++
          (if finMode e = 1 then [srcNeed d.auxReg (d.auxOff + 64 * finPreOff e) (fmtBytes (finPreFmt e) own)]
           else if finSavePre e then [dstNeed d.auxReg (d.auxOff + 64 * finPreOff e) (fmtBytes (finPreFmt e) own)] else [])
       else []) ++
      (match gradBucket s ctx d with
       | none => []
       | some b =>
         let e := bktEntry s b
         let q4 := roundUp (4 * q) 64
         [bothNeed (bkStateReg e) (bkStateOff e) ((1 + optNState s (bkOpt e)) * q4),
          dstNeed (bkParamReg e) (bkParamOff e) (fmtBytes (optPfmt s (bkOpt e)) q)])
  | 0x02 =>
    src (fmtBytes d.fmtIn q) ++ dst (fmtBytes d.fmtOut d.count) ++
      (if d.stageCfg != 255 && depTranspose (depEntry s d.stageCfg) then
        [dstNeed d.auxReg d.auxOff (fmtBytes d.fmtOut d.count)] else [])
  | 0x03 => src (fmtBytes d.fmtIn d.count) ++ dst (fmtBytes d.fmtOut d.count)
  | 0x04 => src (fmtBytes d.fmtIn d.count)
  | 0x05 => (dst (fmtBytes d.fmtOut d.count)).map fun x => { x with kinds := [0, 2] }
  | 0x06 =>
    let e := rowEntry s d.stageCfg
    src (fmtBytes d.fmtIn d.count) ++ dst (fmtBytes d.fmtOut d.count) ++
      (if rowGamma e then [srcNeed d.auxReg d.auxOff (4 * rowK e)] else []) ++
      (if rowBeta e then [srcNeed d.auxReg (d.auxOff + (rowAux e).2.1) (4 * rowK e)] else []) ++
      (if rowMode e ≥ 3 then [srcNeed d.auxReg (d.auxOff + (rowAux e).2.2) (fmtBytes (rowXFmt e) d.count)] else [])
  | 0x07 => [srcNeed d.srcReg d.srcOff 4, dstNeed d.dstReg d.dstOff 7]
  | 0x08 =>
    let e := spxEntry s d.stageCfg
    src (64 + 8 * spxKMax e) ++
      (if spxSparse e then [dstNeed d.dstReg d.dstOff (64 + 8 * min q (n * spxKMax e))] else dst (fmtBytes d.fmtOut q))
  | 0x09 =>
    let e := spxEntry s d.stageCfg
    let t := d.count / max 1 (spxRow e)
    src (fmtBytes d.fmtIn d.count) ++
      [dstNeed d.dstReg d.dstOff (countBlock (spxELocal e) n + spxELocal e * n * spxCap e * rowBytes d.fmtOut (spxRow e))] ++
      [bothNeed d.auxReg d.auxOff (16 * t), dstNeed d.auxReg (d.auxOff + 64 * spxStats e) (8 * n * spxELocal e)]
  | 0x0A =>
    let e := spxEntry s d.stageCfg
    let t := d.count / max 1 (spxRow e)
    src (countBlock (spxELocal e) n + spxELocal e * n * spxCap e * rowBytes d.fmtIn (spxRow e)) ++
      dst (t * rowBytes d.fmtOut (spxRow e)) ++
      [srcNeed d.auxReg d.auxOff (16 * t),
       bothNeed d.auxReg (d.auxOff + 64 * spxRet e) (n * spxELocal e * spxCap e * rowBytes d.fmtIn (spxRow e))]
  | 0x0B =>
    src (fmtBytes d.fmtIn d.count) ++ dst (fmtBytes d.fmtOut d.count) ++
      (if finEwOp (finEntry s d.stageCfg) = 2 then [] else [srcNeed d.auxReg d.auxOff (fmtBytes d.fmtIn d.count)])
  | _ => []

/-- The stash that describes a RECEIVE's destination region (10 R325). -/
def stashFor (s : State) (ctx reg : Nat) : Option Nat :=
  (List.range 16).find? fun i => let c := (stashOf s i).cfg; stValid c && stCtx c == ctx && stReg c == reg

/-- The conditions of 09 R276 on a source of kind GAS. -/
def gradientBad (s : State) (ctx : Nat) (d : Desc) (tpl : Bool) : Bool :=
  match bucketFor s ctx d.bucket with
  | none => true
  | some b =>
    let e := bktEntry s b
    tpl || d.srcReg != bkGreg e || d.srcOff != bkBase e || d.count != bkCount e || d.fmtIn != 0 || d.fmtOut != 0 || d.fin ||
      d.redOp > 1 ||
      (s.ses.slots.any fun p => p.2.d.bucket == d.bucket && p.2.ctx == ctx && p.2.d.step == d.step && isGradient s p.2.d p.2.ctx) ||
      (match (bktOf s b).park with
       | some k => k.d.step == d.step
       | none => false)

/-- The five checks on one range (05 R161). An output that has no division into tile parts (R150), a dispatch's or a
sparse list, cannot go to the tiles: its destination 255 is no region (log 24). -/
def needCode (s : State) (ctx : Nat) (d : Desc) (tpl : Bool) (x : Need) : Option W16 :=
  let r := regionOf s ctx x.reg
  if !r.valid || (x.reg == 255 && (!tpl || (x.wr && !x.rd && x.reg == d.dstReg))) then some cRegionInvalid
  else if x.off % 64 != 0 then some cOffsetMisaligned
  else if (x.rd && !r.rd) || (x.wr && !r.wr) then some cRegionPermission
  else if !x.kinds.contains r.kind.toNat then some cRegionKind
  else if r.kind = 1 && gradientBad s ctx d tpl then some cRegionKind
  else if r.kind = 2 then
    -- the destination of a RECEIVE into a stash (10 R325)
    match stashFor s ctx x.reg with
    | none => some cRegionKind
    | some i =>
      let st := stashOf s i
      if x.off != 0 then some cOffsetMisaligned
      else if x.len > stSize st.cfg ||
          st.assigned.toNat % max 1 (stNent st.cfg) * stSize st.cfg + roundUp x.len 64 > r.len.toNat
        then some cLengthExceedsRegion else none
  else if x.off + roundUp x.len 64 > r.len.toNat then some cLengthExceedsRegion
  else none

/-- The region checks of a session: the MXFP8 length, then each range in turn (05 R161, R169); a ROW_STATS session's
thimble range comes with them (08 R260). -/
def regionCode (s : State) (ctx : Nat) (d : Desc) (tpl : Bool) (n inst : Nat) : Option W16 :=
  if converts d.opc && (d.fmtIn = 5 || d.fmtOut = 5) && d.count % 32 != 0 then some cLengthMisaligned
  else ((needs s ctx d tpl n).findSome? (needCode s ctx d tpl)).orElse fun _ =>
    if d.opc = 0x06 then
      let e := rowEntry s d.stageCfg
      if rowThm e + inst * rowThmStride e + d.count / max 1 (rowK e) > 2 ^ 20 then some cLengthExceedsRegion else none
    else none

/-! ### Held identifiers, capabilities and the checks of SPX -/

/-- A GSID held by a live session of this chip, in a slot or parked. -/
def gsidHeld (s : State) (g : Nat) : Bool :=
  (slotOfGsid s g).isSome || s.gas.bkt.any (fun p => match p.2.park with
    | some k => k.gsid == g
    | none => false)

/-- A GSID held by any session in a slot, a rejected one included, or parked: the test of 05 R140. -/
def gsidTaken (s : State) (g : Nat) : Bool := gsidHeld s g || s.ses.slots.any fun p => p.2.gsid == g

def repeatListed (s : State) (g : Nat) : Bool := s.opt.repeatA.contains g || s.opt.repeatB.contains g

/-- The first hop's port on the deterministic path to a logical chip. -/
def firstPort (s : State) (c : Coord) : Option Nat := (s.rtr.route s.rtr.phys (s.rtr.toPhys c)).map Hop.port

/-- Group ranks to which this member sends tree chunks: the parents of its own leaf and of its nodes, over every
shard (04 R130). -/
def treeTargets (m base n rank : Nat) : List Nat :=
  (List.range n).flatMap fun sh => (List.range (treeDepth n + 1)).flatMap fun k => (List.range 16).filterMap fun j =>
    let mine := if k = 0 then j == rank else nodeCombines n k j && nodeHost m base n sh k j == rank
    if !mine then none
    else match parentOf n k j with
      | none => none
      | some (k2, j2, _) =>
        let h := nodeHost m base n sh k2 j2
        if h = rank then none else some h

/-- The capability check of R158 order 14 (04 R130): every hop that leaves this chip on the session's paths. -/
def capsMissing (s : State) (d : Desc) (n base rank : Nat) : Bool :=
  let m := s.rtr.size d.axis
  let need : Option Nat :=
    if d.opc = 0x08 then some 2
    else if (d.opc = 0x01 && d.redOp = 1) || (d.opc = 0x06 && (d.redOp = 1 || rowPair (rowEntry s d.stageCfg))) then some 1
    else none
  match need with
  | none => false
  | some b =>
    if n = 1 then false
    else
      let ranks :=
        if d.opc = 0x06 then [(rank + 1) % n, (rank + n - 1) % n]
        else if d.ring then
          (if cdiv (shardQ d n) (chunkE d) > 1 then [(rank + 1) % n, (rank + n - 1) % n] else [(rank + 1) % n])
        else treeTargets m base n rank
      ranks.any fun k =>
        match firstPort s (s.rtr.member d.axis base k) with
        | none => false
        | some p => !(portOf s p).agreedCaps.getLsbD b

/-- The mask of a session: bit of a block of 64 elements (10 R306). -/
def maskBit (s : State) (ctx : Nat) (d : Desc) (b : Nat) : Bool :=
  (readByte s.mem (regAddr s ctx d.auxReg (d.auxOff + b / 8))).getLsbD (b % 8)

/-- The checks of 10 R328 that come with resolution. -/
def spxCode (s : State) (ctx : Nat) (d : Desc) (n : Nat) : Option W16 :=
  if d.opc = 0x08 && (d.count > 2 ^ 32 || d.ring || d.mask) then some cFieldInvalid
  else if d.mask && d.count % (64 * n) != 0 then some cMaskInvalid
  else if d.mask && ((List.range (roundUp (cdiv (cdiv d.count 64) 8) 64 * 8 - d.count / 64)).any fun i =>
      maskBit s ctx d (d.count / 64 + i)) then some cMaskInvalid
  else if d.opc = 0x08 then
    (if spxSparse (spxEntry s d.stageCfg) && d.fmtOut != 0 then some cFieldInvalid else none)
  else if d.opc = 0x09 || d.opc = 0x0A then
    let e := spxEntry s d.stageCfg
    if !spxValid e || spxCtx e != ctx || spxKind e != 1 || d.count % max 1 (spxRow e) != 0 then some cStageCfgInvalid else none
  else none

end Sys2Proof.Machine
end

