-- ==== Sys2Proof/Machine/Retire.lean ====
section
/-! DEFINITION. Machine/Retire.lean: session slots, palm, completion signals, fenced signals, failure and retirement
(05 R163, R165, R170, R171, R503, R504; 06 R207; 07 R221; 11 R347, R348). -/

namespace Sys2Proof.Machine

/-! ### Palm and staging (07 R221, R223, R232, R239; 08 R258) -/

def palmAll : Nat := 24197

/-- Latency of this chip's own hop to the next chip of an axis in a direction, by the port that makes it (03 R79, R83). -/
def ownHopNs (s : State) (a : Nat) (plus : Bool) : Nat :=
  let r := s.rtr
  let next := r.me.set a (ringStep (r.size a) (r.me.get a) plus)
  reachNs (r.reach (((r.route r.phys (r.toPhys next)).map Hop.port).getD (axisPort a plus)))

/-- Latency of the hop of an axis between rank i and the rank after it: this chip's port map gives its own two, and the
classes of the others are the installation's, free values (log 18). -/
def hopNs (s : State) (a i : Nat) : Nat :=
  let m := s.rtr.size a
  let me := s.rtr.rank a s.rtr.me
  if i % m = me then ownHopNs s a true
  else if (i + 1) % m = me then ownHopNs s a false
  else reachNs (Config.hopReach a (s.rtr.me.set a (s.rtr.ofRank a i)).nibbles).val

/-- Sum of the latencies of the hops from an axis rank to another, the shorter way (03 R83). -/
def pathNs (s : State) (a p q : Nat) : Nat :=
  let m := s.rtr.size a
  if shorterPlus m p q then (List.range (ringDist m p q)).foldl (fun t i => t + hopNs s a (p + i)) 0
  else (List.range (ringDist m q p)).foldl (fun t i => t + hopNs s a (q + i)) 0

/-- L_k of 07 R220, of the longest operand path of level k; DEDUCED: of several, the slowest (log 18). -/
def levelNs (s : State) (a base n k : Nat) : Nat :=
  let m := s.rtr.size a
  let ps := levelPaths m base n k
  let d := levelDist m base n k
  (ps.filter fun p => hopDist m p.1 p.2 == d).foldl (fun t p => max t (pathNs s a p.1 p.2)) 0

/-- W_k of a tree-order session at level k (07 R221). -/
def wLevel (s : State) (d : Desc) (base n k : Nat) : Nat := wBuffers (levelNs s d.axis base n k)

/-- Elements of shard sh that exist, and its chunks that are not empty (07 R215, R216). -/
def shardLen (d : Desc) (n sh : Nat) : Nat := min (shardQ d n) (d.count - sh * shardQ d n)
def shardChunks (d : Desc) (n : Nat) : Nat := cdiv (shardQ d n) (chunkE d)
def realChunks (d : Desc) (n sh : Nat) : Nat := cdiv (shardLen d n sh) (chunkE d)

/-- Directions a ring-order session uses (07 R223). -/
def ringDirs (d : Desc) (n : Nat) : Nat := if shardChunks d n > 1 then 2 else 1

/-- Buffers a session needs of the palm on this member; none for one that takes no admission (07 R228). -/
def palmNeed (s : State) (d : Desc) (base n : Nat) : Nat :=
  if n = 1 then 0
  else if d.opc = 0x06 then
    let e := rowEntry s d.stageCfg
    cdiv ((if rowMode e ≥ 3 then 2 else 1) * rowHold e * rowBlock e * rowK e * 4) 4160 + 2 * n
  else if isReduce d.opc then
    if d.ring then
      2 * wBuffers (ownHopNs s d.axis false) + (if ringDirs d n = 2 then 2 * wBuffers (ownHopNs s d.axis true) else 0)
    else (List.range (treeDepth n)).foldl (fun t k => t + 2 * wLevel s d base n (k + 1)) 0
  else 0

def Session.reserves (x : Session) : Bool := x.st == .held || x.st == .firm || x.st == .run

/-- PALM_FREE and STAGE_FREE (07 R239). -/
def palmUsed (s : State) : Nat := (s.ses.slots.filter fun p => p.2.reserves && !p.2.staged).foldl (fun t p => t + p.2.palm) 0
def palmFree (s : State) : Nat := palmAll - palmUsed s
def stageAll (s : State) : Nat := s.ses.stageLen.toNat / 4160
def stageUsed (s : State) : Nat := (s.ses.slots.filter fun p => p.2.reserves && p.2.staged).foldl (fun t p => t + p.2.palm) 0
def stageFree (s : State) : Nat := stageAll s - stageUsed s

/-- USERS of a region entry (05 R160): the sessions in slots that name it, from their region check on. -/
def regionUsers (s : State) (ctx reg : Nat) : Nat :=
  (s.ses.slots.filter fun p => p.2.ctx == ctx && p.2.regionChecked &&
    (needs s ctx p.2.d p.2.isTpl p.2.n).any fun x => x.reg == reg).length

/-- Open sessions of a template (05 R178). -/
def tplOpen (s : State) (t : Nat) : Nat :=
  (s.ses.slots.filter fun p => match p.2.src with
    | .tpl t2 _ _ => t2 == t
    | .ring .. => false).length

/-- A configuration entry that an open session of these opcodes names (07 R241, 08 R262, 10 R329). -/
def cfgNamed (s : State) (opcs : List Nat) (i : Nat) : Bool :=
  s.ses.slots.any fun p => opcs.contains p.2.d.opc && p.2.d.stageCfg == i && p.2.st != .rejected &&
    (p.2.d.opc != 0x01 || p.2.d.fin)

/-! ### Completion signals and fenced SIGNALs -/

/-- The signaller a session's trace record names (11 R350): its ring, or 256 plus its template's lowest tile. -/
def sourceNumber (s : State) (x : SesSource) : Nat :=
  match x with
  | .ring r _ => r
  | .tpl t _ _ => 256 + ((List.range 64).find? fun p => bit (tplMask (tplOf s t)) p).getD 0

/-- A code with which a session applies its signal (05 R504), a repeat's STEP_REPEATED apart. -/
def signalOk (code : W16) : Bool := code == cOk || code == cPoisonedBucket

/-- Apply an inbound SIGNAL at this chip (11 R338, R347, R348): an unmapped object, or one mapped by a wait segment,
discards it. -/
def applySignal (f : Fenced) (s : State) : State :=
  match translate s f.ctx f.obj with
  | some (p, false) =>
    let s1 := applyPrim p f.set f.value false f.ctx f.source f.chip s
    if f.set then s1 else choice 6 0 f.gsid s1
  | _ =>
    raiseError cSyncIdUnmapped (bump pgSyn (·.syn.bandDrops) (fun v => mSyn fun y => { y with bandDrops := v }) 1 s)

/-- At retirement the fenced SIGNALs pending for a session are applied, or dropped after a failure (11 R347). -/
def settleFences (gsid : Nat) (ok : Bool) (s : State) : State :=
  let mine := s.syn.fenced.filter fun f => f.gsid == gsid
  let s1 := mSyn (fun y => { y with fenced := y.fenced.filter fun f => f.gsid != gsid }) s
  if ok then foldS mine s1 applySignal
  else bump pgSyn (·.syn.fenceDrops) (fun v => mSyn fun y => { y with fenceDrops := v }) mine.length s1

/-- Apply the fenced SIGNALs whose bytes have landed (11 R347). -/
def landFences (gsid landed : Nat) (s : State) : State :=
  let due := s.syn.fenced.filter fun f => f.gsid == gsid && decide (f.need ≤ landed)
  let s1 := mSyn (fun y => { y with fenced := y.fenced.filter fun f => !(f.gsid == gsid && decide (f.need ≤ landed)) }) s
  foldS due s1 applySignal

/-! ### Retirement -/

/-- Tile parts of a session that ends: a whole part is forgotten, the rest of an open one is discarded (05 R503). -/
def dropParts (slot : Nat) (s : State) : State :=
  { s with tiles := Sparse.mapAll {} s.tiles fun _ t =>
      { t with parts := (t.parts.filter fun p => !(match p.use with
          | .bound i _ _ => i == slot && p.closed
          | _ => false)).map fun p => match p.use with
          | .bound i _ _ => if i = slot then { p with use := .discard, data := [], consumed := p.beats } else p
          | _ => p } }

/-- Work of a session that its end discards: operands in the palm, and chunks before FIN, work that waits for reads and packets waiting for credit,
whose tags are then free to retire. -/
def dropWork (x : Session) (s : State) : State :=
  let gsid := x.gsid
  let gone := (s.fin.queue.filter fun i => i.gsid == gsid).map FinItem.tag ++ (x.outs.map fun o => o.2.2.tag) ++
    x.locals.map LocalOp.tag ++ (s.red.operands.filter fun o => o.gsid == gsid).map Operand.tag
  let s1 := { s with red := { s.red with operands := s.red.operands.filter fun o => o.gsid != gsid },
                     fin := { s.fin with queue := s.fin.queue.filter fun i => i.gsid != gsid } }
  foldS gone s1 meetTag

/-- The memory port's requests of a slot that is freed no longer concern the slot; a write's tag still awaits its WACK. -/
def dropRequests (slot : Nat) (s : State) : State :=
  mEmp (fun e =>
    { e with
      writes := e.writes.map fun w => match w.purpose with
        | .session i n t => if i = slot then { w with purpose := .session 4096 n t } else w
        | .rowOut i _ _ => if i = slot then { w with purpose := .other } else w
        | _ => w,
      reads := e.reads.map fun r => match r.purpose with
        | .session i _ => if i = slot then { r with purpose := .other } else r
        | .fin i _ _ => if i = slot then { r with purpose := .other } else r
        | _ => r }) s

/-- FILLED counts a stash entry at its RECEIVE's end; the bytes of an entry whose RECEIVE ends with a code other than OK
are undefined (10 R325). -/
def fillStash (x : Session) (code : W16) (s : State) : State :=
  match x.stash with
  | none => s
  | some (i, _) =>
    let s1 := if code = cOk then s else undefBytes (regAddr s x.ctx x.d.dstReg x.d.dstOff) (stSize (stashOf s i).cfg) s
    mSpx (fun q => { q with stash := Sparse.modify {} q.stash i fun e => { e with filled := e.filled + 1 } }) s1

/-- Free a slot and everything it holds. -/
def freeSlot (slot : Nat) (s : State) : State :=
  match slot? s slot with
  | none => s
  | some x => eraseSlot slot (dropRequests slot (dropParts slot (dropWork x s)))

/-- Retire the session of a slot with a code (01 R18; 05 R155, R504; 12 R372). -/
def retireSlot (slot : Nat) (code : W16) (flags : Nat) (s : State) : State :=
  match slot? s slot with
  | none => s
  | some x =>
    let s1 := decision 3 slot x.gsid 0 code.toNat 0 s
    let s2 := if signalOk code then doneSignal x.d x.ctx (sourceNumber s x.src) s1 else s1
    let s3 := match x.src with
      | .ring r n => completeDesc r n x.gsid code flags (.record r) s2
      | .tpl .. => s2
    let s4 := fillStash x code (settleFences x.gsid (code == cOk) s3)
    freeSlot slot s4

/-- A gradient session of a step has failed (09 R280): its step is the uncommitted one or the next. -/
def failStep (step : W16) (s : State) : State :=
  if step = s.opt.step then { s with opt := { s.opt with failed := true } }
  else if step = s.opt.step + 1 then { s with opt := { s.opt with failedNext := true } }
  else s

/-- End a session with an error code: retirement, the abort notice, and for a gradient session the failed step (05 R170;
09 R278, R280). -/
def endSession (slot : Nat) (code : W16) (s : State) : State :=
  match slot? s slot with
  | none => s
  | some x =>
    let grad := isGradient s x.d x.ctx
    let s1 := reportCode code s
    let s2 := if grad then failStep x.d.step s1 else s1
    let s3 := retireSlot slot code 0 s2
    if x.n > 1 then abortGroup x.d.axis x.base x.n x.rank x.ctx x.gsid x.d.step code s3 else s3

/-- Fail a session as in steps 2, 4 and 5 of 06 R207: the error vector besides its end. -/
def failSession (slot : Nat) (code : W16) (s : State) : State :=
  if (slot? s slot).isNone then s else endSession slot code (raiseVec 256 s)

/-- SPX reports a code in LAST_FAIL (10 R330). -/
def spxFail (code : W16) (s : State) : State := mSpx (fun x => { x with lastFail := code }) s

/-- A session of SPX fails in the way of R207 (10 R313). -/
def failSpx (slot : Nat) (code : W16) (s : State) : State := failSession slot code (spxFail code s)
/-- A session of SPX completes with an error and sends its abort notice (10 R319, R323, R324). -/
def endSpx (slot : Nat) (code : W16) (s : State) : State := endSession slot code (spxFail code s)

/-- The next number from n on without a completion record. -/
def nextHead : Nat → Ring → W32 → W32
  | 0, _, n => n
  | k + 1, g, n => if g.written.contains n then nextHead k g (n + 1) else n

/-- The descriptor at a ring's head leaves it, completed with a code (05 R155, R502). Descriptors behind it that already
have a record are passed over (R175). -/
def headDone (r : Nat) (code : W16) (flags : Nat) (s : State) : State :=
  match (ringOf s r).cur with
  | none => s
  | some d =>
    let h := (ringOf s r).head
    mRing r (fun g =>
      let n := if serialGe g.done (h + 1) then g.done else h + 1
      { g with head := nextHead (g.written.length + 1) g n, cur := none, headState := .idle, tagStall := false })
      (completeDesc r h d.gsid code flags (.record r) s)

/-! ### Tags (05 R165, R166) -/

def tagsHeld (s : State) : Nat := s.trk.tags.length

/-- Take the lowest free tag, if any. -/
def freeTag (s : State) : Option Nat := lowestFree s.trk.tags 65536

def takeTag (t slot gsid seq : Nat) (s : State) : State :=
  mTrk (fun k =>
    let tags := assocSet k.tags t { slot := slot, gsid := gsid, seq := seq, retired := false }
    { k with tags := tags, highWater := if tags.length > k.highWater.toNat then BitVec.ofNat 17 tags.length else k.highWater }) s

def holdsTag (s : State) (gsid : Nat) : Bool := s.trk.tags.any fun p => p.2.gsid == gsid

/-- Whether a read is still outstanding. -/
def readOut (s : State) (t : Nat) : Bool := s.emp.reads.any fun r => r.tag == t

end Sys2Proof.Machine
end

