-- ==== Sys2Proof/Machine/Chunks.lean ====
section
/-! DEFINITION. Machine/Chunks.lean: a session's input elements, its output bytes, chunk packets, buffer credits and
where a tree node's output goes (05 R144, R168, R503; 07 R216 to R223; 08 R243, R249, R250, R498). -/

namespace Sys2Proof.Machine

/-! ### Input -/

/-- Cut elements e to e + k - 1 at part boundaries: part, first element within it, elements. -/
def segs (pc : Nat) : Nat → Nat → Nat → List (Nat × Nat × Nat)
  | 0, _, _ => []
  | fuel + 1, e, k =>
    if k = 0 || pc = 0 then []
    else
      let m := min k (pc - e % pc)
      (e / pc, e % pc, m) :: segs pc fuel (e + m) (k - m)

def isPart (slot p : Nat) (x : Part) : Bool :=
  match x.use with
  | .bound i q _ => i == slot && q == p
  | _ => false

/-- The CDATA taken for part p of a session. -/
def partOf (s : State) (slot p : Nat) : Option Part := (s.tiles.flatMap fun t => t.2.parts).find? (isPart slot p)
def partData (s : State) (slot p : Nat) : List Byte := ((partOf s slot p).map Part.data).getD []

/-- Input elements e to e + k - 1, in FMT_IN, from the source region or the parts (05 R144). -/
def inputElems (s : State) (slot : Nat) (x : Session) (e k : Nat) : List Nat :=
  let sz := fmtSize x.d.fmtIn
  let raw (b : List Byte) : List Nat := (pieces sz b).map leNat
  if x.isTpl then
    (segs x.partCount 65 e k).flatMap fun g => raw (slice (partData s slot g.1) (g.2.1 * sz) (g.2.2 * sz))
  else raw (readBytes s.mem (regAddr s x.ctx x.d.srcReg (x.d.srcOff + e * sz)) (k * sz))

/-- Input scale bytes of blocks b to b + k - 1 of an MXFP8 source of m elements (08 R250). -/
def inputScales (s : State) (slot : Nat) (x : Session) (m b k : Nat) : List Byte :=
  if x.isTpl then
    (segs (x.partCount / 32) 65 b k).flatMap fun g => slice (partData s slot g.1) (x.partCount + g.2.1) g.2.2
  else readBytes s.mem (regAddr s x.ctx x.d.srcReg (x.d.srcOff + m + b)) k

/-- Whether input element e is present: its part is not absent, its block not elided (05 R144, 10 R306). -/
def inputHere (s : State) (x : Session) (e : Nat) : Bool :=
  !(x.isTpl && x.absentParts.getLsbD (e / max 1 x.partCount)) && (!x.d.mask || maskBit s x.ctx x.d (e / 64))

/-- Adjacent runs joined. -/
def joinRuns : List (Nat × Nat) → List (Nat × Nat)
  | [] => []
  | a :: l => match joinRuns l with
    | [] => [a]
    | b :: r => if a.1 + a.2 = b.1 then (a.1, a.2 + b.2) :: r else a :: b :: r

/-- The runs of present elements among elements e to e + k - 1, by blocks of 64 (10 R306, R307, R311). -/
def presentRuns (s : State) (x : Session) (e k : Nat) : List (Nat × Nat) :=
  if k = 0 then []
  else if !x.d.mask && x.absentParts = 0 then [(e, k)]
  else joinRuns (((List.range (cdiv k 64)).map fun b => (e + 64 * b, min 64 (k - 64 * b))).filter fun r => inputHere s x r.1)

/-- Whether an element lies in one of the runs. -/
def inRuns (rs : List (Nat × Nat)) (e : Nat) : Bool := rs.any fun r => decide (r.1 ≤ e) && decide (e < r.1 + r.2)

/-- Input elements e to e + k - 1, in FMT_IN; none is absent. -/
def inputPresent (s : State) (slot : Nat) (x : Session) (e k : Nat) : List (Option Nat) :=
  let all := inputElems s slot x e k
  let rs := presentRuns s x e k
  if rs = [(e, k)] then all.map some
  else (List.range k).zipWith (fun i v => if inRuns rs (e + i) then some v else none) all

/-- The span of an address in the GAS window, and whether it is current (09 R268). -/
def spanOf (s : State) (a : Nat) : Nat := (a - s.gas.winBase.toNat) / 65536
def spanCurrent (s : State) (sp : Nat) : Bool := Sparse.get false s.gas.epoch sp == s.opt.step.getLsbD 0

/-- Whether the data of present elements e to e + k - 1 are at hand: taken from the tiles, or, for a gradient session,
in current spans (log 19). -/
def runReady (s : State) (slot : Nat) (x : Session) (e k : Nat) : Bool :=
  if x.isTpl then
    (segs x.partCount 65 e k).all fun g => match partOf s slot g.1 with
      | none => false
      | some p => p.closed || (x.d.fmtIn != 5 && decide ((g.2.1 + g.2.2) * fmtSize x.d.fmtIn ≤ p.data.length))
  else if isGradient s x.d x.ctx then
    let a := regAddr s x.ctx x.d.srcReg (x.d.srcOff + 4 * e)
    (List.range (spanOf s (a + 4 * (k - 1)) + 1 - spanOf s a)).all fun i => spanCurrent s (spanOf s a + i)
  else true

/-- Whether the data of the present elements among e to e + k - 1 are at hand. -/
def inputReady (s : State) (slot : Nat) (x : Session) (e k : Nat) : Bool :=
  (presentRuns s x e k).all fun r => runReady s slot x r.1 r.2

/-- Whether every part of a template session's contribution is whole or absent. -/
def partsReady (s : State) (slot : Nat) (x : Session) : Bool :=
  !x.isTpl || (List.range (popcount 64 x.tileMask.toNat)).all fun p =>
    x.absentParts.getLsbD p || (match partOf s slot p with
      | some q => q.closed
      | none => false)

/-- The CDATA buffer releases the beats of input elements below e (02 R42). -/
def consumeInput (slot : Nat) (x : Session) (e : Nat) (s : State) : State :=
  if !x.isTpl then s
  else { s with tiles := Sparse.mapAll {} s.tiles fun _ t => { t with parts := t.parts.map fun p =>
      match p.use with
      | .bound i q _ =>
        if i = slot then
          { p with consumed := if (q + 1) * x.partCount ≤ e then p.beats
              else max p.consumed (min p.beats ((e - q * x.partCount) * fmtSize x.d.fmtIn / 64)) }
        else p
      | _ => p } }

/-! ### Output -/

/-- Encoded output elements: element bytes, MXFP8 scale bytes, and what the counters of R498 count. -/
structure OutRun where
  elems : List Byte
  scales : List Byte
  sats : Nat
  nans : Nat
  mxs : Nat
deriving DecidableEq, Repr

/-- Runs put one after another. -/
def OutRun.append (a b : OutRun) : OutRun :=
  { elems := a.elems ++ b.elems, scales := a.scales ++ b.scales, sats := a.sats + b.sats, nans := a.nans + b.nans,
    mxs := a.mxs + b.mxs }
def OutRun.empty : OutRun := { elems := [], scales := [], sats := 0, nans := 0, mxs := 0 }

/-- Convert binary32 results to a format (08 R249, R250). -/
def encodeOut (f : Nat) (sat mx : Bool) (vs : List Nat) : OutRun :=
  if f = 5 then
    let bs := (pieces 32 vs).map fun b => mxBlock mx (b.map fun v => BitVec.ofNat 32 v)
    { elems := bs.flatMap (·.1), scales := bs.map (·.2.1), sats := 0, nans := 0, mxs := (bs.filter (·.2.2)).length }
  else
    let cs := vs.map fun v => convert f sat (BitVec.ofNat 32 v)
    { elems := cs.flatMap fun c => leBytes (fmtSize f) c.raw, scales := [], sats := (cs.filter (·.sat)).length,
      nans := (cs.filter (·.nan)).length, mxs := 0 }

/-- Elements copied in their own format (08 R243). -/
def copyOut (f : Nat) (vs : List Nat) (scales : List Byte) : OutRun :=
  { elems := vs.flatMap (leBytes (fmtSize f)), scales := scales, sats := 0,
    nans := if f = 5 then 0 else (vs.filter (isNaNIn f)).length,
    mxs := if f = 5 then (scales.filter (· == 0xFF)).length else 0 }

/-- Count at an output point (08 R498). -/
def countOut (r : OutRun) (s : State) : State :=
  bump pgFin (·.fin.mxNanBlocks) (fun v => mFin fun f => { f with mxNanBlocks := v }) r.mxs
    (bump pgFin (·.fin.nanOut) (fun v => mFin fun f => { f with nanOut := v }) r.nans
      (bump pgFin (·.fin.satCount) (fun v => mFin fun f => { f with satCount := v }) r.sats s))

/-- Write bytes at any address in whole beats: the other bytes of a beat keep what they hold, or are zero past the
end of the output (05 R162). -/
def writeSpan (p : WPurpose) (addr : Nat) (bytes : List Byte) (last : Bool) (s : State) : State :=
  let a0 := addr / 64 * 64
  let e := addr + bytes.length
  let post := if last then [] else readBytes s.mem e (roundUp e 64 - e)
  empWrite p a0 (readBytes s.mem a0 (addr - a0) ++ bytes ++ post) s

/-- Write output elements from element e of an output of m elements at an address; MXFP8 scales follow the elements
(08 R250). The tag is retired by the last write. -/
def writeOutAs (pe pl : Nat → WPurpose) (f addr m e : Nat) (r : OutRun) (s : State) : State :=
  if f = 5 then
    let s1 := writeSpan (pe r.elems.length) (addr + e) r.elems false s
    writeSpan (pl r.scales.length) (addr + m + e / 32) r.scales (e + r.elems.length == m) s1
  else
    let a := addr + e * fmtSize f
    writeSpan (pl r.elems.length) a r.elems (e * fmtSize f + r.elems.length == m * fmtSize f) s

def writeOut (slot : Nat) (tag : Option Nat) (f addr m e : Nat) (r : OutRun) (s : State) : State :=
  writeOutAs (fun n => .session slot n none) (fun n => .session slot n tag) f addr m e r s

/-- Deliver output elements of a session: to its destination region, or kept for the tiles (05 R150). -/
def deliverOut (slot : Nat) (tag : Option Nat) (m e : Nat) (r : OutRun) (s : State) : State :=
  match slot? s slot with
  | none => s
  | some x =>
    if x.isTpl && x.d.dstReg = 255 then
      meetTag tag (mSlot slot (fun x => { x with outE := x.outE ++ [(e, r.elems)], outS := x.outS ++ [(e / 32, r.scales)] }) s)
    else writeOut slot tag x.d.fmtOut (regAddr s x.ctx x.d.dstReg x.d.dstOff) m e r s

/-- Deliver runs of output elements, the tag with the last. -/
def deliverRuns (slot : Nat) (tag : Option Nat) (m : Nat) : List (Nat × List Byte × List Byte) → State → State
  | [], s => meetTag tag s
  | [r], s => deliverOut slot tag m r.1 { OutRun.empty with elems := r.2.1, scales := r.2.2 } s
  | r :: rs, s =>
    deliverRuns slot tag m rs (deliverOut slot none m r.1 { OutRun.empty with elems := r.2.1, scales := r.2.2 } s)

/-- Bytes first to first + k - 1 of collected runs, each with its first index times its element size. -/
def gatherRuns (sz : Nat) (l : List (Nat × List Byte)) (first k : Nat) : List Byte :=
  (List.range (k * sz)).map fun i =>
    let a := first * sz + i
    ((l.find? fun r => r.1 * sz ≤ a && decide (a < r.1 * sz + r.2.length)).map fun r => byteAt r.2 (a - r.1 * sz)).getD 0

/-- Number of the tile that supplies part p of a TILE_MASK (05 R144). -/
def tileOfPart (mask p : Nat) : Nat := ((List.range 64).filter fun t => bit mask t).getD p 0

/-- Send the collected output to the tiles: part by part in beats, with result tag INST (05 R150). m is the number of
elements that the division is made over, have the number that exist. -/
def flushTiles (slot m have_ : Nat) (s : State) : State :=
  match slot? s slot with
  | none => s
  | some x => match x.src with
    | .ring .. => s
    | .tpl t _ inst =>
      if x.d.dstReg != 255 then s
      else
        let mask := x.tileMask.toNat
        let parts := popcount 64 mask
        let p0 := cdiv m (max 1 parts)
        let size := if x.d.fmtOut = 5 then roundUp p0 32 else p0
        foldS (List.range parts) s fun p s =>
          let lo := p * size
          let k := min ((p + 1) * size) have_ - lo
          if k = 0 || x.absentParts.getLsbD p then s
          else
            let bytes := gatherRuns (fmtSize x.d.fmtOut) x.outE lo k ++
              (if x.d.fmtOut = 5 then gatherRuns 1 x.outS (lo / 32) (k / 32) else [])
            let beats := (pieces 64 bytes).map fun b => (BitVec.ofNat 512 (leNat b), BitVec.ofNat 16 inst)
            mTile (tileOfPart mask p) (fun tl => { tl with odata := tl.odata ++ beats }) s

/-! ### Chunk packets -/

/-- PTYPE of a session's operand chunks (04 R109). -/
def chunkPtype (d : Desc) : Nat :=
  if d.opc = 0x08 then ptTopk else if isReduce d.opc && d.redOp = 1 then ptPair else ptChunk

/-- The header of a chunk of a session (05 R168). -/
def chunkHdr (s : State) (x : Session) (seq level offset elems fmt : Nat) (last masked : Bool) : ChunkHdr :=
  { seq := seq, bucket := x.d.bucket, rank := s.rtr.rank x.d.axis s.rtr.me, axis := x.d.axis, level := level,
    offset := offset, elems := elems, fmt := fmt, op := x.d.redOp, last := last, masked := masked,
    staged := x.staged && level != 0, step := x.d.step.toNat }

/-- A chunk from its parts: payload laid out, cuff sealed (06 R199, R206). -/
def sealChunk (h : ChunkHdr) (k : Cuff) (payload : List Byte) : Chunk :=
  { hdr := h, cuff := k.bytes (pcrcOf payload), payload := payload }

/-- The packet of a chunk to a group rank. -/
def chunkPacket (s : State) (x : Session) (rank ptype : Nat) (c : Chunk) (tag : Option Nat) (reads : List Nat) : Packet :=
  { mkPacket s (memberOf s x rank) ptype x.gsid x.d.vc (b2n x.d.adapt) c.body with tag := tag, reads := reads }

/-! ### Buffer credits (07 R221) -/

/-- m_k: distinct remote hosts that send level-k operands to a host. -/
def sendersTo (m base n host k : Nat) : Nat :=
  ((List.range n).filter fun r => r != host && (List.range n).any fun sh => (List.range 16).any fun j =>
    nodeCombines n k j && nodeHost m base n sh k j == host &&
      (let side (c : Nat) : Nat := let p := producerOf n (k - 1) c; nodeHost m base n sh p.1 p.2
       side (2 * j) == r || side (2 * j + 1) == r)).length

/-- The credit a sender starts with at a host for a level; in ring order, the buffers of the path. -/
def creditLimit (s : State) (x : Session) (host k : Nat) : Nat :=
  if x.d.ring then
    let up := wBuffers (ownHopNs s x.d.axis true)
    let down := wBuffers (ownHopNs s x.d.axis false)
    if x.n = 2 then up + (if ringDirs x.d x.n = 2 then down else 0)
    else if host = (x.rank + 1) % x.n then up else down
  else wLevel s x.d x.base x.n k / max 1 (sendersTo (s.rtr.size x.d.axis) x.base x.n host k)

def creditLeft (s : State) (x : Session) (host k : Nat) : Nat :=
  creditLimit s x host k - Sparse.get 0 x.used (host * 8 + k)

def useCredit (slot host k : Nat) (s : State) : State :=
  mSlot slot (fun x => { x with used := Sparse.modify 0 x.used (host * 8 + k) (· + 1) }) s

/-- Free one incoming buffer that a peer's chunk filled; eight are returned in one SLOT_RETURN (07 R221). -/
def returnCredit (slot peer k : Nat) (s : State) : State :=
  match slot? s slot with
  | none => s
  | some x =>
    let n := Sparse.get 0 x.owed (peer * 8 + k) + 1
    let s1 := mSlot slot (fun x => { x with owed := Sparse.set 0 x.owed (peer * 8 + k) (n % 8) }) s
    if n = 8 then sendBand (memberOf s x peer) x.ctx x.d.step x.gsid (.slotReturn k 8) s1 else s1

/-- Send the waiting packets of a session that have credit, oldest first for each host and level. -/
def drainOuts (slot : Nat) (s : State) : State :=
  match slot? s slot with
  | none => s
  | some x =>
    let s0 := mSlot slot (fun x => { x with outs := [] }) s
    foldS x.outs s0 fun o s => match slot? s slot with
      | none => s
      | some y =>
        if creditLeft s y o.1 o.2.1 = 0 || y.outs.any (fun w => w.1 == o.1 && w.2.1 == o.2.1)
        then mSlot slot (fun y => { y with outs := y.outs ++ [o] }) s
        else inject o.2.2 (useCredit slot o.1 o.2.1 s)

/-! ### Where a node's output goes -/

/-- The place an output chunk takes next: level and index of the parent node, side, and its host's group rank; none
for the root's output (07 R219). In ring order the one node of a chip is (1, 0), and its partner is its right operand
(06 R198). -/
structure Goal where
  level : Nat
  node : Nat
  right : Bool
  host : Nat
deriving DecidableEq, Repr

/-- Shard and chunk number of a SEQ (07 R216). -/
def seqShard (d : Desc) (n seq : Nat) : Nat := if d.opc = 0x08 then seq / 2 ^ 24 else seq / max 1 (shardChunks d n)
def seqChunk (d : Desc) (n seq : Nat) : Nat := if d.opc = 0x08 then seq % 2 ^ 24 else seq % max 1 (shardChunks d n)

/-- Ring order: whether a chunk of a shard moves in the plus direction (07 R223). -/
def ringPlus (d : Desc) (n seq : Nat) : Bool := seqChunk d n seq < cdiv (shardChunks d n) 2
/-- The rank at which a partial starts, and the next rank after one. -/
def ringStart (d : Desc) (n seq : Nat) : Nat :=
  let j := seqShard d n seq
  if ringPlus d n seq then (j + 1) % n else (j + n - 1) % n
def ringNext (d : Desc) (n seq r : Nat) : Nat := if ringPlus d n seq then (r + 1) % n else (r + n - 1) % n
/-- Additions made once the partial has passed a rank. -/
def ringLevel (d : Desc) (n seq r : Nat) : Nat :=
  let st := ringStart d n seq
  if ringPlus d n seq then (r + n - st) % n else (st + n - r) % n

/-- The goal of the output of node (k, j) of a chunk's tree. -/
def treeGoal (s : State) (x : Session) (seq k j : Nat) : Option Goal :=
  (parentOf x.n k j).map fun p =>
    ⟨p.1, p.2.1, p.2.2, nodeHost (s.rtr.size x.d.axis) x.base x.n (seqShard x.d x.n seq) p.1 p.2.1⟩

/-- Element positions of a chunk (07 R216). -/
def chunkFirst (d : Desc) (n seq : Nat) : Nat := seqShard d n seq * shardQ d n + seqChunk d n seq * chunkE d
def chunkLen (d : Desc) (n seq : Nat) : Nat :=
  min (chunkE d) (shardLen d n (seqShard d n seq) - seqChunk d n seq * chunkE d)

/-! ### Operands in the palm and in the staging area (07 R221, R233) -/

def isOperandOf (g seq level node : Nat) (right : Bool) (o : Operand) : Bool :=
  o.gsid == g && o.seq == seq && o.level == level && o.node == node && o.right == right
def operand? (s : State) (g seq level node : Nat) (right : Bool) : Option Operand :=
  s.red.operands.find? (isOperandOf g seq level node right)
def dropOperand (o : Operand) (s : State) : State := mRed (fun r => { r with operands := r.operands.erase o }) s
/-- Change the operands that are the given one. -/
def mOperand (o : Operand) (f : Operand → Operand) (s : State) : State :=
  mRed (fun r => { r with operands := r.operands.map fun p => if p = o then f p else p }) s

/-- Buffers of the staging area that operands hold, and the lowest that none holds (log 80). -/
def stageHeld (s : State) : List Nat := s.red.operands.filterMap fun o => o.area.map Prod.fst
def stageNext (s : State) : Nat := ((List.range ((stageHeld s).length + 1)).find? fun i => !(stageHeld s).contains i).getD 0
/-- Address of a buffer of the staging area. -/
def stageAddr (s : State) (i : Nat) : Nat := s.ses.stageBase.toNat + 4160 * i

/-- An operand of a staged session whose data are here is written to the staging area (R233). -/
def stageOperand (x : Session) (o : Operand) (s : State) : State :=
  match o.chunk, slotOfGsid s x.gsid with
  | some c, some slot =>
    if !x.staged || !o.reads.isEmpty || o.area.isSome then s
    else
      let i := stageNext s
      empWrite (.session slot 0 none) (stageAddr s i) (slice c.cuff 0 64 ++ payload4096 c.payload)
        (mOperand o (fun o => { o with area := some (i, false) }) s)
  | _, _ => s

/-- A staged operand is read back for its node: its cuff and payload are the bytes read. -/
def fetchOperand (slot : Nat) (o : Operand) (s : State) : State :=
  match o.area, o.chunk with
  | some (i, false), some c =>
    let b := readBytes s.mem (stageAddr s i) 4160
    let rd := readFor (.session slot o.gsid) (stageAddr s i) 4160 s
    mOperand o (fun o =>
      { o with chunk := some { c with cuff := slice b 0 64, payload := b.drop 64 }, reads := [rd.1], area := some (i, true) }) rd.2
  | _, _ => s

/-- Put an operand, or a known absence, into the palm or the staging area for a node hosted here. -/
def holdTagged (x : Session) (seq : Nat) (g : Goal) (c : Option Chunk) (peer : Option Nat) (reads : List Nat)
    (tag : Option Nat) (s : State) : State :=
  let o : Operand :=
    { gsid := x.gsid, seq := seq, level := g.level, node := g.node, right := g.right, chunk := c, peer := peer,
      ccc := s.ccc.toNat, reads := reads, tag := tag }
  stageOperand x o (mRed (fun r => { r with operands := r.operands ++ [o] }) s)

def holdOperand (x : Session) (seq : Nat) (g : Goal) (c : Option Chunk) (peer : Option Nat) (reads : List Nat) (s : State) : State :=
  holdTagged x seq g c peer reads none s

/-- Chunks of a level that this chip made for itself and that wait for their partners (07 R221). -/
def localHeld (s : State) (gsid level : Nat) (plus : Option Bool) (d : Desc) (n : Nat) : Nat :=
  (s.red.operands.filter fun o => o.gsid == gsid && o.level == level && o.chunk.isSome && o.peer.isNone &&
    (match plus with
    | none => true
    | some p => ringPlus d n o.seq == p)).length

/-- The local partial-result set of a goal's level is full, and the chunk's partner is not here to be combined at once. -/
def localFull (s : State) (x : Session) (seq : Nat) (g : Goal) : Bool :=
  let plus := ringPlus x.d x.n seq
  (operand? s x.gsid seq g.level g.node (!g.right)).isNone &&
    (if x.d.ring then
      decide (localHeld s x.gsid g.level (some plus) x.d x.n ≥ wBuffers (ownHopNs s x.d.axis (!plus)))
    else decide (localHeld s x.gsid g.level none x.d x.n ≥ wLevel s x.d x.base x.n g.level))

/-- Declare the absent outputs that a session still owes, one notice for each run of 64 SEQs (10 R310). -/
def absentWindows : List (Nat × Nat × Nat × Nat) → List (Nat × Nat × Nat × List Nat)
  | [] => []
  | (h, k, lo, seq) :: rest =>
    match absentWindows rest with
    | (h2, k2, lo2, seqs) :: more =>
      if h = h2 && k = k2 && lo = lo2 && seqs.all (fun q => seq ≤ q && decide (q < seq + 64)) then (h, k, lo, seq :: seqs) :: more
      else (h, k, lo, [seq]) :: (h2, k2, lo2, seqs) :: more
    | [] => [(h, k, lo, [seq])]

def flushAbsent (slot : Nat) (s : State) : State :=
  match slot? s slot with
  | none => s
  | some x =>
    let ws := absentWindows x.absentDue
    let s1 := mSlot slot (fun x => { x with absentDue := [] }) s
    foldS ws s1 fun w s =>
      let first := w.2.2.2.headD 0
      let bm := w.2.2.2.foldl (fun b q => b + 2 ^ (q - first)) 0
      bump pgSpx (·.spx.absentMsgs) (fun v => mSpx fun p => { p with absentMsgs := v }) 1
        (sendBand (memberOf s x w.1) x.ctx x.d.step x.gsid (.absent w.2.1 w.2.2.1 first bm) s)

/-- A node's output, or a leaf's, that is absent: known at once to a parent hosted here, declared to another later. -/
def absentOutput (slot : Nat) (x : Session) (seq k lo : Nat) (g : Goal) (s : State) : State :=
  if g.host = x.rank then holdOperand x seq g none none [] s
  else mSlot slot (fun x => { x with absentDue := x.absentDue ++ [(g.host, k, lo, seq)] }) s

end Sys2Proof.Machine
end

