-- ==== Sys2Proof/Machine/Issue.lean ====
section
/-! DEFINITION. Machine/Issue.lean: what a session issues next, and the commands CHUNK_ISSUE and TAG_EXHAUSTED
(05 R165 to R168; 07 R216, R223 to R226; 08 R251; 10 R307 to R314, R320 to R323). -/

namespace Sys2Proof.Machine

/-- The source reads of the present elements among e to e + k - 1 of a source of m elements: none for the tiles, and none
of an elided block (10 R307). -/
def sourceRead (slot : Nat) (x : Session) (m e k : Nat) (s : State) : List Nat × State :=
  if x.isTpl then ([], s)
  else (presentRuns s x e k).foldl (fun p r =>
    let q := readFor (.session slot x.gsid) (regAddr s x.ctx x.d.srcReg (x.d.srcOff + r.1 * fmtSize x.d.fmtIn))
      (r.2 * fmtSize x.d.fmtIn) p.2
    if x.d.fmtIn = 5 then
      let t := readFor (.session slot x.gsid) (regAddr s x.ctx x.d.srcReg (x.d.srcOff + m + r.1 / 32)) (r.2 / 32) q.2
      (p.1 ++ [q.1, t.1], t.2)
    else (p.1 ++ [q.1], q.2)) ([], s)

/-- Work that waits for reads at this chip. -/
def addLocal (slot : Nat) (o : LocalOp) (s : State) : State := mSlot slot (fun x => { x with locals := x.locals ++ [o] }) s

/-! ### Root outputs (06 R193, R208; 08 R248; 09 R279) -/

/-- GRAD_SCALE of a gradient session's bucket, and whether the shard enters the norm (09 R279). -/
def normOf (s : State) (b : Nat) : F32 × Bool :=
  let e := bktEntry s b
  (BitVec.ofNat 32 (optWord s (bkOpt e) 6), bkNorm e)

/-- The sum of squares of a chunk's elements (09 R279). -/
def chunkSumSq (scale : F32) (policy : Bool) (l : List (Option Nat)) : F32 :=
  (tree f32Add (l.map fun v => v.bind fun v =>
    let g : F32 := BitVec.ofNat 32 v
    if policy && !f32IsFin g then none else let h := f32Mul g scale; some (f32Mul h h))).getD 0

/-- Address of the saved pre-activation of shard element i (R247). -/
def preAddr (s : State) (x : Session) (e i : Nat) : Nat :=
  regAddr s x.ctx x.d.auxReg (x.d.auxOff + 64 * finPreOff e + i * fmtSize (finPreFmt e))

/-- Values of a format at an address, widened. -/
def widenedAt (s : State) (f addr n : Nat) : List F32 :=
  ((pieces (fmtSize f) (readBytes s.mem addr (n * fmtSize f))).map leNat).map fun v => widen f v

/-- The auxiliary reads of an output chunk, and what they read: the bias block and the pre-activations (08 R247, R248). -/
def auxReads (slot : Nat) (x : Session) (seq first k : Nat) (s : State) : List Nat × List F32 × List F32 × State :=
  if !x.d.fin || x.d.opc != 0x01 then ([], [], [], s)
  else
    let e := finEntry s x.d.stageCfg
    let i0 := first - x.rank * shardQ x.d x.n
    let a := regAddr s x.ctx x.d.auxReg x.d.auxOff
    let b := if finBiasEn e then
        let r := readFor (.fin slot x.gsid seq) a (4 * finCols e) s
        ([r.1], widenedAt s 0 a (finCols e), r.2)
      else ([], [], s)
    if finMode e = 1 then
      let r := readFor (.fin slot x.gsid seq) (preAddr s x e i0) (k * fmtSize (finPreFmt e)) b.2.2
      (b.1 ++ [r.1], b.2.1, widenedAt s (finPreFmt e) (preAddr s x e i0) k, r.2)
    else (b.1, b.2.1, [], b.2.2)

/-- The empty value of a session's reduction in a format (06 R187). -/
def emptyIn (d : Desc) (fmt : Nat) : Nat :=
  if fmt = wireFmt d then emptyValue d.redOp (wireFmt d)
  else (convert fmt false (BitVec.ofNat 32 (emptyValue d.redOp (wireFmt d)))).raw

/-- Note the flags of a root output chunk: the session's poison and skip, each counted and reported once (06 R193,
R208). -/
def noteRoot (slot : Nat) (poison skip : Bool) (infs : Nat) (s : State) : State :=
  match slot? s slot with
  | none => s
  | some x =>
    let s1 := mSlot slot (fun x => { x with poison := x.poison || poison, skip := x.skip || skip, infs := x.infs + infs }) s
    let s2 := if poison && !x.poison then
        let t := mRed (fun r => { r with poisonGsid := w32 x.gsid })
          (bump pgRed (·.red.poisoned) (fun v => mRed fun r => { r with poisoned := v }) 1 s1)
        if x.isTpl && t.red.poisonIrq then raiseError cPoisonedBucket t else t
      else s1
    if skip && !x.skip && s2.red.skipIrq then raiseVec 256 s2 else s2

/-- A final result chunk leaves its root: flags, the sum of squares of a gradient shard, its auxiliary reads, and its
place before FIN (08 R248). fmt is the format of the values. -/
def rootOutput (slot seq : Nat) (els : List (Option Nat)) (fmt : Nat) (poison skip : Bool) (tag : Option Nat)
    (reads : List Nat) (s : State) : State :=
  match slot? s slot with
  | none => s
  | some x =>
    let infs := ((els.filterMap id).filter (isInfIn fmt)).length
    let s1 := noteRoot slot poison skip infs s
    let s2 := match gradBucket s x.ctx x.d with
      | none => s1
      | some b =>
        let nm := normOf s b
        let v : F32 := if nm.2 then chunkSumSq nm.1 s.opt.policy els else 0
        mSlot slot (fun x => { x with sums := Sparse.insert seq v x.sums }) s1
    let first := chunkFirst x.d x.n seq
    let a := auxReads slot x seq first els.length s2
    let item : FinItem :=
      { slot := slot, gsid := x.gsid, seq := seq, first := first,
        vals := els.map (·.getD (emptyIn x.d fmt)), fmt := fmt, bias := a.2.1, pre := a.2.2.1, reads := reads ++ a.1, tag := tag }
    mSlot slot (fun x => { x with rootDone := x.rootDone + 1 })
      (mFin (fun f => { f with queue := f.queue ++ [item] }) a.2.2.2)

/-! ### Sending an output to its goal -/

/-- Send an output chunk toward its parent node, or hold it here; a packet that lacks buffer credit waits. -/
def sendOutput (slot : Nat) (x : Session) (seq : Nat) (g : Goal) (c : Chunk) (tag : Option Nat) (reads : List Nat)
    (s : State) : State :=
  if g.host = x.rank then
    (if reads.isEmpty then meetTag tag (holdOperand x seq g (some c) none [] s) else holdTagged x seq g (some c) none reads tag s)
  else
    let p := chunkPacket s x g.host (chunkPtype x.d) c tag reads
    match slot? s slot with
    | none => s
    | some y =>
      if creditLeft s y g.host g.level = 0 || y.outs.any (fun w => w.1 == g.host && w.2.1 == g.level)
      then mSlot slot (fun y => { y with outs := y.outs ++ [(g.host, g.level, p)] }) s
      else inject p (useCredit slot g.host g.level s)

/-- The goal of this rank's contribution to a chunk. -/
def leafGoal (s : State) (x : Session) (seq : Nat) : Option Goal :=
  if x.n = 1 then none
  else if x.d.ring then
    if ringStart x.d x.n seq = x.rank then some ⟨1, 0, false, ringNext x.d x.n seq x.rank⟩ else some ⟨1, 0, true, x.rank⟩
  else treeGoal s x seq 0 x.rank

/-! ### Contributions -/

/-- An injected NaN contribution replaces one present element (13 R417 kind 4). -/
def injectNaN (s : State) (gsid fmt : Nat) (es : List (Option Nat)) : List (Option Nat) :=
  if injFor s 4 gsid then
    let i := bits s.flt.injTarget.toNat 46 37
    match es.getD i none with
    | some _ => es.set i (some (if fmt = 1 || fmt = 2 then (convert fmt false f32NaN).raw else f32NaN.toNat))
    | none => es
  else es

/-- The elements of this rank's contribution to a chunk, in the wire format, absent where elided. -/
def leafElems (s : State) (slot : Nat) (x : Session) (seq : Nat) : List (Option Nat) :=
  (inputPresent s slot x (chunkFirst x.d x.n seq) (chunkLen x.d x.n seq)).map fun v => v.map fun v => (widen x.d.fmtIn v).toNat

/-- Whether every block of a chunk's contribution is absent. -/
def leafAbsent (s : State) (x : Session) (seq : Nat) : Bool :=
  (presentRuns s x (chunkFirst x.d x.n seq) (chunkLen x.d x.n seq)).isEmpty

/-- The contribution chunk of a SEQ (06 R204, 10 R308). -/
def leafChunk (s : State) (x : Session) (seq : Nat) (es : List (Option Nat)) (last : Bool) : Chunk :=
  let pair := x.d.redOp == 1
  let f := wireFmt x.d
  let l := layChunk pair (fmtSize f) es
  let k := sourceCuff (x.d.redOp ≤ 1) pair f x.d.lscale seq x.d.bucket x.d.step.toNat (es.filterMap id)
  sealChunk (chunkHdr s x seq 0 (chunkFirst x.d x.n seq) l.2.1 f last l.1) k l.2.2

/-- What a session may issue now. -/
inductive Plan where
  /-- nothing is due -/
  | wait
  /-- nothing is left to issue -/
  | spent
  /-- outputs that are absent are declared, without a tag -/
  | absent (act : State → State)
  /-- a chunk is issued under a tag -/
  | chunk (seq : Nat) (act : Nat → State → State)

/-- The wire elements of a contribution: pairs enter as (x, +0) (06 R194), integers as they are. -/
def setCursor (slot c : Nat) (s : State) : State := mSlot slot (fun x => { x with cursor := c }) s
def countIssue (slot : Nat) (s : State) : State := mSlot slot (fun x => { x with issued := x.issued + 1, progTick := s.tick }) s

/-- SEQs from a cursor to before another whose contribution is absent or empty, and the first that is present. -/
def absentRun (s : State) (x : Session) : Nat → Nat → List Nat × Option Nat
  | 0, _ => ([], none)
  | left + 1, seq =>
    if chunkLen x.d x.n seq = 0 then absentRun s x left (seq + 1)
    else if leafAbsent s x seq then
      let r := absentRun s x left (seq + 1)
      (seq :: r.1, r.2)
    else ([], some seq)

def chunkTotal (x : Session) : Nat := x.n * shardChunks x.d x.n

/-- The first SEQ of the shard after that of a SEQ. -/
def shardEnd (x : Session) (seq : Nat) : Nat := (seqShard x.d x.n seq + 1) * shardChunks x.d x.n

/-- Declare absent contributions: counted, and given to their nodes (10 R308, R310). -/
def declareLeaves (slot : Nat) (x : Session) (seqs : List Nat) (s : State) : State :=
  let s1 := bump pgSpx (·.spx.elided) (fun v => mSpx fun p => { p with elided := v }) seqs.length s
  let s2 := foldS seqs s1 fun q s => match leafGoal s x q with
    | none => rootOutput slot q (List.replicate (chunkLen x.d x.n q) none) (wireFmt x.d) false false none [] s
    | some g => absentOutput slot x q 0 x.rank g s
  flushAbsent slot s2

/-- The goal of a contribution cannot take it now: no credit at its host, or no room in this chip's local set (07 R221). -/
def goalBlocked (s : State) (x : Session) (seq : Nat) (g : Goal) : Bool :=
  if g.host = x.rank then localFull s x seq g
  else creditLeft s x g.host g.level = 0 || x.outs.any fun w => w.1 == g.host && w.2.1 == g.level

/-- Issue a contribution to its node, or, in a group of one, as the output: a copy where no conversion is asked for (05
R169). -/
def issueLeaf (slot : Nat) (x : Session) (seq tag : Nat) (s : State) : State :=
  let e := chunkFirst x.d x.n seq
  let k := chunkLen x.d x.n seq
  let es := injectNaN s x.gsid (wireFmt x.d) (leafElems s slot x seq)
  let last := (absentRun s x (chunkTotal x - (seq + 1)) (seq + 1)).2.isNone
  let rd := sourceRead slot x 0 e k s
  let s2 := takeTag tag slot x.gsid seq (if injFor s 4 x.gsid then fireInject rd.2 else rd.2)
  let s3 := match leafGoal s x seq with
    | some g =>
      let c := leafChunk s x seq es last
      noteRoot slot false (Cuff.ofBytes c.cuff).skip 0 (sendOutput slot x seq g c (some tag) rd.1 s2)
    | none =>
      let copy := !x.d.fin && x.d.fmtIn == x.d.fmtOut
      let vals := if copy then injectNaN s x.gsid x.d.fmtIn (inputPresent s slot x e k) else es
      let q := sourceCuff (x.d.redOp ≤ 1) false (wireFmt x.d) x.d.lscale seq x.d.bucket x.d.step.toNat (es.filterMap id)
      addLocal slot
        { reads := rd.1, tag := some tag, seq := seq,
          work := .root vals (if copy then x.d.fmtIn else wireFmt x.d) q.poison q.skip } s2
  consumeInput slot x (e + k) (countIssue slot (setCursor slot (seq + 1) s3))

/-- REDUCE_SCATTER in either order, and a group of one (07 R216, R219, R223; 05 R169). The absent chunks that end a shard's
stream are declared as soon as they are met (10 R310). -/
def planReduce (s : State) (slot : Nat) (x : Session) : Plan :=
  if x.cursor ≥ chunkTotal x then .spent
  else
    let r := absentRun s x (shardEnd x x.cursor - x.cursor) x.cursor
    match r.2 with
    | none => .absent fun s => setCursor slot (shardEnd x x.cursor) (declareLeaves slot x r.1 s)
    | some seq =>
      let blocked := match leafGoal s x seq with
        | some g => goalBlocked s x seq g
        | none => false
      if !inputReady s slot x (chunkFirst x.d x.n seq) (chunkLen x.d x.n seq) then .wait
      else if blocked then
        (if r.1.isEmpty then .wait else .absent fun s => setCursor slot seq (declareLeaves slot x r.1 s))
      else .chunk seq fun tag s => issueLeaf slot x seq tag (declareLeaves slot x r.1 s)

/-! ### Opcodes that do not reduce -/

/-- Read and convert input elements e to e + k - 1 of a source of m elements (08 R243): a group of one copies (05 R169). -/
def sourceOut (s : State) (slot : Nat) (x : Session) (m e k : Nat) : OutRun :=
  let vs := inputElems s slot x e k
  if x.d.fmtIn ≤ 2 && !(x.n == 1 && x.d.fmtIn == x.d.fmtOut) then
    encodeOut x.d.fmtOut false false (vs.map fun v => (widen x.d.fmtIn v).toNat)
  else copyOut x.d.fmtOut vs (if x.d.fmtIn = 5 then inputScales s slot x m (e / 32) (k / 32) else [])

/-- The present runs of a chunk's elements, converted, each with its first element. -/
def sourceRuns (s : State) (slot : Nat) (x : Session) (m e k : Nat) : List (Nat × OutRun) :=
  (presentRuns s x e k).map fun r => (r.1, sourceOut s slot x m r.1 r.2)
def allRuns (rs : List (Nat × OutRun)) : OutRun := rs.foldl (fun a r => a.append r.2) OutRun.empty
def rawRuns (rs : List (Nat × OutRun)) : List (Nat × List Byte × List Byte) := rs.map fun r => (r.1, r.2.elems, r.2.scales)

/-- The elements a payload carries, as raw values in a format. -/
def runVals (f : Nat) (r : OutRun) : List Nat := (pieces (fmtSize f) r.elems).map leNat

/-- A chunk of an opcode that does not reduce, its elements e to e + k - 1 (06 R200; 07 R216): compacted where some are
absent (10 R308, R311; log 79). -/
def plainChunk (s : State) (x : Session) (seq e k : Nat) (last : Bool) (rs : List (Nat × OutRun)) : Chunk :=
  let f := x.d.fmtOut
  let r := allRuns rs
  let vs := runVals f r
  let q := sourceCuff false false f x.d.lscale seq x.d.bucket x.d.step.toNat vs
  let whole := vs.length == k
  let mask := ((List.range (cdiv k 64)).filter fun b => rs.any fun r =>
    decide (r.1 ≤ e + 64 * b) && decide (e + 64 * b < r.1 + r.2.elems.length / fmtSize f)).foldl (fun m b => m + 2 ^ b) 0
  let payload := if !whole then leBytes 8 mask ++ r.elems ++ r.scales
    else if f = 5 then slice r.elems 0 3968 ++ r.scales else r.elems
  sealChunk (chunkHdr s x seq 0 e vs.length f last !whole) q payload

/-- A wholly absent chunk of an opcode that does not reduce is declared to the ranks that it would have gone to (10 R310,
R311; log 79). -/
def declareTo (slot : Nat) (x : Session) (seq : Nat) (ranks : List Nat) (s : State) : State :=
  let s1 := bump pgSpx (·.spx.elided) (fun v => mSpx fun p => { p with elided := v }) 1 s
  flushAbsent slot (mSlot slot (fun y => { y with absentDue := y.absentDue ++ ranks.map fun r => (r, 0, x.rank, seq) }) s1)

/-- The next rank an ALL_GATHER chunk of rank j's shard goes to from rank r (07 R225). whole says that the group is
the whole axis, plus the chunk's direction. -/
def gatherNext (n j r : Nat) (whole plus : Bool) : Option Nat :=
  if whole then
    let k := if plus then (r + 1) % n else (r + n - 1) % n
    if k = j then none else some k
  else if plus then
    if r ≥ j then (if r + 1 < n then some (r + 1) else if j ≥ 1 then some (j - 1) else none)
    else if r ≥ 1 then some (r - 1) else none
  else
    if r ≤ j then (if r ≥ 1 then some (r - 1) else if j + 1 < n then some (j + 1) else none)
    else if r + 1 < n then some (r + 1) else none

def gatherWhole (s : State) (x : Session) : Bool := x.n == s.rtr.size x.d.axis
def gatherPlus (x : Session) (seq : Nat) : Bool := seqChunk x.d x.n seq < cdiv (shardChunks x.d x.n) 2

def markGot (slot i : Nat) (s : State) : State := mSlot slot (fun x => { x with got := Sparse.set false x.got i true }) s

/-- An ALL_GATHER session comes after those of its step with a lower bucket tag (07 R226). -/
def gatherBlocked (s : State) (slot : Nat) (x : Session) : Bool :=
  s.ses.slots.any fun p => p.1 != slot && p.2.d.opc == 0x02 && p.2.st == .run && p.2.d.step == x.d.step &&
    p.2.d.bucket < x.d.bucket && p.2.cursor < realChunks p.2.d p.2.n p.2.rank

/-- A parameter session waits for its bucket's update (09 R291). -/
def paramWaits (s : State) (x : Session) : Bool :=
  match paramBucket s x.ctx x.d with
  | none => false
  | some b => x.d.step != s.opt.step || !(bktOf s b).updated

def planGather (s : State) (slot : Nat) (x : Session) : Plan :=
  if x.cursor ≥ realChunks x.d x.n x.rank then .spent
  else
    let e := x.cursor * chunkE x.d
    let m := shardLen x.d x.n x.rank
    let k := min (chunkE x.d) (m - e)
    let seq := x.rank * shardChunks x.d x.n + x.cursor
    let first := chunkFirst x.d x.n seq
    if gatherBlocked s slot x || paramWaits s x || !inputReady s slot x e k then .wait
    else if (presentRuns s x e k).isEmpty then
      .absent fun s => declareTo slot x seq ((List.range x.n).filter (· != x.rank))
        (setCursor slot (x.cursor + 1) (markGot slot seq s))
    else
      .chunk seq fun tag s =>
        let rd := sourceRead slot x m e k s
        let rs := (sourceRuns s slot x m e k).map fun r => (first + (r.1 - e), r.2)
        let r := allRuns rs
        let c := plainChunk s x seq first k (x.cursor + 1 == realChunks x.d x.n x.rank) rs
        let next := if x.n = 1 then none else gatherNext x.n x.rank x.rank (gatherWhole s x) (gatherPlus x seq)
        let s1 := addLocal slot
          { reads := rd.1, tag := if next.isNone then some tag else none, seq := seq, sats := r.sats, nans := r.nans, mxs := r.mxs,
            work := .deliver x.d.count (rawRuns rs) (some seq) } (takeTag tag slot x.gsid seq rd.2)
        let s2 := match next with
          | none => s1
          | some t => inject (chunkPacket s x t ptChunk c (some tag) rd.1) s1
        consumeInput slot x (e + k) (countIssue slot (setCursor slot (x.cursor + 1) s2))

/-- EXCHANGE: round m sends the block for rank (r + m) mod n; round 0 is this rank's own block (07 R217, R224). -/
def planExchange (s : State) (slot : Nat) (x : Session) : Plan :=
  let c := shardChunks x.d x.n
  if c = 0 || x.cursor ≥ x.n * c then .spent
  else
    let dest := (x.rank + x.cursor / c) % x.n
    let ch := x.cursor % c
    let k := min (chunkE x.d) (shardLen x.d x.n dest - ch * chunkE x.d)
    let e := dest * shardQ x.d x.n + ch * chunkE x.d
    let seq := dest * c + ch
    if k = 0 then .absent fun s => setCursor slot (x.cursor + 1) s
    else if !inputReady s slot x e k then .wait
    else if (presentRuns s x e k).isEmpty then
      .absent fun s => setCursor slot (x.cursor + 1)
        (if dest = x.rank then markGot slot (x.rank * c + ch) s else declareTo slot x seq [dest] s)
    else .chunk seq fun tag s =>
      let rd := sourceRead slot x x.d.count e k s
      let rs := sourceRuns s slot x x.d.count e k
      let r := allRuns rs
      let o : LocalOp := { reads := rd.1, tag := none, seq := seq, sats := r.sats, nans := r.nans, mxs := r.mxs, work := .count }
      let s1 := takeTag tag slot x.gsid seq rd.2
      let s2 := if dest = x.rank then
          addLocal slot { o with tag := some tag, work := .deliver x.d.count (rawRuns rs) (some (x.rank * c + ch)) } s1
        else inject (chunkPacket s x dest ptChunk (plainChunk s x seq e k (ch + 1 == c) rs) (some tag) rd.1) (addLocal slot o s1)
      countIssue slot (setCursor slot (x.cursor + 1) s2)

/-- SEND, after CLEAR_TO_SEND (10 R324). -/
def planSend (s : State) (slot : Nat) (x : Session) : Plan :=
  let c := cdiv x.d.count (chunkE x.d)
  if x.cursor ≥ c then .spent
  else
    let e := x.cursor * chunkE x.d
    let k := min (chunkE x.d) (x.d.count - e)
    if !x.cts || !inputReady s slot x e k then .wait
    else if (presentRuns s x e k).isEmpty then
      .absent fun s => setCursor slot (x.cursor + 1) (declareTo slot x x.cursor [x.d.peer] s)
    else .chunk x.cursor fun tag s =>
      let rd := sourceRead slot x x.d.count e k s
      let rs := sourceRuns s slot x x.d.count e k
      let r := allRuns rs
      let s1 := addLocal slot
        { reads := rd.1, tag := none, seq := x.cursor, sats := r.sats, nans := r.nans, mxs := r.mxs, work := .count }
        (takeTag tag slot x.gsid x.cursor rd.2)
      let p := chunkPacket s x x.d.peer ptChunk (plainChunk s x x.cursor e k (x.cursor + 1 == c) rs) (some tag) rd.1
      consumeInput slot x (e + k) (countIssue slot (setCursor slot (x.cursor + 1) (inject p s1)))

/-- ELEMENTWISE: operands A and B are read and pass FIN (08 R251). The output of an element whose part is absent is free
(log 79). -/
def planElementwise (s : State) (slot : Nat) (x : Session) : Plan :=
  let c := cdiv x.d.count (chunkE x.d)
  if x.cursor ≥ c then .spent
  else
    let e := x.cursor * chunkE x.d
    let k := min (chunkE x.d) (x.d.count - e)
    if !inputReady s slot x e k then .wait
    else .chunk x.cursor fun tag s =>
      let rd := sourceRead slot x x.d.count e k s
      let cfg := finEntry s x.d.stageCfg
      let op := finEwOp cfg
      let sz := fmtSize x.d.fmtIn
      let addr := regAddr s x.ctx x.d.auxReg (x.d.auxOff + e * sz)
      let rb := if op = 2 then rd else
        let r := readFor (.fin slot x.gsid x.cursor) addr (k * sz) rd.2
        (rd.1 ++ [r.1], r.2)
      let b := widenedAt s x.d.fmtIn addr k
      let vs := (List.range k).zipWith (fun i v => match v with
        | none => (Config.absentOut x.gsid (e + i)).toNat
        | some v =>
          let a := widen x.d.fmtIn v
          (if op = 0 then f32Add a (b.getD i 0) else if op = 1 then f32Mul a (b.getD i 0) else a).toNat)
        (inputPresent s slot x e k)
      let item : FinItem :=
        { slot := slot, gsid := x.gsid, seq := x.cursor, first := e, vals := vs, fmt := 0, reads := rb.1, tag := some tag }
      consumeInput slot x (e + k) (countIssue slot (setCursor slot (x.cursor + 1)
        (mFin (fun f => { f with queue := f.queue ++ [item] }) (takeTag tag slot x.gsid x.cursor rb.2))))

/-! ### Top-k leaf streams (10 R313, R314) -/

/-- Bytes of a session's source, from its region or from the concatenation of its parts (log 25). -/
def sourceBytes (s : State) (slot : Nat) (x : Session) (off k : Nat) : List Byte :=
  if x.isTpl then
    slice ((List.range (popcount 64 x.tileMask.toNat)).flatMap fun p =>
      slice (partData s slot p) 0 (fmtBytes x.d.fmtIn x.partCount)) off k
  else readBytes s.mem (regAddr s x.ctx x.d.srcReg (x.d.srcOff + off)) k

/-- NPAIRS of a top-k list: none in a part that is absent. -/
def topkCount (s : State) (slot : Nat) (x : Session) : Nat :=
  if inputHere s x 0 then leNat (sourceBytes s slot x 0 4) else 0

/-- Pair i of the list, or none where its part is absent. -/
def topkPair (s : State) (slot : Nat) (x : Session) (i : Nat) : Option (Nat × F32) :=
  if inputHere s x ((64 + 8 * i) / 4) then
    let b := sourceBytes s slot x (64 + 8 * i) 8
    some (leAt b 0 4, BitVec.ofNat 32 (leAt b 4 4))
  else none

/-- What reading on in a list gives: pairs, the position reached, whether the next pair is of the same stream, and whether a
pair broke the rules of R313. -/
structure TopkRead where
  pairs : List (Nat × F32)
  pos : Nat
  more : Bool
  bad : Bool
deriving DecidableEq, Repr

/-- Read up to room pairs of the stream that ends before index hi, and look at the next pair; each pair is checked as it
is read. left pairs of the list remain; last is the index before. -/
def topkTake (s : State) (slot : Nat) (x : Session) (hi : Nat) : Nat → Nat → Nat → Option Nat → TopkRead
  | 0, _, p, _ => ⟨[], p, false, false⟩
  | left + 1, room, p, last =>
    match topkPair s slot x p with
    | none => topkTake s slot x hi left room (p + 1) last
    | some (i, v) =>
      if i ≥ x.d.count || last.any (i ≤ ·) then ⟨[], p, false, true⟩
      else if i ≥ hi then ⟨[], p, false, false⟩
      else match room with
        | 0 => ⟨[], p, true, false⟩
        | r + 1 => let q := topkTake s slot x hi left r (p + 1) (some i); { q with pairs := (i, v) :: q.pairs }

/-- Index of the last pair before a position. -/
def topkBefore (s : State) (slot : Nat) (x : Session) (p : Nat) : Option Nat :=
  (List.range p).reverse.findSome? fun i => (topkPair s slot x i).map Prod.fst

/-- The next chunk of a leaf stream. -/
def topkRead (s : State) (slot : Nat) (x : Session) : TopkRead :=
  let sh := x.cursor / 2 ^ 24
  topkTake s slot x ((sh + 1) * shardQ x.d x.n) (topkCount s slot x - x.listPos) 512 x.listPos (topkBefore s slot x x.listPos)

/-- Some value read so far in a shard's stream is not finite or lies outside the ledger window (R316). -/
def streamSkips (s : State) (slot : Nat) (x : Session) (sh upTo : Nat) : Bool :=
  (List.range upTo).any fun i => match topkPair s slot x i with
    | none => false
    | some (j, v) => decide (sh * shardQ x.d x.n ≤ j) && decide (j < (sh + 1) * shardQ x.d x.n) && !inWindow false x.d.lscale v.toNat

def topkBytes (l : List (Nat × F32)) : List Byte := l.flatMap fun p => leBytes 4 p.1 ++ leBytes 4 p.2.toNat

/-- A top-k chunk of up to 512 pairs (10 R314, R316). -/
def topkChunk (s : State) (x : Session) (seq level leaves : Nat) (last skip poison inf : Bool) (l : List (Nat × F32)) : Chunk :=
  let k := sourceCuff (x.d.redOp == 0) false 0 x.d.lscale seq x.d.bucket x.d.step.toNat (l.map fun p => p.2.toNat)
  let k2 : Cuff := { k with leaves := leaves, skip := (k.skip || skip) && x.d.redOp == 0, poison := k.poison || poison, inf := k.inf || inf }
  sealChunk (chunkHdr s x seq level (seqShard x.d x.n seq * shardQ x.d x.n) l.length 0 last false) k2 (topkBytes l)

/-- Pairs of a chunk with the flags that its cuff gives what is made from it. -/
def flagged (k : Cuff) (l : List (Nat × F32)) : List TopkPair := l.map fun p => ⟨p.1, p.2, k.poison, k.inf⟩

/-- Put a stream chunk before a group of one's root output (10 R317). -/
def topkSelf (slot sh : Nat) (last : Bool) (l : List (Nat × F32)) (s : State) : State :=
  mSlot slot (fun x => { x with topk := Sparse.modify {} x.topk (sh * 256) fun t =>
    { t with left := t.left ++ l.map (fun p => ⟨p.1, p.2, false, false⟩), leftLast := last, rightAbsent := true,
             rightLast := true, leavesL := 1 } }) s

/-- Read the header with the first chunk's pairs, and the chunk's pairs. -/
def topkReads (slot : Nat) (x : Session) (r : TopkRead) (s : State) : List Nat × State :=
  if x.isTpl then ([], s)
  else
    let a (off : Nat) : Nat := regAddr s x.ctx x.d.srcReg (x.d.srcOff + off)
    let h := if x.cursor = 0 then
        let q := readFor (.session slot x.gsid) (a 0) 64 s
        ([q.1], q.2)
      else ([], s)
    if r.pos = x.listPos then h
    else
      let q := readFor (.session slot x.gsid) (a (64 + 8 * x.listPos)) (8 * (r.pos - x.listPos)) h.2
      (h.1 ++ [q.1], q.2)

/-- Issue one chunk of a leaf stream to its node. -/
def issueTopk (slot : Nat) (x : Session) (g : Goal) (r : TopkRead) (next tag : Nat) (s : State) : State :=
  let rd := topkReads slot x r s
  let s1 := takeTag tag slot x.gsid x.cursor (if injFor s 4 x.gsid then fireInject rd.2 else rd.2)
  let vs := injectNaN s x.gsid 0 (r.pairs.map fun p => some p.2.toNat)
  let l := (r.pairs.zip vs).map fun p => (p.1.1, (BitVec.ofNat 32 (p.2.getD 0) : F32))
  let skip := !r.more && (streamSkips s slot x (x.cursor / 2 ^ 24) r.pos || l.any fun p => !inWindow false x.d.lscale p.2.toNat)
  let c := topkChunk s x x.cursor 0 1 (!r.more) skip false false l
  let s2 := noteRoot slot false (Cuff.ofBytes c.cuff).skip 0 s1
  countIssue slot (mSlot slot (fun x => { x with cursor := next, listPos := r.pos }) (sendOutput slot x x.cursor g c (some tag) rd.1 s2))

def planTopk (s : State) (slot : Nat) (x : Session) : Plan :=
  let sh := x.cursor / 2 ^ 24
  if sh ≥ x.n || shardLen x.d x.n sh = 0 then .spent
  else if !partsReady s slot x then .wait
  else
    let r := topkRead s slot x
    let next := if r.more then x.cursor + 1 else (sh + 1) * 2 ^ 24
    if topkCount s slot x > spxKMax (spxEntry s x.d.stageCfg) || r.bad then .absent fun s => failSpx slot cIndexRange s
    else if x.n = 1 then
      .absent fun s => topkSelf slot sh (!r.more) r.pairs
        (mSlot slot (fun x => { x with cursor := next, listPos := r.pos }) (topkReads slot x r s).2)
    else match treeGoal s x (sh * 2 ^ 24) 0 x.rank with
    | none => .spent
    | some g =>
      if r.pairs.isEmpty then
        .absent fun s => mSlot slot (fun x => { x with cursor := next, listPos := r.pos })
          (flushAbsent slot (absentOutput slot x (sh * 2 ^ 24) 0 x.rank g (topkReads slot x r s).2))
      else if goalBlocked s x x.cursor g then .wait
      else .chunk x.cursor (issueTopk slot x g r next)

/-! ### Expert packets (10 R318 to R323) -/

/-- Routing entry of a token (10 R319). -/
structure Route where
  e0 : Nat
  e1 : Nat
  g0 : F32
  g1 : F32
  s0 : Nat
  s1 : Nat
deriving DecidableEq, Repr

def routeAt (s : State) (x : Session) (t : Nat) : Route :=
  let b := readBytes s.mem (regAddr s x.ctx x.d.auxReg (x.d.auxOff + 16 * t)) 16
  { e0 := leAt b 0 2, e1 := leAt b 2 2, g0 := BitVec.ofNat 32 (leAt b 4 4), g1 := BitVec.ofNat 32 (leAt b 8 4),
    s0 := leAt b 12 2, s1 := leAt b 14 2 }

def tokenCount (s : State) (x : Session) : Nat := x.d.count / max 1 (spxRow (spxEntry s x.d.stageCfg))

/-- The rows dispatched to a rank: token, local expert and slot, in ascending expert and slot order. -/
def rowsFor (s : State) (x : Session) (dest : Nat) : List (Nat × Nat × Nat) :=
  let el := spxELocal (spxEntry s x.d.stageCfg)
  let picks := (List.range (tokenCount s x)).flatMap fun t =>
    let r := routeAt s x t
    (if r.s0 != 0xFFFF then [(t, r.e0, r.s0)] else []) ++ (if r.s1 != 0xFFFF then [(t, r.e1, r.s1)] else [])
  sortBy (fun a b => a.2.1 < b.2.1 || (a.2.1 == b.2.1 && a.2.2 ≤ b.2.2))
    ((picks.filter fun p => p.2.1 / max 1 el == dest).map fun p => (p.1, p.2.1 % max 1 el, p.2.2))

/-- The counts a sender gives a rank's experts. -/
def countsFor (s : State) (x : Session) (dest : Nat) : List Nat :=
  let rows := rowsFor s x dest
  (List.range (spxELocal (spxEntry s x.d.stageCfg))).map fun l => (rows.filter fun p => p.2.1 == l).length

/-- An expert packet before its header is sealed: kind, offset, payload, the source bytes it is made from (first and number,
from the start of the source), what it adds to the counters of 08 R498, and whether it is an absent row (log 79). -/
structure XPacket where
  kind : Nat
  offset : Nat
  bytes : List Byte
  src : Nat × Nat
  sats : Nat := 0
  nans : Nat := 0
  mxs : Nat := 0
  gone : Bool := false
deriving DecidableEq, Repr

/-- Cut a row of d elements into packets of at most 4,096 bytes; from a source row at a byte offset, of elements of a size. -/
def rowPackets (kind off fmt d src sz : Nat) (r : OutRun) (row : List Byte) : List XPacket :=
  let ps := pieces 4096 row
  let per := 4096 / max 1 (fmtSize fmt)
  (List.range ps.length).zipWith (fun i b =>
    { kind := kind, offset := off + 4096 * i, bytes := b, src := (src + per * i * sz, min per (d - per * i) * sz),
      sats := if i = 0 then r.sats else 0, nans := if i = 0 then r.nans else 0, mxs := if i = 0 then r.mxs else 0 }) ps

/-- The dispatch packets to a rank: its rows, then the counts (10 R321, R322). -/
def dispatchPackets (s : State) (slot : Nat) (x : Session) (dest : Nat) : List XPacket :=
  let e := spxEntry s x.d.stageCfg
  let d := spxRow e
  let rb := rowBytes x.d.fmtOut d
  (rowsFor s x dest).flatMap (fun p =>
    let r := sourceOut s slot x x.d.count (p.1 * d) d
    rowPackets 0 (countBlock (spxELocal e) x.n + ((p.2.1 * x.n + x.rank) * spxCap e + p.2.2) * rb) x.d.fmtOut d
      (p.1 * d * fmtSize x.d.fmtIn) (fmtSize x.d.fmtIn) r (slice (r.elems ++ r.scales) 0 rb)) ++
    [{ kind := 1, offset := 0, bytes := (countsFor s x dest).flatMap (leBytes 4), src := (0, 0) }]

/-- Source bytes first to first + k - 1 lie in present parts. -/
def bytesHere (s : State) (x : Session) (first k : Nat) : Bool :=
  x.absentParts = 0 || (List.range k).all fun i => inputHere s x ((first + i) / fmtSize x.d.fmtIn)

/-- The combine packets to a rank: the rows of its slots held by this rank's experts (10 R323). -/
def combinePackets (s : State) (slot : Nat) (x : Session) (dest : Nat) : List XPacket :=
  let e := spxEntry s x.d.stageCfg
  let el := spxELocal e
  let rb := rowBytes x.d.fmtIn (spxRow e)
  (List.range el).flatMap fun l =>
    let cnt := leNat (sourceBytes s slot x (4 * (l * x.n + dest)) 4)
    (List.range (min cnt (spxCap e))).flatMap fun k =>
      let off := ((x.rank * el + l) * spxCap e + k) * rb
      let src := countBlock el x.n + ((l * x.n + dest) * spxCap e + k) * rb
      if bytesHere s x src rb then rowPackets 2 off x.d.fmtIn rb src 1 OutRun.empty (sourceBytes s slot x src rb)
      else [{ kind := 2, offset := off, bytes := [], src := (0, 0), gone := true }]

/-- Where an expert packet's bytes go at the receiver of a session. -/
def expertAddr (s : State) (x : Session) (kind offset : Nat) : Nat :=
  if kind = 2 then regAddr s x.ctx x.d.auxReg (x.d.auxOff + 64 * spxRet (spxEntry s x.d.stageCfg) + offset)
  else regAddr s x.ctx x.d.dstReg (x.d.dstOff + offset)

/-- Write a sender's counts into the count block (10 R321). -/
def writeCounts (slot sender : Nat) (x : Session) (l : List Nat) (tag : Option Nat) (s : State) : State :=
  let base := regAddr s x.ctx x.d.dstReg x.d.dstOff
  let s1 := foldS ((List.range l.length).zip l) s fun p s =>
    writeSpan (.session slot 0 (if p.1 + 1 = l.length then tag else none)) (base + 4 * (p.1 * x.n + sender)) (leBytes 4 p.2) false s
  mSlot slot (fun x => { x with expertWant := Sparse.set 0 x.expertWant sender (1 + l.foldl (· + ·) 0) }) s1

/-- Land an expert packet's row bytes from a sender. -/
def landExpert (slot sender : Nat) (x : Session) (kind offset : Nat) (b : List Byte) (tag : Option Nat) (s : State) : State :=
  mSlot slot (fun x => { x with expertBytes := Sparse.modify 0 x.expertBytes sender (· + b.length) })
    (writeSpan (.session slot b.length tag) (expertAddr s x kind offset) b false s)

/-- A row of a combine that is absent: the receiver takes it as none (log 79). -/
def absentRow (slot sender row bytes : Nat) (s : State) : State :=
  mSlot slot (fun x => { x with got := Sparse.set false x.got row true,
                                expertBytes := Sparse.modify 0 x.expertBytes sender (· + bytes) }) s

/-- The cuff of an expert packet: the flags and counts of its elements (06 R199, R200). -/
def expertCuff (x : Session) (i fmt : Nat) (p : XPacket) : Cuff :=
  sourceCuff false false fmt x.d.lscale i x.d.bucket x.d.step.toNat
    (if p.kind = 1 then [] else (pieces (fmtSize fmt) p.bytes).map leNat)

/-- Issue expert packet i of a round to a rank. -/
def issueExpert (slot : Nat) (x : Session) (dest i : Nat) (last : Bool) (p : XPacket) (next tag : Nat) (s : State) : State :=
  let rd := if x.isTpl || p.src.2 = 0 then ([], s) else
    let r := readFor (.session slot x.gsid) (regAddr s x.ctx x.d.srcReg (x.d.srcOff + p.src.1)) p.src.2 s
    ([r.1], r.2)
  let s1 := takeTag tag slot x.gsid i rd.2
  let o : LocalOp := { reads := rd.1, tag := none, seq := i, sats := p.sats, nans := p.nans, mxs := p.mxs, work := .count }
  let s2 := if dest = x.rank then
      addLocal slot
        { o with tag := some tag,
                 work := if p.kind = 1 then .counts (countsFor s x dest) else .row p.kind p.offset p.bytes } s1
    else
      let fmt := if x.d.opc = 0x09 then x.d.fmtOut else x.d.fmtIn
      let h : ExpertHdr :=
        { seq := i, bucket := x.d.bucket, kind := p.kind, offset := p.offset, bytes_ := p.bytes.length, fmt := fmt,
          last := last, step := x.d.step.toNat }
      let body := slice h.bytes 0 40 ++ (expertCuff x i fmt p).bytes (pcrcOf p.bytes) ++ payload4096 p.bytes
      inject { mkPacket s (memberOf s x dest) ptExpert x.gsid x.d.vc (b2n x.d.adapt) body with
        tag := some tag, reads := rd.1 } (addLocal slot o s1)
  countIssue slot (setCursor slot next s2)

/-- A read of a session is outstanding. -/
def sessionReading (s : State) (slot : Nat) : Bool :=
  s.emp.reads.any fun r => match r.purpose with
    | .session i _ => i == slot
    | _ => false

/-- The expert packets of the round that a cursor is in. Rounds are counted in the high part of the cursor. A combine reads
its count block first. -/
def planExpert (s : State) (slot : Nat) (x : Session) : Plan :=
  let m := x.cursor / 2 ^ 32
  let i := x.cursor % 2 ^ 32
  let e := spxEntry s x.d.stageCfg
  if m ≥ x.n then .spent
  else if !partsReady s slot x || (x.d.opc = 0x09 && !x.routed) then .wait
  else if x.d.opc = 0x0A && !x.isTpl && !x.routed then
    .absent fun s => mSlot slot (fun x => { x with routed := true })
      (readFor (.session slot x.gsid) (regAddr s x.ctx x.d.srcReg x.d.srcOff) (countBlock (spxELocal e) x.n) s).2
  else if x.cursor = 0 && sessionReading s slot then .wait
  else
    let dest := (x.rank + m) % x.n
    let ps := if x.d.opc = 0x09 then dispatchPackets s slot x dest else combinePackets s slot x dest
    match ps[i]? with
    | none => .absent fun s => setCursor slot ((m + 1) * 2 ^ 32) s
    | some p =>
      let next := if i + 1 < ps.length then x.cursor + 1 else (m + 1) * 2 ^ 32
      if p.gone then
        let rb := rowBytes x.d.fmtIn (spxRow e)
        .absent fun s => setCursor slot next (if dest = x.rank then absentRow slot x.rank (p.offset / max 1 rb) rb s
          else declareTo slot x (p.offset / max 1 rb) [dest] s)
      else .chunk i (issueExpert slot x dest i (i + 1 == ps.length) p next)

/-- What a session issues next. -/
def planOf (s : State) (slot : Nat) (x : Session) : Plan :=
  match x.d.opc with
  | 0x01 => planReduce s slot x
  | 0x02 => planGather s slot x
  | 0x03 => planExchange s slot x
  | 0x04 => planSend s slot x
  | 0x08 => planTopk s slot x
  | 0x09 => planExpert s slot x
  | 0x0A => planExpert s slot x
  | 0x0B => planElementwise s slot x
  | _ => .spent

/-- Issue is stopped: the sequencer is not running, a restart or a freeze is under way (01 R21, 13 R390, 16 R494), or
the clocks are gated or the power limit leaves no slot (15 R455, R458). -/
def issueStopped (s : State) : Bool :=
  !s.ctl.run || s.ctl.issueStopped || s.dbg.issueStopped || !awake s || datapathOff s || !empReady s

/-- A session that may issue: running, its context not pre-empted nor in reset, not held by an injected fault. -/
def sessionFree (s : State) (x : Session) : Bool :=
  x.st == .run && !s.syn.preempted.getLsbD x.ctx && !s.rst.ctx.contains x.ctx && !x.held

end Sys2Proof.Machine
end

