-- ==== Sys2Proof/Machine/Expert.lean ====
section
/-! DEFINITION. Machine/Expert.lean: routing of expert dispatch: the table's checks, the slot assignment and the
statistics (10 R319, R320). -/

namespace Sys2Proof.Machine

/-- A routing entry that R319 refuses. -/
def routeBad (total : Nat) (r : Route) : Bool :=
  r.e0 ≥ total || (r.e1 ≥ total && r.e1 != 0xFFFF) || r.e1 == r.e0

/-- Fill, overflow and drop counts by expert, and the slots given so far, latest first. -/
structure Fill where
  fill : Sparse Nat := []
  ovfl : Sparse Nat := []
  drop : Sparse Nat := []
  slots : List (Nat × Nat) := []
deriving DecidableEq, Repr

/-- The assignment of one token (10 R320); 0xFFFF is no slot. -/
def assignToken (cap : Nat) (top2 : Bool) (f : Fill) (r : Route) : Fill :=
  let room (f : Fill) (e : Nat) : Bool := Sparse.get 0 f.fill e < cap
  let take (f : Fill) (e : Nat) : Fill := { f with fill := Sparse.modify 0 f.fill e (· + 1) }
  let none_ := 0xFFFF
  if room f r.e0 then
    let s0 := Sparse.get 0 f.fill r.e0
    let f1 := take f r.e0
    if top2 && r.e1 != none_ then
      if room f1 r.e1 then
        let s1 := Sparse.get 0 f1.fill r.e1
        { take f1 r.e1 with slots := (s0, s1) :: f.slots }
      else { f1 with drop := Sparse.modify 0 f1.drop r.e1 (· + 1), slots := (s0, none_) :: f.slots }
    else { f1 with slots := (s0, none_) :: f.slots }
  else if !top2 && r.e1 != none_ && room f r.e1 then
    let s1 := Sparse.get 0 f.fill r.e1
    { take f r.e1 with ovfl := Sparse.modify 0 f.ovfl r.e0 (· + 1), slots := (none_, s1) :: f.slots }
  else
    let f1 : Fill := { f with drop := Sparse.modify 0 f.drop r.e0 (· + 1) }
    if top2 && r.e1 != none_ then
      if room f1 r.e1 then
        let s1 := Sparse.get 0 f1.fill r.e1
        { take f1 r.e1 with slots := (none_, s1) :: f.slots }
      else { f1 with drop := Sparse.modify 0 f1.drop r.e1 (· + 1), slots := (none_, none_) :: f.slots }
    else { f1 with slots := (none_, none_) :: f.slots }

/-- A token's row lies in present parts; one that does not is not dispatched (05 R144; log 79). -/
def tokenHere (s : State) (x : Session) (t : Nat) : Bool :=
  let d := spxRow (spxEntry s x.d.stageCfg)
  bytesHere s x (t * d * fmtSize x.d.fmtIn) (d * fmtSize x.d.fmtIn)

/-- The assignment of a dispatch's whole table. -/
def assignAll (s : State) (x : Session) : Fill :=
  let e := spxEntry s x.d.stageCfg
  (List.range (tokenCount s x)).foldl (fun f t =>
    if tokenHere s x t then assignToken (spxCap e) (spxRoute e) f (routeAt s x t)
    else { f with slots := (0xFFFF, 0xFFFF) :: f.slots }) {}

def expertTotal (s : State) (x : Session) : Nat := x.n * spxELocal (spxEntry s x.d.stageCfg)

/-- The whole table's check (10 R319). -/
def tableBad (s : State) (x : Session) : Bool :=
  (List.range (tokenCount s x)).any fun t => routeBad (expertTotal s x) (routeAt s x t)

/-- Write the assigned slots into the routing table: each beat of four entries is written whole. -/
def writeSlots (slot : Nat) (x : Session) (l : List (Nat × Nat)) (s : State) : State :=
  foldS ((List.range l.length).zip l) s fun p s =>
    writeSpan (.session slot 0 none) (regAddr s x.ctx x.d.auxReg (x.d.auxOff + 16 * p.1 + 12))
      (leBytes 2 p.2.1 ++ leBytes 2 p.2.2) false s

/-- The statistics block (10 R320). -/
def statBytes (s : State) (x : Session) (f : Fill) : List Byte :=
  (List.range (expertTotal s x)).flatMap fun e => leBytes 4 (Sparse.get 0 f.ovfl e) ++ leBytes 4 (Sparse.get 0 f.drop e)

/-- A dispatch's statistics, written at its end, with the totals counted. -/
def writeStats (slot : Nat) (x : Session) (s : State) : State :=
  let f := assignAll s x
  let tot (m : Sparse Nat) : Nat := m.foldl (fun t p => t + p.2) 0
  let s1 := empWrite (.session slot 0 none)
    (regAddr s x.ctx x.d.auxReg (x.d.auxOff + 64 * spxStats (spxEntry s x.d.stageCfg))) (statBytes s x f) s
  bump pgSpx (·.spx.drops) (fun v => mSpx fun p => { p with drops := v }) (tot f.drop)
    (bump pgSpx (·.spx.overflows) (fun v => mSpx fun p => { p with overflows := v }) (tot f.ovfl)
      (mSlot slot (fun x => { x with combined := true }) s1))

end Sys2Proof.Machine
end

