-- ==== Sys2Proof/Machine/Local.lean ====
section
/-! DEFINITION. Machine/Local.lean: what this chip does with source data once the reads behind them have returned: a poisoned
read feeds nothing on (02 R47; 05 R169; 07 R217, R227; 10 R319, R322, R323). -/

namespace Sys2Proof.Machine

/-! ### The tokens of a combine (10 R323) -/

/-- A returned row, widened. -/
def returnRow (s : State) (x : Session) (e k : Nat) : List F32 :=
  let c := spxEntry s x.d.stageCfg
  let a := expertAddr s x 2 ((e * spxCap c + k) * rowBytes x.d.fmtIn (spxRow c))
  let sz := fmtSize x.d.fmtIn
  ((pieces sz (readBytes s.mem a (spxRow c * sz))).map leNat).map fun v => widen x.d.fmtIn v

/-- Whether a token's slot at an expert holds a row: assigned, and not absent (log 79). -/
def slotHere (s : State) (x : Session) (e k : Nat) : Bool :=
  k != 0xFFFF && !Sparse.get false x.got (e * spxCap (spxEntry s x.d.stageCfg) + k)

/-- The gated sum of one token (R323). -/
def tokenOut (s : State) (x : Session) (r : Route) : List F32 :=
  let d := spxRow (spxEntry s x.d.stageCfg)
  let a := (returnRow s x r.e0 r.s0).map fun v => f32Mul r.g0 v
  let b := (returnRow s x r.e1 r.s1).map fun v => f32Mul r.g1 v
  if slotHere s x r.e0 r.s0 then (if slotHere s x r.e1 r.s1 then List.zipWith f32Add a b else a)
  else if slotHere s x r.e1 r.s1 then b else List.replicate d 0

/-- The output bytes of a token. From a format that has no widening (06 R184) the gated values are free (log 28). -/
def tokenRun (s : State) (x : Session) (t : Nat) : OutRun :=
  let d := spxRow (spxEntry s x.d.stageCfg)
  if x.d.fmtIn ≤ 2 then encodeOut x.d.fmtOut false false ((tokenOut s x (routeAt s x t)).map BitVec.toNat)
  else
    let k := fmtBytes x.d.fmtOut d
    let b := (List.range k).map fun i => Config.freeByte s.free (t * k + i)
    copyOut x.d.fmtOut ((pieces (fmtSize x.d.fmtOut) (b.take (d * fmtSize x.d.fmtOut))).map leNat) (b.drop (d * fmtSize x.d.fmtOut))

/-- Rows that the table assigns, in bytes. -/
def combineDue (s : State) (x : Session) : Nat :=
  let rows := ((List.range (tokenCount s x)).map fun t =>
    let r := routeAt s x t
    b2n (r.s0 != 0xFFFF) + b2n (r.s1 != 0xFFFF)).foldl (· + ·) 0
  rows * rowBytes x.d.fmtIn (spxRow (spxEntry s x.d.stageCfg))

/-- Write one token's output row. -/
def writeToken (slot : Nat) (x : Session) (t : Nat) (s : State) : State :=
  let d := spxRow (spxEntry s x.d.stageCfg)
  let r := tokenRun s x t
  let s1 := countOut r s
  if x.isTpl && x.d.dstReg = 255 then deliverOut slot none x.d.count (t * d) r s1
  else
    let a := regAddr s x.ctx x.d.dstReg (x.d.dstOff + t * rowBytes x.d.fmtOut d)
    writeSpan (.session slot (r.elems ++ r.scales).length none) a (r.elems ++ r.scales) true s1

/-! ### Work whose reads have returned -/

/-- Note a chunk as deposited where the work names one. -/
def gotIf (slot : Nat) (k : Option Nat) (s : State) : State :=
  match k with
  | some i => markGot slot i s
  | none => s

/-- Route a dispatch: the table is checked, and every token takes its slots (10 R319, R320). -/
def routeTable (slot : Nat) (x : Session) (s : State) : State :=
  if tableBad s x then endSpx slot cRoutingInvalid s
  else mSlot slot (fun x => { x with routed := true, progTick := s.tick }) (writeSlots slot x (assignAll s x).slots.reverse s)

/-- Write a combine's outputs. -/
def writeTokens (slot : Nat) (x : Session) (s : State) : State :=
  let s1 := foldS (List.range (tokenCount s x)) s fun t s => writeToken slot x t s
  mSlot slot (fun x => { x with combined := true, progTick := s.tick })
    { s1 with free := if x.d.fmtIn ≤ 2 then s1.free else s1.free + 1 }

/-- Do one piece of local work. -/
def runLocal (slot : Nat) (o : LocalOp) (s0 : State) : State :=
  match slot? s0 slot with
  | none => s0
  | some x =>
    let s := countOut { OutRun.empty with sats := o.sats, nans := o.nans, mxs := o.mxs } s0
    match o.work with
    | .count => s
    | .deliver m runs got => gotIf slot got (deliverRuns slot o.tag m runs s)
    | .row kind offset b => landExpert slot x.rank x kind offset b o.tag s
    | .counts l => writeCounts slot x.rank x l o.tag s
    | .block ws => foldS ws s fun w s => empWrite (.session slot 0 none) w.1 w.2 s
    | .root els fmt poison skip => rootOutput slot o.seq els fmt poison skip o.tag [] s
    | .route => routeTable slot x s
    | .tokens => writeTokens slot x s

/-- Local work whose reads have all returned is done, oldest first. -/
def settleLocals (slot : Nat) (s : State) : State :=
  match slot? s slot with
  | none => s
  | some x =>
    let due (o : LocalOp) : Bool := o.reads.all fun t => !readOut s t
    foldS (x.locals.filter due) (mSlot slot (fun x => { x with locals := x.locals.filter fun o => !due o }) s) (runLocal slot)

end Sys2Proof.Machine
end

