-- ==== Sys2Proof/Machine/Complete.lean ====
section
/-! DEFINITION. Machine/Complete.lean: when a session is complete, parking and retiring, entering SES, and the commands
CHUNK_ISSUE and TAG_EXHAUSTED (05 R144, R165 to R167; 07 R222 to R227; 09 R278, R284; 10 R322, R324). -/

namespace Sys2Proof.Machine

/-! ### When a session is complete -/

/-- Nodes of a shard's tree that a rank hosts, as level and index (07 R218). -/
def hostedNodes (m base n rank sh : Nat) : List (Nat × Nat) :=
  (List.range (treeDepth n + 1)).flatMap fun k => (List.range 16).filterMap fun j =>
    if nodeCombines n k j && nodeHost m base n sh k j == rank then some (k, j) else none

/-- Outputs the chip's one ring-order node makes for a shard in a direction (07 R223). -/
def ringDue (d : Desc) (n rank sh : Nat) (plus : Bool) : Nat :=
  let half := cdiv (shardChunks d n) 2
  let real := realChunks d n sh
  let start := if plus then (sh + 1) % n else (sh + n - 1) % n
  if rank = start then 0 else if plus then min half real else real - half

/-- Key of a node's output counter: shard, level, node; in ring order the node number is the direction. -/
def nodeKey (sh k j : Nat) : Nat := sh * 256 + k * 16 + j

/-- Every node hosted here has released all of its output chunks (07 R222). -/
def nodesDone (s : State) (x : Session) : Bool :=
  let done (sh k j : Nat) : Nat := Sparse.get 0 x.nodeNext (nodeKey sh k j)
  (List.range x.n).all fun sh =>
    if x.d.ring then
      decide (ringDue x.d x.n x.rank sh true ≤ done sh 1 0) && decide (ringDue x.d x.n x.rank sh false ≤ done sh 1 1)
    else (hostedNodes (s.rtr.size x.d.axis) x.base x.n x.rank sh).all fun p =>
      if x.d.opc = 0x08 then shardLen x.d x.n sh = 0 || (Sparse.get {} x.topk (nodeKey sh p.1 p.2)).done
      else decide (realChunks x.d x.n sh ≤ done sh p.1 p.2)

/-- Row blocks of a ROW_STATS session (08 R258). -/
def rowCount (d : Desc) (e : Nat) : Nat := d.count / max 1 (rowK e)
def rowBlocks (d : Desc) (e : Nat) : Nat := cdiv (rowCount d e) (rowBlock e)

/-- Transposed row blocks of an ALL_GATHER; zero without a transposed deposit (07 R227). -/
def transposeBlocks (s : State) (d : Desc) : Nat :=
  let e := depEntry s d.stageCfg
  if d.stageCfg = 255 || !depTranspose e then 0 else depRows e / max 1 (rowBlockRows d.fmtOut)

/-- Nothing of the session is in flight. -/
def sessionQuiet (s : State) (slot : Nat) (x : Session) : Bool :=
  !holdsTag s x.gsid && !sessionBusy s slot && x.outs.isEmpty && x.absentDue.isEmpty && x.locals.isEmpty &&
    !s.fin.queue.any (fun i => i.gsid == x.gsid)

/-- Everything the opcode asks for has been done. -/
def sessionOver (s : State) (slot : Nat) (x : Session) : Bool :=
  match x.d.opc with
  | 0x01 => x.cursor ≥ chunkTotal x && x.rootDone ≥ realChunks x.d x.n x.rank && nodesDone s x
  | 0x02 => x.cursor ≥ realChunks x.d x.n x.rank &&
      x.got.length ≥ ((List.range x.n).map (realChunks x.d x.n)).foldl (· + ·) 0 &&
      x.tblocks.length ≥ transposeBlocks s x.d
  | 0x03 => x.cursor ≥ x.n * shardChunks x.d x.n && x.got.length ≥ x.n * realChunks x.d x.n x.rank
  | 0x04 => x.cursor ≥ cdiv x.d.count (chunkE x.d)
  | 0x05 => x.ctsSent && x.got.length ≥ cdiv x.d.count (chunkE x.d)
  | 0x06 => let e := rowEntry s x.d.stageCfg
    x.rowNext ≥ rowBlocks x.d e && x.rows.all (fun p => p.2.lastDone) && x.rows.length ≥ rowBlocks x.d e
  | 0x07 => x.rootDone ≥ 1
  | 0x08 => (match planTopk s slot x with
      | .spent => true
      | _ => false) && nodesDone s x && (shardLen x.d x.n x.rank = 0 || x.rootDone ≥ 1)
  | 0x09 => x.cursor ≥ x.n * 2 ^ 32 && (List.range x.n).all fun r =>
      let w := Sparse.get 0 x.expertWant r
      w ≥ 1 && Sparse.get 0 x.expertBytes r ≥ (w - 1) * rowBytes x.d.fmtOut (spxRow (spxEntry s x.d.stageCfg))
  | 0x0A => x.cursor ≥ x.n * 2 ^ 32 && x.combined
  | 0x0B => x.cursor ≥ cdiv x.d.count (chunkE x.d)
  | _ => false

/-! ### Parking and retirement -/

/-- Code and flags of a session that completes (05 R155; 06 R193, R208). -/
def endCode (x : Session) : W16 × Nat :=
  (if x.d.opc = 0x07 then x.code
   else if x.poison && !x.isTpl && (isReduce x.d.opc || x.d.opc == 0x06) then cPoisonedBucket else cOk,
    2 * b2n x.poison + 4 * b2n x.skip)

/-- Retire a session, marking its bucket GATHERED when it was the last parameter session of step U (09 R295). -/
def finishSession (slot : Nat) (code : W16) (flags : Nat) (s : State) : State :=
  match slot? s slot with
  | none => s
  | some x =>
    let s1 := retireSlot slot code flags s
    match paramBucket s x.ctx x.d with
    | some b =>
      if code = cOk && x.d.step = s.opt.step &&
          !(s1.ses.slots.any fun p => p.2.d.opc == 0x02 && p.2.ctx == x.ctx && p.2.d.bucket == x.d.bucket &&
            p.2.d.step == x.d.step && p.2.st != .rejected)
      then mBkt b (fun k => { k with gathered := true }) s1 else s1
    | none => s1

/-- A gradient session parks (09 R278). -/
def parkSession (slot : Nat) (s : State) : State :=
  match slot? s slot with
  | none => s
  | some x =>
    match gradBucket s x.ctx x.d, x.ringN with
    | some b, some rn =>
      let sq : F32 := x.sums.foldl (fun a p => f32Add a p.2) 0
      let pk : Park :=
        { gsid := x.gsid, ctx := x.ctx, ring := rn.1, n := rn.2, d := x.d, poison := x.poison, infs := x.infs,
          sumSq := sq, skip := x.skip, gsize := x.n, rank := x.rank, landed := x.landed }
      freeSlot slot (mBkt b (fun k =>
        { k with park := some pk, reduced := true, poison := x.poison, infs := x.infs, sumSq := sq, shard := shardQ x.d x.n }) s)
    | _, _ => retireSlot slot cOk 0 s

/-- Retire a parked session with a code; its signal is applied where R504 lets it (09 R278). -/
def retirePark (b : Nat) (code : W16) (flags : Nat) (signal : Bool) (s : State) : State :=
  match (bktOf s b).park with
  | none => s
  | some k =>
    let s1 := decision 3 0 k.gsid 0 code.toNat 0 s
    let s2 := if signal then doneSignal k.d k.ctx k.ring s1 else s1
    let s3 := settleFences k.gsid (code == cOk) (completeDesc k.ring k.n k.gsid code flags (.record k.ring) s2)
    mBkt b (fun k => { k with park := none }) s3

/-- The bucket whose parked session has a GSID. -/
def parkOfGsid (s : State) (g : Nat) : Option Nat :=
  (s.gas.bkt.find? fun p => match p.2.park with
    | some k => k.gsid == g
    | none => false).map Prod.fst

/-- A running session whose work is done ends: a gradient session parks, any other retires. -/
def tryComplete (slot : Nat) (s : State) : State :=
  match slot? s slot with
  | none => s
  | some x =>
    if x.st != .run || !sessionQuiet s slot x || !sessionOver s slot x then s
    else if isGradient s x.d x.ctx then parkSession slot s
    else if x.d.opc = 0x09 && !x.combined then writeStats slot x s
    else
      let m := if isReduce x.d.opc then shardQ x.d x.n else x.d.count
      let have_ := if isReduce x.d.opc then shardLen x.d x.n x.rank else x.d.count
      let e := endCode x
      finishSession slot e.1 e.2 (flushTiles slot m have_ s)

/-- A parameter session of step U under SKIP completes at once (09 R284). -/
def skipsNow (s : State) (x : Session) : Bool :=
  (paramBucket s x.ctx x.d).isSome && x.d.step == s.opt.step && s.opt.verdict == 2 && (s.opt.state == 3 || s.opt.state == 4)

/-- Enter a session in SES: it runs (01 R17 step 4). -/
def enterRun (slot : Nat) (s : State) : State :=
  match slot? s slot with
  | none => s
  | some x =>
    let s1 := decision 1 slot x.gsid 0 0 0 s
    let s2 := mSlot slot (fun x => { x with st := .run, progTick := s.tick }) s1
    if skipsNow s x then finishSession slot cOk 0 s2 else tryComplete slot s2

/-! ### CHUNK_ISSUE and TAG_EXHAUSTED -/

/-- Slots in the order the issue stage serves them: ascending after the one last served (05 R166). -/
def serveOrder (s : State) : List (Nat × Session) :=
  match s.trk.lastServed with
  | none => s.ses.slots
  | some k => (s.ses.slots.filter fun p => p.1 > k) ++ s.ses.slots.filter fun p => p.1 ≤ k

/-- The first session with something to issue. -/
def nextIssue (s : State) : Option (Nat × Session × Plan) :=
  (serveOrder s).findSome? fun p =>
    if !sessionFree s p.2 then none
    else match planOf s p.1 p.2 with
      | .wait => none
      | .spent => none
      | pl => some (p.1, p.2, pl)

/-- A stalled source: its ring's head, and the start of the stall (05 R166, R167). -/
def tagStall (x : Session) (s : State) : State :=
  let s1 := mTrk (fun k => if k.stallStart.isNone then { k with stallStart := some s.tick, reported := false } else k) s
  match x.src with
  | .ring r _ => mRing r (fun g => { g with tagStall := true }) s1
  | .tpl .. => s1

/-- The issue stage's turn (05 R166). -/
def chunkIssue (s : State) : State :=
  if issueStopped s then s
  else match nextIssue s with
    | some (i, _, .absent act) => tryComplete i (settleLocals i (act (mTrk (fun k => { k with lastServed := some i }) s)))
    | some (i, x, .chunk seq act) =>
      if injFor s 5 x.gsid then
        -- an injected straggler: the session's issue is held (13 R417 kind 5)
        fireInject (mSlot i (fun x => { x with held := true, holdUntil := some (s.tick + bits s.flt.injTarget.toNat 55 32) }) s)
      else match freeTag s with
      | none => tagStall x s
      | some t =>
        tryComplete i (settleLocals i (act t (decision 2 i x.gsid t 0 seq (mTrk (fun k => { k with lastServed := some i }) s))))
    | _ => s

def execChunkIssue (s : State) : Host.Outcome State Fault Refusal :=
  .next (if ctlOn s then chunkIssue s else s)

/-- GSID of the session that is due and has no tag. -/
def stalledGsid (s : State) : Nat :=
  match nextIssue s with
  | some (_, x, _) => x.gsid
  | none => 0

/-- Report a tag stall (05 R167; 12 R371 class 7). -/
def reportStall (s : State) : State :=
  let s1 := raiseVec 256 (pageErr pgTrk cTagExhausted s)
  choice 7 (cTagExhausted.toNat % 256) (stalledGsid s) (mTrk (fun k => { k with reported := true }) s1)

/-- TAG_EXHAUSTED: the stall has lasted STALL_WARN ticks without a retirement (05 R167). -/
def tagExhausted (s : State) : State :=
  match s.trk.stallStart with
  | none => s
  | some t0 => if s.trk.reported || s.tick - t0 < s.trk.stallWarn.toNat || s.rru.run then s else reportStall s

def execTagExhausted (s : State) : Host.Outcome State Fault Refusal :=
  .next (if ctlOn s then tagExhausted s else s)

end Sys2Proof.Machine
end

