-- ==== Sys2Proof/Machine/Gas.lean ====
section
/-! DEFINITION. Machine/Gas.lean: gradient deposits, readiness and preload: the commands DDATA_DEPOSIT and PRELOAD_SWEEP
(09 R268 to R275). -/

namespace Sys2Proof.Machine

/-! ### Buckets in the window -/

/-- Address of slot i of a bucket. -/
def gasAddr (s : State) (b i : Nat) : Nat :=
  let e := bktEntry s b
  regAddr s (bkCtx e) (bkGreg e) (bkBase e + 4 * i)

/-- The spans a bucket covers: first and number. -/
def bktSpans (s : State) (b : Nat) : Nat × Nat := (spanOf s (gasAddr s b 0), cdiv (bkCount (bktEntry s b)) 16384)

/-- The stale spans of active buckets, as (span, bucket), in ascending span order (09 R275). -/
def staleSpans (s : State) : List (Nat × Nat) :=
  sortBy (fun p q => p.1 ≤ q.1) ((activeBuckets s).flatMap fun b =>
    let r := bktSpans s b
    (List.range r.2).filterMap fun i => if spanCurrent s (r.1 + i) then none else some (r.1 + i, b))

/-- GAS accumulation and sweep stop in debug freeze (16 R494), in doze and sleep (15 R455), and with no request possible
(02 R48). -/
def gasStopped (s : State) : Bool := s.dbg.freeze || s.dbg.freezeIn || !awake s || !empReady s

/-! ### The GAS budget (09 R273, 15 R457): memory beats of a sub-channel in a period, two for each slot beat -/

/-- ⌊10,000 × f⌋ for the limit in force. -/
def gasCap (s : State) : Nat := 10000 * (s.pwr.limit.toNat - 12) / 158

def gasRoom (s : State) (sub beats : Nat) : Bool := Sparse.get 0 s.gas.used sub + beats ≤ 2 * gasCap s
def gasUse (sub beats : Nat) (s : State) : State :=
  mGas (fun g => { g with used := Sparse.modify 0 g.used sub (· + beats) }) s

/-- Memory beats of a preload on each sub-channel: 1,024 or 2,048 in all (09 R275). -/
def preloadCost (e : Nat) : Nat := if bkPreload e = 0 then 128 else 256
def preloadRoom (s : State) (b : Nat) : Bool := (List.range 8).all fun c => gasRoom s c (preloadCost (bktEntry s b))

/-! ### Preload (09 R275) -/

/-- The value a slot of a bucket is preloaded with; a slot past the bucket's elements takes +0. -/
def preloadWord (s : State) (b i : Nat) : List Byte :=
  let e := bktEntry s b
  let src (k : Nat) : List Byte := readBytes s.mem (regAddr s (bkCtx e) (bkPreReg e) (bkPreOff e + 4 * k)) 4
  if bkPreload e = 1 then src (i % max 1 (bkPeriod e))
  else if bkPreload e = 2 && i < bkCount e then src i
  else leBytes 4 0

def setSpan (sp : Nat) (current : Bool) (s : State) : State :=
  mGas (fun g => { g with epoch := Sparse.set false g.epoch sp (s.opt.step.getLsbD 0 == current) }) s

/-- Preload a span whole and mark it current. A poisoned source read puts the bytes back (13 R394). -/
def preloadSpan (b sp : Nat) (s : State) : State :=
  let e := bktEntry s b
  let base := s.gas.winBase.toNat + sp * 65536
  let i0 := (sp - (bktSpans s b).1) * 16384
  let bytes := (List.range 16384).flatMap fun i => preloadWord s b (i0 + i)
  let undo : List Host.Cell := (List.range 65536).map fun k => (base + k, readByte s.mem (base + k))
  let s1 := if bkPreload e = 0 then s
    else empRead (.preload b sp) (regAddr s (bkCtx e) (bkPreReg e) (bkPreOff e)) 65536 undo s
  let s2 := setSpan sp true (empWrite (.gas b) base bytes s1)
  foldS (List.range 8) s2 fun c s => gasUse c (preloadCost e) s

/-- The background sweep's turn (09 R275): the lowest stale span, if the period's budget has room. -/
def preloadSweep (s : State) : State :=
  if !s.opt.en || gasStopped s then s
  else match staleSpans s with
    | [] => s
    | (sp, b) :: _ => if preloadRoom s b then preloadSpan b sp s else s

def execPreloadSweep (s : State) : Host.Outcome State Fault Refusal :=
  .next (if ctlOn s then preloadSweep s else s)

/-! ### Deposits (09 R270 to R274) -/

def depBkt (h : W64) : Nat := bits h.toNat 11 0
def depBeat (h : W64) : Nat := bits h.toNat 35 12
def depFmt (h : W64) : Nat := bits h.toNat 37 36
def depStep (h : W64) : W16 := BitVec.ofNat 16 (bits h.toNat 53 38)

/-- What the checks of R271 decide. -/
inductive DepVerdict where
  | reject (code : W16)
  | frozen
  | hold
  | accept
deriving DecidableEq, Repr

/-- The checks of R271 in order. -/
def depCheck (s : State) (port : Nat) (h : W64) : DepVerdict :=
  let t := tcpOf s port
  let e := bktEntry s (depBkt h)
  if !t.en then .reject cContextMismatch
  else if depFmt h = 3 || bits h.toNat 63 54 != 0 || (depFmt h != 0 && depBeat h % 2 == 1) then .reject cFieldInvalid
  else if !bkValid e then .reject cRegionInvalid
  else if bkCtx e != t.ctx.toNat then .reject cContextMismatch
  else if bkFrozen e then .frozen
  else if 16 * depBeat h ≥ bkCount e then .reject cLengthExceedsRegion
  else if depStep h = s.opt.step + 1 then .hold
  else if depStep h ≠ s.opt.step then .reject cStepRange
  else if (bktOf s (depBkt h)).ready then .reject cRegionBusy
  else .accept

/-- Count, log and report a rejected deposit; the error vector is raised once per step (09 R271). -/
def rejectDeposit (port : Nat) (code : W16) (s : State) : State :=
  let s1 := mGas (fun g => { g with lastReject := BitVec.ofNat 32 (code.toNat + port * 65536), rejRaised := true })
    (bump pgGas (·.gas.depRejects) (fun v => mGas fun g => { g with depRejects := v }) 1 s)
  if s.gas.rejRaised then reportCode code s1 else raiseError code s1

/-- The elements of a deposit beat, widened (06 R184). -/
def depElems (h : W64) (beat : BitVec 512) : List F32 :=
  let b := leBytes 64 beat.toNat
  (pieces (fmtSize (depFmt h)) b).map fun r => widen (depFmt h) (leNat r)

/-- Add elements to the slots of one beat of a bucket; slots at or beyond COUNT are not written (09 R271, R272). -/
def accumulate (b beat : Nat) (es : List F32) (s : State) : State :=
  let a := gasAddr s b (16 * beat)
  let old := readBytes s.mem a 64
  let count := bkCount (bktEntry s b)
  let new := (List.range 16).flatMap fun i =>
    let o := leAt old (4 * i) 4
    if 16 * beat + i < count then leBytes 4 (f32Add (BitVec.ofNat 32 o) (es.getD i 0)).toNat else leBytes 4 o
  let undo : List Host.Cell := (List.range 64).map fun k => (a + k, byteAt old k)
  gasUse (subChannel a) 2 (empWrite (.gas b) a new (empRead (.gasAcc b) a 64 undo s))

/-- Every active bucket is ready in step U. -/
def allReady (s : State) : Bool := (activeBuckets s).all fun b => (bktOf s b).ready

/-- Count a deposit; reaching EXPECT makes the bucket ready (09 R274, R280). -/
def countDeposit (port b : Nat) (s : State) : State :=
  let e := bktEntry s b
  let n := (bktOf s b).deposits + 1
  let s1 := mBkt b (fun k => { k with deposits := n }) s
  if n.toNat < bkExpect e then s1
  else
    let s2 := mBkt b (fun k => { k with ready := true }) s1
    let r := localPrim (bkCtx e) (bkReadyObj e) false 1 (256 + port) s2
    let s3 := if r.1 then r.2 else raiseVec 256 (pageErr pgGas cSyncIdUnmapped r.2)
    if allReady s3 then mOpt (fun o => { o with deadlineStart := some s.tick }) s3 else s3

/-- The beats a deposit writes. -/
def depBeats (h : W64) : List Nat := if depFmt h = 0 then [depBeat h] else [depBeat h, depBeat h + 1]

/-- Whether the period's budget takes a deposit, with the preload it may need, on every sub-channel (R273, R275). -/
def depRoom (s : State) (h : W64) : Bool :=
  let b := depBkt h
  let stale := !spanCurrent s (spanOf s (gasAddr s b (16 * depBeat h)))
  let pre := if stale then preloadCost (bktEntry s b) else 0
  (List.range 8).all fun c =>
    gasRoom s c (pre + 2 * ((depBeats h).filter fun k => subChannel (gasAddr s b (16 * k)) == c).length)

/-- Apply an accepted deposit (09 R272, R274, R275). -/
def applyDeposit (port : Nat) (h : W64) (beat : BitVec 512) (s : State) : State :=
  let b := depBkt h
  let sp := spanOf s (gasAddr s b (16 * depBeat h))
  let s1 := if spanCurrent s sp then s else preloadSpan b sp s
  let es := depElems h beat
  let s2 := foldS ((List.range (depBeats h).length).zip (depBeats h)) s1 fun p s =>
    if 16 * p.2 < bkCount (bktEntry s b) then accumulate b p.2 ((es.drop (16 * p.1)).take 16) s else s
  countDeposit port b s2

/-- A deposit presented on DDATA (09 R271); the port's ready is low while a deposit is held, in debug freeze, and while
the budget has no room. In doze and sleep it wakes the engine and waits at its port (15 R456). -/
def deposit (port : Nat) (h : W64) (beat : BitVec 512) (ecc : Ecc) (s0 : State) : State :=
  let s := if s0.rst.done && !awake s0 then wakeBy 4 s0 else s0
  if (tileOf s port).held.isSome || gasStopped s then s
  else
    let s := if ecc = .single then eccSingle 10 s else s
    if ecc = .double then
      rejectDeposit port cTcpDataError (logDouble 10 port false s)
    else match depCheck s port h with
      | .reject code => rejectDeposit port code s
      | .frozen => bump pgGas (·.gas.frozenDrops) (fun v => mGas fun g => { g with frozenDrops := v }) 1 s
      | .hold => mTile port (fun t => { t with held := some (h, beat) }) s
      | .accept => if depRoom s h then applyDeposit port h beat s else s

def execDdataDeposit (port : Fin 64) (header : W64) (beat : BitVec 512) (ecc : Ecc) (s : State) :
    Host.Outcome State Fault Refusal := .next (deposit port.val header beat ecc s)

/-- The deposit passes its checks and waits for room in the budget. -/
def depWaits (s : State) (p : Nat) (h : W64) : Bool :=
  match depCheck s p h with
  | .accept => !depRoom s h
  | _ => false

/-- The held deposits that can be taken are, in ascending port order (02 R70, 09 R297). -/
def releaseHeld (s : State) : State :=
  foldS (List.range 64) s fun p s =>
    match (tileOf s p).held with
    | none => s
    | some hb =>
      let s1 := mTile p (fun t => { t with held := none }) s
      if gasStopped s || depWaits s1 p hb.1 then s else deposit p hb.1 hb.2 .clean s1

end Sys2Proof.Machine
end

