-- ==== Sys2Proof/Machine/StepOps.lean ====
section
/-! DEFINITION. Machine/StepOps.lean: the step machine's operations: verdict, constants, repeat, commit and hold
(09 R279 to R284, R295 to R297; 11 R359; 12 R375; 13 R416). -/

namespace Sys2Proof.Machine

/-! ### The release contribution (09 R280) -/

/-- S_local: the buckets' sums of squares in ascending entry order. -/
def sLocal (s : State) : F32 :=
  match (activeBuckets s).map fun b => (bktOf s b).sumSq with
  | [] => 0
  | v :: rest => rest.foldl f32Add v

/-- NONFINITE: under POLICY 0, a poisoned bucket or one that holds an infinite element. -/
def nonFinite (s : State) : Bool :=
  !s.opt.policy && (activeBuckets s).any fun b => (bktOf s b).poison || decide ((bktOf s b).infs > 0)

def allReduced (s : State) : Bool := (activeBuckets s).all fun b => (bktOf s b).reduced

/-! ### Constants (09 R282) -/

/-- Constants of an optimizer entry under a global sum of squares. -/
def optConst (s : State) (i : Nat) (sq : F32) : OptK :=
  let w (n : Nat) : F32 := BitVec.ofNat 32 (optWord s i n)
  let norm := f32Sqrt sq
  let clip := w 7
  let under := !f32IsNaN norm && !f32IsNaN clip && !f32Gt norm clip
  let c := if f32IsZero clip || under then f32One else f32Div clip norm
  let p1 := f32Mul (w 8) (w 2)
  let p2 := f32Mul (w 9) (w 3)
  { w0 := w 0, k := [f32Mul (w 6) c, w 1, w 2, w 3, w 4, w 5, f32Div f32One (f32Sub f32One p1), f32Div f32One (f32Sub f32One p2),
      f32Sub f32One (w 2), f32Sub f32One (w 3), w 10, w 11, w 12, w 13, w 14, w 15],
    p1 := p1, p2 := p2 }

/-- Numbers of the valid optimizer entries. -/
def optValids (s : State) : List Nat := (s.opt.entries.map Prod.fst).filter (optValid s)

/-- An active bucket names an optimizer entry that is not valid or is another context's. -/
def optMissing (s : State) : Bool :=
  (activeBuckets s).any fun b => let e := bktEntry s b; !optValid s (bkOpt e) || optCtx s (bkOpt e) != bkCtx e

/-! ### Verdict -/

/-- Enter HALTED with a code on the step function vector. -/
def haltWith (code : W16) (s : State) : State := raiseStep (reportCode code (haltStep s))

/-- UPDATE moves to GATHER once every active bucket is UPDATED (09 R295). -/
def advanceUpdate (s : State) : State :=
  if s.opt.state = 2 && (activeBuckets s).all (fun b => (bktOf s b).updated) then mOpt (fun o => { o with state := 3 }) s
  else s

/-- Gradient sessions of a step in slots. -/
def gradSlots (s : State) (step : W16) : List Nat :=
  (s.ses.slots.filter fun p => isGradient s p.2.d p.2.ctx && p.2.d.step == step && p.2.st != .rejected).map Prod.fst

/-- Buckets with a parked session of a step. -/
def parksOf (s : State) (step : W16) : List Nat :=
  (s.gas.bkt.filter fun p => match p.2.park with
    | some k => k.d.step == step
    | none => false).map Prod.fst

/-- GSIDs of the gradient sessions of a step, in slots or parked. -/
def gradGsids (s : State) (step : W16) : List Nat :=
  (gradSlots s step).filterMap (fun i => (slot? s i).map Session.gsid) ++
    (parksOf s step).filterMap fun b => (bktOf s b).park.map Park.gsid

/-- Retire every gradient session of a step with STEP_REPEATED and FLAGS [3]; their completion signals are applied (05 R504), and the
fenced SIGNALs that wait for them are dropped (11 R347). -/
def repeatRetire (step : W16) (s : State) : State :=
  let a := foldS (gradSlots s step) s fun i s =>
    match slot? s i with
    | none => s
    | some x =>
      let s1 := decision 3 i x.gsid 0 cStepRepeated.toNat 0 s
      let s2 := doneSignal x.d x.ctx (sourceNumber s x.src) s1
      let s3 := match x.src with
        | .ring r n => completeDesc r n x.gsid cStepRepeated 8 (.record r) s2
        | .tpl .. => s2
      freeSlot i (settleFences x.gsid false s3)
  foldS (parksOf a step) a fun b s => retirePark b cStepRepeated 8 true s

/-- The REPEAT verdict (09 R283). -/
def verdictRepeat (s : State) : State :=
  let s := bump pgOpt (·.opt.repeats) (fun v => mOpt fun o => { o with repeats := v }) 1
    (mOpt (fun o => { o with verdict := 3 }) s)
  if s.opt.attempt.toNat + 1 > s.opt.repeatMax.toNat then haltWith cStepRepeated s
  else
    let ids := gradGsids s s.opt.step
    let s1 := repeatRetire s.opt.step s
    let s2 := mGas (fun g => { g with bkt := Sparse.mapAll {} g.bkt fun _ k =>
      { k with reduced := false, poison := false, infs := 0, sumSq := 0 } }) s1
    let s3 := mOpt (fun o =>
      { o with
        repeatB := o.repeatA, repeatA := ids, attempt := o.attempt + 1, failed := false, late := false,
        deadlineStart := if allReady s2 then some s.tick else none }) s2
    stepHeader (mOpt (fun o => { o with state := 0 }) (raiseStep (reportCode cStepRepeated s3)))

/-- The SKIP verdict (09 R284): parameter sessions of step U complete at once. -/
def verdictSkip (s : State) : State :=
  let s1 := bump pgOpt (·.opt.skipped) (fun v => mOpt fun o => { o with skipped := v }) 1
    (mOpt (fun o => { o with verdict := 2, state := 3 }) s)
  let due := (s1.ses.slots.filter fun p => (paramBucket s1 p.2.ctx p.2.d).isSome && p.2.d.step == s1.opt.step &&
    p.2.st == .run).map Prod.fst
  foldS due s1 fun i s => finishSession i cOk 0 s

/-- Elements of a bucket's shard that exist on this chip (07 R215); none before its gradient session has parked. -/
def bktLen (s : State) (b : Nat) : Nat :=
  match (bktOf s b).park with
  | none => 0
  | some k => shardLen k.d k.gsize k.rank

/-- A bucket with nothing to update has its cursor at the shard's end already (R286). -/
def markEmpty (s : State) : State :=
  foldS (activeBuckets s) s fun b s => if bktLen s b = 0 then mBkt b (fun k => { k with updated := true }) s else s

/-- The UPDATE verdict (09 R282). -/
def verdictUpdate (sq : F32) (s : State) : State :=
  let s1 := mOpt (fun o => { o with verdict := 1, consts := (optValids s).map fun i => (i, optConst s i sq) }) s
  if optMissing s1 then haltWith cConfigInvalid s1
  else advanceUpdate (markEmpty (mOpt (fun o => { o with state := 2 }) s1))

/-- The result of channel 14 (09 R281, 11 R359). -/
def stepVerdict (st : BandStatus) (sq : F32) (s : State) : State :=
  if !s.opt.en || s.opt.state != 1 then s
  else
    let s0 := mOpt (fun o => { o with normSq := sq }) s
    let d (v : Nat) (s : State) : State := decision 5 14 s.opt.step.toNat 0 v 0 s
    if st.late || st.fail || st.timeout || st.mismatch then verdictRepeat (d 3 s0)
    else if st.nonfinite || !f32IsFin sq then verdictSkip (d 2 s0)
    else verdictUpdate sq (d 1 s0)

/-! ### Commit and hold (09 R295 to R297) -/

/-- The digest record of a commit (12 R375). -/
def digestRecord (s : State) : State :=
  captureRec s.ccc.toNat 4 15 0 (leBytes 2 s.opt.step.toNat ++ [s.opt.attempt.zeroExtend 8] ++ List.replicate 5 0 ++
    leBytes 8 s.ctl.digest.toNat ++ leBytes 8 s.rru.timeDigest.toNat ++ leBytes 8 s.ctl.decisions) none s

/-- Words 8 and 9 of an entry advance to p1 and p2 (09 R297 step 2). -/
def advanceB (s : State) : State :=
  foldS s.opt.consts s fun k s => mOpt (fun o =>
    { o with entries := Sparse.modify 0 o.entries k.1 fun e =>
        let keep := e.toNat - bits e.toNat 319 256 * 2 ^ 256
        BitVec.ofNat 512 (keep + k.2.p1.toNat * 2 ^ 256 + k.2.p2.toNat * 2 ^ 288) }) s

/-- The bucket state of a new step: a resend counter and every mark cleared (09 R297 step 4). -/
def Bkt.fresh (k : Bkt) : Bkt := { park := k.park, shard := k.shard }

/-- Make every span of every active bucket stale. -/
def staleAll (s : State) : State :=
  foldS (activeBuckets s) s fun b s =>
    let r := bktSpans s b
    foldS (List.range r.2) s fun i s => setSpan (r.1 + i) false s

/-- Apply COMMIT (09 R297), with the step's digest record, the new step header and the expiries that a commit ends
(01 R21, 05 R171, 12 R375, R376, 13 R416, R420). -/
def commitStep (s : State) : State :=
  let u := s.opt.step
  let s0 := digestRecord (decision 7 15 u.toNat 0 0 0 s)
  let s1 := { s0 with ctl := { s0.ctl with digest := 0, decisions := 0, stepStart := s.ccc, expired := false },
                      rru := { s0.rru with timeDigest := 0, commits := s0.rru.commits + 1 } }
  let s2 := mOpt (fun o => { o with committed := u, step := u + 1 }) s1
  let s3 := if s.opt.verdict = 1 || s.opt.advanceB then advanceB s2 else s2
  let s4 := mOpt (fun o => { o with gen := !o.gen, advanceB := false, consts := [] }) s3
  let parks := parksOf s4 u
  let marks := parks.map fun b => (b, 2 * b2n (bktOf s4 b).poison + 4 * b2n ((bktOf s4 b).park.any Park.skip))
  let s5 := staleAll (mGas (fun g =>
    { g with bkt := Sparse.mapAll {} g.bkt fun _ k => k.fresh, rejRaised := false }) s4)
  let s6 := foldS marks s5 fun p s => retirePark p.1 cOk p.2 true s
  let s7 := mOpt (fun o =>
    { o with
      repeatA := [], repeatB := [], attempt := 0, failed := o.failedNext, failedNext := false, late := false, voted := false,
      deadlineStart := none, commitWait := none, state := 0 }) s6
  let s8 := mFlt (fun f => { f with updateBegun := false, holds := 0 }) (mSes (fun e => { e with abortList := [] }) s7)
  stepHeader (raiseStep (releaseHeld s8))

/-- A HOLD result (09 R296, 13 R416): GATHER again; the failed mirrors are sent again. -/
def holdStep (s : State) : State :=
  let s0 := decision 7 15 s.opt.step.toNat 0 1 0 s
  let n := satAdd s0.flt.holds 1
  let s1 := mOpt (fun o => { o with state := 3, voted := false })
    (bump pgFlt (·.flt.holds) (fun v => mFlt fun f => { f with holds := v }) 1 s0)
  let s2 := mGas (fun g => { g with bkt := Sparse.mapAll {} g.bkt fun _ k =>
    if k.tailFail then { k with tailFail := false, mirrorAt := 0, mirrorSeq := 0, sealSent := false, mirrorTick := none, resends := 0 }
    else k }) s1
  if n.toNat = max 1 s.flt.holdWarn.toNat && s.flt.holds != n then raiseFault 0 0 0 false s2 else s2

/-- Frames, by port, whose tag check a COMMIT result waits for (14 R431). -/
def framesOpen (s : State) : List (Nat × W32) :=
  (List.range 10).filterMap fun p =>
    let q := portOf s p
    if q.rxIdx = 0 then none else some (p, q.rxSeq)

/-- The result of channel 15 (11 R359). -/
def stepResult (st : BandStatus) (epochStep : W16) (s : State) : State :=
  if !s.opt.en || s.opt.state != 4 || epochStep != s.opt.step then s
  else if st.byte = 0 then mOpt (fun o => { o with commitWait := some (s.opt.step, framesOpen s) }) s
  else holdStep s

end Sys2Proof.Machine
end

