-- ==== Sys2Proof/Machine/Link.lean ====
section
/-! DEFINITION. Machine/Link.lean: the link layer: port states, discards, frames, credits, retry, and the commands
LCF_SEND, LCF_RECEIVE, FLIT_RECEIVE and RETRY_TIMEOUT (04 R501; 13 R395; 14 R423 to R431). -/

namespace Sys2Proof.Machine

/-! ### Parameters of a port (03 R104; 04 R116, R117, R136) -/

def portMapOf (s : State) (p : Nat) : Nat := (Sparse.get (0 : BitVec 20) s.rtr.portMap p).toNat
/-- RTR.PORT_MAPn.EN. -/
def portEn (s : State) (p : Nat) : Bool := bit (portMapOf s p) 19

/-- The cap of a bulk VC, which is also the retry limit (R117). -/
def reachCap (s : State) (p : Nat) : Nat :=
  match s.rtr.reach p with
  | 0 => 320
  | 1 => 384
  | 2 => 512
  | _ => 896

/-- The credit loop in units of 10 ps (R117). -/
def creditLoop (s : State) (p : Nat) : Nat :=
  match s.rtr.reach p with
  | 0 => 9096
  | 1 => 12096
  | 2 => 16096
  | _ => 28096

def Port.pooled (q : Port) : Bool := q.agreedCaps.getLsbD 3
/-- Floor of a VC's grant; on a link without POOL the static grant (R116, R130). -/
def vcFloor (q : Port) (v : Nat) : Nat := if v = 0 then 16 else if q.pooled then 68 else 290
def vcCap (s : State) (p v : Nat) : Nat := if v = 0 then 16 else reachCap s p

def lcfGap (s : State) : Nat := max 8 s.lnk.lcfGap.toNat
def maxNak (s : State) : Nat := max 1 s.lnk.maxNak.toNat
/-- Flit slots since the reset of the cycle counter: 3.125 a ns, 125 in 44 cycles (R105). -/
def slotNow (s : State) : Nat := s.ccc.toNat * 125 / 44

/-- LNK.LOCAL_CAPS.VERSION and CAPS_HW (R128, R134). -/
def capsVersion : BitVec 4 := 3
def capsHw : BitVec 4 := 0xF

/-- Flits of the retry buffer (R120). -/
def retryFlits : Nat := 1024

/-- Flits that the retry buffer holds, the open frame's included (R120). -/
def retryHeld (q : Port) : Nat := (q.retry.map fun f => f.flits.length + 1).foldl (· + ·) 0 + q.txFlits.length

/-- The ports are fenced during a replay and after it until an engine reset (12 R381, R384). -/
def fenced (s : State) : Bool := s.rru.run || s.rru.endCode != 0

/-! ### Counters of a port -/

def countNakSent (p : Nat) : State → State := bump pgLnk (fun s => (portOf s p).nakSent) (fun v => mPort p fun q => { q with nakSent := v }) 1
def countNakRcvd (p : Nat) : State → State := bump pgLnk (fun s => (portOf s p).nakRcvd) (fun v => mPort p fun q => { q with nakRcvd := v }) 1
def countFec (p n : Nat) : State → State := bump pgLnk (fun s => (portOf s p).fecCorr) (fun v => mPort p fun q => { q with fecCorr := v }) n
def countUncorr (p : Nat) : State → State := bump pgLnk (fun s => (portOf s p).uncorr) (fun v => mPort p fun q => { q with uncorr := v }) 1
def countDup (p n : Nat) : State → State := bump pgLnk (fun s => (portOf s p).dup) (fun v => mPort p fun q => { q with dup := v }) n
def countMisroute : State → State := bump pgRtr (·.rtr.misroute) (fun v => mRtr fun r => { r with misroute := v }) 1
def countBandDrop : State → State := bump pgSyn (·.syn.bandDrops) (fun v => mSyn fun y => { y with bandDrops := v }) 1

/-! ### Discards and link down (04 R501; 13 R395) -/

/-- Discard a packet: counted, its tag's retire condition met, its remote signal completed with LINK_LOST (R346). -/
def discardPkt (k : Packet) (s : State) : State :=
  let s1 := meetTag k.tag (if k.isBand then countBandDrop s else countMisroute s)
  match k.ring with
  | none => s1
  | some r => if (ringOf s1 r).headState = .remote then headDone r cLinkLost 0 s1 else s1

/-- Flits of a packet that leave the receive buffer of the input they came by (04 R118). -/
def leaveBuffer (k : Packet) (s : State) : State :=
  if k.inport ≥ 10 then s
  else mPort k.inport (fun q =>
    { q with
      grants := Sparse.modify 0 q.grants k.invc (· - k.len),
      freed := Sparse.modify 0 q.freed k.invc (· + k.len) }) s

/-- Packets partly sent or waiting toward a port. -/
def Port.outgoing (q : Port) : List Packet :=
  (match q.current with
  | some c => [c.1.pkt]
  | none => []) ++ q.queues.map Queued.pkt

/-- A port's link state when its link is down: everything in flight is gone, both keys of each direction are free.
DESIGN CHOICE: until an inbound frame has passed its check, the port's LCFs send ACK_SEQ 0xFFFFFFFF (log 64). -/
def Port.cleared (q : Port) : Port :=
  { q with
    lost := true, txSeq := 0, txFlits := [], lcfSent := false, lcfRcvd := false, credits := [], queues := [],
    current := none, deficit := [], rrVc := 1, rrOpen := false, retry := [], openReplays := 0, sentVc := [],
    rxSeq := 0, rxIdx := 0, discarding := false, nakDue := none, ackSeq := 0xFFFFFFFF, rxFlits := [], partial_ := [],
    freed := [], grants := [], toGrant := [], pool := 0, demandIn := 0, captures := [], txEpoch := 0, rxEpoch := 0,
    txF := 0, rxF := 0, txReq := none, rxReq := none, txNext := false, rxNext := false, attBuf := [], attMsg := 0,
    attIdx := 0, doneSent := false, doneRcvd := false, seenRx := false, rxSeen := false, txSeen := false }

def freeKeys (p : Nat) (s : State) : State :=
  mLsu (fun l => { l with keys := l.keys.filter fun k => k.1 / 4 != p }) s

/-- A local bulk packet is partly injected. -/
def injecting (s : State) : Bool :=
  (List.range 10).any fun p => match (portOf s p).current with
    | some c => c.1.pkt.inport == 10
    | none => false

/-- HOLD_DONE reads 1 while no local bulk packet is partly injected (03 R90, R102); under HOLD it rises by the command
HOLD_DONE. -/
def settleHold (s : State) : State :=
  mRtr (fun r => { r with holdDone := if injecting s then false else if r.hold then r.holdDone else true }) s

/-- Every packet toward the port is discarded and its buffers are freed. -/
def dropLink (p : Nat) (s : State) : State :=
  let gone := (portOf s p).outgoing
  let s1 := freeKeys p (mPort p Port.cleared s)
  let s2 := mOpt (fun o => { o with commitWait := o.commitWait.map fun w =>
    (w.1, w.2.map fun f => if f.1 = p then (16 + p, f.2) else f) }) s1
  settleHold (foldS gone s2 fun k s => leaveBuffer k (discardPkt k s))

/-- Start training: PHY_EN and all lanes set, TRAIN_REQ pulsed, CAPS_EN taken (02 R50; 04 R126, R134). -/
def toPhyWait (p : Nat) (s : State) : State :=
  mPort p (fun q =>
    { q with
      st := 1, phyEn := true, laneEn := 0xFFFF, trainReq := true, stateTick := s.tick, offer := s.lnk.capsEn &&& capsHw,
      seenRx := false, rxSeen := false, txSeen := false }) s

/-- A port is trained while EN and PHY_PRESENT are 1 and the chip is not silent (02 R51; 13 R417 kind 9). -/
def mayTrain (s : State) (p : Nat) : Bool := portEn s p && (portOf s p).present && !s.flt.silent

/-- Leave a link: through DOWN to PHY_WAIT when the port may train (04 R501). -/
def toDown (p : Nat) (s : State) : State :=
  if mayTrain s p then toPhyWait p s
  else mPort p (fun q => { q with st := 0, phyEn := false, laneEn := 0, trainReq := false, stateTick := s.tick }) s

/-- A link goes down: the discards, the code, the fault vector, the state that follows (13 R395, 04 R501). -/
def linkDown (p : Nat) (code : Option W16) (fault inj : Bool) (s : State) : State :=
  let s1 := dropLink p s
  let s2 := match code with
    | none => s1
    | some c => mPort p (fun q => { q with failCode := c }) s1
  toDown p (if fault then raiseFault (code.getD 0) p 0 inj s2 else s2)

/-- The PORT message (15 R459). -/
def portMessage (p : Nat) (code : W16) (st : Nat) (s : State) : State :=
  sendMbx 0x02 [w32 (0x02 + code.toNat * 65536), w32 (p + st * 16)] s

/-- Enter FAILED with a code (04 R126, R501). -/
def failPort (p : Nat) (code : W16) (s : State) : State :=
  let s1 := dropLink p s
  let s2 := mPort p (fun q =>
    { q with st := 7, phyEn := false, laneEn := 0, trainReq := false, failCode := code, stateTick := s.tick }) s1
  portMessage p code 7 (raiseError code (raiseFault code p 0 false s2))

/-- A training timeout: back to PHY_WAIT, or FAILED at the third in a row (04 R126). -/
def trainTimeout (p : Nat) (code : W16) (s : State) : State :=
  let n := (portOf s p).attempts.toNat + 1
  let s1 := mPort p (fun q => { q with attempts := BitVec.ofNat 2 n }) s
  if n ≥ 3 then failPort p code s1 else toPhyWait p (mPort p (fun q => { q.cleared with lost := q.lost, queues := q.queues }) (freeKeys p s1))

/-! ### Keys and IVs (14 R424, R426, R427) -/

def keyIndex (p : Nat) (rx : Bool) (epoch : Nat) : Nat := p * 4 + b2n rx * 2 + epoch % 2
def keyAt (s : State) (i : Nat) : Key := Sparse.get {} s.lsu.keys i
def gcmKeys (s : State) (p : Nat) (rx : Bool) (epoch : Nat) : List (List Byte) :=
  aesKeys (leBytes 32 (keyAt s (keyIndex p rx epoch)).key.toNat)
def frameIv (s : State) (p : Nat) (rx : Bool) (epoch : Nat) (seq : W32) : List Byte :=
  leBytes 4 (keyAt s (keyIndex p rx epoch)).fixed.toNat ++ leBytes 4 epoch ++ leBytes 4 seq.toNat

/-- A frame that starts when F is f takes the current key. -/
def keyLasts (f : Nat) : Bool := f + 64 ≤ 2 ^ 32

/-- Whether the sender may start or go on with its frame: the key it falls to is loaded. -/
def txKeyReady (s : State) (p : Nat) : Bool :=
  let q := portOf s p
  (keyAt s (keyIndex p false q.txEpoch)).loaded && (!q.txFlits.isEmpty || keyLasts q.txF || q.txNext)

/-- At a frame's start the next key takes over when the current one has no room (R427). -/
def txFrameStart (p : Nat) (s : State) : State :=
  mPort p (fun q => if q.txFlits.isEmpty && !keyLasts q.txF
    then { q with txEpoch := q.txEpoch + 1, txF := 0, txNext := false } else q) s

def rxKeyReady (s : State) (p : Nat) : Bool :=
  let q := portOf s p
  !q.rxFlits.isEmpty || keyLasts q.rxF || q.rxNext

def rxFrameStart (p : Nat) (s : State) : State :=
  mPort p (fun q => if q.rxFlits.isEmpty && !keyLasts q.rxF
    then { q with rxEpoch := q.rxEpoch + 1, rxF := 0, rxNext := false } else q) s

/-! ### Sending (04 R111 to R115, R119, R120, R122) -/

/-- Send one traffic flit: encrypted at its place in the frame, on the wire and in the retry buffer. -/
def sendFlit (p : Nat) (k : Packet) (i : Nat) (s : State) : State :=
  let s1 := txFrameStart p s
  let q := portOf s1 p
  let w := BitVec.ofNat 32 (k.flitWord i)
  let clear := k.flitBody i
  let cipher := gcmCrypt (gcmKeys s1 p false q.txEpoch) (frameIv s1 p false q.txEpoch q.txSeq) (124 * q.txFlits.length) clear
  mPort p (fun q =>
    { q with
      txFlits := q.txFlits ++ [⟨w, cipher⟩], txF := q.txF + 1, wire := q.wire ++ [leBytes 4 w.toNat ++ cipher],
      credits := Sparse.modify 0 q.credits k.vc (· - 1), sentVc := Sparse.set false q.sentVc k.vc true }) s1

/-- Room for one traffic flit: the frame is not full, the retry limit is not reached, the key is there. -/
def txRoom (s : State) (p : Nat) : Bool :=
  let q := portOf s p
  q.txFlits.length < 63 && retryHeld q < reachCap s p && txKeyReady s p

/-- The LCF is due (R111). -/
def lcfDue (s : State) (p : Nat) : Bool :=
  let q := portOf s p
  q.txFlits.length ≥ 56 || slotNow s - q.lcfSlot ≥ lcfGap s || !q.lcfSent

/-- Bulk flits of the frame in progress: at most N by the power limit (15 R457). -/
def Port.bulkSent (q : Port) : Nat := (q.txFlits.filter fun f => bits f.word.toNat 4 2 != 0).length

/-- The first packet that waits on a VC. -/
def Port.headOf (q : Port) (v : Nat) : Option Queued := q.queues.find? fun k => k.pkt.vc == v

/-- The first packet that may start on a VC: while HOLD is set no local bulk packet does (03 R90). -/
def startOf (s : State) (q : Port) (v : Nat) : Option Queued :=
  q.queues.find? fun k => k.pkt.vc == v && !(s.rtr.hold && v != 0 && k.pkt.inport == 10)

/-- Flits of a maximum-length packet of a VC: band packets, of one flit, and bulk packets (04 R107). -/
def vcMax (v : Nat) : Nat := if v = 0 then 1 else 34

/-- Credits a packet needs on a VC: to enter a ring those of two maximum-length packets, to continue those of one
(03 R84). -/
def ringCredits (v : Nat) (enter : Bool) : Nat := if enter then 2 * vcMax v else vcMax v

/-- A waiting packet has the credits to enter or to continue its ring. -/
def creditsMeet (q : Port) (k : Queued) : Bool := Sparse.get 0 q.credits k.pkt.vc ≥ ringCredits k.pkt.vc k.enter

/-- A packet waits on a VC of the port, or is partly sent. -/
def Port.busyOn (q : Port) (v : Nat) : Bool :=
  (q.headOf v).isSome || (match q.current with
    | some c => c.1.pkt.vc == v
    | none => false)

def vcWeight (s : State) (v : Nat) : Nat := max 1 (Sparse.get (1 : Byte) s.lnk.weights v).toNat

/-- The deficit round robin's next packet (R115): visits from the VC in turn on. -/
def pickBulk (s : State) : Nat → Port → Port × Option Queued
  | 0, q => (q, none)
  | n + 1, q =>
    let v := q.rrVc
    let next (q : Port) : Port := { q with rrVc := if v ≥ 7 then 1 else v + 1, rrOpen := false }
    match startOf s q v with
    | none => pickBulk s n (next (if (q.headOf v).isSome then q else { q with deficit := Sparse.set 0 q.deficit v 0 }))
    | some k =>
      if !creditsMeet q k then pickBulk s n (next q)
      else
        let q1 := if q.rrOpen then q
          else { q with deficit := Sparse.modify 0 q.deficit v (· + vcWeight s v * 34), rrOpen := true }
        if k.pkt.len ≤ Sparse.get 0 q1.deficit v then
          ({ q1 with deficit := Sparse.modify 0 q1.deficit v (· - k.pkt.len), queues := q1.queues.erase k }, some k)
        else pickBulk s n (next q1)

/-- A flit of a bulk packet, while no LCF is due: the packet in progress, or the next one chosen. The answer says
whether a flit was sent; where none is chosen the round has still passed the VCs. -/
def pumpBulk (p : Nat) (s : State) : Bool × State :=
  let q := portOf s p
  if lcfDue s p || q.bulkSent ≥ s.pwr.capN.toNat then (false, s)
  else match q.current with
    | some (k, i) =>
      let s1 := sendFlit p k.pkt i s
      (true, if i + 1 ≥ k.pkt.len then leaveBuffer k.pkt (meetTag k.pkt.tag (mPort p (fun q => { q with current := none }) s1))
        else mPort p (fun q => { q with current := some (k, i + 1) }) s1)
    | none =>
      match pickBulk s 8 q with
      | (q1, none) => (false, mPort p (fun _ => q1) s)
      | (q1, some k) => (true, sendFlit p k.pkt 0 (mPort p (fun _ => { q1 with current := some (k, 1) }) s))

/-- One flit of the sending order of R114 after replays: the oldest band flit that has its credits, or a bulk flit. -/
def pumpOne (p : Nat) (s : State) : Bool × State :=
  let q := portOf s p
  if !txRoom s p then (false, s)
  else match q.queues.find? fun k => k.pkt.vc == 0 && creditsMeet q k with
  | some b =>
    (true, leaveBuffer b.pkt (meetTag b.pkt.tag
      (sendFlit p b.pkt 0 (mPort p (fun q => { q with queues := q.queues.erase b }) s))))
  | none => pumpBulk p s

/-- Send what may be sent, until the LCF is due or nothing is ready. -/
def pumpAux (p : Nat) : Nat → State → State
  | 0, s => s
  | n + 1, s =>
    let r := pumpOne p s
    if r.1 then pumpAux p n r.2 else r.2

def pump (p : Nat) (s : State) : State := if portUp s p && !fenced s then settleHold (pumpAux p 64 s) else s

/-- Queue a packet toward a port (13 R395: discarded while the link is down after having been up; a port that has not
been up since reset keeps it waiting). In a replay it leaves at once (12 R381). -/
def queueTo (p : Nat) (k : Packet) (enter : Bool) (s : State) : State :=
  if fenced s then
    leaveBuffer k (meetTag k.tag
      (bump pgRru (·.rru.fencedOut) (fun v => mRru fun r => { r with fencedOut := v }) 1 s))
  else if (portOf s p).st = 6 || (!(portOf s p).lost && portEn s p && (portOf s p).st != 7) then
    pump p (mPort p (fun q => { q with queues := q.queues ++ [⟨k, enter⟩], sentVc := Sparse.set false q.sentVc k.vc true }) s)
  else leaveBuffer k (discardPkt k s)

/-- Bytes 0 to 111 of an LCF (R112). -/
def lcfBytes (count : Nat) (nak : Option W32) (seq ack : W32) (credits : List Nat) (demand : Nat) (release : List Nat) : List Byte :=
  leBytes 4 0 ++ [1, BitVec.ofNat 8 count, BitVec.ofNat 8 (b2n nak.isSome), 0] ++ leBytes 4 seq.toNat ++
    leBytes 4 ack.toNat ++ leBytes 4 (nak.getD 0).toNat ++ credits.flatMap (leBytes 2) ++ [BitVec.ofNat 8 demand, 0] ++
    release.flatMap (leBytes 2) ++ List.replicate 58 0

/-- Compose CREDIT for a VC, steps 1 and 2 of R118: the freed flits returned to it and those for the pool, then the
credits released. -/
def grantOne (s : State) (p : Nat) (q : Port) (v : Nat) : Nat × Port :=
  let g := Sparse.get 0 q.grants v
  let f := Sparse.get 0 q.freed v
  let lim := if !q.pooled then g + f
    else if bit q.demandIn.toNat v then max (vcFloor q v) (vcCap s p v) else vcFloor q v
  let back := min f (lim - g)
  let rel := if q.pooled then min (Sparse.get 0 q.toGrant v) (g + back) else 0
  (back, { q with
    grants := Sparse.set 0 q.grants v (g + back - rel), freed := Sparse.set 0 q.freed v 0,
    toGrant := Sparse.set 0 q.toGrant v 0, pool := q.pool + (f - back) + rel })

/-- Step 3 of R118 for one VC. -/
def grantBlock (s : State) (p : Nat) (q : Port) (v : Nat) : Nat × Port :=
  let g := Sparse.get 0 q.grants v
  let n := min 34 (vcCap s p v - g)
  if q.pooled && v ≥ 1 && bit q.demandIn.toNat v && n > 0 && n ≤ q.pool then
    (n, { q with grants := Sparse.set 0 q.grants v (g + n), pool := q.pool - n })
  else (0, q)

/-- CREDIT of every VC and the receive side that results (R118). -/
def composeCredits (s : State) (p : Nat) (q : Port) : List Nat × Port :=
  let a := (List.range 8).foldl (fun (acc : List Nat × Port) v => let r := grantOne s p acc.2 v; (acc.1 ++ [r.1], r.2)) ([], q)
  let b := (List.range 8).foldl (fun (acc : List Nat × Port) v => let r := grantBlock s p acc.2 v; (acc.1 ++ [r.1], r.2)) ([], a.2)
  (List.zipWith (· + ·) a.1 b.1, b.2)

/-- DEMAND: VCs with a packet that waits for credits (R119). -/
def demandOut (q : Port) : Nat :=
  if !q.pooled then 0
  else (List.range 8).foldl (fun m v =>
    match q.headOf v with
    | none => m
    | some k => if !creditsMeet q k then m + 2 ^ v else m) 0

/-- Credits a sender hands back: those above the floor of a VC idle for the whole frame (R119). -/
def releaseOut (q : Port) : List Nat :=
  (List.range 8).map fun v =>
    if q.pooled && !Sparse.get false q.sentVc v && !q.busyOn v then Sparse.get 0 q.credits v - vcFloor q v else 0

/-- Send the LCF that closes the frame (R111, R112; 14 R423). -/
def lcfEmit (p : Nat) (s : State) : State :=
  let s1 := txFrameStart p s
  let q := portOf s1 p
  let cr := if fenced s1 then (List.replicate 8 0, q) else composeCredits s1 p q
  let rel := releaseOut q
  let body := lcfBytes q.txFlits.length q.nakDue q.txSeq q.ackSeq cr.1 (demandOut q) rel
  let aad := (q.txFlits.flatMap fun f => leBytes 4 f.word.toNat) ++ body
  let tag := gcmTag (gcmKeys s1 p false q.txEpoch) (frameIv s1 p false q.txEpoch q.txSeq) aad (q.txFlits.flatMap TFlit.cipher)
  let fr : Frame := { seq := q.txSeq, flits := q.txFlits, lcf := some (body ++ tag), replays := q.openReplays, epoch := q.txEpoch }
  let q2 : Port := { cr.2 with
    wire := cr.2.wire ++ [body ++ tag], retry := cr.2.retry ++ [fr], txSeq := q.txSeq + 1, txFlits := [],
    openReplays := 0, txF := cr.2.txF + 1, lcfSlot := slotNow s1, lcfSent := true, nakDue := none,
    ackTick := if q.retry.isEmpty then s1.tick else q.ackTick,
    credits := (List.range 8).foldl (fun m v => Sparse.modify 0 m v (· - rel.getD v 0)) cr.2.credits,
    sentVc := (List.range 8).foldl (fun m v => Sparse.set false m v (cr.2.busyOn v)) [] }
  let s2 := mPort p (fun _ => q2) s1
  if q.nakDue.isSome then countNakSent p s2 else s2

/-- The port enters UP (04 R126; 15 R459). -/
def linkUp (p : Nat) (s : State) : State :=
  let q := portOf s p
  if q.st = 5 && q.lcfSent && q.lcfRcvd then
    pump p (portMessage p cOk 6 (mPort p (fun q => { q with st := 6, attempts := 0, lost := false, stateTick := s.tick }) s))
  else s

/-- Both keys of a port in KEYS are loaded (R126). -/
def keysLoaded (s : State) (p : Nat) : Bool :=
  let q := portOf s p
  (keyAt s (keyIndex p false q.txEpoch)).loaded && (keyAt s (keyIndex p true q.rxEpoch)).loaded

/-- A link that carries frames: UP, or in KEYS with both keys. -/
def framing (s : State) (p : Nat) : Bool := portUp s p || ((portOf s p).st == 5 && keysLoaded s p)

/-- LCF_SEND: the LCF is sent when it is due and its frame's key is loaded. DESIGN CHOICE: while the retry buffer has no
room for it, it waits (log 65). -/
def lcfSend (p : Nat) (s : State) : State :=
  if framing s p && txKeyReady s p && lcfDue s p && retryHeld (portOf s p) < retryFlits then pump p (linkUp p (lcfEmit p s)) else s

def execLcfSend (port : Fin 10) (s : State) : Host.Outcome State Fault Refusal := .next (lcfSend port.val s)

/-! ### Replay (R122 to R124) -/

def frameBytes (f : Frame) : List (List Byte) :=
  f.flits.map (fun t => leBytes 4 t.word.toNat ++ t.cipher) ++ f.lcf.toList

/-- Replay from a frame on: the flits of the frame that is still open go last. -/
def replayFrames (p : Nat) (from_ : W32) (s : State) : State :=
  mPort p (fun q =>
    let again := q.retry.filter fun f => serialGe f.seq from_
    { q with
      wire := q.wire ++ again.flatMap frameBytes ++ q.txFlits.map (fun t => leBytes 4 t.word.toNat ++ t.cipher),
      retry := q.retry.map fun f => if serialGe f.seq from_ then { f with replays := f.replays + 1 } else f,
      openReplays := if q.txFlits.isEmpty then 0 else q.openReplays + 1,
      ackTick := s.tick }) s

/-- A NAK or a timeout asks for a replay; a frame replayed MAX_NAK times in a row takes the link down (R124). -/
def askReplay (p : Nat) (from_ : W32) (s : State) : State :=
  let q := portOf s p
  if q.openReplays ≥ maxNak s || q.retry.any (fun f => serialGe f.seq from_ && f.replays ≥ maxNak s) then
    linkDown p (some cLinkRetryExhausted) true false s
  else countNakRcvd p (replayFrames p from_ s)

/-- RETRY_TIMEOUT (R123). A tick is 4,000 units of 10 ps. -/
def retryTimeout (p : Nat) (s : State) : State :=
  let q := portOf s p
  match q.retry with
  | [] => s
  | f :: _ =>
    if framing s p && (s.tick - q.ackTick) * 4000 ≥ max 1 s.lnk.timeoutLoops.toNat * creditLoop s p then askReplay p f.seq s else s

def execRetryTimeout (port : Fin 10) (s : State) : Host.Outcome State Fault Refusal := .next (retryTimeout port.val s)

/-! ### Receiving -/

/-- The PHY or an injected fault marks the flit uncorrectable (04 R121; 13 R417 kind 6). -/
def injectedBad (s : State) (p : Nat) : Bool := injOn s 6 && bits s.flt.injTarget.toNat 3 0 == p

/-- Discard an uncorrectable flit: everything after it waits for the replay, which the next LCF asks for. DEDUCED: the
frame it names is the one the receiver expects, also when the flit is one of a replay (log 66). -/
def badFlit (p : Nat) (s : State) : State := mPort p (fun q => { q with discarding := true, nakDue := some q.rxSeq }) s

/-- A received packet that is whole goes to the router input of its port, or is dropped by the fence of a replay. -/
def landPacket (p : Nat) (k : Packet) (seq : W32) (s : State) : State :=
  if fenced s then leaveBuffer k s
  else
    let s1 := mRtr (fun r => { r with inputs := Sparse.modify [] r.inputs p (· ++ [k]) }) s
    if k.dst = s.rtr.phys then mPort p (fun q => { q with captures := q.captures ++ [(k, seq)] }) s1 else s1

/-- Discard n flits of a VC under R110. -/
def protocolDrop (p v n : Nat) (s : State) : State :=
  let s1 := mPort p (fun q =>
    { q with
      failCode := cLinkProtocol, grants := Sparse.modify 0 q.grants v (· - n),
      freed := Sparse.modify 0 q.freed v (· + n) }) s
  countDup p n s1

/-- Discard the packet in progress: its flits are given back on its own VC. -/
def dropPartial (p : Nat) (s : State) : State :=
  match (portOf s p).partial_ with
  | [] => s
  | (v0, _, _, i) :: _ => protocolDrop p v0 i (mPort p (fun q => { q with partial_ := [] }) s)

def ptypeKnown (t : Nat) : Bool := (1 ≤ t && t ≤ 5) || t == ptBand

/-- Reassembly of packets from accepted flits (R108 to R110). DESIGN CHOICE: a head flit that comes while a packet is in
progress is discarded with it (log 67). -/
def reassemble (p : Nat) (seq w : W32) (body : List Byte) (s : State) : State :=
  let kind := bits w.toNat 1 0
  let v := bits w.toNat 4 2
  let last := bit w.toNat 5
  let idx := bits w.toNat 11 6
  let ok (k : Packet) : Bool := ptypeKnown k.ptype && k.len == ptypeLen k.ptype
  if kind = 3 then
    let k := Packet.ofBodies v s.ccc.toNat p body
    if ok k && k.isBand && idx = 0 && last then landPacket p k seq s else protocolDrop p v 1 s
  else if kind = 1 then
    let k := Packet.ofBodies v s.ccc.toNat p body
    if ok k && !k.isBand && idx = 0 && !last && (portOf s p).partial_.isEmpty then
      mPort p (fun q => { q with partial_ := [(v, k, body, 1)] }) s
    else protocolDrop p v 1 (dropPartial p s)
  else
    match (portOf s p).partial_ with
    | [] => protocolDrop p v 1 s
    | (v0, k, b, i) :: _ =>
      if v0 = v && idx = i && last = (decide (i + 1 = k.len)) then
        if last then
          let whole := { Packet.ofBodies v k.ccc p (b ++ body) with ccc := k.ccc }
          landPacket p whole seq (mPort p (fun q => { q with partial_ := [] }) s)
        else mPort p (fun q => { q with partial_ := [(v0, k, b ++ body, i + 1)] }) s
      else protocolDrop p v 1 (dropPartial p s)

/-- A frame falls to a receive key that is not loaded (14 R428). -/
def keyMissing (p : Nat) (s : State) : State := raiseSecurity cKeyTimeout (linkDown p (some cKeyTimeout) false false s)

/-- What every received flit does before it is looked at: corrected symbols and flits marked uncorrectable are counted
(R133), and an injected fault that marks the flit fires. The answer says whether the flit is uncorrectable. -/
def meetFlit (p : Nat) (uncorrectable : Bool) (fec : Nat) (s : State) : Bool × State :=
  let inj := injectedBad s p
  let s1 := countFec p fec (if inj then fireInject s else s)
  (uncorrectable || inj, if uncorrectable || inj then countUncorr p s1 else s1)

/-- FLIT_RECEIVE: frame and index give the flit's place in the direction's stream (log 15). A flit of KIND 0 is link
control and no traffic flit (R106). -/
def flitReceive (p : Nat) (flit : BitVec 1024) (frame : W32) (index : Nat) (uncorrectable : Bool) (fec : Nat) (s0 : State) : State :=
  let r := meetFlit p uncorrectable fec s0
  let s := r.2
  let q := portOf s p
  let bytes := leBytes 128 flit.toNat
  if !portUp s p then s
  else if r.1 then badFlit p s
  else if leAt bytes 0 1 % 4 = 0 then s
  else if serialGt q.rxSeq frame then countDup p 1 s
  else if frame != q.rxSeq || index != q.rxIdx then s
  else if !rxKeyReady s p then keyMissing p s
  else
    let s1 := rxFrameStart p s
    let e := (portOf s1 p).rxEpoch
    let w := BitVec.ofNat 32 (leAt bytes 0 4)
    let cipher := slice bytes 4 124
    let clear := gcmCrypt (gcmKeys s1 p true e) (frameIv s1 p true e q.rxSeq) (124 * q.rxIdx) cipher
    let s2 := mPort p (fun q =>
      { q with rxFlits := q.rxFlits ++ [⟨w, cipher⟩], rxIdx := q.rxIdx + 1, rxF := q.rxF + 1, discarding := false }) s1
    let s3 := if fenced s2 then bump pgRru (·.rru.fencedIn) (fun v => mRru fun r => { r with fencedIn := v }) 1 s2 else s2
    reassemble p q.rxSeq w clear s3

def execFlitReceive (port : Fin 10) (flit : BitVec 1024) (frame : W32) (index : Fin 63) (uncorrectable : Bool) (fecCorr : Byte)
    (s : State) : Host.Outcome State Fault Refusal :=
  .next (flitReceive port.val flit frame index.val uncorrectable fecCorr.toNat s)

/-- Write the records of the packets of a frame that passed its check (12 R375 to R377). -/
def capturePacket (k : Packet) (s : State) : State :=
  let head := slice (k.flitBody 0) 0 16
  if k.isBand then captureRec k.ccc 2 k.inport k.vc (head ++ slice k.body 0 96) none s
  else
    let pay := if k.ptype = ptMirror && !s.rru.mirrorPay then none else some (slice k.body 104 4096)
    captureRec k.ccc 1 k.inport k.vc (head ++ slice k.body 0 32 ++ slice k.body 40 64) pay s

/-- The log entry of a tag failure (14 R444). -/
def authLogWord (s : State) (p : Nat) (halted : Bool) : W32 :=
  BitVec.ofNat 32 (p + b2n s.opt.voted * 16 + b2n halted * 32 + s.opt.step.toNat * 256 + 2 ^ 31)

/-- A frame's tag fails (14 R430). -/
def authFail (p : Nat) (seq : W32) (s : State) : State :=
  let s1 := linkDown p (some cLinkAuthFailed) false false s
  let s2 := bump pgLsu (fun s => (portOf s p).authFails) (fun v => mPort p fun q => { q with authFails := v }) 1 s1
  let s3 := if s2.lsu.authLog.getLsbD 31 then s2
    else mLsu (fun l => { l with authLog := authLogWord s2 p s2.opt.en, authLogSeq := seq, authLogCcc := stamp s2 }) s2
  let s4 := if s3.opt.en then haltWith cLinkAuthFailed (mOpt (fun o => { o with authHalt := true, commitWait := none }) s3) else s3
  raiseFault cLinkAuthFailed p 0 false (raiseSecurity cLinkAuthFailed s4)

/-- Apply an LCF's acknowledgement: frames up to ACK_SEQ are freed (R120). -/
def applyAck (p : Nat) (ack : W32) (s : State) : State :=
  mPort p (fun q =>
    let left := q.retry.filter fun f => !serialGe ack f.seq
    if left.length < q.retry.length then { q with retry := left, ackTick := s.tick } else q) s

/-- Apply a frame that passed its check: credits, demand, release, acknowledgement and NAK (R112, R118, R120, R122).
DESIGN CHOICE: the RELEASE of several LCFs received between two sent is summed, so that no credit is lost (log 68). -/
def applyLcf (p : Nat) (b : List Byte) (s : State) : State :=
  let s1 := mPort p (fun q =>
    { q with
      credits := (List.range 8).foldl (fun m v => Sparse.modify 0 m v (· + leAt b (20 + 2 * v) 2)) q.credits,
      demandIn := if q.pooled then byteAt b 36 else 0,
      toGrant := if q.pooled then (List.range 8).foldl (fun m v => Sparse.modify 0 m v (· + leAt b (38 + 2 * v) 2)) q.toGrant
        else [],
      lcfRcvd := true }) s
  let s2 := applyAck p (BitVec.ofNat 32 (leAt b 12 4)) s1
  if bit (leAt b 6 1) 0 then askReplay p (BitVec.ofNat 32 (leAt b 16 4)) s2 else s2

/-- A frame's tag over the flits accepted and LCF bytes 0 to 111 (14 R423). -/
def frameTag (s : State) (p : Nat) (lcf : List Byte) : List Byte :=
  let q := portOf s p
  gcmTag (gcmKeys s p true q.rxEpoch) (frameIv s p true q.rxEpoch q.rxSeq)
    ((q.rxFlits.flatMap fun f => leBytes 4 f.word.toNat) ++ slice lcf 0 112) (q.rxFlits.flatMap TFlit.cipher)

/-- The frame passes: its records are written, the next frame is expected, a COMMIT that awaited it awaits it no more. -/
def passFrame (p : Nat) (seq : W32) (s : State) : State :=
  let mine := (portOf s p).captures.filter fun c => c.2 == seq
  let s1 := mPort p (fun q =>
    { q with
      rxSeq := seq + 1, rxIdx := 0, rxFlits := [], rxF := q.rxF + 1, ackSeq := seq, discarding := false,
      captures := q.captures.filter fun c => c.2 != seq }) s
  let s2 := mOpt (fun o => { o with commitWait := o.commitWait.map fun w => (w.1, w.2.filter fun f => f != (p, seq)) }) s1
  foldS mine s2 fun c s => capturePacket c.1 s

/-- LCF_RECEIVE (R113, R121, R123; 14 R427, R430). -/
def lcfReceive (p : Nat) (flit : BitVec 1024) (uncorrectable : Bool) (fec : Nat) (s0 : State) : State :=
  let r := meetFlit p uncorrectable fec s0
  let s := r.2
  let q := portOf s p
  let b := leBytes 128 flit.toNat
  let seq : W32 := BitVec.ofNat 32 (leAt b 8 4)
  if !framing s p then s
  else if r.1 then badFlit p s
  else if leAt b 0 1 % 4 != 0 || leAt b 4 1 != 1 then s
  else if serialGt q.rxSeq seq then countDup p 1 s
  else if seq != q.rxSeq || (q.discarding && leAt b 5 1 != q.rxIdx) then s
  else if !rxKeyReady s p then keyMissing p s
  else
    let s1 := rxFrameStart p s
    if frameTag s1 p b != slice b 112 16 then authFail p seq s1
    else pump p (linkUp p (applyLcf p b (passFrame p seq s1)))

def execLcfReceive (port : Fin 10) (flit : PhyFlit) (uncorrectable : Bool) (s : State) :
    Host.Outcome State Fault Refusal :=
  .next (lcfReceive port.val flit.bits uncorrectable flit.fecCorr.toNat s)

end Sys2Proof.Machine
end

