-- ==== Sys2Proof/Machine/Router.lean ====
section
/-! DEFINITION. Machine/Router.lean: the router: HEADER_ROUTE, the hold of local injection, its release with the trees,
and RING_MAP_WRITE (03 R76, R82 to R92; 11 R352). -/

namespace Sys2Proof.Machine

/-! ### Ring map and hold -/

/-- The refusals of R76. -/
def ringMapBad (s : State) (e : RingMap) : Bool :=
  let l := s.rtr.ringLen
  e.x0.toNat ≥ l || e.excluded == e.x0 || (e.excluded.toNat ≥ l && e.excluded != 31) ||
    (e.excluded == 31 && s.rtr.spare) || (e.excluded != 31 && !s.rtr.spare) || (e.dead && e.excluded == 31)

/-- RING_MAP_WRITE: accepted only while HOLD_DONE is 1 (R90). -/
def ringMapWrite (v : W32) (s : State) : State :=
  let e : RingMap := { excluded := v.extractLsb' 0 5, x0 := v.extractLsb' 5 5, dead := v.getLsbD 10 }
  if !s.rtr.holdDone || ringMapBad s e then pageErr pgRtr cConfigInvalid s
  else mRtr (fun r => { r with ringMap := Sparse.set {} r.ringMap r.ringIndex.toNat e }) s

def execRingMapWrite (value : W32) (s : State) : Host.Outcome State Fault Refusal :=
  .next (if fabricOn s then ringMapWrite value s else holdAccess 5 (.ringMapWrite value) s)

/-- ROUTE_HOLD: HOLD is set; HOLD_DONE rises by its own command (R90). -/
def routeHold (s : State) : State :=
  mRtr (fun r => { r with hold := true }) s

def execRouteHold (s : State) : Host.Outcome State Fault Refusal :=
  .next (if fabricOn s then routeHold s else holdAccess 5 .routeHold s)

def holdDone (s : State) : State :=
  if s.rtr.hold && !injecting s then mRtr (fun r => { r with holdDone := true }) s else s

def execHoldDone (s : State) : Host.Outcome State Fault Refusal :=
  .next (if fabricOn s then holdDone s else s)

/-- The machine and domain trees as this chip's maps give them (11 R352). -/
def scopeTree (s : State) (chan : Nat) : Tree :=
  let crown := s.rtr.crownOf chan 0
  s.rtr.tree (s.rtr.participants chan 0 crown) crown

def pumpAll (s : State) : State := foldS (List.range 10) s pump

/-- ROUTE_HOLD_RELEASE: injection resumes, and the sequencer computes both trees (11 R352). -/
def routeHoldRelease (s : State) : State :=
  let s1 := settleHold (mRtr (fun r => { r with hold := false }) s)
  pumpAll (mSyn (fun y => { y with treeMachine := (scopeTree s1 0).word, treeDomain := (scopeTree s1 16).word }) s1)

def execRouteHoldRelease (s : State) : Host.Outcome State Fault Refusal :=
  .next (if fabricOn s then routeHoldRelease s else holdAccess 5 .routeHoldRelease s)

/-! ### Routing decisions -/

/-- The axis of a port's ring. -/
def portAxis (p : Nat) : Nat := if p ≥ 8 then 0 else p / 2

/-- A packet enters a ring when injected, on a new leg, and at a sidestep (R84). -/
def entersRing (k : Packet) (h : Hop) : Bool := k.inport ≥ 10 || h.side || portAxis k.inport != portAxis h.port

/-- What the router does with a header. -/
inductive RouteDecision where
  | deliver
  | drop
  | wait
  | go (port : Nat) (enter : Bool) (vc : Nat) (on7 : Bool) (counted : Bool)
deriving DecidableEq, Repr

/-- The productive hops of an adaptive packet (R86), in the order that breaks ties. -/
def adaptiveHops (r : Rtr) (here dst : Coord) : List Hop :=
  let axis (a : Nat) : List Hop :=
    let n := r.size a
    let d := ringDist n (here.get a) (dst.get a)
    let hop (plus : Bool) : Hop := ⟨axisPort a plus, here.set a (ringStep n (here.get a) plus), false⟩
    if d = 0 then [] else if 2 * d = n then [hop true, hop false] else [hop (decide (2 * d < n))]
  let l := axis 3 ++ axis 2 ++ axis 1
  if l.isEmpty then (if here.x = dst.x then [] else [r.xHop here dst.x]) else l

/-- A hop's credits on a VC meet R84. -/
def hopCredits (s : State) (k : Packet) (v : Nat) (h : Hop) : Bool :=
  Sparse.get 0 (portOf s h.port).credits v ≥ ringCredits v (entersRing k h)

/-- A candidate is eligible: its next chip neither dead nor excluded, the link ADAPT, credits under R84. -/
def eligible (s : State) (k : Packet) (h : Hop) : Bool :=
  !s.rtr.isExcl h.next && portUp s h.port && (portOf s h.port).agreedCaps.getLsbD 0 && hopCredits s k k.vc h

/-- The candidate with the most credits; the first of equals (R86). -/
def bestHop (s : State) (k : Packet) : List Hop → Option Hop
  | [] => none
  | h :: rest =>
    match bestHop s k rest with
    | none => some h
    | some b => if Sparse.get 0 (portOf s b.port).credits k.vc > Sparse.get 0 (portOf s h.port).credits k.vc then some b else some h

/-- The own virtual channel of a packet of a session (05 R157); the packet does not carry it (log 42). -/
def ownVc (s : State) (k : Packet) : Nat :=
  match (slotOfGsid s k.session).bind (slot? s) with
  | some x => x.d.vc
  | none => (Config.ownVc k.session (k.src.word k.srcGen)).val + 1

/-- A packet of R86 that has moved to VC7: it stays there. A packet on VC7 that is not adaptively routed made a sidestep
(04 R109). -/
def movedTo7 (k : Packet) : Bool := bit k.flags 1 && bit k.flags 0

/-- After a sidestep hop a packet returns to its own virtual channel (R85). -/
def afterSidestep (s : State) (k : Packet) : Packet :=
  if bit k.flags 1 && !bit k.flags 0 then { k with vc := ownVc s k, flags := k.flags - 2 } else k

/-- A discard of R91 whatever hop is next: no such destination. -/
def noSuchPlace (s : State) (k : Packet) : Bool := s.rtr.outside k.dst || s.rtr.isDead k.dst

/-- The next hop of a packet at this chip (R72, R83 to R91). -/
def decideRoute (s : State) (k0 : Packet) : RouteDecision :=
  let k := afterSidestep s k0
  let here := s.rtr.phys
  if noSuchPlace s k then .drop
  else if k.dst = here then
    if !k.isBand && k.gen != s.rtr.mapGen.toNat then .drop else .deliver
  else if k.hops ≥ 128 then .drop
  else if !s.rtr.shapeOk then .wait
  else match s.rtr.route here k.dst with
    | none => .drop
    | some h =>
      let side := h.side && !k.isBand
      let fixed : RouteDecision := .go h.port (entersRing k h) (if side then 7 else k.vc) (side || movedTo7 k) false
      if k.isBand || movedTo7 k || !bit k.flags 0 || !s.rtr.adaptEn then fixed
      else
        let el := (adaptiveHops s.rtr here k.dst).filter (eligible s k)
        match bestHop s k el with
        | some b => .go b.port (entersRing k b) k.vc false (el.length ≥ 2)
        | none =>
          if (portUp s h.port && hopCredits s k 7 h) || fenced s then .go h.port (entersRing k h) 7 true true
          else if !portUp s h.port && (portOf s h.port).lost then fixed
          else .wait

/-- The link lacks the capability that a packet's type needs (04 R130). -/
def capLacks (s : State) (p : Nat) (k : Packet) : Bool :=
  (k.ptype == ptPair && !(portOf s p).agreedCaps.getLsbD 1) || (k.ptype == ptTopk && !(portOf s p).agreedCaps.getLsbD 2)

/-- A local bulk packet may be routed: no hold, its source read has returned. -/
def mayInject (s : State) (k : Packet) : Bool :=
  k.isBand || k.inport != 10 || (!s.rtr.hold && !k.reads.any (readOut s))

/-- The packet that a router input gives up next: band first, else the first bulk packet of its channel that can go. -/
def nextHeader (s : State) (l : List Packet) : Option Packet :=
  match l.find? fun k => k.isBand && decideRoute s k != .wait with
  | some b => some b
  | none =>
    (List.range 8).filterMap (fun v => l.find? fun k => k.vc == v) |>.find? fun k =>
      mayInject s k && decideRoute s k != .wait

/-- A band packet of a reserved type is discarded (11 R349). -/
def bandReserved (k : Packet) : Bool :=
  match k.band.msg with
  | .reserved _ => true
  | _ => false

/-- HEADER_ROUTE: the next packet of an input is delivered, discarded or queued toward its port. A band flit delivered here
is a wake source (15 R456). -/
def headerRoute (i : Nat) (s : State) : State :=
  match nextHeader s (Sparse.get [] s.rtr.inputs i) with
  | none => s
  | some k =>
    let s1 := mRtr (fun r => { r with inputs := Sparse.modify [] r.inputs i (·.erase k) }) s
    match decideRoute s k with
    | .wait => s
    | .deliver =>
      if k.isBand && bandReserved k then leaveBuffer k (countBandDrop s1)
      else
        let s2 := leaveBuffer k (mRtr (fun r => { r with inbox := r.inbox ++ [k] }) s1)
        if k.isBand then wakeBy 2 s2 else s2
    | .drop => leaveBuffer k (discardPkt k s1)
    | .go p enter v on7 counted =>
      let s2 := if counted && !fenced s then choice 0 0 0 s1 else s1
      if capLacks s p k && !fenced s then leaveBuffer k (discardPkt k s2)
      else
        let k1 := { k with vc := v, hops := min 255 (k.hops + 1), flags := k.flags - 2 * b2n (bit k.flags 1) + 2 * b2n on7 }
        queueTo p k1 enter s2

def execHeaderRoute (input : Fin 11) (s : State) : Host.Outcome State Fault Refusal :=
  .next (if fabricOn s then headerRoute input.val s else s)

end Sys2Proof.Machine
end

