-- ==== Sys2Proof/Machine/Band.lean ====
section
/-! DEFINITION. Machine/Band.lean: channels: combining nodes, the crown, releases and what they complete: the commands
ARRIVE, RELEASE, CROWN_TIMEOUT, SIGNAL and REMOTE_SIGNAL_COMPLETE (11 R346 to R359). -/

namespace Sys2Proof.Machine

/-! ### Channels -/

def arrivedOf (s : State) (c : Nat) : W32 := Sparse.get 0 s.syn.arrived c
def releasedOf (s : State) (c : Nat) : W32 := Sparse.get 0 s.syn.released c
def lastOf (s : State) (c : Nat) : LastRelease := Sparse.get {} s.syn.lastRelease c

/-- The key of an entry: group channels are tagged with their crown (R353). -/
def crownKey (c : Nat) (crown : Coord) : Coord := if c < 32 then ⟨0, 0, 0, 0⟩ else crown

/-- The tree that an entry of a channel uses: the machine's or domain's in force, or the group's own (R352). -/
def chanTree (s : State) (e : Combine) : Tree :=
  if e.chan < 16 then Tree.ofWord s.syn.treeMachine.toNat
  else if e.chan < 32 then Tree.ofWord s.syn.treeDomain.toNat
  else e.tree

def groupTree (s : State) (c gsize : Nat) (crown : Coord) : Tree :=
  if c < 32 then ⟨[], none, false, 0⟩ else s.rtr.tree (s.rtr.participants c gsize crown) crown

/-- This chip takes part in the operation of a crown on a channel; a spare is in no group, and its COORD.X is not looked at
(03 R500, 11 R351). -/
def ownCrown (s : State) (c gsize : Nat) (crown : Coord) : Bool :=
  c < 32 || (!s.rtr.isSpare && crownKey c (s.rtr.crownOf c gsize) == crown)

/-- Send an ARRIVE or RELEASE out of one port to its neighbour, as one hop that enters a ring (03 R84). -/
def sendOut (port ctx : Nat) (step : W16) (m : BandMsg) (s : State) : State :=
  let k := mkPacket s s.rtr.self ptBand 0 0 0 (Band.body ⟨ctx, step, m⟩)
  queueTo port { k with dst := Coord.ofWord (portMapOf s port), hops := 1 } true s

/-! ### Combination (R353, R355) -/

def findEntry (s : State) (c : Nat) (crown : Coord) : Option Combine :=
  s.syn.combine.find? fun e => e.chan == c && e.crown == crown

def putEntry (e : Combine) (s : State) : State :=
  mSyn (fun y => { y with combine := y.combine.map fun f => if f.chan = e.chan && f.crown = e.crown then e else f }) s

def clearEntry (c : Nat) (crown : Coord) (s : State) : State :=
  mSyn (fun y => { y with combine := y.combine.filter fun e => !(e.chan == c && e.crown == crown) }) s

/-- The arrival a port gave, if any. -/
def Combine.from_ (e : Combine) (p : Nat) : Option Arrival := (e.arrivals.find? fun a => a.1 == p).map Prod.snd

/-- What the entry holds, combined: own value first, then the ports in ascending order. -/
def Combine.total (e : Combine) : Option Arrival :=
  match e.arrivals with
  | [] => none
  | (_, first) :: _ =>
    let order := (10 :: List.range 10).filterMap e.from_
    let value := match order with
      | [] => 0
      | a :: rest => if first.fmt = 15 then 0
          else rest.foldl (fun v b => BitVec.ofNat 32 (redOp first.op first.fmt v.toNat b.value.toNat)) a.value
    let st := order.foldl (fun t a => t.or a.status) BandStatus.zero
    some { first with
      status := { st with mismatch := st.mismatch || e.mismatch }, count := order.foldl (fun n a => n + a.count) 0,
      value := value }

/-- Every child port and, at a participant, the chip itself has arrived. -/
def Combine.complete (e : Combine) (t : Tree) : Bool :=
  t.children.all (fun p => (e.from_ p).isSome) && (!t.participant || (e.from_ 10).isSome)

/-- An arrival contradicts the entry (R355). -/
def arrivalClash (s : State) (e : Combine) (port ctx : Nat) (a : Arrival) : Bool :=
  let other := match e.arrivals with
    | [] => false
    | (_, f) :: _ => f.epoch != a.epoch || f.op != a.op || f.fmt != a.fmt || f.gsize != a.gsize || e.ctx != ctx
  other || (e.from_ port).isSome || (chanEn (chanCfg s a.chan) && chanCtx (chanCfg s a.chan) != ctx)

/-! ### Completion by a release (R357, R358) -/

/-- The code a result's STATUS gives. -/
def releaseCode (st : BandStatus) : W16 := if st.mismatch then cBarrierMismatch else if st.timeout then cSyncTimeout else cOk

/-- A barrier at a ring's head completes and applies its completion signal. -/
def barrierDone (r : Nat) (st : BandStatus) (s : State) : State :=
  match (ringOf s r).cur with
  | none => s
  | some d => headDone r (releaseCode st) 0 (doneSignal d (ringOf s r).ctx.toNat r s)

/-- A SCALAR_REDUCE's destination beat is written; the session retires at its WACK. -/
def scalarDone (slot : Nat) (st : BandStatus) (count : Nat) (value : W32) (s : State) : State :=
  match slot? s slot with
  | none => s
  | some x =>
    let bytes := leBytes 4 value.toNat ++ leBytes 2 count ++ [BitVec.ofNat 8 st.byte]
    empWrite (.session slot 7 none) (regAddr s x.ctx x.d.dstReg x.d.dstOff) bytes
      (mSlot slot (fun x => { x with rootDone := 1, code := releaseCode st, progTick := s.tick }) s)

/-- Rings whose head is a barrier on a channel. -/
def barrierRings (s : State) (c : Nat) : List Nat :=
  (s.que.rings.filter fun p => match p.2.headState with
    | .barrier k _ => k == c
    | _ => false).map Prod.fst

/-- SCALAR_REDUCE sessions that wait on a channel. -/
def scalarSlots (s : State) (c : Nat) : List Nat :=
  (s.ses.slots.filter fun p => p.2.d.opc == 0x07 && p.2.st == .run && p.2.rootDone == 0 && p.2.d.stageCfg % 64 == c).map Prod.fst

/-- A RELEASE at this chip: copied to the children, the entry cleared, the counts advanced, and applied (R353, R354). -/
def takeRelease (ctx : Nat) (step : W16) (a : Arrival) (s : State) : State :=
  let key := crownKey a.chan a.crown
  let t := match findEntry s a.chan key with
    | some e => chanTree s e
    | none => chanTree s ⟨a.chan, key, ctx, step, [], false, false, 0, groupTree s a.chan a.gsize a.crown⟩
  let s1 := clearEntry a.chan key (foldS t.children s fun p s => sendOut p ctx step (.release a) s)
  if !ownCrown s a.chan a.gsize a.crown then s1
  else
    let s2 := mSyn (fun y =>
      { y with
        released := Sparse.modify 0 y.released a.chan (· + 1),
        lastRelease := Sparse.set {} y.lastRelease a.chan
          { status := BitVec.ofNat 8 a.status.byte, count := BitVec.ofNat 16 a.count, value := a.value } }) s1
    if a.chan = 14 then stepVerdict a.status a.value s2
    else if a.chan = 15 then stepResult a.status step s2
    else
      let s3 := foldS (barrierRings s2 a.chan) s2 fun r s => barrierDone r a.status s
      foldS (scalarSlots s3 a.chan) s3 fun i s => scalarDone i a.status a.count a.value s

/-- The crown releases with what its entry holds (R353, R356). -/
def crownRelease (e : Combine) (timeout : Bool) (s : State) : State :=
  match e.total with
  | none => s
  | some a =>
    let t := chanTree s e
    let want := if e.chan < 32 then t.expect else s.rtr.groupSize ((e.chan - 32) / 8) a.gsize
    let st := a.status
    let st2 := if timeout then { st with timeout := true } else { st with mismatch := st.mismatch || a.count != want }
    takeRelease e.ctx e.step { a with status := st2 } s

/-- An entry that holds every arrival is forwarded to the parent, or released by the crown. -/
def advanceEntry (e : Combine) (s : State) : State :=
  let t := chanTree s e
  if e.sent || !e.complete t then s
  else match t.parent, e.total with
    | none, _ => crownRelease e false (putEntry { e with sent := true } s)
    | some p, some a => sendOut p e.ctx e.step (.arrive a) (putEntry { e with sent := true } s)
    | some _, none => s

/-- An arrival at this chip's node, from a port or, as port 10, of its own. -/
def takeArrival (port ctx : Nat) (step : W16) (a : Arrival) (s : State) : State :=
  let key := crownKey a.chan a.crown
  if serialGt (releasedOf s a.chan) a.epoch then
    bump pgSyn (·.syn.staleArrivals) (fun v => mSyn fun y => { y with staleArrivals := v }) 1 s
  else match findEntry s a.chan key with
  | some e =>
    let e1 := { e with
      mismatch := e.mismatch || arrivalClash s e port ctx a,
      arrivals := if (e.from_ port).isSome then e.arrivals else e.arrivals ++ [(port, a)] }
    advanceEntry e1 (putEntry e1 s)
  | none =>
    if a.chan ≥ 32 && (s.syn.combine.filter fun e => e.chan == a.chan).length ≥ 4 then countBandDrop s
    else
      let e0 : Combine := ⟨a.chan, key, ctx, step, [], false, false, s.tick, groupTree s a.chan a.gsize a.crown⟩
      let e := { e0 with mismatch := arrivalClash s e0 port ctx a, arrivals := [(port, a)] }
      advanceEntry e (mSyn (fun y => { y with combine := y.combine ++ [e] }) s)

/-! ### Local issue (R354) -/

/-- The channel's last arrival has not been released: a further issue waits. -/
def chanBusy (s : State) (c : Nat) : Bool := serialGt (arrivedOf s c) (releasedOf s c)
/-- A RELEASE came first: the issue completes at once with its result. -/
def chanAhead (s : State) (c : Nat) : Bool := serialGt (releasedOf s c) (arrivedOf s c)

def countArrived (c : Nat) (s : State) : State := mSyn (fun y => { y with arrived := Sparse.modify 0 y.arrived c (· + 1) }) s

/-- Issue this chip's arrival on a channel. -/
def issueArrival (c ctx : Nat) (step : W16) (op fmt gsize : Nat) (st : BandStatus) (value : W32) (s : State) : State :=
  let a : Arrival :=
    { chan := c, op := op, fmt := fmt, gsize := gsize, status := st, epoch := arrivedOf s c, count := 1, value := value,
      crown := crownKey c (s.rtr.crownOf c gsize) }
  takeArrival 10 ctx step a (countArrived c s)

/-! ### The commands -/

/-- ARRIVE: the oldest arrival at this chip is combined. -/
def arrive (s : State) : State :=
  match takeBand 0x02 s with
  | none => s
  | some (k, b, s1) => match b.msg with
    | .arrive a => takeArrival k.inport b.ctx b.step a s1
    | _ => s

def execArrive (s : State) : Host.Outcome State Fault Refusal :=
  .next (if fabricOn s then arrive s else s)

/-- RELEASE: the oldest release at this chip. -/
def release (s : State) : State :=
  match takeBand 0x03 s with
  | none => s
  | some (_, b, s1) => match b.msg with
    | .release a => takeRelease b.ctx b.step a s1
    | _ => s

def execRelease (s : State) : Host.Outcome State Fault Refusal :=
  .next (if fabricOn s then release s else s)

/-- The crown's entry of a channel whose timer has run out; in a replay, the one the record names. -/
def crownDue (s : State) (c : Nat) (forced : Bool) : Option Combine :=
  s.syn.combine.find? fun e => e.chan == c && !e.sent && (chanTree s e).parent.isNone &&
    (forced || (!s.rru.run && decide (s.tick - e.start ≥ s.syn.crownTimeout.toNat)))

/-- CROWN_TIMEOUT (R356; 12 R371 class 5). -/
def crownTimeout (c : Nat) (forced : Bool) (s : State) : State :=
  match crownDue s c forced with
  | none => s
  | some e => crownRelease e true (choice 5 0 0 (putEntry { e with sent := true } s))

def execCrownTimeout (chan : Fin 64) (s : State) : Host.Outcome State Fault Refusal :=
  .next (if fabricOn s then crownTimeout chan.val false s else s)

/-- Payload bytes of a held session that have landed, in its slot or as they stood when it parked. -/
def landedOf (s : State) (g : Nat) : Nat :=
  match slotOfGsid s g with
  | some i => ((slot? s i).map Session.landed).getD 0
  | none => ((parkOfGsid s g).bind fun b => (bktOf s b).park).elim 0 Park.landed

/-- Fenced SIGNALs in the pending table: those whose session is not held (R348). -/
def fencePending (s : State) : Nat := (s.syn.fenced.filter fun f => !gsidHeld s f.gsid).length

/-- SIGNAL: the oldest signal is applied, or held until its bytes have landed (R347, R348). -/
def signal (s : State) : State :=
  match takeBand 0x01 s with
  | none => s
  | some (k, b, s1) => match b.msg with
    | .signal obj set value need source =>
      let f : Fenced :=
        { gsid := k.session, need := need, ctx := b.ctx, obj := obj, set := set, value := value,
          source := source, chip := s.rtr.toLogical k.src }
      if need = 0 then applySignal f s1
      else if gsidHeld s1 f.gsid then
        (if need ≤ landedOf s1 f.gsid then applySignal f s1 else mSyn (fun y => { y with fenced := y.fenced ++ [f] }) s1)
      else if fencePending s1 ≥ 256 then
        raiseVec 256 (bump pgSyn (·.syn.fenceDrops) (fun v => mSyn fun y => { y with fenceDrops := v }) 1 s1)
      else mSyn (fun y => { y with fenced := y.fenced ++ [f] }) s1
    | _ => s

def execSignal (s : State) : Host.Outcome State Fault Refusal :=
  .next (if fabricOn s then signal s else s)

/-- A ring's remote signal still waits to be placed in a retry buffer. -/
def signalWaiting (s : State) (r : Nat) : Bool :=
  s.rtr.inputs.any (fun p => p.2.any fun k => k.ring == some r) ||
    s.lnk.ports.any fun p => p.2.outgoing.any fun k => k.ring == some r

/-- REMOTE_SIGNAL_COMPLETE: the flit of a ring's remote signal has been placed in the retry buffer (R346). -/
def remoteSignalComplete (r : Nat) (s : State) : State :=
  if (ringOf s r).headState = .remote && !signalWaiting s r then headDone r cOk 0 s else s

def execRemoteSignalComplete (ring : Fin 256) (s : State) : Host.Outcome State Fault Refusal :=
  .next (if ctlOn s then remoteSignalComplete ring.val s else s)

end Sys2Proof.Machine
end

