-- ==== Sys2Proof/Machine/Sync.lean ====
section
/-! DEFINITION. Machine/Sync.lean: the object store: segments, window primitives, monitors, timeouts, pre-emption and the
debugger's view (11 R333 to R345, R361 to R367). -/

namespace Sys2Proof.Machine

/-! ### Waiters (R333, R341, R342) -/

def waitsOn (h : HeadState) (p : Nat) : Bool :=
  match h with
  | .wait q _ => q == p
  | _ => false

def monitorOn (e : Nat × Monitor) (p : Nat) : Bool := e.2.armed && e.2.phys == p

/-- Waiters of an object by ascending identifier: rings, then 256 + context x 64 + monitor (R361). -/
def waitersOf (s : State) (p : Nat) : List Nat :=
  (s.que.rings.filter fun e => waitsOn e.2.headState p).map Prod.fst ++
    (s.syn.monitors.filter fun e => monitorOn e p).map fun e => 256 + e.1

/-- The object word (R333). -/
def objWord (s : State) (p : Nat) : W64 :=
  let o := objOf s p
  let st := match o.st with
    | .free => 0
    | .live => 1
    | .orphaned => 2
  BitVec.ofNat 64 (o.value.toNat + o.ctx.toNat * 2 ^ 32 + st * 2 ^ 38 + o.tmo.toNat * 2 ^ 40 +
    min 255 (waitersOf s p).length * 2 ^ 42 + b2n o.rewritten * 2 ^ 50)

/-! ### Segments (R336, R364) -/

/-- Objects of a range that are listed, with their numbers. -/
def objsIn (s : State) (p n : Nat) : List (Nat × Obj) := s.syn.objects.filter fun e => p ≤ e.1 && decide (e.1 < p + n)

def rangeFree (s : State) (p n : Nat) : Bool := (objsIn s p n).all fun e => e.2.st == .free
def rangeTaken (s : State) (p n : Nat) : Bool :=
  ((objsIn s p n).filter fun e => e.2.st != .free).length == n

/-- Replace the objects of a range by a function of their former values. -/
def mapRange (p n : Nat) (f : Obj → Obj) (s : State) : State :=
  let new := (List.range n).filterMap fun i =>
    let o := f (objOf s (p + i))
    if o = {} then none else some (p + i, o)
  mSyn (fun y =>
    { y with
      objects := (y.objects.filter fun e => decide (e.1 < p)) ++ new ++ y.objects.filter fun e => decide (p + n ≤ e.1) }) s

/-- Some waiter is on an object of a range. -/
def rangeWaited (s : State) (p n : Nat) : Bool :=
  s.que.rings.any (fun e => match e.2.headState with
    | .wait q _ => p ≤ q && decide (q < p + n)
    | _ => false) ||
  s.syn.monitors.any fun e => e.2.armed && p ≤ e.2.phys && decide (e.2.phys < p + n)

/-- An enabled wait segment overlaps a physical range. -/
def waitOverlap (s : State) (p n : Nat) : Bool :=
  s.syn.segments.any fun e => segEn e.2 && segWait e.2 && segP e.2 < p + n && decide (p < segP e.2 + segLen e.2)

/-- A range past the last object or the last virtual identifier, or an enabled segment of none (R364). -/
def segBad (v : W64) : Bool := segP v + segLen v > 2 ^ 18 || segV v + segLen v > 2 ^ 20 || (segEn v && segLen v == 0)

/-- Whether a segment may be disabled, and the state with its objects freed. -/
def segDisable (old : W64) (s : State) : Option State :=
  if segWait old then some s
  else if rangeWaited s (segP old) (segLen old) || waitOverlap s (segP old) (segLen old) then none
  else some (mapRange (segP old) (segLen old) (fun o => { o with st := .free, rewritten := false }) s)

def segEnable (ctx : Nat) (new : W64) (s : State) : Option State :=
  if segWait new then (if rangeTaken s (segP new) (segLen new) then some s else none)
  else if rangeFree s (segP new) (segLen new) then
    some (mapRange (segP new) (segLen new) (fun _ =>
      { value := 0, ctx := BitVec.ofNat 6 ctx, st := .live, tmo := BitVec.ofNat 2 (segTmo new), rewritten := false }) s)
  else none

/-- SEGMENT_WRITE to the segment that SEG_INDEX selects. -/
def segmentWrite (v0 : W64) (s : State) : State :=
  let ctx := bits s.syn.segIndex.toNat 21 16
  let i := ctx * 16 + bits s.syn.segIndex.toNat 3 0
  let v := v0 &&& BitVec.ofNat 64 (2 ^ 45 - 1 - 48)
  let old := Sparse.get 0 s.syn.segments i
  let put (s : State) : State := mSyn (fun y => { y with segments := Sparse.set 0 y.segments i v }) s
  let off (s : State) : State := mSyn (fun y => { y with segments := Sparse.set 0 y.segments i 0 }) s
  let done (r : Option State) : State := match r with
    | some t => put t
    | none => pageErr pgSyn cRegionBusy s
  if segBad v then pageErr pgSyn cConfigInvalid s
  else if !segEn old && !segEn v then put s
  else if !segEn old then done (segEnable ctx v s)
  else if !segEn v then done (segDisable old s)
  else if segWait old = segWait v && segP old = segP v && segLen old = segLen v then
    put (if segWait v then s else mapRange (segP v) (segLen v) (fun o => { o with tmo := BitVec.ofNat 2 (segTmo v) }) s)
  else done ((segDisable old s).bind fun t => segEnable ctx v (off t))

def execSegmentWrite (value : W64) (s : State) : Host.Outcome State Fault Refusal :=
  .next (if fabricOn s then segmentWrite value s else holdAccess 5 (.segmentWrite value) s)

/-! ### Window primitives (R337, R338, R366) -/

/-- A code that a window's blocks record. -/
def winRecord (c : Nat) (code : W16) (s : State) : State := mWin c (fun w => { w with code := code, winCode := code }) (reportCode code s)

def windowPrim (c : Nat) (set : Bool) (v : W32) (s : State) : State :=
  match translate s c (winOf s c).obj.toNat with
  | none => winRecord c cSyncIdUnmapped s
  | some (_, true) => winRecord c cAccessDenied s
  | some (p, false) => applyPrim p set v true c 320 s.rtr.self s

def windowSet (c : Nat) (v : W32) (s : State) : State := windowPrim c true v s
def windowAdd (c : Nat) (v : W32) (s : State) : State := windowPrim c false v s

def execWindowSet (ctx : Fin 64) (value : W32) (s : State) : Host.Outcome State Fault Refusal :=
  .next (if fabricOn s then windowSet ctx.val value s else holdAccess 5 (.windowSet ctx value) s)

def execWindowAdd (ctx : Fin 64) (value : W32) (s : State) : Host.Outcome State Fault Refusal :=
  .next (if fabricOn s then windowAdd ctx.val value s else holdAccess 5 (.windowAdd ctx value) s)

/-! ### Monitors (R342, R367) -/

/-- The codes of an arm's checks: the object, the fields, and the target as a destination. -/
def armCode (s : State) (c : Nat) (cfg target : Nat) : W16 :=
  if (translate s c (bits cfg 19 0)).isNone then cSyncIdUnmapped
  else if bits cfg 23 20 = 0 || bits cfg 23 20 > 6 then cFieldInvalid
  else if bit cfg 24 then cOk
  else
    let r := regionOf s c (bits target 47 40)
    let off := bits target 39 0
    if !r.valid || bits target 47 40 = 255 then cRegionInvalid
    else if off % 64 != 0 then cOffsetMisaligned
    else if !r.wr then cRegionPermission
    else if r.kind != 0 then cRegionKind
    else if off + 64 > r.len.toNat then cLengthExceedsRegion
    else cOk

/-- MONITOR_ARM: a write of MON_CFG, which disarms the selected monitor first and, with ARM = 1, arms it again. -/
def monitorArm (c : Nat) (v : W64) (s : State) : State :=
  let m := (winOf s c).monIndex.toNat
  let cfg := v &&& BitVec.ofNat 64 (2 ^ 64 - 1 - 2 ^ 25)
  let s1 := mMon c m (fun mo => { mo with cfg := cfg, armed := false }) s
  if !v.getLsbD 25 then s1
  else
    let code := armCode s1 c cfg.toNat (monOf s1 c m).target.toNat
    let s2 := mMon c m (fun mo => { mo with code := code }) s1
    if code != cOk then (if code = cSyncIdUnmapped then mWin c (fun w => { w with winCode := code }) s2 else s2)
    else
      match translate s2 c (bits cfg.toNat 19 0) with
      | some (p, _) =>
        let s3 := mMon c m (fun mo => { mo with armed := true, phys := p, start := s.tick }) s2
        if condHolds (bits cfg.toNat 23 20) (objOf s3 p).value (BitVec.ofNat 32 (bits cfg.toNat 63 32)) then fireMonitor c m cOk s3
        else s3
      | none => s2

def execMonitorArm (ctx : Fin 64) (value : W64) (s : State) : Host.Outcome State Fault Refusal :=
  .next (if fabricOn s then monitorArm ctx.val value s else holdAccess 5 (.monitorArm ctx value) s)

/-! ### Timeouts (R343) -/

/-- A timer has run out, or in a replay a record says so. -/
def timerOut (s : State) (start limit : Nat) (forced : Bool) : Bool := forced || (!s.rru.run && decide (s.tick - start ≥ limit))

def classTicks (s : State) (p : Nat) : Nat := (Sparse.get (25000 : BitVec 24) s.syn.timeouts (objOf s p).tmo.toNat).toNat

def timeoutCode (s : State) (p : Nat) : W16 := if (objOf s p).st = .orphaned then cOrphaned else cSyncTimeout

/-- Count a released waiter and report it. -/
def countTimeout (p : Nat) (code : W16) (s : State) : State :=
  let s1 := if code = cOrphaned then
      bump pgSyn (·.syn.orphanReleases) (fun v => mSyn fun y => { y with orphanReleases := v }) 1 s
    else bump pgSyn (·.syn.timeoutCount) (fun v => mSyn fun y => { y with timeoutCount := v }) 1 s
  raiseError code (choice 3 (code.toNat % 256) p s1)

/-- What a waiter waits on, from which tick, and the code its timeout gives: a barrier's wait has the class of its DONE_OBJ
(R357). -/
def waitOf (s : State) (w : Waiter) : Option (Nat × Nat × W16) :=
  match w with
  | .ring r =>
    match (ringOf s r.val).headState with
    | .wait p start => some (p, start, timeoutCode s p)
    | .barrier _ start => (ringOf s r.val).cur.bind fun d =>
      if d.doneMode = 2 then none
      else (translate s (ringOf s r.val).ctx.toNat d.doneObj).map fun x => (x.1, start, cSyncTimeout)
    | _ => none
  | .monitor c m =>
    let mo := monOf s c.val m.val
    if mo.armed then some (mo.phys, mo.start, timeoutCode s mo.phys) else none

/-- Release a waiter with a code (R343). -/
def releaseWaiter (w : Waiter) (code : W16) (s : State) : State :=
  match waitOf s w with
  | none => s
  | some (p, _, _) =>
    let s1 := countTimeout p code s
    match w with
    | .ring r => headDone r.val code 0 s1
    | .monitor c m => fireMonitor c.val m.val code s1

/-- SYNC_TIMEOUT of a waiter; in a replay, with the code that the record gives (12 R383). In doze and sleep the expiry is
noted and wakes the engine, and the release follows the wake (01 R36). -/
def syncTimeout (w : Waiter) (forced : Option W16) (s : State) : State :=
  match waitOf s w with
  | none => s
  | some (p, start, code) =>
    if forced.isSome then releaseWaiter w (forced.getD code) s
    else if !timerOut s start (classTicks s p) false then s
    else if ctlOn s then releaseWaiter w code s
    else if s.syn.expired.any (fun e => e.1 == w) then s
    else wakeBy 6 (mSyn (fun y => { y with expired := y.expired ++ [(w, code)] }) s)

/-- After the wake, the waiters whose timers ran out are released. -/
def releaseExpired (s : State) : State :=
  if ctlOn s then s.syn.expired.foldl (fun t e => releaseWaiter e.1 e.2 t) (mSyn (fun y => { y with expired := [] }) s) else s

def execSyncTimeout (waiter : Waiter) (s : State) : Host.Outcome State Fault Refusal := .next (syncTimeout waiter none s)

/-! ### Pre-emption (R344, R345) -/

def orphanAll (c : Nat) (s : State) : State :=
  mSyn (fun y => { y with objects := Sparse.mapAll {} y.objects fun _ o =>
    if o.ctx.toNat = c && o.st = .live then { o with st := .orphaned } else o }) s

/-- PREEMPT: the context's intake and sessions stop; its LIVE objects become ORPHANED. -/
def preempt (v : W32) (s : State) : State :=
  let c := bits v.toNat 5 0
  if v.getLsbD 8 then
    orphanAll c (mSyn (fun y => { y with preempted := y.preempted ||| (1#64 <<< c) }) s)
  else s

def execPreempt (value : W32) (s : State) : Host.Outcome State Fault Refusal :=
  .next (if fabricOn s then preempt value s else holdAccess 5 (.preempt value) s)

/-- RESUME: the context goes on; its orphaned objects that were not rewritten are LIVE again. -/
def resume (v : W32) (s : State) : State :=
  let c := bits v.toNat 5 0
  if v.getLsbD 9 then
    mSyn (fun y =>
      { y with
        preempted := y.preempted &&& ~~~(1#64 <<< c),
        objects := Sparse.mapAll {} y.objects fun _ o =>
          if o.ctx.toNat = c && o.st = .orphaned && !o.rewritten then { o with st := .live } else o }) s
  else s

def execResume (value : W32) (s : State) : Host.Outcome State Fault Refusal :=
  .next (if fabricOn s then resume value s else holdAccess 5 (.resume value) s)

/-! ### The debugger's view (R361) -/

def synDbgSelWrite (v : W32) (s : State) : State := mSyn (fun y => { y with dbgSel := v.extractLsb' 0 18, dbgNext := 0 }) s

def execSynDbgSelWrite (value : W32) (s : State) : Host.Outcome State Fault Refusal :=
  .next (if fabricOn s then synDbgSelWrite value s else holdAccess 5 (.synDbgSelWrite value) s)

/-- What SYN.DBG_WAITER reads. -/
def dbgWaiter (s : State) : W32 :=
  match (waitersOf s s.syn.dbgSel.toNat)[s.syn.dbgNext]? with
  | some w => BitVec.ofNat 32 (w + 2 ^ 31)
  | none => 0

/-- DBG_WAITER_READ returns the next waiter and advances the list; the value read is latched in the bus's read data. -/
def dbgWaiterRead (s : State) : State :=
  let v := dbgWaiter s
  mDbg (fun d => { d with readData := v }) (mSyn (fun y => { y with dbgNext := if v = 0 then y.dbgNext else y.dbgNext + 1 }) s)

def execDbgWaiterRead (s : State) : Host.Outcome State Fault Refusal :=
  .next (if fabricOn s then dbgWaiterRead s else holdAccess 5 .dbgWaiterRead s)

end Sys2Proof.Machine
end

