-- ==== Sys2Proof/Machine/Intake.lean ====
section
/-! DEFINITION. Machine/Intake.lean: tile ports, command rings, templates, regions, and the resolution of tail words
and descriptors into sessions (01 R16 to R18; 02 R39 to R42; 05 R142 to R180, R502, R503; 14 R439). -/
namespace Sys2Proof.Machine

/-! ### The sequencer takes work -/

/-- The intake rotation serves items: the sequencer runs, with its clocks, and no control loss stands (01 R21, 02 R42,
13 R390, 15 R455). -/
def intakeOn (s : State) : Bool := s.ctl.run && !s.ctl.restarting && awake s && !s.flt.ctlLost

/-! ### Tail words and CDATA (02 R39, R42; 05 R503) -/

def tailKind (w : W64) : Nat := bits w.toNat 63 62
def tailTpl (w : W64) : Nat := bits w.toNat 9 0
def tailInst (w : W64) : Nat := bits w.toNat 25 10
def tailStep (w : W64) : W16 := BitVec.ofNat 16 (bits w.toNat 41 26)

/-- TAIL_READY (R42). -/
def tailReady (s : State) (p : Nat) : Bool := decide ((tileOf s p).intake.length < 4) && s.ctl.run && s.pwr.cur == 0 && s.rst.done

/-- A word that waits at a tile port is a wake source; in doze and sleep it waits until the wake completes (15 R456). -/
def tileWake (s : State) : State := if s.rst.done && !awake s then wakeBy 4 s else s

/-- A tail word is taken into the port's buffer; its data, if it is to have any, follows on CDATA. -/
def tailTransfer (p : Nat) (w : W64) (ecc : Ecc) (s0 : State) : State :=
  let s := tileWake s0
  if !tailReady s p then s
  else
    let s1 := match ecc with
      | .clean => s
      | .single => eccSingle 10 s
      | .double => logDouble 10 p false s
    mTile p (fun t =>
      { t with
        intake := t.intake ++ [(w, t.nextIdx, ecc == .double)], nextIdx := t.nextIdx + 1,
        parts := if tailKind w = 1 then t.parts else t.parts ++ [{ idx := t.nextIdx }] }) s1

def execTailTransfer (port : Fin 64) (word : W64) (ecc : Ecc) (s : State) : Host.Outcome State Fault Refusal :=
  .next (tailTransfer port.val word ecc s)

/-- A part of a running session that takes its elements in another order than the tiles send them: its data are taken as they
arrive (log 81). -/
def takenAhead (s : State) (q : Part) : Bool :=
  match q.use with
  | .bound slot _ _ => (slot? s slot).any fun x =>
      x.st == .run && (x.d.opc == 0x03 || x.d.opc == 0x08 || x.d.opc == 0x09 || x.d.opc == 0x0A)
  | _ => false

/-- Beats in the CDATA buffer (R42). -/
def cdataHeld (s : State) (t : Tile) : Nat :=
  (t.parts.filter fun q => q.use != .discard && !takenAhead s q).foldl (fun n q => n + (q.beats - q.consumed)) 0

/-- Replace the first part that a test accepts by what a function makes of it, or drop it. -/
def onFirst (ok : Part → Bool) (f : Part → Option Part) : List Part → List Part
  | [] => []
  | q :: rest => if ok q then (match f q with
      | some q2 => q2 :: rest
      | none => rest) else q :: onFirst ok f rest

def isOpen (q : Part) : Bool := !q.closed

/-- Beats that a part of a session occupies (R503). -/
def partBeats (x : Session) : Nat := cdiv (fmtBytes x.d.fmtIn x.partCount) 64

/-- A part's data is unusable: a beat with a double-bit error, a short or a long part. STAT reports it with the tail word's
index, and its session fails (R39, R503). -/
def partError (p slot : Nat) (idx : BitVec 2) (s : State) : State :=
  failSession slot cTcpDataError (statCode p cTcpDataError idx s)

/-- A CDATA beat (R39, R42, R503). It belongs to the oldest tail word whose data is not complete. -/
def cdataBeat (p : Nat) (beat : BitVec 512) (last : Bool) (ecc : Ecc) (s : State) : State :=
  let t := tileOf s p
  match t.parts.find? isOpen with
  | none => s
  | some q =>
    if cdataHeld s t ≥ 256 then s
    else
      let s1 := match ecc with
        | .clean => s
        | .single => eccSingle 10 s
        | .double => logDouble 10 p false s
      let bad := ecc == .double
      let data := q.data ++ leBytes 64 beat.toNat
      let put (q2 : Option Part) (s : State) : State := mTile p (fun t => { t with parts := onFirst isOpen (fun _ => q2) t.parts }) s
      match q.use with
      | .discard => put (if last then none else some q) s1
      | .unresolved => put (some { q with data := data, beats := q.beats + 1, closed := last, bad := q.bad || bad }) s1
      | .bound slot _ n =>
        let s2 := put (some { q with data := data, beats := q.beats + 1, closed := last }) s1
        if bad || last != (q.beats + 1 == n) then partError p slot q.idx s2 else s2

def execCdataBeat (port : Fin 64) (beat : BitVec 512) (last : Bool) (ecc : Ecc) (s : State) :
    Host.Outcome State Fault Refusal :=
  .next (if ctlOn s then cdataBeat port.val beat last ecc s else s)

/-- The tile takes the beat that ODATA presents (R40). -/
def odataTransfer (p : Nat) (s : State) : State := mTile p (fun t => { t with odata := t.odata.tail }) s

def execOdataTransfer (port : Fin 64) (s : State) : Host.Outcome State Fault Refusal := .next (odataTransfer port.val s)

/-! ### Opening a session (01 R17; 05 R163, R170; 07 R228) -/

/-- A session not yet admitted. -/
def newSession (s : State) (src : SesSource) (ctx : Nat) (d : Desc) (n base rank : Nat) : Session :=
  { gsid := d.gsid, ctx := ctx, src := src, d := d, st := .wait, n := n, rank := rank, base := base,
    palm := palmNeed s d base n, waitTick := s.tick, progTick := s.tick }

/-- Size, base and own rank of the group of a descriptor (05 R158). -/
def groupOf (s : State) (d : Desc) : Nat × Nat × Nat :=
  let n := max 1 (s.rtr.groupSize d.axis d.gsize)
  let r := s.rtr.rank d.axis s.rtr.me
  (n, r / n * n, r % n)

/-- A RECEIVE into a stash takes its entry (10 R325). -/
def takeStash (slot : Nat) (s : State) : State :=
  match slot? s slot with
  | none => s
  | some x =>
    if x.d.opc != 0x05 || (regionOf s x.ctx x.d.dstReg).kind != 2 then s
    else match stashFor s x.ctx x.d.dstReg with
      | none => s
      | some i =>
        let e := stashOf s i
        let a := e.assigned
        mSlot slot (fun x =>
          { x with
            stash := some (i, a),
            d := { x.d with dstOff := a.toNat % max 1 (stNent e.cfg) * stSize e.cfg } })
          (mSpx (fun q => { q with stash := Sparse.modify {} q.stash i fun e => { e with assigned := e.assigned + 1 } }) s)

/-- A session that needs admission waits for it; any other runs (07 R228, 09 R277). -/
def admitOrRun (slot : Nat) (s : State) : State :=
  match slot? s slot with
  | none => s
  | some x => if x.palm > 0 || isGradient s x.d x.ctx then s else enterRun slot s

/-- The check of a GSID against held sessions, the repeat list and the abort list (05 R158 order 13). -/
def gsidCode (s : State) (g : Nat) : Option W16 :=
  if gsidTaken s g || repeatListed s g then some cSessionConflict
  else if s.ses.abortList.contains g then some cPeerAborted
  else none

/-- A rejection's abort notice, if it has one (05 R170, R171). -/
def rejectNotice (ctx : Nat) (d : Desc) (code : W16) (s : State) : State :=
  let g := groupOf s d
  if g.1 ≤ 1 || code = cPeerAborted || groupInvalid s d then s
  else abortGroup d.axis g.2.1 g.1 g.2.2 ctx d.gsid d.step code s

def lastReject (source : Nat) (code : W16) (s : State) : State :=
  mSes (fun e => { e with lastReject := BitVec.ofNat 32 (code.toNat + source * 65536) }) s

/-! ### Ring heads (05 R154, R502) -/

/-- Steps 4 of R502: a session waits for a slot; before it, an operation waits for its channel's last arrival. -/
def slotStep (s : State) (d : Desc) : Option HeadState :=
  let c := d.stageCfg % 64
  let chan : Bool := (d.opc == 0x07 && d.count != 0) || (isSync d && syncClass d == 2 && !chanAhead s c)
  if chan && chanBusy s c then some .chan
  else if !isSync d && d.count != 0 && (lowestFree s.ses.slots 4096).isNone then some .slot
  else none

/-- The wait condition of a descriptor is not met (11 R341): the object it waits on. An unmapped one does not wait. -/
def waitUnmet (s : State) (ctx : Nat) (d : Desc) : Option Nat :=
  if d.waitCond = 0 then none
  else match translate s ctx d.waitObj with
    | none => none
    | some (p, _) => if condHolds d.waitCond (objOf s p).value d.waitValue then none else some p

/-- The step of R502 at which a ring's head waits in this cycle; none when it may go on (R154). DESIGN CHOICE: a head whose
descriptor is still being read waits too (log 72). -/
def headStand (s : State) (r : Nat) : Option HeadState :=
  let g := ringOf s r
  match g.headState with
  | .fetch => some .fetch
  | .barrier c t => some (.barrier c t)
  | .remote => some .remote
  | .wait p t => match g.cur with
    | none => none
    | some d => if condHolds d.waitCond (objOf s p).value d.waitValue then slotStep s d else some (.wait p t)
  | .slot => g.cur.bind (slotStep s)
  | .chan => g.cur.bind (slotStep s)
  | _ => match g.cur with
    | none => none
    | some d =>
      if d.fence && g.done != g.head then some .fence
      else if (headCode s g.ctx.toNat d).isSome then none
      else match waitUnmet s g.ctx.toNat d with
        | some p => some (.wait p s.tick)
        | none => slotStep s d

/-- Whether the head of a ring is stalled (R154): by the step at which it waits, or by a tag. -/
def headStalled (s : State) (r : Nat) : Bool := (ringOf s r).tagStall || (headStand s r).isSome

/-- Stall cause of a ring's STATUS (R177). -/
def stallCause (s : State) (r : Nat) : Nat :=
  let g := ringOf s r
  match (headStand s r).getD .idle with
  | .fence => 4
  | .wait .. => 2
  | .slot => 3
  | .chan => 2
  | .barrier .. => 2
  | .remote => 2
  | _ => if g.tagStall then 1 else 0

def setHead (r : Nat) (h : HeadState) (s : State) : State := mRing r (fun g => { g with headState := h }) s

/-- A descriptor fails a check: it completes with the code, which its ring's STATUS and LAST_REJECT show (R158, R177). -/
def rejectHead (r : Nat) (code : W16) (s : State) : State :=
  headDone r code 0 (lastReject r code (mRing r (fun g => { g with code := code }) s))

/-- Read the descriptor at the head. DESIGN CHOICE: the read takes a turn of its own (log 72). -/
def fetchHead (r : Nat) (s : State) : State :=
  if !empReady s then s
  else
    let g := ringOf s r
    let a := g.base.toNat + g.head.toNat % 2 ^ g.sizeLog2.toNat * 64
    mRing r (fun g => { g with cur := some (Desc.ofWords (words64 (readBytes s.mem a 64))), headState := .fetch })
      (empRead (.desc r) a 64 [] s)

/-- A remote signal leaves for its peer (11 R346). -/
def sendRemote (r : Nat) (d : Desc) (s : State) : State :=
  let g := groupOf s d
  let m : Band :=
    { ctx := (ringOf s r).ctx.toNat, step := d.step,
      msg := .signal d.doneObj (d.doneMode == 1) d.doneValue d.count r }
  let s1 := setHead r .remote s
  inject { mkPacket s (s.rtr.member d.axis g.2.1 d.peer) ptBand (d.srcOff % 2 ^ 32) 0 0 m.body with ring := some r } s1

/-- A barrier's arrival (11 R357). -/
def headBarrier (r : Nat) (d : Desc) (s : State) : State :=
  let c := d.stageCfg % 64
  if chanAhead s c then barrierDone r (BandStatus.ofByte (lastOf s c).status.toNat) (countArrived c s)
  else issueArrival c (ringOf s r).ctx.toNat d.step 0 15 d.gsize BandStatus.zero 0 (setHead r (.barrier c s.tick) s)

/-- A SYNC_ONLY descriptor's operation (11 R346). -/
def headSync (r : Nat) (d : Desc) (s : State) : State :=
  match syncClass d with
  | 1 => sendRemote r d s
  | 2 => headBarrier r d s
  | _ => headDone r cOk 0 (doneSignal d (ringOf s r).ctx.toNat r s)

/-- The descriptor at a head leaves it as a session. -/
def leaveHead (r : Nat) (s : State) : State :=
  mRing r (fun g => { g with head := nextHead (g.written.length + 1) g (g.head + 1), cur := none, headState := .idle }) s

/-- A SCALAR_REDUCE's value arrives on its channel (11 R358). -/
def startScalar (slot : Nat) (x : Session) (s : State) : State :=
  let c := x.d.stageCfg % 64
  let a := regAddr s x.ctx x.d.srcReg x.d.srcOff
  let s1 := empRead (.session slot x.gsid) a 4 [] (enterRun slot s)
  if chanAhead s c then
    let l := lastOf s c
    scalarDone slot (BandStatus.ofByte l.status.toNat) l.count.toNat l.value (countArrived c s1)
  else issueArrival c x.ctx x.d.step x.d.redOp x.d.fmtIn x.d.gsize BandStatus.zero
    (BitVec.ofNat 32 (leNat (readBytes s.mem a 4))) s1

/-- Checks 12 to 14 of a descriptor (R158, R502 step 5). -/
def lateBase (s : State) (ctx : Nat) (d : Desc) (n base rank : Nat) : Option W16 :=
  (regionCode s ctx d false n 0).orElse fun _ => (gsidCode s d.gsid).orElse fun _ =>
    if capsMissing s d n base rank then some cLinkCapabilityMissing else none

/-- Checks 12 to 14 of a descriptor, and the checks of 10 R328 that follow them. -/
def lateCode (s : State) (ctx : Nat) (d : Desc) (n base rank : Nat) : Option W16 :=
  (lateBase s ctx d n base rank).orElse fun _ => spxCode s ctx d n

/-- A code that a check of 10 R328 gave is the last one SPX reported (10 R330). -/
def noteSpx (own : Bool) (code : W16) (s : State) : State := if own then spxFail code s else s

/-- A session of count 0 completes with OK and applies its signal; the SIGNALs pending for it are settled (R169; 11 R347). -/
def countZero (r ctx : Nat) (d : Desc) (s : State) : State :=
  headDone r cOk 0 (doneSignal d ctx r (settleFences d.gsid true s))

/-- Steps 5 and 6 of R502: checks 12 to 14, then the operation. A SYNC_ONLY descriptor and a session of count 0 take no
slot (R163). -/
def headResolve (r : Nat) (d : Desc) (s : State) : State :=
  let ctx := (ringOf s r).ctx.toNat
  let g := groupOf s d
  match lateCode s ctx d g.1 g.2.1 g.2.2 with
  | some code => rejectNotice ctx d code (noteSpx (lateBase s ctx d g.1 g.2.1 g.2.2).isNone code (rejectHead r code s))
  | none =>
    if isSync d then headSync r d s
    else if d.count = 0 then countZero r ctx d s
    else match lowestFree s.ses.slots 4096 with
      | none => s
      | some i =>
        let x := newSession s (.ring r (ringOf s r).head) ctx d g.1 g.2.1 g.2.2
        let s1 := takeStash i (putSlot i x (leaveHead r s))
        if d.opc = 0x07 then startScalar i x s1 else admitOrRun i s1

/-- One turn of a ring's head that is not stalled: its descriptor is read, or leaves the head. -/
def headTurn (r : Nat) (s : State) : State :=
  let g := ringOf s r
  match g.cur with
  | none => fetchHead r s
  | some d =>
    let fresh : Bool := g.headState == .idle || g.headState == .fence
    match if fresh then headCode s g.ctx.toNat d else if s.rtr.isSpare then some cSpareInactive else none with
    | some code => rejectHead r code s
    | none => headResolve r d s

/-- A ring that its queue slot considers: a doorbell is pending and its context takes work (01 R16, 11 R344, 15 R449). -/
def ringPending (s : State) (r : Nat) : Bool :=
  let g := ringOf s r
  g.head != g.producer && !s.syn.preempted.getLsbD g.ctx.toNat && !s.rst.ctx.contains g.ctx.toNat

/-- A ring that its queue slot may offer. -/
def ringOffers (s : State) (r : Nat) : Bool := ringPending s r && !headStalled s r

/-- The scan of a queue slot: rings whose heads are stalled are passed over, and their heads stand at the step at which
they wait; the first that is not has its turn (01 R16). -/
def scanRings : List Nat → State → State
  | [], s => s
  | r :: rest, s =>
    if ringOffers s r then headTurn r s
    else
      match if ringPending s r then headStand s r else none with
      | some h => scanRings rest (setHead r h s)
      | none => scanRings rest s

/-! ### Tail words (05 R143 to R146) -/

/-- The number of a tile's part in a TILE_MASK. -/
def partNo (mask p : Nat) : Nat := popcount p mask

/-- The session of a tail word's key. -/
def slotOfKey (s : State) (t : Nat) (step : W16) (inst : Nat) : Option (Nat × Session) :=
  s.ses.slots.find? fun p => p.2.src == .tpl t step inst

/-- R311's test of a KIND 1 word. -/
def absentBad (s : State) (e : BitVec 512) : Bool :=
  let d := tplDesc e 0 0 1 0
  tplPart e % 64 != 0 || tplPart e * tplTiles e % (64 * max 1 (s.rtr.groupSize d.axis d.gsize)) != 0

/-- Checks 1 to 9 of R145, after the errors that precede them (02 R39, 15 R449). -/
def tailCode (s : State) (p : Nat) (w : W64) (dbl : Bool) : Option W16 :=
  let t := tcpOf s p
  let e := tplOf s (tailTpl w)
  if dbl then some cTcpDataError
  else if t.en && s.rst.ctx.contains t.ctx.toNat then some cContextReset
  else if s.rtr.isSpare then some cSpareInactive
  else if !t.en then some cContextMismatch
  else if tailKind w ≥ 2 || bits w.toNat 61 42 != 0 || (tailKind w == 1 && absentBad s e) then some cTailInvalid
  else if !tplValid e then some cTemplateInvalid
  else if tplCtx e != t.ctx.toNat then some cContextMismatch
  else if tailInst w ≥ tplLimit e then some cInstanceRange
  else if !stepNear s (tailStep w) then some cStepRange
  else if !bit (tplMask e) p then some cTileNotMember
  else match slotOfKey s (tailTpl w) (tailStep w) (tailInst w) with
    | some (_, x) => if x.heard.getLsbD (partNo x.tileMask.toNat p) then some cDuplicatePart else none
    | none => none

/-- The part of check 10 of R145 that comes before the region check (with 05 R151 and 11 R337). DESIGN CHOICE: GROUP_INVALID,
STAGE_CFG_INVALID and SYNC_ID_UNMAPPED are judged before SESSION_CONFLICT, in the order of R158 (log 73). -/
def tailEarly (s : State) (ctx : Nat) (d : Desc) : Option W16 :=
  if groupInvalid s d then some cGroupInvalid
  else if stageCfgInvalid s ctx d then some cStageCfgInvalid
  else if syncIdInvalid s ctx d then some cSyncIdUnmapped
  else gsidCode s d.gsid

/-- Check 10 of R145. -/
def tailBase (s : State) (ctx : Nat) (d : Desc) (n base rank inst : Nat) : Option W16 :=
  (tailEarly s ctx d).orElse fun _ => (regionCode s ctx d true n inst).orElse fun _ =>
    if capsMissing s d n base rank then some cLinkCapabilityMissing else none

/-- Check 10 of R145 with those of 10 R328, a malformed routing entry of a dispatch among them. -/
def tailLate (s : State) (ctx : Nat) (x : Session) (inst : Nat) : Option W16 :=
  (tailBase s ctx x.d x.n x.base x.rank inst).orElse fun _ => (spxCode s ctx x.d x.n).orElse fun _ =>
    if x.d.opc = 0x09 && tableBad s x then some cRoutingInvalid else none

def isUnresolved (q : Part) : Bool := q.use == .unresolved

/-- Discard the data of the tail word being answered. -/
def discardPart (p : Nat) (s : State) : State :=
  let drop (q : Part) : Option Part :=
    if q.closed then none else some { q with use := .discard, data := [], consumed := q.beats }
  mTile p (fun t => { t with parts := onFirst isUnresolved drop t.parts }) s

/-- Answer a tail word on STAT and discard its data. -/
def answerTail (p : Nat) (w : W64) (idx : BitVec 2) (code : W16) (s : State) : State :=
  let s1 := lastReject (256 + p) code (statCode p code idx s)
  if tailKind w = 1 then s1 else discardPart p s1

/-- Bind a tail word's part to its session, and judge what data has come (R144, R503). -/
def bindPart (p slot : Nat) (w : W64) (idx : BitVec 2) (s : State) : State :=
  match slot? s slot with
  | none => s
  | some x =>
    let k := partNo x.tileMask.toNat p
    let one : W64 := BitVec.ofNat 64 (2 ^ k)
    let s1 := mSlot slot (fun x =>
      { x with heard := x.heard ||| one, absentParts := if tailKind w = 1 then x.absentParts ||| one else x.absentParts }) s
    if x.st = .rejected then
      let s2 := answerTail p w idx x.code s1
      if popcount 64 (x.heard ||| one).toNat = popcount 64 x.tileMask.toNat then freeSlot slot s2 else s2
    else if tailKind w = 1 then
      let whole := 2 ^ popcount 64 x.tileMask.toNat - 1
      if (x.absentParts ||| one).toNat = whole then finishSession slot cOk 0 s1 else s1
    else
      let n := partBeats x
      let q := (tileOf s p).parts.find? isUnresolved
      let s2 := mTile p (fun t => { t with parts := onFirst isUnresolved (fun q => some { q with use := .bound slot k n }) t.parts }) s1
      match q with
      | none => s2
      | some q =>
        if q.bad || (if q.closed then q.beats != n else decide (q.beats ≥ n)) then partError p slot q.idx s2 else s2

/-- The session that a tail word opens (R143, R149). -/
def openTemplate (slot : Nat) (w : W64) (s : State) : State :=
  let t := tailTpl w
  let e := tplOf s t
  let d0 := tplDesc e t (tailInst w) 1 (tailStep w)
  let g := groupOf s d0
  let d := tplDesc e t (tailInst w) g.1 (tailStep w)
  let x0 := newSession s (.tpl t (tailStep w) (tailInst w)) (tplCtx e) d g.1 g.2.1 g.2.2
  let x := { x0 with tileMask := BitVec.ofNat 64 (tplMask e), partCount := tplPart e }
  match tailLate s (tplCtx e) x (tailInst w) with
  | some code => rejectNotice (tplCtx e) d code (noteSpx (tailBase s (tplCtx e) d g.1 g.2.1 g.2.2 (tailInst w)).isNone code
      (putSlot slot { x with st := .rejected, code := code, regionChecked := (tailEarly s (tplCtx e) d).isNone } s))
  | none => admitOrRun slot (putSlot slot x s)

/-- A tile port's turn: its oldest tail word is answered, bound, or waits for a slot (R164). -/
def tailTurn (p : Nat) (s : State) : State :=
  match (tileOf s p).intake with
  | [] => s
  | (w, idx, dbl) :: rest =>
    let pop (s : State) : State := mTile p (fun t => { t with intake := rest }) s
    match tailCode s p w dbl with
    | some code => answerTail p w idx code (pop s)
    | none =>
      match slotOfKey s (tailTpl w) (tailStep w) (tailInst w) with
      | some (i, _) => bindPart p i w idx (pop s)
      | none =>
        match lowestFree s.ses.slots 4096 with
        | none => s
        | some i => bindPart p i w idx (openTemplate i w (pop s))

/-- A tile port whose context is pre-empted offers nothing (11 R344). -/
def portHeld (s : State) (p : Nat) : Bool := let t := tcpOf s p; t.en && s.syn.preempted.getLsbD t.ctx.toNat

/-- INTAKE_SLOT: the current slot of the rotation is served and the next becomes current (01 R16). -/
def intakeSlot (s : State) : State :=
  if !intakeOn s then s
  else
    let k := s.que.slot
    let s1 := mQue (fun q => { q with slot := (k + 1) % 80 }) s
    if k < 64 then (if portHeld s k then s1 else tailTurn k s1)
    else scanRings ((List.range 16).map fun i => 16 * (k - 64) + i) s1

def execIntakeSlot (s : State) : Host.Outcome State Fault Refusal :=
  .next (if ctlOn s then intakeSlot s else s)

/-! ### Doorbells and rings (05 R153, R156, R174, R175) -/

/-- A context's access to a ring or stash of another is dropped and recorded by the page and the window (05 R156,
10 R327, 16 R497). -/
def denyWindow (page ctx : Nat) (s : State) : State :=
  mWin ctx (fun w => { w with winCode := cAccessDenied }) (pageErr page cAccessDenied s)

/-- Whether a requester may use a resource of a context through a window: a privileged one reaches every block. -/
def mayReach (who : Requester) (window owner : Nat) : Bool :=
  match who with
  | .context c => c.val == window && window == owner
  | .debug _ => false
  | _ => true

def ringCode (r : Nat) (code : W16) (s : State) : State := mRing r (fun g => { g with code := code }) (reportCode code s)

/-- A doorbell's count is at or after PRODUCER and leaves no more than the ring's size to DONE (R153). -/
def bellOk (g : Ring) (p : W32) : Bool := serialGe p g.producer && decide ((p - g.done).toNat ≤ 2 ^ g.sizeLog2.toNat)

/-- DOORBELL (R153): dropped while the context is in reset (02 R70), rejected on a spare (03 R95). An accepted doorbell
leaves STATUS [31:16] as it is: R177 gives it the last doorbell or rejection code, and R153 a code only to a doorbell that is
not accepted (log 63). -/
def doorbell (who : Requester) (ctx r : Nat) (p : W32) (s : State) : State :=
  let g := ringOf s r
  if !mayReach who ctx g.ctx.toNat then denyWindow pgQue ctx s
  else if s.rst.ctx.contains g.ctx.toNat then s
  else if s.rtr.isSpare then ringCode r cSpareInactive s
  else if !g.enable then ringCode r cQueueDisabled s
  else if bellOk g p then mRing r (fun g => { g with producer := p }) s
  else raiseError cDoorbellInvalid (ringCode r cDoorbellInvalid s)

/-- The doorbell would be accepted. -/
def bellAccepted (who : Requester) (ctx r : Nat) (p : W32) (s : State) : Bool :=
  let g := ringOf s r
  mayReach who ctx g.ctx.toNat && !s.rst.ctx.contains g.ctx.toNat && !s.rtr.isSpare && g.enable && bellOk g p

/-- An accepted doorbell cancels an entry into sleep that is under way (15 R456). -/
def bellWake (who : Requester) (ctx r : Nat) (p : W32) (s : State) : State :=
  if s.pwr.entry.isSome && bellAccepted who ctx r p s then wakeBy 3 s else s

def execDoorbell (who : Requester) (ctx : Fin 64) (ring : Fin 256) (count : W32) (s : State) :
    Host.Outcome State Fault Refusal :=
  .next (if ctlOn s then doorbell who ctx.val ring.val count (bellWake who ctx.val ring.val count s)
    else holdAccess (if bellAccepted who ctx.val ring.val count s then 3 else 5) (.doorbell who ctx ring count) s)

/-- The ring is idle (R175). -/
def Ring.idle (g : Ring) : Bool := g.done == g.producer

/-- The head's descriptor has begun its operation: an arrival or a remote signal is out (R175). -/
def Ring.begun (g : Ring) : Bool :=
  match g.headState with
  | .barrier .. => true
  | .remote => true
  | _ => false

/-- Give every descriptor from number n on that has no record a record with a code (R175, R449). -/
def completeRest (r : Nat) (code : W16) (p : WPurpose) : Nat → W32 → State → State
  | 0, _, s => s
  | k + 1, n, s =>
    let g := ringOf s r
    if n = g.producer then s
    else
      let a := g.base.toNat + n.toNat % 2 ^ g.sizeLog2.toNat * 64
      let d := Desc.ofWords (words64 (readBytes s.mem a 64))
      completeRest r code p k (n + 1) (if g.written.contains n then s else completeDesc r n d.gsid code 0 p s)

/-- A ring's read of its head no longer concerns it. -/
def forgetFetch (r : Nat) (s : State) : State :=
  mEmp (fun e => { e with reads := e.reads.map fun q => if q.purpose = .desc r then { q with purpose := .other } else q }) s

/-- Disable a ring (R175). -/
def ringOff (r : Nat) (s : State) : State :=
  let g := ringOf s r
  let s1 := forgetFetch r (mRing r (fun g => { g with enable := false }) s)
  let n := (g.producer - g.head).toNat
  if g.begun then completeRest r cQueueDisabled (.record r) n (g.head + 1) s1
  else
    mRing r (fun g => { g with head := g.producer, cur := none, headState := .idle, tagStall := false })
      (completeRest r cQueueDisabled (.record r) n g.head s1)

/-- A write to QUE.RING_CFG of the selected ring (R174, R175). DESIGN CHOICE: a write that disables a ring, and would also
change its SIZE_LOG2 or CTX, disables it and changes neither, and records nothing (log 74). -/
def ringCfgWrite (v : W32) (s : State) : State :=
  let r := s.que.ringIndex.toNat
  let g := ringOf s r
  let size := bits v.toNat 5 1
  if g.enable && !v.getLsbD 0 then ringOff r s
  else if !g.idle then pageErr pgQue cRegionBusy s
  else if g.enable then s
  else if size < 4 || size > 16 then pageErr pgQue cConfigInvalid s
  else
    let g1 := { g with sizeLog2 := BitVec.ofNat 5 size, ctx := BitVec.ofNat 6 (bits v.toNat 11 6), enable := v.getLsbD 0 }
    mRing r (fun _ => if v.getLsbD 0 then { g1 with producer := 0, head := 0, done := 0, written := [] } else g1) s

def ringEnable (v : W32) (s : State) : State := if v.getLsbD 0 then ringCfgWrite v s else s
def ringDisable (v : W32) (s : State) : State := if v.getLsbD 0 then s else ringCfgWrite v s

def execRingEnable (value : W32) (s : State) : Host.Outcome State Fault Refusal :=
  .next (if ctlOn s then ringEnable value s else holdAccess 5 (.ringEnable value) s)

def execRingDisable (value : W32) (s : State) : Host.Outcome State Fault Refusal :=
  .next (if ctlOn s then ringDisable value s else holdAccess 5 (.ringDisable value) s)

/-! ### Templates (05 R148, R151, R178) -/

/-- The staged entry. -/
def tplStaged (s : State) : BitVec 512 :=
  BitVec.ofNat 512 ((List.range 16).foldl (fun n i => n + (Sparse.get (0 : W32) s.tpl.data i).toNat * 2 ^ (32 * i)) 0)

def tplOpcode (o : Nat) : Bool := o == 1 || o == 2 || o == 6 || o == 8 || o == 9 || o == 10

/-- The checks of an install (R138, R148, R151). -/
def tplBad (s : State) (e : BitVec 512) : Bool :=
  let d1 := tplDesc e 0 0 1 0
  let n := max 1 (s.rtr.groupSize d1.axis d1.gsize)
  let d := tplDesc e 0 0 n 0
  let c := tplCtx e
  tplDirty e || tplPart e == 0 || tplMask e == 0 || !tplOpcode d.opc || (fieldCode s d).isSome || stageCfgInvalid s c d ||
    syncIdInvalid s c d || (spxCode s c { d with mask := false } n).isSome

/-- TPL_INSTALL. DEDUCED: a template that names a reserved format code is refused with CONFIG_INVALID, as R151 says of every
field check, where R10 names UNSUPPORTED_FORMAT (log 71). -/
def tplInstall (s : State) : State :=
  let i := s.tpl.index.toNat
  let e := tplStaged s
  if tplOpen s i > 0 then pageErr pgTpl cTemplateBusy s
  else if tplBad s e then pageErr pgTpl cConfigInvalid s
  else mTpl (fun t => { t with entries := Sparse.set 0 t.entries i e }) s

def execTplInstall (s : State) : Host.Outcome State Fault Refusal :=
  .next (if ctlOn s then tplInstall s else holdAccess 5 .tplInstall s)

def tplRead (s : State) : State :=
  let e := tplOf s s.tpl.index.toNat
  let w (k : Nat) : W32 := BitVec.ofNat 32 (bits e.toNat (32 * k + 31) (32 * k))
  mTpl (fun t => { t with data := (List.range 16).foldl (fun m k => Sparse.set 0 m k (w k)) [] }) s

def execTplRead (s : State) : Host.Outcome State Fault Refusal :=
  .next (if ctlOn s then tplRead s else holdAccess 5 .tplRead s)

def tplInvalidate (s : State) : State :=
  let i := s.tpl.index.toNat
  if tplOpen s i > 0 then pageErr pgTpl cTemplateBusy s
  else mTpl (fun t => { t with entries := Sparse.modify 0 t.entries i fun e => e &&& ~~~(1#512 <<< 63) }) s

def execTplInvalidate (s : State) : Host.Outcome State Fault Refusal :=
  .next (if ctlOn s then tplInvalidate s else holdAccess 5 .tplInvalidate s)

/-! ### Regions (05 R159, R160, R180; 09 R267; 14 R439) -/

/-- Two ranges, neither of length 0, overlap. -/
def rangesMeet (a m b n : Nat) : Bool := decide (0 < m) && decide (0 < n) && decide (a < b + n) && decide (b < a + m)

/-- The engine-owned areas that no region of another kind may overlap (R439): base, length, the kind permitted. The trace
area counts once it is placed or in use. -/
def engineAreas (s : State) : List (Nat × Nat × Nat) :=
  [(s.gas.winBase.toNat, s.gas.winLen.toNat, 1), (s.ses.stageBase.toNat, s.ses.stageLen.toNat, 9),
   (s.opt.mirrorBase.toNat, s.opt.mirrorLen.toNat, 9), (s.rru.hdrBase.toNat, s.rru.hdrLen.toNat, 9),
   (s.rru.payBase.toNat, s.rru.payLen.toNat, 9),
   (s.syn.traceBase.toNat, if s.syn.traceEn || s.syn.traceBase != 0 then 4194304 else 0, 9)]

/-- A base or length write would overlap a valid region of another kind (R439). -/
def areaBad (s : State) (base len kind : Nat) : Bool :=
  s.ses.regions.any fun p => p.2.valid && p.2.kind.toNat != kind && rangesMeet base len p.2.base.toNat p.2.len.toNat

def regionBad (s : State) (valid : Bool) (kind base len : Nat) : Bool :=
  kind == 3 ||
    (kind == 1 && (base % 65536 != 0 || base < s.gas.winBase.toNat || base + len > s.gas.winBase.toNat + s.gas.winLen.toNat)) ||
    (valid && (engineAreas s).any fun a => a.2.2 != kind && rangesMeet base len a.1 a.2.1)

/-- REGION_ENTRY_WRITE: a write to SES.REG_CFG. -/
def regionEntryWrite (v : W32) (s : State) : State :=
  let reg := bits s.ses.regIndex.toNat 7 0
  let ctx := bits s.ses.regIndex.toNat 21 16
  let kind := bits v.toNat 5 4
  if regionUsers s ctx reg > 0 then pageErr pgSes cRegionBusy s
  else if regionBad s (v.getLsbD 0) kind s.ses.regBase.toNat s.ses.regLen.toNat then pageErr pgSes cConfigInvalid s
  else
    let e : Region :=
      { base := s.ses.regBase, len := s.ses.regLen, valid := v.getLsbD 0, rd := v.getLsbD 1, wr := v.getLsbD 2,
        kind := BitVec.ofNat 2 kind }
    mSes (fun x => { x with regions := Sparse.set {} x.regions (ctx * 256 + reg) e }) s

def execRegionEntryWrite (value : W32) (s : State) : Host.Outcome State Fault Refusal :=
  .next (if ctlOn s then regionEntryWrite value s else holdAccess 5 (.regionEntryWrite value) s)

/-! ### Abort notices (05 R171) -/

/-- Enter a GSID in the abort list; a full list drops its oldest entry. -/
def listAbort (g : Nat) (s : State) : State :=
  if s.ses.abortList.contains g then s
  else if s.ses.abortList.length < 64 then mSes (fun e => { e with abortList := e.abortList ++ [g] }) s
  else bump pgSes (·.ses.abortDrops) (fun v => mSes fun e => { e with abortDrops := v }) 1
    (mSes (fun e => { e with abortList := e.abortList.tail ++ [g] }) s)

/-- A session of this chip ends because a peer aborted it. -/
def abortHeld (g : Nat) (s : State) : State :=
  match slotOfGsid s g with
  | some i =>
    match slot? s i with
    | none => s
    | some x =>
      let s1 := if isGradient s x.d x.ctx then failStep x.d.step s else s
      retireSlot i cPeerAborted 0 s1
  | none =>
    match parkOfGsid s g with
    | some b =>
      -- after the verdict the notice is handled as for a session not held
      if s.opt.state.toNat > 1 then listAbort g s
      else failStep (((bktOf s b).park.map fun k => k.d.step).getD s.opt.step)
        (mBkt b (fun k => { k with reduced := false, sumSq := 0 }) (retirePark b cPeerAborted 0 false s))
    | none => listAbort g s

def abort (s : State) : State :=
  match takeBand 0x04 s with
  | none => s
  | some (p, _, s1) =>
    -- an aborted session is no longer coordinated here (07 R229)
    abortHeld p.session (mSes (fun e => { e with homes := e.homes.filter fun h => h.gsid != p.session }) s1)

def execAbort (s : State) : Host.Outcome State Fault Refusal :=
  .next (if ctlOn s then abort s else s)

end Sys2Proof.Machine
end

