-- ==== Sys2Proof/Machine/RowStats.lean ====
section
/-! DEFINITION. Machine/RowStats.lean: row statistics: passes, statistics chunks, row values and the thimble (08 R252 to
R262). -/
namespace Sys2Proof.Machine

/-! ### Geometry of a ROW_STATS session -/

def rowE (s : State) (x : Session) : Nat := rowEntry s x.d.stageCfg
/-- The session reduces its sums in pair mode (R255, R266; log 44). -/
def rowPaired (s : State) (x : Session) : Bool := x.d.redOp == 1 || rowPair (rowE s x)
def rowsOf (s : State) (x : Session) : Nat := rowCount x.d (rowE s x)
/-- First row and number of rows of a block. -/
def blockRows (s : State) (x : Session) (b : Nat) : Nat × Nat :=
  let n := rowBlock (rowE s x)
  (b * n, min ((b + 1) * n) (rowsOf s x) - b * n)
def blockOf (x : Session) (b : Nat) : RowBlock := Sparse.get {} x.rows b
def mBlock (slot b : Nat) (f : RowBlock → RowBlock) (s : State) : State :=
  mSlot slot (fun x => { x with rows := Sparse.modify {} x.rows b f }) s

/-- Thimble record of a row (R260). -/
def thimbleAt (s : State) (x : Session) (row : Nat) : Nat :=
  let i := match x.src with
    | .tpl _ _ inst => inst
    | .ring .. => 0
  rowThm (rowE s x) + i * rowThmStride (rowE s x) + row
def thimbleGet (s : State) (i : Nat) : F32 × F32 :=
  let v := (Sparse.get (0 : W64) s.row.thimble i).toNat
  (BitVec.ofNat 32 v, BitVec.ofNat 32 (v / 2 ^ 32))
/-- Write a record; it is usable again (13 R391). -/
def thimblePut (i : Nat) (a b : F32) (s : State) : State :=
  mRow (fun r =>
    { r with
      thimble := Sparse.set 0 r.thimble i (BitVec.ofNat 64 (a.toNat + b.toNat * 2 ^ 32)),
      bad := Sparse.set false r.bad i false }) s

/-! ### Elements -/

/-- The values of a run of the auxiliary region in a format. -/
def auxValues (s : State) (x : Session) (f off n : Nat) : List F32 := widenedAt s f (regAddr s x.ctx x.d.auxReg (x.d.auxOff + off)) n

/-- What the first pass takes of a block: its inputs, in a backward mode the forward inputs (R254) and the block's records
(R260), γ and β. -/
def takeBlock (s : State) (slot : Nat) (x : Session) (b : Nat) (k : RowBlock) : RowBlock :=
  let e := rowE s x
  let r := blockRows s x b
  let n := rowK e
  { k with
    xs := (inputPresent s slot x (r.1 * n) (r.2 * n)).map fun v => v.map fun v => widen x.d.fmtIn v
    saved := if rowMode e ≥ 3 then
        auxValues s x (rowXFmt e) ((rowAux e).2.2 + r.1 * n * fmtSize (rowXFmt e)) (r.2 * n) else []
    recs := if rowMode e ≥ 3 then (List.range r.2).map fun i => thimbleGet s (thimbleAt s x (r.1 + i)) else []
    gammas := if rowGamma e then auxValues s x 0 0 n else []
    betas := if rowBeta e then auxValues s x 0 (rowAux e).2.1 n else [] }

/-- A row of a held block: its inputs, the forward inputs, its record, γ and β (none where not enabled). -/
structure HeldRow where
  v : List (Option F32)
  saved : List F32
  rec_ : F32 × F32
  gamma : Option (List F32)
  beta : Option (List F32)
deriving DecidableEq, Repr

def heldRow (s : State) (x : Session) (blk : RowBlock) (i : Nat) : HeldRow :=
  let e := rowE s x
  let n := rowK e
  { v := (blk.xs.drop (i * n)).take n, saved := (blk.saved.drop (i * n)).take n, rec_ := blk.recs.getD i (0, 0),
    gamma := if rowGamma e then some blk.gammas else none, beta := if rowBeta e then some blk.betas else none }

def f32NegInf : F32 := 0xFF800000

/-- Multiply and add element by element; an absent element stays absent. -/
def mulBy (l : List (Option F32)) (m : List F32) : List (Option F32) := List.zipWith (fun a b => a.map (f32Mul · b)) l m
/-- The sum of the present elements by the tree; of none, the empty value (R185, R187; log 79). -/
def rowSum (l : List (Option F32)) : F32 := (tree f32Add l).getD 0
/-- Multiply by γ where it is enabled (R254). -/
def byGamma (h : HeldRow) (l : List (Option F32)) : List (Option F32) :=
  match h.gamma with
  | some g => mulBy l g
  | none => l

/-- exp(x - m), with the elements of a fully masked row taken as +0 (R257). -/
def softElem (m v : F32) : F32 := if m = f32NegInf then 0 else f32ExpFn (f32Sub v m)
/-- x̂ of a backward normalisation (R256). -/
def xHat (mode : Nat) (r : F32 × F32) (v : F32) : F32 :=
  if mode = 3 then f32Mul (f32Sub v r.1) r.2 else f32Mul v r.2
/-- The forward soft-maximum output, recomputed (R256 mode 5). -/
def softOut (r : F32 × F32) (v : F32) : F32 :=
  if r.1 = f32NegInf then 0 else f32Mul (f32ExpFn (f32Sub v r.1)) (f32Div f32One r.2)

/-- The local statistics of a row in the first pass (R253, R255). -/
def localStats (mode : Nat) (h : HeldRow) : List F32 :=
  let sq := h.v.map fun a => a.map fun a => f32Mul a a
  let hat := h.saved.map (xHat mode h.rec_)
  let g := byGamma h h.v
  match mode with
  | 0 => [rowSum h.v, rowSum sq]
  | 1 => [rowSum sq]
  | 2 => [(tree f32Max h.v).getD f32NegInf]
  | 3 => [rowSum g, rowSum (mulBy g hat)]
  | 4 => [rowSum (mulBy g hat)]
  | _ => [rowSum (mulBy h.v (h.saved.map (softOut h.rec_)))]

/-- The local part of D in the middle pass. -/
def localD (h : HeldRow) (m : F32) : F32 := rowSum (h.v.map fun a => a.map (softElem m))

/-- K as binary32. -/
def rowLenK (s : State) (x : Session) : F32 := f32OfNat (x.n * rowK (rowE s x))

/-- A row's values (R256): mean and rstd, M and D, or A/K and B/K. st are the row's reduced statistics in order. -/
def rowValues (s : State) (x : Session) (st : List F32) : F32 × F32 :=
  let e := rowE s x
  let k := rowLenK s x
  let a := st.getD 0 0
  let b := st.getD 1 0
  match rowMode e with
  | 0 =>
    let mean := f32Div a k
    let var := f32Sub (f32Div b k) (f32Mul mean mean)
    let v : F32 := if f32Neg var && !f32IsNaN var then 0 else var
    (mean, f32Rsqrt (f32Add v (rowEps e)))
  | 1 => (0, f32Rsqrt (f32Add (f32Div a k) (rowEps e)))
  | 2 => (a, b)
  | 3 => (f32Div a k, f32Div b k)
  | 4 => (0, f32Div a k)
  | _ => (a, 0)

/-- The outputs of a row (R256, R257); none where the input is absent. r are the row's values. -/
def rowOutput (mode : Nat) (h : HeldRow) (r : F32 × F32) : List (Option F32) :=
  let on (f : F32 → F32) : List (Option F32) := h.v.map fun a => a.map f
  let g := byGamma h h.v
  let hat := h.saved.map (xHat mode h.rec_)
  match mode with
  | 0 =>
    let y := byGamma h (on fun a => f32Mul (f32Sub a r.1) r.2)
    match h.beta with
    | some b => List.zipWith (fun a b => a.map (f32Add · b)) y b
    | none => y
  | 1 => byGamma h (on fun a => f32Mul a r.2)
  | 2 => let rden := f32Div f32One r.2; on fun a => if r.1 = f32NegInf then 0 else f32Mul (softElem r.1 a) rden
  | 3 => List.zipWith (fun g h2 => g.map fun g => f32Mul (f32Sub g (f32Add r.1 (f32Mul h2 r.2))) h.rec_.2) g hat
  | 4 => List.zipWith (fun g h2 => g.map fun g => f32Mul (f32Sub g (f32Mul h2 r.2)) h.rec_.2) g hat
  | _ =>
    if h.rec_.1 = f32NegInf then on fun _ => 0
    else List.zipWith (fun y d => d.map fun d => f32Mul y (f32Sub d r.1)) (h.saved.map (softOut h.rec_)) h.v

/-! ### Statistics chunks (R255) -/

/-- The reduction of a phase: max for M, else the session's sum. -/
def phaseOp (s : State) (x : Session) (phase : Nat) : Nat :=
  if rowMode (rowE s x) = 2 && phase = 0 then 3 else if rowPaired s x then 1 else 0

/-- The chunk of a block's local statistics. -/
def statChunk (s : State) (x : Session) (b phase : Nat) (vals : List (Option Nat)) : Chunk :=
  let op := phaseOp s x phase
  let pair := op == 1
  let l := layChunk pair 4 vals
  let seq := 2 * b + phase
  let k := sourceCuff (op ≤ 1) pair 0 x.d.lscale seq x.d.bucket x.d.step.toNat (vals.filterMap id)
  let h := chunkHdr s x seq 0 ((blockRows s x b).1 * rowK (rowE s x)) l.2.1 0 false l.1
  sealChunk { h with op := op } k l.2.2

/-- Hold a rank's statistics chunk as its leaf's operand: every node of the tree is this chip's own. -/
def holdStat (x : Session) (seq rank : Nat) (c : Chunk) (reads : List Nat) (s : State) : State :=
  match parentOf x.n 0 rank with
  | none => s
  | some p => holdOperand x seq ⟨p.1, p.2.1, p.2.2, x.rank⟩ (some c) none reads s

/-- Ranks a copy still visits after the one at a distance in a direction (R255). -/
def statReach (n : Nat) (plus : Bool) : Nat := if plus then n / 2 else cdiv n 2 - 1

/-- Send a statistics chunk one rank on in a direction. -/
def statHop (s : State) (x : Session) (plus : Bool) (op : Nat) (c : Chunk) (reads : List Nat) : State :=
  let dest := if plus then (x.rank + 1) % x.n else (x.rank + x.n - 1) % x.n
  inject (chunkPacket s x dest (if op = 1 then ptPair else ptChunk) c none reads) s

/-- Send a block's local statistics to every rank, and hold them here. -/
def sendStats (slot b phase : Nat) (l : List F32) (reads : List Nat) (s : State) : State :=
  match slot? s slot with
  | none => s
  | some x =>
    let es := injectNaN s x.gsid 0 (l.map fun v => some v.toNat)
    let s0 := if injFor s 4 x.gsid then fireInject s else s
    let c := statChunk s x b phase es
    let op := phaseOp s x phase
    let s1 := noteRoot slot false (Cuff.ofBytes c.cuff).skip 0 (holdStat x (2 * b + phase) x.rank c reads s0)
    let s2 := if statReach x.n true ≥ 1 then statHop s1 x true op c reads else s1
    if statReach x.n false ≥ 1 then statHop s2 x false op c reads else s2

/-- A statistics chunk of a peer arrives: deposited, and forwarded while its direction has ranks left. -/
def takeStat (x : Session) (rank : Nat) (c : Chunk) (s : State) : State :=
  let dp := (x.rank + x.n - rank) % x.n
  let dm := (rank + x.n - x.rank) % x.n
  let plus := dp ≤ statReach x.n true
  let more := if plus then dp < statReach x.n true else dm < statReach x.n false
  let s1 := holdStat x c.hdr.seq rank c [] s
  if more then statHop s1 x plus c.hdr.op c [] else s1

/-- Statistics of a row in a block's reduced list. -/
def statAt (s : State) (x : Session) (blk : RowBlock) (i : Nat) : List F32 :=
  let k := rowStatsOf (rowMode (rowE s x))
  if rowMode (rowE s x) = 2 then [blk.stat0.getD i 0, blk.stat1.getD i 0]
  else (blk.stat0.drop (k * i)).take k

/-- The root of a statistics tree releases a block's reduced values (R193, R255). -/
def statRoot (slot seq : Nat) (els : List (Option Nat)) (k : Cuff) (s : State) : State :=
  let l := els.map fun v => (BitVec.ofNat 32 (v.getD 0) : F32)
  mBlock slot (seq / 2) (fun b => if seq % 2 = 0 then { b with stat0 := l } else { b with stat1 := l })
    (noteRoot slot k.poison k.skip 0 s)

/-! ### Passes (R259) -/

/-- Reads that a pass makes: its block's inputs, γ and β, and the forward input (R254). -/
def passReads (slot b : Nat) (s : State) : List Nat × State :=
  match slot? s slot with
  | none => ([], s)
  | some x =>
    let e := rowE s x
    let r := blockRows s x b
    let k := rowK e
    let src := sourceRead slot x 0 (r.1 * k) (r.2 * k) s
    let aux (on : Bool) (off len : Nat) (p : List Nat × State) : List Nat × State :=
      if on then
        let q := readFor (.session slot x.gsid) (regAddr p.2 x.ctx x.d.auxReg (x.d.auxOff + off)) len p.2
        (p.1 ++ [q.1], q.2)
      else p
    aux (rowMode e ≥ 3) ((rowAux e).2.2 + r.1 * k * fmtSize (rowXFmt e)) (r.2 * k * fmtSize (rowXFmt e))
      (aux (rowBeta e) (rowAux e).2.1 (4 * k) (aux (rowGamma e) 0 (4 * k) src))

/-- Hold places in use. -/
def heldBlocks (x : Session) : Nat := (x.rows.filter fun p => p.2.firstDone && !p.2.written).length

def lastReady (s : State) (x : Session) (b : RowBlock) : Bool :=
  b.firstDone && !b.lastDone && (if rowMode (rowE s x) = 2 then b.final1 else b.final0)
def midReady (s : State) (x : Session) (b : RowBlock) : Bool := rowMode (rowE s x) == 2 && b.final0 && !b.midDone

/-- Candidate (c): the next block's first pass. -/
def firstReady (s : State) (slot : Nat) (x : Session) : Bool :=
  let r := blockRows s x x.rowNext
  let k := rowK (rowE s x)
  x.rowNext < rowBlocks x.d (rowE s x) && heldBlocks x < rowHold (rowE s x) && inputReady s slot x (r.1 * k) (r.2 * k)

/-- The pass that ROW starts: its class (1 first, 2 middle, 3 last) and its block. -/
def nextPass (s : State) (slot : Nat) (x : Session) : Option (Nat × Nat) :=
  let a := (x.rows.find? fun p => lastReady s x p.2).map fun p => (3, p.1)
  let b := (x.rows.find? fun p => midReady s x p.2).map fun p => (2, p.1)
  let c := if firstReady s slot x then some (1, x.rowNext) else none
  if x.rowLast = 1 then a.or (b.or c) else c.or (a.or b)

/-- A block's backward records include one that a double-bit error spoilt (13 R391). -/
def recordsBad (s : State) (x : Session) (b : Nat) : Bool :=
  let r := blockRows s x b
  rowMode (rowE s x) ≥ 3 && (List.range r.2).any fun i => Sparse.get false s.row.bad (thimbleAt s x (r.1 + i))

def setLast (slot c : Nat) (s : State) : State := mSlot slot (fun x => { x with rowLast := c, progTick := s.tick }) s

/-- A first pass: the block's inputs move into its hold place. -/
def firstPass (slot b : Nat) (x : Session) (s : State) : State :=
  if recordsBad s x b then failSession slot cSramUncorrectable s
  else
    let r := blockRows s x b
    let blk := takeBlock s slot x b (blockOf x b)
    let stats := (List.range r.2).flatMap fun i => localStats (rowMode (rowE s x)) (heldRow s x blk i)
    let rd := passReads slot b s
    let s1 := mSlot slot (fun x => { x with rowNext := b + 1 }) (mBlock slot b (fun _ => { blk with firstDone := true }) rd.2)
    consumeInput slot x ((r.1 + r.2) * rowK (rowE s x)) (setLast slot 1 (sendStats slot b 0 stats rd.1 s1))

def midPass (slot b : Nat) (x : Session) (s : State) : State :=
  let r := blockRows s x b
  let blk := blockOf x b
  let stats := (List.range r.2).map fun i => localD (heldRow s x blk i) (blk.stat0.getD i 0)
  setLast slot 2 (sendStats slot b 1 stats [] (mBlock slot b (fun k => { k with midDone := true }) s))

/-- Write a run of ROW output: to the destination with the block's purpose, or kept for the tiles. -/
def rowDeliver (slot b : Nat) (x : Session) (e : Nat) (r : OutRun) (s : State) : State :=
  if x.isTpl && x.d.dstReg = 255 then deliverOut slot none x.d.count e r s
  else writeOutAs (fun n => .rowOut slot n b) (fun n => .rowOut slot n b) x.d.fmtOut
    (regAddr s x.ctx x.d.dstReg x.d.dstOff) x.d.count e r s

/-- The elements that the blocks of a session have formed, at element positions e to e + 31, when all are there. -/
def mxGroup (s : State) (x : Session) (e : Nat) : Option (List Nat) :=
  let per := rowBlock (rowE s x) * rowK (rowE s x)
  let l := (List.range 32).map fun i =>
    let b := blockOf x ((e + i) / max 1 per)
    if b.lastDone then (b.ys[(e + i) % max 1 per]?).map BitVec.toNat else none
  if l.all Option.isSome then some (l.map (·.getD 0)) else none

/-- Deliver a block's output (R249, R250): MXFP8 blocks that cross row blocks wait for all their elements. -/
def deliverBlock (slot b : Nat) (s : State) : State :=
  match slot? s slot with
  | none => s
  | some x =>
    let e := rowE s x
    let r := blockRows s x b
    let e0 := r.1 * rowK e
    let ys := (blockOf x b).ys
    if x.d.fmtOut != 5 || (e0 % 32 == 0 && ys.length % 32 == 0) then
      let o := encodeOut x.d.fmtOut (rowSat e) (rowMx e) (ys.map BitVec.toNat)
      rowDeliver slot b x e0 o (countOut o s)
    else
      foldS ((List.range ((e0 + ys.length + 31) / 32)).filter fun g => 32 * (g + 1) > e0) s fun g s =>
        match mxGroup s x (32 * g) with
        | none => s
        | some l =>
          let o := encodeOut 5 (rowSat e) (rowMx e) l
          rowDeliver slot b x (32 * g) o (countOut o s)

def rowBlockWritten (s : State) (slot b : Nat) : Bool :=
  !(s.emp.writes.any fun w => match w.purpose with
    | .rowOut i _ k => i == slot && k == b
    | _ => false)

def lastPass (slot b : Nat) (x : Session) (s : State) : State :=
  let r := blockRows s x b
  let blk := blockOf x b
  let n := rowK (rowE s x)
  let rows := (List.range r.2).map fun i =>
    (List.range n).zipWith (fun c v => v.getD (Config.absentOut x.gsid ((r.1 + i) * n + c)))
      (rowOutput (rowMode (rowE s x)) (heldRow s x blk i) (rowValues s x (statAt s x blk i)))
  let bad := (rows.filter fun y => y.any f32IsNaN).length
  let s1 := bump pgRow (·.row.nanRows) (fun v => mRow fun q => { q with nanRows := v }) bad s
  let s2 := mBlock slot b (fun k => { k with lastDone := true, ys := rows.flatten, xs := [], saved := [], recs := [] }) s1
  let s3 := deliverBlock slot b s2
  let keep := x.d.fmtOut == 5
  let s4 := mBlock slot b (fun k => { k with ys := if keep then k.ys else [], written := rowBlockWritten s3 slot b }) s3
  setLast slot 3 s4

/-- ROW_PASS: ROW starts the first runnable pass of a session. -/
def rowPass (slot : Nat) (s : State) : State :=
  match slot? s slot with
  | none => s
  | some x =>
    if x.d.opc != 0x06 || issueStopped s || !sessionFree s x then s
    else match nextPass s slot x with
    | none => s
    | some (1, b) => firstPass slot b x s
    | some (2, b) => midPass slot b x s
    | some (_, b) => tryComplete slot (lastPass slot b x s)

def execRowPass (slot : Fin 4096) (s : State) : Host.Outcome State Fault Refusal :=
  .next (if ctlOn s then rowPass slot.val s else s)

/-- ROW_STATISTICS_FINAL: a block's reduced statistics become final; a forward mode writes its records (R256, R260). -/
def rowStatisticsFinal (slot b : Nat) (s : State) : State :=
  match slot? s slot with
  | none => s
  | some x =>
    let blk := blockOf x b
    let mode := rowMode (rowE s x)
    if x.d.opc != 0x06 || blk.stat0.isEmpty || datapathOff s then s
    else if mode = 2 && !blk.final0 then mBlock slot b (fun k => { k with final0 := true }) s
    else if mode = 2 && (blk.final1 || blk.stat1.isEmpty) then s
    else if mode != 2 && blk.final0 then s
    else
      let r := blockRows s x b
      let s1 := if mode ≥ 3 then s else
        foldS (List.range r.2) s fun i s =>
          let v := rowValues s x (statAt s x blk i)
          thimblePut (thimbleAt s x (r.1 + i)) v.1 v.2 s
      mBlock slot b (fun k => if mode = 2 then { k with final1 := true } else { k with final0 := true }) s1

def execRowStatisticsFinal (slot : Fin 4096) (block : Nat) (s : State) : Host.Outcome State Fault Refusal :=
  .next (if ctlOn s then rowStatisticsFinal slot.val block s else s)

end Sys2Proof.Machine
end

