-- ==== Sys2Proof/Machine/Reduce.lean ====
section
/-! DEFINITION. Machine/Reduce.lean: the nodes of the reduction trees and rings, inbound chunks, absence notices, buffer
credit, chunk retirement and the transposed deposit (05 R141, R165; 06 R186, R187, R198, R206 to R214; 07 R219 to R227;
10 R308 to R317). -/
namespace Sys2Proof.Machine

/-! ### Failures (06 R207, R212, R213) -/

/-- A check that failed: the output's SEQ, its level, the lowest ranks of its operands, cause, failed operand, and the
sizes of a ledger failure. -/
structure RedFail where
  seq : Nat
  level : Nat
  left : Nat
  right : Nat
  cause : Nat
  operand : Nat
  delta : Nat
  limit : Nat
deriving DecidableEq, Repr

/-- Count and log a failure (R207 step 3). -/
def logRedFail (x : Session) (f : RedFail) (s : State) : State :=
  let s1 := if f.cause ≤ 3 then bump pgRed (·.red.crcFails) (fun v => mRed fun r => { r with crcFails := v }) 1 s
    else bump pgRed (·.red.ledgerFails) (fun v => mRed fun r => { r with ledgerFails := v }) 1 s
  if s1.red.failInfo.getLsbD 31 then s1
  else
    let info := f.cause + f.level % 16 * 16 + f.left % 16 * 256 + f.right % 16 * 4096 + x.d.axis % 4 * 65536 +
      f.operand % 2 * 262144 + 2 ^ 31
    mRed (fun r =>
      { r with
        failGsid := w32 x.gsid, failSeq := w32 f.seq, failInfo := w32 info,
        failDelta := if f.cause = 4 then w32 (clog2 f.delta % 256 + clog2 f.limit % 256 * 256) else 0 }) s1

/-- A check fails: the output is discarded and the session fails (R207). -/
def redFail (slot : Nat) (x : Session) (f : RedFail) (s : State) : State :=
  failSession slot (if f.cause ≤ 3 then cCrcMismatch else cLedgerMismatch) (logRedFail x f s)

/-- RED_FAIL_LOG_CLEAR: a write of 1 to VALID clears the log (R212). -/
def redFailLogClear (v : W32) (s : State) : State :=
  if v.getLsbD 31 then mRed (fun r => { r with failGsid := 0, failSeq := 0, failInfo := 0, failDelta := 0 }) s else s

def execRedFailLogClear (value : W32) (s : State) : Host.Outcome State Fault Refusal :=
  .next (if ctlOn s then redFailLogClear value s else holdAccess 5 (.redFailLogClear value) s)

/-! ### Operands in the palm -/

/-- The reads behind an operand have returned, and a staged one is back from the staging area. -/
def operandReady (s : State) (o : Operand) : Bool :=
  (o.reads.all fun t => !readOut s t) && (match o.area with
    | some (_, back) => back
    | none => true)

/-- A staged operand that is still in the staging area. -/
def inArea (s : State) (o : Operand) : Bool :=
  (o.reads.all fun t => !readOut s t) && (match o.area with
    | some (_, back) => !back
    | none => false)

/-- An operand is used up: its buffer is free, which its sender learns (R221). -/
def useOperand (slot : Nat) (o : Operand) (s : State) : State :=
  let s1 := dropOperand o s
  match o.peer with
  | some r => if o.chunk.isSome then returnCredit slot r o.level s1 else s1
  | none => s1

/-! ### What a node's output is and where it goes -/

/-- Level in an output's header: the node's level, or in ring order the additions made (R168, R212). -/
def outLevel (x : Session) (seq level : Nat) : Nat := if x.d.ring then ringLevel x.d x.n seq x.rank else level

/-- Lowest ranks that the left and the right operand of a node cover (R212). -/
def coverLow (x : Session) (seq level node : Nat) : Nat × Nat :=
  if x.d.ring then
    let k := ringLevel x.d x.n seq x.rank
    let st := ringStart x.d x.n seq
    let low := (List.range k).foldl (fun a i =>
      min a (if ringPlus x.d x.n seq then (st + i) % x.n else (st + x.n - i % x.n) % x.n)) (x.n - 1)
    (low, x.rank)
  else (nodeLo level node, nodeLo level node + 2 ^ (level - 1))

/-- The lowest rank that a node's output covers. -/
def outLow (x : Session) (seq level node : Nat) : Nat := let c := coverLow x seq level node; if x.d.ring then min c.1 c.2 else c.1

/-- Where a node's output goes; none at the root. -/
def outGoal (s : State) (x : Session) (seq level node : Nat) : Option Goal :=
  if x.d.opc = 0x06 then (parentOf x.n level node).map fun p => ⟨p.1, p.2.1, p.2.2, x.rank⟩
  else if x.d.ring then
    if seqShard x.d x.n seq = x.rank then none else some ⟨1, 0, false, ringNext x.d x.n seq x.rank⟩
  else treeGoal s x seq level node

/-- Key of the output counter of a node. -/
def outKey (x : Session) (seq level node : Nat) : Nat :=
  if x.d.ring then nodeKey (seqShard x.d x.n seq) 1 (b2n (!ringPlus x.d x.n seq))
  else nodeKey (seqShard x.d x.n seq) level node
def countOutput (slot key : Nat) (s : State) : State :=
  mSlot slot (fun x => { x with nodeNext := Sparse.modify 0 x.nodeNext key (· + 1), progTick := s.tick }) s

/-- A node works through the chunks of a shard in SEQ order (R221). -/
def seqDue (x : Session) (seq level node : Nat) : Bool :=
  let done := Sparse.get 0 x.nodeNext (outKey x seq level node)
  let c := seqChunk x.d x.n seq
  if x.d.ring && !ringPlus x.d x.n seq then c == cdiv (shardChunks x.d x.n) 2 + done else c == done

/-- The operation, format and element count of a session's chunk. -/
def nodeOp (s : State) (x : Session) (seq : Nat) : Nat := if x.d.opc = 0x06 then phaseOp s x (seq % 2) else x.d.redOp
def nodeFmt (x : Session) : Nat := if x.d.opc = 0x06 then 0 else wireFmt x.d
def nodeLen (s : State) (x : Session) (seq : Nat) : Nat :=
  if x.d.opc = 0x06 then
    (blockRows s x (seq / 2)).2 * (if rowMode (rowE s x) = 2 then 1 else rowStatsOf (rowMode (rowE s x)))
  else chunkLen x.d x.n seq

/-- Release a node's output: to its parent, or as the root's result. -/
def releaseOutput (slot seq level node : Nat) (els : List (Option Nat)) (k : Cuff) (s : State) : State :=
  match slot? s slot with
  | none => s
  | some x =>
    let s1 := noteRoot slot false k.skip 0 s
    match outGoal s x seq level node with
    | none =>
      if x.d.opc = 0x06 then statRoot slot seq els k s1
      else rootOutput slot seq els (nodeFmt x) k.poison k.skip none [] s1
    | some g =>
      let pair := nodeOp s x seq == 1
      let l := layChunk pair (fmtSize (nodeFmt x)) els
      let last := seqChunk x.d x.n seq + 1 == realChunks x.d x.n (seqShard x.d x.n seq)
      let h := chunkHdr s x seq (outLevel x seq level) (chunkFirst x.d x.n seq) l.2.1 (nodeFmt x) last l.1
      sendOutput slot x seq g (sealChunk { h with op := nodeOp s x seq } k l.2.2) none [] s1

/-- The header of a chunk that a node passes on (R168, R232). -/
def passHdr (s : State) (x : Session) (level : Nat) (h : ChunkHdr) : ChunkHdr :=
  { h with level := level, rank := s.rtr.rank x.d.axis s.rtr.me, staged := x.staged }

/-- Pass a present operand chunk on whole, its partner being absent (R187, R309): its elements and cuff are unchanged; a
pair's are finished at the root. -/
def passOutput (slot seq level node : Nat) (c : Chunk) (s : State) : State :=
  match slot? s slot with
  | none => s
  | some x =>
    let s := noteRoot slot false (Cuff.ofBytes c.cuff).skip 0 s
    match outGoal s x seq level node with
    | some g => sendOutput slot x seq g { c with hdr := passHdr s x (outLevel x seq level) c.hdr } none [] s
    | none =>
      let pair := nodeOp s x seq == 1
      let els := chunkElems pair (if pair then 8 else fmtSize (nodeFmt x)) (nodeLen s x seq) c
      let k := Cuff.ofBytes c.cuff
      releaseOutput slot seq level node (if pair then els.map fun v => v.map finishElem else els) k s

/-- Flip the bit that an armed KIND 3 fault names, in the output register (13 R417). -/
def flipOut (s : State) (g fmt : Nat) (c : Combined) : Combined :=
  if !injFor s 3 g then c
  else
    let t := s.flt.injTarget.toNat
    let i := bits t 46 37
    let w := 8 * fmtSize fmt
    match c.elems.getD i none with
    | none => c
    | some v =>
      let es := c.elems.set i (some (if bits t 36 32 < w then v ^^^ 2 ^ bits t 36 32 else v))
      { c with elems := es, lres := if c.cuff.noledger then 0 else ledgerSum c.cuff.pair c.cuff.lscale (es.filterMap id) }

/-- Combine two present operand chunks (R204 to R207). -/
def combineAt (slot : Nat) (x : Session) (seq level node : Nat) (a b : Chunk) (s : State) : State :=
  let low := coverLow x seq level node
  let fail (cause operand delta limit : Nat) : RedFail := ⟨seq, outLevel x seq level, low.1, low.2, cause, operand, delta, limit⟩
  match operandFault x.d.lscale [a, b] with
  | some f => redFail slot x (fail f.1 f.2 0 0) s
  | none =>
    let op := nodeOp s x seq
    let pair := op == 1
    let sz := if pair then 8 else fmtSize (nodeFmt x)
    let n := nodeLen s x seq
    let root := (outGoal s x seq level node).isNone
    let c0 := combineChunks op (nodeFmt x) root x.d.lscale (chunkElems pair sz n a) (chunkElems pair sz n b)
      (Cuff.ofBytes a.cuff) (Cuff.ofBytes b.cuff)
    let c := flipOut s x.gsid (nodeFmt x) c0
    let s1 := if injFor s 3 x.gsid then fireInject s else s
    let s2 := if c.cuff.noledger then s1
      else if c.cuff.skip then bump pgRed (·.red.ledgerSkips) (fun v => mRed fun r => { r with ledgerSkips := v }) 1 s1
      else bump pgRed (·.red.ledgerChecks) (fun v => mRed fun r => { r with ledgerChecks := v }) 1 s1
    if !c.passes then redFail slot x (fail 4 0 (c.lres - c.cuff.lsum).natAbs c.limit) s2
    else releaseOutput slot seq level node c.elems c.cuff s2

/-! ### Top-k nodes (10 R315 to R317) -/

def topkOf (x : Session) (key : Nat) : TopkNode := Sparse.get {} x.topk key
def mTopk (slot key : Nat) (f : TopkNode → TopkNode) (s : State) : State :=
  mSlot slot (fun x => { x with topk := Sparse.modify {} x.topk key f, progTick := s.tick }) s

/-- The next operand of a side of a node: the chunk that continues its stream, or its absence. -/
def topkNext (s : State) (x : Session) (sh level node : Nat) (right : Bool) : Option Operand :=
  let t := topkOf x (nodeKey sh level node)
  operand? s x.gsid (sh * 2 ^ 24 + if right then t.fedR else t.fedL) level node right

/-- The pairs of a top-k chunk. -/
def topkPairs (c : Chunk) : List (Nat × W32) :=
  (pieces 8 (slice c.payload 0 (8 * min 512 c.hdr.elems))).map fun b => (leAt b 0 4, BitVec.ofNat 32 (leAt b 4 4))

/-- A pair of a merged stream: whether it was combined (R315), and whether an operand or the result is not finite or lies
outside the ledger window (R203). -/
structure MergedPair where
  pair : TopkPair
  comb : Bool
  skip : Bool
deriving DecidableEq, Repr

/-- A pair that passes, and two that combine. -/
def passPair (sc : Int) (p : TopkPair) : MergedPair := ⟨p, false, !inWindow false sc p.val.toNat⟩
def combPair (op : Nat) (sc : Int) (p q : TopkPair) : MergedPair :=
  let v : W32 := BitVec.ofNat 32 (redOp op 0 p.val.toNat q.val.toNat)
  ⟨⟨p.idx, v, p.poison || q.poison, p.inf || q.inf⟩, true,
    !inWindow false sc p.val.toNat || !inWindow false sc q.val.toNat || !inWindow false sc v.toNat⟩

/-- The stream output of two lists in ascending index order (R315). -/
def mergePairs (op : Nat) (sc : Int) : Nat → List TopkPair → List TopkPair → List MergedPair
  | 0, _, _ => []
  | _, [], r => r.map (passPair sc)
  | _, l, [] => l.map (passPair sc)
  | k + 1, p :: l, q :: r =>
    if p.idx = q.idx then combPair op sc p q :: mergePairs op sc k l r
    else if p.idx < q.idx then passPair sc p :: mergePairs op sc k l (q :: r)
    else passPair sc q :: mergePairs op sc k (p :: l) r

/-- The root's output of a merged stream: dense, through FIN, or sparse (R317). -/
def topkRoot (slot sh : Nat) (l : List (Nat × W32)) (poison skip : Bool) (s : State) : State :=
  match slot? s slot with
  | none => s
  | some x =>
    let s0 := bump pgSpx (·.spx.topkPairs) (fun v => mSpx fun p => { p with topkPairs := v }) l.length s
    if spxSparse (spxEntry s x.d.stageCfg) then
      let bytes := slice (leBytes 4 l.length) 0 64 ++ topkBytes l
      let nans := (l.filter fun p => isNaNIn 0 p.2.toNat).length
      let s1 := empWrite (.session slot bytes.length none) (regAddr s x.ctx x.d.dstReg x.d.dstOff) bytes
        (noteRoot slot poison skip 0 (countOut { OutRun.empty with nans := nans } s0))
      mSlot slot (fun x => { x with rootDone := x.rootDone + 1 }) s1
    else
      let base := sh * shardQ x.d x.n
      let n := shardLen x.d x.n sh
      let els := (List.range n).map fun i => (l.find? fun p => p.1 == base + i).map fun p => p.2.toNat
      let ps := pieces 1024 els
      foldS ((List.range ps.length).zip ps) s0 fun p s => rootOutput slot (sh * 2 ^ 24 + p.1) p.2 0 poison skip none [] s

/-- Send one chunk of a node's output stream. -/
def topkSend (slot sh level node : Nat) (c : Chunk) (s : State) : State :=
  match slot? s slot with
  | none => s
  | some x =>
    match outGoal s x (sh * 2 ^ 24) level node with
    | none => s
    | some g => sendOutput slot x c.hdr.seq g c none [] s

def topkDone (slot sh level node : Nat) (s : State) : State := mTopk slot (nodeKey sh level node) (fun t => { t with done := true }) s

/-- The merged stream as the output register holds it, with an armed KIND 3 fault's bit flipped (13 R417). -/
def mergedOut (s : State) (x : Session) (t : TopkNode) : List MergedPair :=
  let m := mergePairs x.d.redOp x.d.lscale (t.left.length + t.right.length) t.left t.right
  let i := bits s.flt.injTarget.toNat 46 37
  if !injFor s 3 x.gsid then m
  else (List.range m.length).zipWith (fun j p =>
    if j = i then { p with pair := { p.pair with val := p.pair.val ^^^ (1 <<< bits s.flt.injTarget.toNat 36 32) } } else p) m

/-- Both streams have ended: the merged stream, its ledger check and its chunks (R315, R316). -/
def topkEmit (slot : Nat) (x : Session) (sh level node : Nat) (s : State) : State :=
  let t := topkOf x (nodeKey sh level node)
  let sc := x.d.lscale
  let m := mergedOut s x t
  let s := if injFor s 3 x.gsid then fireInject s else s
  let vals := m.map fun p => p.pair.val.toNat
  let sum := x.d.redOp == 0
  let skip := sum && (t.skip || (m.any fun p => p.skip) || vals.any fun v => !inWindow false sc v)
  let bSum := ledgerSum false sc vals
  let h := (m.filter fun p => p.comb).foldl (fun n p => n + hTerm sc p.pair.val) 0
  let limit := h + t.pIn + m.length
  let low := coverLow x (sh * 2 ^ 24) level node
  let s1 := if !sum then s
    else if skip then bump pgRed (·.red.ledgerSkips) (fun v => mRed fun r => { r with ledgerSkips := v }) 1 s
    else bump pgRed (·.red.ledgerChecks) (fun v => mRed fun r => { r with ledgerChecks := v }) 1 s
  if sum && !skip && (bSum - t.sumA).natAbs > limit then
    redFail slot x ⟨sh * 2 ^ 24 + (m.length - 1) / 512, level, low.1, low.2, 4, 0, (bSum - t.sumA).natAbs, limit⟩ s1
  else
    let s2 := topkDone slot sh level node (noteRoot slot false skip 0 s1)
    match outGoal s x (sh * 2 ^ 24) level node with
    | none => topkRoot slot sh (m.map fun p => (p.pair.idx, p.pair.val)) (t.poison || vals.any fun v => isNaNIn 0 v) skip s2
    | some _ =>
      let ps := pieces 512 m
      foldS ((List.range ps.length).zip ps) s2 fun p s =>
        let last := p.1 + 1 == ps.length
        topkSend slot sh level node (topkChunk s x (sh * 2 ^ 24 + p.1) level (t.leavesL + t.leavesR) last
          ((skip && last) || p.2.any fun q => q.skip) (p.2.any fun q => q.pair.poison) (p.2.any fun q => q.pair.inf)
          (p.2.map fun q => (q.pair.idx, q.pair.val))) s

/-- SEQ of the output chunk that a node is forming when it takes the next chunk of a side (R211): the pairs that the chunks
before let it put out. -/
def topkForming (t : TopkNode) (sh : Nat) (right : Bool) : Nat :=
  let side := if right then t.right else t.left
  let other := if right then t.left else t.right
  match side.getLast? with
  | none => sh * 2 ^ 24
  | some p =>
    sh * 2 ^ 24 + (side.length + (other.filter fun q => decide (q.idx < p.idx) && !side.any fun r => r.idx == q.idx).length) / 512

/-- Take one chunk of a side into its stream, after checks 1 to 4 of R206. -/
def topkFeed (slot sh level node : Nat) (o : Operand) (s : State) : State :=
  match slot? s slot, o.chunk with
  | some x, some c =>
    let low := coverLow x (sh * 2 ^ 24) level node
    let t := topkOf x (nodeKey sh level node)
    match operandFault x.d.lscale [c] with
    | some f => redFail slot x ⟨topkForming t sh o.right, level, low.1, low.2, f.1, b2n o.right, 0, 0⟩ s
    | none =>
      let k := Cuff.ofBytes c.cuff
      let ps := flagged k (topkPairs c)
      useOperand slot o (mTopk slot (nodeKey sh level node) (fun t =>
        let t1 :=
          { t with
            sumA := t.sumA + k.lsum, pIn := t.pIn + ps.length, skip := t.skip || k.skip, poison := t.poison || k.poison,
            inf := t.inf || k.inf }
        if o.right then { t1 with right := t1.right ++ ps, rightLast := c.hdr.last, leavesR := k.leaves, fedR := t1.fedR + 1 }
        else { t1 with left := t1.left ++ ps, leftLast := c.hdr.last, leavesL := k.leaves, fedL := t1.fedL + 1 }) s)
  | _, _ => s

/-- Pass the next chunk of a node's one present stream on whole, after checks 1 to 4 of R206 (R315, R316); at the root it
joins the output. -/
def topkPass (slot sh level node : Nat) (o : Operand) (s : State) : State :=
  match slot? s slot, o.chunk with
  | some x, some c =>
    let key := nodeKey sh level node
    let k := Cuff.ofBytes c.cuff
    let low := coverLow x (sh * 2 ^ 24) level node
    match operandFault x.d.lscale [c] with
    | some f => redFail slot x ⟨c.hdr.seq, level, low.1, low.2, f.1, b2n o.right, 0, 0⟩ s
    | none =>
      let s0 := noteRoot slot false k.skip 0 s
      let fed (t : TopkNode) : TopkNode := if o.right then { t with fedR := t.fedR + 1 } else { t with fedL := t.fedL + 1 }
      match outGoal s x (sh * 2 ^ 24) level node with
      | some _ =>
        topkSend slot sh level node { c with hdr := passHdr s x level c.hdr }
          (useOperand slot o (mTopk slot key (fun t => { fed t with done := c.hdr.last }) s0))
      | none =>
        let s1 := useOperand slot o (mTopk slot key (fun t =>
          { fed t with left := t.left ++ flagged k (topkPairs c), skip := t.skip || k.skip, poison := t.poison || k.poison }) s0)
        if c.hdr.last then
          match slot? s1 slot with
          | none => s1
          | some y =>
            let t := topkOf y key
            topkRoot slot sh (t.left.map fun p => (p.idx, p.val)) t.poison t.skip (topkDone slot sh level node s1)
        else s1
  | _, _ => s

/-- A top-k node's turn on a shard. -/
def topkNode (slot : Nat) (x : Session) (sh level node : Nat) (s : State) : State :=
  let key := nodeKey sh level node
  let t := topkOf x key
  let l := topkNext s x sh level node false
  let r := topkNext s x sh level node true
  let gone (o : Option Operand) : Bool := match o with
    | some o => o.chunk.isNone
    | none => false
  let ready (o : Operand) : Bool := operandReady s o
  let fetch (o : Operand) (s : State) : State := if inArea s o then fetchOperand slot o s else s
  let noteGone (right : Bool) (o : Operand) (s : State) : State :=
    mTopk slot key (fun t => if right then { t with rightAbsent := true, rightLast := true } else { t with leftAbsent := true, leftLast := true })
      (dropOperand o s)
  let goneL := t.leftAbsent || gone l
  let goneR := t.rightAbsent || gone r
  let dropL (s : State) : State := match l with
    | some o => if o.chunk.isNone then noteGone false o s else s
    | none => s
  let dropR (s : State) : State := match r with
    | some o => if o.chunk.isNone then noteGone true o s else s
    | none => s
  if t.done then s
  else if x.n = 1 then
    (if t.leftLast && !sessionReading s slot then
      topkRoot slot sh (t.left.map fun p => (p.idx, p.val)) (t.left.any fun p => isNaNIn 0 p.val.toNat)
        (x.d.redOp == 0 && t.left.any fun p => !inWindow false x.d.lscale p.val.toNat) (topkDone slot sh level node s)
    else s)
  else if goneL && goneR then
    let s1 := topkDone slot sh level node (dropR (dropL s))
    match outGoal s x (sh * 2 ^ 24) level node with
    | none => topkRoot slot sh [] false false s1
    | some g => flushAbsent slot (absentOutput slot x (sh * 2 ^ 24) level (nodeLo level node) g s1)
  else if goneL then
    match r with
    | some o => if ready o then topkPass slot sh level node o (dropL s) else fetch o s
    | none => dropL s
  else if goneR then
    match l with
    | some o => if ready o then topkPass slot sh level node o (dropR s) else fetch o s
    | none => dropR s
  else if (l.isNone && t.fedL = 0) || (r.isNone && t.fedR = 0) then s
  else
    let feed (o : Option Operand) (s : State) : State := match o with
      | some o => if ready o then topkFeed slot sh level node o s else fetch o s
      | none => s
    let s1 := feed r (feed l s)
    match slot? s1 slot with
    | none => s1
    | some y =>
      let t1 := topkOf y key
      if t1.leftLast && t1.rightLast then topkEmit slot y sh level node s1 else s1

/-! ### NODE_COMBINE -/

/-- Bin of a lateness (13 R399). -/
def lateBin (w : Nat) : Nat := if w < 64 then 0 else min 7 ((w / 64).log2 / 2 + 1)

/-- Measure the lateness of a tree node's later operand (13 R399). -/
def noteLate (x : Session) (level node : Nat) (l r : Operand) (s : State) : State :=
  if !s.flt.histEn || x.d.ring || level > max 1 s.flt.maxLevel.toNat then s
  else
    let w := max l.ccc r.ccc - min l.ccc r.ccc
    let rank := if l.ccc > r.ccc then nodeLo level node else nodeLo level node + 2 ^ (level - 1)
    let i := (16 * x.d.axis + rank) * 8 + lateBin w
    let s1 := bump pgFlt (fun s => Sparse.get (0 : W32) s.flt.hist i)
      (fun v => mFlt fun f => { f with hist := Sparse.set 0 f.hist i v }) 1 s
    let worst := (Sparse.get (0 : W32) s.flt.lateWorst x.d.axis).toNat / 16
    if w > worst then
      mFlt (fun f => { f with lateWorst := Sparse.set 0 f.lateWorst x.d.axis (w32 (rank + 16 * min w (2 ^ 28 - 1))) }) s1
    else s1

/-- A node's turn on one chunk: both operands combined, the one present passed, or the output absent (R186, R187). -/
def combineTurn (slot : Nat) (x : Session) (seq level node : Nat) (s : State) : State :=
  match operand? s x.gsid seq level node false, operand? s x.gsid seq level node true with
  | some l, some r =>
    let full := match outGoal s x seq level node with
      | some g => x.d.opc != 0x06 && g.host == x.rank && localFull s x seq g
      | none => false
    if (x.d.opc != 0x06 && !seqDue x seq level node) || full then s
    else if inArea s l || inArea s r then
      -- staged operands are read back first (07 R233)
      let fetch (o : Operand) (s : State) : State := if inArea s o then fetchOperand slot o s else s
      fetch r (fetch l s)
    else if !operandReady s l || !operandReady s r then s
    else
      let s1 := countOutput slot (outKey x seq level node) (useOperand slot r (useOperand slot l s))
      match l.chunk, r.chunk with
      | some a, some b => combineAt slot x seq level node a b (noteLate x level node l r s1)
      | some a, none => passOutput slot seq level node a s1
      | none, some b => passOutput slot seq level node b s1
      | none, none =>
        match outGoal s x seq level node with
        | none => rootOutput slot seq (List.replicate (nodeLen s x seq) none) (nodeFmt x) false false none [] s1
        | some g =>
          -- a chunk that is not sent (10 R308, R309)
          flushAbsent slot (absentOutput slot x seq (outLevel x seq level) (outLow x seq level node) g
            (bump pgSpx (·.spx.elided) (fun v => mSpx fun p => { p with elided := v }) 1 s1))
  | _, _ => s

/-- NODE_COMBINE. In ring order a chip's one node is node 0 of level 1. -/
def nodeCombine (slot seq level node : Nat) (s : State) : State :=
  match slot? s slot with
  | none => s
  | some x =>
    if x.st != .run || datapathOff s then s
    else if x.d.opc = 0x08 then tryComplete slot (topkNode slot x (seq / 2 ^ 24) level node s)
    else tryComplete slot (combineTurn slot x seq level node s)

def execNodeCombine (slot : Fin 4096) (seq : W32) (level : Fin 5) (node : Fin 16) (s : State) :
    Host.Outcome State Fault Refusal := .next (if ctlOn s then nodeCombine slot.val seq.toNat level.val node.val s else s)

/-! ### Inbound chunks (R141) -/

/-- The place of an operand that a rank sent from a level: its node and side, where this chip hosts it (R218, R219). -/
def inboundGoal (s : State) (x : Session) (seq level rank : Nat) : Option Goal :=
  if x.d.ring then some ⟨1, 0, false, x.rank⟩
  else match treeGoal s x seq level (rank / 2 ^ level) with
    | some g => if g.host = x.rank then some g else none
    | none => none

/-- An operand chunk is held once. -/
def takeOperand (x : Session) (seq level rank : Nat) (c : Option Chunk) (s : State) : State :=
  match inboundGoal s x seq level rank with
  | none => s
  | some g =>
    if (operand? s x.gsid seq g.level g.node g.right).isSome then s
    else holdOperand x seq g c (if c.isSome then some rank else none) [] s

/-- The runs of output bytes that a chunk of k elements carries, each with its first element: the present blocks of a
compacted one (10 R308; log 79). -/
def chunkRuns (f k : Nat) (c : Chunk) : List (Nat × List Byte × List Byte) :=
  let sz := fmtSize f
  let scales (at_ n : Nat) : List Byte := if f = 5 then slice c.payload at_ (n / 32) else []
  if !c.hdr.masked then [(0, slice c.payload 0 (k * sz), scales 3968 k)]
  else
    let bs := (List.range (cdiv k 64)).filter (bit (leAt c.payload 0 8))
    let len (b : Nat) : Nat := min 64 (k - 64 * b)
    let all := (bs.map len).foldl (· + ·) 0 * sz
    (List.range bs.length).zipWith (fun i b =>
      (64 * b, slice c.payload (8 + 64 * i * sz) (len b * sz), scales (8 + all + 2 * i) (len b))) bs

/-- Deposit a chunk once, at an element of the destination (R217, R225). -/
def depositChunk (slot : Nat) (x : Session) (key e k : Nat) (c : Chunk) (s : State) : State :=
  markGot slot key (deliverRuns slot none x.d.count ((chunkRuns x.d.fmtOut k c).map fun r => (e + r.1, r.2)) s)

/-- An ALL_GATHER chunk: deposited, then forwarded in its direction (R225). -/
def takeGather (slot : Nat) (x : Session) (p : Packet) (c : Chunk) (s : State) : State :=
  let seq := c.hdr.seq
  let j := seqShard x.d x.n seq
  let k := chunkLen x.d x.n seq
  if j ≥ x.n || k = 0 || Sparse.get false x.got seq then s
  else
    let s1 := depositChunk slot x seq (chunkFirst x.d x.n seq) k c s
    match gatherNext x.n j x.rank (gatherWhole s x) (gatherPlus x seq) with
    | none => s1
    | some t => inject { mkPacket s (memberOf s x t) ptChunk x.gsid x.d.vc (b2n x.d.adapt) p.body with tag := none } s1

/-- An EXCHANGE chunk from a rank (R217, R224). -/
def takeExchange (slot : Nat) (x : Session) (rank : Nat) (c : Chunk) (s : State) : State :=
  let n := shardChunks x.d x.n
  let ch := c.hdr.seq % max 1 n
  let k := min (chunkE x.d) (shardLen x.d x.n x.rank - ch * chunkE x.d)
  let key := rank * n + ch
  if k = 0 || Sparse.get false x.got key then s
  else depositChunk slot x key (rank * shardQ x.d x.n + ch * chunkE x.d) k c s

/-- A SEND's chunk at its RECEIVE (10 R324). -/
def takeReceive (slot : Nat) (x : Session) (c : Chunk) (s : State) : State :=
  let e := c.hdr.seq * chunkE x.d
  if e ≥ x.d.count || Sparse.get false x.got c.hdr.seq then s
  else depositChunk slot x c.hdr.seq e (min (chunkE x.d) (x.d.count - e)) c s

def isChunkPkt (p : Packet) : Bool := p.ptype == ptChunk || p.ptype == ptPair || p.ptype == ptTopk

/-- Place a chunk in the session that holds its GSID and bucket tag; any other lands nowhere (R141, 14 R440). -/
def placeChunk (p : Packet) (s : State) : State :=
  let c := Chunk.ofBody p.body
  if repeatListed s p.session then
    -- 09 R283
    bump pgGas (·.gas.staleDrops) (fun v => mGas fun g => { g with staleDrops := v }) 1 s
  else match slotOfGsid s p.session with
  | none => s
  | some i =>
    match slot? s i with
    | none => s
    | some x =>
      let rank := c.hdr.rank - x.base
      if c.hdr.bucket != x.d.bucket || rank ≥ x.n then s
      else
        let s1 := progress i s
        match x.d.opc with
        | 0x01 => takeOperand x c.hdr.seq c.hdr.level rank (some c) s1
        | 0x08 => takeOperand x c.hdr.seq c.hdr.level rank (some c) s1
        | 0x06 => if (s.red.operands.any fun o => o.gsid == x.gsid && o.seq == c.hdr.seq &&
              (match parentOf x.n 0 rank with
               | some q => o.level == q.1 && o.node == q.2.1 && o.right == q.2.2
               | none => true)) then s1 else takeStat x rank c s1
        | 0x02 => takeGather i x p c s1
        | 0x03 => takeExchange i x rank c s1
        | 0x05 => takeReceive i x c s1
        | _ => s1

/-- CHUNK_RECEIVE: the oldest chunk packet at this chip is placed. -/
def chunkReceive (s : State) : State :=
  match takeInbox isChunkPkt s with
  | none => s
  | some (p, s1) => placeChunk p s1

def execChunkReceive (s : State) : Host.Outcome State Fault Refusal :=
  .next (if ctlOn s then chunkReceive s else s)

/-! ### ABSENT and SLOT_RETURN (07 R221, 10 R310) -/

/-- What a declared absence is at a member: an operand of a node, or of an opcode that does not reduce a chunk or a combine's
row that is not coming (log 79). -/
def noteAbsent (slot seq level rank : Nat) (s : State) : State :=
  match slot? s slot with
  | none => s
  | some x =>
    match x.d.opc with
    | 0x01 => takeOperand x seq level rank none s
    | 0x08 => takeOperand x seq level rank none s
    | 0x02 => if chunkLen x.d x.n seq = 0 then s else markGot slot seq s
    | 0x03 => let n := shardChunks x.d x.n; markGot slot (rank * n + seq % max 1 n) s
    | 0x05 => if seq * chunkE x.d ≥ x.d.count then s else markGot slot seq s
    | 0x0A => if Sparse.get false x.got seq then s
        else absentRow slot rank seq (rowBytes x.d.fmtIn (spxRow (spxEntry s x.d.stageCfg))) s
    | _ => s

/-- ABSENT (R310). -/
def absent (s : State) : State :=
  match takeBand 0x05 s with
  | none => s
  | some (p, m, s1) =>
    match m.msg, slotOfGsid s1 p.session with
    | .absent level rank first bitmap, some i =>
      tryComplete i (foldS ((List.range 64).filter fun b => bit bitmap b) (progress i s1) fun b s =>
        noteAbsent i (first + b) level rank s)
    | _, _ => s1

def execAbsent (s : State) : Host.Outcome State Fault Refusal :=
  .next (if ctlOn s then absent s else s)

/-- SLOT_RETURN: the sender's credit at the host that returned it grows, and waiting packets leave. -/
def slotReturn (s : State) : State :=
  match takeBand 0x06 s with
  | none => s
  | some (p, m, s1) =>
    match m.msg, slotOfGsid s1 p.session with
    | .slotReturn level k, some i =>
      match slot? s1 i with
      | none => s1
      | some x =>
        let host := s1.rtr.rank x.d.axis (s1.rtr.toLogical p.src) - x.base
        drainOuts i (mSlot i (fun x => { x with used := Sparse.modify 0 x.used (host * 8 + level) (· - k) }) s1)
    | _, _ => s1

def execSlotReturn (s : State) : Host.Outcome State Fault Refusal :=
  .next (if ctlOn s then slotReturn s else s)

/-! ### CHUNK_RETIRE (05 R165) -/

/-- CHUNK_RETIRE: a chunk whose retire condition is met gives its tag back; a stall for a tag ends (R166, R167). -/
def chunkRetire (t : Nat) (s : State) : State :=
  match assoc? s.trk.tags t with
  | none => s
  | some g =>
    if !g.retired then s
    else
      let s1 := mTrk (fun k => { k with tags := assocErase k.tags t, stallStart := none, reported := false }) s
      let s2 := mQue (fun q => { q with rings := Sparse.mapAll {} q.rings fun _ r => { r with tagStall := false } }) s1
      match slotOfGsid s2 g.gsid with
      | none => s2
      | some i => tryComplete i (progress i s2)

def execChunkRetire (tag : Fin 65536) (s : State) : Host.Outcome State Fault Refusal :=
  .next (if ctlOn s then chunkRetire tag.val s else s)

/-! ### Transposed deposits (07 R227, R241) -/

/-- Bytes of output element i of the plain copy. -/
def plainElem (s : State) (x : Session) (i : Nat) : List Byte :=
  let sz := fmtSize x.d.fmtOut
  readBytes s.mem (regAddr s x.ctx x.d.dstReg (x.d.dstOff + i * sz)) sz

/-- Chunks of an ALL_GATHER that touch elements e to e + k - 1 have all been deposited. -/
def gatherHas (x : Session) (e k : Nat) : Bool :=
  (List.range x.n).all fun j => (List.range (realChunks x.d x.n j)).all fun c =>
    let seq := j * shardChunks x.d x.n + c
    let a := chunkFirst x.d x.n seq
    let b := a + chunkLen x.d x.n seq
    decide (b ≤ e) || decide (e + k ≤ a) || Sparse.get false x.got seq

/-- A write to some of these bytes still awaits its WACK. -/
def writesTo (s : State) (addr len : Nat) : Bool :=
  (s.emp.wait ++ s.emp.out.map Prod.snd).any fun q =>
    q.write && decide (q.beat * 64 < addr + len) && decide (addr < (q.beat + q.beats) * 64)

/-- TRANSPOSE_ROW_BLOCK: once a block's rows are written with WACK, it is read back; what was read is then written
transposed. -/
def transposeRowBlock (slot b : Nat) (s : State) : State :=
  match slot? s slot with
  | none => s
  | some x =>
    let e := depEntry s x.d.stageCfg
    let k := rowBlockRows x.d.fmtOut
    if x.d.opc != 0x02 || x.st != .run || b ≥ transposeBlocks s x.d || Sparse.get false x.tblocks b ||
        !gatherHas x (b * k * depCols e) (k * depCols e) || !empReady s then s
    else
      let sz := fmtSize x.d.fmtOut
      let a := regAddr s x.ctx x.d.dstReg (x.d.dstOff + b * k * depCols e * sz)
      if writesTo s a (k * depCols e * sz) then s
      else
        let rd := readFor (.session slot x.gsid) a (k * depCols e * sz) s
        let ws := (List.range (depCols e)).map fun c =>
          (regAddr s x.ctx x.d.auxReg (x.d.auxOff + (c * depRows e + b * k) * sz),
            (List.range k).flatMap fun r => plainElem s x ((b * k + r) * depCols e + c))
        addLocal slot { reads := [rd.1], tag := none, seq := b, work := .block ws }
          (mSlot slot (fun x => { x with tblocks := Sparse.set false x.tblocks b true }) rd.2)

def execTransposeRowBlock (slot : Fin 4096) (block : Nat) (s : State) : Host.Outcome State Fault Refusal :=
  .next (if ctlOn s then transposeRowBlock slot.val block s else s)

/-- DEPOSIT_ENTRY_WRITE: a write of SES.DEP_DATA (R241). -/
def depositEntryWrite (v : W64) (s : State) : State :=
  let i := s.ses.depIndex.toNat
  if cfgNamed s [0x02] i then pageErr pgSes cRegionBusy s
  else
    let keep : W64 := 0x80FFFFFFFFFFFF01
    mSes (fun e => { e with dep := Sparse.set 0 e.dep i (v &&& keep) }) s

def execDepositEntryWrite (value : W64) (s : State) : Host.Outcome State Fault Refusal :=
  .next (if ctlOn s then depositEntryWrite value s else holdAccess 5 (.depositEntryWrite value) s)

end Sys2Proof.Machine
end

