-- ==== Sys2Proof/Machine/Admission.lean ====
section
/-! DEFINITION. Machine/Admission.lean: admission of the sessions that need palm or staging space, at members and at the
home (07 R228 to R233, R238; 09 R277). -/
namespace Sys2Proof.Machine

/-! ### Members -/

/-- The admission key (R228): STEP relative to the uncommitted step, then GSID. -/
def admitKey (s : State) (x : Session) : Nat := ((x.d.step - s.opt.step) + 0x8000).toNat * 2 ^ 32 + x.gsid

/-- The chip that coordinates a session (R229). -/
def homeOf (s : State) (x : Session) : Coord :=
  let r0 := memberOf s x 0
  { r0 with x := bits s.rtr.role.toNat 7 4, y := bits s.rtr.role.toNat 11 8 }

def sendHome (x : Session) (m : BandMsg) (s : State) : State := sendBand (homeOf s x) x.ctx x.d.step x.gsid m s

/-- A change of a session's admission state is progress (13 R398). -/
def setAdmit (i : Nat) (st : SesState) (s : State) : State := mSlot i (fun x => { x with st := st, progTick := s.tick }) s

/-- A session in WAIT that may be considered: a gradient session's bucket is ready in its step (09 R277). -/
def mayConsider (s : State) (x : Session) : Bool :=
  x.st == .wait && (match gradBucket s x.ctx x.d with
    | some b => (bktOf s b).ready && x.d.step == s.opt.step
    | none => x.palm > 0)

/-- Sessions in slots, in key order. -/
def byKey (s : State) (l : List (Nat × Session)) : List (Nat × Session) :=
  sortBy (fun a b => admitKey s a.2 ≤ admitKey s b.2) l

/-- HELD sessions with a later key that hold the same kind of space, latest key first. -/
def revocable (s : State) (x : Session) (staged : Bool) : List (Nat × Session) :=
  (byKey s (s.ses.slots.filter fun p => p.2.st == .held && p.2.staged == staged && admitKey s p.2 > admitKey s x)).reverse

def spaceFree (s : State) (staged : Bool) : Nat := if staged then stageFree s else palmFree s

/-- Revoke a HELD session: REVOKE to its home, back to WAIT (R231; 12 R371 class 1). -/
def revokeSession (i : Nat) (s : State) : State :=
  match slot? s i with
  | none => s
  | some x =>
    let s1 := mSlot i (fun x => { x with staged := false, waitTick := s.tick }) (setAdmit i .wait s)
    choice 1 0 x.gsid (sendHome x .revoke s1)

/-- Revoke in turn until the free space covers a need. -/
def revokeUntil (need : Nat) (staged : Bool) : List (Nat × Session) → State → State
  | [], s => s
  | (i, _) :: rest, s => if spaceFree s staged ≥ need then s else revokeUntil need staged rest (revokeSession i s)

/-- The space a session needs is free, counting what it may revoke. -/
def spaceFits (s : State) (x : Session) (staged : Bool) : Bool :=
  x.palm ≤ spaceFree s staged + ((revocable s x staged).map fun p => p.2.palm).foldl (· + ·) 0

/-- Set the need aside and send GRANT (R231). -/
def holdSpace (i : Nat) (x : Session) (staged : Bool) (s : State) : State :=
  let s1 := revokeUntil x.palm staged (revocable s x staged) s
  let s2 := mSlot i (fun x => { x with staged := staged }) (setAdmit i .held s1)
  sendHome x (.grant x.palm staged x.d.axis x.n x.rank (memberOf s x 0)) s2

/-- A member rejects a session that can never be admitted (R232). DESIGN CHOICE: for a template session LAST_REJECT names the
lowest tile of TILE_MASK (log 75). -/
def unfit (i : Nat) (x : Session) (s : State) : State :=
  let s1 := lastReject (sourceNumber s x.src) cAdmissionUnfit (reportCode cAdmissionUnfit s)
  let s2 := match x.src with
    | .ring r _ => mRing r (fun g => { g with code := cAdmissionUnfit }) s1
    | .tpl .. => s1
  let grad := isGradient s x.d x.ctx
  let s3 := retireSlot i cAdmissionUnfit 0 (if grad then failStep x.d.step s2 else s2)
  if x.n > 1 then abortGroup x.d.axis x.base x.n x.rank x.ctx x.gsid x.d.step cAdmissionUnfit s3 else s3

/-- What R232 does for a session that cannot or need no longer wait for palm. timed: its wait has run out. -/
def stageTurn (i : Nat) (x : Session) (timed : Bool) (s : State) : State :=
  let whole := x.palm ≤ palmAll
  if x.d.stageOk then
    if x.palm ≤ stageAll s then
      (if spaceFits s x true then (let s1 := holdSpace i x true s; if timed then choice 2 0 x.gsid s1 else s1) else s)
    else if whole then s else unfit i x s
  else if whole then s else unfit i x s

/-- One session's consideration. -/
def considerSession (i : Nat) (s : State) : State :=
  match slot? s i with
  | none => s
  | some x =>
    if !mayConsider s x then s
    else if x.palm = 0 then enterRun i s
    else if x.palm > palmAll then stageTurn i x false s
    else if spaceFits s x false then holdSpace i x false s
    else s

/-- This chip admits sessions: its shape is valid and it is no spare (03 R72, R95). -/
def mayAdmit (s : State) : Bool := s.rtr.shapeOk && !s.rtr.isSpare

/-- ADMISSION_SCAN: the waiting sessions are considered in key order (R231). -/
def admissionScan (s : State) : State :=
  if !intakeOn s || !mayAdmit s then s
  else foldS ((byKey s (s.ses.slots.filter fun p => p.2.st == .wait)).map Prod.fst) s considerSession

def execAdmissionScan (s : State) : Host.Outcome State Fault Refusal :=
  .next (if ctlOn s then admissionScan s else s)

/-- STAGE_AFTER_TIMEOUT (R232, R238): a session has waited STAGE_AFTER ticks; in a replay a record says so. -/
def stageAfterTimeout (i : Nat) (forced : Bool) (s : State) : State :=
  match slot? s i with
  | none => s
  | some x =>
    if !intakeOn s || !mayAdmit s || !mayConsider s x || x.palm = 0 ||
        !timerOut s x.waitTick (max 1 s.ses.stageAfter.toNat) forced then s
    else if x.palm ≤ palmAll && spaceFits s x false then holdSpace i x false s
    else stageTurn i x (x.palm ≤ palmAll) s

def execStageAfterTimeout (slot : Fin 4096) (s : State) : Host.Outcome State Fault Refusal :=
  .next (if ctlOn s then stageAfterTimeout slot.val false s else s)

/-- The member session that an admission message of the home concerns. -/
def memberSession (s : State) (g : Nat) (step : W16) : Option (Nat × Session) :=
  (slotOfGsid s g).bind fun i => (slot? s i).bind fun x => if x.d.step = step then some (i, x) else none

/-- ADMIT (R231). -/
def admitMsg (s : State) : State :=
  match takeBand 0x12 s with
  | none => s
  | some (p, m, s1) =>
    match memberSession s1 p.session m.step with
    | none => s1
    | some (i, x) =>
      match x.st with
      | .held => sendHome x .firm (setAdmit i .firm s1)
      | .wait => choice 1 0 x.gsid (sendHome x .refuse s1)
      | _ => s1

def execAdmitMsg (s : State) : Host.Outcome State Fault Refusal :=
  .next (if intakeOn s then admitMsg s else s)

/-- RETRACT (R231, R239). -/
def retract (s : State) : State :=
  match takeBand 0x15 s with
  | none => s
  | some (p, m, s0) =>
    let s1 := bump pgSes (·.ses.admitRetracts) (fun v => mSes fun e => { e with admitRetracts := v }) 1 s0
    match memberSession s1 p.session m.step with
    | none => s1
    | some (i, x) => if x.st = .firm then setAdmit i .held s1 else s1

def execRetract (s : State) : Host.Outcome State Fault Refusal :=
  .next (if intakeOn s then retract s else s)

/-- GO (R231): the session is entered in SES. -/
def go (s : State) : State :=
  match takeBand 0x16 s with
  | none => s
  | some (p, m, s1) =>
    match memberSession s1 p.session m.step with
    | none => s1
    | some (i, x) => if x.st = .firm && mayAdmit s1 then enterRun i s1 else s1

def execGo (s : State) : Host.Outcome State Fault Refusal :=
  .next (if intakeOn s then go s else s)

/-! ### The home -/

def home? (s : State) (g : Nat) : Option HomeSes := s.ses.homes.find? fun h => h.gsid == g
def putHome (h : HomeSes) (s : State) : State :=
  mSes (fun e => { e with homes := (e.homes.filter fun k => k.gsid != h.gsid) ++ [h] }) s
def dropHome (g : Nat) (s : State) : State := mSes (fun e => { e with homes := e.homes.filter fun k => k.gsid != g }) s

/-- Coordinates of group rank k, from those of group rank 0 (R229). -/
def homeMember (s : State) (axis : Nat) (r0 : Coord) (k : Nat) : Coord := r0.set axis (s.rtr.ofRank axis (s.rtr.rank axis r0 + k))

/-- Group rank of a sender. -/
def homeRank (s : State) (h : HomeSes) (c : Coord) : Nat := s.rtr.rank h.axis c - s.rtr.rank h.axis h.rank0

def homeSend (h : HomeSes) (m : BandMsg) (s : State) : State :=
  foldS (List.range h.gsize) s fun k s => sendBand (homeMember s h.axis h.rank0 k) h.ctx h.step h.gsid m s

def rankBit (k : Nat) : BitVec 16 := BitVec.ofNat 16 (2 ^ k)
def fullMask (n : Nat) : BitVec 16 := BitVec.ofNat 16 (2 ^ n - 1)

/-- ADMIT goes to every member once each has granted. -/
def homeAdmit (h : HomeSes) (s : State) : State :=
  if !h.admitted && h.granted = fullMask h.gsize then homeSend h .admitted (putHome { h with admitted := true, firm := 0 } s)
  else putHome h s

/-- GRANT at the home (R229, R231). -/
def grant (s : State) : State :=
  match takeBand 0x10 s with
  | none => s
  | some (p, m, s1) =>
    match m.msg with
    | .grant _ _ axis gsize rank r0 =>
      let new : HomeSes := { gsid := p.session, ctx := m.ctx, step := m.step, axis := axis, gsize := gsize, rank0 := r0 }
      match home? s1 p.session with
      | none => homeAdmit { new with granted := rankBit rank } s1
      | some h =>
        if h.step != m.step then homeSend new (.abort cSessionConflict 0 true) s1
        else if h.axis != axis || h.gsize != gsize || h.rank0 != r0 || h.granted.getLsbD rank then
          let s2 := homeSend h (.abort cGroupInvalid 0 true) (dropHome p.session s1)
          if h.axis != axis || h.gsize != gsize || h.rank0 != r0 then homeSend new (.abort cGroupInvalid 0 true) s2 else s2
        else homeAdmit { h with granted := h.granted ||| rankBit rank } s1
    | _ => s1

def execGrant (s : State) : Host.Outcome State Fault Refusal :=
  .next (if intakeOn s then grant s else s)

/-- A home message of a member: the home's record and the member's group rank. -/
def homeMsg (t : Nat) (s : State) : Option (HomeSes × Nat × State) ⊕ State :=
  match takeBand t s with
  | none => .inr s
  | some (p, m, s1) =>
    match home? s1 p.session with
    | none => .inr s1
    | some h => if h.step = m.step then .inl (some (h, homeRank s1 h (s1.rtr.toLogical p.src), s1)) else .inr s1

/-- REVOKE: the member's grant is withdrawn; a session no member grants any more is no longer coordinated. -/
def revoke (s : State) : State :=
  match homeMsg 0x11 s with
  | .inl (some (h, k, s1)) =>
    let g := h.granted &&& ~~~(rankBit k)
    if g = 0 && !h.admitted then dropHome h.gsid s1 else putHome { h with granted := g } s1
  | .inl none => s
  | .inr s1 => s1

def execRevoke (s : State) : Host.Outcome State Fault Refusal :=
  .next (if intakeOn s then revoke s else s)

/-- FIRM: GO goes to every member once each is firm, and coordination ends. -/
def firm (s : State) : State :=
  match homeMsg 0x13 s with
  | .inl (some (h, k, s1)) =>
    if !h.admitted then s1
    else
      let f := h.firm ||| rankBit k
      if f = fullMask h.gsize then homeSend h .go (dropHome h.gsid s1) else putHome { h with firm := f } s1
  | .inl none => s
  | .inr s1 => s1

def execFirm (s : State) : Host.Outcome State Fault Refusal :=
  .next (if intakeOn s then firm s else s)

/-- REFUSE: RETRACT goes to every member, and the home awaits the refusing member's next GRANT. -/
def refuse (s : State) : State :=
  match homeMsg 0x14 s with
  | .inl (some (h, k, s1)) =>
    if !h.admitted then s1
    else homeSend h .retract (putHome { h with admitted := false, firm := 0, granted := h.granted &&& ~~~(rankBit k) } s1)
  | .inl none => s
  | .inr s1 => s1

def execRefuse (s : State) : Host.Outcome State Fault Refusal :=
  .next (if intakeOn s then refuse s else s)

end Sys2Proof.Machine
end

