-- ==== Sys2Proof/Machine/Finish.lean ====
section
/-! DEFINITION. Machine/Finish.lean: FIN: result chunks finished and converted, and the finish and row entries (08 R242 to
R251, R263 to R266, R498; 16 R471). -/

namespace Sys2Proof.Machine

/-! ### Indexed entries (16 R471) -/

/-- Word i of an entry at its commit: the held word, else the committed one. -/
def heldWord (held : List (Nat × W64)) (old i : Nat) : Nat :=
  match assoc? held i with
  | some v => v.toNat
  | none => bits old (64 * i + 63) (64 * i)

/-- Words of an entry from word 0 on, with the bits that exist. -/
def joinWords (l : List Nat) : Nat := l.foldr (fun w n => w + 2 ^ 64 * n) 0

/-! ### FIN (R245 to R249) -/

/-- u of R245: the element, scaled where the entry says so. -/
def finScaled (e v : Nat) : F32 :=
  let x : F32 := BitVec.ofNat 32 v
  if finScaleEn e then f32Mul x (finScale e) else x

/-- p of a forward entry for element g. -/
def finPre (e : Nat) (bias : Nat → F32) (v g : Nat) : F32 :=
  if finBiasEn e then f32Add (finScaled e v) (bias (g % max 1 (finCols e))) else finScaled e v

/-- y of R245 for the elements of a chunk, with what its auxiliary reads gave. -/
def finValues (e : Nat) (it : FinItem) : List Nat :=
  (List.range it.vals.length).zipWith (fun i v =>
    match finMode e with
    | 0 => (activation (finAct e) (finPre e (fun c => it.bias.getD c 0) v (it.first + i))).toNat
    | 1 =>
      let u := finScaled e v
      (if finAct e = 0 then u else f32Mul u (activationD (finAct e) (it.pre.getD i 0))).toNat
    | _ => v) it.vals

/-- The pre-activations of a forward chunk. -/
def preValues (e : Nat) (it : FinItem) : List Nat :=
  (List.range it.vals.length).zipWith (fun i v => (finPre e (fun c => it.bias.getD c 0) v (it.first + i)).toNat) it.vals

/-- First element of a session's output, counted in its elements: the shard's for a reduction (R215). -/
def outBase (x : Session) : Nat := if isReduce x.d.opc then x.rank * shardQ x.d x.n else 0
/-- Elements of a session's output (R250). -/
def outLen (x : Session) : Nat := if isReduce x.d.opc then shardLen x.d x.n x.rank else x.d.count

/-- A saved pre-activation is written with the output (R245, R248). -/
def savePre (slot : Nat) (x : Session) (e i0 : Nat) (vs : List Nat) (s : State) : State :=
  let r := encodeOut (finPreFmt e) false false vs
  countOut r (writeSpan (.session slot 0 none) (preAddr s x e i0) r.elems (i0 + vs.length == outLen x) s)

/-- One chunk through FIN and the conversion (R243 to R250). -/
def finishItem (it : FinItem) (s : State) : State :=
  match slot? s it.slot with
  | none => s
  | some x =>
    let e := finEntry s x.d.stageCfg
    let i0 := it.first - outBase x
    let s1 := if x.d.fin && finMode e = 0 && finSavePre e then
        savePre it.slot x e i0 (preValues e it) s else s
    let vs := if x.d.fin then finValues e it else it.vals
    let r := if it.fmt = 0 then encodeOut x.d.fmtOut (x.d.fin && finSat e) (x.d.fin && finMx e) vs else copyOut x.d.fmtOut vs []
    progress it.slot (deliverOut it.slot it.tag (outLen x) i0 r (countOut r s1))

/-- The chunk that enters FIN next: the oldest whose reads have returned. -/
def finNext (s : State) : Option FinItem := s.fin.queue.find? fun it => it.reads.all fun t => !readOut s t

/-- FIN_CHUNK (R248). -/
def finChunk (s : State) : State :=
  if !empReady s || datapathOff s then s
  else match finNext s with
  | none => s
  | some it => tryComplete it.slot (finishItem it (mFin (fun f => { f with queue := f.queue.erase it }) s))

def execFinChunk (s : State) : Host.Outcome State Fault Refusal :=
  .next (if ctlOn s then finChunk s else s)

/-! ### Finish and row entries (R263 to R266) -/

def finMask0 : Nat := 0x7F + 0x3F00 + 0x30000 + 0x3F000000 + 0x80000000 + 0xFFFFFFFF00000000
def finMask1 : Nat := 0xFFFFFF + 0xFFFFFFFF00000000

/-- The checks of R263 at a commit. -/
def finBad (e : Nat) : Bool :=
  finMode e = 3 || finEwOp e = 3 || finPreFmt e > 2 ||
    (finMode e = 2 && (finAct e != 0 || finScaleEn e || finBiasEn e || finSavePre e)) ||
    (finMode e = 1 && (finBiasEn e || finSavePre e)) || (finBiasEn e && finCols e = 0)

def finEntryCommit (v : W64) (s : State) : State :=
  let i := s.fin.index.toNat
  let old := finEntry s i
  let w1 := match s.fin.held with
    | some h => h.toNat
    | none => bits old 127 64
  let e := joinWords [v.toNat &&& finMask0, w1 &&& finMask1]
  let s1 := mFin (fun f => { f with held := none }) s
  if cfgNamed s [0x01, 0x0B] i then pageErr pgFin cRegionBusy s1
  else if finBad e then pageErr pgFin cConfigInvalid s1
  else mFin (fun f => { f with entries := Sparse.set 0 f.entries i (BitVec.ofNat 128 e) }) s1

def execFinEntryCommit (value : W64) (s : State) : Host.Outcome State Fault Refusal :=
  .next (if ctlOn s then finEntryCommit value s else holdAccess 5 (.finEntryCommit value) s)

def rowMask0 : Nat := 0xFFF + 0x1FFFC0000 + 0x8000000000000000
def rowMask1 : Nat := 0x00FFFFFFFFFFFFFF
def rowMask2 : Nat := 0x000000FFFFFFFFFF

/-- The checks of R265 at a commit. -/
def rowBad (e : Nat) : Bool :=
  rowMode e ≥ 6 || rowHold e < 2 || rowHold e > 16 || rowK e = 0 || rowXFmt e > 2 || (rowBeta e && rowMode e != 0) ||
    rowBlock e * rowStatsOf (rowMode e) > 1024

def rowEntryCommit (v : W64) (s : State) : State :=
  let i := s.row.index.toNat
  let old := rowEntry s i
  let e := joinWords [v.toNat &&& rowMask0, heldWord s.row.held old 1 &&& rowMask1, heldWord s.row.held old 2 &&& rowMask2]
  let s1 := mRow (fun r => { r with held := [] }) s
  if cfgNamed s [0x06] i then pageErr pgRow cRegionBusy s1
  else if rowBad e then pageErr pgRow cConfigInvalid s1
  else mRow (fun r => { r with entries := Sparse.set 0 r.entries i (BitVec.ofNat 192 e) }) s1

def execRowEntryCommit (value : W64) (s : State) : Host.Outcome State Fault Refusal :=
  .next (if ctlOn s then rowEntryCommit value s else holdAccess 5 (.rowEntryCommit value) s)

/-- ENTRY_INDEX_WRITE (16 R471): a page's entry is selected and its held words are discarded. UPROG_INDEX and STASH_INDEX
select words that are not held. -/
def entryIndexWrite (reg : IndexReg) (v : W32) (s : State) : State :=
  match reg with
  | .fin => mFin (fun f => { f with index := v.extractLsb' 0 8, held := none }) s
  | .row => mRow (fun r => { r with index := v.extractLsb' 0 8, held := [] }) s
  | .gas => mGas (fun g => { g with bktIndex := v.extractLsb' 0 12, held := [] }) s
  | .opt => mOpt (fun o => { o with entIndex := v.extractLsb' 0 6, held := [] }) s
  | .uprog => mOpt (fun o => { o with upIndex := v.extractLsb' 0 6 }) s
  | .spx => mSpx (fun x => { x with index := v.extractLsb' 0 8, held := [] }) s
  | .stash => mSpx (fun x => { x with stashIndex := v.extractLsb' 0 4 }) s

def execEntryIndexWrite (reg : IndexReg) (value : W32) (s : State) : Host.Outcome State Fault Refusal :=
  .next (if ctlOn s then entryIndexWrite reg value s else holdAccess 5 (.entryIndexWrite reg value) s)

end Sys2Proof.Machine
end

