-- ==== Sys2Proof/Machine/Exchange.lean ====
section
/-! DEFINITION. Machine/Exchange.lean: expert exchange, point-to-point transfer and the stash (10 R318 to R332). -/

namespace Sys2Proof.Machine

/-! ### Expert dispatch (R319, R320) -/

/-- EXPERT_DISPATCH_ROUTE: the whole table is read; once it is here it is checked, and every token takes its slots. -/
def expertDispatchRoute (slot : Nat) (s : State) : State :=
  match slot? s slot with
  | none => s
  | some x =>
    if x.d.opc != 0x09 || x.routed || !x.locals.isEmpty || issueStopped s || !sessionFree s x then s
    else
      let rd := readFor (.session slot x.gsid) (regAddr s x.ctx x.d.auxReg x.d.auxOff) (16 * tokenCount s x) s
      addLocal slot { reads := [rd.1], tag := none, seq := 0, work := .route } (progress slot rd.2)

def execExpertDispatchRoute (slot : Fin 4096) (s : State) : Host.Outcome State Fault Refusal :=
  .next (if ctlOn s then expertDispatchRoute slot.val s else s)

/-! ### Expert packets (R322, R323) -/

/-- Header and payload of an expert packet's body. -/
def expertHdr (p : Packet) : ExpertHdr := ExpertHdr.ofBytes (slice p.body 0 40)
def expertPayload (p : Packet) : List Byte := slice p.body 104 (expertHdr p).bytes_

/-- Bytes of the block that an expert packet's offset counts from. -/
def expertRoom (s : State) (x : Session) (kind : Nat) : Nat :=
  let e := spxEntry s x.d.stageCfg
  let rows := spxELocal e * x.n * spxCap e
  if kind = 2 then rows * rowBytes x.d.fmtIn (spxRow e) else countBlock (spxELocal e) x.n + rows * rowBytes x.d.fmtOut (spxRow e)

/-- Place an expert packet in its session. One that fits no session, or whose rows would lie outside the destination, lands
nowhere (14 R440). -/
def placeExpert (p : Packet) (s : State) : State :=
  let h := expertHdr p
  match slotOfGsid s p.session with
  | none => s
  | some i =>
    match slot? s i with
    | none => s
    | some x =>
      let rank := s.rtr.rank x.d.axis (s.rtr.toLogical p.src) - x.base
      if h.bucket != x.d.bucket || rank ≥ x.n || x.d.opc != (if h.kind = 2 then 0x0A else 0x09) then s
      else if h.kind = 1 then
        let k := spxELocal (spxEntry s x.d.stageCfg)
        tryComplete i (writeCounts i rank x (((pieces 4 (slice (expertPayload p) 0 (4 * k))).map leNat)) none (progress i s))
      else if h.offset + h.bytes_ > expertRoom s x h.kind then (if h.kind = 2 then endSpx i cRoutingInvalid s else s)
      else landExpert i rank x h.kind h.offset (expertPayload p) none (progress i s)

def isExpertPkt (p : Packet) : Bool := p.ptype == ptExpert

/-- EXPERT_PACKET: the oldest expert packet at this chip. -/
def expertPacket (s : State) : State :=
  match takeInbox isExpertPkt s with
  | none => s
  | some (p, s1) => if (expertHdr p).kind ≤ 2 then placeExpert p s1 else s1

def execExpertPacket (s : State) : Host.Outcome State Fault Refusal :=
  .next (if ctlOn s then expertPacket s else s)

/-- Every assigned row has landed. -/
def combineLanded (s : State) (slot : Nat) (x : Session) : Bool :=
  ((List.range x.n).map fun r => Sparse.get 0 x.expertBytes r).foldl (· + ·) 0 ≥ combineDue s x &&
    !s.emp.writes.any (fun w => match w.purpose with
      | .session i _ _ => i == slot
      | _ => false)

/-- EXPERT_COMBINE_OUTPUT: the table and the landed rows are read, and the token outputs are then written in ascending order. -/
def expertCombineOutput (slot : Nat) (s : State) : State :=
  match slot? s slot with
  | none => s
  | some x =>
    if x.d.opc != 0x0A || x.combined || (x.locals.any fun o => o.work == .tokens) || issueStopped s || !sessionFree s x ||
        !combineLanded s slot x then s
    else
      let e := spxEntry s x.d.stageCfg
      let rows := x.n * spxELocal e * spxCap e * rowBytes x.d.fmtIn (spxRow e)
      let rt := readFor (.session slot x.gsid) (regAddr s x.ctx x.d.auxReg x.d.auxOff) (16 * tokenCount s x) s
      let rd := readFor (.session slot x.gsid) (expertAddr s x 2 0) rows rt.2
      addLocal slot { reads := [rt.1, rd.1], tag := none, seq := 0, work := .tokens } (progress slot rd.2)

def execExpertCombineOutput (slot : Fin 4096) (s : State) : Host.Outcome State Fault Refusal :=
  .next (if ctlOn s then expertCombineOutput slot.val s else s)

/-! ### SEND and RECEIVE (R324, R326) -/

/-- CLEAR_TO_SEND: the SEND may issue its chunks, or its COUNT or FMT_OUT is not the receiver's. -/
def clearToSend (s : State) : State :=
  match takeBand 0x07 s with
  | none => s
  | some (p, m, s1) =>
    match m.msg, slotOfGsid s1 p.session with
    | .clearToSend count fmt, some i =>
      match slot? s1 i with
      | none => s1
      | some x =>
        if x.d.opc != 0x04 then s1
        else if x.d.count != count || x.d.fmtOut != fmt then endSpx i cFieldInvalid s1
        else progress i (mSlot i (fun x => { x with cts := true }) s1)
    | _, _ => s1

def execClearToSend (s : State) : Host.Outcome State Fault Refusal :=
  .next (if ctlOn s then clearToSend s else s)

/-- The stash entry that a RECEIVE took is free for it (R326). -/
def stashReady (s : State) (x : Session) : Bool :=
  match x.stash with
  | none => true
  | some (i, a) => let e := stashOf s i; decide ((a - e.released).toNat < stNent e.cfg)

/-- RECEIVE_READY: a RECEIVE that is ready sends CLEAR_TO_SEND; one that is not counts once as having waited. -/
def receiveReady (slot : Nat) (s : State) : State :=
  match slot? s slot with
  | none => s
  | some x =>
    if x.d.opc != 0x05 || x.ctsSent || issueStopped s || !sessionFree s x then s
    else if stashReady s x then
      sendBand (memberOf s x x.d.peer) x.ctx x.d.step x.gsid (.clearToSend x.d.count x.d.fmtOut)
        (mSlot slot (fun x => { x with ctsSent := true, progTick := s.tick }) s)
    else if x.stashWaited then s
    else bump pgSpx (·.spx.stashFullEvents) (fun v => mSpx fun p => { p with stashFullEvents := v }) 1
      (mSlot slot (fun x => { x with stashWaited := true }) s)

def execReceiveReady (slot : Fin 4096) (s : State) : Host.Outcome State Fault Refusal :=
  .next (if ctlOn s then receiveReady slot.val s else s)

/-! ### Stash and exchange entries (R325, R327, R330 to R332) -/

/-- STASH_RELEASE: a write of RELEASE through a context window. -/
def stashRelease (who : Requester) (ctx i : Nat) (v : W32) (s : State) : State :=
  let e := stashOf s i
  if !mayReach who ctx (stCtx e.cfg) then denyWindow pgSpx ctx s
  else if v.toNat > (e.filled - e.released).toNat then pageErr pgSpx cConfigInvalid s
  else mSpx (fun p => { p with stash := Sparse.modify {} p.stash i fun e => { e with released := e.released + v } }) s

def execStashRelease (who : Requester) (ctx : Fin 64) (stash : Fin 16) (value : W32) (s : State) :
    Host.Outcome State Fault Refusal :=
  .next (if ctlOn s then stashRelease who ctx.val stash.val value s else holdAccess 5 (.stashRelease who ctx stash value) s)

/-- A RECEIVE holds an entry of a stash. -/
def stashNamed (s : State) (i : Nat) : Bool :=
  s.ses.slots.any fun p => p.2.d.opc == 0x05 && (match p.2.stash with
    | some (j, _) => j == i
    | none => false)

/-- STASH_CFG_WRITE to the stash that STASH_INDEX selects. -/
def stashCfgWrite (v : W64) (s : State) : State :=
  let i := s.spx.stashIndex.toNat
  let cfg : W64 := v &&& 0x80001FFF001F3FFF
  let log2 := bits v.toNat 20 16
  if stashNamed s i then pageErr pgSpx cRegionBusy s
  else if log2 < 12 || log2 > 30 || stNent cfg = 0 then pageErr pgSpx cConfigInvalid s
  else mSpx (fun p =>
    { p with stash := Sparse.modify {} p.stash i fun e =>
        if stValid cfg && !stValid e.cfg then { cfg := cfg } else { e with cfg := cfg } }) s

def execStashCfgWrite (value : W64) (s : State) : Host.Outcome State Fault Refusal :=
  .next (if ctlOn s then stashCfgWrite value s else holdAccess 5 (.stashCfgWrite value) s)

def spxMask0 : Nat := 0x8000FFFF07FF3F0F
def spxMask2 : Nat := 0xFFFFFFFF

/-- The checks of R331. -/
def spxBad (e : Nat) : Bool :=
  spxKind e ≥ 2 || (spxKind e = 0 && spxKMax e = 0) ||
    (spxKind e = 1 && (spxELocal e < 1 || spxELocal e > 1024 || spxCap e = 0 || spxRow e = 0))

def spxEntryCommit (v : W64) (s : State) : State :=
  let i := s.spx.index.toNat
  let old := spxEntry s i
  let e := joinWords [v.toNat &&& spxMask0, heldWord s.spx.held old 1, heldWord s.spx.held old 2 &&& spxMask2]
  let s1 := mSpx (fun p => { p with held := [] }) s
  if cfgNamed s [0x08, 0x09, 0x0A] i then pageErr pgSpx cRegionBusy s1
  else if spxBad e then pageErr pgSpx cConfigInvalid s1
  else mSpx (fun p => { p with entries := Sparse.set 0 p.entries i (BitVec.ofNat 192 e) }) s1

def execSpxEntryCommit (value : W64) (s : State) : Host.Outcome State Fault Refusal :=
  .next (if ctlOn s then spxEntryCommit value s else holdAccess 5 (.spxEntryCommit value) s)

end Sys2Proof.Machine
end

