-- ==== Sys2Proof/Machine/Seu.lean ====
section
/-! DEFINITION. Machine/Seu.lean: the optimizer's lanes: arithmetic in every format, the built-in rules and the microprogram
(09 R285, R287, R288, R290). -/

namespace Sys2Proof.Machine

/-! ### Eight-bit formats as binary32 -/

/-- The binary32 value of an E4M3 element; a NaN keeps its mantissa bits (log 30). -/
def widenE4m3 (raw : Nat) : F32 :=
  let neg := bit raw 7
  let e := bits raw 6 3
  let m := bits raw 2 0
  if raw % 128 = 0x7F then BitVec.ofNat 32 ((if neg then 2 ^ 31 else 0) + 0x7F800000 + m * 2 ^ 20)
  else if e = 0 then f32Round neg m (2 ^ 9)
  else f32Round neg ((8 + m) * 2 ^ e) (2 ^ 10)

/-- The binary32 value of an E5M2 element; a NaN keeps its mantissa bits (log 30). -/
def widenE5m2 (raw : Nat) : F32 :=
  let neg := bit raw 7
  let e := bits raw 6 2
  let m := bits raw 1 0
  if e = 31 then BitVec.ofNat 32 ((if neg then 2 ^ 31 else 0) + 0x7F800000 + m * 2 ^ 21)
  else if e = 0 then f32Round neg m (2 ^ 16)
  else f32Round neg ((4 + m) * 2 ^ e) (2 ^ 17)

/-- The binary32 value of an element of a format 0 to 4. -/
def widenAny (f raw : Nat) : F32 := if f = 3 then widenE4m3 raw else if f = 4 then widenE5m2 raw else widen f raw

/-- Convert to a format with SAT = 1 and widen again: how a lane holds a value of a narrow format (R287). -/
def seuHold (f : Nat) (x : F32) : F32 := widenAny f (convert f true x).raw

/-! ### One operation (R244, R287) -/

/-- The exact result of an operation, before the one rounding. -/
inductive Exact where
  /-- a value that no rounding changes: a NaN, an infinity, a zero -/
  | val (x : F32)
  | rat (neg : Bool) (num den : Nat)
deriving DecidableEq, Repr

/-- Round an exact result once to a format, held in binary32. -/
def Exact.round (f : Nat) (x : Exact) : F32 :=
  let narrow (mb bias maxFin width neg num den : Nat) : F32 :=
    widenAny f ((if neg = 1 then 2 ^ (width - 1) else 0) + min (encodeMag mb bias num den) maxFin)
  match x with
  | .val v => if f = 0 then v else seuHold f v
  | .rat neg num den =>
    match f with
    | 1 => narrow 7 127 0x7F7F 16 (b2n neg) num den
    | 3 => narrow 3 7 0x7E 8 (b2n neg) num den
    | 4 => narrow 2 15 0x7B 8 (b2n neg) num den
    | _ => f32Round neg num den

/-- The first NaN of a list of operands, quieted. -/
def firstNaN (l : List F32) : Option F32 := (l.find? f32IsNaN).map f32Quiet

/-- A zero with a sign. -/
def signedZero (neg : Bool) : F32 := if neg then 0x80000000 else 0
def signedInf (neg : Bool) : F32 := if neg then 0xFF800000 else f32Inf

/-- a × b + c exactly, in units of 2^-298, no operand a NaN; neg inverts the product's sign. -/
def exactFma (inv : Bool) (a b c : F32) : Exact :=
  let pn := (f32Neg a != f32Neg b) != inv
  if f32IsInf a || f32IsInf b then
    if f32IsZero a || f32IsZero b || (f32IsInf c && f32Neg c != pn) then .val f32NaN else .val (signedInf pn)
  else if f32IsInf c then .val c
  else
    let p : Int := Int.ofNat (f32Mag a * f32Mag b)
    let v := (if pn then -p else p) + f32Int c * 2 ^ 149
    if v = 0 then .val (signedZero (p == 0 && f32IsZero c && pn && f32Neg c)) else .rat (v < 0) v.natAbs (2 ^ 298)

def exactDiv (a b : F32) : Exact :=
  let neg := f32Neg a != f32Neg b
  if f32IsInf a then (if f32IsInf b then .val f32NaN else .val (signedInf neg))
  else if f32IsInf b then .val (signedZero neg)
  else if f32IsZero b then (if f32IsZero a then .val f32NaN else .val (signedInf neg))
  else if f32IsZero a then .val (signedZero neg)
  else .rat neg (f32Mag a) (f32Mag b)

/-- A square root to 300 fraction bits, with a sticky bit for an inexact one. -/
def exactSqrt (a : F32) : Exact :=
  if f32IsZero a then .val a
  else if f32Neg a then .val f32NaN
  else if f32IsInf a then .val a
  else
    let y := f32Mag a * 2 ^ 600
    let r := isqrt (y / 2 ^ 149)
    if r * r * 2 ^ 149 = y then .rat false r (2 ^ 300) else .rat false (2 * r + 1) (2 ^ 301)

/-- The operands an operation reads: 1, 2 or 3. -/
def opArity (op : Nat) : Nat :=
  if op = 7 || op = 11 || op = 12 then 1 else if op = 4 || op = 5 || op = 10 then 3 else 2

/-- One operation on operands that are already in the format. A NaN operand is the result, quieted, the one written first in
R287 first; FNMA is written c - a × b (log 30). -/
def seuExact (op : Nat) (a b c : F32) : Exact :=
  let nan? (l : List F32) (e : Exact) : Exact := match firstNaN l with
    | some n => .val n
    | none => e
  match op with
  | 1 => nan? [a, b] (exactFma false a f32One b)
  | 2 => nan? [a, b] (exactFma false a f32One (b ^^^ 0x80000000))
  | 3 => nan? [a, b] (exactFma false a b (signedZero (f32Neg a != f32Neg b)))
  | 4 => nan? [a, b, c] (exactFma false a b c)
  | 5 => nan? [c, a, b] (exactFma true a b c)
  | 6 => nan? [a, b] (exactDiv a b)
  | 7 => nan? [a] (exactSqrt a)
  | 8 => .val (f32Min a b)
  | 9 => .val (f32Max a b)
  | 10 => .val (if f32Gt a 0 then b else c)
  | 11 => nan? [a] (.val (a &&& 0x7FFFFFFF))
  | _ => .val a

/-- The element format of a microprogram's FMT field (R290). -/
def seuFmt (v : Nat) : Nat := if v = 0 then 0 else if v = 1 then 1 else if v = 2 then 3 else 4

/-- One operation in a format. -/
def seuOp (op f : Nat) (a b c : F32) : F32 :=
  if f = 0 then (seuExact op a b c).round 0 else (seuExact op (seuHold f a) (seuHold f b) (seuHold f c)).round f

def f32Fma (a b c : F32) : F32 := seuOp 4 0 a b c
def f32Fnma (a b c : F32) : F32 := seuOp 5 0 a b c

/-! ### Rules (R285, R288, R290) -/

/-- The sixteen registers of a lane. -/
def laneStart (g w s1 s2 : F32) : List F32 := [g, w, s1, s2] ++ List.replicate 12 0

def vr (l : List F32) (i : Nat) : F32 := l.getD i 0

def ruleSgd (k v : List F32) : List F32 :=
  let gs := f32Mul (vr v 0) (vr k 0)
  let t := f32Fma (vr k 5) (vr v 1) gs
  v.set 1 (f32Fnma (vr k 1) t (vr v 1))

def ruleMomentum (k v : List F32) : List F32 :=
  let gs := f32Mul (vr v 0) (vr k 0)
  let t := f32Fma (vr k 5) (vr v 1) gs
  let v2 := f32Fma (vr k 2) (vr v 2) t
  (v.set 2 v2).set 1 (f32Fnma (vr k 1) v2 (vr v 1))

def ruleAdam (k v : List F32) : List F32 :=
  let gs := f32Mul (vr v 0) (vr k 0)
  let t1 := f32Mul (vr k 8) gs
  let v2 := f32Fma (vr k 2) (vr v 2) t1
  let g2 := f32Mul gs gs
  let t2 := f32Mul (vr k 9) g2
  let v3 := f32Fma (vr k 3) (vr v 3) t2
  let mh := f32Mul v2 (vr k 6)
  let vh := f32Mul v3 (vr k 7)
  let sd := f32Sqrt vh
  let d := f32Add sd (vr k 4)
  let u := f32Div mh d
  let t3 := f32Fma (vr k 5) (vr v 1) u
  ((v.set 2 v2).set 3 v3).set 1 (f32Fnma (vr k 1) t3 (vr v 1))

/-- Instruction i of the microprogram store. -/
def uprogAt (s : State) (i : Nat) : Nat := (Sparse.get (0 : W32) s.opt.uprog i).toNat

/-- One instruction of the microprogram. -/
def runUop (k : List F32) (w : Nat) (v : List F32) : List F32 :=
  let rd (n hi lo : Nat) : F32 := if bit w n then vr k (bits w hi lo) else vr v (bits w hi lo)
  v.set (bits w 11 8) (seuOp (bits w 5 0) (seuFmt (bits w 7 6)) (rd 24 15 12) (rd 25 19 16) (rd 26 23 20))

/-- Run an optimizer entry's rule on a lane. -/
def runRule (s : State) (i : Nat) (k v : List F32) : List F32 :=
  match optRule s i with
  | 0 => ruleSgd k v
  | 1 => ruleMomentum k v
  | 2 => ruleAdam k v
  | _ => (List.range (optUpLen s i)).foldl (fun v j => runUop k (uprogAt s (optUpStart s i + j)) v) v

/-- The microprogram refusals of R290 for an entry. -/
def uprogBad (s : State) (i : Nat) : Bool :=
  optUpLen s i == 0 || decide (optUpStart s i + optUpLen s i > 64) ||
    (List.range (optUpLen s i)).any fun j =>
      let w := uprogAt s (optUpStart s i + j)
      let op := bits w 5 0
      op == 0 || decide (op ≥ 0x0D) || bits w 31 27 != 0 || bits w 11 8 == 0 ||
        (bit w 25 && decide (opArity op < 2)) || (bit w 26 && decide (opArity op < 3))

end Sys2Proof.Machine
end

