-- ==== Sys2Proof/Machine/Update.lean ====
section
/-! DEFINITION. Machine/Update.lean: the step: the commands RELEASE_CONTRIBUTION, STEP_DEADLINE, UPDATE_WAVE, COMMIT_VOTE,
STEP_ENABLE, STEP_DISABLE, BUCKET_ENTRY_COMMIT, OPT_ENTRY_COMMIT and UPROG_WRITE (09 R269, R280, R285, R286, R290,
R295, R296, R300 to R305). -/

namespace Sys2Proof.Machine

/-! ### The release contribution (09 R280) -/

/-- Issue an arrival of the step machine on channel 14 or 15; where its result came first nothing is sent, and the result is
taken at once (11 R354). -/
def stepArrival (c : Nat) (fmt : Nat) (st : BandStatus) (v : W32) (s : State) : State :=
  let l := lastOf s c
  if !chanAhead s c then issueArrival c 0 s.opt.step 0 fmt 0 st v s
  else if c = 14 then stepVerdict (BandStatus.ofByte l.status.toNat) l.value (countArrived c s)
  else stepResult (BandStatus.ofByte l.status.toNat) s.opt.step (countArrived c s)

/-- Send the contribution and enter NORM_WAIT. An injected fault of kind 10 withholds the arrival (13 R417). -/
def sendContribution (late : Bool) (s : State) : State :=
  let v := sLocal s
  let st : BandStatus := ⟨late, s.opt.failed, nonFinite s, false, false⟩
  let s1 := decision 4 14 s.opt.step.toNat 0 0 v.toNat s
  let s2 := mOpt (fun o => { o with normLocal := v, late := late, state := 1 }) s1
  let s3 := if late then choice 4 0 0 s2 else s2
  if injOn s3 10 then countArrived 14 (fireInject s3) else stepArrival 14 0 st v s3

/-- The chip can contribute: in ACCUM, its last arrival on the channel released. -/
def mayContribute (s : State) : Bool :=
  s.opt.en && s.opt.state == 0 && !s.flt.ctlLost && !s.opt.authHalt && !chanBusy s 14

def contributionDue (s : State) : Bool := allReduced s || s.opt.failed

/-- RELEASE_CONTRIBUTION: every active bucket is REDUCED, or a gradient session failed. -/
def releaseContribution (s : State) : State :=
  if mayContribute s && contributionDue s then sendContribution false s else s

def execReleaseContribution (s : State) : Host.Outcome State Fault Refusal :=
  .next (if ctlOn s then releaseContribution s else s)

/-- STEP_DEADLINE: the deadline has passed first; in a replay, when the record says so (12 R383). -/
def stepDeadline (forced : Bool) (s : State) : State :=
  match s.opt.deadlineStart with
  | some t0 =>
    if mayContribute s && !contributionDue s && timerOut s t0 (max 1 s.opt.deadline.toNat) forced then
      sendContribution true s else s
  | none => if forced && mayContribute s && !contributionDue s then sendContribution true s else s

def execStepDeadline (s : State) : Host.Outcome State Fault Refusal :=
  .next (if ctlOn s then stepDeadline false s else s)

/-! ### Places of a bucket's state (09 R276, R285) -/

/-- q of a bucket: its latest gradient session's, else of a group whose size the entry does not name (log 29). -/
def bktQ (s : State) (b : Nat) : Nat :=
  let k := (bktOf s b).shard
  if k = 0 then cdiv (bkCount (bktEntry s b)) (1 + Config.bucketGroup b % 16) else k

/-- Q4: a part's bytes. -/
def bktQ4 (s : State) (b : Nat) : Nat := roundUp (4 * bktQ s b) 64

/-- Address of element i of part p of a bucket's state: 0 master, then the state words. -/
def stateAddr (s : State) (b p i : Nat) : Nat :=
  let e := bktEntry s b
  regAddr s (bkCtx e) (bkStateReg e) (bkStateOff e + p * bktQ4 s b + 4 * i)

/-- Address of parameter element i. -/
def paramAddr (s : State) (b i : Nat) : Nat :=
  let e := bktEntry s b
  regAddr s (bkCtx e) (bkParamReg e) (bkParamOff e + i * fmtSize (optPfmt s (bkOpt e)))

def readWord (s : State) (a : Nat) : F32 := BitVec.ofNat 32 (leNat (readBytes s.mem a 4))

/-- The parameter element a master word gives (R285). -/
def paramBytes (s : State) (i : Nat) (w : F32) : List Byte :=
  leBytes (fmtSize (optPfmt s i)) (convert (optPfmt s i) true w).raw

/-! ### UPDATE_WAVE (09 R285, R286) -/

/-- Active buckets in ascending TAG order. -/
def byTag (s : State) : List Nat :=
  sortBy (fun a b => bkTag (bktEntry s a) ≤ bkTag (bktEntry s b)) (activeBuckets s)

/-- The bucket of the next wave. -/
def nextWave (s : State) : Option Nat := (byTag s).find? fun b => (bktOf s b).waveAt < bktLen s b

/-- The lanes of a wave: registers at the rule's end, and the elements zeroed under POLICY 1. -/
def waveLanes (s : State) (b start n : Nat) (k : Park) : List (List F32) × Nat :=
  let i := bkOpt (bktEntry s b)
  let c := ((assoc? s.opt.consts i).map OptK.k).getD []
  let ns := optNState s i
  let gs := (List.range n).map fun j => readWord s (regAddr s k.ctx k.d.dstReg (k.d.dstOff + 4 * (start + j)))
  let zero (g : F32) : Bool := s.opt.policy && !f32IsFin g
  let st (p j : Nat) : F32 := if p ≤ ns then readWord s (stateAddr s b p (start + j)) else 0
  ((List.range n).zipWith (fun j g =>
    runRule s i c (laneStart (if zero g then 0 else g) (st 0 j) (st 1 j) (st 2 j))) gs, (gs.filter zero).length)

/-- The writes of a wave, as address and bytes: master, state words, parameters. -/
def waveWrites (s : State) (b start : Nat) (lanes : List (List F32)) : List (Nat × List Byte) :=
  let i := bkOpt (bktEntry s b)
  ((List.range (1 + optNState s i)).map fun p =>
    (stateAddr s b p start, lanes.flatMap fun v => leBytes 4 (vr v (1 + p)).toNat)) ++
  [(paramAddr s b start, lanes.flatMap fun v => paramBytes s i (vr v 1))]

/-- The cells a list of writes covers, as they stand. -/
def cellsOf (s : State) (l : List (Nat × List Byte)) : List Host.Cell :=
  l.flatMap fun w => (List.range w.2.length).map fun k => ((w.1 + k) % 2 ^ 48, readByte s.mem (w.1 + k))

/-- Run a wave: its reads keep what a poisoned return puts back (13 R394), and its writes await their WACKs. -/
def runWave (b : Nat) (k : Park) (s : State) : State :=
  let start := (bktOf s b).waveAt
  let n := min 16384 (bktLen s b - start)
  let lanes := waveLanes s b start n k
  let ws := waveWrites s b start lanes.1
  let undo := cellsOf s ws
  let s1 := empRead (.wave b start) (regAddr s k.ctx k.d.dstReg (k.d.dstOff + 4 * start)) (4 * n) undo s
  let s2 := foldS (List.range (1 + optNState s (bkOpt (bktEntry s b)))) s1 fun p s =>
    empRead (.wave b start) (stateAddr s b p start) (4 * n) undo s
  let s3 := foldS ws s2 fun w s => writeSpan (.wave b (start + n)) w.1 w.2 false s
  mBkt b (fun k => { k with waveAt := start + n })
    (bump pgOpt (·.opt.zeroed) (fun v => mOpt fun o => { o with zeroed := v }) lanes.2 s3)

def updateWave (s : State) : State :=
  if !s.opt.en || s.opt.state != 2 || gasStopped s || datapathOff s || !s.ctl.run then s
  else match nextWave s with
    | none => s
    | some b => match (bktOf s b).park with
      | none => s
      | some k => runWave b k s

def execUpdateWave (s : State) : Host.Outcome State Fault Refusal :=
  .next (if ctlOn s then updateWave s else s)

/-! ### COMMIT_VOTE (09 R295, R296) -/

/-- A bucket has nothing left for the tail: after UPDATE it is MIRRORED or fails the tail; with mirrors off it counts as
MIRRORED (log 31). -/
def tailOver (s : State) (b : Nat) : Bool :=
  let k := bktOf s b
  k.gathered && (s.opt.verdict != 1 || !s.opt.mirrorEn || k.mirrored || k.tailFail)

def commitVote (s : State) : State :=
  if !s.opt.en || s.opt.state != 3 || s.flt.ctlLost || s.opt.authHalt || chanBusy s 15 || !(activeBuckets s).all (tailOver s) then s
  else
    let fail := (activeBuckets s).any fun b => (bktOf s b).tailFail
    let s1 := decision 6 15 s.opt.step.toNat 0 (b2n fail) 0 s
    stepArrival 15 15 ⟨false, fail, false, false, false⟩ 0 (mOpt (fun o => { o with state := 4, voted := true }) s1)

def execCommitVote (s : State) : Host.Outcome State Fault Refusal :=
  .next (if ctlOn s then commitVote s else s)

/-! ### The checks of an EN write (09 R269, R275, R290, R305) -/

/-- PRE_REG is no source region of the preload's bytes. -/
def preloadBad (s : State) (e : Nat) : Bool :=
  let n := if bkPreload e = 1 then bkPeriod e else bkCount e
  (bkPreload e == 1 || bkPreload e == 2) &&
    (needCode s (bkCtx e) (Desc.ofWords []) false (srcNeed (bkPreReg e) (bkPreOff e) (4 * n))).isSome

/-- What R269 refuses in one valid entry by itself. -/
def bucketBad (s : State) (b : Nat) : Bool :=
  let e := bktEntry s b
  let r := regionOf s (bkCtx e) (bkGreg e)
  !r.valid || r.kind != 1 || bkBase e % 65536 != 0 || decide (bkBase e + 4 * bkCount e > r.len.toNat) || bkCount e == 0 ||
    (bkActive e && bkExpect e == 0) || bkPreload e == 3 || (bkPreload e == 1 && bkPeriod e == 0) ||
    bkPreOff e % 64 != 0 || bkParamOff e % 64 != 0 || bkStateOff e % 64 != 0 || bkMirrorOff e % 64 != 0 ||
    !optValid s (bkOpt e) || optCtx s (bkOpt e) != bkCtx e || preloadBad s e

/-- Two valid entries of one context share a TAG, or two share a span. -/
def bucketsClash (s : State) (a b : Nat) : Bool :=
  let x := bktEntry s a
  let y := bktEntry s b
  let p := bktSpans s a
  let q := bktSpans s b
  (bkCtx x == bkCtx y && bkTag x == bkTag y) || rangesMeet p.1 p.2 q.1 q.2

/-- An optimizer entry that R290 or R305 refuses. -/
def optBad (s : State) (i : Nat) : Bool := decide (optPfmt s i > 4) || (optRule s i == 3 && uprogBad s i)

def enableBad (s : State) : Bool :=
  let bs := bucketsWhere s fun b => bkValid (bktEntry s b)
  bs.any (bucketBad s) || bs.any (fun a => bs.any fun b => decide (a < b) && bucketsClash s a b) || (optValids s).any (optBad s)

/-! ### STEP_CTL (09 R295, R304) -/

/-- EN is set; the step start is this cycle when it was clear (12 R368). -/
def enStart (s : State) : State := mOpt (fun o => { o with en := true }) (mCtl (fun k => { k with stepStart := s.ccc }) s)

/-- EN becomes 1: ACCUM. A chip with no active bucket may contribute at once (R280). -/
def startStep (s : State) : State :=
  mOpt (fun o => { o with state := 0, failed := false, failedNext := false, late := false, voted := false }) (enStart s)

/-- The fields of STEP_CTL but EN. -/
def stepCtlFields (v : W32) (o : Opt) : Opt :=
  { o with
    policy := v.getLsbD 1, repeatMax := v.extractLsb' 4 4,
    mirrorVc := if v.extractLsb' 8 3 = 0 then 1 else v.extractLsb' 8 3, mirrorEn := v.getLsbD 11 }

/-- No deposit of the step has been counted. -/
def noDeposit (s : State) : Bool := (activeBuckets s).all fun b => (bktOf s b).deposits == 0

/-- A write to OPT.STEP_CTL: its other fields take effect whatever becomes of EN (log 32). -/
def stepCtlWrite (v : W32) (s : State) : State :=
  let s1 := mOpt (stepCtlFields v) s
  if v.getLsbD 0 == s.opt.en then s1
  else if v.getLsbD 0 then (if enableBad s1 then pageErr pgOpt cConfigInvalid s1 else startStep s1)
  else if s.opt.state = 0 && noDeposit s then mOpt (fun o => { o with en := false, state := 6 }) s1
  else pageErr pgOpt cConfigInvalid s1

def stepEnable (v : W32) (s : State) : State := if v.getLsbD 0 then stepCtlWrite v s else s
def stepDisable (v : W32) (s : State) : State := if v.getLsbD 0 then s else stepCtlWrite v s

def execStepEnable (value : W32) (s : State) : Host.Outcome State Fault Refusal :=
  .next (if ctlOn s then stepEnable value s else holdAccess 5 (.stepEnable value) s)

def execStepDisable (value : W32) (s : State) : Host.Outcome State Fault Refusal :=
  .next (if ctlOn s then stepDisable value s else holdAccess 5 (.stepDisable value) s)

/-! ### Entries -/

/-- The bits of each word of a bucket entry (R301). -/
def bktMask (i : Nat) : Nat :=
  [0x8000FF3FFFFF03FF, 0xFFFFFFFFFF, 0xFFFFFFFFFFFFFFF, 0x00FFFFFFFF0FFFFF, 0xFFFFFFFFFFFF, 0xFFFFFFFFFF, 0xFFFFFFFFFFFF,
    0xFFFFFFFFFF].getD i 0

/-- BUCKET_ENTRY_COMMIT: a write to BKT_DATA0 commits the held words with it (R269, R300). -/
def bucketEntryCommit (v : W64) (s : State) : State :=
  if s.opt.en then mGas (fun g => { g with held := [] }) (pageErr pgGas cRegionBusy s)
  else
    let b := s.gas.bktIndex.toNat
    let old := bktEntry s b
    let w (i : Nat) : Nat := (if i = 0 then v.toNat else heldWord s.gas.held old i) &&& bktMask i
    let e : BitVec 512 := BitVec.ofNat 512 (joinWords ((List.range 8).map w))
    mBkt b (fun k => { k with shard := 0 }) (mGas (fun g => { g with buckets := Sparse.set 0 g.buckets b e, held := [] }) s)

def execBucketEntryCommit (value : W64) (s : State) : Host.Outcome State Fault Refusal :=
  .next (if ctlOn s then bucketEntryCommit value s else holdAccess 5 (.bucketEntryCommit value) s)

/-- OPT_ENTRY_COMMIT: a write to OPT.ENT_DATA0 commits the held words with it; B1T and B2T are written only while EN = 0
(R303, R305). -/
def optEntryCommit (v : W32) (s : State) : State :=
  let i := s.opt.entIndex.toNat
  let w (n : Nat) : Nat :=
    if n = 0 then v.toNat &&& 0xBF1FFFFF
    else if s.opt.en && (n == 8 || n == 9) then optWord s i n
    else match assoc? s.opt.held n with
      | some x => x.toNat
      | none => optWord s i n
  let e : BitVec 512 := BitVec.ofNat 512 (((List.range 16).map w).foldr (fun x n => x + 2 ^ 32 * n) 0)
  mOpt (fun o => { o with entries := Sparse.set 0 o.entries i e, held := [] }) s

def execOptEntryCommit (value : W32) (s : State) : Host.Outcome State Fault Refusal :=
  .next (if ctlOn s then optEntryCommit value s else holdAccess 5 (.optEntryCommit value) s)

/-- UPROG_WRITE: a write to OPT.UPROG_DATA, only while EN = 0 (R290). -/
def uprogWrite (v : W32) (s : State) : State :=
  if s.opt.en then pageErr pgOpt cRegionBusy s
  else mOpt (fun o => { o with uprog := Sparse.set 0 o.uprog o.upIndex.toNat v }) s

def execUprogWrite (value : W32) (s : State) : Host.Outcome State Fault Refusal :=
  .next (if ctlOn s then uprogWrite value s else holdAccess 5 (.uprogWrite value) s)

end Sys2Proof.Machine
end

