-- ==== Sys2Proof/Machine/Mirror.lean ====
section
/-! DEFINITION. Machine/Mirror.lean: the end of a recovery command, the buddy mirror and the packets a RESTORE takes back: the
commands MIRROR_SEND, MIRROR_PACKET, MIRROR_ACK, MIRROR_TIMEOUT, RESTORE_RECORD_VERIFY and REC_TIMEOUT (09 R292 to R294;
13 R401, R405 to R409). -/

namespace Sys2Proof.Machine

/-! ### Recovery commands in progress (13 R401, R416, R421) -/

def recArgStep (s : State) : W16 := s.flt.recArg.extractLsb' 0 16
def recArgPhase (s : State) : Bool := s.flt.recArg.getLsbD 16
def recArgFinal (s : State) : Bool := s.flt.recArg.getLsbD 17
def recArgGen (s : State) : Bool := s.flt.recArg.getLsbD 18

/-- A recovery command of an OP is running. -/
def recOn (s : State) (op : Nat) : Bool := s.flt.recState == 1 && s.flt.recOp.toNat == op

/-- A command ends with a code; the message RECOVERY_DONE goes to the CMC. -/
def endRec (code : W16) (s : State) : State :=
  let s1 := mFlt (fun f => { f with recState := if code = cOk then 2 else 3, recCode := code }) (reportCode code s)
  sendMbx 0x41 [w32 (0x41 + code.toNat * 65536), w32 s.flt.recOp.toNat, w32 (recArgStep s).toNat] s1

/-- STATE_LOST is reported (R409): the step machine is off. -/
def reportLost (s : State) : State :=
  let u := recArgStep s
  let s1 := mOpt (fun o => { o with en := false, state := 6 }) (mFlt (fun f => { f with lostStep := BitVec.ofNat 17 (u.toNat + 65536) }) s)
  sendMbx 0x42 [w32 (0x42 + cStateLost.toNat * 65536), w32 u.toNat] (raiseStep (reportCode cStateLost s1))

/-- A RESTORE fails (R406). -/
def failRestore (s : State) : State :=
  let s1 := mOpt (fun o => { o with en := false, state := 6 }) s
  if recArgFinal s then endRec cStateLost (reportLost s1) else endRec cMirrorFailed s1

/-- Memory requests of a RESTORE are outstanding. -/
def restoreBusy (s : State) : Bool :=
  (s.emp.writes.any fun w => match w.purpose with
    | .restore _ => true
    | _ => false) ||
  s.emp.reads.any fun r => match r.purpose with
    | .restore _ => true
    | _ => false

/-- A RESTORE completes once its last packet has landed and every active bucket's record has been verified. -/
def tryEndRestore (s : State) : State :=
  if recOn s 3 && s.flt.recLast && !restoreBusy s && (activeBuckets s).all (fun b => (bktOf s b).verified) then endRec cOk s else s

/-! ### Records (09 R292, R293) -/

/-- Bytes of a bucket's record: seal, master, state words. -/
def recordBytes (s : State) (b : Nat) : Nat := 64 + (1 + optNState s (bkOpt (bktEntry s b))) * bktQ4 s b

/-- The q words of a part, as bytes. -/
def partBytes (s : State) (b p : Nat) : List Byte := readBytes s.mem (stateAddr s b p 0) (4 * bktQ s b)

/-- The CRC of a record's seal. -/
def recordCrc (s : State) (b : Nat) : Nat :=
  (crc32c ((List.range (1 + optNState s (bkOpt (bktEntry s b)))).flatMap (partBytes s b))).toNat

/-- The seal of a record of a step. -/
def sealBytes (s : State) (b : Nat) (step : W16) : List Byte :=
  leBytes 2 step.toNat ++ leBytes 2 (bkTag (bktEntry s b)) ++ leBytes 4 (bktQ s b) ++
    [BitVec.ofNat 8 (1 + optNState s (bkOpt (bktEntry s b))), 1] ++ List.replicate 6 0 ++ leBytes 4 (recordCrc s b) ++
    List.replicate 44 0

/-- A mirror packet to a logical destination, with its chunk's tag. -/
def mirrorPkt (s : State) (dst : Coord) (h : MirrorHdr) (payload : List Byte) (reads : List Nat) (tag : Option Nat) : Packet :=
  let k : Cuff :=
    { seq := h.seq, bucket := h.bucket, step := h.step, poison := false, inf := false, skip := false, noledger := true,
      pair := false, leaves := 1, lscale := 0, lsum := 0, lbound := 0, nans := 0, infs := 0 }
  let body := slice h.bytes 0 40 ++ k.bytes (pcrcOf payload) ++ payload4096 payload
  { mkPacket s dst ptMirror 0 s.opt.mirrorVc.toNat 0 body with reads := reads, tag := tag }

def buddyOf (s : State) : Coord := Coord.ofNibbles s.opt.buddy.toNat
def mirrorSrcOf (s : State) : Coord := Coord.ofNibbles (s.opt.mirrorSrc.toNat % 65536)

/-- What a bucket's record is being sent as: its step and its generation; and the elements that may be read back. A SEED
sends the committed step; else the record is of step U after an UPDATE verdict (R293, R407, R408). -/
def mirrorJob (s : State) (b : Nat) : Option (W16 × Bool × Nat) :=
  let k := bktOf s b
  if !bkActive (bktEntry s b) || k.mirrored || k.tailFail || k.sealSent then none
  else if recOn s 4 then some (s.opt.committed, recArgGen s, bktQ s b)
  else if s.opt.en && (s.opt.mirrorEn || recOn s 7) && s.opt.verdict == 1 && decide (2 ≤ s.opt.state.toNat) &&
      decide (s.opt.state.toNat ≤ 4) then
    some (s.opt.step, !s.opt.gen, if k.cursor ≥ bktLen s b then bktQ s b else k.cursor)
  else none

/-- A mirror chunk belongs to no session: its decision record has SLOT 0 and GSID 0, and its tag names none (log 78). -/
def noSlot : Nat := 2 ^ 16
def noGsid : Nat := 2 ^ 32

/-- Issue a mirror chunk: it takes a tag, the decision is folded, and the packet leaves (05 R165; 12 R372). -/
def issueMirror (b : Nat) (h : MirrorHdr) (payload : List Byte) (reads : List Nat) (s : State) : State :=
  match freeTag s with
  | none => s
  | some t =>
    let s1 := takeTag t noSlot noGsid h.seq (decision 2 noSlot noGsid t 0 h.seq s)
    mBkt b (fun k => { k with mirrorSeq := k.mirrorSeq + 1 }) (inject (mirrorPkt s1 (buddyOf s1) h payload reads (some t)) s1)

/-- Send n words of part p from element i, in packets of at most 1,024 words, and count the packets. -/
def sendPart (b p i n : Nat) (step : W16) (gen : Bool) (s : State) : State :=
  let tag := s.emp.nextTag
  let a := stateAddr s b p i
  let bytes := readBytes s.mem a (4 * n)
  let s1 := empRead (.mirror b) a (4 * n) [] s
  let ps := pieces 4096 bytes
  foldS ((List.range ps.length).zip ps) s1 fun q s =>
    let h : MirrorHdr :=
      { seq := (bktOf s b).mirrorSeq, bucket := bkTag (bktEntry s b), kind := p,
        offset := bkMirrorOff (bktEntry s b) + 64 + p * bktQ4 s b + 4 * i + 4096 * q.1, words := q.2.length / 4,
        last := false, step := step.toNat, gen := gen }
    issueMirror b h q.2 [tag] s

/-- Send the seal, the record's last packet; the wait for its acknowledgement begins. -/
def sendSeal (b : Nat) (step : W16) (gen : Bool) (s : State) : State :=
  let h : MirrorHdr :=
    { seq := (bktOf s b).mirrorSeq, bucket := bkTag (bktEntry s b), kind := 3, offset := bkMirrorOff (bktEntry s b),
      words := 16, last := true, step := step.toNat, gen := gen }
  mBkt b (fun k => { k with sealSent := true, mirrorTick := some s.tick }) (issueMirror b h (sealBytes s b step) [] s)

/-- MIRROR_SEND: the next wave of a bucket's record, then, after the last, the seal (R293). It waits while issue is stopped or
the wave's chunks find too few free tags. -/
def mirrorSend (b : Nat) (s : State) : State :=
  if !empReady s || issueStopped s then s
  else match mirrorJob s b with
    | none => s
    | some (step, gen, limit) =>
      let i := (bktOf s b).mirrorAt
      let n := min 16384 (bktQ s b - i)
      let parts := if n = 0 then 0 else 1 + optNState s (bkOpt (bktEntry s b))
      if i + n > limit || tagsHeld s + parts * cdiv n 1024 + 1 > 65536 then s
      else
        let s1 := foldS (List.range parts) s fun p s => sendPart b p i n step gen s
        let s2 := mBkt b (fun k => { k with mirrorAt := i + n }) s1
        if i + n ≥ bktQ s b then sendSeal b step gen s2 else s2

def execMirrorSend (bucket : Fin 4096) (s : State) : Host.Outcome State Fault Refusal :=
  .next (if ctlOn s then mirrorSend bucket.val s else s)

/-! ### Missing acknowledgements (09 R294) -/

/-- The record starts again from its first byte. -/
def Bkt.unsent (k : Bkt) : Bkt := { k with mirrorAt := 0, mirrorSeq := 0, sealSent := false, mirrorTick := none }

/-- A SEED leaves no mark behind: its records are not those of a step's tail. -/
def clearSent (s : State) : State :=
  foldS (activeBuckets s) s fun b s => mBkt b (fun k => { k.unsent with mirrored := false, resends := 0 }) s

/-- No acknowledgement arrived: the whole record is sent again, three times at most. -/
def mirrorMissing (b : Nat) (s : State) : State :=
  if (bktOf s b).resends < 3 then
    mBkt b (fun k => { k.unsent with resends := k.resends + 1 })
      (bump pgOpt (·.opt.mirrorResends) (fun v => mOpt fun o => { o with mirrorResends := v }) 1 s)
  else
    let s1 := pageErr pgOpt cMirrorFailed s
    if recOn s 4 then endRec cMirrorFailed (clearSent s1)
    else
      let s2 := mBkt b (fun k => { k with tailFail := true, mirrorTick := none }) s1
      if recOn s 7 then endRec cMirrorFailed s2 else s2

/-- Packets of a bucket's record that still wait at the local input for a read are not sent. -/
def dropMirror (tag : Nat) (s : State) : State :=
  mRtr (fun r => { r with inputs := Sparse.modify [] r.inputs 10 (fun l => l.filter (fun k => !(k.ptype == ptMirror && k.reads.contains tag))) }) s

/-- MIRROR_TIMEOUT: TIMEOUT ticks have passed since the seal. -/
def mirrorTimeout (b : Nat) (s : State) : State :=
  match (bktOf s b).mirrorTick with
  | none => s
  | some t0 =>
    if !(s.opt.en || recOn s 4) || (bktOf s b).mirrored || s.tick - t0 < s.opt.mirrorTimeout.toNat then s else mirrorMissing b s

def execMirrorTimeout (bucket : Fin 4096) (s : State) : Host.Outcome State Fault Refusal :=
  .next (if ctlOn s then mirrorTimeout bucket.val s else s)

/-- A SEED or REMIRROR counts an acknowledged record, and ends with the last one. -/
def countSent (s : State) : State :=
  if !(recOn s 4 || recOn s 7) then s
  else
    let n := ((activeBuckets s).filter fun b => (bktOf s b).mirrored).length
    let s1 := mFlt (fun f => { f with recDone := BitVec.ofNat 13 n }) s
    if n < (activeBuckets s).length then s1
    else endRec cOk (if recOn s 4 then clearSent s1 else s1)

/-- The step and generation that an acknowledgement must name. -/
def ackStep (s : State) : W16 := if recOn s 4 then s.opt.committed else s.opt.step
def ackGen (s : State) : Bool := if recOn s 4 then recArgGen s else !s.opt.gen

/-- MIRROR_ACK: the bucket's seal has been written at the buddy (R294). -/
def mirrorAck (s : State) : State :=
  match takeBand 0x08 s with
  | none => s
  | some (_, m, s1) => match m.msg with
    | .mirrorAck tag gen =>
      match (activeBuckets s1).find? fun b => bkTag (bktEntry s1 b) == tag && (bktOf s1 b).sealSent && !(bktOf s1 b).mirrored with
      | none => s1
      | some b =>
        if m.step == ackStep s1 && gen == ackGen s1 then
          countSent (mBkt b (fun k => { k with mirrored := true, mirrorTick := none }) s1)
        else s1
    | _ => s1

def execMirrorAck (s : State) : Host.Outcome State Fault Refusal :=
  .next (if ctlOn s then mirrorAck s else s)

/-! ### MIRROR_PACKET (09 R294, 13 R405) -/

def mirrorHdrOf (p : Packet) : MirrorHdr := MirrorHdr.ofBytes (slice p.body 0 40)
def mirrorPayload (p : Packet) : List Byte := slice p.body 104 (4 * (mirrorHdrOf p).words)

/-- The packet is one the running RESTORE takes. -/
def forRestore (s : State) (p : Packet) : Bool :=
  recOn s 3 && s.rtr.toLogical p.src == buddyOf s && (mirrorHdrOf p).gen == recArgGen s

/-- Bytes o to o + n - 1 of a generation that lie in a bucket's record, from record byte lo: the seal is kept, a part's bytes
go to the state range. -/
def placeRecord (b o : Nat) (bytes : List Byte) (s : State) : State :=
  let m := bkMirrorOff (bktEntry s b)
  let lo := max o m
  let hi := min (o + bytes.length) (m + recordBytes s b)
  if hi ≤ lo then s
  else
    let mine := slice bytes (lo - o) (hi - lo)
    let inSeal := min (hi - lo) (64 - min 64 (lo - m))
    let beats := (List.range (recordBytes s b / 64)).filter fun k => lo ≤ m + 64 * k && decide (m + 64 * k + 64 ≤ hi)
    let s1 := if inSeal = 0 then s
      else mBkt b (fun k => { k with restoreSeal := (slice k.restoreSeal 0 (lo - m) ++ mine.take inSeal ++
        (slice k.restoreSeal 0 64).drop (lo - m + inSeal)) }) s
    let rest := mine.drop inSeal
    let s2 := if rest.isEmpty then s1
      else writeSpan (.restore b) (stateAddr s b 0 0 + (lo + inSeal - m - 64)) rest false s1
    mBkt b (fun k => { k with restored := beats.foldl (fun r i => Sparse.set false r i true) k.restored }) s2

/-- A packet of a RESTORE: each byte goes to the bucket whose record holds it; any other is dropped. -/
def restorePacket (p : Packet) (s : State) : State :=
  let h := mirrorHdrOf p
  let s1 := foldS (activeBuckets s) s fun b s => placeRecord b h.offset (mirrorPayload p) s
  tryEndRestore (mFlt (fun f => { f with recTick := s.tick, recLast := f.recLast || h.last }) s1)

/-- A packet at the buddy: written, or discarded and counted. -/
def buddyPacket (p : Packet) (s : State) : State :=
  let h := mirrorHdrOf p
  let half := s.opt.mirrorLen.toNat / 2
  let src := s.rtr.toLogical p.src
  if !s.opt.mirrorSrc.getLsbD 16 || src != mirrorSrcOf s || h.gen == s.opt.gen || h.offset + 4 * h.words > half then
    bump pgOpt (·.opt.mirrorResends) (fun v => mOpt fun o => { o with mirrorResends := v }) 1 s
  else
    writeSpan (.mirror h.bucket (h.kind == 3) src (BitVec.ofNat 16 h.step) h.gen)
      (s.opt.mirrorBase.toNat + b2n h.gen * half + h.offset) (mirrorPayload p) false s

def isMirrorPkt (p : Packet) : Bool := p.ptype == ptMirror

def mirrorPacket (s : State) : State :=
  if !empReady s then s
  else match takeInbox isMirrorPkt s with
    | none => s
    | some (p, s1) => if forRestore s1 p then restorePacket p s1 else buddyPacket p s1

def execMirrorPacket (s : State) : Host.Outcome State Fault Refusal :=
  .next (if ctlOn s then mirrorPacket s else s)

/-! ### RESTORE_RECORD_VERIFY and REC_TIMEOUT (13 R405, R406) -/

/-- Every byte of the record has been written and acknowledged. -/
def recordWhole (s : State) (b : Nat) : Bool :=
  (bktOf s b).restored.length ≥ recordBytes s b / 64 && !(s.emp.writes.any fun w => w.purpose == .restore b)

/-- The seal of a record stands against the bytes written. -/
def recordOk (s : State) (b : Nat) : Bool :=
  let got := (bktOf s b).restoreSeal
  let want := sealBytes s b (recArgStep s)
  slice got 0 10 == slice want 0 10 && slice got 16 4 == slice want 16 4

/-- The parameter elements that a bucket's master words give. -/
def paramRun (s : State) (b : Nat) : List Byte :=
  (List.range (bktQ s b)).flatMap fun i => paramBytes s (bkOpt (bktEntry s b)) (readWord s (stateAddr s b 0 i))

/-- Read a record back, verify it and rewrite its parameters; a poisoned read puts the parameters back (R394). -/
def restoreRecordVerify (b : Nat) (s : State) : State :=
  if !recOn s 3 || !bkActive (bktEntry s b) || (bktOf s b).verified || !recordWhole s b || !empReady s then s
  else
    let w := (paramAddr s b 0, paramRun s b)
    let s1 := empRead (.restore b) (stateAddr s b 0 0) (recordBytes s b - 64) (cellsOf s [w]) s
    if recordOk s b then
      tryEndRestore (mFlt (fun f => { f with recDone := f.recDone + 1 })
        (mBkt b (fun k => { k with verified := true }) (writeSpan (.restore b) w.1 w.2 false s1)))
    else failRestore s1

def execRestoreRecordVerify (bucket : Fin 4096) (s : State) : Host.Outcome State Fault Refusal :=
  .next (if ctlOn s then restoreRecordVerify bucket.val s else s)

/-- REC_TIMEOUT: REC_TIMEOUT ticks without an accepted packet. -/
def recTimeout (s : State) : State :=
  if recOn s 3 && decide (s.tick - s.flt.recTick ≥ max 1 s.flt.recTimeout.toNat) then failRestore s else s

def execRecTimeout (s : State) : Host.Outcome State Fault Refusal :=
  .next (if ctlOn s then recTimeout s else s)

end Sys2Proof.Machine
end

