-- ==== Sys2Proof/Machine/Recovery.lean ====
section
/-! DEFINITION. Machine/Recovery.lean: the recovery commands ADOPT, RETURN, RESTORE, SEED, SET_GEN, LOST and REMIRROR
(13 R401 to R409). Each is a write of its OP to FLT.REC_CMD, with the arguments that FLT.REC_ARG holds. -/

namespace Sys2Proof.Machine

/-- A command begins: one runs at a time; LOST stops a RESTORE (R401, R409). -/
def startRec (op : Nat) (act : State → State) (s : State) : State :=
  if s.flt.recState = 1 && !(op == 6 && recOn s 3) then pageErr pgFlt cConfigInvalid s
  else act (mFlt (fun f =>
    { f with
      recOp := BitVec.ofNat 3 op, recState := 1, recCode := 0, recDone := 0, recExpect := 0, recTick := s.tick,
      recLast := false, recPos := 0 }) s)

/-! ### Quiescing (R402) -/

/-- Parameter sessions of a step. -/
def paramSlots (s : State) (step : W16) : List Nat :=
  (s.ses.slots.filter fun p => (paramBucket s p.2.ctx p.2.d).isSome && p.2.d.step == step && p.2.st != .rejected).map Prod.fst

/-- Retire the parameter sessions of a step with STEP_REPEATED and FLAGS [3]; their signals are not applied (05 R504). -/
def retireParams (step : W16) (s : State) : State :=
  foldS (paramSlots s step) s fun i s =>
    match slot? s i with
    | none => s
    | some x =>
      let s1 := decision 3 i x.gsid 0 cStepRepeated.toNat 0 s
      let s2 := match x.src with
        | .ring r n => completeDesc r n x.gsid cStepRepeated 8 (.record r) s1
        | .tpl .. => s1
      freeSlot i (settleFences x.gsid false s2)

/-- A wave that has started completes its writes: they no longer concern a cursor. -/
def closeWaves (s : State) : State :=
  let close (w : WReq) : WReq := match w.purpose with
    | .wave .. => { w with purpose := .other }
    | _ => w
  let closeRead (r : RReq) : RReq := match r.purpose with
    | .wave .. => { r with purpose := .other }
    | _ => r
  mEmp (fun e => { e with writes := e.writes.map close, reads := e.reads.map closeRead }) s

/-- The other sessions of a step hold at their next chunk boundary; nothing lets them issue again (log 83). -/
def holdSessions (step : W16) (s : State) : State :=
  mSes (fun e => { e with slots := e.slots.map fun p => if p.2.d.step = step then (p.1, { p.2 with held := true, holdUntil := none }) else p }) s

def quiesce (s : State) : State :=
  if !s.opt.en then s
  else mOpt (fun o => { o with en := false, state := 6, commitWait := none })
    (holdSessions s.opt.step (retireParams s.opt.step (repeatRetire s.opt.step (closeWaves s))))

/-! ### ADOPT (R403) -/

/-- ARRIVED and RELEASED of a channel become 0 and its entries are cleared. -/
def resetChannel (c : Nat) (s : State) : State :=
  mSyn (fun y =>
    { y with
      arrived := Sparse.set 0 y.arrived c 0, released := Sparse.set 0 y.released c 0,
      combine := y.combine.filter fun e => e.chan != c }) s

/-- p1 and p2 as ADOPT forms them. -/
def adoptConst (s : State) (i : Nat) : OptK :=
  let w (n : Nat) : F32 := BitVec.ofNat 32 (optWord s i n)
  { w0 := w 0, k := [], p1 := f32Mul (w 8) (w 2), p2 := f32Mul (w 9) (w 3) }

/-- The items of both phases. -/
def adoptCommon (s : State) : State :=
  let u := recArgStep s
  let s1 := mOpt (fun o =>
    { o with
      step := u, committed := u - 1, attempt := 0, repeatA := [], repeatB := [], failed := false, failedNext := false, late := false,
      voted := false, deadlineStart := none, authHalt := false, commitWait := none }) s
  resetChannel 15 (resetChannel 14 (mFlt (fun f => { f with holds := 0, gasLost := false, updateBegun := recArgPhase s }) s1))

/-- PHASE 0: the rewind. -/
def adoptRewind (s : State) : State :=
  let s1 := staleAll (mGas (fun g => { g with bkt := Sparse.mapAll {} g.bkt fun _ k => k.fresh, rejRaised := false }) s)
  mOpt (fun o => { o with state := 0, consts := [], advanceB := false }) s1

/-- PHASE 1: the roll forward. -/
def adoptForward (s : State) : State :=
  let s1 := foldS (activeBuckets s) s fun b s =>
    mBkt b (fun k => { k with reduced := true, updated := true, mirrored := true, tailFail := false }) s
  mOpt (fun o => { o with state := 3, advanceB := true, consts := (optValids s).map fun i => (i, adoptConst s i) }) s1

def adopt (s : State) : State :=
  startRec 1 (fun s =>
    let s0 := quiesce s
    if enableBad s0 then endRec cConfigInvalid s0
    else
      let s1 := adoptCommon s0
      let s2 := if recArgPhase s then adoptForward s1 else adoptRewind s1
      endRec cOk (raiseStep (releaseHeld (enStart s2)))) s

def execAdopt (s : State) : Host.Outcome State Fault Refusal :=
  .next (if ctlOn s then adopt s else holdAccess 5 .adopt s)

/-! ### RETURN (R404) -/

/-- Issue packet i of a generation of n bytes. -/
def returnPacket (n i t : Nat) (s : State) : State :=
  let gen := recArgGen s
  let k := min 4096 (n - 4096 * i)
  let a := s.opt.mirrorBase.toNat + b2n gen * n + 4096 * i
  let tag := s.emp.nextTag
  let h : MirrorHdr :=
    { seq := i, bucket := 0, kind := 0, offset := 4096 * i, words := k / 4, last := 4096 * i + k == n, step := 0, gen := gen }
  let s1 := takeTag t noSlot noGsid i (decision 2 noSlot noGsid t 0 i (empRead (.mirror 4096) a k [] s))
  inject (mirrorPkt s (mirrorSrcOf s) h (readBytes s.mem a k) [tag] (some t)) s1

/-- Mirror packets of this chip that the link layer has not accepted. -/
def mirrorWaiting (s : State) : Bool :=
  (Sparse.get [] s.rtr.inputs 10).any isMirrorPkt ||
    s.lnk.ports.any fun p => p.2.outgoing.any fun k => isMirrorPkt k && k.inport == 10

/-- A cycle of a RETURN: its next packet is issued, as tags and issue allow; it ends when the link layer has accepted the
last. -/
def returnCycle (s : State) : State :=
  if !recOn s 2 then s
  else
    let n := s.opt.mirrorLen.toNat / 2
    let i := s.flt.recPos
    if 4096 * i ≥ n then (if mirrorWaiting s then s else endRec cOk s)
    else if issueStopped s then s
    else match freeTag s with
      | none => s
      | some t => mFlt (fun f => { f with recPos := i + 1 }) (returnPacket n i t s)

/-- RETURN begins; its packets leave cycle by cycle. -/
def returnGen (s : State) : State :=
  startRec 2 (fun s =>
    if s.opt.mirrorSrc.getLsbD 16 then s else endRec cConfigInvalid s) s

def execReturnGen (s : State) : Host.Outcome State Fault Refusal :=
  .next (if ctlOn s then returnGen s else holdAccess 5 .returnGen s)

/-! ### RESTORE, SEED, SET_GEN, LOST, REMIRROR -/

/-- RESTORE begins (R405). -/
def restore (s : State) : State :=
  startRec 3 (fun s =>
    let s1 := quiesce s
    let s2 := foldS (activeBuckets s1) s1 fun b s =>
      mBkt b (fun k => { k with restored := [], restoreSeal := [], verified := false }) s
    mFlt (fun f => { f with recExpect := BitVec.ofNat 13 (activeBuckets s1).length }) s2) s

def execRestore (s : State) : Host.Outcome State Fault Refusal :=
  .next (if ctlOn s then restore s else holdAccess 5 .restore s)

/-- Every active bucket's record is to be sent again. -/
def resendAll (s : State) : State :=
  let s1 := foldS (activeBuckets s) s fun b s =>
    mBkt b (fun k => { k.unsent with mirrored := false, tailFail := false, resends := 0 }) s
  countSent (mFlt (fun f => { f with recExpect := BitVec.ofNat 13 (activeBuckets s).length }) s1)

/-- SEED (R407). -/
def seed (s : State) : State :=
  startRec 4 (fun s =>
    if s.opt.en && s.opt.state == 0 && !s.flt.updateBegun && s.opt.mirrorEn then resendAll s else endRec cConfigInvalid s) s

def execSeed (s : State) : Host.Outcome State Fault Refusal :=
  .next (if ctlOn s then seed s else holdAccess 5 .seed s)

/-- A mirror packet is being written. -/
def mirrorWriting (s : State) : Bool :=
  s.emp.writes.any fun w => match w.purpose with
    | .mirror .. => true
    | _ => false

/-- SET_GEN (R407). -/
def setGen (s : State) : State :=
  startRec 5 (fun s =>
    if mirrorWriting s then endRec cConfigInvalid s else endRec cOk (mOpt (fun o => { o with gen := recArgGen s }) s)) s

def execSetGen (s : State) : Host.Outcome State Fault Refusal :=
  .next (if ctlOn s then setGen s else holdAccess 5 .setGen s)

/-- LOST (R409). -/
def lost (s : State) : State := startRec 6 (fun s => endRec cOk (reportLost s)) s

def execLost (s : State) : Host.Outcome State Fault Refusal :=
  .next (if ctlOn s then lost s else holdAccess 5 .lost s)

/-- REMIRROR (R408): in a state it does not name it is refused. -/
def remirror (s : State) : State :=
  startRec 7 (fun s =>
    if s.opt.en && s.opt.verdict == 1 && (s.opt.state == 3 || s.opt.state == 4) then resendAll s
    else endRec cConfigInvalid (pageErr pgFlt cConfigInvalid s)) s

def execRemirror (s : State) : Host.Outcome State Fault Refusal :=
  .next (if ctlOn s then remirror s else holdAccess 5 .remirror s)

end Sys2Proof.Machine
end

