-- ==== Sys2Proof/Machine/Memport.lean ====
section
/-! DEFINITION. Machine/Memport.lean: the memory port's returns and modes, and message-signalled interrupts: the commands
RDATA_RETURN, WACK_RETURN, SCHED_MODE_LOST, SCHED_RISE, EMP_TIMING_WRITE, MSIX_REQUEST and MSIX_ACK (02 R44, R45, R48,
R62 to R64; 13 R394). -/

namespace Sys2Proof.Machine

/-! ### RDATA_RETURN -/

/-- The session whose GSID an injected poisoned read names; 0 is the GAS accumulate path (13 R417 kind 8). -/
def RPurpose.target (p : RPurpose) : Option Nat :=
  match p with
  | .gasAcc _ => some 0
  | .session _ g => some g
  | .fin _ g _ => some g
  | _ => none

/-- An injected poisoned read fires at this return. -/
def poisonInjected (s : State) (p : RPurpose) : Bool :=
  injOn s 8 && p.target == some (bits s.flt.injTarget.toNat 31 0)

/-- Packets that wait for a read at the local input are not sent; their tags may retire. -/
def dropWaiting (tag : Nat) (s : State) : State :=
  let mine (k : Packet) : Bool := k.reads.contains tag
  let gone := (Sparse.get [] s.rtr.inputs 10).filter mine
  let s1 := mRtr (fun r => { r with inputs := Sparse.modify [] r.inputs 10 (fun l => l.filter (fun k => !mine k)) }) s
  foldS gone s1 fun k s => meetTag k.tag s

/-- Writes of a wave that a poisoned read stops no longer advance the cursor. -/
def forgetWave (b start : Nat) (s : State) : State :=
  let forget (w : WReq) : WReq := match w.purpose with
    | .wave c upTo => if c = b && start < upTo then { w with purpose := .other } else w
    | _ => w
  mBkt b (fun k => { k with waveAt := start }) (mEmp (fun e => { e with writes := e.writes.map forget }) s)

/-- A GAS read is poisoned. -/
def gasPoison (b : Nat) (injected : Bool) (s : State) : State :=
  raiseFault cMemUncorrectable 11 b injected (haltStep (mFlt (fun f => { f with gasLost := true }) s))

/-- The outcomes of R394. -/
def poisonedRead (r : RReq) (injected : Bool) (s : State) : State :=
  match r.purpose with
  | .gasAcc b => gasPoison b injected (putBack r.undo s)
  | .preload b sp => gasPoison b injected (setSpan sp false (putBack r.undo s))
  | .wave b start => haltWith cMemUncorrectable (forgetWave b start (putBack r.undo s))
  | .mirror b =>
    let s1 := dropMirror r.tag s
    if b ≥ 4096 then s1
    else if recOn s 4 then endRec cMirrorFailed s1 else mirrorMissing b s1
  | .restore _ => if recOn s 3 then failRestore (putBack r.undo s) else putBack r.undo s
  | .session i g => if (slot? s i).any (fun x => x.gsid == g) then failSession i cMemUncorrectable (dropWaiting r.tag s) else s
  | .fin i g _ => if (slot? s i).any (fun x => x.gsid == g) then failSession i cMemUncorrectable (dropWaiting r.tag s) else s
  | .desc q => if (ringOf s q).headState == .fetch then rejectHead q cMemUncorrectable s else s
  | .other => s

/-- An operand whose last read has returned is complete now (13 R399): its chunk's tag may retire (05 R165), and in a staged
session it is written to the staging area (07 R233). -/
def completeOperands (tag : Nat) (s : State) : State :=
  foldS (s.red.operands.filter fun o => o.reads.contains tag) s fun o s =>
    let q : Operand := { o with reads := o.reads.filter (· != tag), ccc := s.ccc.toNat }
    let p : Operand := if q.reads.isEmpty then { q with tag := none } else q
    let s1 := mOperand o (fun _ => p) s
    if !q.reads.isEmpty then s1
    else
      let s2 := meetTag q.tag s1
      match (slotOfGsid s2 o.gsid).bind (slot? s2) with
      | some x => stageOperand x p s2
      | none => s2

/-- A clean return. -/
def cleanRead (r : RReq) (s : State) : State :=
  match r.purpose with
  | .session i _ => tryComplete i (settleLocals i s)
  | .desc q => mRing q (fun g => if g.headState == .fetch then { g with headState := .idle } else g) s
  | .restore _ => tryEndRestore s
  | _ => s

/-- The issued request of a sub-channel and kind that a return's tag names. -/
def issued? (s : State) (write : Bool) (sub : Nat) (tag : BitVec 10) : Option (BitVec 10 × EmpReq) :=
  s.emp.out.find? fun q => q.1 == tag && q.2.write == write && q.2.sub == sub

/-- A read's request has returned: the read is over when none is left. -/
def dropRead (q : RReq) (p : RPurpose) (s : State) : State :=
  mEmp (fun e =>
    { e with
      reads := if q.left ≤ 1 then e.reads.filter fun r => r.tag != q.tag
        else e.reads.map fun r => if r.tag = q.tag then { r with left := r.left - 1, purpose := p } else r }) s

/-- RDATA_RETURN: the beats of a request, each with its poison bit, and what SECDED found. A read is fed on when the last of
its requests has returned; its first poisoned beat ends it, and nothing waits for the requests that are left. -/
def rdataReturn (k : BitVec 10 × EmpReq) (poison : Byte) (ecc : Ecc) (s0 : State) : State :=
  let s := mEmp (fun e => { e with out := e.out.erase k }) s0
  let s1 := if ecc = .single then eccSingle 11 s else s
  match s1.emp.reads.find? fun q => q.tag == k.2.op with
  | none => s1
  | some q =>
    let inj := poisonInjected s1 q.purpose
    if poison != 0 || ecc = .double || inj then
      let s2 := logDouble 11 k.2.beat inj (if inj then fireInject s1 else s1)
      poisonedRead q inj (dropRead q .other s2)
    else
      let s2 := dropRead q q.purpose s1
      if q.left ≤ 1 then cleanRead q (completeOperands q.tag s2) else s2

def execRdataReturn (tag : EmpTag) (poison : Byte) (ecc : Ecc) (s : State) :
    Host.Outcome State Fault Refusal :=
  match issued? s false tag.sub.val tag.tag with
  | none => .fault .unmatchedReturn
  | some k => .next (rdataReturn k poison ecc s)

/-! ### WACK_RETURN -/

/-- The purpose of a wave's writes that are still outstanding. -/
def waveOut (s : State) (b : Nat) : List Nat :=
  s.emp.writes.filterMap fun w => match w.purpose with
    | .wave c upTo => if c = b then some upTo else none
    | _ => none

/-- A wave's write is acknowledged: the cursor passes each wave none of whose writes is out (09 R286; 13 R420). -/
def waveAck (b upTo : Nat) (s : State) : State :=
  let out := waveOut s b
  let cur := match out with
    | [] => (bktOf s b).waveAt
    | l => (l.foldl min (l.headD 0) - 1) / 16384 * 16384
  let s1 := if out.contains upTo then s else mFlt (fun f => { f with updateBegun := true }) s
  let s2 := mBkt b (fun k => { k with cursor := cur, updated := k.updated || decide (cur ≥ bktLen s b) }) s1
  advanceUpdate s2

/-- A session's bytes have landed. -/
def landBytes (slot bytes : Nat) (s : State) : State :=
  match slot? s slot with
  | none => s
  | some x => landFences x.gsid (x.landed + bytes) (progress slot (mSlot slot (fun x => { x with landed := x.landed + bytes }) s))

/-- A row block's output has been written: its hold place is free (08 R259). -/
def rowAck (slot block : Nat) (s : State) : State :=
  match slot? s slot with
  | none => s
  | some x =>
    let k := Sparse.get {} x.rows block
    if k.lastDone && rowBlockWritten s slot block then mBlock slot block (fun k => { k with written := true }) s else s

/-- What an acknowledged write was for. -/
def wackFor (p : WPurpose) (s : State) : State :=
  match p with
  | .session slot bytes tag => tryComplete slot (meetTag tag (landBytes slot bytes s))
  | .rowOut slot bytes block => tryComplete slot (rowAck slot block (landBytes slot bytes s))
  | .record ring => raiseVec ring s
  | .gas _ => s
  | .wave b upTo => waveAck b upTo s
  | .mirror tag isSeal src step gen => if isSeal then sendBand src 0 step 0 (.mirrorAck tag gen) s else s
  | .restore _ => tryEndRestore s
  | .other => s

/-- WACK_RETURN: a request is globally visible; a write is, when the last of its requests is. -/
def wackReturn (k : BitVec 10 × EmpReq) (s0 : State) : State :=
  let s := mEmp (fun e => { e with out := e.out.erase k }) s0
  match s.emp.writes.find? fun w => w.tag == k.2.op with
  | none => s
  | some w =>
    if w.left ≤ 1 then wackFor w.purpose (mEmp (fun e => { e with writes := e.writes.filter fun q => q.tag != w.tag }) s)
    else mEmp (fun e => { e with writes := e.writes.map fun q => if q.tag = w.tag then { q with left := q.left - 1 } else q }) s

def execWackReturn (tag : EmpTag) (s : State) : Host.Outcome State Fault Refusal :=
  match issued? s true tag.sub.val tag.tag with
  | none => .fault .unmatchedReturn
  | some k => .next (wackReturn k s)

/-! ### Modes and timing (02 R44, R45, R48) -/

/-- SCHED_MODE_LOST: REFWIN outside the configured window, or SCHED falling (R45). -/
def schedModeLost (c : SchedCause) (s : State) : State :=
  let lose (s : State) : State := raiseError cSchedModeLost (mCtl (fun k => { k with schedLost := true }) s)
  match c with
  | .refwinOutside => if refOpen s then s else lose s
  | .schedFell => if s.emp.sched then lose (mEmp (fun e => { e with sched := false }) s) else s

def execSchedModeLost (cause : SchedCause) (s : State) : Host.Outcome State Fault Refusal := .next (schedModeLost cause s)

/-- SCHED_RISE: the memory system is in scheduled mode. -/
def schedRise (s : State) : State := mEmp (fun e => { e with sched := true }) s

def execSchedRise (s : State) : Host.Outcome State Fault Refusal := .next (schedRise s)

/-- The values R48 refuses, field by field. -/
def rdLatBad (v : W32) : Bool := decide (1 ≤ bits v.toNat 7 0) && decide (bits v.toNat 7 0 ≤ 95)
def refOffsetBad (v : W32) : Bool := decide (bits v.toNat 18 8 > 1759)
def refLenBad (v : W32) : Bool := decide (bits v.toNat 26 19 > 160)

/-- EMP_TIMING_WRITE: a field with a value that R48 refuses keeps its value, and each is recorded. -/
def empTimingWrite (v : W32) (s : State) : State :=
  let refuse (bad : Bool) (s : State) : State := if bad then pageErr pgCtl cConfigInvalid s else s
  refuse (refLenBad v) (refuse (refOffsetBad v) (refuse (rdLatBad v) (mCtl (fun k =>
    { k with
      rdLat := if rdLatBad v then k.rdLat else v.extractLsb' 0 8,
      refOffset := if refOffsetBad v then k.refOffset else v.extractLsb' 8 11,
      refLen := if refLenBad v then k.refLen else v.extractLsb' 19 8,
      schedLost := k.schedLost && !v.getLsbD 28 }) s)))

def execEmpTimingWrite (value : W32) (s : State) : Host.Outcome State Fault Refusal :=
  .next (if fabricOn s then empTimingWrite value s else holdAccess 5 (.empTimingWrite value) s)

/-! ### Message-signalled interrupts (02 R62 to R64) -/

/-- MSIX_REQUEST: a pending vector that is not masked is asserted while none is outstanding. -/
def msixRequest (v : BitVec 9) (s : State) : State :=
  if s.msix.outstanding.isSome || vecMasked s v.toNat || !Sparse.get false s.msix.pendingVecs v.toNat then s
  else { s with msix := { outstanding := some v, pendingVecs := Sparse.set false s.msix.pendingVecs v.toNat false } }

def execMsixRequest (vec : Fin 262) (s : State) : Host.Outcome State Fault Refusal :=
  .next (msixRequest (BitVec.ofNat 9 vec.val) s)

/-- MSIX_ACK: the endpoint takes the outstanding request. -/
def execMsixAck (s : State) : Host.Outcome State Fault Refusal :=
  match s.msix.outstanding with
  | none => .fault .unmatchedReturn
  | some _ => .next { s with msix := { s.msix with outstanding := none } }

end Sys2Proof.Machine
end

