-- ==== Sys2Proof/Machine/Csq.lean ====
section
/-! DEFINITION. Machine/Csq.lean: the sequencer's control and the CMC mailbox: the commands CSQ_WDOG_KICK, CSQ_WATCHDOG,
SEQUENCER_RESUME, UCODE_DATA_WRITE, CSQ_START, MICROCODE_CHECK_DONE, MBX_IN_DOORBELL and MBX_OUT_DB_CLEAR
(01 R19 to R24; 02 R55; 15 R451, R459, R461; 16 R492). -/

namespace Sys2Proof.Machine

/-! ### Watchdog (01 R20, R21) -/

/-- CSQ_WDOG_KICK: a write with KICK set restarts the count. -/
def csqWdogKick (s : State) : State := mCtl (fun k => { k with wdogCount := 0 }) s

def execCsqWdogKick (s : State) : Host.Outcome State Fault Refusal :=
  .next (if ctlOn s then csqWdogKick s else holdAccess 5 .csqWdogKick s)

/-- An expiry with a cause: 1 timeout, 2 ECC. The first of an interval restarts the sequencer, the second halts it. -/
def csqExpire (cause : Nat) (s : State) : State :=
  let s1 := mCtl (fun k => { k with lastCause := BitVec.ofNat 2 cause, expired := true, issueStopped := true, wdogCount := 0 }) s
  if s.ctl.expired then raiseError cCsqHalted (mCtl (fun k => { k with run := false, halted := true, restarting := false }) s1)
  else raiseError cCsqWatchdog
    (bump pgCtl (·.ctl.restarts) (fun v => mCtl fun k => { k with restarts := v }) 1
      (mCtl (fun k => { k with restarting := true }) s1))

/-- CSQ_WATCHDOG: the count has reached TIMEOUT_TICKS. -/
def csqWatchdog (s : State) : State :=
  if s.ctl.run && decide (s.ctl.wdogCount ≥ max 1 s.ctl.wdogTimeout.toNat) then csqExpire 1 s else s

def execCsqWatchdog (s : State) : Host.Outcome State Fault Refusal :=
  .next (if ctlOn s then csqWatchdog s else s)

/-- SEQUENCER_RESUME: microcode has rebuilt its state, and issue resumes; after a control loss it stays stopped. -/
def sequencerResume (s : State) : State :=
  if s.ctl.restarting then mCtl (fun k => { k with restarting := false, issueStopped := s.flt.ctlLost }) s else s

def execSequencerResume (s : State) : Host.Outcome State Fault Refusal :=
  .next (if ctlOn s then sequencerResume s else s)

/-! ### Microcode (15 R451, R460, R461) -/

/-- The image may not change: the sequencer runs, or its check does. -/
def ucodeLocked (s : State) : Bool := s.ctl.run || s.ctl.crcCheck.isSome

/-- UCODE_DATA_WRITE: the word at UCODE_ADDR, which advances. -/
def ucodeDataWrite (v : W32) (s : State) : State :=
  if ucodeLocked s then pageErr pgCtl cConfigInvalid s
  else mCtl (fun k => { k with ucode := Sparse.set 0 k.ucode k.ucodeAddr.toNat v, ucodeAddr := k.ucodeAddr + 1 }) s

def execUcodeDataWrite (value : W32) (s : State) : Host.Outcome State Fault Refusal :=
  .next (if ctlOn s then ucodeDataWrite value s else holdAccess 5 (.ucodeDataWrite value) s)

/-- CRC-32C of the first n words of the image, n at most 65,536. -/
def imageCrc (s : State) (n : Nat) : W32 :=
  crc32c ((List.range (min n 65536)).flatMap fun i => leBytes 4 (Sparse.get (0 : W32) s.ctl.ucode i).toNat)

/-- A write to CTL.CSQ_CTL: LEN, and with START the check of the image. -/
def csqCtlWrite (v : W32) (s : State) : State :=
  let len := v.extractLsb' 0 17
  if !v.getLsbD 31 then mCtl (fun k => { k with csqLen := len }) s
  else if ucodeLocked s || s.ctl.halted then pageErr pgCtl cConfigInvalid s
  else mCtl (fun k => { k with csqLen := len, crcCheck := some (imageCrc s (if len = 0 then 65536 else len.toNat)) }) s

/-- CSQ_START: a write with START set. -/
def csqStart (v : W32) (s : State) : State := csqCtlWrite (v ||| 0x80000000) s

def execCsqStart (value : W32) (s : State) : Host.Outcome State Fault Refusal :=
  .next (if ctlOn s then csqStart value s else holdAccess 5 (.csqStart value) s)

/-- CTL.CSQ_STATUS (01 R23). -/
def csqStatus (s : State) : W32 :=
  let k := s.ctl
  w32 (b2n k.run + 2 * b2n k.halted + 4 * k.restarts.toNat + 64 * k.lastCause.toNat + 256 * k.eccCorrected.toNat)

def pageVersion : W32 := 0x00014301

/-- MICROCODE_CHECK_DONE: on a match the sequencer starts and READY is sent. -/
def microcodeCheckDone (s : State) : State :=
  match s.ctl.crcCheck with
  | none => s
  | some c =>
    let s1 := mCtl (fun k => { k with crcCheck := none }) s
    if c = s.ctl.ucodeCrc then
      let s2 := mCtl (fun k => { k with run := true, restarting := false, issueStopped := s.flt.ctlLost, wdogCount := 0 }) s1
      sendMbx 0x01 [1, csqStatus s2, pageVersion] s2
    else pageErr pgCtl cConfigInvalid s1

def execMicrocodeCheckDone (s : State) : Host.Outcome State Fault Refusal :=
  .next (if ctlOn s then microcodeCheckDone s else s)

/-! ### Mailbox (02 R55; 15 R459; 16 R473, R492) -/

/-- MBX_IN_DOORBELL: a write of 1 sends the message; while FULL is 1 it is dropped. -/
def mbxInDoorbell (v : W32) (s : State) : State :=
  if v.getLsbD 0 && !s.pwr.inFull then mPwr (fun p => { p with inFull := true }) s else s

def execMbxInDoorbell (value : W32) (s : State) : Host.Outcome State Fault Refusal := .next (mbxInDoorbell value s)

/-- PWR.STATE (15 R463). -/
def pwrState (s : State) : W32 :=
  let p := s.pwr
  w32 (p.cur.toNat + 4 * p.req.toNat + 16 * p.wakeCause.toNat + 256 * b2n p.refused + 512 * p.lastReset.toNat)

/-- OPT.STEP_STATUS (09 R304). -/
def stepStatus (s : State) : W32 :=
  let o := s.opt
  w32 (o.state.toNat + 16 * o.attempt.toNat + 256 * o.verdict.toNat + 65536 * o.committed.toNat)

/-- FLT.STATUS (13 R420). -/
def fltStatus (s : State) : W32 :=
  let f := s.flt
  w32 (b2n f.ctlLost + 2 * b2n f.gasLost + 4 * b2n f.updateBegun + 8 * b2n (f.recState == 1) + 16 * f.holds.toNat +
    256 * b2n f.mbxLost)

/-- The engine takes a message from the CMC and clears FULL: a QUERY is answered, any other type is counted. -/
def takeMessage (s : State) : State :=
  if !s.pwr.inFull then s
  else
    let s1 := mPwr (fun p => { p with inFull := false }) s
    if (Sparse.get (0 : W32) s.pwr.mbxIn 0).toNat % 256 = 0x20 then
      sendMbx 0x04 [4, pwrState s1, csqStatus s1, stepStatus s1, fltStatus s1] s1
    else bump pgPwr (·.pwr.mbxUnknown) (fun v => mPwr fun p => { p with mbxUnknown := v }) 1 s1

/-- A held message is written once FULL is clear. -/
def writeHeld (s : State) : State :=
  if s.pwr.outFull then s
  else match s.pwr.heldMsgs with
    | [] => s
    | m :: rest => writeMbx m.2 (mPwr (fun p => { p with heldMsgs := rest }) s)

/-- MBX_OUT_DB_CLEAR: writing 1 clears FULL, and CMC_IRQ with it; a held message is written in the next cycle. -/
def mbxOutDbClear (v : W32) (s : State) : State := if v.getLsbD 0 then mPwr (fun p => { p with outFull := false }) s else s

def execMbxOutDbClear (value : W32) (s : State) : Host.Outcome State Fault Refusal := .next (mbxOutDbClear value s)

end Sys2Proof.Machine
end

