-- ==== Sys2Proof/Machine/Ports.lean ====
section
/-! DEFINITION. Machine/Ports.lean: training, attestation, keys and the port's controls (02 R49 to R51, R56 to R58;
04 R126 to R130, R137, R501; 14 R426, R428, R432 to R435). -/

namespace Sys2Proof.Machine

/-! ### States -/

def setPortState (p : Nat) (st : BitVec 3) (s : State) : State := mPort p (fun q => { q with st := st, stateTick := s.tick }) s

/-- Ticks a port has been in its state. -/
def stateAge (s : State) (p : Nat) : Nat := s.tick - (portOf s p).stateTick

/-- Enter KEYS: both ends start from frame 0, EPOCH 0 and the floors of credit (04 R116, R126; 14 R424). -/
def enterKeys (p : Nat) (s : State) : State :=
  mPort p (fun q =>
    { q with
      st := 5, stateTick := s.tick, lcfSlot := slotNow s,
      credits := (List.range 8).map fun v => (v, vcFloor q v), grants := (List.range 8).map fun v => (v, vcFloor q v),
      pool := if q.pooled then 1556 else 0 }) s

/-- ATTEST leaves to KEYS when both sides have sent and received DONE with 0 (14 R435). -/
def attestDone (p : Nat) (s : State) : State :=
  let q := portOf s p
  if q.st = 4 && q.doneSent && q.doneRcvd then enterKeys p s else s

/-- Attestation ends in FAILED (14 R435). -/
def attestFail (p : Nat) (s : State) : State :=
  let s1 := failPort p cAttestFailed s
  raiseSecurity cAttestFailed
    (bump pgLsu (fun s => (portOf s p).attFails) (fun v => mPort p fun q => { q with attFails := v }) 1 s1)

/-- MAP_CHECK: the neighbour of the port map, then the version; the capabilities agreed (04 R126, R128, R129; 03 R78). -/
def mapCheck (p : Nat) (s : State) : State :=
  let q := portOf s p
  let s1 := mPort p (fun q => { q with agreedCaps := q.offer &&& q.peerCaps }) s
  if q.partner != some (Coord.ofWord (portMapOf s p)) then failPort p cLinkMapMismatch s1
  else if q.peerVersion.toNat < 2 then failPort p cLinkVersionRefused s1
  else mPort p (fun q =>
    { q with
      st := 4, stateTick := s.tick, attBuf := [], attMsg := 0, attIdx := 0, doneSent := false, doneRcvd := false,
      txEpoch := 0, rxEpoch := 0 }) s1

/-- EXCHANGE ends once a training flit with SEEN = 1 has been received and one sent (04 R126). -/
def exchangeDone (p : Nat) (s : State) : State :=
  let q := portOf s p
  if q.st = 2 && q.rxSeen && q.txSeen then mapCheck p s else s

/-! ### PHY events and training -/

/-- PHY_LOCK: LOCK and all LANE_OK; a port in PHY_WAIT enters EXCHANGE. -/
def phyLock (p : Nat) (s : State) : State :=
  let s1 := mPort p (fun q => { q with lock := true, laneOk := 0xFFFF }) s
  if (portOf s p).st = 1 then
    setPortState p 2 (mPort p (fun q => { q with trainReq := false, seenRx := false, rxSeen := false, txSeen := false }) s1)
  else s1

def execPhyLock (port : Fin 10) (s : State) : Host.Outcome State Fault Refusal := .next (phyLock port.val s)

/-- LINK_LOST: LOCK or a LANE_OK bit falls; while the link is up it goes down (02 R50). -/
def linkLost (p : Nat) (lock : Bool) (lanes : W16) (s : State) : State :=
  let s1 := mPort p (fun q => { q with lock := lock, laneOk := lanes }) s
  if (portOf s p).st = 6 && (!lock || lanes != 0xFFFF) then linkDown p (some cLinkLost) true false s1 else s1

def execLinkLost (port : Fin 10) (lock : Bool) (laneOk : W16) (s : State) : Host.Outcome State Fault Refusal :=
  .next (linkLost port.val lock laneOk s)

/-- A training flit of this chip (04 R127). -/
def trainingBytes (s : State) (p : Nat) : List Byte :=
  leBytes 4 0 ++ [2, capsVersion.zeroExtend 8, BitVec.ofNat 8 (b2n (portOf s p).seenRx + 2 * s.rtr.reach p), 0] ++ leBytes 4 (portOf s p).offer.toNat ++
    leBytes 4 (s.rtr.phys.word 0) ++ List.replicate 112 0

/-- TRAINING_FLIT_SEND: one goes out every 64 slots in EXCHANGE. -/
def trainingFlitSend (p : Nat) (s : State) : State :=
  let q := portOf s p
  if q.st != 2 then s
  else exchangeDone p (mPort p (fun q => { q with wire := q.wire ++ [trainingBytes s p], txSeen := q.txSeen || q.seenRx }) s)

def execTrainingFlitSend (port : Fin 10) (s : State) : Host.Outcome State Fault Refusal := .next (trainingFlitSend port.val s)

/-- TRAINING_FLIT: a valid training flit in EXCHANGE (04 R127). -/
def trainingFlit (p : Nat) (flit : BitVec 1024) (fec : Nat) (s0 : State) : State :=
  let r := meetFlit p false fec s0
  let s := r.2
  let b := leBytes 128 flit.toNat
  if r.1 || (portOf s p).st != 2 || leAt b 0 1 % 4 != 0 || leAt b 4 1 != 2 then s
  else exchangeDone p (mPort p (fun q =>
    { q with
      seenRx := true, rxSeen := q.rxSeen || bit (leAt b 6 1) 0, peerVersion := BitVec.ofNat 4 (leAt b 5 1),
      peerCaps := BitVec.ofNat 4 (leAt b 8 4), partner := some (Coord.ofWord (leAt b 12 4)) }) s)

def execTrainingFlit (port : Fin 10) (flit : PhyFlit) (s : State) : Host.Outcome State Fault Refusal :=
  .next (trainingFlit port.val flit.bits flit.fecCorr.toNat s)

/-- TRAINING_TIMEOUT: PHY_WAIT lasts 2,500 ticks or EXCHANGE 250. -/
def trainingTimeout (p : Nat) (s : State) : State :=
  let q := portOf s p
  if (q.st = 1 && stateAge s p ≥ 2500) || (q.st = 2 && stateAge s p ≥ 250) then trainTimeout p cLinkTrainFailed s else s

def execTrainingTimeout (port : Fin 10) (s : State) : Host.Outcome State Fault Refusal := .next (trainingTimeout port.val s)

/-- PHY_PRESENT_CHANGE: a port without a PHY is DOWN; one that gets a PHY may train (02 R51). -/
def phyPresentChange (p : Nat) (present : Bool) (s : State) : State :=
  let s1 := mPort p (fun q => { q with present := present }) s
  let st := (portOf s p).st
  if present then (if st = 0 && mayTrain s1 p then toPhyWait p s1 else s1)
  else if st = 6 then linkDown p (some cLinkLost) true false s1
  else if st = 0 then s1
  else toDown p (mPort p (fun q => { q.cleared with lost := q.lost, queues := q.queues }) (freeKeys p s1))

def execPhyPresentChange (port : Fin 10) (present : Bool) (s : State) : Host.Outcome State Fault Refusal :=
  .next (phyPresentChange port.val present s)

/-! ### Controls -/

/-- PORT_RETRAIN: writing 1 takes the link down and enters PHY_WAIT (04 R137, R501). -/
def portRetrain (p : Nat) (v : W32) (s : State) : State :=
  if v.getLsbD 0 then linkDown p none false false (mPort p (fun q => { q with attempts := 0 }) s) else s

def execPortRetrain (port : Fin 10) (value : W32) (s : State) : Host.Outcome State Fault Refusal :=
  .next (if fabricOn s then portRetrain port.val value s else holdAccess 5 (.portRetrain port value) s)

/-- PORT_MAP_WRITE: accepted only while HOLD_DONE is 1 (03 R90); EN = 0 stops the port, EN = 1 trains one that is DOWN
or FAILED. -/
def portMapWrite (p : Nat) (v : W32) (s : State) : State :=
  if !s.rtr.holdDone then pageErr pgRtr cConfigInvalid s
  else
    let s1 := mRtr (fun r => { r with portMap := Sparse.set 0 r.portMap p (v.extractLsb' 0 20) }) s
    let st := (portOf s p).st
    if !v.getLsbD 19 then (if st = 0 then s1 else linkDown p none false false s1)
    else if st = 0 || st = 7 then toDown p (mPort p (fun q => { q with attempts := 0 }) s1)
    else s1

def execPortMapWrite (port : Fin 10) (value : W32) (s : State) : Host.Outcome State Fault Refusal :=
  .next (if fabricOn s then portMapWrite port.val value s else holdAccess 5 (.portMapWrite port value) s)

/-! ### Attestation (14 R432 to R435) -/

/-- The attestation flits of a message. -/
def attFlits (msg : Nat) (bytes : List Byte) : List (List Byte) :=
  let ps := pieces 112 bytes
  (List.range ps.length).zipWith (fun i b =>
    leBytes 4 0 ++ [3, BitVec.ofNat 8 msg, BitVec.ofNat 8 (b2n (i + 1 == ps.length)), 0] ++ leBytes 2 i ++
      leBytes 2 b.length ++ leBytes 4 0 ++ slice b 0 112) ps

/-- The longest attestation message (14 R432). -/
def attMax : Nat := 12288

/-- ATT_MESSAGE: the Trust Block's message goes to the peer in attestation flits; a DONE that refuses ends attestation.
DEDUCED: so does a message with a reserved MSG or longer than 12,288 B; an empty one gives no flit (log 69). -/
def attMessage (p msg : Nat) (bytes : List Byte) (s : State) : State :=
  if (portOf s p).st != 4 || bytes.isEmpty then s
  else if msg = 0 || msg > 4 || bytes.length > attMax then attestFail p s
  else
    let s1 := mPort p (fun q => { q with wire := q.wire ++ attFlits msg bytes }) s
    if msg != 4 then s1
    else if byteAt bytes 0 = 0 then attestDone p (mPort p (fun q => { q with doneSent := true }) s1)
    else attestFail p s1

def execAttMessage (port : Fin 10) (msg : Byte) (bytes : List Byte) (s : State) : Host.Outcome State Fault Refusal :=
  .next (attMessage port.val msg.toNat bytes s)

/-- A whole message from the peer is passed to the Trust Block. -/
def attPass (p msg : Nat) (bytes : List Byte) (s : State) : State :=
  let s1 := mLsu (fun l => { l with attOut := l.attOut ++ [(p, msg, bytes)] })
    (mPort p (fun q => { q with attBuf := [], attMsg := 0, attIdx := 0 }) s)
  if msg != 4 then s1
  else if byteAt bytes 0 = 0 then attestDone p (mPort p (fun q => { q with doneRcvd := true }) s1)
  else attestFail p s1

/-- ATTESTATION_FLIT: framing is checked, the payload buffered. -/
def attestationFlit (p : Nat) (flit : BitVec 1024) (fec : Nat) (s0 : State) : State :=
  let r := meetFlit p false fec s0
  let s := r.2
  let b := leBytes 128 flit.toNat
  let q := portOf s p
  let msg := leAt b 5 1
  let n := leAt b 10 2
  let buf := q.attBuf ++ slice b 16 n
  if r.1 || q.st != 4 || leAt b 0 1 % 4 != 0 || leAt b 4 1 != 3 then s
  else if msg = 0 || msg > 4 || leAt b 8 2 != q.attIdx || (q.attIdx != 0 && msg != q.attMsg) || n = 0 || n > 112 ||
      buf.length > attMax then attestFail p s
  else if bit (leAt b 6 1) 0 then attPass p msg buf s
  else mPort p (fun q => { q with attBuf := buf, attMsg := msg, attIdx := q.attIdx + 1 }) s

def execAttestationFlit (port : Fin 10) (flit : PhyFlit) (s : State) : Host.Outcome State Fault Refusal :=
  .next (attestationFlit port.val flit.bits flit.fecCorr.toNat s)

def attestTimeout (p : Nat) (s : State) : State :=
  if (portOf s p).st = 4 && stateAge s p ≥ max 1 s.lsu.attTimeout.toNat then trainTimeout p cAttestFailed s else s

def execAttestTimeout (port : Fin 10) (s : State) : Host.Outcome State Fault Refusal := .next (attestTimeout port.val s)

/-! ### Keys (02 R56 to R58; 14 R426, R428) -/

def keyReqOf (q : Port) (rx : Bool) : Option Nat := if rx then q.rxReq else q.txReq
def setKeyReq (p : Nat) (rx : Bool) (t : Option Nat) (s : State) : State :=
  mPort p (fun q => if rx then { q with rxReq := t } else { q with txReq := t }) s
def Dir.isRx (d : Dir) : Bool := d == .rx

/-- The conditions under which a direction requests its next key (14 R428). -/
def keyWanted (s : State) (p : Nat) (rx : Bool) : Bool :=
  let q := portOf s p
  let e := if rx then q.rxEpoch else q.txEpoch
  (keyReqOf q rx).isNone &&
    ((q.st = 5 && !(keyAt s (keyIndex p rx e)).loaded) ||
     (q.st = 6 && (if rx then q.rxF ≥ 2 ^ 31 && !q.rxNext
       else q.txF ≥ 2 ^ 31 && !q.txNext && q.retry.all fun f => decide (f.epoch ≥ e))))

/-- KEY_REQ: the request is driven with its slot; its time runs. -/
def keyReq (p : Nat) (rx : Bool) (s : State) : State := if keyWanted s p rx then setKeyReq p rx (some s.tick) s else s

def execKeyReq (port : Fin 10) (dir : Dir) (s : State) : Host.Outcome State Fault Refusal := .next (keyReq port.val (Dir.isRx dir) s)

/-- The load that ends in this cycle was in progress at a ZEROISE: one of its five beats met it (02 R58, R70). -/
def loadDiscarded (s : State) : Bool :=
  match s.lsu.zeroised with
  | none => false
  | some z => decide ((s.ccc - z).toNat < 5)

/-- The whole load: the slot is filled, KEY_ACK answers, a pending request is met (02 R56, 14 R426). -/
def takeKey (slot : Nat) (key : BitVec 256) (fixed : W32) (s : State) : State :=
  let p := slot / 4
  let rx := slot / 2 % 2 == 1
  let q := portOf s p
  let e := if rx then q.rxEpoch else q.txEpoch
  let s1 := mLsu (fun l =>
    { l with keys := Sparse.set {} l.keys slot { key := key, fixed := fixed, loaded := true }, keyAck := some slot }) s
  let s2 := if (keyReqOf q rx).isSome then
      let t := setKeyReq p rx none s1
      if q.st = 6 && slot % 2 = (e + 1) % 2 then
        mPort p (fun q => if rx then { q with rxNext := true } else { q with txNext := true }) t
      else t
    else s1
  pump p s2

/-- KEY_LOAD: the last of five beats; a load that a ZEROISE met is discarded. -/
def keyLoad (slot : Nat) (key : BitVec 256) (fixed : W32) (s : State) : State :=
  if loadDiscarded s then s else takeKey slot key fixed s

def execKeyLoad (slot : Fin 40) (key : BitVec 256) (fixed : W32) (s : State) : Host.Outcome State Fault Refusal :=
  .next (keyLoad slot.val key fixed s)

/-- KEY_TIMEOUT: no KEY_ACK in time takes an up link down; in KEYS it counts as a training timeout (14 R428, 04 R126). -/
def keyTimeout (p : Nat) (rx : Bool) (s : State) : State :=
  let q := portOf s p
  let lim := max 1 s.lsu.keyTimeout.toNat
  let late := match keyReqOf q rx with
    | some t => decide (s.tick - t ≥ lim)
    | none => false
  if q.st = 5 && (late || stateAge s p ≥ lim) then
    raiseSecurity cKeyTimeout (trainTimeout p cKeyTimeout (mPort p (fun q => { q with failCode := cKeyTimeout }) s))
  else if q.st = 6 && late then keyMissing p s
  else s

def execKeyTimeout (port : Fin 10) (dir : Dir) (s : State) : Host.Outcome State Fault Refusal := .next (keyTimeout port.val (Dir.isRx dir) s)

/-- Clear every key slot and take every link down; a KEY_ACK not yet given is not given (02 R58, 04 R501). -/
def zeroise (s : State) : State :=
  foldS (List.range 10) (mLsu (fun l => { l with keys := [], keyAck := none, zeroised := some s.ccc }) s) fun p s =>
    let st := (portOf s p).st
    if 2 ≤ st.toNat && st.toNat ≤ 6 then linkDown p none true false s else s

def execZeroise (s : State) : Host.Outcome State Fault Refusal := .next (zeroise s)

/-- AUTH_LOG_CLEAR: writing 1 to VALID clears the log (14 R444). -/
def authLogClear (v : W32) (s : State) : State :=
  if v.getLsbD 31 then mLsu (fun l => { l with authLog := 0, authLogSeq := 0, authLogCcc := 0 }) s else s

def execAuthLogClear (value : W32) (s : State) : Host.Outcome State Fault Refusal :=
  .next (if fabricOn s then authLogClear value s else holdAccess 5 (.authLogClear value) s)

end Sys2Proof.Machine
end

