-- ==== Sys2Proof/Machine/Faults.lean ====
section
/-! DEFINITION. Machine/Faults.lean: memory errors, the session watchdog and injected faults: the commands ECC_SINGLE_BIT,
ECC_DOUBLE_BIT, ECC_LOG_CLEAR, HIST_CLEAR, LATE_CONTRIBUTION, INJECT_ARM, STRAGGLER_EXPIRY and SILENT_CHIP_EXPIRY
(13 R389 to R393, R398, R399, R417 to R419, R422). -/

namespace Sys2Proof.Machine

/-! ### Single-bit errors (R389) -/

/-- An injected memory error of a kind is armed for a memory. -/
def eccInjected (s : State) (kind mem : Nat) : Bool := injOn s kind && bits s.flt.injTarget.toNat 3 0 == mem

/-- ECC_SINGLE_BIT: corrected on read, and counted; a sequencer memory's also in CSQ_STATUS (01 R19, R23). -/
def eccSingleBit (mem : Nat) (s : State) : State :=
  let inj := eccInjected s 1 mem
  let s1 := if inj then fireInject s else s
  let s2 := if mem ≤ 1 then bump pgCtl (·.ctl.eccCorrected) (fun v => mCtl fun k => { k with eccCorrected := v }) 1 s1 else s1
  eccSingleAs mem inj s2

/-- A memory is read only while its domain runs (01 R33): the sync-object store and the link buffers in the Fabric domain. -/
def memOn (mem : Nat) (s : State) : Bool := if 7 ≤ mem && mem ≤ 9 then fabricOn s else ctlOn s

def execEccSingleBit (mem : Fin 12) (s : State) : Host.Outcome State Fault Refusal :=
  .next (if memOn mem.val s then eccSingleBit mem.val s else s)

/-! ### Double-bit errors (R389 to R393) -/

/-- A control loss (R390): issue stops, the step machine is HALTED. -/
def controlLoss (mem word : Nat) (injected : Bool) (s : State) : State :=
  let s1 := haltStep (mCtl (fun k => { k with issueStopped := true }) s)
  raiseFault cSramUncorrectable mem word injected (mFlt (fun f => { f with ctlLost := true }) s1)

/-- The session whose palm buffers hold a word. -/
def palmOwner (s : State) (word : Nat) : Option Nat :=
  let l := (s.ses.slots.filter fun p => p.2.reserves && !p.2.staged && decide (p.2.palm > 0)).map Prod.fst
  l[Config.bufferOwner word % max 1 l.length]?

/-- The row-statistics session whose records hold a thimble word. -/
def thimbleOwner (s : State) (word : Nat) : Option Nat :=
  (s.ses.slots.find? fun p => p.2.d.opc == 0x06 && p.2.st == .run &&
    (let first := thimbleAt s p.2 0
     first ≤ word && decide (word < first + rowCount p.2.d (rowE s p.2)))).map Prod.fst

/-- The owner segment that maps a physical object: its context and timeout class. -/
def ownerSegment (s : State) (p : Nat) : Option (Nat × Nat) :=
  (s.syn.segments.find? fun e => segEn e.2 && !segWait e.2 && segP e.2 ≤ p && decide (p < segP e.2 + segLen e.2)).map
    fun e => (e.1 / 16, segTmo e.2)

/-- A sync object is rewritten (R392). -/
def rewriteObject (p : Nat) (s : State) : State :=
  mObj p (fun _ => match ownerSegment s p with
    | none => {}
    | some o => { value := 0, ctx := BitVec.ofNat 6 o.1, st := .orphaned, tmo := BitVec.ofNat 2 o.2, rewritten := true }) s

/-- ECC_DOUBLE_BIT: counted, logged, and handled by its memory. The errors of memories 10 and 11 come with the word that
carries them, in the commands that take it (02 R39; 13 R394). -/
def eccDoubleBit (mem word : Nat) (s0 : State) : State :=
  let inj := eccInjected s0 2 mem && bits s0.flt.injTarget.toNat 35 4 == word
  let s := logDouble mem word inj (if inj then fireInject s0 else s0)
  match mem with
  | 0 => if s.ctl.run then csqExpire 2 s else s
  | 1 => if s.ctl.run then csqExpire 2 s else s
  | 2 => controlLoss mem word inj s
  | 3 => controlLoss mem word inj s
  | 4 => controlLoss mem word inj s
  | 5 => match palmOwner s word with
    | none => s
    | some i => failSession i cSramUncorrectable s
  | 6 =>
    let s1 := mRow (fun r => { r with bad := Sparse.set false r.bad word true }) s
    match thimbleOwner s word with
    | none => s1
    | some i => failSession i cSramUncorrectable s1
  | 7 => reportCode cSramUncorrectable (rewriteObject (word / 2) s)
  | 8 =>
    let p := Config.bufferOwner word % 10
    if portUp s p then badFlit p s else s
  | 9 =>
    let p := Config.bufferOwner word % 10
    if portUp s p then linkDown p (some cSramUncorrectable) true inj s else s
  | _ => s

def execEccDoubleBit (mem : Fin 12) (word : W32) (s : State) : Host.Outcome State Fault Refusal :=
  .next (if memOn mem.val s then eccDoubleBit mem.val word.toNat s else s)

/-! ### Clears (R419) -/

/-- ECC_LOG_CLEAR: a write to the high half of FLT.ECC_LOG; VALID is W1C. -/
def eccLogClear (v : W32) (s : State) : State := if v.getLsbD 31 then mFlt (fun f => { f with eccLog := 0 }) s else s

def execEccLogClear (value : W32) (s : State) : Host.Outcome State Fault Refusal :=
  .next (if ctlOn s then eccLogClear value s else holdAccess 5 (.eccLogClear value) s)

/-- A write to FLT.HIST_CTL: EN, MAX_LEVEL, and CLEAR, which empties the bins. -/
def histCtlWrite (v : W32) (s : State) : State :=
  let s1 := mFlt (fun f =>
    { f with histEn := v.getLsbD 0, maxLevel := if v.extractLsb' 4 3 = 0 then 1 else v.extractLsb' 4 3 }) s
  if v.getLsbD 1 then mFlt (fun f => { f with hist := [], lateWorst := [] }) s1 else s1

/-- HIST_CLEAR: a write with CLEAR set. -/
def histClear (v : W32) (s : State) : State := histCtlWrite (v ||| 2) s

def execHistClear (value : W32) (s : State) : Host.Outcome State Fault Refusal :=
  .next (if ctlOn s then histClear value s else holdAccess 5 (.histClear value) s)

/-! ### The session watchdog (R398) -/

/-- An operand of a node is held. -/
def operandHere (s : State) (g seq k j : Nat) (right : Bool) : Bool := s.red.operands.any (isOperandOf g seq k j right)

/-- The lowest rank covered by the operand that a node still awaits. -/
def missingSide (s : State) (g seq k j : Nat) : Option Nat :=
  if !operandHere s g seq k j false then some (nodeLo k j)
  else if !operandHere s g seq k j true then some (nodeLo k j + 2 ^ (k - 1))
  else none

/-- The earliest of (SEQ, level, rank) triples. -/
def earliest (l : List (Nat × Nat × Nat)) : Nat :=
  match l with
  | [] => 0
  | a :: rest => (rest.foldl (fun m b => if b.1 < m.1 || (b.1 == m.1 && b.2.1 < m.2.1) then b else m) a).2.2

/-- The operands a reduction awaits at the nodes this chip hosts, in tree order. -/
def awaitTree (s : State) (x : Session) : List (Nat × Nat × Nat) :=
  (List.range x.n).flatMap fun sh => (hostedNodes (s.rtr.size x.d.axis) x.base x.n x.rank sh).filterMap fun p =>
    let i := Sparse.get 0 x.nodeNext (nodeKey sh p.1 p.2)
    if i ≥ realChunks x.d x.n sh then none
    else
      let seq := sh * shardChunks x.d x.n + i
      (missingSide s x.gsid seq p.1 p.2).map fun r => (seq, p.1, r)

/-- The operands a ring-order reduction awaits: the lowest rank that the partial sum from the neighbour covers. -/
def awaitRing (x : Session) : List (Nat × Nat × Nat) :=
  (List.range x.n).flatMap fun sh => [true, false].filterMap fun plus =>
    let i := Sparse.get 0 x.nodeNext (nodeKey sh 1 (b2n (!plus)))
    if i ≥ ringDue x.d x.n x.rank sh plus then none
    else
      let seq := sh * shardChunks x.d x.n + i + if plus then 0 else cdiv (shardChunks x.d x.n) 2
      let start := ringStart x.d x.n seq
      let covers := if plus then start < x.rank else x.rank < start
      some (seq, 1, if covers then (if plus then start else x.rank + 1) else 0)

/-- The streams a top-k reduction awaits. -/
def awaitTopk (s : State) (x : Session) : List (Nat × Nat × Nat) :=
  (List.range x.n).flatMap fun sh => (hostedNodes (s.rtr.size x.d.axis) x.base x.n x.rank sh).filterMap fun p =>
    let t := Sparse.get {} x.topk (nodeKey sh p.1 p.2)
    if t.done then none
    else some (sh * 2 ^ 24 + t.fedL, p.1, if t.leftLast || t.leftAbsent then nodeLo p.1 p.2 + 2 ^ (p.1 - 1) else nodeLo p.1 p.2)

/-- The statistics a ROW_STATS session awaits: the missing side of its earliest operands. -/
def awaitStats (s : State) (x : Session) : List (Nat × Nat × Nat) :=
  (s.red.operands.filter fun o => o.gsid == x.gsid).filterMap fun o =>
    (missingSide s x.gsid o.seq o.level o.node).map fun r => (o.seq, o.level, r)

/-- The chunks a copy awaits, by the rank that owns them. -/
def awaitCopy (x : Session) : List (Nat × Nat × Nat) :=
  (List.range x.n).flatMap fun r =>
    let n := shardChunks x.d x.n
    let real := if x.d.opc = 0x02 then realChunks x.d x.n r else realChunks x.d x.n x.rank
    (List.range real).filterMap fun c => if Sparse.get false x.got (r * n + c) then none else some (r * n + c, 0, r)

/-- The lowest rank covered by the earliest operand or chunk that a session awaits. -/
def awaitRank (s : State) (x : Session) : Nat :=
  match x.d.opc with
  | 0x01 => earliest (if x.d.ring then awaitRing x else awaitTree s x)
  | 0x02 => earliest (awaitCopy x)
  | 0x03 => earliest (awaitCopy x)
  | 0x04 => x.d.peer
  | 0x05 => x.d.peer
  | 0x06 => earliest (awaitStats s x)
  | 0x08 => earliest (awaitTopk s x)
  | _ => 0

/-- The session awaits admission. -/
def awaitsAdmission (x : Session) : Bool := x.st == .wait || x.st == .held || x.st == .firm

/-- LATE_CONTRIBUTION: SESS_TIMEOUT ticks without progress; gradient sessions are not watched. -/
def lateContribution (i : Nat) (s : State) : State :=
  match slot? s i with
  | none => s
  | some x =>
    if isGradient s x.d x.ctx || x.st == .rejected || s.tick - x.progTick < max 1 s.flt.sessTimeout.toNat then s
    else
      let info := if awaitsAdmission x then 64 else x.d.axis % 4 + awaitRank s x % 16 * 4
      endSession i cLateContribution
        (mFlt (fun f => { f with lastLate := BitVec.ofNat 32 x.gsid, lastLateInfo := BitVec.ofNat 7 info }) s)

def execLateContribution (slot : Fin 4096) (s : State) : Host.Outcome State Fault Refusal :=
  .next (if ctlOn s then lateContribution slot.val s else s)

/-! ### Injected faults (R417, R422) -/

/-- The states in which a link can go down. -/
def linkActive (s : State) (p : Nat) : Bool := decide (1 ≤ (portOf s p).st.toNat) && decide ((portOf s p).st.toNat ≤ 6)

/-- Every link goes down and stays down. -/
def goSilent (s : State) : State :=
  let n := bits s.flt.injTarget.toNat 23 0
  let s1 := mFlt (fun f => { f with silent := true, silentUntil := if n = 0 then none else some (s.tick + n) }) s
  foldS (List.range 10) s1 fun p s => if linkActive s p then linkDown p (some cLinkLost) true true s else s

/-- An armed KIND 7 fault takes its port down, at once or in the cycle in which the port is up again (log 84). -/
def fireLink (s : State) : State :=
  let p := bits s.flt.injTarget.toNat 3 0
  if injOn s 7 && decide (p < 10) && portUp s p then linkDown p (some cLinkLost) true true (fireInject s) else s

/-- The kinds that need no later event fire when armed. -/
def fireNow (s : State) : State := if injOn s 9 then goSilent (fireInject s) else fireLink s

/-- INJECT_ARM: a write to FLT.INJ_CTL, which first disarms an armed fault. -/
def injectArm (v : W32) (s : State) : State :=
  let kind := bits v.toNat 3 0
  let s1 := mFlt (fun f => { f with injArm := false }) s
  if v.getLsbD 4 && (kind == 0 || decide (kind > 10)) then pageErr pgFlt cConfigInvalid s1
  else fireNow (mFlt (fun f =>
    { f with injKind := v.extractLsb' 0 4, injArm := v.getLsbD 4, injRepeat := v.extractLsb' 8 8, injFired := 0 }) s1)

def execInjectArm (value : W32) (s : State) : Host.Outcome State Fault Refusal :=
  .next (if ctlOn s then injectArm value s else holdAccess 5 (.injectArm value) s)

/-- STRAGGLER_EXPIRY: the time of an injected straggler is over. -/
def stragglerExpiry (i : Nat) (s : State) : State :=
  match slot? s i with
  | none => s
  | some x => match x.holdUntil with
    | none => s
    | some t => if s.tick ≥ t then mSlot i (fun x => { x with held := false, holdUntil := none }) s else s

def execStragglerExpiry (slot : Fin 4096) (s : State) : Host.Outcome State Fault Refusal :=
  .next (if ctlOn s then stragglerExpiry slot.val s else s)

/-- SILENT_CHIP_EXPIRY: the links of a silent chip may train again. -/
def silentChipExpiry (s : State) : State :=
  match s.flt.silentUntil with
  | none => s
  | some t =>
    if s.tick < t then s
    else
      let s1 := mFlt (fun f => { f with silent := false, silentUntil := none }) s
      foldS (List.range 10) s1 fun p s => if (portOf s p).st = 0 then toDown p s else s

def execSilentChipExpiry (s : State) : Host.Outcome State Fault Refusal := .next (silentChipExpiry s)

end Sys2Proof.Machine
end

