-- ==== Sys2Proof/Machine/Replay.lean ====
section
/-! DEFINITION. Machine/Replay.lean: capture control, replay, and the commit that ends one: the commands GAP_RECORD,
CAPTURE_MODE_WRITE, CAPTURE_FREEZE, REPLAY_GO, REPLAY_STOP, REPLAY_DELIVERY, REPLAY_FORCED_CHOICE and COMMIT
(09 R297; 12 R374 to R388; 14 R431). -/

namespace Sys2Proof.Machine

/-! ### Capture (R374 to R379, R387) -/

/-- GAP_RECORD (R378). -/
def execGapRecord (s : State) : Host.Outcome State Fault Refusal :=
  .next (if ctlOn s then gapRecord s else s)

/-- A write to RRU.CAP_CTL: MODE, MIRROR_PAY, TRIG_MASK, and FREEZE (R379, R387). -/
def capCtlWrite (v : W32) (s : State) : State :=
  let mode : BitVec 2 := if v.extractLsb' 0 2 = 3 then 2 else v.extractLsb' 0 2
  let was := s.rru.mode
  let s1 := mRru (fun r => { r with mode := mode, mirrorPay := v.getLsbD 2, trigMask := v.extractLsb' 16 12 }) s
  let s2 := if mode = 0 then mRru (fun r => { r with active := false }) s1
    else if was = 0 then
      stepHeader (mRru (fun r =>
        { r with
          active := true, frozen := false, hdrWrite := 0, payWrite := 0, hdrWrapped := false, payWrapped := false,
          lostHdr := 0, lostPay := 0 }) s1)
    else s1
  if v.getLsbD 4 then freezeCapture 0 s2 else s2

def execCaptureModeWrite (value : W32) (s : State) : Host.Outcome State Fault Refusal :=
  .next (if ctlOn s then capCtlWrite value s else holdAccess 5 (.captureModeWrite value) s)

/-- CAPTURE_FREEZE: a write of 1 to FREEZE that leaves the other fields. -/
def execCaptureFreeze (s : State) : Host.Outcome State Fault Refusal :=
  .next (if ctlOn s then freezeCapture 0 s else holdAccess 5 .captureFreeze s)

/-! ### Records read back -/

/-- Bytes of header record n. -/
def recordAt (s : State) (n : Nat) : List Byte :=
  readBytes s.mem (s.rru.hdrBase.toNat + n % max 1 (s.rru.hdrLen.toNat / 128) * 128) 128

def recCcc (r : List Byte) : Nat := leAt r 0 8
def recKind (r : List Byte) : Nat := bits (leAt r 8 2) 3 0
def recPort (r : List Byte) : Nat := bits (leAt r 8 2) 7 4
def recVc (r : List Byte) : Nat := bits (leAt r 8 2) 10 8
def recPay (r : List Byte) : Bool := bit (leAt r 8 2) 11
def recPidx (r : List Byte) : Nat := leAt r 12 4

/-- The packet of a packet record, for the router input of its port. It holds no buffer of the port. -/
def recordPacket (s : State) (r : List Byte) : Packet :=
  let pay := readBytes s.mem (s.rru.payBase.toNat + recPidx r % max 1 (s.rru.payLen.toNat / 4096) * 4096) 4096
  let body := if recKind r = 2 then slice r 32 96
    else slice r 32 32 ++ List.replicate 8 0 ++ slice r 64 64 ++ pay
  { Packet.ofBodies (recVc r) s.ccc.toNat (recPort r) (slice r 16 16 ++ body) with invc := 8 }

/-! ### REPLAY_GO and REPLAY_STOP (R380, R384) -/

/-- The configuration that a step header records is the one in force. -/
def headerMatches (s : State) (r : List Byte) : Bool :=
  let o := s.opt
  leAt r 16 2 == o.step.toNat && leAt r 19 1 == s.rtr.axisMap.toNat && leAt r 20 4 == s.rtr.shape.toNat &&
    leAt r 24 4 == s.rtr.coord.toNat && leAt r 28 1 == s.rtr.mapGen.toNat &&
    leAt r 29 1 == b2n o.en + 2 * b2n o.policy + 16 * o.repeatMax.toNat &&
    leAt r 32 4 / 4 * 4 == 4 * b2n s.rru.mirrorPay + s.rru.trigMask.toNat * 65536 && leAt r 36 2 == s.rru.budget.toNat

/-- What must hold before GO. -/
def replayReady (s : State) : Bool :=
  let n := s.rru.replayStart.toNat
  let w := s.rru.hdrWrite.toNat
  let r := recordAt s n
  s.rru.mode == 0 && !fenced s && s.rtr.holdDone && decide (n < w) && decide (w ≤ n + s.rru.hdrLen.toNat / 128) &&
    recKind r == 3 && headerMatches s r

/-- REPLAY_GO. -/
def replayGo (s : State) : State :=
  if !replayReady s then pageErr pgRru cConfigInvalid s
  else
    let n := s.rru.replayStart.toNat
    mRru (fun r =>
      { r with
        run := true, goCcc := s.ccc, t0 := BitVec.ofNat 64 (recCcc (recordAt s n)), commits := 0,
        next := (List.range 16).foldl (fun m p => Sparse.set 0 m p (BitVec.ofNat 64 (n + 1))) [],
        digestPos := BitVec.ofNat 64 (n + 1) }) s

def execReplayGo (s : State) : Host.Outcome State Fault Refusal :=
  .next (if ctlOn s then replayGo s else holdAccess 5 .replayGo s)

/-- A replay ends with a code; the ports stay fenced. -/
def endReplay (code : Nat) (s : State) : State := mRru (fun r => { r with run := false, endCode := BitVec.ofNat 3 code }) s

/-- REPLAY_STOP. -/
def replayStop (s : State) : State := if s.rru.run then endReplay 4 s else s

def execReplayStop (s : State) : Host.Outcome State Fault Refusal :=
  .next (if ctlOn s then replayStop s else holdAccess 5 .replayStop s)

/-! ### REPLAY_DELIVERY (R382, R384) -/

/-- The first record from number n on that a test accepts, below HDR_WRITE; k is the number of records left. -/
def findRecord (s : State) (ok : List Byte → Bool) : Nat → Nat → Option Nat
  | 0, _ => none
  | k + 1, n => if ok (recordAt s n) then some n else findRecord s ok k (n + 1)

def recordFrom (s : State) (ok : List Byte → Bool) (n : Nat) : Option Nat := findRecord s ok (s.rru.hdrWrite.toNat - n) n

def portNext (s : State) (p : Nat) : Nat := (Sparse.get 0 s.rru.next p).toNat

def isPacketOf (p : Nat) (r : List Byte) : Bool := (recKind r == 1 || recKind r == 2) && recPort r == p
def isGap (r : List Byte) : Bool := recKind r == 6

/-- The record that ends the span: the first gap record, else number HDR_WRITE. -/
def spanEnd (s : State) : Nat × Nat :=
  match recordFrom s isGap (s.rru.replayStart.toNat + 1) with
  | some n => (n, 2)
  | none => (s.rru.hdrWrite.toNat, 3)

/-- Every packet record before the span's end has been delivered. -/
def spanOver (s : State) : Bool :=
  (List.range 10).all fun p => match recordFrom s (isPacketOf p) (portNext s p) with
    | some n => decide ((spanEnd s).1 ≤ n)
    | none => true

/-- The replay reaches the end of its span. -/
def closeSpan (s : State) : State := if s.rru.run && spanOver s then endReplay (spanEnd s).2 s else s

/-- This chip accepts a packet: a bulk packet waits until its session is held. A mirror packet names no session. -/
def replayAccepts (s : State) (k : Packet) : Bool := k.isBand || k.ptype == ptMirror || gsidHeld s k.session

/-- REPLAY_DELIVERY: the next packet record of a port is due and is delivered to its router input. -/
def replayDelivery (p : Nat) (s : State) : State :=
  if !s.rru.run then s
  else match recordFrom s (isPacketOf p) (portNext s p) with
    | none => closeSpan s
    | some n =>
      if (spanEnd s).1 ≤ n then closeSpan s
      else
        let r := recordAt s n
        let due := s.rru.goCcc.toNat + (recCcc r - s.rru.t0.toNat)
        if s.ccc.toNat < due then s
        else if recKind r = 1 && !recPay r then endReplay 2 s
        else
          let k := recordPacket s r
          if !replayAccepts s k then s
          else
            let s1 := mRtr (fun t => { t with inputs := Sparse.modify [] t.inputs p (· ++ [k]) }) s
            let s2 := bump pgRru (·.rru.slip) (fun v => mRru fun r => { r with slip := v }) (s.ccc.toNat - due) s1
            closeSpan (mRru (fun r => { r with next := Sparse.set 0 r.next p (BitVec.ofNat 64 (n + 1)) }) s2)

def execReplayDelivery (port : Fin 10) (s : State) : Host.Outcome State Fault Refusal :=
  .next (if ctlOn s then replayDelivery port.val s else s)

/-! ### REPLAY_FORCED_CHOICE (R383) -/

def choiceClass (r : List Byte) : Nat := leAt r 16 1

/-- A recorded choice that a replay forces. -/
def isForced (r : List Byte) : Bool :=
  recKind r == 5 && (choiceClass r == 2 || choiceClass r == 3 || choiceClass r == 4 || choiceClass r == 5 || choiceClass r == 7)

/-- The waiter that a recorded release names by its object: the lowest one on it. -/
def waiterOn (s : State) (p : Nat) : Option Waiter :=
  ((waitersOf s p).head?).map fun i =>
    if i < 256 then .ring (Fin.ofNat 256 i) else .monitor (Fin.ofNat 64 ((i - 256) / 64)) (Fin.ofNat 64 ((i - 256) % 64))

/-- The barrier head whose completion object an object is. -/
def barrierOn (s : State) (p : Nat) : Option Waiter :=
  (s.que.rings.find? fun e => match e.2.headState, e.2.cur with
    | .barrier .., some d => d.doneMode != 2 && (translate s e.2.ctx.toNat d.doneObj).map Prod.fst == some p
    | _, _ => false).map fun e => .ring (Fin.ofNat 256 e.1)

/-- The channel of the crown's oldest entry that has not been released: a record of class 5 names none. -/
def crownOldest (s : State) : Option Nat :=
  (s.syn.combine.find? fun e => !e.sent && (chanTree s e).parent.isNone).map Combine.chan

/-- Apply a recorded choice; none while what it names does not exist yet. -/
def applyForced (r : List Byte) (s : State) : Option State :=
  let subject := leAt r 20 4
  let code : W16 := BitVec.ofNat 16 (0x0800 + leAt r 17 1)
  match choiceClass r with
  | 2 => (slotOfGsid s subject).map fun i => stageAfterTimeout i true s
  | 3 => ((waiterOn s subject).or (barrierOn s subject)).map fun w => syncTimeout w (some code) s
  | 4 => if s.opt.step.toNat = leAt r 18 2 && mayContribute s then some (stepDeadline true s) else none
  | 5 => (crownOldest s).map fun c => crownTimeout c true s
  | _ => if (slotOfGsid s subject).isSome then some (reportStall s) else none

/-- REPLAY_FORCED_CHOICE: the next recorded choice of a forced class is due and is applied. -/
def replayForcedChoice (n : Nat) (s : State) : State :=
  if !s.rru.run || recordFrom s isForced (portNext s 15) != some n then s
  else
    let r := recordAt s n
    if s.ccc.toNat < s.rru.goCcc.toNat + (recCcc r - s.rru.t0.toNat) then s
    else match applyForced r s with
      | none => s
      | some t => mRru (fun q => { q with next := Sparse.set 0 q.next 15 (BitVec.ofNat 64 (n + 1)) }) t

def execReplayForcedChoice (record : Nat) (s : State) : Host.Outcome State Fault Refusal :=
  .next (if ctlOn s then replayForcedChoice record s else s)

/-! ### COMMIT (09 R297; 12 R384; 14 R431) -/

/-- The digest record of a step and attempt. -/
def isDigestOf (step attempt : Nat) (r : List Byte) : Bool := recKind r == 4 && leAt r 16 2 == step && leAt r 18 1 == attempt

/-- A replayed commit compares the set digest with the record's, and may end the replay. -/
def replayCommit (digest : W64) (step attempt : Nat) (s : State) : State :=
  match recordFrom s (isDigestOf step attempt) s.rru.digestPos.toNat with
  | some n =>
    let s1 := mRru (fun r => { r with digestPos := BitVec.ofNat 64 (n + 1) }) s
    if leAt (recordAt s n) 24 8 != digest.toNat then endReplay 5 (raiseVec 259 (reportCode cReplayDiverged s1))
    else if s.rru.steps != 0 && decide (s.rru.commits ≥ s.rru.steps.toNat) then endReplay 1 s1 else s1
  | none => if s.rru.steps != 0 && decide (s.rru.commits ≥ s.rru.steps.toNat) then endReplay 1 s else s

/-- COMMIT: the result waits for no frame's tag check any more. -/
def commit (s : State) : State :=
  match s.opt.commitWait with
  | some (u, []) =>
    if u != s.opt.step || s.opt.state != 4 then s
    else
      let t := commitStep s
      if s.rru.run then replayCommit (decision 7 15 u.toNat 0 0 0 s).ctl.digest u.toNat s.opt.attempt.toNat t else t
  | _ => s

def execCommit (s : State) : Host.Outcome State Fault Refusal :=
  .next (if ctlOn s then commit s else s)

end Sys2Proof.Machine
end

