-- ==== Sys2Proof/Machine/Reset.lean ====
section
/-! DEFINITION. Machine/Reset.lean: resets: the commands RST_COLD_N, RST_WARM_N, RST_ENG_N, RST_DONE, CTX_RST_REQ and
CTX_RST_ACK, and the wake that a reset in sleep begins (02 R68, R69; 15 R448 to R450). A reset command is the whole
of its input's pulse (log 8). -/

namespace Sys2Proof.Machine

/-! ### What each reset clears (15 R448) -/

/-- Input pins of the ports keep their levels. -/
def Port.pins (q : Port) : Port := { present := q.present, lock := q.lock, laneOk := q.laneOk }

/-- Requests the engine has presented are still answered; nothing waits for them (02 R69). -/
def forgetEmp (s : State) : Emp :=
  { s.emp with
    reads := s.emp.reads.map fun r => { r with purpose := .other, undo := [] },
    writes := s.emp.writes.map fun w => { w with purpose := .other }, held := [] }

/-- Cold reset: every domain, and the CCC. Memory, the input pins and the model's own fields stay. -/
def clearCold (s : State) : State :=
  { State.reset with
    tick := s.tick, free := s.free, pending := s.pending, mem := s.mem, emp := forgetEmp s,
    lnk := { ports := Sparse.mapAll {} s.lnk.ports fun _ q => q.pins },
    dbg := { unlock := s.dbg.unlock, freezeIn := s.dbg.freezeIn, issueStopped := s.dbg.freezeIn },
    pwr := { lastReset := 3, thrPin := s.pwr.thrPin } }

/-- Warm reset: every domain but Always-on; the key slots are zeroised. -/
def clearWarm (s : State) : State :=
  { clearCold s with
    ccc := s.ccc, hdrs := s.hdrs.filter (fun h => h.1 == pgPwr), pwr := { s.pwr with lastReset := 2 } }

/-- The capture areas, their write counts and wrap bits (12 R386). -/
def keptRru (r : Rru) : Rru :=
  { hdrBase := r.hdrBase, hdrLen := r.hdrLen, payBase := r.payBase, payLen := r.payLen, hdrWrite := r.hdrWrite,
    payWrite := r.payWrite, hdrWrapped := r.hdrWrapped, payWrapped := r.payWrapped }

/-- Packets of this chip whose data have not been read are the datapath's; all others are in the router. -/
def keptRtr (s : State) : Rtr :=
  { s.rtr with inputs := Sparse.modify [] s.rtr.inputs 10 fun l => l.filter fun k => k.reads.isEmpty }

/-- Engine reset: Control, Datapath and Staging memory. Fabric and Always-on stay, with CTL.EMP_TIMING; LIVE objects become
ORPHANED. -/
def clearEngine (s : State) : State :=
  { clearWarm s with
    hdrs := s.hdrs.filter (fun h => (decide (pgSyn ≤ h.1) && decide (h.1 ≤ pgLsu)) || h.1 == pgPwr),
    msix := { outstanding := s.msix.outstanding },
    ctl := { rdLat := s.ctl.rdLat, refOffset := s.ctl.refOffset, refLen := s.ctl.refLen, schedLost := s.ctl.schedLost },
    syn :=
      { s.syn with
        objects := Sparse.mapAll {} s.syn.objects fun _ o => if o.st = .live then { o with st := .orphaned } else o },
    rtr := keptRtr s, lnk := s.lnk, lsu := s.lsu, rru := keptRru s.rru, pwr := { s.pwr with lastReset := 1 },
    rst := { ctx := s.rst.ctx, ctxAck := s.rst.ctxAck } }

/-- Act on a reset of a kind: 1 engine, 2 warm, 3 cold. RST_DONE is low until the command RST_DONE. -/
def resetNow (kind : Nat) (s : State) : State :=
  let s1 := match kind with
    | 1 => clearEngine s
    | 2 => clearWarm s
    | _ => clearCold s
  mRst (fun r => { r with kind := max kind s.rst.kind, release := s.tick, done := false, pendingKind := 0 }) s1

/-- A reset input: in sleep the engine wakes first (15 R450). -/
def assertReset (kind : Nat) (s : State) : State :=
  let s1 := wakeBy 7 s
  if s.pwr.cur = 2 then mRst (fun r => { r with pendingKind := max kind r.pendingKind, done := false }) s1
  else resetNow kind s1

def execRstColdN (s : State) : Host.Outcome State Fault Refusal := .next (assertReset 3 s)
def execRstWarmN (s : State) : Host.Outcome State Fault Refusal := .next (assertReset 2 s)
def execRstEngN (s : State) : Host.Outcome State Fault Refusal := .next (assertReset 1 s)

/-! ### RST_DONE (02 R68, R69; 15 R450, R459) -/

/-- An engine reset waits for the outstanding MSI-X request and for every write. -/
def resetQuiet (s : State) : Bool := s.rst.kind != 1 || (s.msix.outstanding.isNone && s.emp.writes.isEmpty)

/-- The RESET_DONE message. -/
def resetMessage (kind ctx : Nat) (s : State) : State := sendMbx 0x03 [3, w32 kind, w32 ctx] s

/-- RST_DONE: 16 ticks after the release it rises, and RESET_DONE is sent. -/
def rstDone (s : State) : State :=
  if s.rst.kind = 0 || s.rst.pendingKind != 0 || s.tick < s.rst.release + 16 || !resetQuiet s then s
  else resetMessage s.rst.kind 0 (mRst (fun r => { r with done := true, kind := 0 }) s)

def execRstDone (s : State) : Host.Outcome State Fault Refusal := .next (rstDone s)

/-! ### Context reset (15 R448, R449; 11 R344) -/

/-- The session slots of a context. -/
def ctxSlots (s : State) (c : Nat) : List Nat := (s.ses.slots.filter fun p => p.2.ctx == c).map Prod.fst

/-- The buckets with a parked session of a context. -/
def ctxParks (s : State) (c : Nat) : List Nat :=
  (s.gas.bkt.filter fun p => match p.2.park with
    | some k => k.ctx == c
    | none => false).map Prod.fst

/-- The rings of a context that have been configured. -/
def ctxRings (s : State) (c : Nat) : List Nat := (s.que.rings.filter fun p => p.2.ctx.toNat == c).map Prod.fst

/-- A session of the context ends; one that was rejected frees its slot. -/
def endForReset (i : Nat) (s : State) : State :=
  match slot? s i with
  | none => s
  | some x => if x.st = .rejected then freeSlot i s else endSession i cContextReset s

/-- A parked session of the context ends, as a failed gradient session (09 R280). -/
def endParkForReset (b : Nat) (s : State) : State :=
  match (bktOf s b).park with
  | none => s
  | some k =>
    let s1 := failStep k.d.step (reportCode cContextReset s)
    let s2 := mBkt b (fun k => { k with reduced := false, sumSq := 0 }) (retirePark b cContextReset 0 false s1)
    let g := groupOf s k.d
    abortGroup k.d.axis g.2.1 g.1 g.2.2 k.ctx k.gsid k.d.step cContextReset s2

/-- The ring's waiting head is discarded, and every accepted descriptor without a record receives one. -/
def clearRing (r : Nat) (s : State) : State :=
  let g := ringOf s r
  mRing r (fun g => { g with cur := none, headState := .idle, tagStall := false })
    (completeRest r cContextReset (.record r) (g.producer - g.done).toNat g.done (forgetFetch r s))

/-- The context's LIVE objects become ORPHANED and its monitors are disarmed. -/
def ctxObjects (c : Nat) (s : State) : State :=
  mSyn (fun y =>
    { y with
      monitors := Sparse.mapAll {} y.monitors fun i m => if i / 64 = c then { m with armed := false } else m })
    (orphanAll c s)

/-- CTX_RST_REQ: one that arrives while another of the context runs is merged into it. -/
def ctxRstReq (c : Nat) (s : State) : State :=
  if s.rst.ctx.contains c then s
  else
    let s1 := mWin c (fun w => { w with resetPending := true }) (mRst (fun r => { r with ctx := r.ctx ++ [c] }) s)
    let s2 := foldS (ctxSlots s1 c) s1 endForReset
    let s3 := foldS (ctxParks s2 c) s2 endParkForReset
    ctxObjects c (foldS (ctxRings s3 c) s3 clearRing)

def execCtxRstReq (ctx : Fin 64) (s : State) : Host.Outcome State Fault Refusal := .next (ctxRstReq ctx.val s)

/-- A completion record of a ring of the context is not yet visible. -/
def ctxWriting (s : State) (c : Nat) : Bool :=
  empWriting s fun p => match p with
    | .record r => (ctxRings s c).contains r
    | _ => false

/-- CTX_RST_ACK: once every record has returned WACK the counts are set and the acknowledgement pulses. -/
def ctxRstAck (c : Nat) (s : State) : State :=
  if !s.rst.ctx.contains c || ctxWriting s c then s
  else
    let s1 := foldS (ctxRings s c) s fun r s => mRing r (fun g => { g with head := g.producer, done := g.producer, written := [] }) s
    resetMessage 0 c (mWin c (fun w => { w with resetPending := false })
      (mRst (fun r => { r with ctx := r.ctx.erase c, ctxAck := r.ctxAck ++ [c] }) s1))

def execCtxRstAck (ctx : Fin 64) (s : State) : Host.Outcome State Fault Refusal := .next (ctxRstAck ctx.val s)

end Sys2Proof.Machine
end

