-- ==== Sys2Proof/Machine/Power.lean ====
section
/-! DEFINITION. Machine/Power.lean: power states and the power limit: the commands DOZE_REQUEST, SLEEP_REQUEST,
SLEEP_ENTRY_DONE, RUN_REQUEST, WAKE_SOURCE, PWR_GOOD, SLEEP_WAKE_DONE, DOZE_WAKE_DONE, THR_LIMIT_CHANGE, THROTTLE_IN_FORCE
and PEAK_CLR (01 R33 to R37; 02 R59 to R61; 15 R455 to R463). -/

namespace Sys2Proof.Machine

/-! ### Requests (15 R455) -/

/-- The PWC drives PS_REQ, which the tick edge samples. -/
def powerReq (v : Nat) (s : State) : State := mPwr (fun p => { p with req := BitVec.ofNat 2 v }) s

/-- DOZE_REQUEST: refused while a tag is held, and until CTX_RST_ACK of a context reset (15 R460). -/
def dozeRequest (s : State) : State :=
  let s1 := powerReq 1 s
  if s.pwr.cur != 0 || s.pwr.entry.isSome then s1
  else if !s.trk.tags.isEmpty || !s.rst.ctx.isEmpty then powerNak s1
  else mPwr (fun p => { p with cur := 1, refused := false }) s1

def execDozeRequest (s : State) : Host.Outcome State Fault Refusal := .next (dozeRequest s)

/-- A reduce-scatter or all-gather session of an uncommitted step is in SES: admitted, and neither waiting for admission nor
rejected (01 R35; 05 R163; 07 R230; 15 R455). -/
def stepSessionHeld (s : State) : Bool :=
  s.ses.slots.any fun p =>
    p.2.st == .run && (p.2.d.opc == 0x01 || p.2.d.opc == 0x02) && decide ((s.opt.committed - p.2.d.step).toNat ≥ 2 ^ 15)

/-- SLEEP_REQUEST: the check, and the start of the entry. -/
def sleepRequest (s : State) : State :=
  let s1 := powerReq 2 s
  if s.pwr.cur = 2 || s.pwr.entry.isSome || s.pwr.waking.isSome then s1
  else if !s.trk.tags.isEmpty || stepSessionHeld s then powerNak s1
  else mPwr (fun p => { p with entry := some s.tick, refused := false }) s1

def execSleepRequest (s : State) : Host.Outcome State Fault Refusal := .next (sleepRequest s)

/-- SLEEP_ENTRY_DONE: at tick 10 of the entry ISO and PS_ACK = 2. -/
def sleepEntryDone (s : State) : State :=
  match s.pwr.entry with
  | none => s
  | some t => if s.tick < t + 10 then s else mPwr (fun p => { p with cur := 2, iso := true, good := false, entry := none }) s

def execSleepEntryDone (s : State) : Host.Outcome State Fault Refusal := .next (sleepEntryDone s)

/-! ### Waking (02 R60, 01 R34, 15 R456) -/

/-- The PWC drives PS_REQ to run, with 0 or with the reserved 3, which is taken as run (02 R59): a wake source of cause 1. -/
def requestRun (reserved : Bool) (s : State) : State := wakeBy 1 (powerReq (if reserved then 3 else 0) s)

/-- RUN_REQUEST: PS_REQ = 0. -/
def runRequest (s : State) : State := requestRun false s

def execRunRequest (s : State) : Host.Outcome State Fault Refusal := .next (runRequest s)

/-- The cause that PWR.STATE.WAKE_CAUSE records (15 R456). -/
def wakeCode : WakeFrom → Nat
  | .psReq _ => 1
  | .bandFlit => 2
  | .doorbell => 3
  | .tileWord => 4
  | .access => 5
  | .syncTimeout => 6
  | .resetInput => 7

/-- WAKE_SOURCE: a source of one of the causes 1 to 7; cause 1 comes with the code that the PWC drives. -/
def wakeSource (cause : WakeFrom) (s : State) : State :=
  match cause with
  | .psReq reserved => requestRun reserved s
  | c => wakeBy (wakeCode c) s

def execWakeSource (cause : WakeFrom) (s : State) : Host.Outcome State Fault Refusal := .next (wakeSource cause s)

/-- In a wake from sleep ISO is held until tick 40 and until the rails are good; the restore takes 10 ticks more (02 R60). -/
def isoRelease (s : State) : State :=
  match s.pwr.waking with
  | some t => if s.pwr.cur = 2 && s.pwr.good && decide (s.tick ≥ t + 40) then mPwr (fun p => { p with iso := false }) s else s
  | none => s

/-- PWR_GOOD: the rails are within limits; after tick 40 the restore starts from here. -/
def pwrGood (s : State) : State :=
  isoRelease (mPwr (fun p =>
    { p with good := true, waking := if p.cur = 2 then p.waking.map fun t => max t (s.tick - 40) else p.waking }) s)

def execPwrGood (s : State) : Host.Outcome State Fault Refusal := .next (pwrGood s)

/-- D and N of a limit: with f = (L − 6 W) ÷ 79 W, L in 0.5 W units (15 R457). -/
def thrD (l : Nat) : Nat := 16 * (l - 12) / 158
def thrN (l : Nat) : Nat := 63 * (l - 12) / 158

/-- A limit comes into force, and THR_ACK toggles (02 R61). -/
def putLimit (l : Byte) (p : Pwr) : Pwr :=
  { p with limit := l, capD := BitVec.ofNat 5 (thrD l.toNat), capN := BitVec.ofNat 6 (thrN l.toNat), thrAck := !p.thrAck }

/-- The engine is in run, and the watchdog counts from zero (01 R20). A limit sampled meanwhile is in force on wake (02 R70). -/
def toRun (s : State) : State :=
  mCtl (fun k => { k with wdogCount := 0 })
    (mPwr (fun p =>
      let q := { p with cur := 0, waking := none, wakeReq := false, iso := false, thrNew := [] }
      match p.thrNew.getLast? with
      | none => q
      | some l => putLimit l.1 q) s)

/-- SLEEP_WAKE_DONE: 50 ticks after the wake began. A reset that waited for the wake acts now (15 R450). -/
def sleepWakeDone (s : State) : State :=
  match s.pwr.waking with
  | none => s
  | some t =>
    if s.pwr.cur != 2 || !s.pwr.good || s.tick < t + 50 then s
    else if s.rst.pendingKind = 0 then toRun s
    else resetNow s.rst.pendingKind (toRun s)

def execSleepWakeDone (s : State) : Host.Outcome State Fault Refusal := .next (sleepWakeDone s)

/-- DOZE_WAKE_DONE: 64 cycles after the wake began. -/
def dozeWakeDone (s : State) : State :=
  match s.pwr.waking with
  | none => s
  | some c => if s.pwr.cur != 1 || s.ccc.toNat < c + 64 then s else toRun s

def execDozeWakeDone (s : State) : Host.Outcome State Fault Refusal := .next (dozeWakeDone s)

/-! ### The power limit (02 R59, R61; 15 R457) -/

/-- The clamp of R59. -/
def clampLimit (l : Byte) : Byte := if l.toNat < 12 then 12 else if l.toNat > 170 then 170 else l

/-- THR_LIMIT_CHANGE: the PWC drives THR_LIMIT, which the next tick edge samples. -/
def thrLimitChange (l : Byte) (s : State) : State := mPwr (fun p => { p with thrPin := l }) s

/-- The last limit sampled: in force, or waiting for its boundary. -/
def thrLast (p : Pwr) : Byte := match p.thrNew.getLast? with
  | none => p.limit
  | some l => l.1

/-- A tick edge samples THR_LIMIT; a changed limit waits for its frame boundary. -/
def thrSample (s : State) : State :=
  mPwr (fun p =>
    if clampLimit p.thrPin = thrLast p then p else { p with thrNew := p.thrNew ++ [(clampLimit p.thrPin, s.tick)] }) s

def execThrLimitChange (limit : Byte) (s : State) : Host.Outcome State Fault Refusal := .next (thrLimitChange limit s)

/-- THROTTLE_IN_FORCE: the oldest change sampled, at a frame boundary (CCC a multiple of 16) at least 2 ticks later; frames
run only while the clocks do. -/
def throttleInForce (s : State) : State :=
  match s.pwr.thrNew with
  | [] => s
  | (l, t) :: rest =>
    if s.tick < t + 2 || s.ccc.toNat % 16 != 0 || s.pwr.cur != 0 then s
    else mPwr (fun p => putLimit l { p with thrNew := rest }) s

def execThrottleInForce (s : State) : Host.Outcome State Fault Refusal := .next (throttleInForce s)

/-- PEAK_CLR: a write to PWR.CTL. -/
def peakClr (v : W32) (s : State) : State := if v.getLsbD 0 then mPwr (fun p => { p with peak := 0 }) s else s

def execPeakClr (value : W32) (s : State) : Host.Outcome State Fault Refusal := .next (peakClr value s)

end Sys2Proof.Machine
end

