-- ==== Sys2Proof/Machine/Debug.lean ====
section
/-! DEFINITION. Machine/Debug.lean: debug freeze, the debug window and the page headers: the commands
DEBUG_FREEZE_REQUEST, DEBUG_FREEZE_DONE, DEBUG_FREEZE_END, DBG_SEL_WRITE, DBG_DATA_READ, PAGE_ERR_CLEAR, PAGE_IRQ_CLEAR and
PAGE_IRQ_MASK_WRITE (02 R66, R67; 16 R465 to R473, R493 to R496). -/

namespace Sys2Proof.Machine

/-! ### Freeze (16 R494) -/

/-- The level of DEBUG_UNLOCK at a debug-bus access (02 R66; log 3). -/
def sampleUnlock (unlock : Bool) (s : State) : State := mDbg (fun d => { d with unlock := unlock }) s

/-- The two requests: DBG.CTL.FREEZE, which needs the debug bus, and the DBG_FREEZE input. -/
def freezeReq (src : FreezeSource) (on : Bool) (s : State) : State :=
  match src with
  | .register unlock =>
    let s1 := sampleUnlock unlock s
    if unlock then mDbg (fun d => { d with freeze := on }) s1 else s1
  | .input => mDbg (fun d => { d with freezeIn := on }) s

def freezeAsked (s : State) : Bool := s.dbg.freeze || s.dbg.freezeIn

/-- DEBUG_FREEZE_REQUEST: issue stops. -/
def debugFreezeRequest (src : FreezeSource) (s : State) : State :=
  let s1 := freezeReq src true s
  if freezeAsked s1 then mDbg (fun d => { d with issueStopped := true }) s1 else s1

/-- A debug-bus access waits for the wake of the Control domain; the DBG_FREEZE input does not. -/
def freezeNow (src : FreezeSource) (s : State) : Bool := ctlOn s || src == .input

def execDebugFreezeRequest (source : FreezeSource) (s : State) : Host.Outcome State Fault Refusal :=
  .next (if freezeNow source s then debugFreezeRequest source s else holdAccess 5 (.debugFreezeRequest source) s)

/-- An accumulation, preload or wave write awaits its WACK. -/
def gasWriting (s : State) : Bool :=
  s.emp.writes.any fun w => match w.purpose with
    | .gas _ => true
    | .wave .. => true
    | _ => false

/-- DEBUG_FREEZE_DONE: FROZEN reads 1. -/
def debugFreezeDone (s : State) : State :=
  if !freezeAsked s || s.dbg.frozen || !s.trk.tags.isEmpty || gasWriting s then s
  else bump pgDbg (·.dbg.freezes) (fun v => mDbg fun d => { d with freezes := v }) 1 (mDbg (fun d => { d with frozen := true }) s)

def execDebugFreezeDone (s : State) : Host.Outcome State Fault Refusal :=
  .next (if ctlOn s then debugFreezeDone s else s)

/-- DEBUG_FREEZE_END: with both requests 0, issue and deposits resume. -/
def debugFreezeEnd (src : FreezeSource) (s : State) : State :=
  let s1 := freezeReq src false s
  if freezeAsked s1 then s1 else releaseHeld (mDbg (fun d => { d with frozen := false, issueStopped := false }) s1)

def execDebugFreezeEnd (source : FreezeSource) (s : State) : Host.Outcome State Fault Refusal :=
  .next (if freezeNow source s then debugFreezeEnd source s else holdAccess 5 (.debugFreezeEnd source) s)

/-! ### The debug window (16 R495, R496) -/

/-- DBG_SEL_WRITE: a reserved target is ignored. -/
def dbgSelWrite (v : W32) (s : State) : State :=
  if !s.dbg.unlock then s
  else if bits v.toNat 3 0 > 8 then pageErr pgDbg cConfigInvalid s
  else mDbg (fun d => { d with sel := v.extractLsb' 0 4 }) s

def execDbgSelWrite (value : DbgWrite) (s : State) : Host.Outcome State Fault Refusal :=
  .next (if ctlOn s then dbgSelWrite value.value (sampleUnlock value.unlock s) else holdAccess 5 (.dbgSelWrite value) s)

/-- Words of each target. -/
def dbgWords (s : State) : Nat :=
  match s.dbg.sel.toNat with
  | 0 => 32768
  | 1 => 16384
  | 2 => 8192
  | 3 => 8192
  | 4 => 65536
  | 5 => 262144
  | 6 => 12582912
  | 7 => 1048576
  | _ => s.gas.winLen.toNat / 8

def SesState.code (x : SesState) : Nat :=
  match x with
  | .wait => 1
  | .held => 2
  | .firm => 3
  | .run => 4
  | .rejected => 5

/-- A session slot's words. -/
def slotWord (s : State) (a : Nat) : Nat :=
  match slot? s (a / 2) with
  | none => 0
  | some x =>
    if a % 2 = 0 then x.gsid + x.d.bucket * 2 ^ 32 + x.d.opc * 2 ^ 48 + x.st.code * 2 ^ 56
    else x.issued + (s.trk.tags.filter fun t => t.2.slot == a / 2).length * 2 ^ 36 + x.ctx * 2 ^ 53

def tagWord (s : State) (a : Nat) : Nat :=
  match assoc? s.trk.tags a with
  | none => 0
  | some t => 1 + t.slot * 2 + t.seq * 2 ^ 13

/-- Targets whose words are free values: the palm's raw bytes, and the data memory once the sequencer's microcode may have
written it (log 22). -/
def dbgFree (s : State) : Bool := s.dbg.sel == 6 || (s.dbg.sel == 1 && (s.ctl.run || s.ctl.csqLen != 0))

/-- The word of the target at an index. -/
def dbgWord (s : State) (a : Nat) : W64 :=
  let pair (m : Sparse W32) : Nat := (Sparse.get (0 : W32) m (2 * a)).toNat + (Sparse.get (0 : W32) m (2 * a + 1)).toNat * 2 ^ 32
  if dbgFree s then Config.freeWord s.free
  else match s.dbg.sel.toNat with
  | 0 => BitVec.ofNat 64 (pair s.ctl.ucode)
  | 1 => BitVec.ofNat 64 (pair s.ctl.data)
  | 2 => BitVec.ofNat 64 (slotWord s a)
  | 3 => BitVec.ofNat 64 (bits (Sparse.get (0 : BitVec 512) s.tpl.entries (a / 8)).toNat (64 * (a % 8) + 63) (64 * (a % 8)))
  | 4 => BitVec.ofNat 64 (tagWord s a)
  | 5 => objWord s a
  | 7 => Sparse.get (0 : W64) s.row.thimble a
  | _ => BitVec.ofNat 64 (leNat (readBytes s.mem (s.gas.winBase.toNat + 8 * a) 8))

/-- Both halves of a read are latched at the low half (02 R53). -/
def dbgLatch (v : W64) (s : State) : State :=
  mDbg (fun d => { d with readData := v.extractLsb' 0 32, latch := v.extractLsb' 32 32 }) s

/-- DBG_DATA_READ: the low half reads the target; the high half returns the latched value and advances ADDR. -/
def dbgDataRead (high : Bool) (s : State) : State :=
  if !s.dbg.unlock then mDbg (fun d => { d with readData := 0 }) s
  else if high then mDbg (fun d => { d with readData := d.latch, addr := d.addr + 1 }) s
  else
    let a := s.dbg.addr.toNat
    if s.dbg.sel.toNat ≥ 6 && !s.dbg.frozen then dbgLatch 0 (pageErr pgDbg cAccessDenied s)
    else if a ≥ dbgWords s then dbgLatch 0 (pageErr pgDbg cFieldInvalid s)
    else
      let s1 := dbgLatch (dbgWord s a) s
      if dbgFree s then { s1 with free := s1.free + 1 } else s1

def execDbgDataRead (high : DbgRead) (s : State) : Host.Outcome State Fault Refusal :=
  .next (if ctlOn s then dbgDataRead high.high (sampleUnlock high.unlock s) else holdAccess 5 (.dbgDataRead high) s)

/-! ### Page headers (16 R466 to R470) -/

/-- The power domain of a page's registers: 0 Always-on, 1 Fabric, 2 Control (16 R464). -/
def pageDomain (p : Nat) : Nat := if p = 17 then 0 else if 11 ≤ p && p ≤ 14 then 1 else 2

/-- The domain of a page runs, so that an access completes now (02 R54). -/
def pageOn (s : State) (p : Nat) : Bool :=
  match pageDomain p with
  | 0 => true
  | 1 => fabricOn s
  | _ => ctlOn s

/-- PAGE_ERR_CLEAR: a write to PAGE_ERR_CODE. -/
def pageErrClear (p : Nat) (v : W32) (s : State) : State :=
  if v.getLsbD 31 then mHdr p (fun h => { h with code := 0, count := 0 }) s else s

def execPageErrClear (page : Fin 19) (value : W32) (s : State) : Host.Outcome State Fault Refusal :=
  .next (if pageOn s page.val then pageErrClear page.val value s else holdAccess 5 (.pageErrClear page value) s)

/-- PAGE_IRQ_CLEAR: a write to PAGE_IRQ_STATUS clears the bits written as 1. -/
def pageIrqClear (p : Nat) (v : W32) (s : State) : State :=
  mHdr p (fun h => { h with irqErr := h.irqErr && !v.getLsbD 0, irqSat := h.irqSat && !v.getLsbD 1 }) s

def execPageIrqClear (page : Fin 19) (value : W32) (s : State) : Host.Outcome State Fault Refusal :=
  .next (if pageOn s page.val then pageIrqClear page.val value s else holdAccess 5 (.pageIrqClear page value) s)

/-- PAGE_IRQ_MASK_WRITE: a set bit that becomes unmasked requests the page's vector, once. -/
def pageIrqMaskWrite (p : Nat) (v : W32) (s : State) : State :=
  let h := hdrOf s p
  let s1 := mHdr p (fun h => { h with maskErr := v.getLsbD 0, maskSat := v.getLsbD 1 }) s
  if (h.irqErr && h.maskErr && !v.getLsbD 0) || (h.irqSat && h.maskSat && !v.getLsbD 1) then raiseVec (pageVec p) s1 else s1

def execPageIrqMaskWrite (page : Fin 19) (value : W32) (s : State) : Host.Outcome State Fault Refusal :=
  .next (if pageOn s page.val then pageIrqMaskWrite page.val value s else holdAccess 5 (.pageIrqMaskWrite page value) s)

end Sys2Proof.Machine
end

