-- ==== Sys2Proof/Machine/ConfigBus.lean ====
section
/-! DEFINITION. Machine/ConfigBus.lean: the configuration bus: the command CONFIG_WRITE, a write to any register of the
window (02 R52, R53; 14 R436, R439; 16 R464 to R497). A register with a command of its own is written by that command's
operation. -/

namespace Sys2Proof.Machine

/-! ### Fields -/

/-- The bits hi to lo of a 64-bit register. -/
def keep64 (hi lo : Nat) (v : W64) : W64 := v &&& BitVec.ofNat 64 (2 ^ (hi + 1) - 2 ^ lo)

/-- A tick field of bits 23:0, where 0 is taken as 1. -/
def ticks24 (v : W32) : BitVec 24 := if v.extractLsb' 0 24 = 0 then 1 else v.extractLsb' 0 24

/-- A write that is refused unless a condition holds records CONFIG_INVALID in its page. -/
def guarded (p : Nat) (ok : Bool) (f : State → State) (s : State) : State := if ok then f s else pageErr p cConfigInvalid s

/-- A base or length of an engine-owned area: refused where its own rule says so or the area would meet a region of another
kind (14 R439). -/
def areaPut (p kind : Nat) (ok : Bool) (base len : W64) (f : State → State) (s : State) : State :=
  guarded p (ok && !areaBad s base.toNat len.toNat kind) f s

/-! ### 64-bit registers -/

/-- Writes to a ring's areas are accepted while it is disabled and idle (05 R174, R175). -/
def ringArea (f : Ring → Ring) (s : State) : State :=
  let r := s.que.ringIndex.toNat
  let g := ringOf s r
  if !g.idle then pageErr pgQue cRegionBusy s
  else if g.enable then s
  else mRing r f s

/-- SES.STAGE_BASE and STAGE_LEN are accepted while no session waits, holds or stages (07 R239). -/
def stageOpen (s : State) : Bool :=
  s.ses.slots.all fun p => p.2.st != .wait && p.2.st != .held && p.2.st != .firm && !p.2.staged

/-- The capture areas are written while MODE is 0 and no replay runs (12 R386). -/
def captureOff (s : State) : Bool := s.rru.mode == 0 && !s.rru.run

def anyUp (s : State) : Bool := (List.range 10).any (portUp s)

/-- GAS.WIN_LEN: at most 48 GiB, while EN = 0 and no bucket is valid (09 R267, R300). -/
def winLenOpen (s : State) (v : W64) : Bool :=
  !s.opt.en && decide (v.toNat ≤ 48 * 2 ^ 30) && s.gas.buckets.all fun b => !bkValid b.2.toNat

/-- A data word of an entry is held until word 0 is written (16 R471). -/
def holdWord {α : Type} (l : List (Nat × α)) (i : Nat) (v : α) : List (Nat × α) := assocSet l i v

/-- A data word's committed value, for a high half written alone. -/
def entWord (e i : Nat) : W64 := BitVec.ofNat 64 (bits e (64 * i + 63) (64 * i))

/-- The 64-bit registers of pages 0 to 8: the value a register holds and its write. -/
def wideLow (s : State) (p off : Nat) : Option (W64 × (W64 → State → State)) :=
  match p, off with
  | 1, 0x28 => some ((ringOf s s.que.ringIndex.toNat).base, fun v => ringArea fun g => { g with base := keep64 47 12 v })
  | 1, 0x30 => some ((ringOf s s.que.ringIndex.toNat).cpl, fun v => ringArea fun g => { g with cpl := keep64 47 12 v })
  | 3, 0x30 => some (s.ses.regBase, fun v => mSes fun e => { e with regBase := keep64 47 6 v })
  | 3, 0x38 => some (s.ses.regLen, fun v => mSes fun e => { e with regLen := keep64 39 6 v })
  | 3, 0x60 => some (s.ses.stageBase, fun v => areaPut pgSes 9 (stageOpen s) (keep64 47 12 v) s.ses.stageLen
      (mSes fun e => { e with stageBase := keep64 47 12 v }))
  | 3, 0x68 => some (s.ses.stageLen, fun v => areaPut pgSes 9 (stageOpen s) s.ses.stageBase (keep64 39 12 v)
      (mSes fun e => { e with stageLen := keep64 39 12 v }))
  | 3, 0x80 => some (Sparse.get 0 s.ses.dep s.ses.depIndex.toNat, fun v => depositEntryWrite v)
  | 6, 0x28 => some (entWord (finEntry s s.fin.index.toNat) 0, fun v => finEntryCommit v)
  | 6, 0x30 => some (entWord (finEntry s s.fin.index.toNat) 1, fun v => mFin fun f => { f with held := some v })
  | 7, 0x28 => some (entWord (rowEntry s s.row.index.toNat) 0, fun v => rowEntryCommit v)
  | 7, 0x30 => some (entWord (rowEntry s s.row.index.toNat) 1, fun v => mRow fun r => { r with held := holdWord r.held 1 v })
  | 7, 0x38 => some (entWord (rowEntry s s.row.index.toNat) 2, fun v => mRow fun r => { r with held := holdWord r.held 2 v })
  | 8, 0x20 => some (s.gas.winBase, fun v => areaPut pgGas 1 true (keep64 47 16 v) s.gas.winLen
      (mGas fun g => { g with winBase := keep64 47 16 v }))
  | 8, 0x28 => some (s.gas.winLen, fun v => areaPut pgGas 1 (winLenOpen s (keep64 35 16 v)) s.gas.winBase (keep64 35 16 v)
      (mGas fun g => { g with winLen := keep64 35 16 v }))
  | 8, 0x40 => some (entWord (bktEntry s s.gas.bktIndex.toNat) 0, fun v => bucketEntryCommit v)
  | 8, o =>
    if 0x48 ≤ o && o ≤ 0x78 then
      let i := (o - 0x40) / 8
      some (entWord (bktEntry s s.gas.bktIndex.toNat) i, fun v s =>
        if s.opt.en then pageErr pgGas cRegionBusy s else mGas (fun g => { g with held := holdWord g.held i v }) s)
    else none
  | _, _ => none

/-- The 64-bit registers of pages 9 to 16. -/
def wideHigh (s : State) (p off : Nat) : Option (W64 × (W64 → State → State)) :=
  match p, off with
  | 9, 0x40 => some (s.opt.mirrorBase, fun v => areaPut pgOpt 9 true (keep64 47 12 v) s.opt.mirrorLen
      (mOpt fun o => { o with mirrorBase := keep64 47 12 v }))
  | 9, 0x48 => some (s.opt.mirrorLen, fun v => areaPut pgOpt 9 true s.opt.mirrorBase (keep64 39 12 v)
      (mOpt fun o => { o with mirrorLen := keep64 39 12 v }))
  | 10, 0x28 => some (entWord (spxEntry s s.spx.index.toNat) 0, fun v => spxEntryCommit v)
  | 10, 0x30 => some (entWord (spxEntry s s.spx.index.toNat) 1, fun v => mSpx fun x => { x with held := holdWord x.held 1 v })
  | 10, 0x38 => some (entWord (spxEntry s s.spx.index.toNat) 2, fun v => mSpx fun x => { x with held := holdWord x.held 2 v })
  | 10, 0x48 => some ((stashOf s s.spx.stashIndex.toNat).cfg, fun v => stashCfgWrite v)
  | 11, 0x28 =>
    some (segOf s (bits s.syn.segIndex.toNat 21 16) (bits s.syn.segIndex.toNat 3 0), fun v => segmentWrite v)
  | 11, 0x70 => some (s.syn.traceBase, fun v => areaPut pgSyn 9 true (keep64 47 12 v) 4194304
      (mSyn fun y => { y with traceBase := keep64 47 12 v }))
  | 15, 0x28 => some (s.rru.hdrBase, fun v => areaPut pgRru 9 (captureOff s) (keep64 47 12 v) s.rru.hdrLen
      (mRru fun r => { r with hdrBase := keep64 47 12 v }))
  | 15, 0x30 => some (s.rru.hdrLen, fun v => areaPut pgRru 9 (captureOff s) s.rru.hdrBase (keep64 39 12 v)
      (mRru fun r => { r with hdrLen := keep64 39 12 v }))
  | 15, 0x38 => some (s.rru.payBase, fun v => areaPut pgRru 9 (captureOff s) (keep64 47 12 v) s.rru.payLen
      (mRru fun r => { r with payBase := keep64 47 12 v }))
  | 15, 0x40 => some (s.rru.payLen, fun v => areaPut pgRru 9 (captureOff s) s.rru.payBase (keep64 39 12 v)
      (mRru fun r => { r with payLen := keep64 39 12 v }))
  | 15, 0x80 => some (s.rru.replayStart, fun v => mRru fun r => { r with replayStart := v })
  | 16, 0x28 => some (0, fun v => eccLogClear (v.extractLsb' 32 32))
  | 16, 0x78 => some (s.flt.injTarget, fun v => mFlt fun f => { f with injTarget := v, injArm := false })
  | _, _ => none

def wide (s : State) (p off : Nat) : Option (W64 × (W64 → State → State)) :=
  if p ≤ 8 then wideLow s p off else wideHigh s p off

/-! ### 32-bit registers -/

/-- Bits n of QUE.VEC_MASKn. -/
def vecMaskWrite (n : Nat) (v : W32) (s : State) : State :=
  let set (m : Sparse Bool) (b : Nat) : Sparse Bool := Sparse.set false m (32 * n + b) (!v.getLsbD b)
  mQue (fun q => { q with unmasked := (List.range (if n = 8 then 16 else 32)).foldl set q.unmasked }) s

/-- TPL.CMD: its bits in order. -/
def tplCmd (v : W32) (s : State) : State :=
  let s1 := if v.getLsbD 0 then tplInstall s else s
  let s2 := if v.getLsbD 1 then tplRead s1 else s1
  if v.getLsbD 2 then tplInvalidate s2 else s2

/-- Pages CTL to ROW. -/
def writeLow (s : State) (p off : Nat) (v : W32) : Option State :=
  match p, off with
  | 0, 0x48 => some (mCtl (fun k =>
      { k with wdogTimeout := ticks24 v, wdogCount := if v.getLsbD 31 then 0 else k.wdogCount }) s)
  | 0, 0x58 => some (empTimingWrite v s)
  | 0, 0x60 => some (guarded pgCtl (!ucodeLocked s) (mCtl fun k => { k with ucodeAddr := v.extractLsb' 0 16 }) s)
  | 0, 0x64 => some (ucodeDataWrite v s)
  | 0, 0x68 => some (mCtl (fun k => { k with ucodeCrc := v }) s)
  | 0, 0x6C => some (csqCtlWrite v s)
  | 1, 0x20 => some (mQue (fun q => { q with ringIndex := v.extractLsb' 0 8 }) s)
  | 1, 0x38 => some (ringCfgWrite v s)
  | 1, o =>
    if 0x100 ≤ o && o < 0x200 then
      some (mQue (fun q =>
        { q with tcp := Sparse.set {} q.tcp ((o - 0x100) / 4) { ctx := v.extractLsb' 0 6, en := v.getLsbD 31 } }) s)
    else if 0x200 ≤ o && o ≤ 0x220 then some (vecMaskWrite ((o - 0x200) / 4) v s)
    else none
  | 2, 0x20 => some (mTpl (fun t => { t with index := v.extractLsb' 0 10 }) s)
  | 2, 0x24 => some (tplCmd v s)
  | 2, o => if 0x40 ≤ o && o < 0x80 then some (mTpl (fun t => { t with data := Sparse.set 0 t.data ((o - 0x40) / 4) v }) s) else none
  | 3, 0x28 => some (mSes (fun e => { e with regIndex := v &&& 0x3F00FF }) s)
  | 3, 0x40 => some (regionEntryWrite v s)
  | 3, 0x50 => some (mSes (fun e => { e with stageAfter := ticks24 v }) s)
  | 3, 0x78 => some (guarded pgSes (v.extractLsb' 0 8 != 255) (mSes fun e => { e with depIndex := v.extractLsb' 0 8 }) s)
  | 4, 0x24 => some (mTrk (fun k => { k with highWater := v.extractLsb' 0 17 }) s)
  | 4, 0x30 => some (mTrk (fun k => { k with stallWarn := ticks24 v }) s)
  | 5, 0x40 => some (redFailLogClear v s)
  | 5, 0x4C => some (mRed (fun r => { r with skipIrq := v.getLsbD 0, poisonIrq := v.getLsbD 1 }) s)
  | 6, 0x20 => some (entryIndexWrite .fin v s)
  | 7, 0x20 => some (entryIndexWrite .row v s)
  | _, _ => none

/-- Pages GAS, OPT, SPX and SYN. -/
def writeMid (s : State) (p off : Nat) (v : W32) : Option State :=
  match p, off with
  | 8, 0x30 => some (entryIndexWrite .gas v s)
  | 9, 0x20 => some (guarded pgOpt (!s.opt.en) (mOpt fun o => { o with step := v.extractLsb' 0 16 }) s)
  | 9, 0x24 => some (stepCtlWrite v s)
  | 9, 0x28 => some (mOpt (fun o => { o with deadline := ticks24 v }) s)
  | 9, 0x38 => some (mOpt (fun o => { o with buddy := v.extractLsb' 0 16 }) s)
  | 9, 0x3C => some (mOpt (fun o => { o with mirrorSrc := v.extractLsb' 0 17 }) s)
  | 9, 0x50 => some (mOpt (fun o => { o with mirrorTimeout := v.extractLsb' 0 24 }) s)
  | 9, 0x54 => some (entryIndexWrite .opt v s)
  | 9, 0x60 => some (optEntryCommit v s)
  | 9, 0xA0 => some (entryIndexWrite .uprog v s)
  | 9, 0xA4 => some (uprogWrite v s)
  | 9, o => if 0x64 ≤ o && o < 0xA0 then some (mOpt (fun t => { t with held := holdWord t.held ((o - 0x60) / 4) v }) s) else none
  | 10, 0x20 => some (entryIndexWrite .spx v s)
  | 10, 0x40 => some (entryIndexWrite .stash v s)
  | 11, 0x20 => some (mSyn (fun y => { y with segIndex := v &&& 0x3F000F }) s)
  | 11, 0x40 => some (mSyn (fun y => { y with crownTimeout := ticks24 v }) s)
  | 11, 0x44 => some (resume v (preempt v s))
  | 11, 0x58 => some (mSyn (fun y => { y with chanSel := v.extractLsb' 0 6 }) s)
  | 11, 0x68 => some (mSyn (fun y => { y with traceEn := v.getLsbD 0 }) s)
  | 11, 0x78 => some (synDbgSelWrite v s)
  | 11, o =>
    if 0x30 ≤ o && o < 0x40 then
      some (mSyn (fun y => { y with timeouts := Sparse.set 25000 y.timeouts ((o - 0x30) / 4) (ticks24 v) }) s)
    else if 0x100 ≤ o && o < 0x200 then
      let c := (o - 0x100) / 4
      if c = 14 || c = 15 then some s
      else if Sparse.get 0 s.syn.arrived c != Sparse.get 0 s.syn.released c then some (pageErr pgSyn cRegionBusy s)
      else some (mSyn (fun y => { y with chanCfg := Sparse.set 0 y.chanCfg c (v.extractLsb' 0 7) }) s)
    else none
  | _, _ => none

/-- The refusals of R94. -/
def roleBad (r : Rtr) (v : W32) : Bool :=
  let n := v.toNat
  let dm := r.me.x == bits n 7 4 && r.me.y == bits n 11 8
  let tm := r.me.x == bits n 15 12 && r.me.y == bits n 19 16 && r.me.z == bits n 23 20 && r.me.w == bits n 27 24
  (bits n 1 0 == 1 && !dm) || (bits n 1 0 == 2 && !(tm && dm))

/-- The four axes, each once (03 R77). -/
def axisMapOk (v : W32) : Bool := (List.range 4).all fun a => (List.range 4).any fun i => bits v.toNat (2 * i + 1) (2 * i) == a

/-- RTR.ROUTE_CTL: MAP_GEN changes only while HOLD_DONE is 1 (03 R90, R102). -/
def routeCtlWrite (v : W32) (s : State) : State :=
  let gen := v.extractLsb' 4 4
  let s1 := if gen = s.rtr.mapGen then s else guarded pgRtr s.rtr.holdDone (mRtr fun r => { r with mapGen := gen }) s
  let s2 := mRtr (fun r => { r with adaptEn := v.getLsbD 2 }) s1
  if v.getLsbD 0 == s.rtr.hold then s2 else if v.getLsbD 0 then routeHold s2 else routeHoldRelease s2

/-- A byte weight, where 0 is taken as 1 (04 R135). -/
def weightWrite (first n : Nat) (v : W32) (s : State) : State :=
  let set (m : Sparse Byte) (i : Nat) : Sparse Byte :=
    let w : Byte := BitVec.ofNat 8 (bits v.toNat (8 * i + 7) (8 * i))
    Sparse.set 1 m (first + i) (if w = 0 then 1 else w)
  mLnk (fun l => { l with weights := (List.range n).foldl set l.weights }) s

/-- LNK.RETRY_CTL (04 R136). -/
def retryCtlWrite (v : W32) (s : State) : State :=
  let gap : Byte := v.extractLsb' 8 8
  mLnk (fun l =>
    { l with
      maxNak := if v.extractLsb' 0 4 = 0 then 1 else v.extractLsb' 0 4,
      timeoutLoops := if v.extractLsb' 4 4 = 0 then 1 else v.extractLsb' 4 4,
      lcfGap := if gap.toNat < 8 then 8 else gap }) s

/-- RRU.REPLAY_CTL (12 R388). -/
def replayCtlWrite (v : W32) (s : State) : State :=
  let s1 := mRru (fun r => { r with steps := v.extractLsb' 16 16 }) s
  let s2 := if v.getLsbD 0 then replayGo s1 else s1
  if v.getLsbD 1 then replayStop s2 else s2

/-- FLT.REC_CMD (13 R401, R419). -/
def recCmd (op : Nat) (s : State) : State :=
  match op with
  | 1 => adopt s
  | 2 => returnGen s
  | 3 => restore s
  | 4 => seed s
  | 5 => setGen s
  | 6 => lost s
  | 7 => remirror s
  | _ => pageErr pgFlt cConfigInvalid s

/-- Pages RTR, LNK and LSU. -/
def writeFabric (s : State) (p off : Nat) (v : W32) : Option State :=
  match p, off with
  | 12, 0x20 => some (guarded pgRtr (s.rtr.holdDone && !anyUp s) (mRtr fun r => { r with shape := v &&& 0x1FFFFF }) s)
  | 12, 0x24 => some (guarded pgRtr s.rtr.holdDone (mRtr fun r => { r with coord := v &&& 0x1FFFFF }) s)
  | 12, 0x28 => some (guarded pgRtr s.rtr.holdDone (mRtr fun r => { r with origin := v.extractLsb' 0 16 }) s)
  | 12, 0x2C => some (guarded pgRtr (s.rtr.holdDone && !roleBad s.rtr v) (mRtr fun r => { r with role := v &&& 0xFFFFFF3 }) s)
  | 12, 0x30 => some (guarded pgRtr (axisMapOk v) (mRtr fun r => { r with axisMap := v.extractLsb' 0 8 }) s)
  | 12, 0x34 => some (routeCtlWrite v s)
  | 12, 0x40 =>
    some (guarded pgRtr (decide (bits v.toNat 11 0 ≤ 3071)) (mRtr fun r => { r with ringIndex := v.extractLsb' 0 12 }) s)
  | 12, 0x44 => some (ringMapWrite v s)
  | 12, o => if 0x80 ≤ o && o < 0xA8 then some (portMapWrite ((o - 0x80) / 4) v s) else none
  | 13, 0x20 => some (mLnk (fun l => { l with capsEn := v.extractLsb' 8 4 }) s)
  | 13, 0x24 => some (weightWrite 1 4 v s)
  | 13, 0x28 => some (weightWrite 5 3 v s)
  | 13, 0x2C => some (retryCtlWrite v s)
  | 13, o => if 0x100 ≤ o && o < 0x380 && o % 0x40 == 4 then some (portRetrain ((o - 0x100) / 0x40) v s) else none
  | 14, 0x20 => some (mLsu (fun l => { l with attTimeout := ticks24 v }) s)
  | 14, 0x24 => some (mLsu (fun l => { l with keyTimeout := ticks24 v }) s)
  | 14, 0x28 => some (authLogClear v s)
  | _, _ => none

/-- Pages RRU, FLT and PWR. -/
def writeHigh (s : State) (p off : Nat) (v : W32) : Option State :=
  match p, off with
  | 15, 0x20 => some (capCtlWrite v s)
  | 15, 0x58 =>
    let b := v.extractLsb' 0 15
    some (guarded pgRru (captureOff s) (mRru fun r => { r with budget := if b.toNat > 25000 then 25000 else b }) s)
  | 15, 0x78 => some (replayCtlWrite v s)
  | 16, 0x24 => some (mFlt (fun f => { f with eccWarn := if v.extractLsb' 0 16 = 0 then 1 else v.extractLsb' 0 16 }) s)
  | 16, 0x34 => some (mFlt (fun f => { f with sessTimeout := ticks24 v }) s)
  | 16, 0x40 => some (histCtlWrite v s)
  | 16, 0x54 => some (mFlt (fun f => { f with holdWarn := if v.extractLsb' 0 4 = 0 then 1 else v.extractLsb' 0 4 }) s)
  | 16, 0x58 => some (recCmd (bits v.toNat 2 0) s)
  | 16, 0x5C => some (mFlt (fun f => { f with recArg := v &&& 0x7FFFF }) s)
  | 16, 0x68 => some (mFlt (fun f => { f with recTimeout := ticks24 v }) s)
  | 16, 0x70 => some (injectArm v s)
  | 17, 0x2C => some (peakClr v s)
  | 17, 0x120 => some (mbxInDoorbell v s)
  | 17, 0x160 => some (mbxOutDbClear v s)
  | 17, o =>
    if 0x100 ≤ o && o < 0x120 then
      some (if s.pwr.inFull then s else mPwr (fun p => { p with mbxIn := Sparse.set 0 p.mbxIn ((o - 0x100) / 4) v }) s)
    else none
  | _, _ => none

/-- The page header (16 R466). -/
def writeHeader (s : State) (p off : Nat) (v : W32) : State :=
  if off = 0x10 then pageIrqClear p v s
  else if off = 0x14 then pageIrqMaskWrite p v s
  else if off = 0x18 then pageErrClear p v s
  else if off = 0x1C then mHdr p (fun h => { h with scratch := v }) s
  else s

def writeNarrow (s : State) (p off : Nat) (v : W32) : Option State :=
  if p ≤ 7 then writeLow s p off v
  else if p ≤ 11 then writeMid s p off v
  else if p ≤ 14 then writeFabric s p off v
  else writeHigh s p off v

/-! ### Read-only registers: a write is ignored (16 R465) -/

/-- The offsets of a page's read-only registers, as ranges from one word to another. -/
def roRanges (p : Nat) : List (Nat × Nat) :=
  match p with
  | 0 => [(0x40, 0x40), (0x50, 0x54)]
  | 2 => [(0x28, 0x28)]
  | 3 => [(0x20, 0x24), (0x44, 0x48), (0x54, 0x5C), (0x70, 0x70)]
  | 4 => [(0x20, 0x20), (0x28, 0x2C)]
  | 5 => [(0x20, 0x3C), (0x44, 0x48)]
  | 6 => [(0x38, 0x40)]
  | 7 => [(0x40, 0x44)]
  | 8 => [(0x80, 0x98), (0xA0, 0xA4)]
  | 9 => [(0x2C, 0x34), (0xA8, 0xB4)]
  | 10 => [(0x50, 0x68), (0x70, 0x80)]
  | 11 => [(0x48, 0x54), (0x60, 0x64), (0x80, 0xA0)]
  | 12 => [(0x38, 0x38)]
  | 13 => (List.range 10).flatMap fun n => [(0x100 + 0x40 * n, 0x100 + 0x40 * n), (0x108 + 0x40 * n, 0x11C + 0x40 * n)]
  | 14 => (0x2C, 0x34) :: (List.range 10).flatMap fun n =>
      [(0x100 + 0x20 * n, 0x100 + 0x20 * n), (0x108 + 0x20 * n, 0x11C + 0x20 * n)]
  | 15 => [(0x24, 0x24), (0x48, 0x54), (0x5C, 0x74), (0x7C, 0x7C), (0x88, 0x94)]
  | 16 => [(0x20, 0x20), (0x30, 0x30), (0x38, 0x3C), (0x44, 0x50), (0x60, 0x64), (0x6C, 0x6C), (0x80, 0x80), (0x100, 0x12C),
      (0x400, 0xBFC)]
  | 17 => [(0x20, 0x28), (0x30, 0x54), (0x140, 0x15C)]
  | _ => []

def isRo (p off : Nat) : Bool := (roRanges p).any fun r => r.1 ≤ off && decide (off ≤ r.2)

/-- DBG.ADDR (16 R493). -/
def dbgAddrWrite (v : W64) (s : State) : State := mDbg (fun d => { d with addr := v.extractLsb' 0 36 }) s

/-! ### The window -/

/-- One half of a 64-bit register: the low half is held, and both take effect with the high half; a high half written alone
takes the low half as it stands (02 R53). -/
def writeHalf (a : Nat) (v : W32) (cur : W64) (put : W64 → State → State) (s : State) : State :=
  if a % 8 = 0 then { s with heldLow := assocSet s.heldLow a v }
  else
    let low : W32 := (assoc? s.heldLow (a - 4)).getD (cur.extractLsb' 0 32)
    put (v ++ low) { s with heldLow := assocErase s.heldLow (a - 4) }

/-- A write to a privileged page; none is the ERROR response. Page DBG answers this bus with its header only (16 R493). -/
def writePage (a : Nat) (v : W32) (s : State) : Option State :=
  let p := a / 0x1000
  let off := a % 0x1000
  if p > 18 then none
  else if off < 0x20 then some (writeHeader s p off v)
  else match wide s p (off / 8 * 8) with
    | some (cur, put) => some (writeHalf a v cur put s)
    | none => match writeNarrow s p off v with
      | some t => some t
      | none => if isRo p off then some s else none

/-- A monitor's target; an armed monitor is disarmed first (11 R367). -/
def monTargetWrite (c : Nat) (v : W64) (s : State) : State :=
  mMon c (winOf s c).monIndex.toNat (fun m => { m with target := v, armed := false }) s

/-- A write to context window c (14 R436, 16 R497). -/
def writeWindow (who : Requester) (c a : Nat) (v : W32) (s : State) : Option State :=
  let off := a % 0x10000
  let mon := monOf s c (winOf s c).monIndex.toNat
  if off ≤ 8 then some s
  else if 0x1000 ≤ off && off < 0x2000 then
    let r := (off - 0x1000) / 16
    some (if off % 16 = 0 then doorbell who c r v s
      else if mayReach who c (ringOf s r).ctx.toNat then s else denyWindow pgQue c s)
  else if 0x2000 ≤ off && off < 0x2100 then
    let i := (off - 0x2000) / 16
    some (if off % 16 = 0 then stashRelease who c i v s
      else if mayReach who c (stCtx (stashOf s i).cfg) then s else denyWindow pgSpx c s)
  else match off with
    | 0x3000 => some (mWin c (fun w => { w with obj := v.extractLsb' 0 20 }) s)
    | 0x3004 => some s
    | 0x3008 => some (windowSet c v s)
    | 0x300C => some (windowAdd c v s)
    | 0x3010 => some s
    | 0x3014 => some (mWin c (fun w => { w with monIndex := v.extractLsb' 0 6 }) s)
    | 0x3018 => some (writeHalf a v mon.cfg (monitorArm c) s)
    | 0x301C => some (writeHalf a v mon.cfg (monitorArm c) s)
    | 0x3020 => some (writeHalf a v mon.target (monTargetWrite c) s)
    | 0x3024 => some (writeHalf a v mon.target (monTargetWrite c) s)
    | 0x3028 => some s
    | _ => none

/-- A write of page DBG on the debug bus, whose address has 12 bits; nothing while DEBUG_UNLOCK is 0 (02 R66, 16 R493). -/
def debugWrite (unlock : Bool) (off : Nat) (v : W32) (s0 : State) : State :=
  let s := sampleUnlock unlock s0
  if !unlock then s
  else if off < 0x20 then writeHeader s pgDbg off v
  else match off with
    | 0x20 => if v.getLsbD 0 then debugFreezeRequest (.register true) s else debugFreezeEnd (.register true) s
    | 0x28 => dbgSelWrite v s
    | 0x30 => writeHalf 0x12030 v (s.dbg.addr.zeroExtend 64) dbgAddrWrite s
    | 0x34 => writeHalf 0x12034 v (s.dbg.addr.zeroExtend 64) dbgAddrWrite s
    | _ => s

/-- An unprivileged requester's write to a privileged page is dropped, and the page records ACCESS_DENIED (00 R9). -/
def denyPage (a : Nat) (s : State) : State := if a / 0x1000 ≤ 18 then pageErr (a / 0x1000) cAccessDenied s else s

/-- A requester's view: the privileged ones reach everything, a context its own window only, the debug bus page DBG only
(02 R52, R71). The answer says whether the response is ERROR. -/
def busWrite (who : Requester) (a : Nat) (v : W32) (s : State) : Bool × State :=
  let c := (a - 0x800000) / 0x10000
  let ans (r : Option State) : Bool × State := match r with
    | some t => (false, t)
    | none => (true, s)
  match who with
  | .debug unlock => (false, debugWrite unlock (a % 0x1000) v s)
  | .context k =>
    if a < 0x800000 then (true, denyPage a s)
    else if a < 0xC00000 && k.val == c then ans (writeWindow who c a v s)
    else (true, s)
  | _ =>
    if a < 0x800000 then ans (writePage a v s)
    else if a < 0xC00000 then ans (writeWindow who c a v s)
    else (true, s)

/-- CONFIG_WRITE: an address with no register gives the ERROR response. -/
def configWrite (who : Requester) (a : Nat) (v : W32) (s : State) : State :=
  let r := busWrite who a v s
  mDbg (fun d => { d with busError := r.1 }) r.2

/-- The domain of the register at an address runs: CTL.EMP_TIMING and the capture areas of page RRU are held in the Fabric
domain (16 R464), and a window's sync block is page SYN's (11 R366). -/
def accessOn (who : Requester) (a : Nat) (s : State) : Bool :=
  match who with
  | .debug _ => ctlOn s
  | _ =>
    if a < 0x800000 then
      if a = 0x58 || (0xF028 ≤ a && a < 0xF058) then fabricOn s else pageOn s (a / 0x1000)
    else if 0x3000 ≤ a % 0x10000 then fabricOn s
    else ctlOn s

def execConfigWrite (who : Requester) (word : BitVec 22) (value : W32) (s : State) : Host.Outcome State Fault Refusal :=
  .next (if accessOn who (4 * word.toNat) s then configWrite who (4 * word.toNat) value s
    else holdAccess 5 (.configWrite who word value) s)

end Sys2Proof.Machine
end

