-- ==== Sys2Proof/Machine/Dispatch.lean ====
section
/-! DEFINITION. Machine/Dispatch.lean: one arm per command; each arm is one call of that command's meaning. -/

namespace Sys2Proof.Machine

/-- A command's effect on everything but the queue. -/
def exec (i : Instr) (s : State) : Host.Outcome State Fault Refusal :=
  match i with
  | .tailTransfer port word ecc => Sys2Proof.Machine.execTailTransfer port word ecc s
  | .cdataBeat port beat last ecc => Sys2Proof.Machine.execCdataBeat port beat last ecc s
  | .ddataDeposit port header beat ecc => Sys2Proof.Machine.execDdataDeposit port header beat ecc s
  | .odataTransfer port => Sys2Proof.Machine.execOdataTransfer port s
  | .intakeSlot => Sys2Proof.Machine.execIntakeSlot s
  | .expertDispatchRoute slot => Sys2Proof.Machine.execExpertDispatchRoute slot s
  | .chunkIssue => Sys2Proof.Machine.execChunkIssue s
  | .tagExhausted => Sys2Proof.Machine.execTagExhausted s
  | .chunkRetire tag => Sys2Proof.Machine.execChunkRetire tag s
  | .msixRequest vec => Sys2Proof.Machine.execMsixRequest vec s
  | .msixAck => Sys2Proof.Machine.execMsixAck s
  | .csqWdogKick => Sys2Proof.Machine.execCsqWdogKick s
  | .csqWatchdog => Sys2Proof.Machine.execCsqWatchdog s
  | .sequencerResume => Sys2Proof.Machine.execSequencerResume s
  | .rdataReturn tag poison ecc => Sys2Proof.Machine.execRdataReturn tag poison ecc s
  | .wackReturn tag => Sys2Proof.Machine.execWackReturn tag s
  | .schedModeLost cause => Sys2Proof.Machine.execSchedModeLost cause s
  | .empTimingWrite value => Sys2Proof.Machine.execEmpTimingWrite value s
  | .configWrite who word value => Sys2Proof.Machine.execConfigWrite who word value s
  | .mbxInDoorbell value => Sys2Proof.Machine.execMbxInDoorbell value s
  | .mbxOutDbClear value => Sys2Proof.Machine.execMbxOutDbClear value s
  | .keyLoad slot key fixed => Sys2Proof.Machine.execKeyLoad slot key fixed s
  | .keyReq port dir => Sys2Proof.Machine.execKeyReq port dir s
  | .keyTimeout port dir => Sys2Proof.Machine.execKeyTimeout port dir s
  | .zeroise => Sys2Proof.Machine.execZeroise s
  | .attMessage port msg bytes => Sys2Proof.Machine.execAttMessage port msg bytes s
  | .attestationFlit port flit => Sys2Proof.Machine.execAttestationFlit port flit s
  | .attestTimeout port => Sys2Proof.Machine.execAttestTimeout port s
  | .dozeRequest => Sys2Proof.Machine.execDozeRequest s
  | .sleepRequest => Sys2Proof.Machine.execSleepRequest s
  | .sleepEntryDone => Sys2Proof.Machine.execSleepEntryDone s
  | .runRequest => Sys2Proof.Machine.execRunRequest s
  | .wakeSource cause => Sys2Proof.Machine.execWakeSource cause s
  | .pwrGood => Sys2Proof.Machine.execPwrGood s
  | .sleepWakeDone => Sys2Proof.Machine.execSleepWakeDone s
  | .dozeWakeDone => Sys2Proof.Machine.execDozeWakeDone s
  | .thrLimitChange limit => Sys2Proof.Machine.execThrLimitChange limit s
  | .throttleInForce => Sys2Proof.Machine.execThrottleInForce s
  | .peakClr value => Sys2Proof.Machine.execPeakClr value s
  | .rstColdN => Sys2Proof.Machine.execRstColdN s
  | .rstWarmN => Sys2Proof.Machine.execRstWarmN s
  | .rstEngN => Sys2Proof.Machine.execRstEngN s
  | .rstDone => Sys2Proof.Machine.execRstDone s
  | .ctxRstReq ctx => Sys2Proof.Machine.execCtxRstReq ctx s
  | .ctxRstAck ctx => Sys2Proof.Machine.execCtxRstAck ctx s
  | .debugFreezeRequest source => Sys2Proof.Machine.execDebugFreezeRequest source s
  | .debugFreezeDone => Sys2Proof.Machine.execDebugFreezeDone s
  | .debugFreezeEnd source => Sys2Proof.Machine.execDebugFreezeEnd source s
  | .dbgSelWrite value => Sys2Proof.Machine.execDbgSelWrite value s
  | .dbgDataRead high => Sys2Proof.Machine.execDbgDataRead high s
  | .ringMapWrite value => Sys2Proof.Machine.execRingMapWrite value s
  | .routeHold => Sys2Proof.Machine.execRouteHold s
  | .holdDone => Sys2Proof.Machine.execHoldDone s
  | .routeHoldRelease => Sys2Proof.Machine.execRouteHoldRelease s
  | .headerRoute input => Sys2Proof.Machine.execHeaderRoute input s
  | .phyLock port => Sys2Proof.Machine.execPhyLock port s
  | .linkLost port lock laneOk => Sys2Proof.Machine.execLinkLost port lock laneOk s
  | .trainingFlit port flit => Sys2Proof.Machine.execTrainingFlit port flit s
  | .trainingTimeout port => Sys2Proof.Machine.execTrainingTimeout port s
  | .portRetrain port value => Sys2Proof.Machine.execPortRetrain port value s
  | .portMapWrite port value => Sys2Proof.Machine.execPortMapWrite port value s
  | .flitReceive port flit frame index uncorrectable fecCorr => Sys2Proof.Machine.execFlitReceive port flit frame index uncorrectable fecCorr s
  | .lcfReceive port flit uncorrectable => Sys2Proof.Machine.execLcfReceive port flit uncorrectable s
  | .lcfSend port => Sys2Proof.Machine.execLcfSend port s
  | .retryTimeout port => Sys2Proof.Machine.execRetryTimeout port s
  | .chunkReceive => Sys2Proof.Machine.execChunkReceive s
  | .doorbell who ctx ring count => Sys2Proof.Machine.execDoorbell who ctx ring count s
  | .tplInstall => Sys2Proof.Machine.execTplInstall s
  | .tplRead => Sys2Proof.Machine.execTplRead s
  | .tplInvalidate => Sys2Proof.Machine.execTplInvalidate s
  | .regionEntryWrite value => Sys2Proof.Machine.execRegionEntryWrite value s
  | .ringEnable value => Sys2Proof.Machine.execRingEnable value s
  | .ringDisable value => Sys2Proof.Machine.execRingDisable value s
  | .abort => Sys2Proof.Machine.execAbort s
  | .nodeCombine slot seq level node => Sys2Proof.Machine.execNodeCombine slot seq level node s
  | .absent => Sys2Proof.Machine.execAbsent s
  | .redFailLogClear value => Sys2Proof.Machine.execRedFailLogClear value s
  | .admissionScan => Sys2Proof.Machine.execAdmissionScan s
  | .grant => Sys2Proof.Machine.execGrant s
  | .revoke => Sys2Proof.Machine.execRevoke s
  | .admitMsg => Sys2Proof.Machine.execAdmitMsg s
  | .firm => Sys2Proof.Machine.execFirm s
  | .refuse => Sys2Proof.Machine.execRefuse s
  | .retract => Sys2Proof.Machine.execRetract s
  | .go => Sys2Proof.Machine.execGo s
  | .stageAfterTimeout slot => Sys2Proof.Machine.execStageAfterTimeout slot s
  | .slotReturn => Sys2Proof.Machine.execSlotReturn s
  | .transposeRowBlock slot block => Sys2Proof.Machine.execTransposeRowBlock slot block s
  | .depositEntryWrite value => Sys2Proof.Machine.execDepositEntryWrite value s
  | .finChunk => Sys2Proof.Machine.execFinChunk s
  | .rowPass slot => Sys2Proof.Machine.execRowPass slot s
  | .rowStatisticsFinal slot block => Sys2Proof.Machine.execRowStatisticsFinal slot block s
  | .finEntryCommit value => Sys2Proof.Machine.execFinEntryCommit value s
  | .rowEntryCommit value => Sys2Proof.Machine.execRowEntryCommit value s
  | .entryIndexWrite reg value => Sys2Proof.Machine.execEntryIndexWrite reg value s
  | .preloadSweep => Sys2Proof.Machine.execPreloadSweep s
  | .releaseContribution => Sys2Proof.Machine.execReleaseContribution s
  | .stepDeadline => Sys2Proof.Machine.execStepDeadline s
  | .release => Sys2Proof.Machine.execRelease s
  | .updateWave => Sys2Proof.Machine.execUpdateWave s
  | .mirrorSend bucket => Sys2Proof.Machine.execMirrorSend bucket s
  | .mirrorPacket => Sys2Proof.Machine.execMirrorPacket s
  | .mirrorAck => Sys2Proof.Machine.execMirrorAck s
  | .mirrorTimeout bucket => Sys2Proof.Machine.execMirrorTimeout bucket s
  | .commitVote => Sys2Proof.Machine.execCommitVote s
  | .commit => Sys2Proof.Machine.execCommit s
  | .stepEnable value => Sys2Proof.Machine.execStepEnable value s
  | .stepDisable value => Sys2Proof.Machine.execStepDisable value s
  | .bucketEntryCommit value => Sys2Proof.Machine.execBucketEntryCommit value s
  | .optEntryCommit value => Sys2Proof.Machine.execOptEntryCommit value s
  | .uprogWrite value => Sys2Proof.Machine.execUprogWrite value s
  | .expertPacket => Sys2Proof.Machine.execExpertPacket s
  | .expertCombineOutput slot => Sys2Proof.Machine.execExpertCombineOutput slot s
  | .clearToSend => Sys2Proof.Machine.execClearToSend s
  | .receiveReady slot => Sys2Proof.Machine.execReceiveReady slot s
  | .stashRelease who ctx stash value => Sys2Proof.Machine.execStashRelease who ctx stash value s
  | .stashCfgWrite value => Sys2Proof.Machine.execStashCfgWrite value s
  | .spxEntryCommit value => Sys2Proof.Machine.execSpxEntryCommit value s
  | .segmentWrite value => Sys2Proof.Machine.execSegmentWrite value s
  | .windowSet ctx value => Sys2Proof.Machine.execWindowSet ctx value s
  | .windowAdd ctx value => Sys2Proof.Machine.execWindowAdd ctx value s
  | .monitorArm ctx value => Sys2Proof.Machine.execMonitorArm ctx value s
  | .syncTimeout waiter => Sys2Proof.Machine.execSyncTimeout waiter s
  | .preempt value => Sys2Proof.Machine.execPreempt value s
  | .resume value => Sys2Proof.Machine.execResume value s
  | .signal => Sys2Proof.Machine.execSignal s
  | .arrive => Sys2Proof.Machine.execArrive s
  | .crownTimeout chan => Sys2Proof.Machine.execCrownTimeout chan s
  | .synDbgSelWrite value => Sys2Proof.Machine.execSynDbgSelWrite value s
  | .dbgWaiterRead => Sys2Proof.Machine.execDbgWaiterRead s
  | .gapRecord => Sys2Proof.Machine.execGapRecord s
  | .captureModeWrite value => Sys2Proof.Machine.execCaptureModeWrite value s
  | .captureFreeze => Sys2Proof.Machine.execCaptureFreeze s
  | .replayGo => Sys2Proof.Machine.execReplayGo s
  | .replayStop => Sys2Proof.Machine.execReplayStop s
  | .replayDelivery port => Sys2Proof.Machine.execReplayDelivery port s
  | .replayForcedChoice record => Sys2Proof.Machine.execReplayForcedChoice record s
  | .eccSingleBit mem => Sys2Proof.Machine.execEccSingleBit mem s
  | .eccDoubleBit mem word => Sys2Proof.Machine.execEccDoubleBit mem word s
  | .eccLogClear value => Sys2Proof.Machine.execEccLogClear value s
  | .lateContribution slot => Sys2Proof.Machine.execLateContribution slot s
  | .histClear value => Sys2Proof.Machine.execHistClear value s
  | .adopt => Sys2Proof.Machine.execAdopt s
  | .returnGen => Sys2Proof.Machine.execReturnGen s
  | .restore => Sys2Proof.Machine.execRestore s
  | .restoreRecordVerify bucket => Sys2Proof.Machine.execRestoreRecordVerify bucket s
  | .recTimeout => Sys2Proof.Machine.execRecTimeout s
  | .seed => Sys2Proof.Machine.execSeed s
  | .setGen => Sys2Proof.Machine.execSetGen s
  | .lost => Sys2Proof.Machine.execLost s
  | .remirror => Sys2Proof.Machine.execRemirror s
  | .injectArm value => Sys2Proof.Machine.execInjectArm value s
  | .stragglerExpiry slot => Sys2Proof.Machine.execStragglerExpiry slot s
  | .silentChipExpiry => Sys2Proof.Machine.execSilentChipExpiry s
  | .authLogClear value => Sys2Proof.Machine.execAuthLogClear value s
  | .ucodeDataWrite value => Sys2Proof.Machine.execUcodeDataWrite value s
  | .csqStart value => Sys2Proof.Machine.execCsqStart value s
  | .microcodeCheckDone => Sys2Proof.Machine.execMicrocodeCheckDone s
  | .pageErrClear page value => Sys2Proof.Machine.execPageErrClear page value s
  | .pageIrqClear page value => Sys2Proof.Machine.execPageIrqClear page value s
  | .pageIrqMaskWrite page value => Sys2Proof.Machine.execPageIrqMaskWrite page value s
  | .trainingFlitSend port => Sys2Proof.Machine.execTrainingFlitSend port s
  | .phyPresentChange port present => Sys2Proof.Machine.execPhyPresentChange port present s
  | .remoteSignalComplete ring => Sys2Proof.Machine.execRemoteSignalComplete ring s
  | .schedRise => Sys2Proof.Machine.execSchedRise s

end Sys2Proof.Machine
end

