-- ==== Sys2Proof/Machine/Tick.lean ====
section
/-! DEFINITION. Machine/Tick.lean: one core cycle, which is what the block does when no command waits (log 2). -/

namespace Sys2Proof.Machine

/-! ### Pulses -/

/-- Outputs that last one cycle end (02 R42, R49, R56, R68). -/
def endPulses (s : State) : State :=
  let port (q : Port) : Port := { q with wire := [], trainReq := false }
  { s with
    tiles := Sparse.mapAll {} s.tiles fun _ t => { t with stat := [] },
    lnk := { s.lnk with ports := Sparse.mapAll {} s.lnk.ports fun _ q => port q },
    lsu := { s.lsu with keyAck := none, attOut := [] },
    rst := { s.rst with ctxAck := [] } }

/-! ### Counters of cycles -/

/-- A ring head or a tail word waits for a session slot (05 R164). -/
def slotWaited (s : State) : Bool :=
  decide (s.ses.slots.length ≥ 4096) &&
    ((s.que.rings.any fun r => r.2.headState == .slot) ||
      (List.range 64).any fun p => match (tileOf s p).intake with
        | [] => false
        | (w, _, dbl) :: _ => (tailCode s p w dbl).isNone && (slotOfKey s (tailTpl w) (tailStep w) (tailInst w)).isNone)

/-- ROW has a session in progress and no pass it can run (08 R259). -/
def rowIdle (s : State) : Bool :=
  let mine := s.ses.slots.filter fun p => p.2.d.opc == 0x06 && p.2.st == .run && !sessionOver s p.1 p.2
  !mine.isEmpty && mine.all fun p => (nextPass s p.1 p.2).isNone

def heldDeposits (s : State) : Nat :=
  (s.tiles.filter fun t => t.2.held.any fun hb => depCheck s t.1 hb.1 == .hold).length
def stashWaits (s : State) : Nat := (s.ses.slots.filter fun p => p.2.d.opc == 0x05 && p.2.stashWaited && !p.2.ctsSent).length
def sendWaits (s : State) : Nat := (s.ses.slots.filter fun p => p.2.d.opc == 0x04 && p.2.st == .run && !p.2.cts).length

/-- The counters that count cycles of the core clock, in the domains that run. DESIGN CHOICE: FULL_STALLS counts a cycle once,
however many sources wait in it (log 76). HIGH_WATER is compared in each cycle (05 R181). -/
def countCycles (s : State) : State :=
  if s.pwr.cur != 0 then s
  else
    let s0 := mTrk (fun k => { k with highWater := BitVec.ofNat 17 (max k.highWater.toNat (tagsHeld s)) }) s
    let s1 := bump pgSes (·.ses.fullStalls) (fun v => mSes fun e => { e with fullStalls := v }) (b2n (slotWaited s)) s0
    let s2 := bump pgTrk (·.trk.tagStalls) (fun v => mTrk fun k => { k with tagStalls := v }) (b2n s.trk.stallStart.isSome) s1
    let s3 := bump pgGas (·.gas.holdCycles) (fun v => mGas fun g => { g with holdCycles := v }) (heldDeposits s) s2
    let s4 := bump pgSpx (·.spx.stashFullCycles) (fun v => mSpx fun x => { x with stashFullCycles := v }) (stashWaits s) s3
    let s5 := bump pgSpx (·.spx.sendWaitCycles) (fun v => mSpx fun x => { x with sendWaitCycles := v }) (sendWaits s) s4
    let s6 := bump pgRow (·.row.holdStalls) (fun v => mRow fun r => { r with holdStalls := v }) (b2n (rowIdle s)) s5
    bump pgPwr (·.pwr.thrFrames) (fun v => mPwr fun p => { p with thrFrames := v })
      (b2n (s.ccc.toNat % 16 == 0 && s.pwr.capD != 16)) s6

/-! ### The slow clock: a tick every 44 cycles (02 R65) -/

/-- PWR's counters of ticks (15 R447, R455, R458, R462); the power estimate is a free value (log 12). -/
def powerTick (s : State) : State :=
  let e := Config.powerEst s.free
  let s1 := mPwr (fun p =>
    { p with
      est := e, peak := if p.peak.toNat < e.toNat then e else p.peak, nak := false, tickPhase := 0,
      phaseFixed := p.phaseFixed || decide (s.ccc.toNat ≥ 256 * 44), cccSample := s.ccc }) { s with free := s.free + 1 }
  let s2 := if s.trk.tags.isEmpty
    then bump pgPwr (·.pwr.idleTicks) (fun v => mPwr fun p => { p with idleTicks := v }) 1 s1
    else mPwr (fun p => { p with idleTicks := 0 }) s1
  let s3 := bump pgPwr (·.pwr.dozeTicks) (fun v => mPwr fun p => { p with dozeTicks := v }) (b2n (s.pwr.cur == 1)) s2
  bump pgPwr (·.pwr.sleepTicks) (fun v => mPwr fun p => { p with sleepTicks := v }) (b2n (s.pwr.cur == 2)) s3

/-- The watchdog counts while the Control domain and the sequencer run (01 R20). -/
def wdogTick (s : State) : State :=
  if s.ctl.run && s.pwr.cur == 0 then mCtl (fun k => { k with wdogCount := k.wdogCount + 1 }) s else s

def tickEdge (s : State) : State := isoRelease (thrSample (wdogTick (powerTick { s with tick := s.tick + 1 })))

/-- The memory budgets of a 1,760-cycle period begin again (02 R46, 09 R273, 12 R378). -/
def newPeriod (s : State) : State :=
  mEmp (fun e => { e with used := [] }) (mGas (fun g => { g with used := [] }) (mRru (fun r => { r with used := [] }) s))

/-- One core cycle. -/
def idleCycle (s : State) : State :=
  let s1 := endPulses { s with ccc := s.ccc + 1 }
  let s2 := if s1.ccc.toNat % 44 = 0 then tickEdge s1 else s1
  let s3 := if s1.ccc.toNat % 1760 = 0 then newPeriod s2 else s2
  empIssue (empFlush (fireLink (releaseHeld (returnCycle (releaseExpired (writeHeld (takeMessage (countCycles s3))))))))

end Sys2Proof.Machine
end

