-- ==== Sys2Proof/Machine/Step.lean ====
section
/-! DEFINITION. Machine/Step.lean: one step takes the command at the front of the queue; with none waiting it is one
core cycle (log 2). -/

namespace Sys2Proof.Machine

/-- The accesses that waited for a wake come to the queue once the clocks run (02 R54; log 62). -/
def takeWaiting (s : State) : State :=
  if awake s then { s with pending := s.pending ++ s.pwr.waiting, pwr := { s.pwr with waiting := [] } } else s

/-- One step of the block. -/
def step (s : State) : Host.Outcome State Fault Refusal :=
  match s.pending with
  | [] => .next (takeWaiting (idleCycle s))
  | c :: rest => exec c { s with pending := rest }

/-- The state with the command a word spells at the front of the queue; unchanged where the word spells none. -/
def State.withFetchWord (s : State) (nbits w : Nat) : State :=
  match Sys2Proof.decodeTableWord nbits w with
  | none => s
  | some c => { s with pending := c :: s.pending }

end Sys2Proof.Machine
end

