-- ==== Sys2Proof/Machine/ConfigRead.lean ====
section
/-! DEFINITION. Machine/ConfigRead.lean: what every register of the window reads (02 R52, R53, R66; 16 R464 to R497). The
opcode table has no command for a read of the bus, so these are functions from a state to the data, the response and the
state after the read: a read changes nothing but the latch of R53, and records a denied access. -/

namespace Sys2Proof.Machine

/-! ### The page header (16 R466 to R470) -/

/-- The letters of a page's mnemonic, first letter in the low byte (16 R464). -/
def pageMnemonic : List Nat :=
  [0x4C5443, 0x455551, 0x4C5054, 0x534553, 0x4B5254, 0x444552, 0x4E4946, 0x574F52, 0x534147, 0x54504F, 0x585053, 0x4E5953,
    0x525452, 0x4B4E4C, 0x55534C, 0x555252, 0x544C46, 0x525750, 0x474244]

/-- PAGE_ID: the mnemonic and the page's number (R467). -/
def pageId (p : Nat) : Nat := pageMnemonic.getD p 0 + p * 2 ^ 24

/-- PAGE_CAPS.ENTRIES of each page (R464, R468). -/
def pageEntries : List Nat :=
  [0, 256, 1024, 4096, 65536, 1024, 256, 256, 4096, 64, 256, 262144, 10, 10, 10, 0, 12, 0, 9]

/-- PAGE_STATUS: DOMAIN and ERR_PENDING (R468). -/
def pageStatus (s : State) (p : Nat) : Nat := pageDomain p + 8 * b2n ((hdrOf s p).count != 0)

/-- The eight words of a page's header (R466). -/
def readHeader (s : State) (p off : Nat) : Nat :=
  let h := hdrOf s p
  match off with
  | 0x00 => pageId p
  | 0x04 => pageVersion.toNat
  | 0x08 => pageEntries.getD p 0
  | 0x0C => pageStatus s p
  | 0x10 => b2n h.irqErr + 2 * b2n h.irqSat
  | 0x14 => b2n h.maskErr + 2 * b2n h.maskSat
  | 0x18 => h.code.toNat + h.count.toNat * 2 ^ 16
  | _ => h.scratch.toNat

/-! ### 64-bit registers -/

/-- The region entry that SES.REG_INDEX selects (05 R160). -/
def regionSelected (s : State) : Region := regionOf s (bits s.ses.regIndex.toNat 21 16) (bits s.ses.regIndex.toNat 7 0)

/-- GAS.BKT_STATE (09 R302). -/
def bktStateWord (k : Bkt) : Nat :=
  k.deposits.toNat + b2n k.ready * 2 ^ 32 + b2n k.reduced * 2 ^ 33 + b2n k.poison * 2 ^ 34 + b2n k.updated * 2 ^ 35 +
    b2n k.mirrored * 2 ^ 36 + b2n k.gathered * 2 ^ 37 + b2n k.tailFail * 2 ^ 38

/-- The read-only 64-bit registers of the pages. -/
def wideRo (s : State) (p off : Nat) : Option Nat :=
  match p, off with
  | 0, 0x50 => some s.ctl.digest.toNat
  | 4, 0x28 => some s.trk.tagStalls.toNat
  | 5, 0x20 => some s.red.ledgerChecks.toNat
  | 8, 0x80 => some (bktStateWord (bktOf s s.gas.bktIndex.toNat))
  | 8, 0xA0 => some s.gas.holdCycles.toNat
  | 10, 0x50 => some s.spx.elided.toNat
  | 10, 0x70 => some s.spx.stashFullCycles.toNat
  | 10, 0x78 => some s.spx.sendWaitCycles.toNat
  | 11, 0x48 => some s.syn.preempted.toNat
  | 11, 0x60 =>
    let c := s.syn.chanSel.toNat
    some ((Sparse.get (0 : W32) s.syn.arrived c).toNat + (Sparse.get (0 : W32) s.syn.released c).toNat * 2 ^ 32)
  | 11, 0x80 => some (objWord s s.syn.dbgSel.toNat).toNat
  | 14, 0x30 => some s.lsu.authLogCcc.toNat
  | 15, 0x48 => some s.rru.hdrWrite.toNat
  | 15, 0x50 => some s.rru.payWrite.toNat
  | 15, 0x60 => some s.rru.choiceCount.toNat
  | 15, 0x68 => some s.rru.choiceLast.toNat
  | 15, 0x70 => some s.rru.timeDigest.toNat
  | 15, 0x88 => some s.rru.slip.toNat
  | 16, 0x28 => some s.flt.eccLog.toNat
  | 17, 0x38 => some s.pwr.dozeTicks.toNat
  | 17, 0x40 => some s.pwr.sleepTicks.toNat
  | 17, 0x48 => some s.pwr.thrFrames.toNat
  | _, _ => none

/-- LSU.TX_FLITSn and RX_FLITSn (14 R427, 16 R488). -/
def flitsRead (s : State) (off : Nat) : Option Nat :=
  if off < 0x100 || 0x240 ≤ off then none
  else
    let q := portOf s ((off - 0x100) / 0x20)
    match off % 0x20 with
    | 0x08 => some q.txF
    | 0x10 => some q.rxF
    | _ => none

/-- A 64-bit register's value: of an indexed entry the committed one, never a held word (16 R471; for the region entry
log 82). -/
def wideValue (s : State) (p off : Nat) : Option Nat :=
  match wideRo s p off with
  | some v => some v
  | none =>
    if p = 3 && off = 0x30 then some (regionSelected s).base.toNat
    else if p = 3 && off = 0x38 then some (regionSelected s).len.toNat
    else if p = 14 then flitsRead s off
    else (wide s p off).map fun w => w.1.toNat

/-! ### 32-bit registers -/

/-- CTL.EMP_TIMING (02 R48). -/
def empTimingWord (s : State) : Nat :=
  s.ctl.rdLat.toNat + s.ctl.refOffset.toNat * 2 ^ 8 + s.ctl.refLen.toNat * 2 ^ 19 + b2n s.emp.sched * 2 ^ 27 +
    b2n s.ctl.schedLost * 2 ^ 28

/-- QUE.RING_CFG (05 R174). -/
def ringCfgWord (g : Ring) : Nat := b2n g.enable + g.sizeLog2.toNat * 2 + g.ctx.toNat * 2 ^ 6

/-- QUE.VEC_MASKn (16 R475). -/
def vecMaskWord (s : State) (n : Nat) : Nat :=
  ((List.range (if n = 8 then 16 else 32)).map fun b => b2n (!Sparse.get false s.que.unmasked (32 * n + b)) * 2 ^ b).foldl (· + ·) 0

/-- SES.REG_CFG: the entry selected and its USERS (05 R180). -/
def regionWord (s : State) : Nat :=
  let e := regionSelected s
  b2n e.valid + 2 * b2n e.rd + 4 * b2n e.wr + e.kind.toNat * 16 +
    min 65535 (regionUsers s (bits s.ses.regIndex.toNat 21 16) (bits s.ses.regIndex.toNat 7 0)) * 2 ^ 16

/-- SES.ADMIT_STATE: the sessions in WAIT, and those in HELD or FIRM (07 R239). -/
def admitState (s : State) : Nat :=
  let n (f : SesState → Bool) : Nat := (s.ses.slots.filter fun p => f p.2.st).length
  n (· == .wait) + n (fun st => st == .held || st == .firm) * 2 ^ 13

/-- Pages CTL to ROW. -/
def readLow (s : State) (p off : Nat) : Option Nat :=
  match p, off with
  | 0, 0x40 => some (csqStatus s).toNat
  | 0, 0x48 => some s.ctl.wdogTimeout.toNat
  | 0, 0x58 => some (empTimingWord s)
  | 0, 0x60 => some s.ctl.ucodeAddr.toNat
  | 0, 0x64 => some (Sparse.get (0 : W32) s.ctl.ucode s.ctl.ucodeAddr.toNat).toNat
  | 0, 0x68 => some s.ctl.ucodeCrc.toNat
  | 0, 0x6C => some s.ctl.csqLen.toNat
  | 1, 0x20 => some s.que.ringIndex.toNat
  | 1, 0x38 => some (ringCfgWord (ringOf s s.que.ringIndex.toNat))
  | 1, o =>
    if 0x100 ≤ o && o < 0x200 then
      let t := tcpOf s ((o - 0x100) / 4)
      some (t.ctx.toNat + b2n t.en * 2 ^ 31)
    else if 0x200 ≤ o && o ≤ 0x220 then some (vecMaskWord s ((o - 0x200) / 4))
    else none
  | 2, 0x20 => some s.tpl.index.toNat
  | 2, 0x24 => some 0
  | 2, 0x28 => some (tplOpen s s.tpl.index.toNat)
  | 2, o => if 0x40 ≤ o && o < 0x80 then some (Sparse.get (0 : W32) s.tpl.data ((o - 0x40) / 4)).toNat else none
  | 3, 0x20 => some s.ses.slots.length
  | 3, 0x24 => some s.ses.fullStalls.toNat
  | 3, 0x28 => some s.ses.regIndex.toNat
  | 3, 0x40 => some (regionWord s)
  | 3, 0x44 => some s.ses.abortDrops.toNat
  | 3, 0x48 => some s.ses.lastReject.toNat
  | 3, 0x50 => some s.ses.stageAfter.toNat
  | 3, 0x54 => some (palmFree s)
  | 3, 0x58 => some (admitState s)
  | 3, 0x5C => some s.ses.admitRetracts.toNat
  | 3, 0x70 => some (stageFree s)
  | 3, 0x78 => some s.ses.depIndex.toNat
  | 4, 0x20 => some (65536 - tagsHeld s)
  | 4, 0x24 => some s.trk.highWater.toNat
  | 4, 0x30 => some s.trk.stallWarn.toNat
  | 5, 0x28 => some s.red.ledgerSkips.toNat
  | 5, 0x2C => some s.red.ledgerFails.toNat
  | 5, 0x30 => some s.red.crcFails.toNat
  | 5, 0x34 => some s.red.poisoned.toNat
  | 5, 0x38 => some s.red.failGsid.toNat
  | 5, 0x3C => some s.red.failSeq.toNat
  | 5, 0x40 => some s.red.failInfo.toNat
  | 5, 0x44 => some s.red.failDelta.toNat
  | 5, 0x48 => some s.red.poisonGsid.toNat
  | 5, 0x4C => some (b2n s.red.skipIrq + 2 * b2n s.red.poisonIrq)
  | 6, 0x20 => some s.fin.index.toNat
  | 6, 0x38 => some s.fin.satCount.toNat
  | 6, 0x3C => some s.fin.nanOut.toNat
  | 6, 0x40 => some s.fin.mxNanBlocks.toNat
  | 7, 0x20 => some s.row.index.toNat
  | 7, 0x40 => some s.row.nanRows.toNat
  | 7, 0x44 => some s.row.holdStalls.toNat
  | _, _ => none

/-- OPT.STEP_CTL (09 R304). -/
def stepCtlWord (s : State) : Nat :=
  let o := s.opt
  b2n o.en + 2 * b2n o.policy + o.repeatMax.toNat * 2 ^ 4 + o.mirrorVc.toNat * 2 ^ 8 + b2n o.mirrorEn * 2 ^ 11

/-- Pages GAS and OPT. -/
def readStep (s : State) (p off : Nat) : Option Nat :=
  match p, off with
  | 8, 0x30 => some s.gas.bktIndex.toNat
  | 8, 0x88 => some s.gas.depRejects.toNat
  | 8, 0x8C => some s.gas.lastReject.toNat
  | 8, 0x90 => some s.gas.frozenDrops.toNat
  | 8, 0x94 => some s.gas.staleDrops.toNat
  | 8, 0x98 => some (staleSpans s).length
  | 9, 0x20 => some s.opt.step.toNat
  | 9, 0x24 => some (stepCtlWord s)
  | 9, 0x28 => some s.opt.deadline.toNat
  | 9, 0x2C => some (stepStatus s).toNat
  | 9, 0x30 => some s.opt.normSq.toNat
  | 9, 0x34 => some s.opt.normLocal.toNat
  | 9, 0x38 => some s.opt.buddy.toNat
  | 9, 0x3C => some s.opt.mirrorSrc.toNat
  | 9, 0x50 => some (s.opt.mirrorTimeout.toNat + b2n s.opt.gen * 2 ^ 31)
  | 9, 0x54 => some s.opt.entIndex.toNat
  | 9, 0xA0 => some s.opt.upIndex.toNat
  | 9, 0xA4 => some (Sparse.get (0 : W32) s.opt.uprog s.opt.upIndex.toNat).toNat
  | 9, 0xA8 => some s.opt.zeroed.toNat
  | 9, 0xAC => some s.opt.skipped.toNat
  | 9, 0xB0 => some s.opt.repeats.toNat
  | 9, 0xB4 => some s.opt.mirrorResends.toNat
  | 9, o => if 0x60 ≤ o && o < 0xA0 then some (optWord s s.opt.entIndex.toNat ((o - 0x60) / 4)) else none
  | _, _ => none

/-- Pages SPX and SYN. SYN.DBG_WAITER is read by its own command, which advances the list (11 R361). -/
def readMid (s : State) (p off : Nat) : Option Nat :=
  match p, off with
  | 10, 0x20 => some s.spx.index.toNat
  | 10, 0x40 => some s.spx.stashIndex.toNat
  | 10, 0x58 => some s.spx.absentMsgs.toNat
  | 10, 0x5C => some s.spx.topkPairs.toNat
  | 10, 0x60 => some s.spx.overflows.toNat
  | 10, 0x64 => some s.spx.drops.toNat
  | 10, 0x68 => some s.spx.stashFullEvents.toNat
  | 10, 0x80 => some s.spx.lastFail.toNat
  | 11, 0x20 => some s.syn.segIndex.toNat
  | 11, 0x40 => some s.syn.crownTimeout.toNat
  | 11, 0x44 => some 0
  | 11, 0x50 => some s.syn.treeMachine.toNat
  | 11, 0x54 => some s.syn.treeDomain.toNat
  | 11, 0x58 => some s.syn.chanSel.toNat
  | 11, 0x68 => some (b2n s.syn.traceEn)
  | 11, 0x78 => some s.syn.dbgSel.toNat
  | 11, 0x88 => some (dbgWaiter s).toNat
  | 11, 0x8C => some (min 256 (fencePending s))
  | 11, 0x90 => some s.syn.fenceDrops.toNat
  | 11, 0x94 => some s.syn.bandDrops.toNat
  | 11, 0x98 => some s.syn.staleArrivals.toNat
  | 11, 0x9C => some s.syn.timeoutCount.toNat
  | 11, 0xA0 => some s.syn.orphanReleases.toNat
  | 11, o =>
    if 0x30 ≤ o && o < 0x40 then some (Sparse.get (25000 : BitVec 24) s.syn.timeouts ((o - 0x30) / 4)).toNat
    else if 0x100 ≤ o && o < 0x200 then some (chanCfg s ((o - 0x100) / 4))
    else none
  | _, _ => none

/-- LNK.PORT_STATUSn (04 R137). -/
def portStatusWord (q : Port) : Nat :=
  q.st.toNat + q.peerVersion.toNat * 2 ^ 4 + q.peerCaps.toNat * 2 ^ 8 + q.agreedCaps.toNat * 2 ^ 12 + retryHeld q * 2 ^ 16 +
    q.attempts.toNat * 2 ^ 27

/-- The registers of one port of page LNK (04 R133). -/
def portRead (q : Port) (off : Nat) : Option Nat :=
  match off with
  | 0x00 => some (portStatusWord q)
  | 0x04 => some 0
  | 0x08 => some q.nakSent.toNat
  | 0x0C => some q.nakRcvd.toNat
  | 0x10 => some q.fecCorr.toNat
  | 0x14 => some q.uncorr.toNat
  | 0x18 => some q.dup.toNat
  | 0x1C => some q.failCode.toNat
  | _ => none

/-- LSU.KEY_STATUSn: the generation of a key is bit 0 of its EPOCH (14 R445). -/
def keyStatusWord (q : Port) : Nat :=
  q.txEpoch % 2 + 2 * b2n q.txNext + 4 * (q.rxEpoch % 2) + 8 * b2n q.rxNext + q.txEpoch % 256 * 2 ^ 8 + q.rxEpoch % 256 * 2 ^ 16

/-- RTR.PORT_MAPn: UP reads with the word written (03 R104). -/
def portMapWord (s : State) (n : Nat) : Nat := (Sparse.get (0 : BitVec 20) s.rtr.portMap n).toNat + b2n (portUp s n) * 2 ^ 31

/-- RTR.RING_MAP_DATA: the entry selected (03 R103). -/
def ringMapWord (e : RingMap) : Nat := e.excluded.toNat + e.x0.toNat * 2 ^ 5 + b2n e.dead * 2 ^ 10

/-- RTR.ROUTE_CTL (03 R102). -/
def routeCtlWord (r : Rtr) : Nat := b2n r.hold + 2 * b2n r.holdDone + 4 * b2n r.adaptEn + r.mapGen.toNat * 2 ^ 4

/-- n weights from a VC on, a byte each (04 R135). -/
def weightWord (s : State) (first n : Nat) : Nat :=
  leNat ((List.range n).map fun i => Sparse.get (1 : Byte) s.lnk.weights (first + i))

/-- LNK.LOCAL_CAPS: VERSION 3, CAPS_HW 0xF and CAPS_EN (04 R134). -/
def localCapsWord (s : State) : Nat := 3 + 0xF * 2 ^ 4 + s.lnk.capsEn.toNat * 2 ^ 8

/-- Pages RTR, LNK and LSU. -/
def readFabric (s : State) (p off : Nat) : Option Nat :=
  match p, off with
  | 12, 0x20 => some s.rtr.shape.toNat
  | 12, 0x24 => some s.rtr.coord.toNat
  | 12, 0x28 => some s.rtr.origin.toNat
  | 12, 0x2C => some s.rtr.role.toNat
  | 12, 0x30 => some s.rtr.axisMap.toNat
  | 12, 0x34 => some (routeCtlWord s.rtr)
  | 12, 0x38 => some s.rtr.misroute.toNat
  | 12, 0x40 => some s.rtr.ringIndex.toNat
  | 12, 0x44 => some (ringMapWord (Sparse.get {} s.rtr.ringMap s.rtr.ringIndex.toNat))
  | 12, o => if 0x80 ≤ o && o < 0xA8 then some (portMapWord s ((o - 0x80) / 4)) else none
  | 13, 0x20 => some (localCapsWord s)
  | 13, 0x24 => some (weightWord s 1 4)
  | 13, 0x28 => some (weightWord s 5 3)
  | 13, 0x2C => some (s.lnk.maxNak.toNat + s.lnk.timeoutLoops.toNat * 2 ^ 4 + s.lnk.lcfGap.toNat * 2 ^ 8)
  | 13, o => if 0x100 ≤ o && o < 0x380 then portRead (portOf s ((o - 0x100) / 0x40)) (o % 0x40) else none
  | 14, 0x20 => some s.lsu.attTimeout.toNat
  | 14, 0x24 => some s.lsu.keyTimeout.toNat
  | 14, 0x28 => some s.lsu.authLog.toNat
  | 14, 0x2C => some s.lsu.authLogSeq.toNat
  | 14, o =>
    if 0x100 ≤ o && o < 0x240 then
      let q := portOf s ((o - 0x100) / 0x20)
      match o % 0x20 with
      | 0x00 => some (keyStatusWord q)
      | 0x18 => some q.authFails.toNat
      | 0x1C => some q.attFails.toNat
      | _ => none
    else none
  | _, _ => none

/-- Page RRU. -/
def readRru (r : Rru) (off : Nat) : Option Nat :=
  match off with
  | 0x20 => some (r.mode.toNat + 4 * b2n r.mirrorPay + r.trigMask.toNat * 2 ^ 16)
  | 0x24 => some (b2n r.active + 2 * b2n r.frozen + 4 * b2n r.hdrWrapped + 8 * b2n r.payWrapped)
  | 0x58 => some r.budget.toNat
  | 0x5C => some r.dropped.toNat
  | 0x78 => some (r.steps.toNat * 2 ^ 16)
  | 0x7C => some (b2n r.run + r.endCode.toNat * 2)
  | 0x90 => some r.fencedIn.toNat
  | 0x94 => some r.fencedOut.toNat
  | _ => none

/-- Page FLT (13 R419 to R422). -/
def readFlt (s : State) (off : Nat) : Option Nat :=
  let f := s.flt
  match off with
  | 0x20 => some (fltStatus s).toNat
  | 0x24 => some f.eccWarn.toNat
  | 0x30 => some f.eccUncorr.toNat
  | 0x34 => some f.sessTimeout.toNat
  | 0x38 => some f.lastLate.toNat
  | 0x3C => some f.lastLateInfo.toNat
  | 0x40 => some (b2n f.histEn + f.maxLevel.toNat * 2 ^ 4)
  | 0x54 => some f.holdWarn.toNat
  | 0x58 => some 0
  | 0x5C => some f.recArg.toNat
  | 0x60 => some (f.recOp.toNat + f.recState.toNat * 2 ^ 3 + f.recCode.toNat * 2 ^ 16)
  | 0x64 => some (f.recDone.toNat + f.recExpect.toNat * 2 ^ 16)
  | 0x68 => some f.recTimeout.toNat
  | 0x6C => some f.lostStep.toNat
  | 0x70 => some (f.injKind.toNat + b2n f.injArm * 2 ^ 4 + f.injRepeat.toNat * 2 ^ 8)
  | 0x80 => some f.injCount.toNat
  | o =>
    if 0x44 ≤ o && o < 0x54 then some (Sparse.get (0 : W32) f.lateWorst ((o - 0x44) / 4)).toNat
    else if 0x100 ≤ o && o < 0x130 then some (Sparse.get (0 : W32) f.eccCorr ((o - 0x100) / 4)).toNat
    else if 0x400 ≤ o && o < 0xC00 then some (Sparse.get (0 : W32) f.hist ((o - 0x400) / 4)).toNat
    else none

/-- Page PWR and the mailbox (15 R462, 16 R491, R492). -/
def readPwr (s : State) (off : Nat) : Option Nat :=
  let p := s.pwr
  match off with
  | 0x20 => some (pwrState s).toNat
  | 0x24 => some (p.limit.toNat + p.capD.toNat * 2 ^ 8 + p.capN.toNat * 2 ^ 16)
  | 0x28 => some (p.est.toNat + p.peak.toNat * 2 ^ 8)
  | 0x2C => some 0
  | 0x30 => some (p.tickPhase.toNat + b2n p.phaseFixed * 2 ^ 6)
  | 0x34 => some p.idleTicks.toNat
  | 0x50 => some p.naks.toNat
  | 0x54 => some p.mbxUnknown.toNat
  | 0x120 => some (b2n p.inFull)
  | 0x160 => some (b2n p.outFull)
  | o =>
    if 0x100 ≤ o && o < 0x120 then some (Sparse.get (0 : W32) p.mbxIn ((o - 0x100) / 4)).toNat
    else if 0x140 ≤ o && o < 0x160 then some (Sparse.get (0 : W32) p.mbxOut ((o - 0x140) / 4)).toNat
    else none

def readNarrow (s : State) (p off : Nat) : Option Nat :=
  if p ≤ 7 then readLow s p off
  else if p ≤ 9 then readStep s p off
  else if p ≤ 11 then readMid s p off
  else if p ≤ 14 then readFabric s p off
  else if p = 15 then readRru s.rru off
  else if p = 16 then readFlt s off
  else if p = 17 then readPwr s off
  else none

/-! ### The window -/

/-- One half of a 64-bit register: a read of the low half latches the high half, and a read of the high half returns what
was latched (02 R53); a high half read alone is the current one (log 82). -/
def readHalf (a v : Nat) (s : State) : W32 × State :=
  if a % 8 = 0 then
    (w32 v, mDbg (fun d => { d with latches := assocSet d.latches a (w32 (v / 2 ^ 32)) }) s)
  else match assoc? s.dbg.latches (a - 4) with
    | some h => (h, mDbg (fun d => { d with latches := assocErase d.latches (a - 4) }) s)
    | none => (w32 (v / 2 ^ 32), s)

/-- A read of a privileged page; none is the ERROR response. Page DBG answers this bus with its header only (16 R493). -/
def readPage (a : Nat) (s : State) : Option (W32 × State) :=
  let p := a / 0x1000
  let off := a % 0x1000
  if p > 18 then none
  else if off < 0x20 then some (w32 (readHeader s p off), s)
  else if p = 11 && off = 0x88 then
    let t := dbgWaiterRead s
    some (t.dbg.readData, t)
  else match wideValue s p (off / 8 * 8) with
    | some v => some (readHalf a v s)
    | none => (readNarrow s p off).map fun v => (w32 v, s)

/-- The block of ring r in window c (05 R177): STATUS says whether the context owns the ring. -/
def ringBlock (s : State) (c r off : Nat) : Nat :=
  let g := ringOf s r
  match off with
  | 4 => g.head.toNat
  | 8 => g.done.toNat
  | 12 => b2n (g.ctx.toNat == c) + 2 * b2n g.enable + 4 * stallCause s r + g.code.toNat * 2 ^ 16
  | _ => 0

/-- The block of a stash (10 R327). -/
def stashBlock (t : Stash) (off : Nat) : Nat :=
  match off with
  | 4 => t.assigned.toNat
  | 8 => t.filled.toNat
  | 12 => t.released.toNat
  | _ => 0

/-- MON_CFG with ARM, which reads 1 while armed (11 R367). -/
def monCfgWord (m : Monitor) : Nat := m.cfg.toNat + b2n m.armed * 2 ^ 25

/-- A POLL of the selected object: its VALUE, or its STATE and WAITERS (11 R338, R366). Of an identifier that no segment
maps the spec states no value: a free value, and the block records SYNC_ID_UNMAPPED (R337; log 82). -/
def pollObj (c : Nat) (f : Nat → Nat) (s : State) : Nat × State :=
  match translate s c (winOf s c).obj.toNat with
  | some (p, _) => (f p, s)
  | none => ((Config.freeWord s.free).toNat % 2 ^ 32, winRecord c cSyncIdUnmapped { s with free := s.free + 1 })

def objStatus (s : State) (p : Nat) : Nat := bits (objWord s p).toNat 39 38 + 4 * bits (objWord s p).toNat 49 42

/-- A read of window c (14 R437, 16 R497). A read of another context's ring or stash is zero and is recorded (05 R156,
10 R327). -/
def readWindow (who : Requester) (c a : Nat) (s : State) : Option (W32 × State) :=
  let off := a % 0x10000
  let w := winOf s c
  let m := monOf s c w.monIndex.toNat
  if 0x1000 ≤ off && off < 0x2000 then
    let r := (off - 0x1000) / 16
    some (if mayReach who c (ringOf s r).ctx.toNat then (w32 (ringBlock s c r (off % 16)), s) else (0, denyWindow pgQue c s))
  else if 0x2000 ≤ off && off < 0x2100 then
    let i := (off - 0x2000) / 16
    some (if mayReach who c (stCtx (stashOf s i).cfg) then (w32 (stashBlock (stashOf s i) (off % 16)), s)
      else (0, denyWindow pgSpx c s))
  else match off with
    | 0x0000 => some (w32 c, s)
    | 0x0004 => some (w32 (b2n (s.syn.preempted.getLsbD c) + 2 * b2n w.resetPending), s)
    | 0x0008 => some (w32 w.winCode.toNat, s)
    | 0x3000 => some (w32 w.obj.toNat, s)
    | 0x3004 =>
      let r := pollObj c (fun p => (objOf s p).value.toNat) s
      some (w32 r.1, r.2)
    | 0x3008 => some (0, s)
    | 0x300C => some (0, s)
    | 0x3010 =>
      let r := pollObj c (objStatus s) s
      some (w32 (r.1 % 2 ^ 10 + (winOf r.2 c).code.toNat * 2 ^ 16), r.2)
    | 0x3014 => some (w32 w.monIndex.toNat, s)
    | 0x3018 => some (readHalf a (monCfgWord m) s)
    | 0x301C => some (readHalf a (monCfgWord m) s)
    | 0x3020 => some (readHalf a m.target.toNat s)
    | 0x3024 => some (readHalf a m.target.toNat s)
    | 0x3028 => some (w32 (b2n m.armed + m.code.toNat * 2 ^ 16), s)
    | _ => none

/-- A read of page DBG on the debug bus: zero while DEBUG_UNLOCK is 0 (02 R66, 16 R493). -/
def debugRead (unlock : Bool) (off : Nat) (s0 : State) : W32 × State :=
  let s := sampleUnlock unlock s0
  let data (high : Bool) : W32 × State :=
    let t := dbgDataRead high s
    (t.dbg.readData, t)
  if !unlock then (0, s)
  else if off < 0x20 then (w32 (readHeader s pgDbg off), s)
  else match off with
    | 0x20 => (w32 (b2n s.dbg.freeze), s)
    | 0x24 => (w32 (b2n s.dbg.frozen + 2 * b2n s.dbg.freezeIn + 4 * b2n s.dbg.issueStopped), s)
    | 0x28 => (w32 s.dbg.sel.toNat, s)
    | 0x30 => readHalf 0x12030 s.dbg.addr.toNat s
    | 0x34 => readHalf 0x12034 s.dbg.addr.toNat s
    | 0x38 => data false
    | 0x3C => data true
    | 0x40 => (w32 s.dbg.freezes.toNat, s)
    | _ => (0, s)

/-- A read by a requester, in its view (02 R52, R71): whether the response is ERROR, the data, and the state after it. An
address with no register reads zero. -/
def busRead (who : Requester) (a : Nat) (s : State) : Bool × W32 × State :=
  let c := (a - 0x800000) / 0x10000
  let ans (r : Option (W32 × State)) : Bool × W32 × State := match r with
    | some t => (false, t)
    | none => (true, 0, s)
  match who with
  | .debug unlock => (false, debugRead unlock (a % 0x1000) s)
  | .context k => if 0x800000 ≤ a && a < 0xC00000 && k.val == c then ans (readWindow who c a s) else (true, 0, s)
  | _ =>
    if a < 0x800000 then ans (readPage a s)
    else if a < 0xC00000 then ans (readWindow who c a s)
    else (true, 0, s)

/-- A configuration read: what the bus returns stands in the read data and the error response. -/
def configRead (who : Requester) (a : Nat) (s : State) : State :=
  let r := busRead who a s
  mDbg (fun d => { d with readData := r.2.1, busError := r.1 }) r.2.2

end Sys2Proof.Machine
end

