-- ==== Sys2Proof/Safety.lean ====
section
/-! DEFINITION. Safety.lean: the parts of the state and which of them a command may change, in the terms that statements
use. -/

namespace Sys2Proof.Safety

open Sys2Proof.Machine

/-- The parts of the state: its top-level fields. -/
inductive Group where
  /-- the cycle counter -/
  | ccc
  /-- the slow clock -/
  | tick
  /-- the free-value counter -/
  | free
  /-- the queue of waiting commands -/
  | pending
  /-- the page headers -/
  | hdrs
  /-- low halves of 64-bit registers -/
  | heldLow
  /-- MSI-X requests -/
  | msix
  /-- HBM -/
  | mem
  /-- the memory port -/
  | emp
  /-- page CTL -/
  | ctl
  /-- page QUE, the rings -/
  | que
  /-- the tile ports -/
  | tiles
  /-- page TPL -/
  | tpl
  /-- page SES, the sessions -/
  | ses
  /-- page TRK, the tags -/
  | trk
  /-- page RED -/
  | red
  /-- page FIN -/
  | fin
  /-- page ROW -/
  | row
  /-- page GAS, the buckets -/
  | gas
  /-- page OPT, the step -/
  | opt
  /-- page SPX -/
  | spx
  /-- page SYN, the sync objects -/
  | syn
  /-- page RTR, the router -/
  | rtr
  /-- page LNK, the ports -/
  | lnk
  /-- page LSU, the keys -/
  | lsu
  /-- page RRU, capture and replay -/
  | rru
  /-- page FLT -/
  | flt
  /-- page PWR -/
  | pwr
  /-- the reset unit -/
  | rst
  /-- page DBG -/
  | dbg
  /-- the keys held; it counts as unchanged while none is added -/
  | keys
deriving DecidableEq, Repr

/-- A part's place in the list of parts. -/
def Group.idx : Group → Nat
  | .ccc => 0
  | .tick => 1
  | .free => 2
  | .pending => 3
  | .hdrs => 4
  | .heldLow => 5
  | .msix => 6
  | .mem => 7
  | .emp => 8
  | .ctl => 9
  | .que => 10
  | .tiles => 11
  | .tpl => 12
  | .ses => 13
  | .trk => 14
  | .red => 15
  | .fin => 16
  | .row => 17
  | .gas => 18
  | .opt => 19
  | .spx => 20
  | .syn => 21
  | .rtr => 22
  | .lnk => 23
  | .lsu => 24
  | .rru => 25
  | .flt => 26
  | .pwr => 27
  | .rst => 28
  | .dbg => 29
  | .keys => 30

/-- A part of the state is the same in two states; of the keys, that none was added. -/
def Unchanged (g : Group) (s t : State) : Prop :=
  match g with
  | .ccc => t.ccc = s.ccc
  | .tick => t.tick = s.tick
  | .free => t.free = s.free
  | .pending => t.pending = s.pending
  | .hdrs => t.hdrs = s.hdrs
  | .heldLow => t.heldLow = s.heldLow
  | .msix => t.msix = s.msix
  | .mem => t.mem = s.mem
  | .emp => t.emp = s.emp
  | .ctl => t.ctl = s.ctl
  | .que => t.que = s.que
  | .tiles => t.tiles = s.tiles
  | .tpl => t.tpl = s.tpl
  | .ses => t.ses = s.ses
  | .trk => t.trk = s.trk
  | .red => t.red = s.red
  | .fin => t.fin = s.fin
  | .row => t.row = s.row
  | .gas => t.gas = s.gas
  | .opt => t.opt = s.opt
  | .spx => t.spx = s.spx
  | .syn => t.syn = s.syn
  | .rtr => t.rtr = s.rtr
  | .lnk => t.lnk = s.lnk
  | .lsu => t.lsu = s.lsu
  | .rru => t.rru = s.rru
  | .flt => t.flt = s.flt
  | .pwr => t.pwr = s.pwr
  | .rst => t.rst = s.rst
  | .dbg => t.dbg = s.dbg
  | .keys => ∀ k ∈ t.lsu.keys, k ∈ s.lsu.keys

theorem unchanged_trans {g : Group} {s t u : State} (h : Unchanged g s t) (k : Unchanged g t u) : Unchanged g s u := by
  cases g <;> first | exact Eq.trans k h | exact fun x m => h x (k x m)

/-- A page header bit and its MSI-X vector. -/
def vector : List Group :=
  [.hdrs, .msix]

/-- Reporting a code: the page header, its vector, the capture record of the refusal and the memory port. -/
def report : List Group :=
  [.hdrs, .msix, .mem, .emp, .rru]

/-- A code that also fails the step: report, with the failure page, the step and the mailbox. -/
def failed : List Group :=
  [.hdrs, .msix, .mem, .emp, .opt, .rru, .flt, .pwr]

/-- A link that goes down or comes up, with the packets and the blocks that wait on it. -/
def linked : List Group :=
  [.hdrs, .msix, .mem, .emp, .que, .trk, .opt, .syn, .rtr, .lnk, .lsu, .rru, .flt, .pwr]

/-- A session that runs, completes or fails, with its record, its signal and the packets it sends. -/
def ended : List Group :=
  [.free, .hdrs, .msix, .mem, .emp, .ctl, .que, .tiles, .ses, .trk, .red, .fin, .gas, .opt, .spx, .syn, .rtr, .rru]

/-- A step that is decided: everything but the clocks, the queue, the templates, the thimble rows and the reset, key and debug
units. -/
def stepped : List Group :=
  [.free, .hdrs, .msix, .mem, .emp, .ctl, .que, .tiles, .ses, .trk, .red, .fin, .gas, .opt, .spx, .syn, .rtr, .lnk, .rru, .flt, .pwr]

/-- The parts of the state that a command may change. -/
def touches : Instr → List Group
  | .tailTransfer _ _ _ => report ++ [.tiles, .flt, .pwr]
  | .cdataBeat _ _ _ _ => ended ++ [.flt, .pwr]
  | .ddataDeposit _ _ _ _ => failed ++ [.tiles, .ses, .gas, .syn]
  | .odataTransfer _ => [.tiles]
  | .intakeSlot => stepped
  | .expertDispatchRoute _ => [.emp, .ses]
  | .chunkIssue => ended ++ [.flt]
  | .tagExhausted => ended ++ [.flt]
  | .chunkRetire _ => ended ++ [.flt]
  | .msixRequest _ => [.msix]
  | .msixAck => [.msix]
  | .csqWdogKick => vector ++ [.ctl, .pwr]
  | .csqWatchdog => report ++ [.ctl]
  | .sequencerResume => [.ctl]
  | .rdataReturn _ _ _ => ended ++ [.flt, .pwr]
  | .wackReturn _ => ended ++ [.flt, .pwr]
  | .schedModeLost _ => report ++ [.ctl]
  | .empTimingWrite _ => ended ++ [.flt, .pwr]
  | .configWrite _ _ _ => stepped ++ [.heldLow, .tpl, .row, .lsu, .dbg]
  | .mbxInDoorbell _ => [.pwr]
  | .mbxOutDbClear _ => [.pwr]
  | .keyLoad _ _ _ => [.trk, .rtr, .lnk, .lsu, .keys]
  | .keyReq _ _ => [.lnk]
  | .keyTimeout _ _ => linked
  | .zeroise => linked
  | .attMessage _ _ _ => linked
  | .attestationFlit _ _ => linked
  | .attestTimeout _ => linked
  | .dozeRequest => vector ++ [.pwr]
  | .sleepRequest => vector ++ [.pwr]
  | .sleepEntryDone => [.pwr]
  | .runRequest => vector ++ [.pwr]
  | .wakeSource _ => vector ++ [.pwr]
  | .pwrGood => [.pwr]
  | .sleepWakeDone => stepped ++ [.ccc, .heldLow, .tpl, .row, .lsu, .rst, .dbg]
  | .dozeWakeDone => [.ctl, .pwr]
  | .thrLimitChange _ => [.pwr]
  | .throttleInForce => [.pwr]
  | .peakClr _ => [.pwr]
  | .rstColdN => stepped ++ [.ccc, .heldLow, .tpl, .row, .lsu, .rst, .dbg]
  | .rstWarmN => stepped ++ [.ccc, .heldLow, .tpl, .row, .lsu, .rst, .dbg]
  | .rstEngN => stepped ++ [.ccc, .heldLow, .tpl, .row, .lsu, .rst, .dbg]
  | .rstDone => [.flt, .pwr, .rst]
  | .ctxRstReq _ => ended ++ [.rst]
  | .ctxRstAck _ => [.que, .syn, .flt, .pwr, .rst]
  | .debugFreezeRequest _ => vector ++ [.pwr, .dbg]
  | .debugFreezeDone => vector ++ [.dbg]
  | .debugFreezeEnd _ => failed ++ [.tiles, .ses, .gas, .syn, .dbg]
  | .dbgSelWrite _ => report ++ [.pwr, .dbg]
  | .dbgDataRead _ => report ++ [.free, .pwr, .dbg]
  | .ringMapWrite _ => report ++ [.rtr, .pwr]
  | .routeHold => vector ++ [.rtr, .pwr]
  | .holdDone => [.rtr]
  | .routeHoldRelease => vector ++ [.trk, .syn, .rtr, .lnk, .pwr]
  | .headerRoute _ => stepped
  | .phyLock _ => [.lnk]
  | .linkLost _ _ _ => linked
  | .trainingFlit _ _ => linked
  | .trainingTimeout _ => linked
  | .portRetrain _ _ => linked
  | .portMapWrite _ _ => linked
  | .flitReceive _ _ _ _ _ _ => linked
  | .lcfReceive _ _ _ => linked
  | .lcfSend _ => failed ++ [.trk, .rtr, .lnk]
  | .retryTimeout _ => linked
  | .chunkReceive => vector ++ [.mem, .emp, .ses, .trk, .red, .gas, .rtr]
  | .doorbell _ _ _ _ => report ++ [.que, .syn, .pwr]
  | .tplInstall => report ++ [.tpl, .pwr]
  | .tplRead => vector ++ [.tpl, .pwr]
  | .tplInvalidate => report ++ [.tpl, .pwr]
  | .regionEntryWrite _ => report ++ [.ses, .pwr]
  | .ringEnable _ => report ++ [.que, .trk, .pwr]
  | .ringDisable _ => report ++ [.que, .trk, .pwr]
  | .abort => ended
  | .nodeCombine _ _ _ _ => ended ++ [.flt]
  | .absent => ended ++ [.flt]
  | .redFailLogClear _ => vector ++ [.red, .pwr]
  | .admissionScan => ended ++ [.flt]
  | .grant => ended ++ [.flt]
  | .revoke => [.ses, .rtr]
  | .admitMsg => ended ++ [.flt]
  | .firm => ended ++ [.flt]
  | .refuse => ended ++ [.flt]
  | .retract => ended ++ [.flt]
  | .go => ended ++ [.flt]
  | .stageAfterTimeout _ => ended ++ [.flt]
  | .slotReturn => [.ses, .trk, .rtr]
  | .transposeRowBlock _ _ => [.emp, .ses]
  | .depositEntryWrite _ => report ++ [.ses, .pwr]
  | .finChunk => ended ++ [.flt]
  | .rowPass _ => ended ++ [.row, .flt]
  | .rowStatisticsFinal _ _ => [.ses, .row]
  | .finEntryCommit _ => report ++ [.fin, .pwr]
  | .rowEntryCommit _ => report ++ [.row, .pwr]
  | .entryIndexWrite _ _ => vector ++ [.fin, .row, .gas, .opt, .spx, .pwr]
  | .preloadSweep => [.mem, .emp, .gas]
  | .releaseContribution => stepped
  | .stepDeadline => stepped
  | .release => stepped
  | .updateWave => vector ++ [.mem, .emp, .gas, .opt]
  | .mirrorSend _ => [.emp, .ctl, .trk, .gas, .rtr, .rru]
  | .mirrorPacket => failed ++ [.free, .ctl, .que, .tiles, .ses, .trk, .red, .fin, .gas, .syn, .rtr]
  | .mirrorAck => report ++ [.gas, .rtr, .flt, .pwr]
  | .mirrorTimeout _ => failed ++ [.gas]
  | .commitVote => stepped
  | .commit => failed ++ [.free, .ctl, .que, .tiles, .ses, .gas, .syn, .rtr]
  | .stepEnable _ => report ++ [.ctl, .opt, .pwr]
  | .stepDisable _ => report ++ [.ctl, .opt, .pwr]
  | .bucketEntryCommit _ => report ++ [.gas, .pwr]
  | .optEntryCommit _ => vector ++ [.opt, .pwr]
  | .uprogWrite _ => report ++ [.opt, .pwr]
  | .expertPacket => ended ++ [.flt]
  | .expertCombineOutput _ => [.emp, .ses]
  | .clearToSend => ended
  | .receiveReady _ => ended
  | .stashRelease _ _ _ _ => report ++ [.spx, .syn, .pwr]
  | .stashCfgWrite _ => report ++ [.spx, .pwr]
  | .spxEntryCommit _ => report ++ [.spx, .pwr]
  | .segmentWrite _ => report ++ [.syn, .pwr]
  | .windowSet _ _ => report ++ [.tiles, .syn, .pwr]
  | .windowAdd _ _ => report ++ [.tiles, .syn, .pwr]
  | .monitorArm _ _ => vector ++ [.mem, .emp, .tiles, .syn, .pwr]
  | .syncTimeout _ => report ++ [.free, .que, .tiles, .trk, .syn, .pwr]
  | .preempt _ => vector ++ [.syn, .pwr]
  | .resume _ => vector ++ [.syn, .pwr]
  | .signal => report ++ [.free, .tiles, .syn, .rtr]
  | .arrive => stepped
  | .crownTimeout _ => stepped
  | .synDbgSelWrite _ => vector ++ [.syn, .pwr]
  | .dbgWaiterRead => vector ++ [.syn, .pwr, .dbg]
  | .gapRecord => report
  | .captureModeWrite _ => report ++ [.pwr]
  | .captureFreeze => report ++ [.pwr]
  | .replayGo => report ++ [.pwr]
  | .replayStop => vector ++ [.rru, .pwr]
  | .replayDelivery _ => vector ++ [.rtr, .rru]
  | .replayForcedChoice _ => stepped
  | .eccSingleBit _ => report ++ [.ctl, .flt, .pwr]
  | .eccDoubleBit _ _ => stepped ++ [.row, .lsu]
  | .eccLogClear _ => vector ++ [.flt, .pwr]
  | .lateContribution _ => ended ++ [.flt]
  | .histClear _ => vector ++ [.flt, .pwr]
  | .adopt => failed ++ [.free, .ctl, .que, .tiles, .ses, .trk, .red, .fin, .gas, .syn, .rtr]
  | .returnGen => report ++ [.flt, .pwr]
  | .restore => failed ++ [.free, .ctl, .que, .tiles, .ses, .trk, .red, .fin, .gas, .syn, .rtr]
  | .restoreRecordVerify _ => failed ++ [.free, .ctl, .que, .tiles, .ses, .trk, .red, .fin, .gas, .syn, .rtr]
  | .recTimeout => failed
  | .seed => report ++ [.gas, .flt, .pwr]
  | .setGen => failed
  | .lost => failed
  | .remirror => report ++ [.gas, .flt, .pwr]
  | .injectArm _ => linked
  | .stragglerExpiry _ => [.ses]
  | .silentChipExpiry => [.lnk, .flt]
  | .authLogClear _ => vector ++ [.lsu, .pwr]
  | .ucodeDataWrite _ => report ++ [.ctl, .pwr]
  | .csqStart _ => report ++ [.ctl, .pwr]
  | .microcodeCheckDone => report ++ [.ctl, .flt, .pwr]
  | .pageErrClear _ _ => vector ++ [.pwr]
  | .pageIrqClear _ _ => vector ++ [.pwr]
  | .pageIrqMaskWrite _ _ => vector ++ [.pwr]
  | .trainingFlitSend _ => linked
  | .phyPresentChange _ _ => linked
  | .remoteSignalComplete _ => report ++ [.que, .trk]
  | .schedRise => [.emp]

/-! Two states and an outcome that statements name. -/

/-- A port's state after a received flit's corrected symbols are counted (04 R121). -/
def fecCounted (p n : Nat) (s : State) : State :=
  bump pgLnk (fun s => (portOf s p).fecCorr) (fun v => mPort p fun q => { q with fecCorr := v }) n s

/-- What the loss of a step leaves: no recovery operation runs, EN is 0, LOST_STEP holds REC_ARG.STEP and VALID, the step vector is
requested unless it is masked, and STATE_LOST is in the mailbox or held for it (13 R409, R416). -/
def lossReported (s t : State) : Prop :=
  t.opt.en = false ∧ t.flt.recState ≠ 1 ∧ t.flt.lostStep = BitVec.ofNat 17 ((recArgStep s).toNat + 65536) ∧
  (vecMasked s 261 = true ∨ Sparse.get false t.msix.pendingVecs 261 = true ∨ t.msix.outstanding = some 261) ∧
  (s.pwr.outFull = false → s.pwr.heldMsgs = [] → t.pwr.outFull = true ∧
    Sparse.get 0 t.pwr.mbxOut 0 = BitVec.ofNat 32 (0x42 + cStateLost.toNat * 65536) ∧
    Sparse.get 0 t.pwr.mbxOut 1 = BitVec.ofNat 32 (recArgStep s).toNat) ∧
  (s.pwr.outFull = true → ∃ m ∈ t.pwr.heldMsgs, m.1 = 0x42)

/-- The state in which a recovery operation has begun (13 R402). -/
def recBegun (op : Nat) (s : State) : State :=
  mFlt (fun f =>
    { f with
      recOp := BitVec.ofNat 3 op, recState := 1, recCode := 0, recDone := 0, recExpect := 0, recTick := s.tick,
      recLast := false, recPos := 0 }) s

end Sys2Proof.Safety
end

