-- ==== Sys2Proof/WellFormed.lean ====
section
/-! DEFINITION. WellFormed.lean: the operand values a sender can give, where the operand's type admits more. -/

namespace Sys2Proof

/-- The length of an attestation message stands in the 16 bits [31:16] of its header beat (14 R432). -/
def attMessageOk (bytes : List Byte) : Bool := decide (bytes.length < 65536)

/-- A block of a session is numbered below its 2^36 elements (05 R157: COUNT). -/
def blockOk (block : Nat) : Bool := decide (block < 2 ^ 36)

/-- A capture record is numbered by the 64-bit count HDR_WRITE (12 R386). -/
def recordNumOk (record : Nat) : Bool := decide (record < 2 ^ 64)

/-- Whether the operands of a command are ones a sender can give. -/
def Instr.wf : Instr → Bool
  | .attMessage _ _ bytes => attMessageOk bytes
  | .transposeRowBlock _ block => blockOk block
  | .rowStatisticsFinal _ block => blockOk block
  | .replayForcedChoice record => recordNumOk record
  | _ => true

end Sys2Proof
end

