-- ==== Sys2Proof/Certificates/Slice0/Obligations.lean ====
section
/-! DEFINITION. Certificates/Slice0/Obligations.lean: the statements for the provers. A command's result is stated as the next
state that exec answers; where it is written out in full, that is its frame as well. -/

open Sys2Proof Sys2Proof.Machine Sys2Proof.Safety

/-! ### The step -/

/-- A step runs the command at the front of the queue on the rest of the queue (log 2 for the queue). -/
def Obligations.StepRunsFront : Prop :=
  ∀ (s : State) (c : Instr) (rest : List Instr), s.pending = c :: rest → step s = exec c { s with pending := rest }

/-- With no command waiting a step is one core cycle (idleCycle): it answers a next state in which the cycle counter is one
on and the slow clock has ticked if that cycle is a multiple of 44; the queue is empty, or holds the accesses to gated domains
that waited for the wake once the engine is awake (02 R54, R65; the idle step is the model's choice, log 2). -/
def Obligations.IdleStepIsOneCycle : Prop :=
  ∀ s : State, s.pending = [] → ∃ t, step s = .next t ∧ t.ccc = s.ccc + 1 ∧
    t.tick = s.tick + (if (s.ccc + 1).toNat % 44 = 0 then 1 else 0) ∧
    (awake (idleCycle s) = false → t = idleCycle s ∧ t.pending = []) ∧
    (awake (idleCycle s) = true → t.pending = (idleCycle s).pwr.waiting ∧ t.pwr.waiting = [])

/-- A step that answers a next state with a command waiting takes that command off the front of the queue and adds none; with
none waiting it adds none but the accesses to gated domains that waited for the wake (02 R54; log 2). -/
def Obligations.QueueIsConsumed : Prop :=
  ∀ s t : State, step s = .next t →
    (s.pending ≠ [] → t.pending = s.pending.tail) ∧
    (s.pending = [] → t.pending = [] ∨ t.pending = (idleCycle s).pwr.waiting)

/-- Every step keeps memory in its canonical form. -/
def Obligations.MemoryStaysCanonical : Prop :=
  ∀ s t : State, Memory.wf s.mem → step s = .next t → Memory.wf t.mem

/-- Memory after reset is canonical, lists nothing, and nothing waits. -/
def Obligations.ResetMemoryIsCanonical : Prop :=
  Memory.wf State.reset.mem ∧ State.reset.mem = [] ∧ State.reset.pending = [] ∧ ∀ a, readByte State.reset.mem a = 0

/-- Reset leaves the values that the spec states: the chip is a spare with its routes held, every port is DOWN and every
vector masked, no ring, segment or object is in use, the step is disabled, no key is loaded, and the timers and limits have
their default values (01 R23, R24; 03 R98 to R103; 04 R133 to R137; 05 R173, R174; 07 R240; 11 R333; 15 R463). -/
def Obligations.ResetLeavesTheStatedValues : Prop :=
  (State.reset.ctl.run = false ∧ State.reset.ctl.halted = false ∧ State.reset.ctl.wdogTimeout = 25000 ∧
    State.reset.ctl.digest = 0) ∧
  (State.reset.rtr.shape = 0 ∧ State.reset.rtr.role = 3 ∧ State.reset.rtr.axisMap = 0xE4 ∧ State.reset.rtr.hold = true ∧
    State.reset.rtr.holdDone = true ∧ State.reset.rtr.adaptEn = true ∧ State.reset.rtr.mapGen = 0) ∧
  (State.reset.lnk.capsEn = 0xF ∧ State.reset.lnk.maxNak = 8 ∧ State.reset.lnk.timeoutLoops = 4 ∧ State.reset.lnk.lcfGap = 64) ∧
  (∀ p, (portOf State.reset p).st = 0 ∧ (portOf State.reset p).nakSent = 0 ∧ (portOf State.reset p).failCode = 0) ∧
  (∀ v, vecMasked State.reset v = true) ∧
  (∀ r, (ringOf State.reset r).enable = false ∧ (ringOf State.reset r).head = 0 ∧ (ringOf State.reset r).done = 0) ∧
  (∀ p, (objOf State.reset p).st = .free ∧ (objOf State.reset p).value = 0) ∧
  (∀ ctx i, segEn (segOf State.reset ctx i) = false) ∧
  (State.reset.ses.slots = [] ∧ State.reset.ses.stageAfter = 2500 ∧ State.reset.trk.tags = []) ∧
  (State.reset.opt.en = false ∧ State.reset.opt.state = 6 ∧ State.reset.opt.repeatMax = 3 ∧ State.reset.opt.mirrorVc = 6) ∧
  (State.reset.lsu.keys = [] ∧ State.reset.lsu.attTimeout = 125000 ∧ State.reset.lsu.keyTimeout = 25000) ∧
  (State.reset.rru.mode = 0 ∧ State.reset.rru.budget = 2500 ∧ State.reset.flt.eccWarn = 1024 ∧ State.reset.flt.holdWarn = 3) ∧
  (State.reset.pwr.limit = 0xAA ∧ State.reset.pwr.capD = 16 ∧ State.reset.pwr.capN = 63)

/-- A command changes no part of the state but those that Safety.touches lists for it: the frame of all 165 commands. -/
def Obligations.CommandsTouchOnlyTheirParts : Prop :=
  ∀ (c : Instr) (s t : State) (g : Group), exec c s = .next t → g ∉ touches c → Unchanged g s t

/-- Keys come from the Trust Block alone: a command other than KEY_LOAD adds no key to the key slots. -/
def Obligations.KeysComeFromKeyLoad : Prop :=
  ∀ (c : Instr) (s t : State), (∀ slot key fixed, c ≠ .keyLoad slot key fixed) → exec c s = .next t →
    ∀ k ∈ t.lsu.keys, k ∈ s.lsu.keys

/-- Every command answers a next state in every state, except a read return, a write acknowledgement and an MSI-X
acknowledgement that nothing is outstanding for: those three, and no others, stop, with unmatchedReturn. -/
def Obligations.WellFormedCommandsRun : Prop :=
  (∀ (c : Instr) (s : State), (∀ sub tag poison ecc, c = .rdataReturn ⟨sub, tag⟩ poison ecc → (issued? s false sub.val tag).isSome) →
    (∀ sub tag, c = .wackReturn ⟨sub, tag⟩ → (issued? s true sub.val tag).isSome) →
    (c = .msixAck → s.msix.outstanding.isSome) → ∃ t, exec c s = .next t) ∧
  (∀ (sub : Fin 8) (tag : BitVec 10) (poison : Byte) (ecc : Ecc) (s : State), issued? s false sub.val tag = none →
    exec (.rdataReturn ⟨sub, tag⟩ poison ecc) s = .fault .unmatchedReturn) ∧
  (∀ (sub : Fin 8) (tag : BitVec 10) (s : State), issued? s true sub.val tag = none →
    exec (.wackReturn ⟨sub, tag⟩) s = .fault .unmatchedReturn) ∧
  (∀ s : State, s.msix.outstanding = none → exec .msixAck s = .fault .unmatchedReturn)

/-! ### Tile ports and intake -/

/-- A tail word that its port can take joins the port's intake buffer with the port's next index, modulo 4; a word that is
not KIND 1 also opens a place for its part's data. A single-bit error of the word is counted and a double-bit error is logged,
both as memory 10, and a double-bit error marks the word. A port that is not ready takes nothing. While the engine is not awake
the word is a wake source of cause 4 (02 R42; 13 R389; 15 R456). -/
def Obligations.TailWordIsTaken : Prop :=
  (∀ (p : Fin 64) (w : W64) (ecc : Ecc) (s u : State), tailReady s p.val = true → u = (if awake s then s else wakeBy 4 s) →
    exec (.tailTransfer p w ecc) s = .next (mTile p.val
      (fun t =>
        { t with
          intake := t.intake ++ [(w, t.nextIdx, ecc == .double)], nextIdx := t.nextIdx + 1,
          parts := if tailKind w = 1 then t.parts else t.parts ++ [{ idx := t.nextIdx }] })
      (match ecc with
      | .clean => u
      | .single => eccSingle 10 u
      | .double => logDouble 10 p.val false u))) ∧
  (∀ (p : Fin 64) (w : W64) (ecc : Ecc) (s : State), tailReady s p.val = false →
    exec (.tailTransfer p w ecc) s = .next (if s.rst.done && !awake s then wakeBy 4 s else s))

/-- A data beat goes to the oldest open part of its port while the port holds fewer than 256 beats. Its data join a part
that is not discarded, its last beat closes the part, and the last beat of a discarded part ends that part. A part bound to a
session fails with a beat of a double-bit error, with a last beat before its length and with none at its length; a part not
yet bound keeps the error. A beat's single-bit error is counted and its double-bit error is logged, as memory 10. A beat with
no open part, or at 256 beats held, or while the clocks are gated, is not taken. ODATA_TRANSFER takes the oldest result beat off
its port (02 R40; 05 R503). -/
def Obligations.TileDataMoves : Prop :=
  (∀ (p : Fin 64) (beat : BitVec 512) (last : Bool) (ecc : Ecc) (s s1 : State) (q : Part), ctlOn s = true →
    (tileOf s p.val).parts.find? isOpen = some q → cdataHeld s (tileOf s p.val) < 256 →
    s1 = (match ecc with
      | .clean => s
      | .single => eccSingle 10 s
      | .double => logDouble 10 p.val false s) →
    (q.use = .unresolved → exec (.cdataBeat p beat last ecc) s = .next (mTile p.val (fun t =>
      { t with
        parts := onFirst isOpen (fun _ => some
          { q with
            data := q.data ++ leBytes 64 beat.toNat, beats := q.beats + 1, closed := last,
            bad := q.bad || (ecc == .double) }) t.parts }) s1)) ∧
    (q.use = .discard → exec (.cdataBeat p beat last ecc) s = .next (mTile p.val (fun t =>
      { t with parts := onFirst isOpen (fun _ => if last then none else some q) t.parts }) s1)) ∧
    (∀ slot k n s2, q.use = .bound slot k n →
      s2 = mTile p.val (fun t =>
        { t with
          parts := onFirst isOpen (fun _ => some
            { q with data := q.data ++ leBytes 64 beat.toNat, beats := q.beats + 1, closed := last }) t.parts }) s1 →
      (ecc ≠ .double → (last = true ↔ q.beats + 1 = n) → exec (.cdataBeat p beat last ecc) s = .next s2) ∧
      (ecc = .double ∨ ¬(last = true ↔ q.beats + 1 = n) →
        exec (.cdataBeat p beat last ecc) s = .next (partError p.val slot q.idx s2)))) ∧
  (∀ (p : Fin 64) (beat : BitVec 512) (last : Bool) (ecc : Ecc) (s : State),
    ctlOn s = false ∨ (tileOf s p.val).parts.find? isOpen = none ∨ 256 ≤ cdataHeld s (tileOf s p.val) →
    exec (.cdataBeat p beat last ecc) s = .next s) ∧
  (∀ (p : Fin 64) (s : State),
    exec (.odataTransfer p) s = .next (mTile p.val (fun t => { t with odata := t.odata.tail }) s))

/-- A deposit that its port may present is judged by the checks of R271: it is accumulated if the period's budget has room,
and is not taken otherwise; one for a later step waits in the port; one for a closed step is counted and dropped; any other is
rejected with its code. A deposit with a double-bit error is logged as memory 10 and rejected with TCP_DATA_ERROR; a single-bit
error is counted first. While a deposit waits in the port or the store is stopped, none is taken (09 R270 to R274; 13 R389). -/
def Obligations.DepositIsJudged : Prop :=
  (∀ (p : Fin 64) (h : W64) (beat : BitVec 512) (ecc : Ecc) (s u : State), ecc ≠ .double → (tileOf s p.val).held = none →
    gasStopped s = false → u = (if ecc = .single then eccSingle 10 s else s) →
    (depCheck u p.val h = .accept → depRoom u h = true →
      exec (.ddataDeposit p h beat ecc) s = .next (applyDeposit p.val h beat u)) ∧
    (depCheck u p.val h = .accept → depRoom u h = false → exec (.ddataDeposit p h beat ecc) s = .next u) ∧
    (depCheck u p.val h = .hold →
      exec (.ddataDeposit p h beat ecc) s = .next (mTile p.val (fun t => { t with held := some (h, beat) }) u)) ∧
    (depCheck u p.val h = .frozen → u.gas.frozenDrops ≠ BitVec.allOnes _ → u.gas.frozenDrops + 1 ≠ BitVec.allOnes _ →
      exec (.ddataDeposit p h beat ecc) s = .next (mGas (fun g => { g with frozenDrops := g.frozenDrops + 1 }) u)) ∧
    (∀ code, depCheck u p.val h = .reject code →
      exec (.ddataDeposit p h beat ecc) s = .next (rejectDeposit p.val code u))) ∧
  (∀ (p : Fin 64) (h : W64) (beat : BitVec 512) (s : State), (tileOf s p.val).held = none → gasStopped s = false →
    exec (.ddataDeposit p h beat .double) s = .next (rejectDeposit p.val cTcpDataError (logDouble 10 p.val false s))) ∧
  (∀ (p : Fin 64) (h : W64) (beat : BitVec 512) (ecc : Ecc) (s : State), awake s = true →
    ((tileOf s p.val).held.isSome = true ∨ gasStopped s = true) → exec (.ddataDeposit p h beat ecc) s = .next s) ∧
  (∀ (p : Fin 64) (h : W64) (beat : BitVec 512) (ecc : Ecc) (s : State), s.pwr.cur ≠ 0 → s.rst.done = true →
    exec (.ddataDeposit p h beat ecc) s = .next (wakeBy 4 s))

/-- An intake slot belongs to tile port k for slots 0 to 63 and to rings 16·(k − 64) to 16·(k − 64) + 15 for slots 64 to
79, and the next slot follows. A port's slot takes the port's oldest word, unless its context is pre-empted; in a ring slot
the rings whose heads are stalled are passed over, and the head of the first ring that offers work has its turn (01 R16). -/
def Obligations.IntakeSlotServes : Prop :=
  ∀ (s u : State), intakeOn s = true → u = mQue (fun q => { q with slot := (q.slot + 1) % 80 }) s →
    (s.que.slot < 64 → portHeld s s.que.slot = false → exec .intakeSlot s = .next (tailTurn s.que.slot u)) ∧
    (s.que.slot < 64 → portHeld s s.que.slot = true → exec .intakeSlot s = .next u) ∧
    (64 ≤ s.que.slot →
      exec .intakeSlot s = .next (scanRings ((List.range 16).map fun i => 16 * (s.que.slot - 64) + i) u)) ∧
    (∀ (r : Nat) (rest : List Nat), ringOffers u r = true → scanRings (r :: rest) u = headTurn r u) ∧
    (∀ (r : Nat) (rest : List Nat) (h : HeadState), ringOffers u r = false → ringPending u r = true → headStand u r = some h →
      scanRings (r :: rest) u = scanRings rest (setHead r h u)) ∧
    (∀ (r : Nat) (rest : List Nat), ringPending u r = false → scanRings (r :: rest) u = scanRings rest u)

/-! ### Issue, tags and returns -/

/-- CHUNK_ISSUE serves the first session in the issue order that has something to issue. A chunk takes the lowest free tag
and is recorded as a decision of kind 2; with none free, the session's ring and the tracker note the stall. TAG_EXHAUSTED
reports a stall of STALL_WARN ticks that was not yet reported, outside a replay: it records TAG_EXHAUSTED in TRK, requests
vector 256 and is a choice of kind 7. While issue is stopped nothing is issued (05 R166, R167). -/
def Obligations.ChunksAreIssued : Prop :=
  (∀ (s : State) (i seq k : Nat) (x : Session) (act : Nat → State → State), issueStopped s = false →
    nextIssue s = some (i, x, .chunk seq act) → injFor s 5 x.gsid = false → freeTag s = some k →
    exec .chunkIssue s = .next (tryComplete i (settleLocals i (act k (decision 2 i x.gsid k 0 seq
      (mTrk (fun q => { q with lastServed := some i }) s)))))) ∧
  (∀ (s : State) (i seq : Nat) (x : Session) (act : Nat → State → State), issueStopped s = false →
    nextIssue s = some (i, x, .chunk seq act) → injFor s 5 x.gsid = false → freeTag s = none →
    exec .chunkIssue s = .next (tagStall x s)) ∧
  (∀ s : State, issueStopped s = true → exec .chunkIssue s = .next s) ∧
  (∀ (s : State) (t0 : Nat), ctlOn s = true → s.trk.stallStart = some t0 → s.trk.reported = false → s.rru.run = false →
    s.trk.stallWarn.toNat ≤ s.tick - t0 →
    exec .tagExhausted s = .next (choice 7 (cTagExhausted.toNat % 256) (stalledGsid s)
      (mTrk (fun k => { k with reported := true }) (raiseVec 256 (pageErr pgTrk cTagExhausted s)))))


/-- CHUNK_RETIRE frees a tag whose chunk has met its destination, which ends the tag stall of the tracker and of every ring;
the session that held it makes progress, and completes if nothing else is open in it. A tag whose chunk has not met its
destination stays (05 R165, R167). -/
def Obligations.TagsRetire : Prop :=
  ∀ (tag : Fin 65536) (s : State) (g : Tag), ctlOn s = true → assoc? s.trk.tags tag.val = some g →
    (g.retired = false → exec (.chunkRetire tag) s = .next s) ∧
    (g.retired = true → ∃ s2, s2 = { s with
        trk := { s.trk with tags := assocErase s.trk.tags tag.val, stallStart := none, reported := false },
        que := { s.que with rings := Sparse.mapAll {} s.que.rings fun _ r => { r with tagStall := false } } } ∧
      (slotOfGsid s g.gsid = none → exec (.chunkRetire tag) s = .next s2) ∧
      ∀ i, slotOfGsid s g.gsid = some i → exec (.chunkRetire tag) s = .next (tryComplete i (progress i s2)))

/-- At most one MSI-X request is outstanding. MSIX_REQUEST presents a pending vector that is not masked when none is, and
takes its pending bit; MSIX_ACK ends the request. An event on a vector that is not masked makes it pending; an event on a
vector whose request is pending or outstanding adds none (02 R62, R63). -/
def Obligations.MsixIsPresentedAndAcknowledged : Prop :=
  (∀ (vec : Fin 262) (s : State), s.msix.outstanding = none → vecMasked s vec.val = false →
    Sparse.get false s.msix.pendingVecs vec.val = true →
    exec (.msixRequest vec) s = .next { s with msix :=
      { outstanding := some (BitVec.ofNat 9 vec.val), pendingVecs := Sparse.set false s.msix.pendingVecs vec.val false } }) ∧
  (∀ (vec : Fin 262) (v : BitVec 9) (s : State), s.msix.outstanding = some v → exec (.msixRequest vec) s = .next s) ∧
  (∀ (v : BitVec 9) (s : State), s.msix.outstanding = some v →
    exec .msixAck s = .next { s with msix := { s.msix with outstanding := none } }) ∧
  (∀ (v : Nat) (s : State), vecMasked s v = false → Sparse.get false s.msix.pendingVecs v = false →
    s.msix.outstanding ≠ some (BitVec.ofNat 9 v) → Sparse.get false (raiseVec v s).msix.pendingVecs v = true) ∧
  (∀ (v : Nat) (s : State), Sparse.get false s.msix.pendingVecs v = true ∨ s.msix.outstanding = some (BitVec.ofNat 9 v) →
    (raiseVec v s).msix.outstanding = s.msix.outstanding ∧
    ∀ u, Sparse.get false (raiseVec v s).msix.pendingVecs u = Sparse.get false s.msix.pendingVecs u)

/-! ### The sequencer -/

/-- CSQ_WDOG_KICK zeroes the watchdog's count. CSQ_WATCHDOG acts when the count has reached WDOG_TIMEOUT with the sequencer
running: the first expiry since the last step result stops issue, counts a restart and raises CSQ_WATCHDOG, and an expiry after
it halts the sequencer and raises CSQ_HALTED; before that time it does nothing. SEQUENCER_RESUME ends a restart and lets issue go
on unless a control memory is lost (01 R20, R21; 13 R391). -/
def Obligations.WatchdogRestartsThenHalts : Prop :=
  (∀ s : State, ctlOn s = true → exec .csqWdogKick s = .next { s with ctl := { s.ctl with wdogCount := 0 } }) ∧
  (∀ s : State, ctlOn s = false → exec .csqWdogKick s = .next (holdAccess 5 .csqWdogKick s)) ∧
  (∀ s : State, ctlOn s = true → s.ctl.run = true → max 1 s.ctl.wdogTimeout.toNat ≤ s.ctl.wdogCount → s.ctl.expired = false →
    exec .csqWatchdog s = .next (raiseError cCsqWatchdog (bump pgCtl (·.ctl.restarts)
      (fun v t => { t with ctl := { t.ctl with restarts := v } }) 1 { s with ctl :=
        { s.ctl with lastCause := 1, expired := true, issueStopped := true, wdogCount := 0, restarting := true } }))) ∧
  (∀ s : State, ctlOn s = true → s.ctl.run = true → max 1 s.ctl.wdogTimeout.toNat ≤ s.ctl.wdogCount → s.ctl.expired = true →
    exec .csqWatchdog s = .next (raiseError cCsqHalted { s with ctl :=
      { s.ctl with
        lastCause := 1, expired := true, issueStopped := true, wdogCount := 0, run := false, halted := true,
        restarting := false } })) ∧
  (∀ s : State, s.ctl.run = false ∨ s.ctl.wdogCount < max 1 s.ctl.wdogTimeout.toNat → exec .csqWatchdog s = .next s) ∧
  (∀ s : State, ctlOn s = true → s.ctl.restarting = true →
    exec .sequencerResume s = .next { s with ctl := { s.ctl with restarting := false, issueStopped := s.flt.ctlLost } }) ∧
  (∀ s : State, s.ctl.restarting = false → exec .sequencerResume s = .next s)

/-- The CMC writes the image word by word at UCODE_ADDR, which goes on by one, and starts it: START begins the CRC check
over LEN words, and the check's end runs the sequencer and sends READY when the CRC matches UCODE_CRC, and records
CONFIG_INVALID when it does not. While the sequencer runs or a check is under way, image words and UCODE_ADDR are not written, and
an image word records CONFIG_INVALID. While the clocks are gated a write waits for the wake (15 R451, R459; 02 R54). -/
def Obligations.SequencerImageIsLoaded : Prop :=
  (∀ (v : W32) (s : State), ctlOn s = true → ucodeLocked s = false →
    exec (.ucodeDataWrite v) s = .next { s with ctl :=
      { s.ctl with ucode := Sparse.set 0 s.ctl.ucode s.ctl.ucodeAddr.toNat v, ucodeAddr := s.ctl.ucodeAddr + 1 } }) ∧
  (∀ (v : W32) (s : State), ctlOn s = true → ucodeLocked s = true →
    exec (.ucodeDataWrite v) s = .next (pageErr pgCtl cConfigInvalid s)) ∧
  (∀ (v : W32) (s : State), ctlOn s = true → ucodeLocked s = false → s.ctl.halted = false →
    exec (.csqStart v) s = .next { s with ctl :=
      { s.ctl with
        csqLen := (v ||| 0x80000000).extractLsb' 0 17,
        crcCheck := some (imageCrc s (if (v ||| 0x80000000).extractLsb' 0 17 = 0 then 65536
          else ((v ||| 0x80000000).extractLsb' 0 17).toNat)) } }) ∧
  (∀ s : State, ctlOn s = true → s.ctl.crcCheck = some s.ctl.ucodeCrc → ∃ s2, s2 = { s with ctl :=
      { s.ctl with crcCheck := none, run := true, restarting := false, issueStopped := s.flt.ctlLost, wdogCount := 0 } } ∧
    exec .microcodeCheckDone s = .next (sendMbx 0x01 [1, csqStatus s2, 0x14301] s2)) ∧
  (∀ (s : State) (c : W32), ctlOn s = true → s.ctl.crcCheck = some c → c ≠ s.ctl.ucodeCrc →
    exec .microcodeCheckDone s = .next (pageErr pgCtl cConfigInvalid { s with ctl := { s.ctl with crcCheck := none } })) ∧
  (∀ (v : W32) (s : State), ctlOn s = true → ∃ t, exec (.configWrite .cmc 0x18 v) s = .next t ∧
    t.ctl.ucodeAddr = if ucodeLocked s then s.ctl.ucodeAddr else v.extractLsb' 0 16) ∧
  (∀ (v : W32) (s : State), ctlOn s = true → ∃ t, exec (.configWrite .cmc 0x1A v) s = .next t ∧ t.ctl.ucodeCrc = v) ∧
  (∀ (v : W32) (s : State), ctlOn s = false →
    exec (.ucodeDataWrite v) s = .next (holdAccess 5 (.ucodeDataWrite v) s) ∧
    exec (.csqStart v) s = .next (holdAccess 5 (.csqStart v) s))

/-! ### The memory port -/

/-- A return is matched to its request by its sub-channel and tag and takes it off the port; issued? finds the request. The
last request of a read completes its operands and lets what waits for it go on; one that is not the last leaves the read waiting
for the others. A poisoned or uncorrectable return is logged as memory 11 and fails what read. The last acknowledgement of a
write does what the write's purpose asks: a completion record's requests its ring's vector (02 R43, R44, R64; 13 R392). -/
def Obligations.MemoryReturnsAreMatched : Prop :=
  (∀ (sub : Fin 8) (tag : BitVec 10) (s s1 : State) (k : BitVec 10 × EmpReq) (r : RReq), issued? s false sub.val tag = some k →
    s1 = { s with emp := { s.emp with out := s.emp.out.erase k } } →
    s.emp.reads.find? (fun q => q.tag == k.2.op) = some r → poisonInjected s1 r.purpose = false →
    (r.left ≤ 1 → exec (.rdataReturn ⟨sub, tag⟩ 0 .clean) s = .next (cleanRead r (completeOperands r.tag
      { s1 with emp := { s1.emp with reads := s1.emp.reads.filter fun q => q.tag != r.tag } }))) ∧
    (1 < r.left → exec (.rdataReturn ⟨sub, tag⟩ 0 .clean) s = .next { s1 with emp :=
      { s1.emp with
        reads := s1.emp.reads.map fun q =>
          if q.tag = r.tag then { q with left := q.left - 1, purpose := r.purpose } else q } })) ∧
  (∀ (sub : Fin 8) (tag : BitVec 10) (poison : Byte) (ecc : Ecc) (s s1 : State) (k : BitVec 10 × EmpReq) (r : RReq),
    issued? s false sub.val tag = some k → (poison ≠ 0 ∧ ecc = .clean) ∨ ecc = .double →
    s1 = { s with emp := { s.emp with out := s.emp.out.erase k } } →
    s.emp.reads.find? (fun q => q.tag == k.2.op) = some r → poisonInjected s1 r.purpose = false →
    exec (.rdataReturn ⟨sub, tag⟩ poison ecc) s = .next (poisonedRead r false (dropRead r .other (logDouble 11 k.2.beat false s1)))) ∧
  (∀ (sub : Fin 8) (tag : BitVec 10) (s s1 : State) (k : BitVec 10 × EmpReq) (w : WReq), issued? s true sub.val tag = some k →
    s1 = { s with emp := { s.emp with out := s.emp.out.erase k } } →
    s.emp.writes.find? (fun q => q.tag == k.2.op) = some w →
    (w.left ≤ 1 → exec (.wackReturn ⟨sub, tag⟩) s = .next (wackFor w.purpose
      { s1 with emp := { s1.emp with writes := s1.emp.writes.filter fun q => q.tag != w.tag } })) ∧
    (1 < w.left → exec (.wackReturn ⟨sub, tag⟩) s = .next { s1 with emp :=
      { s1.emp with
        writes := s1.emp.writes.map fun q => if q.tag = w.tag then { q with left := q.left - 1 } else q } }) ∧
    (∀ ring : Nat, w.left ≤ 1 → w.purpose = .record ring → vecMasked s ring = false →
      ∃ t, exec (.wackReturn ⟨sub, tag⟩) s = .next t ∧ t.mem = s.mem ∧
        (Sparse.get false t.msix.pendingVecs ring = true ∨ t.msix.outstanding = some (BitVec.ofNat 9 ring))))

/-- Losing the scheduled mode sets SCHED_LOST and raises SCHED_MODE_LOST: when REFWIN rises outside its window, and when
SCHED falls from 1 to 0. SCHED_RISE sets SCHED. A write of EMP_TIMING takes each field whose value is within the limits of R48 and
no other field; a value out of them records CONFIG_INVALID; its bit 28 clears SCHED_LOST. It waits for the wake while the Fabric
domain is gated (02 R45, R48, R54). -/
def Obligations.MemoryTimingIsWatched : Prop :=
  (∀ s : State, refOpen s = false → exec (.schedModeLost .refwinOutside) s =
    .next (raiseError cSchedModeLost { s with ctl := { s.ctl with schedLost := true } })) ∧
  (∀ s : State, refOpen s = true → exec (.schedModeLost .refwinOutside) s = .next s) ∧
  (∀ s : State, s.emp.sched = true → exec (.schedModeLost .schedFell) s =
    .next (raiseError cSchedModeLost { s with emp := { s.emp with sched := false }, ctl := { s.ctl with schedLost := true } })) ∧
  (∀ s : State, s.emp.sched = false → exec (.schedModeLost .schedFell) s = .next s) ∧
  (∀ s : State, s.ctl.refOffset.toNat < 1760 → s.ctl.refLen.toNat ≤ 160 → (refOpen s = true ↔
    ∃ i < s.ctl.refLen.toNat, s.ccc.toNat % 1760 = (s.ctl.refOffset.toNat + i) % 1760)) ∧
  (∀ s : State, exec .schedRise s = .next { s with emp := { s.emp with sched := true } }) ∧
  (∀ (v : W32) (s s1 : State), fabricOn s = true →
    s1 = { s with ctl :=
      { s.ctl with
        rdLat := if rdLatBad v then s.ctl.rdLat else v.extractLsb' 0 8,
        refOffset := if refOffsetBad v then s.ctl.refOffset else v.extractLsb' 8 11,
        refLen := if refLenBad v then s.ctl.refLen else v.extractLsb' 19 8,
        schedLost := s.ctl.schedLost && !v.getLsbD 28 } } →
    (rdLatBad v = false → refOffsetBad v = false → refLenBad v = false → exec (.empTimingWrite v) s = .next s1) ∧
    (rdLatBad v = true → refOffsetBad v = false → refLenBad v = false →
      exec (.empTimingWrite v) s = .next (pageErr pgCtl cConfigInvalid s1)) ∧
    (rdLatBad v = false → refOffsetBad v = true → refLenBad v = false →
      exec (.empTimingWrite v) s = .next (pageErr pgCtl cConfigInvalid s1)) ∧
    (rdLatBad v = false → refOffsetBad v = false → refLenBad v = true →
      exec (.empTimingWrite v) s = .next (pageErr pgCtl cConfigInvalid s1)) ∧
    ∃ t, exec (.empTimingWrite v) s = .next t ∧ t.ctl = s1.ctl) ∧
  (∀ v : W32, (rdLatBad v = true ↔ 1 ≤ bits v.toNat 7 0 ∧ bits v.toNat 7 0 ≤ 95) ∧
    (refOffsetBad v = true ↔ 1759 < bits v.toNat 18 8) ∧ (refLenBad v = true ↔ 160 < bits v.toNat 26 19)) ∧
  (∀ (v : W32) (s : State), fabricOn s = false → exec (.empTimingWrite v) s = .next (holdAccess 5 (.empTimingWrite v) s))

/-! ### The configuration bus, the mailbox and the page headers -/

/-- A configuration write does what busWrite says: the register's effect and the response, ERROR or not. A context
requester's write to a page gets an ERROR response and records ACCESS_DENIED in the page, and its write to a window other than
its own gets an ERROR response; neither changes more. A write of a page's PAGE_SCRATCH, by the CMC, stores the value. An access to a
domain whose clocks are gated wakes it and waits (02 R52, R54, R71; 16 R466, R470; the response stands in the model's
DBG.busError, log 36). -/
def Obligations.ConfigurationBusWrites : Prop :=
  (∀ (who : Requester) (word : BitVec 22) (v : W32) (s : State), accessOn who (4 * word.toNat) s = true →
    exec (.configWrite who word v) s = .next (mDbg (fun d => { d with busError := (busWrite who (4 * word.toNat) v s).1 })
      (busWrite who (4 * word.toNat) v s).2)) ∧
  (∀ (who : Requester) (word : BitVec 22) (v : W32) (s : State), accessOn who (4 * word.toNat) s = false →
    exec (.configWrite who word v) s = .next (holdAccess 5 (.configWrite who word v) s)) ∧
  (∀ (c : Fin 64) (page : Fin 19) (off : Fin 0x400) (v : W32) (s : State),
    accessOn (.context c) (page.val * 0x1000 + 4 * off.val) s = true →
    exec (.configWrite (.context c) (BitVec.ofNat 22 (page.val * 0x400 + off.val)) v) s =
      .next (mDbg (fun d => { d with busError := true }) (pageErr page.val cAccessDenied s))) ∧
  (∀ (c : Fin 64) (word : BitVec 22) (v : W32) (s : State), 0x800000 ≤ 4 * word.toNat →
    accessOn (.context c) (4 * word.toNat) s = true → (4 * word.toNat - 0x800000) / 0x10000 ≠ c.val →
    exec (.configWrite (.context c) word v) s = .next { s with dbg := { s.dbg with busError := true } }) ∧
  (∀ (page : Fin 19) (v : W32) (s : State), pageOn s page.val = true →
    exec (.configWrite .cmc (BitVec.ofNat 22 (page.val * 0x400 + 7)) v) s =
      .next (mDbg (fun d => { d with busError := false }) (mHdr page.val (fun h => { h with scratch := v }) s)))

/-- IN_DB tells the engine of a message, which sets FULL, and a 1 written to OUT_DB clears its FULL; neither does anything
when its bit 0 is 0, nor IN_DB while FULL. Bit 31 of PAGE_ERR_CODE clears the page's code and count, PAGE_IRQ_STATUS clears the
bits written as 1, PAGE_IRQ_MASK takes bits 0 and 1, and unmasking a page bit that is set requests the page's vector. The
header reads the version 0x00014301, the page's domain and whether a code stands, its code and count, its status and mask
bits and its scratch word (16 R466 to R470, R492; 02 R54). -/
def Obligations.MailboxesAndPageHeaders : Prop :=
  (∀ (v : W32) (s : State), v.getLsbD 0 = true → s.pwr.inFull = false →
    exec (.mbxInDoorbell v) s = .next { s with pwr := { s.pwr with inFull := true } }) ∧
  (∀ (v : W32) (s : State), v.getLsbD 0 = true →
    exec (.mbxOutDbClear v) s = .next { s with pwr := { s.pwr with outFull := false } }) ∧
  (∀ (v : W32) (s : State), v.getLsbD 0 = false → exec (.mbxInDoorbell v) s = .next s ∧ exec (.mbxOutDbClear v) s = .next s) ∧
  (∀ (v : W32) (s : State), s.pwr.inFull = true → exec (.mbxInDoorbell v) s = .next s) ∧
  (∀ (page : Fin 19) (v : W32) (s : State), pageOn s page.val = true →
    (v.getLsbD 31 = true →
      exec (.pageErrClear page v) s = .next (mHdr page.val (fun h => { h with code := 0, count := 0 }) s)) ∧
    (v.getLsbD 31 = false → exec (.pageErrClear page v) s = .next s) ∧
    exec (.pageIrqClear page v) s = .next (mHdr page.val (fun h =>
      { h with irqErr := h.irqErr && !v.getLsbD 0, irqSat := h.irqSat && !v.getLsbD 1 }) s) ∧
    ∃ s1, s1 = mHdr page.val (fun h => { h with maskErr := v.getLsbD 0, maskSat := v.getLsbD 1 }) s ∧
      (((hdrOf s page.val).irqErr = true ∧ (hdrOf s page.val).maskErr = true ∧ v.getLsbD 0 = false) ∨
        ((hdrOf s page.val).irqSat = true ∧ (hdrOf s page.val).maskSat = true ∧ v.getLsbD 1 = false) →
        exec (.pageIrqMaskWrite page v) s = .next (raiseVec (pageVec page.val) s1)) ∧
      (((hdrOf s page.val).irqErr = false ∨ (hdrOf s page.val).maskErr = false ∨ v.getLsbD 0 = true) →
        ((hdrOf s page.val).irqSat = false ∨ (hdrOf s page.val).maskSat = false ∨ v.getLsbD 1 = true) →
        exec (.pageIrqMaskWrite page v) s = .next s1)) ∧
  (∀ (page : Fin 19) (v : W32) (s : State), pageOn s page.val = false →
    exec (.pageErrClear page v) s = .next (holdAccess 5 (.pageErrClear page v) s) ∧
    exec (.pageIrqClear page v) s = .next (holdAccess 5 (.pageIrqClear page v) s) ∧
    exec (.pageIrqMaskWrite page v) s = .next (holdAccess 5 (.pageIrqMaskWrite page v) s)) ∧
  (∀ (page : Fin 19) (s : State), ∃ h, h = hdrOf s page.val ∧ readHeader s page.val 0x04 = 0x00014301 ∧
    readHeader s page.val 0x0C % 8 = pageDomain page.val ∧ readHeader s page.val 0x0C / 8 = (if h.count = 0 then 0 else 1) ∧
    readHeader s page.val 0x10 = b2n h.irqErr + 2 * b2n h.irqSat ∧
    readHeader s page.val 0x14 = b2n h.maskErr + 2 * b2n h.maskSat ∧
    readHeader s page.val 0x18 = h.code.toNat + h.count.toNat * 2 ^ 16 ∧
    readHeader s page.val 0x1C = h.scratch.toNat ∧
    ∀ i : Fin 8, busRead .cmc (page.val * 0x1000 + 4 * i.val) s = (false, w32 (readHeader s page.val (4 * i.val)), s))

/-! ### Keys and attestation -/

/-- The Trust Block's KEY_LOAD puts a key into any of the 40 slots, sets KEY_ACK and lets the slot's port send, unless a
ZEROISE began less than 5 cycles before; a load so discarded changes nothing. A load ends a key request of its direction that is
pending; on an UP port the slot of the next epoch then becomes that direction's next key. KEY_REQ starts a request where a key is
wanted and does nothing elsewhere. ZEROISE erases every key (02 R56 to R58; 14 R428, R429). -/
def Obligations.KeysAreLoaded : Prop :=
  (∀ (slot : Fin 40) (key : BitVec 256) (fixed : W32) (s s1 : State) (rx : Bool), loadDiscarded s = false →
    rx = (slot.val / 2 % 2 == 1) →
    s1 = { s with lsu :=
      { s.lsu with
        keys := Sparse.set {} s.lsu.keys slot.val { key := key, fixed := fixed, loaded := true }, keyAck := some slot.val } } →
    (keyReqOf (portOf s (slot.val / 4)) rx = none → exec (.keyLoad slot key fixed) s = .next (pump (slot.val / 4) s1)) ∧
    (∀ t0, keyReqOf (portOf s (slot.val / 4)) rx = some t0 → (portOf s (slot.val / 4)).st ≠ 6 →
      exec (.keyLoad slot key fixed) s = .next (pump (slot.val / 4) (setKeyReq (slot.val / 4) rx none s1))) ∧
    (∀ t0 e, keyReqOf (portOf s (slot.val / 4)) rx = some t0 → (portOf s (slot.val / 4)).st = 6 →
      e = (if rx then (portOf s (slot.val / 4)).rxEpoch else (portOf s (slot.val / 4)).txEpoch) →
      (slot.val % 2 = (e + 1) % 2 →
        exec (.keyLoad slot key fixed) s = .next (pump (slot.val / 4) (mPort (slot.val / 4)
          (fun q => if rx then { q with rxNext := true } else { q with txNext := true })
          (setKeyReq (slot.val / 4) rx none s1)))) ∧
      (slot.val % 2 ≠ (e + 1) % 2 →
        exec (.keyLoad slot key fixed) s = .next (pump (slot.val / 4) (setKeyReq (slot.val / 4) rx none s1))))) ∧
  (∀ (slot : Fin 40) (key : BitVec 256) (fixed : W32) (s : State), loadDiscarded s = true →
    exec (.keyLoad slot key fixed) s = .next s) ∧
  (∀ s : State, loadDiscarded s = true ↔ ∃ z, s.lsu.zeroised = some z ∧ (s.ccc - z).toNat < 5) ∧
  (∀ (port : Fin 10) (dir : Dir) (s : State), keyWanted s port.val (Dir.isRx dir) = true →
    exec (.keyReq port dir) s = .next (setKeyReq port.val (Dir.isRx dir) (some s.tick) s)) ∧
  (∀ (port : Fin 10) (dir : Dir) (s : State), keyWanted s port.val (Dir.isRx dir) = false →
    exec (.keyReq port dir) s = .next s) ∧
  ∀ s : State, ∃ t, exec .zeroise s = .next t ∧ t.lsu.keys = []

/-- The Trust Block's message of type 1 to 3 becomes flits on a port in ATTEST; a port in another state, and an empty message,
are ignored, and a message of a reserved type or longer than 12,288 bytes fails the attestation. A flit of the partner, in
order and of the message under way, joins it until its last one, when a message of type 1 to 3 is handed to the Trust Block; a
flit that breaks the order fails the attestation (14 R432; the failures on the Trust Block's side are the model's choice, log 69). -/
def Obligations.AttestationIsCarried : Prop :=
  (∀ (port : Fin 10) (msg : Byte) (bytes : List Byte) (s : State),
    ((portOf s port.val).st = 4 → 1 ≤ msg.toNat → msg.toNat ≤ 3 → 1 ≤ bytes.length → bytes.length ≤ 12288 →
      exec (.attMessage port msg bytes) s =
        .next (mPort port.val (fun q => { q with wire := q.wire ++ attFlits msg.toNat bytes }) s)) ∧
    ((portOf s port.val).st ≠ 4 ∨ bytes = [] → exec (.attMessage port msg bytes) s = .next s) ∧
    ((portOf s port.val).st = 4 → bytes ≠ [] → msg = 0 ∨ 4 < msg.toNat ∨ 12288 < bytes.length →
      exec (.attMessage port msg bytes) s = .next (attestFail port.val s))) ∧
  (∀ (port : Fin 10) (flit : BitVec 1024) (fec : Byte) (s0 s : State) (b : List Byte), injectedBad s0 port.val = false →
    s = fecCounted port.val fec.toNat s0 → b = leBytes 128 flit.toNat → (portOf s port.val).st = 4 →
    leAt b 0 1 % 4 = 0 → leAt b 4 1 = 3 → leAt b 8 2 = (portOf s port.val).attIdx →
    ((portOf s port.val).attIdx = 0 ∨ leAt b 5 1 = (portOf s port.val).attMsg) →
    1 ≤ leAt b 10 2 → leAt b 10 2 ≤ 112 → (portOf s port.val).attBuf.length + leAt b 10 2 ≤ 12288 →
    (1 ≤ leAt b 5 1 → leAt b 5 1 ≤ 4 → bit (leAt b 6 1) 0 = false →
      exec (.attestationFlit port ⟨flit, fec⟩) s0 = .next (mPort port.val (fun q =>
        { q with attBuf := q.attBuf ++ slice b 16 (leAt b 10 2), attMsg := leAt b 5 1, attIdx := q.attIdx + 1 }) s)) ∧
    (1 ≤ leAt b 5 1 → leAt b 5 1 ≤ 3 → bit (leAt b 6 1) 0 = true →
      exec (.attestationFlit port ⟨flit, fec⟩) s0 = .next (mLsu (fun l => { l with attOut := l.attOut ++
          [(port.val, leAt b 5 1, (portOf s port.val).attBuf ++ slice b 16 (leAt b 10 2))] })
        (mPort port.val (fun q => { q with attBuf := [], attMsg := 0, attIdx := 0 }) s)))) ∧
  (∀ (port : Fin 10) (flit : BitVec 1024) (fec : Byte) (s0 s : State) (b : List Byte), injectedBad s0 port.val = false →
    s = fecCounted port.val fec.toNat s0 → b = leBytes 128 flit.toNat → (portOf s port.val).st = 4 →
    leAt b 0 1 % 4 = 0 → leAt b 4 1 = 3 → leAt b 8 2 ≠ (portOf s port.val).attIdx →
    exec (.attestationFlit port ⟨flit, fec⟩) s0 = .next (attestFail port.val s))

/-- A port's timers. ATTEST_TIMEOUT on a port that has been in ATTEST for ATT_TIMEOUT, and TRAINING_TIMEOUT on one that has
waited 100 µs for its PHY or 10 µs in EXCHANGE: each counts a failed attempt and trains again, or fails the port at the third.
KEY_TIMEOUT in KEYS does so when KEY_TIMEOUT has passed in that state or since a request of its direction, and raises KEY_TIMEOUT;
on an UP port whose request has waited as long the key is missing. Before its time none of the three does anything (04 R126;
14 R428, R435). -/
def Obligations.PortTimersExpire : Prop :=
  (∀ (port : Fin 10) (s : State), (portOf s port.val).st = 4 → max 1 s.lsu.attTimeout.toNat ≤ stateAge s port.val →
    exec (.attestTimeout port) s = .next (trainTimeout port.val cAttestFailed s)) ∧
  (∀ (port : Fin 10) (s : State), stateAge s port.val < max 1 s.lsu.attTimeout.toNat ∨ (portOf s port.val).st ≠ 4 →
    exec (.attestTimeout port) s = .next s) ∧
  (∀ (port : Fin 10) (dir : Dir) (s : State), (portOf s port.val).st = 5 →
    (max 1 s.lsu.keyTimeout.toNat ≤ stateAge s port.val ∨
      ∃ t0, keyReqOf (portOf s port.val) (Dir.isRx dir) = some t0 ∧ max 1 s.lsu.keyTimeout.toNat ≤ s.tick - t0) →
    exec (.keyTimeout port dir) s = .next (raiseSecurity cKeyTimeout (trainTimeout port.val cKeyTimeout
      (mPort port.val (fun q => { q with failCode := cKeyTimeout }) s)))) ∧
  (∀ (port : Fin 10) (dir : Dir) (s : State) (t0 : Nat), (portOf s port.val).st = 6 →
    keyReqOf (portOf s port.val) (Dir.isRx dir) = some t0 → max 1 s.lsu.keyTimeout.toNat ≤ s.tick - t0 →
    exec (.keyTimeout port dir) s = .next (keyMissing port.val s)) ∧
  (∀ (port : Fin 10) (dir : Dir) (s : State), stateAge s port.val < max 1 s.lsu.keyTimeout.toNat →
    (∀ t0, keyReqOf (portOf s port.val) (Dir.isRx dir) = some t0 → s.tick - t0 < max 1 s.lsu.keyTimeout.toNat) →
    exec (.keyTimeout port dir) s = .next s) ∧
  (∀ (port : Fin 10) (s : State), (portOf s port.val).st = 1 → 2500 ≤ stateAge s port.val →
    exec (.trainingTimeout port) s = .next (trainTimeout port.val cLinkTrainFailed s)) ∧
  (∀ (port : Fin 10) (s : State), (portOf s port.val).st = 2 → 250 ≤ stateAge s port.val →
    exec (.trainingTimeout port) s = .next (trainTimeout port.val cLinkTrainFailed s)) ∧
  (∀ (port : Fin 10) (s : State), stateAge s port.val < 250 → exec (.trainingTimeout port) s = .next s) ∧
  (∀ (port : Fin 10) (code : W16) (s s1 : State),
    s1 = mPort port.val (fun q => { q with attempts := BitVec.ofNat 2 ((portOf s port.val).attempts.toNat + 1) }) s →
    (2 ≤ (portOf s port.val).attempts.toNat → trainTimeout port.val code s = failPort port.val code s1) ∧
    ((portOf s port.val).attempts.toNat < 2 → trainTimeout port.val code s = toPhyWait port.val (mPort port.val
      (fun q => { q.cleared with lost := q.lost, queues := q.queues }) (freeKeys port.val s1))))


/-! ### Power and reset -/

/-- Power requests. DOZE_REQUEST in run with no tag held and no context reset running enters doze; with either of them it is
refused. SLEEP_REQUEST outside sleep with no tag held and no session of an uncommitted step starts the entry into sleep, which
SLEEP_ENTRY_DONE ends 10 ticks later; with either of them it is refused. A refusal pulses PS_NAK and counts (powerNak). A
request during an entry changes REQ alone. RUN_REQUEST is a wake source of cause 1, and PS_REQ = 3 is taken as 0 (01 R35;
02 R59; 15 R455, R456, R460; the entry into doze is immediate, log 37). -/
def Obligations.PowerStatesAreRequested : Prop :=
  (∀ s : State, s.pwr.cur = 0 → s.pwr.entry = none → s.trk.tags = [] → s.rst.ctx = [] →
    exec .dozeRequest s = .next { s with pwr := { s.pwr with req := 1, cur := 1, refused := false } }) ∧
  (∀ s : State, s.pwr.cur = 0 → s.pwr.entry = none → (s.trk.tags ≠ [] ∨ s.rst.ctx ≠ []) →
    exec .dozeRequest s = .next (powerNak { s with pwr := { s.pwr with req := 1 } })) ∧
  (∀ s : State, s.pwr.cur ≠ 0 ∨ s.pwr.entry.isSome →
    exec .dozeRequest s = .next { s with pwr := { s.pwr with req := 1 } }) ∧
  (∀ s : State, s.pwr.cur ≠ 2 → s.pwr.entry = none → s.pwr.waking = none → s.trk.tags = [] → stepSessionHeld s = false →
    exec .sleepRequest s = .next { s with pwr := { s.pwr with req := 2, entry := some s.tick, refused := false } }) ∧
  (∀ s : State, s.pwr.cur ≠ 2 → s.pwr.entry = none → s.pwr.waking = none → (s.trk.tags ≠ [] ∨ stepSessionHeld s = true) →
    exec .sleepRequest s = .next (powerNak { s with pwr := { s.pwr with req := 2 } })) ∧
  (∀ s : State, s.pwr.cur = 2 ∨ s.pwr.entry.isSome ∨ s.pwr.waking.isSome →
    exec .sleepRequest s = .next { s with pwr := { s.pwr with req := 2 } }) ∧
  (∀ (s : State) (t0 : Nat), s.pwr.entry = some t0 → t0 + 10 ≤ s.tick →
    exec .sleepEntryDone s = .next { s with pwr := { s.pwr with cur := 2, iso := true, good := false, entry := none } }) ∧
  (∀ (s : State) (t0 : Nat), s.pwr.entry = some t0 → s.tick < t0 + 10 → exec .sleepEntryDone s = .next s) ∧
  (∀ (reserved : Bool) (s : State),
    exec .runRequest s = .next (wakeBy 1 { s with pwr := { s.pwr with req := 0 } })) ∧
  (∀ s : State, ∃ t, t = powerNak s ∧ t.pwr.refused = true ∧ t.pwr.nak = true ∧ t.pwr.naks = satAdd s.pwr.naks 1 ∧
    t.pwr.cur = s.pwr.cur ∧ t.pwr.entry = s.pwr.entry)

/-- Waking. A wake source in doze or sleep drives WAKE_REQ and records its cause; in an entry into sleep it cancels the entry
with PS_NAK, and in run it does nothing. In a wake from sleep ISO falls when the power is good and 40 ticks have passed. The
engine runs 64 cycles after a wake from doze began, and 50 ticks after a wake from sleep began with the power good, the time
counting from 40 ticks before PWR_GOOD where that is later. Then the watchdog counts from zero, the last THR_LIMIT sampled is in
force, and a reset that waited for the wake acts (02 R60, R70; 15 R450, R456; 01 R20, R34). -/
def Obligations.EngineWakes : Prop :=
  (∀ (reserved : Bool) (s : State), exec (.wakeSource (.psReq reserved)) s =
    .next (wakeBy 1 { s with pwr := { s.pwr with req := if reserved then 3 else 0 } })) ∧
  (∀ s : State, exec (.wakeSource .bandFlit) s = .next (wakeBy 2 s) ∧ exec (.wakeSource .doorbell) s = .next (wakeBy 3 s) ∧
    exec (.wakeSource .tileWord) s = .next (wakeBy 4 s) ∧ exec (.wakeSource .access) s = .next (wakeBy 5 s) ∧
    exec (.wakeSource .syncTimeout) s = .next (wakeBy 6 s) ∧ exec (.wakeSource .resetInput) s = .next (wakeBy 7 s)) ∧
  (∀ (k : Nat) (s : State), s.pwr.cur ≠ 0 → s.pwr.entry = none → s.pwr.waking = none →
    wakeBy k s = { s with pwr :=
      { s.pwr with
        wakeReq := true, waking := some (if s.pwr.cur = 1 then s.ccc.toNat else s.tick), wakeCause := BitVec.ofNat 4 k } }) ∧
  (∀ (k t0 : Nat) (s : State), s.pwr.cur = 0 → s.pwr.entry = some t0 → s.pwr.waking = none →
    wakeBy k s = powerNak { s with pwr := { s.pwr with entry := none, wakeCause := BitVec.ofNat 4 k } }) ∧
  (∀ (k : Nat) (s : State), awake s = true → wakeBy k s = s) ∧
  (∀ s : State, s.pwr.waking = none → exec .pwrGood s = .next { s with pwr := { s.pwr with good := true } }) ∧
  (∀ (s : State) (t0 : Nat), s.pwr.waking = some t0 → s.pwr.cur = 2 → exec .pwrGood s = .next { s with pwr :=
    { s.pwr with
      good := true, waking := some (max t0 (s.tick - 40)),
      iso := if max t0 (s.tick - 40) + 40 ≤ s.tick then false else s.pwr.iso } }) ∧
  (∀ (s : State) (t0 : Nat), s.pwr.waking = some t0 → s.pwr.cur = 2 → s.pwr.good = true → t0 + 50 ≤ s.tick →
    (s.rst.pendingKind = 0 → exec .sleepWakeDone s = .next (toRun s)) ∧
    (s.rst.pendingKind ≠ 0 → exec .sleepWakeDone s = .next (resetNow s.rst.pendingKind (toRun s)))) ∧
  (∀ (s : State) (c : Nat), s.pwr.waking = some c → s.pwr.cur = 1 → c + 64 ≤ s.ccc.toNat →
    exec .dozeWakeDone s = .next (toRun s)) ∧
  (∀ s : State, s.pwr.thrNew = [] → toRun s = { s with
    ctl := { s.ctl with wdogCount := 0 }, pwr := { s.pwr with cur := 0, waking := none, wakeReq := false, iso := false } }) ∧
  (∀ (s : State) (l : List (Byte × Nat)) (limit : Byte) (t0 : Nat), s.pwr.thrNew = l ++ [(limit, t0)] → toRun s = { s with
    ctl := { s.ctl with wdogCount := 0 },
    pwr := putLimit limit { s.pwr with cur := 0, waking := none, wakeReq := false, iso := false, thrNew := [] } })

/-- THR_LIMIT_CHANGE sets the level of THR_LIMIT. A tick's sample (thrSample) of a level that differs, after the clamp to 6 W
and 85 W, from the last one sampled waits as a change. THROTTLE_IN_FORCE puts the oldest change into force with its slot counts,
toggling THR_ACK, in run, at a frame boundary at least two ticks after its sample, and does nothing before. PEAK_CLR with bit 0
set clears the peak of the power estimate (02 R59, R61; 15 R457, R462; 02 R54). -/
def Obligations.ThrottleComesIntoForce : Prop :=
  (∀ (limit : Byte) (s : State),
    exec (.thrLimitChange limit) s = .next { s with pwr := { s.pwr with thrPin := limit } }) ∧
  (∀ s : State, clampLimit s.pwr.thrPin ≠ thrLast s.pwr →
    thrSample s = { s with pwr := { s.pwr with thrNew := s.pwr.thrNew ++ [(clampLimit s.pwr.thrPin, s.tick)] } }) ∧
  (∀ s : State, clampLimit s.pwr.thrPin = thrLast s.pwr → thrSample s = s) ∧
  (∀ l : Byte, (clampLimit l).toNat = if l.toNat < 12 then 12 else if 170 < l.toNat then 170 else l.toNat) ∧
  (∀ (s : State) (limit : Byte) (t0 : Nat) (rest : List (Byte × Nat)), s.pwr.thrNew = (limit, t0) :: rest → t0 + 2 ≤ s.tick →
    s.ccc.toNat % 16 = 0 → s.pwr.cur = 0 →
    exec .throttleInForce s = .next { s with pwr :=
      { s.pwr with
        limit := limit, capD := BitVec.ofNat 5 (16 * (limit.toNat - 12) / 158),
        capN := BitVec.ofNat 6 (63 * (limit.toNat - 12) / 158), thrAck := !s.pwr.thrAck, thrNew := rest } }) ∧
  (∀ (s : State) (limit : Byte) (t0 : Nat) (rest : List (Byte × Nat)), s.pwr.thrNew = (limit, t0) :: rest →
    (s.tick < t0 + 2 ∨ s.ccc.toNat % 16 ≠ 0 ∨ s.pwr.cur ≠ 0) → exec .throttleInForce s = .next s) ∧
  (∀ (v : W32) (s : State), v.getLsbD 0 = true → exec (.peakClr v) s = .next { s with pwr := { s.pwr with peak := 0 } }) ∧
  (∀ (v : W32) (s : State), v.getLsbD 0 = false → exec (.peakClr v) s = .next s)

/-- What a reset leaves when the engine is not asleep. Each of the three empties the sessions, the rings, the tags, the
buckets and the templates, keeps memory and the queue of commands, and has RST_DONE low. A cold and a warm reset also empty the
sync objects and the router's configuration and erase every key. An engine reset keeps the keys, the ports, the router's
configuration and the sync segments, and its LIVE objects become ORPHANED. A cold reset empties page PWR but for the reset it
records and the level of THR_LIMIT; the other two keep the mailbox and the counts of ticks (02 R68; 15 R448). -/
def Obligations.ResetsClearTheEngine : Prop :=
  ∀ s : State, s.pwr.cur ≠ 2 →
    (∃ t, exec .rstColdN s = .next t ∧ t.ses = {} ∧ t.que = {} ∧ t.trk = {} ∧ t.gas = {} ∧ t.tpl = {} ∧ t.lsu.keys = [] ∧
      t.syn = {} ∧ t.rtr = {} ∧ t.pwr = { lastReset := 3, thrPin := s.pwr.thrPin } ∧ t.mem = s.mem ∧
      t.pending = s.pending ∧ t.rst.done = false ∧ 3 ≤ t.rst.kind) ∧
    (∃ t, exec .rstWarmN s = .next t ∧ t.ses = {} ∧ t.que = {} ∧ t.trk = {} ∧ t.gas = {} ∧ t.tpl = {} ∧ t.lsu.keys = [] ∧
      t.syn = {} ∧ t.rtr = {} ∧ t.pwr.mbxOut = s.pwr.mbxOut ∧ t.pwr.mbxIn = s.pwr.mbxIn ∧ t.pwr.dozeTicks = s.pwr.dozeTicks ∧
      t.pwr.sleepTicks = s.pwr.sleepTicks ∧ t.pwr.lastReset = 2 ∧ t.mem = s.mem ∧ t.pending = s.pending ∧
      t.rst.done = false ∧ 2 ≤ t.rst.kind) ∧
    (∃ t, exec .rstEngN s = .next t ∧ t.ses = {} ∧ t.que = {} ∧ t.trk = {} ∧ t.gas = {} ∧ t.tpl = {} ∧ t.lsu = s.lsu ∧
      t.lnk = s.lnk ∧ t.rtr = keptRtr s ∧ t.syn.segments = s.syn.segments ∧
      t.syn.objects = Sparse.mapAll {} s.syn.objects (fun _ o => if o.st = .live then { o with st := .orphaned } else o) ∧
      t.pwr.mbxOut = s.pwr.mbxOut ∧ t.pwr.mbxIn = s.pwr.mbxIn ∧ t.pwr.dozeTicks = s.pwr.dozeTicks ∧
      t.pwr.sleepTicks = s.pwr.sleepTicks ∧ t.pwr.lastReset = 1 ∧ t.mem = s.mem ∧ t.pending = s.pending ∧
      t.rst.done = false ∧ 1 ≤ t.rst.kind)

/-- A reset in sleep waits for the wake, which it drives with cause 7. RST_DONE takes effect 16 ticks after the reset's
release: it is high and RESET_DONE is sent to the CMC. After an engine reset it does nothing before the outstanding MSI-X request and
every write are acknowledged; the reset drops neither (02 R68, R69; 15 R450, R456, R459). -/
def Obligations.ResetCompletes : Prop :=
  (∀ (c : Instr) (k : Nat) (s : State),
    ((c = .rstEngN ∧ k = 1) ∨ (c = .rstWarmN ∧ k = 2) ∨ (c = .rstColdN ∧ k = 3)) → s.pwr.cur = 2 → s.pwr.entry = none →
    exec c s = .next (mRst (fun r => { r with pendingKind := max k r.pendingKind, done := false }) (wakeBy 7 s))) ∧
  (∀ s : State, s.rst.kind ≠ 0 → s.rst.pendingKind = 0 → s.rst.release + 16 ≤ s.tick →
    (s.rst.kind = 1 → s.msix.outstanding = none ∧ s.emp.writes = []) →
    exec .rstDone s = .next (sendMbx 0x03 [3, w32 s.rst.kind, w32 0] { s with rst := { s.rst with done := true, kind := 0 } })) ∧
  (∀ s : State, s.rst.kind = 1 → s.msix.outstanding ≠ none ∨ s.emp.writes ≠ [] → exec .rstDone s = .next s) ∧
  (∀ s : State, s.rst.kind = 0 ∨ s.tick < s.rst.release + 16 → exec .rstDone s = .next s) ∧
  (∀ s : State, ∃ t, exec .rstEngN s = .next t ∧ t.rst.done = false ∧ t.msix.outstanding = s.msix.outstanding ∧
    t.emp.writes.length = s.emp.writes.length)

/-- A context reset. CTX_RST_REQ marks the context, ends its sessions and its parked sessions, discards its rings' heads and
completes their descriptors (endForReset, endParkForReset, clearRing: with CONTEXT_RESET), and orphans its LIVE objects and disarms
its monitors; one for a context that is being reset is merged into it. CTX_RST_ACK takes effect once no completion record of the
context's rings is outstanding: their counts are set to the producer count, WIN_STATUS bit 1 is cleared and RESET_DONE is sent; before that
it does nothing (15 R448, R449, R459; 11 R344). -/
def Obligations.ContextResets : Prop :=
  (∀ (ctx : Fin 64) (s s1 s2 s3 s4 : State), ctx.val ∉ s.rst.ctx →
    s1 = mWin ctx.val (fun w => { w with resetPending := true }) { s with rst := { s.rst with ctx := s.rst.ctx ++ [ctx.val] } } →
    s2 = foldS (ctxSlots s1 ctx.val) s1 endForReset → s3 = foldS (ctxParks s2 ctx.val) s2 endParkForReset →
    s4 = foldS (ctxRings s3 ctx.val) s3 clearRing →
    exec (.ctxRstReq ctx) s = .next (mSyn (fun y =>
      { y with monitors := Sparse.mapAll {} y.monitors fun i m => if i / 64 = ctx.val then { m with armed := false } else m })
      (orphanAll ctx.val s4))) ∧
  (∀ (slot : Nat) (s : State) (x : Session), slot? s slot = some x → x.st ≠ .rejected →
    endForReset slot s = endSession slot cContextReset s) ∧
  (∀ (ctx : Fin 64) (s : State), ctx.val ∈ s.rst.ctx → exec (.ctxRstReq ctx) s = .next s) ∧
  (∀ (ctx : Fin 64) (s s1 : State), ctx.val ∈ s.rst.ctx → ctxWriting s ctx.val = false →
    s1 = foldS (ctxRings s ctx.val) s (fun r s => mRing r (fun g => { g with head := g.producer, done := g.producer, written := [] }) s) →
    exec (.ctxRstAck ctx) s = .next (sendMbx 0x03 [3, w32 0, w32 ctx.val] (mWin ctx.val (fun w => { w with resetPending := false })
      { s1 with rst := { s1.rst with ctx := s1.rst.ctx.erase ctx.val, ctxAck := s1.rst.ctxAck ++ [ctx.val] } }))) ∧
  (∀ (ctx : Fin 64) (s : State), ctx.val ∉ s.rst.ctx ∨ ctxWriting s ctx.val = true → exec (.ctxRstAck ctx) s = .next s)

/-! ### Debug -/

/-- A freeze request by the DBG_FREEZE input, or by DBG.CTL.FREEZE while DEBUG_UNLOCK is 1, stops issue at once.
DEBUG_FREEZE_DONE takes effect when no tag is held and no write to a bucket is outstanding: the engine is frozen and FREEZES counts
one more. When the last request ends, issue and deposits go on; when the other request stands, only this one ends. Through the
debug bus neither does anything while DEBUG_UNLOCK is 0, and both wait for the wake while the clocks are gated (02 R66; 16 R494). -/
def Obligations.DebugFreezes : Prop :=
  (∀ s : State, exec (.debugFreezeRequest .input) s = .next { s with dbg := { s.dbg with freezeIn := true, issueStopped := true } }) ∧
  (∀ s : State, ctlOn s = true → exec (.debugFreezeRequest (.register true)) s =
    .next { s with dbg := { s.dbg with unlock := true, freeze := true, issueStopped := true } }) ∧
  (∀ s : State, ctlOn s = true → s.dbg.freeze = false → s.dbg.freezeIn = false →
    exec (.debugFreezeRequest (.register false)) s = .next { s with dbg := { s.dbg with unlock := false } }) ∧
  (∀ s : State, ctlOn s = true → freezeAsked s = true → s.dbg.frozen = false → s.trk.tags = [] → gasWriting s = false →
    exec .debugFreezeDone s = .next (bump pgDbg (·.dbg.freezes) (fun v t => { t with dbg := { t.dbg with freezes := v } }) 1
      { s with dbg := { s.dbg with frozen := true } })) ∧
  (∀ s : State, s.trk.tags ≠ [] ∨ gasWriting s = true → exec .debugFreezeDone s = .next s) ∧
  (∀ s : State, s.dbg.freeze = false → exec (.debugFreezeEnd .input) s = .next (releaseHeld
    { s with dbg := { s.dbg with freezeIn := false, frozen := false, issueStopped := false } })) ∧
  (∀ s : State, s.dbg.freeze = true →
    exec (.debugFreezeEnd .input) s = .next { s with dbg := { s.dbg with freezeIn := false } }) ∧
  (∀ s : State, ctlOn s = true → s.dbg.freezeIn = false → exec (.debugFreezeEnd (.register true)) s = .next (releaseHeld
    { s with dbg := { s.dbg with unlock := true, freeze := false, frozen := false, issueStopped := false } })) ∧
  (∀ s : State, ctlOn s = true → s.dbg.freezeIn = true →
    exec (.debugFreezeEnd (.register true)) s = .next { s with dbg := { s.dbg with unlock := true, freeze := false } }) ∧
  (∀ s : State, ctlOn s = true → freezeAsked s = true →
    exec (.debugFreezeEnd (.register false)) s = .next { s with dbg := { s.dbg with unlock := false } }) ∧
  (∀ (unlock : Bool) (s : State), ctlOn s = false →
    exec (.debugFreezeRequest (.register unlock)) s = .next (holdAccess 5 (.debugFreezeRequest (.register unlock)) s) ∧
    exec (.debugFreezeEnd (.register unlock)) s = .next (holdAccess 5 (.debugFreezeEnd (.register unlock)) s))

/-- The debug window. While DEBUG_UNLOCK is 1 a write of DBG.SEL selects one of the nine targets, and a reserved target is
ignored and records CONFIG_INVALID; a read of the low half of DBG.DATA returns and latches the addressed word (free for the palm
and for a data memory in use, log 22), a target of 6 to 8 read while not frozen gives zero and records ACCESS_DENIED, an index
beyond the target gives zero and records FIELD_INVALID, and the high half returns the latch and goes on to the next word. With
DEBUG_UNLOCK at 0 a write does nothing and a read gives zero. SYN's debug selector restarts the list of an object's waiters, and each
read returns the next until none is left, when it returns zero. Each waits for the wake while its domain is gated (02 R54, R66;
16 R495; 11 R361). -/
def Obligations.DebugWindowsRead : Prop :=
  (∀ (v : W32) (s : State), ctlOn s = true →
    (bits v.toNat 3 0 ≤ 8 →
      exec (.dbgSelWrite ⟨true, v⟩) s = .next { s with dbg := { s.dbg with unlock := true, sel := v.extractLsb' 0 4 } }) ∧
    (8 < bits v.toNat 3 0 → exec (.dbgSelWrite ⟨true, v⟩) s = .next (pageErr pgDbg cConfigInvalid
      { s with dbg := { s.dbg with unlock := true } })) ∧
    exec (.dbgSelWrite ⟨false, v⟩) s = .next { s with dbg := { s.dbg with unlock := false } }) ∧
  (∀ s s1 : State, ctlOn s = true → s1 = { s with dbg := { s.dbg with unlock := true } } →
    (s.dbg.sel.toNat < 6 ∨ s.dbg.frozen = true → s.dbg.addr.toNat < dbgWords s → dbgFree s = false →
      exec (.dbgDataRead ⟨true, false⟩) s = .next (dbgLatch (dbgWord s1 s.dbg.addr.toNat) s1)) ∧
    (s.dbg.sel.toNat < 6 ∨ s.dbg.frozen = true → s.dbg.addr.toNat < dbgWords s → dbgFree s = true →
      exec (.dbgDataRead ⟨true, false⟩) s = .next { dbgLatch (Config.freeWord s.free) s1 with free := s.free + 1 }) ∧
    (6 ≤ s.dbg.sel.toNat → s.dbg.frozen = false →
      exec (.dbgDataRead ⟨true, false⟩) s = .next (dbgLatch 0 (pageErr pgDbg cAccessDenied s1))) ∧
    (s.dbg.sel.toNat < 6 ∨ s.dbg.frozen = true → dbgWords s ≤ s.dbg.addr.toNat →
      exec (.dbgDataRead ⟨true, false⟩) s = .next (dbgLatch 0 (pageErr pgDbg cFieldInvalid s1))) ∧
    exec (.dbgDataRead ⟨true, true⟩) s =
      .next { s with dbg := { s.dbg with unlock := true, readData := s.dbg.latch, addr := s.dbg.addr + 1 } }) ∧
  (∀ (high : Bool) (s : State), ctlOn s = true →
    exec (.dbgDataRead ⟨false, high⟩) s = .next { s with dbg := { s.dbg with unlock := false, readData := 0 } }) ∧
  (∀ (v : W64) (s : State), dbgLatch v s = { s with dbg :=
    { s.dbg with readData := v.extractLsb' 0 32, latch := v.extractLsb' 32 32 } }) ∧
  (∀ (v : W32) (s : State), fabricOn s = true →
    exec (.synDbgSelWrite v) s = .next { s with syn := { s.syn with dbgSel := v.extractLsb' 0 18, dbgNext := 0 } }) ∧
  (∀ s : State, fabricOn s = true → dbgWaiter s ≠ 0 → exec .dbgWaiterRead s = .next { s with
    syn := { s.syn with dbgNext := s.syn.dbgNext + 1 }, dbg := { s.dbg with readData := dbgWaiter s } }) ∧
  (∀ s : State, fabricOn s = true → dbgWaiter s = 0 →
    exec .dbgWaiterRead s = .next { s with dbg := { s.dbg with readData := 0 } }) ∧
  (∀ (unlock high : Bool) (v : W32) (s : State), ctlOn s = false →
    exec (.dbgSelWrite ⟨unlock, v⟩) s = .next (holdAccess 5 (.dbgSelWrite ⟨unlock, v⟩) s) ∧
    exec (.dbgDataRead ⟨unlock, high⟩) s = .next (holdAccess 5 (.dbgDataRead ⟨unlock, high⟩) s)) ∧
  (∀ (v : W32) (s : State), fabricOn s = false →
    exec (.synDbgSelWrite v) s = .next (holdAccess 5 (.synDbgSelWrite v) s) ∧
    exec .dbgWaiterRead s = .next (holdAccess 5 .dbgWaiterRead s))

/-! ### Routing and links -/

/-- Route holds. ROUTE_HOLD sets HOLD. HOLD_DONE takes effect when no packet of this chip is partly injected, and only with
HOLD_DONE set is a ring-map entry written: without it, or with an entry that breaks a rule of the map, the write records
CONFIG_INVALID. The release clears HOLD, settles HOLD_DONE, computes the machine and domain trees and lets the ports send. Each
waits for the wake while the Fabric domain is gated (03 R76, R89, R90; 11 R352; 02 R54). -/
def Obligations.RoutesAreHeld : Prop :=
  (∀ s : State, fabricOn s = true → exec .routeHold s = .next { s with rtr := { s.rtr with hold := true } }) ∧
  (∀ s : State, fabricOn s = true → s.rtr.hold = true → injecting s = false →
    exec .holdDone s = .next { s with rtr := { s.rtr with holdDone := true } }) ∧
  (∀ s : State, s.rtr.hold = false ∨ injecting s = true → exec .holdDone s = .next s) ∧
  (∀ (v : W32) (s : State) (e : RingMap), fabricOn s = true →
    e = { excluded := v.extractLsb' 0 5, x0 := v.extractLsb' 5 5, dead := v.getLsbD 10 } →
    (s.rtr.holdDone = true → ringMapBad s e = false → exec (.ringMapWrite v) s =
      .next (mRtr (fun r => { r with ringMap := Sparse.set {} r.ringMap r.ringIndex.toNat e }) s)) ∧
    (s.rtr.holdDone = false ∨ ringMapBad s e = true → exec (.ringMapWrite v) s = .next (pageErr pgRtr cConfigInvalid s))) ∧
  (∀ s s1 : State, fabricOn s = true → s1 = settleHold { s with rtr := { s.rtr with hold := false } } →
    exec .routeHoldRelease s = .next (foldS (List.range 10) { s1 with syn :=
      { s1.syn with treeMachine := (scopeTree s1 0).word, treeDomain := (scopeTree s1 16).word } } pump)) ∧
  (∀ (v : W32) (s : State), fabricOn s = false →
    exec .routeHold s = .next (holdAccess 5 .routeHold s) ∧
    exec .routeHoldRelease s = .next (holdAccess 5 .routeHoldRelease s) ∧
    exec (.ringMapWrite v) s = .next (holdAccess 5 (.ringMapWrite v) s))

/-- HEADER_ROUTE takes the packet that its input offers next (nextHeader) and does what decideRoute says of it. At its
destination it goes to the inbox, a band message waking the engine with cause 2, unless it is a reserved band message, which is counted
and dropped; one with nowhere to go is discarded; any other is queued toward a port on the VC chosen with one hop more, its
FLAGS[1] saying whether it moved to VC7, an adaptive choice being recorded first; a PAIR or TOPK packet whose link lacks the
capability is discarded. With no packet to offer nothing happens (03 R83 to R87, R91; 12 R374; 15 R456). -/
def Obligations.HeadersAreRouted : Prop :=
  (∀ (i : Fin 11) (s s1 : State) (k : Packet), fabricOn s = true →
    nextHeader s (Sparse.get [] s.rtr.inputs i.val) = some k →
    s1 = mRtr (fun r => { r with inputs := Sparse.modify [] r.inputs i.val (·.erase k) }) s →
    (decideRoute s k = .deliver → k.isBand = false → exec (.headerRoute i) s =
      .next (leaveBuffer k (mRtr (fun r => { r with inbox := r.inbox ++ [k] }) s1))) ∧
    (decideRoute s k = .deliver → k.isBand = true → bandReserved k = false → exec (.headerRoute i) s =
      .next (wakeBy 2 (leaveBuffer k (mRtr (fun r => { r with inbox := r.inbox ++ [k] }) s1)))) ∧
    (decideRoute s k = .deliver → k.isBand = true → bandReserved k = true → exec (.headerRoute i) s =
      .next (leaveBuffer k (countBandDrop s1))) ∧
    (decideRoute s k = .drop → exec (.headerRoute i) s = .next (leaveBuffer k (discardPkt k s1))) ∧
    (∀ p enter v on7 counted s2, decideRoute s k = .go p enter v on7 counted →
      s2 = (if counted && !fenced s then choice 0 0 0 s1 else s1) →
      (capLacks s p k = false ∨ fenced s = true → exec (.headerRoute i) s = .next (queueTo p
        { k with vc := v, hops := min 255 (k.hops + 1), flags := k.flags - 2 * b2n (bit k.flags 1) + 2 * b2n on7 } enter s2)) ∧
      (capLacks s p k = true → fenced s = false →
        exec (.headerRoute i) s = .next (leaveBuffer k (discardPkt k s2))))) ∧
  (∀ (i : Fin 11) (s : State), nextHeader s (Sparse.get [] s.rtr.inputs i.val) = none → exec (.headerRoute i) s = .next s)

/-- The PHY's events. A lock in PHY_WAIT starts the exchange, and in another state it is noted only; the loss of the lock or of a lane takes
an UP link down with LINK_LOST; a PHY that appears starts the training of a DOWN port that may train, and one that goes takes an UP
link down with LINK_LOST and any other port that is not DOWN to DOWN, or back to PHY_WAIT where it may train (02 R50, R51; 04 R126). -/
def Obligations.PhyEventsMoveThePort : Prop :=
  (∀ (port : Fin 10) (s : State), (portOf s port.val).st = 1 →
    exec (.phyLock port) s = .next (mPort port.val (fun q =>
      { q with
        lock := true, laneOk := 0xFFFF, trainReq := false, seenRx := false, rxSeen := false, txSeen := false, st := 2,
        stateTick := s.tick }) s)) ∧
  (∀ (port : Fin 10) (s : State), (portOf s port.val).st ≠ 1 →
    exec (.phyLock port) s = .next (mPort port.val (fun q => { q with lock := true, laneOk := 0xFFFF }) s)) ∧
  (∀ (port : Fin 10) (lock : Bool) (lanes : W16) (s : State), (portOf s port.val).st = 6 → (lock = false ∨ lanes ≠ 0xFFFF) →
    exec (.linkLost port lock lanes) s = .next (linkDown port.val (some cLinkLost) true false
      (mPort port.val (fun q => { q with lock := lock, laneOk := lanes }) s))) ∧
  (∀ (port : Fin 10) (lock : Bool) (lanes : W16) (s : State),
    (portOf s port.val).st ≠ 6 ∨ (lock = true ∧ lanes = 0xFFFF) →
    exec (.linkLost port lock lanes) s = .next (mPort port.val (fun q => { q with lock := lock, laneOk := lanes }) s)) ∧
  (∀ (port : Fin 10) (s s1 : State), s1 = mPort port.val (fun q => { q with present := true }) s →
    ((portOf s port.val).st = 0 → mayTrain s1 port.val = true →
      exec (.phyPresentChange port true) s = .next (toPhyWait port.val s1)) ∧
    ((portOf s port.val).st ≠ 0 ∨ mayTrain s1 port.val = false → exec (.phyPresentChange port true) s = .next s1)) ∧
  (∀ (port : Fin 10) (s s1 : State), s1 = mPort port.val (fun q => { q with present := false }) s →
    ((portOf s port.val).st = 6 → exec (.phyPresentChange port false) s =
      .next (linkDown port.val (some cLinkLost) true false s1)) ∧
    ((portOf s port.val).st = 0 → exec (.phyPresentChange port false) s = .next s1) ∧
    ((portOf s port.val).st ≠ 0 → (portOf s port.val).st ≠ 6 → exec (.phyPresentChange port false) s =
      .next (toDown port.val (mPort port.val (fun q => { q.cleared with lost := q.lost, queues := q.queues })
        (freeKeys port.val s1)))))

/-- Training. In EXCHANGE a training flit of the partner is recorded with its version, capabilities and chip, and each training
flit sent carries SEEN once one was received; when SEEN was both sent and received the exchange is judged (mapCheck). Any other
flit is counted only. A 1 written to RETRAIN takes the link down and starts over with no attempt counted, and a 0 does nothing. A map
entry is written with HOLD_DONE set and otherwise records CONFIG_INVALID; EN = 0 takes a link that is not DOWN down, EN = 1 lets a DOWN or
FAILED port start over. RETRAIN and the map wait for the wake while the Fabric domain is gated (04 R126, R127, R137; 03 R104; 02 R54). -/
def Obligations.PortsTrain : Prop :=
  (∀ (port : Fin 10) (flit : BitVec 1024) (fec : Byte) (s0 s : State) (b : List Byte), injectedBad s0 port.val = false →
    s = fecCounted port.val fec.toNat s0 → b = leBytes 128 flit.toNat →
    ((portOf s port.val).st = 2 → leAt b 0 1 % 4 = 0 → leAt b 4 1 = 2 →
      exec (.trainingFlit port ⟨flit, fec⟩) s0 = .next (exchangeDone port.val (mPort port.val (fun q =>
        { q with
          seenRx := true, rxSeen := q.rxSeen || bit (leAt b 6 1) 0, peerVersion := BitVec.ofNat 4 (leAt b 5 1),
          peerCaps := BitVec.ofNat 4 (leAt b 8 4), partner := some (Coord.ofWord (leAt b 12 4)) }) s))) ∧
    ((portOf s port.val).st ≠ 2 ∨ leAt b 0 1 % 4 ≠ 0 ∨ leAt b 4 1 ≠ 2 → exec (.trainingFlit port ⟨flit, fec⟩) s0 = .next s)) ∧
  (∀ (port : Fin 10) (s : State), (portOf s port.val).st = 2 →
    exec (.trainingFlitSend port) s = .next (exchangeDone port.val (mPort port.val (fun q =>
      { q with wire := q.wire ++ [trainingBytes s port.val], txSeen := q.txSeen || q.seenRx }) s))) ∧
  (∀ (port : Fin 10) (s : State), (portOf s port.val).st ≠ 2 → exec (.trainingFlitSend port) s = .next s) ∧
  (∀ (p : Nat) (s : State), (portOf s p).st = 2 →
    exchangeDone p s = if (portOf s p).rxSeen && (portOf s p).txSeen then mapCheck p s else s) ∧
  (∀ (port : Fin 10) (v : W32) (s : State), fabricOn s = true →
    (v.getLsbD 0 = true → exec (.portRetrain port v) s =
      .next (linkDown port.val none false false (mPort port.val (fun q => { q with attempts := 0 }) s))) ∧
    (v.getLsbD 0 = false → exec (.portRetrain port v) s = .next s)) ∧
  (∀ (port : Fin 10) (v : W32) (s s1 : State), fabricOn s = true →
    s1 = { s with rtr := { s.rtr with portMap := Sparse.set 0 s.rtr.portMap port.val (v.extractLsb' 0 20) } } →
    (s.rtr.holdDone = false → exec (.portMapWrite port v) s = .next (pageErr pgRtr cConfigInvalid s)) ∧
    (s.rtr.holdDone = true → v.getLsbD 19 = false → (portOf s port.val).st = 0 →
      exec (.portMapWrite port v) s = .next s1) ∧
    (s.rtr.holdDone = true → v.getLsbD 19 = false → (portOf s port.val).st ≠ 0 →
      exec (.portMapWrite port v) s = .next (linkDown port.val none false false s1)) ∧
    (s.rtr.holdDone = true → v.getLsbD 19 = true → (portOf s port.val).st = 0 ∨ (portOf s port.val).st = 7 →
      exec (.portMapWrite port v) s = .next (toDown port.val (mPort port.val (fun q => { q with attempts := 0 }) s1))) ∧
    (s.rtr.holdDone = true → v.getLsbD 19 = true → (portOf s port.val).st ≠ 0 → (portOf s port.val).st ≠ 7 →
      exec (.portMapWrite port v) s = .next s1)) ∧
  (∀ (port : Fin 10) (v : W32) (s : State), fabricOn s = false →
    exec (.portRetrain port v) s = .next (holdAccess 5 (.portRetrain port v) s) ∧
    exec (.portMapWrite port v) s = .next (holdAccess 5 (.portMapWrite port v) s))

/-- Frames. On an UP port the next traffic flit of the frame is held with the frame, decrypted and given to the
reassembly of its packet; a flit or an LCF of a frame already accepted is counted as a duplicate; an uncorrectable one is counted
and asks for a replay. The LCF of the frame under way ends it: with the frame's tag it is accepted, with its acknowledgement and credits
applied, and with another tag it is an authentication failure. LCF_SEND sends the LCF that is due while the retry buffer has room.
RETRY_TIMEOUT asks for a replay from the oldest frame held when TIMEOUT_LOOPS credit loops have passed without an acknowledgement,
and does nothing before (04 R111, R113, R120, R121, R123; that LCF_SEND waits for room is the model's choice, log 65). -/
def Obligations.FramesAreExchanged : Prop :=
  (∀ (port : Fin 10) (flit : BitVec 1024) (index : Fin 63) (fec : Byte) (s0 s s1 s2 : State) (b : List Byte),
    injectedBad s0 port.val = false → s = fecCounted port.val fec.toNat s0 → portUp s port.val = true →
    b = leBytes 128 flit.toNat → leAt b 0 1 % 4 ≠ 0 → index.val = (portOf s port.val).rxIdx → rxKeyReady s port.val = true →
    serialGt (portOf s port.val).rxSeq (portOf s port.val).rxSeq = false → s1 = rxFrameStart port.val s →
    s2 = mPort port.val (fun q =>
      { q with
        rxFlits := q.rxFlits ++ [⟨BitVec.ofNat 32 (leAt b 0 4), slice b 4 124⟩], rxIdx := q.rxIdx + 1, rxF := q.rxF + 1,
        discarding := false }) s1 → fenced s2 = false →
    exec (.flitReceive port flit (portOf s port.val).rxSeq index false fec) s0 = .next (reassemble port.val
      (portOf s port.val).rxSeq (BitVec.ofNat 32 (leAt b 0 4))
      (gcmCrypt (gcmKeys s1 port.val true (portOf s1 port.val).rxEpoch)
        (frameIv s1 port.val true (portOf s1 port.val).rxEpoch (portOf s port.val).rxSeq) (124 * (portOf s port.val).rxIdx)
        (slice b 4 124)) s2)) ∧
  (∀ (port : Fin 10) (flit : BitVec 1024) (frame : W32) (index : Fin 63) (fec : Byte) (s0 s : State),
    injectedBad s0 port.val = false → s = fecCounted port.val fec.toNat s0 → portUp s port.val = true →
    leAt (leBytes 128 flit.toNat) 0 1 % 4 ≠ 0 → serialGt (portOf s port.val).rxSeq frame = true →
    exec (.flitReceive port flit frame index false fec) s0 = .next (countDup port.val 1 s)) ∧
  (∀ (port : Fin 10) (flit : BitVec 1024) (frame : W32) (index : Fin 63) (fec : Byte) (s0 s : State),
    injectedBad s0 port.val = false → s = countUncorr port.val (fecCounted port.val fec.toNat s0) →
    (portUp s port.val = true → exec (.flitReceive port flit frame index true fec) s0 = .next (mPort port.val (fun q =>
      { q with discarding := true, nakDue := some q.rxSeq }) s)) ∧
    (framing s port.val = true → exec (.lcfReceive port ⟨flit, fec⟩ true) s0 = .next (mPort port.val (fun q =>
      { q with discarding := true, nakDue := some q.rxSeq }) s))) ∧
  (∀ (port : Fin 10) (flit : BitVec 1024) (fec : Byte) (s0 s : State) (b : List Byte) (seq : W32),
    injectedBad s0 port.val = false → s = fecCounted port.val fec.toNat s0 → framing s port.val = true →
    b = leBytes 128 flit.toNat → leAt b 0 1 % 4 = 0 → leAt b 4 1 = 1 → seq = BitVec.ofNat 32 (leAt b 8 4) →
    (serialGt (portOf s port.val).rxSeq seq = true →
      exec (.lcfReceive port ⟨flit, fec⟩ false) s0 = .next (countDup port.val 1 s)) ∧
    (serialGt (portOf s port.val).rxSeq seq = false → (portOf s port.val).rxSeq = seq →
      (portOf s port.val).discarding = false → rxKeyReady s port.val = true →
      (frameTag (rxFrameStart port.val s) port.val b = slice b 112 16 → exec (.lcfReceive port ⟨flit, fec⟩ false) s0 =
        .next (pump port.val (linkUp port.val (applyLcf port.val b (passFrame port.val seq (rxFrameStart port.val s)))))) ∧
      (frameTag (rxFrameStart port.val s) port.val b ≠ slice b 112 16 → exec (.lcfReceive port ⟨flit, fec⟩ false) s0 =
        .next (authFail port.val seq (rxFrameStart port.val s))))) ∧
  (∀ (port : Fin 10) (s : State), framing s port.val = true → txKeyReady s port.val = true → lcfDue s port.val = true →
    retryHeld (portOf s port.val) < retryFlits →
    exec (.lcfSend port) s = .next (pump port.val (linkUp port.val (lcfEmit port.val s)))) ∧
  (∀ (port : Fin 10) (s : State) (f : Frame) (rest : List Frame), (portOf s port.val).retry = f :: rest →
    framing s port.val = true →
    max 1 s.lnk.timeoutLoops.toNat * creditLoop s port.val ≤ (s.tick - (portOf s port.val).ackTick) * 4000 →
    exec (.retryTimeout port) s = .next (askReplay port.val f.seq s)) ∧
  (∀ (port : Fin 10) (s : State), (portOf s port.val).retry = [] ∨
    (s.tick - (portOf s port.val).ackTick) * 4000 < max 1 s.lnk.timeoutLoops.toNat * creditLoop s port.val →
    exec (.retryTimeout port) s = .next s)


/-! ### Arriving packets -/

/-- A packet in the inbox leaves it for the block it is for: CHUNK_RECEIVE takes the first chunk, EXPERT_PACKET the first expert packet,
which is placed when its KIND is 0 to 2 and dropped otherwise, MIRROR_PACKET the first mirror packet, for the RESTORE under way or for
this chip as a buddy, and CLEAR_TO_SEND the first such message: the SEND session that it names, with its COUNT and FMT_OUT, may send,
one with another COUNT or FMT_OUT ends with FIELD_INVALID, and a message that names none changes nothing (05 R141; 09 R294; 10 R322,
R324). -/
def Obligations.PacketsReachTheirBlocks : Prop :=
  (∀ (s s1 : State) (k : Packet), ctlOn s = true → takeInbox isChunkPkt s = some (k, s1) →
    exec .chunkReceive s = .next (placeChunk k s1)) ∧
  (∀ (s s1 : State) (k : Packet), ctlOn s = true → takeInbox isExpertPkt s = some (k, s1) →
    exec .expertPacket s = .next (if (expertHdr k).kind ≤ 2 then placeExpert k s1 else s1)) ∧
  (∀ (s s1 : State) (k : Packet), ctlOn s = true → empReady s = true → takeInbox isMirrorPkt s = some (k, s1) →
    exec .mirrorPacket s = .next (if forRestore s1 k then restorePacket k s1 else buddyPacket k s1)) ∧
  (∀ (s s1 : State) (k : Packet) (m : Band) (count fmt i : Nat) (x : Session), ctlOn s = true →
    takeBand 0x07 s = some (k, m, s1) → m.msg = .clearToSend count fmt → slotOfGsid s1 k.session = some i →
    slot? s1 i = some x →
    (x.d.opc = 0x04 → x.d.count = count → x.d.fmtOut = fmt →
      exec .clearToSend s = .next (progress i (mSlot i (fun x => { x with cts := true }) s1))) ∧
    (x.d.opc = 0x04 → (x.d.count ≠ count ∨ x.d.fmtOut ≠ fmt) → exec .clearToSend s = .next (endSpx i cFieldInvalid s1)) ∧
    (x.d.opc ≠ 0x04 → exec .clearToSend s = .next s1)) ∧
  (∀ (s s1 : State) (k : Packet) (m : Band), ctlOn s = true → takeBand 0x07 s = some (k, m, s1) →
    slotOfGsid s1 k.session = none → exec .clearToSend s = .next s1) ∧
  (∀ (ok : Packet → Bool) (s : State) (k : Packet), s.rtr.inbox.find? ok = some k →
    takeInbox ok s = some (k, { s with rtr := { s.rtr with inbox := s.rtr.inbox.erase k } }))

/-! ### Rings, templates and tables -/

/-- A doorbell of an enabled ring sets PRODUCER when the value is at or after PRODUCER and leaves no more than the ring's
size between it and DONE, and cancels an entry into sleep with cause 3; a value out of that range raises DOORBELL_INVALID, a disabled
ring records QUEUE_DISABLED and a spare chip SPARE_INACTIVE, each in the ring's code too. A context that rings another context's ring is
denied, and the doorbell of a context under reset is discarded. While the clocks are gated a doorbell wakes the engine, with cause 3
where it would be accepted, and waits (05 R153, R156, R175; 03 R95; 02 R54, R70; 15 R456; that an accepted doorbell leaves the ring's code is
the model's choice, log 63). -/
def Obligations.DoorbellsAreTaken : Prop :=
  (∀ (who : Requester) (ctx : Fin 64) (ring : Fin 256) (count : W32) (s : State) (g : Ring), ctlOn s = true →
    g = ringOf s ring.val →
    (mayReach who ctx.val g.ctx.toNat = false →
      exec (.doorbell who ctx ring count) s = .next (denyWindow pgQue ctx.val s)) ∧
    (mayReach who ctx.val g.ctx.toNat = true → g.ctx.toNat ∈ s.rst.ctx → exec (.doorbell who ctx ring count) s = .next s) ∧
    (mayReach who ctx.val g.ctx.toNat = true → g.ctx.toNat ∉ s.rst.ctx →
      (s.rtr.isSpare = true → exec (.doorbell who ctx ring count) s = .next (ringCode ring.val cSpareInactive s)) ∧
      (s.rtr.isSpare = false → g.enable = false →
        exec (.doorbell who ctx ring count) s = .next (ringCode ring.val cQueueDisabled s)) ∧
      (s.rtr.isSpare = false → g.enable = true →
        (serialGe count g.producer = true → (count - g.done).toNat ≤ 2 ^ g.sizeLog2.toNat →
          exec (.doorbell who ctx ring count) s = .next (mRing ring.val (fun g => { g with producer := count })
            (if s.pwr.entry.isSome then wakeBy 3 s else s))) ∧
        (serialGe count g.producer = false ∨ 2 ^ g.sizeLog2.toNat < (count - g.done).toNat →
          exec (.doorbell who ctx ring count) s =
            .next (raiseError cDoorbellInvalid (ringCode ring.val cDoorbellInvalid s)))))) ∧
  (∀ (who : Requester) (ctx : Fin 64) (ring : Fin 256) (count : W32) (s : State), ctlOn s = false →
    exec (.doorbell who ctx ring count) s = .next (holdAccess
      (if bellAccepted who ctx.val ring.val count s then 3 else 5) (.doorbell who ctx ring count) s))

/-- A template entry is installed from the sixteen data words unless a session holds it, which records TEMPLATE_BUSY, or it
breaks a rule of R151, which records CONFIG_INVALID; it is read back into the data words, and invalidated by clearing its VALID bit
alone unless a session holds it. Each waits for the wake while the clocks are gated (05 R151, R178; 02 R54; a reserved format code breaks one
of them, log 71). -/
def Obligations.TemplatesAreWritten : Prop :=
  (∀ s : State, ctlOn s = true → tplOpen s s.tpl.index.toNat = 0 →
    (tplBad s (tplStaged s) = false → exec .tplInstall s = .next { s with tpl :=
      { s.tpl with entries := Sparse.set 0 s.tpl.entries s.tpl.index.toNat (tplStaged s) } }) ∧
    (tplBad s (tplStaged s) = true → exec .tplInstall s = .next (pageErr pgTpl cConfigInvalid s)) ∧
    exec .tplInvalidate s = .next { s with tpl :=
      { s.tpl with entries := Sparse.modify 0 s.tpl.entries s.tpl.index.toNat fun e => e &&& ~~~(1#512 <<< 63) } }) ∧
  (∀ s : State, ctlOn s = true → 0 < tplOpen s s.tpl.index.toNat →
    exec .tplInstall s = .next (pageErr pgTpl cTemplateBusy s) ∧
    exec .tplInvalidate s = .next (pageErr pgTpl cTemplateBusy s)) ∧
  (∀ s : State, ctlOn s = true → ∃ t, exec .tplRead s = .next t ∧ t.tpl.entries = s.tpl.entries ∧ t.tpl.index = s.tpl.index ∧
    (∀ k < 16, Sparse.get 0 t.tpl.data k =
      BitVec.ofNat 32 (bits (tplOf s s.tpl.index.toNat).toNat (32 * k + 31) (32 * k))) ∧ t.ses = s.ses ∧ t.mem = s.mem) ∧
  (∀ s : State, ctlOn s = false →
    exec .tplInstall s = .next (holdAccess 5 .tplInstall s) ∧ exec .tplRead s = .next (holdAccess 5 .tplRead s) ∧
    exec .tplInvalidate s = .next (holdAccess 5 .tplInvalidate s))

/-- Regions, deposit entries and rings are configured. A region entry that no session uses is written unless it is one that
regionBad refuses, which records CONFIG_INVALID; one in use records REGION_BUSY. An idle ring that is disabled is enabled with its size and
context and its counts at 0; one that is not idle records REGION_BUSY and a size out of 4 to 16 records CONFIG_INVALID. ENABLE = 0 on an enabled
ring turns it off (ringOff), and on an idle disabled one writes its size and context. A deposit entry is written unless a session names
it, which records REGION_BUSY. Each waits for the wake while the clocks are gated (05 R160, R174, R175; 07 R241; 02 R54). -/
def Obligations.RingsAndRegionsAreConfigured : Prop :=
  (∀ (v : W32) (s : State) (reg ctx : Nat), ctlOn s = true → reg = bits s.ses.regIndex.toNat 7 0 →
    ctx = bits s.ses.regIndex.toNat 21 16 →
    (regionUsers s ctx reg = 0 → regionBad s (v.getLsbD 0) (bits v.toNat 5 4) s.ses.regBase.toNat s.ses.regLen.toNat = false →
      exec (.regionEntryWrite v) s = .next { s with ses := { s.ses with regions := (Sparse.set {} s.ses.regions
        (ctx * 256 + reg)
        { base := s.ses.regBase, len := s.ses.regLen, valid := v.getLsbD 0, rd := v.getLsbD 1, wr := v.getLsbD 2,
          kind := BitVec.ofNat 2 (bits v.toNat 5 4) }) } }) ∧
    (regionUsers s ctx reg = 0 → regionBad s (v.getLsbD 0) (bits v.toNat 5 4) s.ses.regBase.toNat s.ses.regLen.toNat = true →
      exec (.regionEntryWrite v) s = .next (pageErr pgSes cConfigInvalid s)) ∧
    (0 < regionUsers s ctx reg → exec (.regionEntryWrite v) s = .next (pageErr pgSes cRegionBusy s))) ∧
  (∀ (v : W32) (s : State) (g : Ring), ctlOn s = true → v.getLsbD 0 = true → g = ringOf s s.que.ringIndex.toNat →
    (g.enable = false → g.idle = true → 4 ≤ bits v.toNat 5 1 → bits v.toNat 5 1 ≤ 16 →
      exec (.ringEnable v) s = .next (mRing s.que.ringIndex.toNat (fun g =>
        { g with
          sizeLog2 := BitVec.ofNat 5 (bits v.toNat 5 1), ctx := BitVec.ofNat 6 (bits v.toNat 11 6), enable := true,
          producer := 0, head := 0, done := 0, written := [] }) s)) ∧
    (g.idle = false → exec (.ringEnable v) s = .next (pageErr pgQue cRegionBusy s)) ∧
    (g.idle = true → g.enable = true → exec (.ringEnable v) s = .next s) ∧
    (g.idle = true → g.enable = false → bits v.toNat 5 1 < 4 ∨ 16 < bits v.toNat 5 1 →
      exec (.ringEnable v) s = .next (pageErr pgQue cConfigInvalid s))) ∧
  (∀ (v : W32) (s : State) (g : Ring), ctlOn s = true → v.getLsbD 0 = false → g = ringOf s s.que.ringIndex.toNat →
    (g.enable = true → exec (.ringDisable v) s = .next (ringOff s.que.ringIndex.toNat s)) ∧
    (g.enable = false → g.idle = true → 4 ≤ bits v.toNat 5 1 → bits v.toNat 5 1 ≤ 16 →
      exec (.ringDisable v) s = .next (mRing s.que.ringIndex.toNat (fun g =>
        { g with
          sizeLog2 := BitVec.ofNat 5 (bits v.toNat 5 1), ctx := BitVec.ofNat 6 (bits v.toNat 11 6), enable := false }) s))) ∧
  (∀ (v : W64) (s : State), ctlOn s = true →
    (cfgNamed s [0x02] s.ses.depIndex.toNat = false →
      exec (.depositEntryWrite v) s = .next { s with ses := { s.ses with dep := (Sparse.set 0 s.ses.dep s.ses.depIndex.toNat
        (v &&& 0x80FFFFFFFFFFFF01)) } }) ∧
    (cfgNamed s [0x02] s.ses.depIndex.toNat = true →
      exec (.depositEntryWrite v) s = .next (pageErr pgSes cRegionBusy s))) ∧
  (∀ (v : W32) (w : W64) (s : State), ctlOn s = false →
    exec (.regionEntryWrite v) s = .next (holdAccess 5 (.regionEntryWrite v) s) ∧
    exec (.ringEnable v) s = .next (holdAccess 5 (.ringEnable v) s) ∧
    exec (.ringDisable v) s = .next (holdAccess 5 (.ringDisable v) s) ∧
    exec (.depositEntryWrite w) s = .next (holdAccess 5 (.depositEntryWrite w) s))

/-- Writing word 0 commits a table entry with its held words, and forgets them: a FIN, ROW or SPX entry that no session names
and that breaks no rule, a bucket entry while the step is disabled, an OPT entry, a microprogram word while the step is disabled, a stash entry that
no session names, with a size of 2^12 to 2^30 bytes and at least one place. An entry in use records REGION_BUSY and one that breaks a rule CONFIG_INVALID.
A write of an index register selects an entry and forgets the held words of its table. Each waits for the wake while the clocks are gated (08 R263, R265;
09 R290, R300, R303; 10 R330, R332; 16 R471; 02 R54). -/
def Obligations.TableEntriesAreCommitted : Prop :=
  (∀ (v : W64) (s s1 : State) (e : Nat), ctlOn s = true → s1 = { s with fin := { s.fin with held := none } } →
    e = joinWords [v.toNat &&& finMask0, (match s.fin.held with
      | some h => h.toNat
      | none => bits (finEntry s s.fin.index.toNat) 127 64) &&& finMask1] →
    (cfgNamed s [0x01, 0x0B] s.fin.index.toNat = true → exec (.finEntryCommit v) s = .next (pageErr pgFin cRegionBusy s1)) ∧
    (cfgNamed s [0x01, 0x0B] s.fin.index.toNat = false → finBad e = true →
      exec (.finEntryCommit v) s = .next (pageErr pgFin cConfigInvalid s1)) ∧
    (cfgNamed s [0x01, 0x0B] s.fin.index.toNat = false → finBad e = false → exec (.finEntryCommit v) s = .next { s1 with fin :=
      { s1.fin with entries := Sparse.set 0 s.fin.entries s.fin.index.toNat (BitVec.ofNat 128 e) } })) ∧
  (∀ (v : W64) (s s1 : State) (e : Nat), ctlOn s = true → s1 = { s with row := { s.row with held := [] } } →
    e = joinWords [v.toNat &&& rowMask0, heldWord s.row.held (rowEntry s s.row.index.toNat) 1 &&& rowMask1,
      heldWord s.row.held (rowEntry s s.row.index.toNat) 2 &&& rowMask2] →
    (cfgNamed s [0x06] s.row.index.toNat = true → exec (.rowEntryCommit v) s = .next (pageErr pgRow cRegionBusy s1)) ∧
    (cfgNamed s [0x06] s.row.index.toNat = false → rowBad e = true →
      exec (.rowEntryCommit v) s = .next (pageErr pgRow cConfigInvalid s1)) ∧
    (cfgNamed s [0x06] s.row.index.toNat = false → rowBad e = false → exec (.rowEntryCommit v) s = .next { s1 with row :=
      { s1.row with entries := Sparse.set 0 s.row.entries s.row.index.toNat (BitVec.ofNat 192 e) } })) ∧
  (∀ (v : W64) (s s1 : State) (e : Nat), ctlOn s = true → s1 = { s with spx := { s.spx with held := [] } } →
    e = joinWords [v.toNat &&& spxMask0, heldWord s.spx.held (spxEntry s s.spx.index.toNat) 1,
      heldWord s.spx.held (spxEntry s s.spx.index.toNat) 2 &&& spxMask2] →
    (cfgNamed s [0x08, 0x09, 0x0A] s.spx.index.toNat = true →
      exec (.spxEntryCommit v) s = .next (pageErr pgSpx cRegionBusy s1)) ∧
    (cfgNamed s [0x08, 0x09, 0x0A] s.spx.index.toNat = false → spxBad e = true →
      exec (.spxEntryCommit v) s = .next (pageErr pgSpx cConfigInvalid s1)) ∧
    (cfgNamed s [0x08, 0x09, 0x0A] s.spx.index.toNat = false → spxBad e = false →
      exec (.spxEntryCommit v) s = .next { s1 with spx :=
        { s1.spx with entries := Sparse.set 0 s.spx.entries s.spx.index.toNat (BitVec.ofNat 192 e) } })) ∧
  (∀ (v : W64) (s : State), ctlOn s = true →
    (s.opt.en = false → exec (.bucketEntryCommit v) s = .next (mBkt s.gas.bktIndex.toNat (fun k => { k with shard := 0 })
      { s with gas := { s.gas with held := [], buckets := (Sparse.set 0 s.gas.buckets s.gas.bktIndex.toNat (BitVec.ofNat 512 (joinWords
        ((List.range 8).map fun i => (if i = 0 then v.toNat
          else heldWord s.gas.held (bktEntry s s.gas.bktIndex.toNat) i) &&& bktMask i)))) } })) ∧
    (s.opt.en = true → exec (.bucketEntryCommit v) s =
      .next (mGas (fun g => { g with held := [] }) (pageErr pgGas cRegionBusy s)))) ∧
  (∀ (v : W32) (s : State), ctlOn s = true → ∃ t, exec (.optEntryCommit v) s = .next t ∧ t.opt.held = [] ∧
    optWord t s.opt.entIndex.toNat 0 = v.toNat &&& 0xBF1FFFFF ∧
    (∀ n w, 1 ≤ n → n ≤ 15 → assoc? s.opt.held n = some w → (s.opt.en = false ∨ (n ≠ 8 ∧ n ≠ 9)) →
      optWord t s.opt.entIndex.toNat n = w.toNat) ∧ t.ses = s.ses ∧ t.gas = s.gas) ∧
  (∀ (v : W32) (s : State), ctlOn s = true →
    (s.opt.en = false → exec (.uprogWrite v) s = .next { s with opt :=
      { s.opt with uprog := Sparse.set 0 s.opt.uprog s.opt.upIndex.toNat v } }) ∧
    (s.opt.en = true → exec (.uprogWrite v) s = .next (pageErr pgOpt cRegionBusy s))) ∧
  (∀ (v : W32) (s : State), ctlOn s = true →
    exec (.entryIndexWrite .fin v) s = .next { s with fin := { s.fin with index := v.extractLsb' 0 8, held := none } } ∧
    exec (.entryIndexWrite .row v) s = .next { s with row := { s.row with index := v.extractLsb' 0 8, held := [] } } ∧
    exec (.entryIndexWrite .gas v) s = .next { s with gas := { s.gas with bktIndex := v.extractLsb' 0 12, held := [] } } ∧
    exec (.entryIndexWrite .opt v) s = .next { s with opt := { s.opt with entIndex := v.extractLsb' 0 6, held := [] } } ∧
    exec (.entryIndexWrite .uprog v) s = .next { s with opt := { s.opt with upIndex := v.extractLsb' 0 6 } } ∧
    exec (.entryIndexWrite .spx v) s = .next { s with spx := { s.spx with index := v.extractLsb' 0 8, held := [] } } ∧
    exec (.entryIndexWrite .stash v) s = .next { s with spx := { s.spx with stashIndex := v.extractLsb' 0 4 } }) ∧
  (∀ (v cfg : W64) (s : State), ctlOn s = true → cfg = v &&& 0x80001FFF001F3FFF →
    (stashNamed s s.spx.stashIndex.toNat = true → exec (.stashCfgWrite v) s = .next (pageErr pgSpx cRegionBusy s)) ∧
    (stashNamed s s.spx.stashIndex.toNat = false →
      (bits v.toNat 20 16 < 12 ∨ 30 < bits v.toNat 20 16 ∨ stNent cfg = 0 →
        exec (.stashCfgWrite v) s = .next (pageErr pgSpx cConfigInvalid s)) ∧
      (12 ≤ bits v.toNat 20 16 → bits v.toNat 20 16 ≤ 30 → stNent cfg ≠ 0 →
        exec (.stashCfgWrite v) s = .next { s with spx := { s.spx with stash := (Sparse.modify {} s.spx.stash s.spx.stashIndex.toNat
          fun e => if stValid cfg && !stValid e.cfg then { cfg := cfg } else { e with cfg := cfg }) } }))) ∧
  (∀ (v : W32) (w : W64) (reg : IndexReg) (s : State), ctlOn s = false →
    exec (.finEntryCommit w) s = .next (holdAccess 5 (.finEntryCommit w) s) ∧
    exec (.rowEntryCommit w) s = .next (holdAccess 5 (.rowEntryCommit w) s) ∧
    exec (.spxEntryCommit w) s = .next (holdAccess 5 (.spxEntryCommit w) s) ∧
    exec (.bucketEntryCommit w) s = .next (holdAccess 5 (.bucketEntryCommit w) s) ∧
    exec (.optEntryCommit v) s = .next (holdAccess 5 (.optEntryCommit v) s) ∧
    exec (.uprogWrite v) s = .next (holdAccess 5 (.uprogWrite v) s) ∧
    exec (.entryIndexWrite reg v) s = .next (holdAccess 5 (.entryIndexWrite reg v) s) ∧
    exec (.stashCfgWrite w) s = .next (holdAccess 5 (.stashCfgWrite w) s))

/-! ### Reduction and admission -/

/-- NODE_COMBINE runs the named node of a running session on the operands it has (combineTurn, and topkNode for TOPK_REDUCE); a
session that is not running, or a datapath that serves nothing, leaves it waiting. ABSENT notes an absence for every chunk that its bitmap marks
in the session it names, SLOT_RETURN gives a sender its credits back and sends what waited for them, and ABORT ends what it names (abortHeld) and
its coordination here (05 R171; 06 R209; 07 R221; 10 R310). -/
def Obligations.NodesTakeOperands : Prop :=
  (∀ (slot : Fin 4096) (seq : W32) (level : Fin 5) (node : Fin 16) (s : State) (x : Session), slot? s slot.val = some x →
    (x.st = .run → datapathOff s = false → x.d.opc ≠ 0x08 → exec (.nodeCombine slot seq level node) s =
      .next (tryComplete slot.val (combineTurn slot.val x seq.toNat level.val node.val s))) ∧
    (x.st = .run → datapathOff s = false → x.d.opc = 0x08 → exec (.nodeCombine slot seq level node) s =
      .next (tryComplete slot.val (topkNode slot.val x (seq.toNat / 2 ^ 24) level.val node.val s))) ∧
    (x.st ≠ .run ∨ datapathOff s = true → exec (.nodeCombine slot seq level node) s = .next s)) ∧
  (∀ (s s1 : State) (k : Packet) (m : Band) (level rank first bitmap i : Nat), ctlOn s = true →
    takeBand 0x05 s = some (k, m, s1) → m.msg = .absent level rank first bitmap → slotOfGsid s1 k.session = some i →
    exec .absent s = .next (tryComplete i (foldS ((List.range 64).filter fun b => bit bitmap b) (progress i s1) fun b s =>
      noteAbsent i (first + b) level rank s))) ∧
  (∀ (s s1 : State) (k : Packet) (m : Band) (level n i : Nat) (x : Session), ctlOn s = true →
    takeBand 0x06 s = some (k, m, s1) → m.msg = .slotReturn level n → slotOfGsid s1 k.session = some i → slot? s1 i = some x →
    exec .slotReturn s = .next (drainOuts i (mSlot i (fun y => { y with used := (Sparse.modify 0 y.used
      ((s1.rtr.rank x.d.axis (s1.rtr.toLogical k.src) - x.base) * 8 + level) (· - n)) }) s1))) ∧
  (∀ (s s1 : State) (k : Packet) (m : Band), ctlOn s = true → takeBand 0x04 s = some (k, m, s1) →
    exec .abort s = .next (abortHeld k.session
      { s1 with ses := { s1.ses with homes := s1.ses.homes.filter fun h => h.gsid != k.session } })) ∧
  (∀ (g i : Nat) (s : State) (x : Session), slotOfGsid s g = some i → slot? s i = some x →
    abortHeld g s = retireSlot i cPeerAborted 0 (if isGradient s x.d x.ctx then failStep x.d.step s else s))

/-- The member's side of admission, which acts while the sequencer runs. A scan considers the waiting sessions in the order of
their keys; ADMIT makes a session that holds its space firm and answers FIRM, or answers REFUSE for one that waits; RETRACT is counted and
gives a firm session back to holding; GO runs a firm one while the chip's shape is legal and it is no spare; a session that has waited STAGE_AFTER
holds its space, or has its staging turn; before that time STAGE_AFTER_TIMEOUT does nothing (07 R231, R232; 03 R72, R95; 01 R17). -/
def Obligations.MembersAreAdmitted : Prop :=
  (∀ s : State, intakeOn s = true → s.rtr.shapeOk = true → s.rtr.isSpare = false → exec .admissionScan s = .next (foldS
    ((byKey s (s.ses.slots.filter fun p => p.2.st == .wait)).map Prod.fst) s considerSession)) ∧
  (∀ (s s1 : State) (k : Packet) (m : Band) (i : Nat) (x : Session), intakeOn s = true → takeBand 0x12 s = some (k, m, s1) →
    memberSession s1 k.session m.step = some (i, x) →
    (x.st = .held → exec .admitMsg s = .next (sendHome x .firm (setAdmit i .firm s1))) ∧
    (x.st = .wait → exec .admitMsg s = .next (choice 1 0 x.gsid (sendHome x .refuse s1)))) ∧
  (∀ (s s0 s1 : State) (k : Packet) (m : Band) (i : Nat) (x : Session), intakeOn s = true →
    takeBand 0x15 s = some (k, m, s0) →
    s1 = bump pgSes (·.ses.admitRetracts) (fun v => mSes fun e => { e with admitRetracts := v }) 1 s0 →
    memberSession s1 k.session m.step = some (i, x) → x.st = .firm →
    exec .retract s = .next (setAdmit i .held s1)) ∧
  (∀ (s s1 : State) (k : Packet) (m : Band) (i : Nat) (x : Session), intakeOn s = true → takeBand 0x16 s = some (k, m, s1) →
    memberSession s1 k.session m.step = some (i, x) → x.st = .firm → s1.rtr.shapeOk = true → s1.rtr.isSpare = false →
    exec .go s = .next (enterRun i s1)) ∧
  (∀ (slot : Fin 4096) (s : State) (x : Session), slot? s slot.val = some x → intakeOn s = true → s.rtr.shapeOk = true →
    s.rtr.isSpare = false → mayConsider s x = true → x.palm ≠ 0 → s.rru.run = false →
    (max 1 s.ses.stageAfter.toNat ≤ s.tick - x.waitTick → exec (.stageAfterTimeout slot) s =
      .next (if x.palm ≤ palmAll && spaceFits s x false then holdSpace slot.val x false s
        else stageTurn slot.val x (x.palm ≤ palmAll) s)) ∧
    (s.tick - x.waitTick < max 1 s.ses.stageAfter.toNat → exec (.stageAfterTimeout slot) s = .next s)) ∧
  (∀ s : State, intakeOn s = false → exec .admissionScan s = .next s ∧ exec .admitMsg s = .next s ∧
    exec .retract s = .next s ∧ exec .go s = .next s)

/-- The home's side of admission, which acts while the sequencer runs. The first GRANT of a session opens its coordination, a further one
with the same step and group from another rank joins it, and the group is admitted once every rank has granted (homeAdmit); REVOKE takes a
member's grant back, and ends a coordination that has no grant left and is not admitted; FIRM of every member sends GO and ends
coordination; REFUSE sends RETRACT and takes the admission and the refusing member's grant back (07 R229, R231). -/
def Obligations.HomesCoordinate : Prop :=
  (∀ (s s1 : State) (k : Packet) (m : Band) (need axis gsize rank : Nat) (staged : Bool) (r0 : Coord), intakeOn s = true →
    takeBand 0x10 s = some (k, m, s1) → m.msg = .grant need staged axis gsize rank r0 →
    (home? s1 k.session = none → exec .grant s = .next (homeAdmit
      { gsid := k.session, ctx := m.ctx, step := m.step, axis := axis, gsize := gsize, rank0 := r0, granted := rankBit rank } s1)) ∧
    (∀ h, home? s1 k.session = some h → h.step = m.step → h.axis = axis → h.gsize = gsize → h.rank0 = r0 →
      h.granted.getLsbD rank = false →
      exec .grant s = .next (homeAdmit { h with granted := h.granted ||| rankBit rank } s1))) ∧
  (∀ (h : HomeSes) (s : State),
    (h.admitted = false → h.granted = fullMask h.gsize →
      homeAdmit h s = homeSend h .admitted (putHome { h with admitted := true, firm := 0 } s)) ∧
    (h.admitted = true ∨ h.granted ≠ fullMask h.gsize → homeAdmit h s = putHome h s)) ∧
  (∀ (s s1 : State) (h : HomeSes) (r : Nat), intakeOn s = true → homeMsg 0x11 s = .inl (some (h, r, s1)) →
    exec .revoke s = .next (if h.granted &&& ~~~(rankBit r) = 0 && !h.admitted then dropHome h.gsid s1
      else putHome { h with granted := h.granted &&& ~~~(rankBit r) } s1)) ∧
  (∀ (s s1 : State) (h : HomeSes) (r : Nat), intakeOn s = true → homeMsg 0x13 s = .inl (some (h, r, s1)) → h.admitted = true →
    exec .firm s = .next (if h.firm ||| rankBit r = fullMask h.gsize then homeSend h .go (dropHome h.gsid s1)
      else putHome { h with firm := h.firm ||| rankBit r } s1)) ∧
  (∀ (s s1 : State) (h : HomeSes) (r : Nat), intakeOn s = true → homeMsg 0x14 s = .inl (some (h, r, s1)) → h.admitted = true →
    exec .refuse s = .next (homeSend h .retract (putHome
      { h with admitted := false, firm := 0, granted := h.granted &&& ~~~(rankBit r) } s1))) ∧
  (∀ s : State, intakeOn s = false → exec .grant s = .next s ∧ exec .revoke s = .next s ∧ exec .firm s = .next s ∧
    exec .refuse s = .next s)

/-! ### Outputs, rows and experts -/

/-- FIN_CHUNK takes the oldest queued chunk whose reads have all returned and finishes it. ROW_PASS runs the next pass of a row-statistics
session: a block's first, middle or last. ROW_STATISTICS_FINAL marks the statistics of a block final, once, and for modes below 2 writes its rows'
records. TRANSPOSE_ROW_BLOCK of an all-gather session whose block has arrived, and which no write in flight touches, reads the block back once and leaves
the writes of its columns to be made when the read has returned (08 R248, R256, R259, R260; 07 R227). -/
def Obligations.OutputsAreFinished : Prop :=
  (∀ (s : State) (it : FinItem), empReady s = true → datapathOff s = false → finNext s = some it →
    exec .finChunk s = .next (tryComplete it.slot (finishItem it { s with fin := { s.fin with queue := s.fin.queue.erase it } }))) ∧
  (∀ (slot : Fin 4096) (s : State) (x : Session) (b : Nat), slot? s slot.val = some x → x.d.opc = 0x06 →
    issueStopped s = false → sessionFree s x = true →
    (nextPass s slot.val x = some (1, b) → exec (.rowPass slot) s = .next (firstPass slot.val b x s)) ∧
    (nextPass s slot.val x = some (2, b) → exec (.rowPass slot) s = .next (midPass slot.val b x s)) ∧
    (nextPass s slot.val x = some (3, b) → exec (.rowPass slot) s = .next (tryComplete slot.val (lastPass slot.val b x s))) ∧
    (nextPass s slot.val x = none → exec (.rowPass slot) s = .next s)) ∧
  (∀ (slot : Fin 4096) (b : Nat) (s : State) (x : Session) (recs : State), slot? s slot.val = some x → x.d.opc = 0x06 →
    (blockOf x b).stat0 ≠ [] → datapathOff s = false →
    recs = foldS (List.range (blockRows s x b).2) s (fun i s =>
      thimblePut (thimbleAt s x ((blockRows s x b).1 + i)) (rowValues s x (statAt s x (blockOf x b) i)).1
        (rowValues s x (statAt s x (blockOf x b) i)).2 s) →
    (3 ≤ rowMode (rowE s x) → (blockOf x b).final0 = false →
      exec (.rowStatisticsFinal slot b) s = .next (mBlock slot.val b (fun k => { k with final0 := true }) s)) ∧
    (rowMode (rowE s x) < 2 → (blockOf x b).final0 = false →
      exec (.rowStatisticsFinal slot b) s = .next (mBlock slot.val b (fun k => { k with final0 := true }) recs)) ∧
    (rowMode (rowE s x) = 2 → (blockOf x b).final0 = false →
      exec (.rowStatisticsFinal slot b) s = .next (mBlock slot.val b (fun k => { k with final0 := true }) s)) ∧
    (rowMode (rowE s x) = 2 → (blockOf x b).final0 = true → (blockOf x b).final1 = false → (blockOf x b).stat1 ≠ [] →
      exec (.rowStatisticsFinal slot b) s = .next (mBlock slot.val b (fun k => { k with final1 := true }) recs)) ∧
    (rowMode (rowE s x) ≠ 2 → (blockOf x b).final0 = true → exec (.rowStatisticsFinal slot b) s = .next s)) ∧
  (∀ (slot : Fin 4096) (b : Nat) (s : State) (x : Session) (e a n k sz : Nat), slot? s slot.val = some x → ctlOn s = true →
    x.d.opc = 0x02 → x.st = .run → b < transposeBlocks s x.d → Sparse.get false x.tblocks b = false →
    e = depEntry s x.d.stageCfg → k = rowBlockRows x.d.fmtOut → sz = fmtSize x.d.fmtOut → n = k * depCols e →
    gatherHas x (b * k * depCols e) n = true → empReady s = true →
    a = regAddr s x.ctx x.d.dstReg (x.d.dstOff + b * k * depCols e * sz) → writesTo s a (k * depCols e * sz) = false →
    exec (.transposeRowBlock slot b) s = .next (addLocal slot.val
      { reads := [s.emp.nextTag], tag := none, seq := b, work := .block ((List.range (depCols e)).map fun c =>
          (regAddr s x.ctx x.d.auxReg (x.d.auxOff + (c * depRows e + b * k) * sz),
            (List.range k).flatMap fun r => plainElem s x ((b * k + r) * depCols e + c))) }
      (mSlot slot.val (fun y => { y with tblocks := Sparse.set false y.tblocks b true })
        (empRead (.session slot.val x.gsid) a (k * depCols e * sz) [] s)))) ∧
  (∀ (slot : Nat) (o : LocalOp) (s : State) (x : Session) (ws : List (Nat × List Byte)), slot? s slot = some x →
    o.work = .block ws → o.sats = 0 → o.nans = 0 → o.mxs = 0 → runLocal slot o s =
      foldS ws (countOut { OutRun.empty with sats := 0, nans := 0, mxs := 0 } s) fun w s =>
        empWrite (.session slot 0 none) w.1 w.2 s)

/-- Expert exchange and point-to-point. A dispatch reads its routing table once before it sends, and the table is judged when the read has
returned: a bad one ends the session with ROUTING_INVALID, and a good one gives every token its places. A combine whose rows have all landed reads its
table and rows, and writes its tokens when the reads have returned. RECEIVE sends CLEAR_TO_SEND once its stash entry, if it uses one, has a place, and
counts the first time it finds none. A stash is released by its own context, within what it holds; a release of more records CONFIG_INVALID, another
context's is denied, and one waits for the wake while the clocks are gated (10 R320, R323, R325 to R327; 02 R54). -/
def Obligations.ExpertsAndReceiversProceed : Prop :=
  (∀ (slot : Fin 4096) (s : State) (x : Session), slot? s slot.val = some x → x.d.opc = 0x09 → x.routed = false →
    x.locals = [] → issueStopped s = false → sessionFree s x = true →
    exec (.expertDispatchRoute slot) s = .next (addLocal slot.val
      { reads := [s.emp.nextTag], tag := none, seq := 0, work := .route } (progress slot.val
        (empRead (.session slot.val x.gsid) (regAddr s x.ctx x.d.auxReg x.d.auxOff) (16 * tokenCount s x) [] s)))) ∧
  (∀ (slot : Nat) (x : Session) (s : State),
    (tableBad s x = true → routeTable slot x s = endSpx slot cRoutingInvalid s) ∧
    (tableBad s x = false → routeTable slot x s = mSlot slot (fun y => { y with routed := true, progTick := s.tick })
      (writeSlots slot x (assignAll s x).slots.reverse s))) ∧
  (∀ (slot : Nat) (o : LocalOp) (s : State) (x : Session), slot? s slot = some x →
    (o.work = .route → runLocal slot o s =
      routeTable slot x (countOut { OutRun.empty with sats := o.sats, nans := o.nans, mxs := o.mxs } s)) ∧
    (o.work = .tokens → runLocal slot o s =
      writeTokens slot x (countOut { OutRun.empty with sats := o.sats, nans := o.nans, mxs := o.mxs } s))) ∧
  (∀ (slot : Fin 4096) (s : State) (x : Session) (e rows : Nat), slot? s slot.val = some x → x.d.opc = 0x0A →
    x.combined = false → (∀ o ∈ x.locals, o.work ≠ .tokens) → issueStopped s = false → sessionFree s x = true →
    combineLanded s slot.val x = true → e = spxEntry s x.d.stageCfg →
    rows = x.n * spxELocal e * spxCap e * rowBytes x.d.fmtIn (spxRow e) →
    exec (.expertCombineOutput slot) s = .next (addLocal slot.val
      { reads := [s.emp.nextTag, s.emp.nextTag + 1], tag := none, seq := 0, work := .tokens } (progress slot.val
        (empRead (.session slot.val x.gsid) (expertAddr s x 2 0) rows []
          (empRead (.session slot.val x.gsid) (regAddr s x.ctx x.d.auxReg x.d.auxOff) (16 * tokenCount s x) [] s))))) ∧
  (∀ (slot : Fin 4096) (s : State) (x : Session), slot? s slot.val = some x → x.d.opc = 0x05 → x.ctsSent = false →
    issueStopped s = false → sessionFree s x = true →
    (stashReady s x = true → exec (.receiveReady slot) s = .next (sendBand (memberOf s x x.d.peer) x.ctx x.d.step x.gsid
      (.clearToSend x.d.count x.d.fmtOut) (mSlot slot.val (fun y => { y with ctsSent := true, progTick := s.tick }) s))) ∧
    (stashReady s x = false → x.stashWaited = true → exec (.receiveReady slot) s = .next s) ∧
    (stashReady s x = false → x.stashWaited = false → exec (.receiveReady slot) s = .next (bump pgSpx
      (·.spx.stashFullEvents) (fun v => mSpx fun p => { p with stashFullEvents := v }) 1
      (mSlot slot.val (fun y => { y with stashWaited := true }) s)))) ∧
  (∀ (who : Requester) (ctx : Fin 64) (stash : Fin 16) (v : W32) (s : State) (e : Stash), ctlOn s = true →
    e = stashOf s stash.val →
    (mayReach who ctx.val (stCtx e.cfg) = true → v.toNat ≤ (e.filled - e.released).toNat →
      exec (.stashRelease who ctx stash v) s = .next (mSpx (fun p => { p with stash := (Sparse.modify {} p.stash stash.val
        fun e => { e with released := e.released + v }) }) s)) ∧
    (mayReach who ctx.val (stCtx e.cfg) = true → (e.filled - e.released).toNat < v.toNat →
      exec (.stashRelease who ctx stash v) s = .next (pageErr pgSpx cConfigInvalid s)) ∧
    (mayReach who ctx.val (stCtx e.cfg) = false →
      exec (.stashRelease who ctx stash v) s = .next (denyWindow pgSpx ctx.val s))) ∧
  (∀ (who : Requester) (ctx : Fin 64) (stash : Fin 16) (v : W32) (s : State), ctlOn s = false →
    exec (.stashRelease who ctx stash v) s = .next (holdAccess 5 (.stashRelease who ctx stash v) s))


/-! ### The step -/

/-- The step's cycle, each command while the clocks run. PRELOAD_SWEEP preloads the lowest stale span of an enabled step when
every sub-channel has room; RELEASE_CONTRIBUTION sends the contribution when every active bucket is reduced or the step has
failed, and STEP_DEADLINE a late one when DEADLINE ticks have passed first; UPDATE_WAVE runs the next wave in tag order;
COMMIT_VOTE makes its decision, enters VOTE and sends the arrival of channel 15 once every active bucket's tail is over,
with FAIL where a bucket failed it (09 R275, R280, R285, R296). -/
def Obligations.StepIsDecided : Prop :=
  (∀ (s : State) (sp b : Nat) (rest : List (Nat × Nat)), ctlOn s = true → s.opt.en = true → gasStopped s = false →
    staleSpans s = (sp, b) :: rest → preloadRoom s b = true → exec .preloadSweep s = .next (preloadSpan b sp s)) ∧
  (∀ s : State, ctlOn s = true → mayContribute s = true → contributionDue s = true →
    exec .releaseContribution s = .next (sendContribution false s)) ∧
  (∀ (s : State) (t0 : Nat), ctlOn s = true → s.opt.deadlineStart = some t0 → mayContribute s = true →
    contributionDue s = false → s.rru.run = false → max 1 s.opt.deadline.toNat ≤ s.tick - t0 →
    exec .stepDeadline s = .next (sendContribution true s)) ∧
  (∀ (s : State) (b : Nat) (k : Park), ctlOn s = true → s.opt.en = true → s.opt.state = 2 → gasStopped s = false →
    datapathOff s = false → s.ctl.run = true → nextWave s = some b → (bktOf s b).park = some k →
    exec .updateWave s = .next (runWave b k s)) ∧
  (∀ s : State, ctlOn s = true → s.opt.en = true → s.opt.state = 3 → s.flt.ctlLost = false → s.opt.authHalt = false →
    chanBusy s 15 = false → (activeBuckets s).all (tailOver s) = true →
    exec .commitVote s = .next (stepArrival 15 15 ⟨false, (activeBuckets s).any fun b => (bktOf s b).tailFail, false, false, false⟩ 0
      (mOpt (fun o => { o with state := 4, voted := true })
        (decision 6 15 s.opt.step.toNat 0 (b2n ((activeBuckets s).any fun b => (bktOf s b).tailFail)) 0 s))))

/-- A write of STEP_CTL sets its other fields whatever becomes of EN. EN rises when no entry breaks a rule, and the step begins in
ACCUM at this cycle; it falls in ACCUM while no bucket has counted a deposit; a change refused records CONFIG_INVALID, and a write that
leaves EN changes the other fields alone. It waits for the wake while the clocks are gated (09 R269, R295; 12 R368; 02 R54; that the other
fields are written is the model's reading, log 32). COMMIT of step U in VOTE, once no open frame is awaited, commits the step, in a replay
comparing its digest with the record's; while a frame is awaited nothing changes (09 R297; 12 R384). -/
def Obligations.StepIsEnabledAndCommits : Prop :=
  (∀ (v : W32) (s : State), ctlOn s = true → v.getLsbD 0 = true →
    (s.opt.en = false → enableBad (mOpt (stepCtlFields v) s) = false →
      exec (.stepEnable v) s = .next { s with
        ctl := { s.ctl with stepStart := s.ccc },
        opt := { stepCtlFields v s.opt with
          en := true, state := 0, failed := false, failedNext := false, late := false, voted := false } }) ∧
    (s.opt.en = false → enableBad (mOpt (stepCtlFields v) s) = true →
      exec (.stepEnable v) s = .next (pageErr pgOpt cConfigInvalid { s with opt := stepCtlFields v s.opt })) ∧
    (s.opt.en = true → exec (.stepEnable v) s = .next { s with opt := stepCtlFields v s.opt })) ∧
  (∀ (v : W32) (s : State), ctlOn s = true → v.getLsbD 0 = false →
    (s.opt.en = true → s.opt.state = 0 → noDeposit s = true →
      exec (.stepDisable v) s = .next { s with opt := { stepCtlFields v s.opt with en := false, state := 6 } }) ∧
    (s.opt.en = true → (s.opt.state ≠ 0 ∨ noDeposit s = false) →
      exec (.stepDisable v) s = .next (pageErr pgOpt cConfigInvalid { s with opt := stepCtlFields v s.opt })) ∧
    (s.opt.en = false → exec (.stepDisable v) s = .next { s with opt := stepCtlFields v s.opt })) ∧
  (∀ (v : W32) (s : State), ctlOn s = false →
    exec (.stepEnable v) s = .next (holdAccess 5 (.stepEnable v) s) ∧
    exec (.stepDisable v) s = .next (holdAccess 5 (.stepDisable v) s)) ∧
  (∀ s : State, ctlOn s = true → s.opt.commitWait = some (s.opt.step, []) → s.opt.state = 4 →
    (s.rru.run = false → exec .commit s = .next (commitStep s)) ∧
    (s.rru.run = true →
      exec .commit s = .next (replayCommit (decision 7 15 s.opt.step.toNat 0 0 0 s).ctl.digest s.opt.step.toNat
        s.opt.attempt.toNat (commitStep s)))) ∧
  (∀ (s : State) (u : W16) (f : Nat × W32) (rest : List (Nat × W32)), ctlOn s = true → s.opt.commitWait = some (u, f :: rest) →
    exec .commit s = .next s) ∧
  (∀ s : State, (commitStep s).opt.committed = s.opt.step ∧ (commitStep s).opt.step = s.opt.step + 1 ∧
    (commitStep s).opt.state = 0 ∧ (commitStep s).opt.attempt = 0 ∧ (commitStep s).opt.gen = !s.opt.gen)

/-- Mirrors. MIRROR_SEND sends the next wave of a bucket's record, every part of it, while the job reaches that far, issue goes on
and the tags are enough, and the seal after the record's last word. MIRROR_ACK marks the bucket mirrored whose sealed record it
acknowledges with the step and generation that were sent. MIRROR_TIMEOUT, TIMEOUT ticks after the seal, sends the record again from its
start up to three times. RESTORE_RECORD_VERIFY of a whole record reads it back and, where its seal stands, marks it verified and
rewrites its parameters, and where it does not fails the RESTORE; REC_TIMEOUT fails a RESTORE that took no packet for REC_TIMEOUT ticks
(09 R293, R294; 13 R405, R406). -/
def Obligations.MirrorsAreKept : Prop :=
  (∀ (bucket : Fin 4096) (s : State) (step : W16) (gen : Bool) (limit i n parts : Nat), ctlOn s = true → empReady s = true →
    issueStopped s = false → mirrorJob s bucket.val = some (step, gen, limit) → i = (bktOf s bucket.val).mirrorAt →
    n = min 16384 (bktQ s bucket.val - i) → parts = 1 + optNState s (bkOpt (bktEntry s bucket.val)) → 0 < n → i + n ≤ limit →
    tagsHeld s + parts * cdiv n 1024 + 1 ≤ 65536 →
    ∀ t, t = mBkt bucket.val (fun k => { k with mirrorAt := i + n })
        (foldS (List.range parts) s fun p s' => sendPart bucket.val p i n step gen s') →
    (i + n < bktQ s bucket.val → exec (.mirrorSend bucket) s = .next t) ∧
    (bktQ s bucket.val ≤ i + n → exec (.mirrorSend bucket) s = .next (sendSeal bucket.val step gen t))) ∧
  (∀ (s s1 : State) (k : Packet) (m : Band) (tag b : Nat) (gen : Bool), ctlOn s = true → takeBand 0x08 s = some (k, m, s1) →
    m.msg = .mirrorAck tag gen →
    (activeBuckets s1).find? (fun b => bkTag (bktEntry s1 b) == tag && (bktOf s1 b).sealSent && !(bktOf s1 b).mirrored) = some b →
    (m.step = ackStep s1 → gen = ackGen s1 →
      exec .mirrorAck s = .next (countSent (mBkt b (fun k => { k with mirrored := true, mirrorTick := none }) s1))) ∧
    ((m.step ≠ ackStep s1 ∨ gen ≠ ackGen s1) → exec .mirrorAck s = .next s1)) ∧
  (∀ (bucket : Fin 4096) (s : State) (t0 : Nat), ctlOn s = true → (bktOf s bucket.val).mirrorTick = some t0 →
    s.opt.en = true ∨ recOn s 4 = true → (bktOf s bucket.val).mirrored = false → s.opt.mirrorTimeout.toNat ≤ s.tick - t0 →
    ((bktOf s bucket.val).resends < 3 → exec (.mirrorTimeout bucket) s =
      .next (mBkt bucket.val (fun k =>
          { k with mirrorAt := 0, mirrorSeq := 0, sealSent := false, mirrorTick := none, resends := k.resends + 1 })
        (bump pgOpt (·.opt.mirrorResends) (fun v => mOpt fun o => { o with mirrorResends := v }) 1 s))) ∧
    (3 ≤ (bktOf s bucket.val).resends → recOn s 4 = false → recOn s 7 = false → exec (.mirrorTimeout bucket) s =
      .next (mBkt bucket.val (fun k => { k with tailFail := true, mirrorTick := none }) (pageErr pgOpt cMirrorFailed s)))) ∧
  (∀ (bucket : Fin 4096) (s u : State), ctlOn s = true → recOn s 3 = true → bkActive (bktEntry s bucket.val) = true →
    (bktOf s bucket.val).verified = false → recordWhole s bucket.val = true → empReady s = true →
    u = empRead (.restore bucket.val) (stateAddr s bucket.val 0 0) (recordBytes s bucket.val - 64)
      (cellsOf s [(paramAddr s bucket.val 0, paramRun s bucket.val)]) s →
    (recordOk s bucket.val = true →
      exec (.restoreRecordVerify bucket) s = .next (tryEndRestore (mFlt (fun f => { f with recDone := f.recDone + 1 })
        (mBkt bucket.val (fun k => { k with verified := true })
          (writeSpan (.restore bucket.val) (paramAddr s bucket.val 0) (paramRun s bucket.val) false u))))) ∧
    (recordOk s bucket.val = false → exec (.restoreRecordVerify bucket) s = .next (failRestore u))) ∧
  (∀ s : State, ctlOn s = true → recOn s 3 = true → max 1 s.flt.recTimeout.toNat ≤ s.tick - s.flt.recTick →
    exec .recTimeout s = .next (failRestore s))

/-- Recovery operations. LOST, and a RESTORE that fails with FINAL = 1, end the RESTORE that runs, set EN to 0, record REC_ARG.STEP as
lost, request the step vector and send the CMC the STATE_LOST message, or hold it while its mailbox is full. Each other
operation begins when none runs (recBegun), and SET_GEN writes the generation, SEED and REMIRROR mark every active record to be sent, RETURN
goes on cycle by cycle with a packet where issue and a tag allow, RESTORE quiesces and clears the records' marks, ADOPT quiesces and adopts
the step rewound or rolled forward; where its conditions do not hold it ends with CONFIG_INVALID, which REMIRROR also records on the
page. While one runs another is refused with CONFIG_INVALID, and while the clocks are gated it waits (13 R402 to R409; 02 R54). -/
def Obligations.RecoveryOperationsBegin : Prop :=
  (∀ s : State, ctlOn s = true → (s.flt.recState ≠ 1 ∨ s.flt.recOp = 3) →
    ∃ t, exec .lost s = .next t ∧ lossReported s t ∧ t.ses = s.ses) ∧
  (∀ s : State, ctlOn s = true → recOn s 3 = true → max 1 s.flt.recTimeout.toNat ≤ s.tick - s.flt.recTick →
    recArgFinal s = true → ∃ t, exec .recTimeout s = .next t ∧ lossReported s t ∧ t.ses = s.ses) ∧
  (∀ s : State, recArgFinal s = true → lossReported s (failRestore s)) ∧
  (∀ (s : State), ctlOn s = true → s.flt.recState ≠ 1 →
    (∀ u, u = recBegun 5 s →
      (mirrorWriting u = false → exec .setGen s = .next (endRec cOk { u with opt := { u.opt with gen := recArgGen u } })) ∧
      (mirrorWriting u = true → exec .setGen s = .next (endRec cConfigInvalid u))) ∧
    (∀ u, u = recBegun 4 s →
      (s.opt.en = true → s.opt.state = 0 → s.flt.updateBegun = false → s.opt.mirrorEn = true →
        exec .seed s = .next (resendAll u)) ∧
      (s.opt.en = false ∨ s.opt.state ≠ 0 ∨ s.flt.updateBegun = true ∨ s.opt.mirrorEn = false →
        exec .seed s = .next (endRec cConfigInvalid u))) ∧
    (∀ u, u = recBegun 7 s →
      (s.opt.en = true → s.opt.verdict = 1 → (s.opt.state = 3 ∨ s.opt.state = 4) → exec .remirror s = .next (resendAll u)) ∧
      (s.opt.en = false ∨ s.opt.verdict ≠ 1 ∨ (s.opt.state ≠ 3 ∧ s.opt.state ≠ 4) →
        exec .remirror s = .next (endRec cConfigInvalid (pageErr pgFlt cConfigInvalid u)))) ∧
    (s.opt.mirrorSrc.getLsbD 16 = true → exec .returnGen s = .next (recBegun 2 s)) ∧
    (s.opt.mirrorSrc.getLsbD 16 = false → exec .returnGen s = .next (endRec cConfigInvalid (recBegun 2 s))) ∧
    (∀ u, u = quiesce (recBegun 3 s) →
      exec .restore s = .next (mFlt (fun f => { f with recExpect := BitVec.ofNat 13 (activeBuckets u).length })
        (foldS (activeBuckets u) u fun b s => mBkt b (fun k => { k with restored := [], restoreSeal := [], verified := false }) s))) ∧
    (∀ u, u = quiesce (recBegun 1 s) →
      (enableBad u = false →
        exec .adopt s = .next (endRec cOk (raiseStep (releaseHeld (enStart
          (if recArgPhase (recBegun 1 s) then adoptForward (adoptCommon u) else adoptRewind (adoptCommon u))))))) ∧
      (enableBad u = true → exec .adopt s = .next (endRec cConfigInvalid u)))) ∧
  (∀ (s : State) (n i t : Nat), recOn s 2 = true → n = s.opt.mirrorLen.toNat / 2 → i = s.flt.recPos →
    (4096 * i < n → issueStopped s = false → freeTag s = some t →
      returnCycle s = mFlt (fun f => { f with recPos := i + 1 }) (returnPacket n i t s)) ∧
    (n ≤ 4096 * i → mirrorWaiting s = false → returnCycle s = endRec cOk s)) ∧
  (∀ (c : Instr) (s : State), c ∈ [.setGen, .seed, .remirror, .returnGen, .restore, .adopt] →
    (ctlOn s = true → s.flt.recState = 1 → exec c s = .next (pageErr pgFlt cConfigInvalid s)) ∧
    (ctlOn s = false → exec c s = .next (holdAccess 5 c s)))

/-! ### Sync objects and the band channel -/

/-- SET writes a window's selected object and ADD adds to it modulo 2^32, where an owner segment of the context maps it; one that no
segment maps changes nothing but records SYNC_ID_UNMAPPED, and one that a wait segment maps records ACCESS_DENIED. While the store's
clock is gated both wait (11 R334, R337, R338, R366; 02 R54). -/
def Obligations.WindowPrimitivesAct : Prop :=
  (∀ (ctx : Fin 64) (v : W32) (s : State) (p : Nat), fabricOn s = true →
    (Sys2Proof.Machine.translate s ctx.val (winOf s ctx.val).obj.toNat = some (p, false) →
      (∃ t, exec (.windowSet ctx v) s = .next t ∧ (objOf t p).value = v ∧ t.ses = s.ses ∧ t.que = s.que) ∧
      (∃ t, exec (.windowAdd ctx v) s = .next t ∧ (objOf t p).value = (objOf s p).value + v ∧ t.ses = s.ses ∧ t.que = s.que)) ∧
    (Sys2Proof.Machine.translate s ctx.val (winOf s ctx.val).obj.toNat = none →
      exec (.windowSet ctx v) s = .next (winRecord ctx.val cSyncIdUnmapped s) ∧
      exec (.windowAdd ctx v) s = .next (winRecord ctx.val cSyncIdUnmapped s)) ∧
    (Sys2Proof.Machine.translate s ctx.val (winOf s ctx.val).obj.toNat = some (p, true) →
      exec (.windowSet ctx v) s = .next (winRecord ctx.val cAccessDenied s) ∧
      exec (.windowAdd ctx v) s = .next (winRecord ctx.val cAccessDenied s))) ∧
  (∀ (ctx : Fin 64) (v : W32) (s : State), fabricOn s = false →
    exec (.windowSet ctx v) s = .next (holdAccess 5 (.windowSet ctx v) s) ∧
    exec (.windowAdd ctx v) s = .next (holdAccess 5 (.windowAdd ctx v) s))

/-- SEGMENT_WRITE of an enabled segment over a disabled one maps it when segEnable allows, and records REGION_BUSY otherwise; of a range
that segBad refuses, enabled or not, it records CONFIG_INVALID. MONITOR_ARM with ARM = 0 disarms; with ARM = 1 it arms the monitor on the
object that its virtual identifier names now, firing at once where the condition holds, and records the code of a check that fails.
SYNC_TIMEOUT of a ring whose wait has lasted its class's ticks counts and completes it with SYNC_TIMEOUT, or ORPHANED on an orphaned object,
and fires an armed monitor; while the clocks are gated it notes the waiter and wakes the engine (11 R336, R342, R343, R364, R367; 01 R36; 02 R54). -/
def Obligations.SegmentsMonitorsAndTimeouts : Prop :=
  (∀ (v0 v : W64) (s : State) (i : Nat), fabricOn s = true → v = v0 &&& BitVec.ofNat 64 (2 ^ 45 - 1 - 48) →
    i = bits s.syn.segIndex.toNat 21 16 * 16 + bits s.syn.segIndex.toNat 3 0 →
    (segBad v = true → exec (.segmentWrite v0) s = .next (pageErr pgSyn cConfigInvalid s)) ∧
    (segBad v = false → segEn v = true → segEn (Sparse.get 0 s.syn.segments i) = false →
      (∀ t, segEnable (bits s.syn.segIndex.toNat 21 16) v s = some t → exec (.segmentWrite v0) s = .next { t with syn :=
        { t.syn with segments := Sparse.set 0 t.syn.segments i v } }) ∧
      (segEnable (bits s.syn.segIndex.toNat 21 16) v s = none →
        exec (.segmentWrite v0) s = .next (pageErr pgSyn cRegionBusy s)))) ∧
  (∀ (ctx : Fin 64) (v cfg : W64) (s s1 s2 : State) (m : Nat) (code : W16), fabricOn s = true →
    cfg = v &&& BitVec.ofNat 64 (2 ^ 64 - 1 - 2 ^ 25) → m = (winOf s ctx.val).monIndex.toNat →
    s1 = mMon ctx.val m (fun mo => { mo with cfg := cfg, armed := false }) s →
    code = armCode s1 ctx.val cfg.toNat (monOf s1 ctx.val m).target.toNat →
    s2 = mMon ctx.val m (fun mo => { mo with code := code }) s1 →
    (v.getLsbD 25 = false → exec (.monitorArm ctx v) s = .next s1) ∧
    (v.getLsbD 25 = true → code ≠ cOk → code ≠ cSyncIdUnmapped → exec (.monitorArm ctx v) s = .next s2) ∧
    (∀ p w s3, v.getLsbD 25 = true → code = cOk →
      Sys2Proof.Machine.translate s2 ctx.val (bits cfg.toNat 19 0) = some (p, w) →
      s3 = mMon ctx.val m (fun mo => { mo with armed := true, phys := p, start := s.tick }) s2 →
      exec (.monitorArm ctx v) s = .next
        (if condHolds (bits cfg.toNat 23 20) (objOf s3 p).value (BitVec.ofNat 32 (bits cfg.toNat 63 32))
          then fireMonitor ctx.val m cOk s3 else s3))) ∧
  (∀ (r : Fin 256) (s : State) (p start : Nat), (ringOf s r.val).headState = .wait p start → s.rru.run = false →
    classTicks s p ≤ s.tick - start →
    (ctlOn s = true →
      exec (.syncTimeout (.ring r)) s = .next (headDone r.val (timeoutCode s p) 0 (countTimeout p (timeoutCode s p) s))) ∧
    (ctlOn s = false → s.syn.expired = [] →
      exec (.syncTimeout (.ring r)) s =
        .next (wakeBy 6 { s with syn := { s.syn with expired := [(.ring r, timeoutCode s p)] } }))) ∧
  (∀ (c m : Fin 64) (s : State) (mo : Monitor), mo = monOf s c.val m.val → mo.armed = true → s.rru.run = false →
    ctlOn s = true → classTicks s mo.phys ≤ s.tick - mo.start →
    exec (.syncTimeout (.monitor c m)) s = .next (fireMonitor c.val m.val (timeoutCode s mo.phys)
      (countTimeout mo.phys (timeoutCode s mo.phys) s))) ∧
  (∀ (ctx : Fin 64) (v : W64) (s : State), fabricOn s = false →
    exec (.segmentWrite v) s = .next (holdAccess 5 (.segmentWrite v) s) ∧
    exec (.monitorArm ctx v) s = .next (holdAccess 5 (.monitorArm ctx v) s))

/-- A write of PREEMPT sets the context's bit and makes its LIVE objects ORPHANED; a write of RESUME clears the bit and makes its
ORPHANED objects that no error rewrote LIVE; a write of neither changes nothing. While the store's clock is gated both wait
(11 R344, R345; 02 R54). -/
def Obligations.ContextsArePreempted : Prop :=
  (∀ (v : W32) (s : State), fabricOn s = true → v.getLsbD 8 = true → exec (.preempt v) s = .next { s with syn :=
    { s.syn with
      preempted := s.syn.preempted ||| (1#64 <<< bits v.toNat 5 0),
      objects := Sparse.mapAll {} s.syn.objects fun _ o =>
        if o.ctx.toNat = bits v.toNat 5 0 && o.st = .live then { o with st := .orphaned } else o } }) ∧
  (∀ (v : W32) (s : State), fabricOn s = true → v.getLsbD 9 = true → exec (.resume v) s = .next { s with syn :=
    { s.syn with
      preempted := s.syn.preempted &&& ~~~(1#64 <<< bits v.toNat 5 0),
      objects := Sparse.mapAll {} s.syn.objects fun _ o =>
        if o.ctx.toNat = bits v.toNat 5 0 && o.st = .orphaned && !o.rewritten then { o with st := .live } else o } }) ∧
  (∀ (v : W32) (s : State), fabricOn s = true → v.getLsbD 8 = false → v.getLsbD 9 = false →
    exec (.preempt v) s = .next s ∧ exec (.resume v) s = .next s) ∧
  (∀ (v : W32) (s : State), fabricOn s = false →
    exec (.preempt v) s = .next (holdAccess 5 (.preempt v) s) ∧ exec (.resume v) s = .next (holdAccess 5 (.resume v) s))

/-- Band messages, while the Fabric domain runs. SIGNAL takes the oldest signal: with no fence, or with its fence's bytes landed, it is
applied; with a fence whose bytes have not landed it waits, as one does whose session is not held yet, unless 256 such wait,
when it is dropped and counted with vector 256. ARRIVE takes the oldest arrival to its channel's combination and RELEASE
the oldest release. CROWN_TIMEOUT releases the crown's entry that has waited CROWN_TIMEOUT ticks, as a decision of class 5. REMOTE_SIGNAL_COMPLETE
completes a ring's remote signal that no queue holds (11 R346 to R348, R353, R356; 12 R371). -/
def Obligations.BandMessagesAct : Prop :=
  (∀ (s s1 : State) (k : Packet) (b : Band) (obj need source : Nat) (set : Bool) (value : W32) (f : Fenced), fabricOn s = true →
    takeBand 0x01 s = some (k, b, s1) → b.msg = .signal obj set value need source →
    f = { gsid := k.session, need := need, ctx := b.ctx, obj := obj, set := set, value := value, source := source,
          chip := s.rtr.toLogical k.src } →
    (need = 0 → exec .signal s = .next (applySignal f s1)) ∧
    (need ≠ 0 → gsidHeld s1 k.session = true → need ≤ landedOf s1 k.session → exec .signal s = .next (applySignal f s1)) ∧
    (need ≠ 0 → gsidHeld s1 k.session = true → landedOf s1 k.session < need →
      exec .signal s = .next { s1 with syn := { s1.syn with fenced := s1.syn.fenced ++ [f] } }) ∧
    (need ≠ 0 → gsidHeld s1 k.session = false → fencePending s1 < 256 →
      exec .signal s = .next { s1 with syn := { s1.syn with fenced := s1.syn.fenced ++ [f] } }) ∧
    (need ≠ 0 → gsidHeld s1 k.session = false → 256 ≤ fencePending s1 → exec .signal s = .next (raiseVec 256
      (bump pgSyn (·.syn.fenceDrops) (fun v => mSyn fun y => { y with fenceDrops := v }) 1 s1)))) ∧
  (∀ (s s1 : State) (k : Packet) (b : Band) (a : Arrival), fabricOn s = true → takeBand 0x02 s = some (k, b, s1) →
    b.msg = .arrive a → exec .arrive s = .next (takeArrival k.inport b.ctx b.step a s1)) ∧
  (∀ (s s1 : State) (k : Packet) (b : Band) (a : Arrival), fabricOn s = true → takeBand 0x03 s = some (k, b, s1) →
    b.msg = .release a → exec .release s = .next (takeRelease b.ctx b.step a s1)) ∧
  (∀ (chan : Fin 64) (s : State) (e : Combine), fabricOn s = true → crownDue s chan.val false = some e →
    exec (.crownTimeout chan) s = .next (crownRelease e true (choice 5 0 0 (putEntry { e with sent := true } s)))) ∧
  (∀ (r : Fin 256) (s : State), ctlOn s = true → (ringOf s r.val).headState = .remote → signalWaiting s r.val = false →
    exec (.remoteSignalComplete r) s = .next (headDone r.val cOk 0 s))

/-! ### Capture, replay and errors -/

/-- Capture. A write of CAP_CTL sets MODE, 3 being taken as 2, MIRROR_PAY and TRIG_MASK; MODE 0 ends the capture, a MODE that was 0 starts one with
both counts at 0, nothing lost, and a step header, and FREEZE then freezes it. A freeze of a running capture writes a freeze record, where the memory
interface takes one, and ends it. GAP_RECORD, when records were lost and a header fits the budget again, writes the counts and
clears them. A write waits for the wake while the clocks are gated (12 R377 to R379, R387; 02 R54). -/
def Obligations.CaptureIsControlled : Prop :=
  (∀ (v : W32) (s t : State), ctlOn s = true →
    (v.extractLsb' 0 2 = 0 →
      t = { s with rru := { s.rru with mode := 0, mirrorPay := v.getLsbD 2, trigMask := v.extractLsb' 16 12, active := false } } →
      exec (.captureModeWrite v) s = .next (if v.getLsbD 4 then freezeCapture 0 t else t)) ∧
    (v.extractLsb' 0 2 ≠ 0 → s.rru.mode ≠ 0 →
      t = { s with rru :=
        { s.rru with
          mode := if v.extractLsb' 0 2 = 3 then 2 else v.extractLsb' 0 2, mirrorPay := v.getLsbD 2,
          trigMask := v.extractLsb' 16 12 } } →
      exec (.captureModeWrite v) s = .next (if v.getLsbD 4 then freezeCapture 0 t else t)) ∧
    (v.extractLsb' 0 2 ≠ 0 → s.rru.mode = 0 →
      t = stepHeader { s with rru :=
        { s.rru with
          mode := if v.extractLsb' 0 2 = 3 then 2 else v.extractLsb' 0 2, mirrorPay := v.getLsbD 2,
          trigMask := v.extractLsb' 16 12, active := true, frozen := false, hdrWrite := 0, payWrite := 0, hdrWrapped := false,
          payWrapped := false, lostHdr := 0, lostPay := 0 } } →
      exec (.captureModeWrite v) s = .next (if v.getLsbD 4 then freezeCapture 0 t else t))) ∧
  (∀ s u : State, ctlOn s = true → s.rru.active = true → s.rru.frozen = false →
    u = (if empReady s then hdrRecord s.ccc.toNat 7 15 0 none (leBytes 2 0) s else s) →
    exec .captureFreeze s = .next { u with rru := { u.rru with frozen := true, active := false } }) ∧
  (∀ s : State, ctlOn s = true → s.rru.active = false ∨ s.rru.frozen = true → exec .captureFreeze s = .next s) ∧
  (∀ s u : State, ctlOn s = true → capturing s = true → s.rru.lostHdr + s.rru.lostPay ≠ 0 → capHdrRoom s = true →
    u = hdrPaid s.ccc.toNat 6 15 0 none (leBytes 4 s.rru.lostHdr ++ leBytes 4 s.rru.lostPay) s →
    exec .gapRecord s = .next { u with rru := { u.rru with lostHdr := 0, lostPay := 0 } }) ∧
  (∀ (v : W32) (s : State), ctlOn s = false →
    exec (.captureModeWrite v) s = .next (holdAccess 5 (.captureModeWrite v) s) ∧
    exec .captureFreeze s = .next (holdAccess 5 .captureFreeze s))

/-- Replay. GO starts a replay at the record that REPLAY_START names where replayReady holds, with its time counted from that record's, and
records CONFIG_INVALID otherwise; STOP ends a running one with code 4. REPLAY_DELIVERY gives a port's next packet record, when it is due, before the
span's end and acceptable, to the port's router input, counts how late it is, and closes the span when it was the last; a
header record without its payload ends the replay with code 2. REPLAY_FORCED_CHOICE applies the next recorded choice when it is
due and what it names exists. A write waits for the wake while the clocks are gated (12 R380 to R384; 02 R54). -/
def Obligations.ReplaysRun : Prop :=
  (∀ s : State, ctlOn s = true → replayReady s = true → exec .replayGo s = .next { s with rru :=
    { s.rru with
      run := true, goCcc := s.ccc, t0 := BitVec.ofNat 64 (recCcc (recordAt s s.rru.replayStart.toNat)), commits := 0,
      next := (List.range 16).foldl (fun m p => Sparse.set 0 m p (BitVec.ofNat 64 (s.rru.replayStart.toNat + 1))) [],
      digestPos := BitVec.ofNat 64 (s.rru.replayStart.toNat + 1) } }) ∧
  (∀ s : State, ctlOn s = true → replayReady s = false → exec .replayGo s = .next (pageErr pgRru cConfigInvalid s)) ∧
  (∀ s : State, ctlOn s = true →
    (s.rru.run = true → exec .replayStop s = .next { s with rru := { s.rru with run := false, endCode := 4 } }) ∧
    (s.rru.run = false → exec .replayStop s = .next s)) ∧
  (∀ (port : Fin 10) (s : State) (n : Nat), ctlOn s = true → s.rru.run = true →
    recordFrom s (isPacketOf port.val) (portNext s port.val) = some n → n < (spanEnd s).1 →
    s.rru.goCcc.toNat + (recCcc (recordAt s n) - s.rru.t0.toNat) ≤ s.ccc.toNat →
    (¬(recKind (recordAt s n) = 1 ∧ recPay (recordAt s n) = false) → replayAccepts s (recordPacket s (recordAt s n)) = true →
      exec (.replayDelivery port) s = .next (closeSpan (mRru (fun r =>
          { r with next := Sparse.set 0 r.next port.val (BitVec.ofNat 64 (n + 1)) })
        (bump pgRru (·.rru.slip) (fun v => mRru fun r => { r with slip := v })
          (s.ccc.toNat - (s.rru.goCcc.toNat + (recCcc (recordAt s n) - s.rru.t0.toNat)))
          (mRtr (fun t => { t with inputs := Sparse.modify [] t.inputs port.val (· ++ [recordPacket s (recordAt s n)]) }) s))))) ∧
    (recKind (recordAt s n) = 1 → recPay (recordAt s n) = false →
      exec (.replayDelivery port) s = .next { s with rru := { s.rru with run := false, endCode := 2 } })) ∧
  (∀ (n : Nat) (s t : State), ctlOn s = true → s.rru.run = true → recordFrom s isForced (portNext s 15) = some n →
    s.rru.goCcc.toNat + (recCcc (recordAt s n) - s.rru.t0.toNat) ≤ s.ccc.toNat → applyForced (recordAt s n) s = some t →
    exec (.replayForcedChoice n) s = .next { t with rru := { t.rru with next := Sparse.set 0 t.rru.next 15 (BitVec.ofNat 64 (n + 1)) } }) ∧
  (∀ s : State, ctlOn s = false →
    exec .replayGo s = .next (holdAccess 5 .replayGo s) ∧ exec .replayStop s = .next (holdAccess 5 .replayStop s))

/-- ECC errors that no injection is armed for, and the logs' clears. A single-bit error is counted for its memory, and one of a sequencer
memory in CTL as well. A double-bit error is logged and handled by its memory: 0 and 1 expire a running sequencer with cause 2, 2 to 4 are control
losses, 5 and 6 fail the session that holds the word (6 marking the word bad), 7 rewrites the object and reports, 8 treats the UP port's flit as
uncorrectable, 9 takes the UP link down at once with SRAM_UNCORRECTABLE, 10 and 11 end here (01 R19; 13 R389 to R393; the owner of a
buffer word is a free value, log 33). A write of a log's VALID bit clears FLT's ECC log, RED's failure log, LSU's authentication log; HIST_CLEAR
clears the histograms; each waits for the wake while its clock is gated (06 R212; 13 R419; 14 R444; 02 R54). -/
def Obligations.ErrorsAreLoggedAndHandled : Prop :=
  (∀ (mem : Fin 12) (s : State), memOn mem.val s = true → eccInjected s 1 mem.val = false →
    (2 ≤ mem.val → exec (.eccSingleBit mem) s = .next (eccSingleAs mem.val false s)) ∧
    (mem.val ≤ 1 → exec (.eccSingleBit mem) s = .next (eccSingleAs mem.val false
      (bump pgCtl (·.ctl.eccCorrected) (fun v => mCtl fun k => { k with eccCorrected := v }) 1 s)))) ∧
  (∀ (word : W32) (s t : State) (mem : Fin 12), memOn mem.val s = true → eccInjected s 2 mem.val = false →
    t = logDouble mem.val word.toNat false s →
    (mem.val ≤ 1 → s.ctl.run = true → exec (.eccDoubleBit mem word) s = .next (csqExpire 2 t)) ∧
    (2 ≤ mem.val → mem.val ≤ 4 → exec (.eccDoubleBit mem word) s = .next (controlLoss mem.val word.toNat false t)) ∧
    (mem.val = 5 → exec (.eccDoubleBit mem word) s = .next ((palmOwner t word.toNat).elim t
      fun i => failSession i cSramUncorrectable t)) ∧
    (mem.val = 6 → ∀ u, u = mRow (fun r => { r with bad := Sparse.set false r.bad word.toNat true }) t →
      exec (.eccDoubleBit mem word) s = .next ((thimbleOwner t word.toNat).elim u fun i => failSession i cSramUncorrectable u)) ∧
    (mem.val = 7 → exec (.eccDoubleBit mem word) s = .next (reportCode cSramUncorrectable (rewriteObject (word.toNat / 2) t))) ∧
    (mem.val = 8 → portUp s (Config.bufferOwner word.toNat % 10) = true →
      exec (.eccDoubleBit mem word) s = .next (badFlit (Config.bufferOwner word.toNat % 10) t)) ∧
    (mem.val = 9 → portUp s (Config.bufferOwner word.toNat % 10) = true →
      exec (.eccDoubleBit mem word) s =
        .next (linkDown (Config.bufferOwner word.toNat % 10) (some cSramUncorrectable) true false t)) ∧
    (10 ≤ mem.val → exec (.eccDoubleBit mem word) s = .next t)) ∧
  (∀ (word : W32) (s : State), portUp s (Config.bufferOwner word.toNat % 10) = true →
    ∃ t, exec (.eccDoubleBit 9 word) s = .next t ∧ portUp t (Config.bufferOwner word.toNat % 10) = false ∧
      (portOf t (Config.bufferOwner word.toNat % 10)).failCode = cSramUncorrectable) ∧
  (∀ (v : W32) (s : State), v.getLsbD 31 = true →
    (ctlOn s = true → exec (.eccLogClear v) s = .next { s with flt := { s.flt with eccLog := 0 } }) ∧
    (ctlOn s = true → exec (.redFailLogClear v) s =
      .next { s with red := { s.red with failGsid := 0, failSeq := 0, failInfo := 0, failDelta := 0 } }) ∧
    (fabricOn s = true → exec (.authLogClear v) s =
      .next { s with lsu := { s.lsu with authLog := 0, authLogSeq := 0, authLogCcc := 0 } })) ∧
  (∀ (v : W32) (s : State), ctlOn s = true → v.getLsbD 31 = false →
    exec (.eccLogClear v) s = .next s ∧ exec (.redFailLogClear v) s = .next s ∧ exec (.authLogClear v) s = .next s) ∧
  (∀ (v : W32) (s : State), ctlOn s = true → exec (.histClear v) s = .next { s with flt :=
    { s.flt with
      histEn := v.getLsbD 0, maxLevel := if v.extractLsb' 4 3 = 0 then 1 else v.extractLsb' 4 3, hist := [], lateWorst := [] } }) ∧
  (∀ (v : W32) (s : State),
    (ctlOn s = false → exec (.eccLogClear v) s = .next (holdAccess 5 (.eccLogClear v) s) ∧
      exec (.redFailLogClear v) s = .next (holdAccess 5 (.redFailLogClear v) s) ∧
      exec (.histClear v) s = .next (holdAccess 5 (.histClear v) s)) ∧
    (fabricOn s = false → exec (.authLogClear v) s = .next (holdAccess 5 (.authLogClear v) s)))

/-- LATE_CONTRIBUTION ends a session that is no gradient session and made no progress for SESS_TIMEOUT ticks with that code, and names it in
LAST_LATE. A write of INJ_CTL with ARM arms a fault of kind 1 to 10, of which kind 9 fires at once and kind 7 at once when
its port is UP; without ARM it disarms; with ARM and another kind it disarms and records CONFIG_INVALID; it waits for the wake while
the clocks are gated. STRAGGLER_EXPIRY ends the hold of a session when its time has come, and SILENT_CHIP_EXPIRY the chip's
silence, and its links that are DOWN may train again (13 R398, R417, R422; 02 R54; when kind 7 fires is the model's choice, log 84). -/
def Obligations.FaultsAndInjections : Prop :=
  (∀ (slot : Fin 4096) (s : State) (x : Session), ctlOn s = true → slot? s slot.val = some x → isGradient s x.d x.ctx = false →
    x.st ≠ .rejected → max 1 s.flt.sessTimeout.toNat ≤ s.tick - x.progTick →
    exec (.lateContribution slot) s = .next (endSession slot.val cLateContribution { s with flt :=
      { s.flt with
        lastLate := BitVec.ofNat 32 x.gsid,
        lastLateInfo := BitVec.ofNat 7 (if awaitsAdmission x then 64 else x.d.axis % 4 + awaitRank s x % 16 * 4) } })) ∧
  (∀ (v : W32) (s t : State) (kind p : Nat), ctlOn s = true → kind = bits v.toNat 3 0 → p = bits s.flt.injTarget.toNat 3 0 →
    t = { s with flt :=
      { s.flt with injKind := v.extractLsb' 0 4, injArm := v.getLsbD 4, injRepeat := v.extractLsb' 8 8, injFired := 0 } } →
    (v.getLsbD 4 = false → exec (.injectArm v) s = .next t) ∧
    (v.getLsbD 4 = true → 1 ≤ kind → kind ≤ 10 → kind ≠ 7 → kind ≠ 9 → exec (.injectArm v) s = .next t) ∧
    (v.getLsbD 4 = true → kind = 9 → exec (.injectArm v) s = .next (goSilent (fireInject t))) ∧
    (v.getLsbD 4 = true → kind = 7 → p < 10 → portUp s p = true →
      exec (.injectArm v) s = .next (linkDown p (some cLinkLost) true true (fireInject t))) ∧
    (v.getLsbD 4 = true → kind = 7 → 10 ≤ p ∨ portUp s p = false → exec (.injectArm v) s = .next t) ∧
    (v.getLsbD 4 = true → kind = 0 ∨ 10 < kind → exec (.injectArm v) s =
      .next (pageErr pgFlt cConfigInvalid { s with flt := { s.flt with injArm := false } }))) ∧
  (∀ (v : W32) (s : State), ctlOn s = false → exec (.injectArm v) s = .next (holdAccess 5 (.injectArm v) s)) ∧
  (∀ (slot : Fin 4096) (s : State) (x : Session) (t0 : Nat), ctlOn s = true → slot? s slot.val = some x →
    x.holdUntil = some t0 → t0 ≤ s.tick →
    exec (.stragglerExpiry slot) s = .next (mSlot slot.val (fun y => { y with held := false, holdUntil := none }) s)) ∧
  (∀ (s : State) (t0 : Nat), s.flt.silentUntil = some t0 → t0 ≤ s.tick →
    exec .silentChipExpiry s = .next (foldS (List.range 10) { s with flt := { s.flt with silent := false, silentUntil := none } }
      fun p s => if (portOf s p).st = 0 then toDown p s else s))
end

