-- ==== Sys2Proof/Laws/Bytes.lean ====
section
/-! SUPPORT. Laws/Bytes.lean: byte lists and the numbers they hold. -/

namespace Sys2Proof.Laws

open Sys2Proof.Machine

@[simp] theorem leBytes_length (n v : Nat) : (leBytes n v).length = n := by
  induction n generalizing v with
  | zero => rfl
  | succ n ih => simp [leBytes, ih]

theorem leNat_lt (l : List Byte) : leNat l < 256 ^ l.length := by
  induction l with
  | nil => simp [leNat]
  | cons b l ih =>
    have := b.isLt
    simp only [leNat, List.length_cons, Nat.pow_succ]
    omega

/-- A byte list is read back from the number it holds. -/
theorem leBytes_leNat (l : List Byte) : leBytes l.length (leNat l) = l := by
  induction l with
  | nil => rfl
  | cons b l ih =>
    have hb := b.isLt
    have e1 : BitVec.ofNat 8 (b.toNat + 256 * leNat l) = b := by
      apply BitVec.eq_of_toNat_eq
      rw [BitVec.toNat_ofNat]
      omega
    have e2 : (b.toNat + 256 * leNat l) / 256 = leNat l := by omega
    simp only [List.length_cons, leBytes, leNat, e1, e2, ih]

theorem slice_whole (l r : List Byte) : slice (l ++ r) 0 l.length = l := by
  simp [slice]

/-- The bytes after a first part. -/
theorem slice_after (l r : List Byte) : slice (l ++ r) l.length r.length = r := by
  simp [slice]

/-- A slice within the first part. -/
theorem slice_before (l r : List Byte) (i n : Nat) (h : i + n ≤ l.length) : slice (l ++ r) i n = slice l i n := by
  have e : ((l ++ r).drop i).take n = (l.drop i).take n := by
    rw [List.drop_append_of_le_length (by omega), List.take_append_of_le_length (by rw [List.length_drop]; omega)]
  simp only [slice, e]

end Sys2Proof.Laws
end

