-- ==== Sys2Proof/Laws/Sparse.lean ====
section
/-! SUPPORT. Laws/Sparse.lean: sparse arrays: what an update reads as, and that it keeps the canonical form. -/

namespace Sys2Proof.Laws

open Sys2Proof.Machine

variable {α : Type}

/-! ### The canonical form -/

theorem sparse_nil_wf (d : α) : Sparse.wf d [] := ⟨List.Pairwise.nil, fun _ h => by cases h⟩

theorem sparse_filter_wf {d : α} {m : Sparse α} (f : Nat × α → Bool) (h : Sparse.wf d m) : Sparse.wf d (m.filter f) :=
  ⟨h.1.filter f, fun p hp => h.2 p (List.mem_filter.1 hp).1⟩

theorem sparse_erase_wf {d : α} {m : Sparse α} (i : Nat) (h : Sparse.wf d m) : Sparse.wf d (Sparse.erase m i) :=
  sparse_filter_wf _ h

theorem sparse_mem_insert {m : Sparse α} {i : Nat} {v : α} {p : Nat × α} (h : p ∈ Sparse.insert i v m) :
    p = (i, v) ∨ p ∈ m := by
  induction m with
  | nil => simpa [Sparse.insert] using h
  | cons q m ih =>
    obtain ⟨j, u⟩ := q
    simp only [Sparse.insert] at h
    split at h
    · simpa using h
    · rcases List.mem_cons.1 h with h | h
      · exact .inr (List.mem_cons.2 (.inl h))
      · exact (ih h).imp id fun h => List.mem_cons.2 (.inr h)

theorem sparse_insert_wf {d : α} {m : Sparse α} {i : Nat} {v : α} (h : Sparse.wf d m) (hv : v ≠ d)
    (hi : ∀ p ∈ m, p.1 ≠ i) : Sparse.wf d (Sparse.insert i v m) := by
  induction m with
  | nil => exact ⟨by simp [Sparse.insert], by simpa [Sparse.insert] using hv⟩
  | cons q m ih =>
    obtain ⟨j, u⟩ := q
    obtain ⟨hp, hd⟩ := h
    rw [List.pairwise_cons] at hp
    have hji : j ≠ i := hi (j, u) (List.mem_cons.2 (.inl rfl))
    simp only [Sparse.insert]
    split
    · rename_i hlt
      refine ⟨List.pairwise_cons.2 ⟨fun p hm => ?_, List.pairwise_cons.2 hp⟩, fun p hm => ?_⟩
      · rcases List.mem_cons.1 hm with rfl | hm
        · exact hlt
        · exact Nat.lt_trans hlt (hp.1 p hm)
      · rcases List.mem_cons.1 hm with rfl | hm
        · exact hv
        · exact hd p hm
    · have hr := ih ⟨hp.2, fun p hm => hd p (List.mem_cons.2 (.inr hm))⟩
        (fun p hm => hi p (List.mem_cons.2 (.inr hm)))
      refine ⟨List.pairwise_cons.2 ⟨fun p hm => ?_, hr.1⟩, fun p hm => ?_⟩
      · rcases sparse_mem_insert hm with rfl | hm
        · simp only; omega
        · exact hp.1 p hm
      · rcases List.mem_cons.1 hm with rfl | hm
        · exact hd _ (List.mem_cons.2 (.inl rfl))
        · exact hr.2 p hm

theorem sparse_set_wf [DecidableEq α] {d : α} {m : Sparse α} (i : Nat) (v : α) (h : Sparse.wf d m) :
    Sparse.wf d (Sparse.set d m i v) := by
  unfold Sparse.set
  split
  · exact sparse_erase_wf i h
  · rename_i hv
    refine sparse_insert_wf (sparse_erase_wf i h) hv fun p hp => ?_
    have := (List.mem_filter.1 hp).2
    simpa using this

theorem sparse_modify_wf [DecidableEq α] {d : α} {m : Sparse α} (i : Nat) (f : α → α) (h : Sparse.wf d m) :
    Sparse.wf d (Sparse.modify d m i f) := sparse_set_wf i _ h

/-! ### Reading after an update -/

theorem sparse_get_erase (d : α) (m : Sparse α) (i j : Nat) :
    Sparse.get d (Sparse.erase m i) j = if j = i then d else Sparse.get d m j := by
  induction m with
  | nil => simp [Sparse.erase, Sparse.get]
  | cons q m ih =>
    obtain ⟨k, u⟩ := q
    simp only [Sparse.erase] at ih ⊢
    by_cases hk : k = i
    · subst hk
      simp only [List.filter_cons, bne_self_eq_false, Bool.false_eq_true, if_false, ih, Sparse.get]
      split <;> simp_all
    · have : (k != i) = true := by simpa using hk
      simp only [List.filter_cons, this, if_true, Sparse.get, ih]
      by_cases hj : j = k
      · subst hj; simp [hk]
      · simp [hj]

theorem sparse_get_insert (d : α) {m : Sparse α} (i : Nat) (v : α) (j : Nat) (hi : ∀ p ∈ m, p.1 ≠ i) :
    Sparse.get d (Sparse.insert i v m) j = if j = i then v else Sparse.get d m j := by
  induction m with
  | nil => simp [Sparse.insert, Sparse.get]
  | cons q m ih =>
    obtain ⟨k, u⟩ := q
    have hk : k ≠ i := hi (k, u) (List.mem_cons.2 (.inl rfl))
    have ih' := ih fun p hm => hi p (List.mem_cons.2 (.inr hm))
    simp only [Sparse.insert]
    split
    · simp [Sparse.get]
    · simp only [Sparse.get, ih']
      by_cases hj : j = k
      · subst hj; simp [hk]
      · simp [hj]

theorem sparse_get_set [DecidableEq α] (d : α) (m : Sparse α) (i : Nat) (v : α) (j : Nat) :
    Sparse.get d (Sparse.set d m i v) j = if j = i then v else Sparse.get d m j := by
  unfold Sparse.set
  split
  · rename_i hv; rw [sparse_get_erase, hv]
  · rw [sparse_get_insert d i v j (fun p hp => by simpa using (List.mem_filter.1 hp).2), sparse_get_erase]
    split <;> simp_all

theorem sparse_get_set_self [DecidableEq α] (d : α) (m : Sparse α) (i : Nat) (v : α) :
    Sparse.get d (Sparse.set d m i v) i = v := by rw [sparse_get_set, if_pos rfl]

theorem sparse_get_set_ne [DecidableEq α] (d : α) (m : Sparse α) {i j : Nat} (v : α) (h : j ≠ i) :
    Sparse.get d (Sparse.set d m i v) j = Sparse.get d m j := by rw [sparse_get_set, if_neg h]

theorem sparse_get_modify [DecidableEq α] (d : α) (m : Sparse α) (i : Nat) (f : α → α) (j : Nat) :
    Sparse.get d (Sparse.modify d m i f) j = if j = i then f (Sparse.get d m i) else Sparse.get d m j :=
  sparse_get_set d m i _ j

end Sys2Proof.Laws
end

