-- ==== Sys2Proof/Laws/Memory.lean ====
section
/-! SUPPORT. Laws/Memory.lean: memory: a read after a write, and that every memory operation keeps the canonical form. -/

namespace Sys2Proof.Laws

open Sys2Proof.Machine

/-! ### The canonical form -/

theorem memory_wf_nil : Memory.wf [] := sparse_nil_wf 0

theorem writeByte_wf {m : List Host.Cell} (a : Nat) (b : Byte) (h : Memory.wf m) : Memory.wf (writeByte m a b) :=
  sparse_set_wf (a % 2 ^ 48) b h

theorem writeBytes_wf {m : List Host.Cell} (a : Nat) (l : List Byte) (h : Memory.wf m) : Memory.wf (writeBytes m a l) := by
  induction l generalizing m a with
  | nil => exact h
  | cons b l ih => exact ih (a + 1) (writeByte_wf a b h)

/-! ### A read after a write -/

theorem readByte_writeByte (m : List Host.Cell) (a c : Nat) (b : Byte) :
    readByte (writeByte m a b) c = if c % 2 ^ 48 = a % 2 ^ 48 then b else readByte m c := sparse_get_set 0 m _ b _

theorem readByte_writeByte_self (m : List Host.Cell) (a : Nat) (b : Byte) : readByte (writeByte m a b) a = b := by
  rw [readByte_writeByte, if_pos rfl]

/-- A write of bytes leaves every other address alone. -/
theorem readByte_writeBytes_frame (m : List Host.Cell) (a : Nat) (l : List Byte) (c : Nat)
    (h : ∀ i < l.length, c % 2 ^ 48 ≠ (a + i) % 2 ^ 48) : readByte (writeBytes m a l) c = readByte m c := by
  induction l generalizing m a with
  | nil => rfl
  | cons b l ih =>
    have h0 := h 0 (by simp)
    rw [writeBytes, ih _ (a + 1) (fun i hi => by
      have := h (i + 1) (by simpa using hi)
      rwa [show a + (i + 1) = a + 1 + i by omega] at this), readByte_writeByte, if_neg (by simpa using h0)]

/-- A byte that a write of bytes covers reads as written. -/
theorem readByte_writeBytes (m : List Host.Cell) (a : Nat) (l : List Byte) (i : Nat) (hi : i < l.length)
    (hl : l.length ≤ 2 ^ 48) : readByte (writeBytes m a l) (a + i) = l[i] := by
  induction l generalizing m a i with
  | nil => cases hi
  | cons b l ih =>
    simp only [List.length_cons] at hi hl
    rw [writeBytes]
    cases i with
    | zero =>
      rw [readByte_writeBytes_frame _ _ _ _ (fun j hj => by omega)]
      exact readByte_writeByte_self m a b
    | succ i =>
      have := ih (writeByte m a b) (a + 1) i (by omega) (by omega)
      rw [show a + (i + 1) = a + 1 + i by omega, this]
      rfl

end Sys2Proof.Laws
end

