-- ==== Sys2Proof/Laws/Frame.lean ====
section
/-! SUPPORT. Laws/Frame.lean: what an operation may change. A mask has a bit for each part of the state; Keeps T P says
that a property P lives on where only the parts of T change. The lemmas keep_f of the Laws/Frame files say of each
operation f that it keeps every such P for the parts f may change, and, where f stores to memory, that P lives on where
stores do. -/

namespace Sys2Proof.Laws

open Sys2Proof.Machine Sys2Proof.Safety

/-- Two states agree outside the parts of a mask. -/
def Agree (T : Nat) (s t : State) : Prop := ∀ g : Group, T.testBit g.idx = false → Unchanged g s t

/-- P depends on none of the parts of a mask. -/
structure Keeps (T : Nat) (P : State → Prop) : Prop where
  use : ∀ {s t : State}, P s → Agree T s t → P t

/-- P survives the two operations that store to memory. -/
structure Stores (P : State → Prop) : Prop where
  write : ∀ (p : WPurpose) (a : Nat) (b : List Byte) (s : State), P s → P (empWrite p a b s)
  undo : ∀ (l : List Host.Cell) (s : State), P s → P { s with mem := l.foldl (fun m c => writeByte m c.1 c.2) s.mem }

variable {P : State → Prop} {s : State} {T T2 : Nat}

theorem Keeps.mono (K : Keeps T2 P) (h : T &&& T2 = T) : Keeps T P := by
  refine ⟨fun hs ha => K.use hs fun g hg => ha g ?_⟩
  have e : (T &&& T2).testBit g.idx = T.testBit g.idx := by rw [h]
  rw [Nat.testBit_and, hg, Bool.and_false] at e
  exact e.symm

/-- A part of the state outside a mask is such a P. -/
theorem keeps_unchanged (u : State) (g : Group) (h : T.testBit g.idx = false) : Keeps T (Unchanged g u) :=
  ⟨fun hs ha => unchanged_trans hs (ha g h)⟩

theorem keep_with {t : State} (K : Keeps T P) (hg : P s) (h : Agree T s t) : P t := K.use hg h

theorem keep_mCtl (K : Keeps 0x200 P) (f : Ctl → Ctl) (hg : P s) : P (mCtl f s) :=
  K.use hg fun g h => by cases g <;> first | rfl | (cases h; done) | exact fun _ m => m

theorem keep_mQue (K : Keeps 0x400 P) (f : Que → Que) (hg : P s) : P (mQue f s) :=
  K.use hg fun g h => by cases g <;> first | rfl | (cases h; done) | exact fun _ m => m

theorem keep_mSes (K : Keeps 0x2000 P) (f : Ses → Ses) (hg : P s) : P (mSes f s) :=
  K.use hg fun g h => by cases g <;> first | rfl | (cases h; done) | exact fun _ m => m

theorem keep_mTrk (K : Keeps 0x4000 P) (f : Trk → Trk) (hg : P s) : P (mTrk f s) :=
  K.use hg fun g h => by cases g <;> first | rfl | (cases h; done) | exact fun _ m => m

theorem keep_mRed (K : Keeps 0x8000 P) (f : Red → Red) (hg : P s) : P (mRed f s) :=
  K.use hg fun g h => by cases g <;> first | rfl | (cases h; done) | exact fun _ m => m

theorem keep_mFin (K : Keeps 0x10000 P) (f : Fin' → Fin') (hg : P s) : P (mFin f s) :=
  K.use hg fun g h => by cases g <;> first | rfl | (cases h; done) | exact fun _ m => m

theorem keep_mRow (K : Keeps 0x20000 P) (f : Row → Row) (hg : P s) : P (mRow f s) :=
  K.use hg fun g h => by cases g <;> first | rfl | (cases h; done) | exact fun _ m => m

theorem keep_mGas (K : Keeps 0x40000 P) (f : Gas → Gas) (hg : P s) : P (mGas f s) :=
  K.use hg fun g h => by cases g <;> first | rfl | (cases h; done) | exact fun _ m => m

theorem keep_mOpt (K : Keeps 0x80000 P) (f : Opt → Opt) (hg : P s) : P (mOpt f s) :=
  K.use hg fun g h => by cases g <;> first | rfl | (cases h; done) | exact fun _ m => m

theorem keep_mSpx (K : Keeps 0x100000 P) (f : Spx → Spx) (hg : P s) : P (mSpx f s) :=
  K.use hg fun g h => by cases g <;> first | rfl | (cases h; done) | exact fun _ m => m

theorem keep_mSyn (K : Keeps 0x200000 P) (f : Syn → Syn) (hg : P s) : P (mSyn f s) :=
  K.use hg fun g h => by cases g <;> first | rfl | (cases h; done) | exact fun _ m => m

theorem keep_mRtr (K : Keeps 0x400000 P) (f : Rtr → Rtr) (hg : P s) : P (mRtr f s) :=
  K.use hg fun g h => by cases g <;> first | rfl | (cases h; done) | exact fun _ m => m

theorem keep_mLnk (K : Keeps 0x800000 P) (f : Lnk → Lnk) (hg : P s) : P (mLnk f s) :=
  K.use hg fun g h => by cases g <;> first | rfl | (cases h; done) | exact fun _ m => m

theorem keep_mLsu (K : Keeps 0x41000000 P) (f : Lsu → Lsu) (hg : P s) : P (mLsu f s) :=
  K.use hg fun g h => by cases g <;> first | rfl | (cases h; done) | exact fun _ m => m

theorem keep_mRru (K : Keeps 0x2000000 P) (f : Rru → Rru) (hg : P s) : P (mRru f s) :=
  K.use hg fun g h => by cases g <;> first | rfl | (cases h; done) | exact fun _ m => m

theorem keep_mFlt (K : Keeps 0x4000000 P) (f : Flt → Flt) (hg : P s) : P (mFlt f s) :=
  K.use hg fun g h => by cases g <;> first | rfl | (cases h; done) | exact fun _ m => m

theorem keep_mPwr (K : Keeps 0x8000000 P) (f : Pwr → Pwr) (hg : P s) : P (mPwr f s) :=
  K.use hg fun g h => by cases g <;> first | rfl | (cases h; done) | exact fun _ m => m

theorem keep_mRst (K : Keeps 0x10000000 P) (f : Rst → Rst) (hg : P s) : P (mRst f s) :=
  K.use hg fun g h => by cases g <;> first | rfl | (cases h; done) | exact fun _ m => m

theorem keep_mDbg (K : Keeps 0x20000000 P) (f : Dbg → Dbg) (hg : P s) : P (mDbg f s) :=
  K.use hg fun g h => by cases g <;> first | rfl | (cases h; done) | exact fun _ m => m

theorem keep_mEmp (K : Keeps 0x100 P) (f : Emp → Emp) (hg : P s) : P (mEmp f s) :=
  K.use hg fun g h => by cases g <;> first | rfl | (cases h; done) | exact fun _ m => m

theorem keep_mTpl (K : Keeps 0x1000 P) (f : Tpl → Tpl) (hg : P s) : P (mTpl f s) :=
  K.use hg fun g h => by cases g <;> first | rfl | (cases h; done) | exact fun _ m => m

theorem keep_mTile (K : Keeps 0x800 P) (i : Nat) (f : Tile → Tile) (hg : P s) : P (mTile i f s) :=
  K.use hg fun g h => by cases g <;> first | rfl | (cases h; done) | exact fun _ m => m

theorem keep_mRing (K : Keeps 0x400 P) (i : Nat) (f : Ring → Ring) (hg : P s) : P (mRing i f s) :=
  K.use hg fun g h => by cases g <;> first | rfl | (cases h; done) | exact fun _ m => m

theorem keep_mPort (K : Keeps 0x800000 P) (i : Nat) (f : Port → Port) (hg : P s) : P (mPort i f s) :=
  K.use hg fun g h => by cases g <;> first | rfl | (cases h; done) | exact fun _ m => m

theorem keep_mBkt (K : Keeps 0x40000 P) (i : Nat) (f : Bkt → Bkt) (hg : P s) : P (mBkt i f s) :=
  K.use hg fun g h => by cases g <;> first | rfl | (cases h; done) | exact fun _ m => m

theorem keep_mObj (K : Keeps 0x200000 P) (i : Nat) (f : Obj → Obj) (hg : P s) : P (mObj i f s) :=
  K.use hg fun g h => by cases g <;> first | rfl | (cases h; done) | exact fun _ m => m

theorem keep_mWin (K : Keeps 0x200000 P) (i : Nat) (f : Window → Window) (hg : P s) : P (mWin i f s) :=
  K.use hg fun g h => by cases g <;> first | rfl | (cases h; done) | exact fun _ m => m

theorem keep_mHdr (K : Keeps 0x10 P) (i : Nat) (f : Hdr → Hdr) (hg : P s) : P (mHdr i f s) :=
  K.use hg fun g h => by cases g <;> first | rfl | (cases h; done) | exact fun _ m => m

theorem keep_mMon (K : Keeps 0x200000 P) (c i : Nat) (f : Monitor → Monitor) (hg : P s) : P (mMon c i f s) :=
  K.use hg fun g h => by cases g <;> first | rfl | (cases h; done) | exact fun _ m => m

theorem keep_putSlot (K : Keeps 0x2000 P) (i : Nat) (x : Session) (hg : P s) : P (putSlot i x s) :=
  K.use hg fun g h => by cases g <;> first | rfl | (cases h; done) | exact fun _ m => m

theorem keep_eraseSlot (K : Keeps 0x2000 P) (i : Nat) (hg : P s) : P (eraseSlot i s) :=
  K.use hg fun g h => by cases g <;> first | rfl | (cases h; done) | exact fun _ m => m

/-- A change of page LSU that adds no key. -/
theorem keep_mLsuQ (K : Keeps 0x1000000 P) {f : Lsu → Lsu} (H : ∀ l, ∀ k ∈ (f l).keys, k ∈ l.keys) (hg : P s) : P (mLsu f s) :=
  K.use hg fun g h => by cases g <;> first | rfl | (cases h; done) | exact fun _ m => m | exact H s.lsu

theorem keep_empWrite (W : Stores P) (p : WPurpose) (a : Nat) (b : List Byte) (h : P s) : P (empWrite p a b s) := W.write p a b s h

theorem keep_ite (c : Prop) [Decidable c] {t : State} (hs : P s) (ht : P t) : P (if c then s else t) := by
  split <;> assumption

theorem keep_foldl {α : Type} {f : State → α → State} (H : ∀ s a, P s → P (f s a)) (l : List α) (h : P s) : P (l.foldl f s) := by
  induction l generalizing s with
  | nil => exact h
  | cons a l ih => exact ih (H s a h)

theorem keep_foldPair {α β : Type} {f : β × State → α → β × State} (H : ∀ p a, P p.2 → P (f p a).2) (l : List α) {b : β}
    (h : P s) : P (l.foldl f (b, s)).2 := by
  induction l generalizing b s with
  | nil => exact h
  | cons a l ih => exact ih (b := (f (b, s) a).1) (H (b, s) a h)

theorem keep_foldS {α : Type} {f : α → State → State} (H : ∀ a s, P s → P (f a s)) (l : List α) (h : P s) :
    P (foldS l s f) := keep_foldl (fun s a => H a s) l h

/-- Every state an optional result holds has P. -/
structure KeepO (P : State → Prop) (o : Option State) : Prop where
  use : ∀ t, o = some t → P t

/-- The same of a taken packet and the state without it. -/
structure KeepO2 (P : State → Prop) (o : Option (Packet × State)) : Prop where
  use : ∀ p t, o = some (p, t) → P t

/-- The same of a taken band message. -/
structure KeepO3 (P : State → Prop) (o : Option (Packet × Band × State)) : Prop where
  use : ∀ p b t, o = some (p, b, t) → P t

theorem keepO_none : KeepO P none := ⟨fun _ h => nomatch h⟩
theorem keepO_some (h : P s) : KeepO P (some s) := ⟨fun _ e => Option.some.inj e ▸ h⟩
theorem keepO_ite (c : Prop) [Decidable c] {a b : Option State} (ha : KeepO P a) (hb : KeepO P b) :
    KeepO P (if c then a else b) := by
  split <;> assumption

theorem keepO_map {α : Type} {f : α → State} {o : Option α} (H : ∀ a, P (f a)) : KeepO P (o.map f) := by
  refine ⟨fun t h => ?_⟩
  cases o with
  | none => cases h
  | some a => cases h; exact H a

theorem keepO_bind {o : Option State} {f : State → Option State} (h : KeepO P o) (H : ∀ t, P t → KeepO P (f t)) :
    KeepO P (o.bind f) := by
  refine ⟨fun t e => ?_⟩
  cases o with
  | none => cases e
  | some a => exact (H a (h.use a rfl)).use t e

/-- A 64-bit register's write keeps P. -/
structure KeepW (P : State → Prop) (o : Option (W64 × (W64 → State → State))) : Prop where
  use : ∀ c put, o = some (c, put) → ∀ v t, P t → P (put v t)

theorem keepW_none : KeepW P none := ⟨fun _ _ h => nomatch h⟩
theorem keepW_some {c : W64} {put : W64 → State → State} (H : ∀ v t, P t → P (put v t)) : KeepW P (some (c, put)) :=
  ⟨fun _ _ e v t h => by cases e; exact H v t h⟩

theorem keepO_use {o : Option State} (h : KeepO P o) (e : o = some s) : P s := h.use s e
theorem keepO2_use {o : Option (Packet × State)} {p : Packet} (h : KeepO2 P o) (e : o = some (p, s)) : P s := h.use p s e
theorem keepO3_use {o : Option (Packet × Band × State)} {p : Packet} {b : Band} (h : KeepO3 P o)
    (e : o = some (p, b, s)) : P s := h.use p b s e

/-- Memory is in its canonical form and the queue is q. -/
def Good (q : List Instr) (s : State) : Prop := Memory.wf s.mem ∧ s.pending = q

/-- The mask without the parts mem and pending. -/
theorem keeps_good (q : List Instr) (h : T.testBit Group.mem.idx = false) (h2 : T.testBit Group.pending.idx = false) :
    Keeps T (Good q) :=
  ⟨fun {s t} hs ha => by
    have hm : t.mem = s.mem := ha .mem h
    have hp : t.pending = s.pending := ha .pending h2
    exact ⟨hm ▸ hs.1, hp.trans hs.2⟩⟩

theorem stores_good (q : List Instr) : Stores (Good q) := by
  refine ⟨fun p a b s h => ⟨writeBytes_wf _ _ h.1, h.2⟩, fun l s h => ⟨?_, h.2⟩⟩
  have H : ∀ (l : List Host.Cell) (m : List Host.Cell), Memory.wf m →
      Memory.wf (l.foldl (fun m c => writeByte m c.1 c.2) m) := by
    intro l
    induction l with
    | nil => exact fun m h => h
    | cons c l ih => exact fun m h => ih _ (writeByte_wf _ _ h)
  exact H l s.mem h.1

/-- Stores to memory change only the parts mem and emp. -/
theorem stores_unchanged (u : State) (g : Group) (h : g ≠ .mem) (h2 : g ≠ .emp) : Stores (Unchanged g u) := by
  constructor <;> (intros; cases g <;> first | contradiction | assumption)

end Sys2Proof.Laws
end

