-- ==== Sys2Proof/Laws/FrameOps.lean ====
section
/-! SUPPORT. Laws/FrameOps.lean: the operations of Machine/Ops.lean change no more than they may. -/

namespace Sys2Proof.Laws

open Sys2Proof.Machine

variable {P : State → Prop} {s : State}

theorem keep_mSlot (K : Keeps 0x2000 P) (i : Nat) (f : Session → Session) {s : State} (hg : P s) : P (mSlot i f s) := by
  unfold mSlot
  repeat' first
    | with_reducible assumption
    | with_reducible exact hg
    | intro _
    | with_reducible apply keep_putSlot (K.mono (by decide))
    | split
    | (refine keep_with K hg ?_; intro g h; cases g <;> first | rfl | (cases h; done) | exact fun _ m => m | exact fun _ m => nomatch m)

theorem keep_empPatch (K : Keeps 0x100 P) (W : Stores P) (p : WPurpose) (addr : Nat) (bytes : List Byte) {s : State} (hg : P s) : P (empPatch p addr bytes s) := by
  unfold empPatch
  repeat' first
    | with_reducible assumption
    | with_reducible exact hg
    | intro _
    | with_reducible apply keep_empWrite W
    | dsimp only

theorem keep_empRecord (K : Keeps 0x100 P) (W : Stores P) (p : WPurpose) (addr : Nat) (bytes : List Byte) {s : State} (hg : P s) : P (empRecord p addr bytes s) := by
  unfold empRecord
  repeat' first
    | with_reducible assumption
    | with_reducible exact hg
    | intro _
    | with_reducible apply keep_empPatch (K.mono (by decide)) W
    | with_reducible apply keep_ite
    | split
    | (refine keep_with K hg ?_; intro g h; cases g <;> first | rfl | (cases h; done) | exact fun _ m => m | exact fun _ m => nomatch m)

theorem keep_empFlush (K : Keeps 0x100 P) (W : Stores P) {s : State} (hg : P s) : P (empFlush s) := by
  unfold empFlush
  repeat' first
    | with_reducible assumption
    | with_reducible exact hg
    | intro _
    | with_reducible apply keep_empPatch (K.mono (by decide)) W
    | with_reducible apply keep_foldl
    | with_reducible apply keep_ite
    | split
    | (refine keep_with K hg ?_; intro g h; cases g <;> first | rfl | (cases h; done) | exact fun _ m => m | exact fun _ m => nomatch m)
    | dsimp only

theorem keep_putBack (K : Keeps 0x0 P) (W : Stores P) (undo : List Host.Cell) {s : State} (hg : P s) : P (putBack undo s) := W.undo undo s hg

theorem keep_undefBytes (K : Keeps 0x4 P) (W : Stores P) (a n : Nat) {s : State} (hg : P s) : P (undefBytes a n s) := by
  unfold undefBytes
  exact keep_with K (keep_putBack (K.mono (by decide)) W _ hg)
    (by intro g h; cases g <;> first | rfl | (cases h; done) | exact fun _ m => m | exact fun _ m => nomatch m)

theorem keep_empRead (K : Keeps 0x100 P) (p : RPurpose) (addr bytes : Nat) (undo : List Host.Cell) {s : State} (hg : P s) : P (empRead p addr bytes undo s) := by
  unfold empRead
  repeat' first
    | with_reducible assumption
    | with_reducible exact hg
    | intro _
    | (refine keep_with K hg ?_; intro g h; cases g <;> first | rfl | (cases h; done) | exact fun _ m => m | exact fun _ m => nomatch m)
    | dsimp only

theorem keep_readFor (K : Keeps 0x100 P) (p : RPurpose) (addr bytes : Nat) {s : State} (hg : P s) : P (readFor p addr bytes s).2 := by
  unfold readFor
  repeat' first
    | with_reducible assumption
    | with_reducible exact hg
    | intro _
    | with_reducible apply keep_empRead (K.mono (by decide))

theorem keep_empIssueOne (K : Keeps 0x100 P) (sub : Nat) (write : Bool) {s : State} (hg : P s) : P (empIssueOne sub write s) := by
  unfold empIssueOne
  repeat' first
    | with_reducible assumption
    | with_reducible exact hg
    | intro _
    | with_reducible apply keep_ite
    | split
    | (refine keep_with K hg ?_; intro g h; cases g <;> first | rfl | (cases h; done) | exact fun _ m => m | exact fun _ m => nomatch m)
    | dsimp only

theorem keep_empIssue (K : Keeps 0x104 P) {s : State} (hg : P s) : P (empIssue s) := by
  unfold empIssue
  split
  · exact hg
  · dsimp only
    have h0 : P ((List.range 8).foldl (fun t sub =>
        [false, true].foldl (fun t write => if empMayIssue s sub write then empIssueOne sub write t else t) t) s) :=
      keep_foldl (fun t sub ht => keep_foldl (fun u w hu => keep_ite _ (keep_empIssueOne (K.mono (by decide)) sub w hu) hu) _ ht) _ hg
    split
    · exact h0
    · exact keep_with K h0 (by intro g h; cases g <;> first | rfl | (cases h; done) | exact fun _ m => m | exact fun _ m => nomatch m)

theorem keep_raiseVec (K : Keeps 0x40 P) (v : Nat) {s : State} (hg : P s) : P (raiseVec v s) := by
  unfold raiseVec
  repeat' first
    | with_reducible assumption
    | with_reducible exact hg
    | intro _
    | with_reducible apply keep_ite
    | split
    | (refine keep_with K hg ?_; intro g h; cases g <;> first | rfl | (cases h; done) | exact fun _ m => m | exact fun _ m => nomatch m)

theorem keep_setErr (K : Keeps 0x50 P) (p : Nat) {s : State} (hg : P s) : P (setErr p s) := by
  unfold setErr
  repeat' first
    | with_reducible assumption
    | with_reducible exact hg
    | intro _
    | with_reducible apply keep_mHdr (K.mono (by decide))
    | with_reducible apply keep_raiseVec (K.mono (by decide))
    | with_reducible apply keep_ite
    | split
    | (refine keep_with K hg ?_; intro g h; cases g <;> first | rfl | (cases h; done) | exact fun _ m => m | exact fun _ m => nomatch m)
    | dsimp only

theorem keep_setSat (K : Keeps 0x50 P) (p : Nat) {s : State} (hg : P s) : P (setSat p s) := by
  unfold setSat
  repeat' first
    | with_reducible assumption
    | with_reducible exact hg
    | intro _
    | with_reducible apply keep_mHdr (K.mono (by decide))
    | with_reducible apply keep_raiseVec (K.mono (by decide))
    | with_reducible apply keep_ite
    | split
    | (refine keep_with K hg ?_; intro g h; cases g <;> first | rfl | (cases h; done) | exact fun _ m => m | exact fun _ m => nomatch m)
    | dsimp only

theorem keep_bump (K : Keeps 0x50 P) {w : Nat} (p : Nat) (get : State → BitVec w) {put : BitVec w → State → State} (n : Nat) {s : State}
    (H : ∀ v t, P t → P (put v t)) (h : P s) : P (bump p get put n s) := by
  unfold bump
  exact keep_ite _ (keep_setSat (K.mono (by decide)) p (H _ _ h)) (H _ _ h)

theorem keep_powerNak (K : Keeps 0x8000050 P) {s : State} (hg : P s) : P (powerNak s) := by
  unfold powerNak
  repeat' first
    | with_reducible assumption
    | with_reducible exact hg
    | intro _
    | with_reducible apply keep_bump (K.mono (by decide))
    | with_reducible apply keep_mPwr (K.mono (by decide))
    | (refine keep_with K hg ?_; intro g h; cases g <;> first | rfl | (cases h; done) | exact fun _ m => m | exact fun _ m => nomatch m)

theorem keep_wakeBy (K : Keeps 0x8000050 P) (cause : Nat) {s : State} (hg : P s) : P (wakeBy cause s) := by
  unfold wakeBy
  repeat' first
    | with_reducible assumption
    | with_reducible exact hg
    | intro _
    | with_reducible apply keep_mPwr (K.mono (by decide))
    | with_reducible apply keep_powerNak (K.mono (by decide))
    | with_reducible apply keep_ite
    | split
    | (refine keep_with K hg ?_; intro g h; cases g <;> first | rfl | (cases h; done) | exact fun _ m => m | exact fun _ m => nomatch m)
    | dsimp only

theorem keep_holdAccess (K : Keeps 0x8000050 P) (cause : Nat) (c : Instr) {s : State} (hg : P s) : P (holdAccess cause c s) := by
  unfold holdAccess
  repeat' first
    | with_reducible assumption
    | with_reducible exact hg
    | intro _
    | with_reducible apply keep_wakeBy (K.mono (by decide))
    | with_reducible apply keep_mPwr (K.mono (by decide))
    | (refine keep_with K hg ?_; intro g h; cases g <;> first | rfl | (cases h; done) | exact fun _ m => m | exact fun _ m => nomatch m)

theorem keep_capUse (K : Keeps 0x2000000 P) (addr beats : Nat) {s : State} (hg : P s) : P (capUse addr beats s) := by
  unfold capUse
  repeat' first
    | with_reducible assumption
    | with_reducible exact hg
    | intro _
    | with_reducible apply keep_mRru (K.mono (by decide))
    | with_reducible apply keep_foldl
    | split
    | (refine keep_with K hg ?_; intro g h; cases g <;> first | rfl | (cases h; done) | exact fun _ m => m | exact fun _ m => nomatch m)

theorem keep_hdrRecord (K : Keeps 0x2000150 P) (W : Stores P) (ccc kind port vc : Nat) (pay : Option Nat) (rest : List Byte) {s : State} (hg : P s) : P (hdrRecord ccc kind port vc pay rest s) := by
  unfold hdrRecord
  repeat' first
    | with_reducible assumption
    | with_reducible exact hg
    | intro _
    | with_reducible apply keep_empWrite W
    | with_reducible apply keep_bump (K.mono (by decide))
    | with_reducible apply keep_mRru (K.mono (by decide))
    | with_reducible apply keep_ite
    | split
    | (refine keep_with K hg ?_; intro g h; cases g <;> first | rfl | (cases h; done) | exact fun _ m => m | exact fun _ m => nomatch m)
    | dsimp only

theorem keep_payRecord (K : Keeps 0x2000150 P) (W : Stores P) (payload : List Byte) {s : State} (hg : P s) : P (payRecord payload s) := by
  unfold payRecord
  repeat' first
    | with_reducible assumption
    | with_reducible exact hg
    | intro _
    | with_reducible apply keep_empWrite W
    | with_reducible apply keep_bump (K.mono (by decide))
    | with_reducible apply keep_mRru (K.mono (by decide))
    | with_reducible apply keep_ite
    | split
    | (refine keep_with K hg ?_; intro g h; cases g <;> first | rfl | (cases h; done) | exact fun _ m => m | exact fun _ m => nomatch m)
    | dsimp only

theorem keep_hdrPaid (K : Keeps 0x2000150 P) (W : Stores P) (ccc kind port vc : Nat) (pay : Option Nat) (rest : List Byte) {s : State} (hg : P s) : P (hdrPaid ccc kind port vc pay rest s) := by
  unfold hdrPaid
  repeat' first
    | with_reducible assumption
    | with_reducible exact hg
    | intro _
    | with_reducible apply keep_capUse (K.mono (by decide))
    | with_reducible apply keep_hdrRecord (K.mono (by decide)) W

theorem keep_capDrop (K : Keeps 0x2000050 P) (h p : Nat) {s : State} (hg : P s) : P (capDrop h p s) := by
  unfold capDrop
  repeat' first
    | with_reducible assumption
    | with_reducible exact hg
    | intro _
    | with_reducible apply keep_bump (K.mono (by decide))
    | with_reducible apply keep_mRru (K.mono (by decide))
    | (refine keep_with K hg ?_; intro g h; cases g <;> first | rfl | (cases h; done) | exact fun _ m => m | exact fun _ m => nomatch m)

theorem keep_gapRecord (K : Keeps 0x2000150 P) (W : Stores P) {s : State} (hg : P s) : P (gapRecord s) := by
  unfold gapRecord
  repeat' first
    | with_reducible assumption
    | with_reducible exact hg
    | intro _
    | with_reducible apply keep_mRru (K.mono (by decide))
    | with_reducible apply keep_hdrPaid (K.mono (by decide)) W
    | with_reducible apply keep_ite
    | split
    | (refine keep_with K hg ?_; intro g h; cases g <;> first | rfl | (cases h; done) | exact fun _ m => m | exact fun _ m => nomatch m)

theorem keep_captureRec (K : Keeps 0x2000150 P) (W : Stores P) (ccc kind port vc : Nat) (rest : List Byte) (payload : Option (List Byte)) {s0 : State} (hg : P s0) : P (captureRec ccc kind port vc rest payload s0) := by
  unfold captureRec
  repeat' first
    | with_reducible assumption
    | with_reducible exact hg
    | intro _
    | with_reducible apply keep_gapRecord (K.mono (by decide)) W
    | with_reducible apply keep_capDrop (K.mono (by decide))
    | with_reducible apply keep_hdrPaid (K.mono (by decide)) W
    | with_reducible apply keep_capUse (K.mono (by decide))
    | with_reducible apply keep_payRecord (K.mono (by decide)) W
    | with_reducible apply keep_ite
    | split
    | dsimp only

theorem keep_freezeCapture (K : Keeps 0x2000150 P) (W : Stores P) (code : W16) {s : State} (hg : P s) : P (freezeCapture code s) := by
  unfold freezeCapture
  repeat' first
    | with_reducible assumption
    | with_reducible exact hg
    | intro _
    | with_reducible apply keep_hdrRecord (K.mono (by decide)) W
    | with_reducible apply keep_mRru (K.mono (by decide))
    | with_reducible apply keep_ite
    | split
    | (refine keep_with K hg ?_; intro g h; cases g <;> first | rfl | (cases h; done) | exact fun _ m => m | exact fun _ m => nomatch m)
    | dsimp only

theorem keep_reportCode (K : Keeps 0x2000150 P) (W : Stores P) (code : W16) {s : State} (hg : P s) : P (reportCode code s) := by
  unfold reportCode
  repeat' first
    | with_reducible assumption
    | with_reducible exact hg
    | intro _
    | with_reducible apply keep_freezeCapture (K.mono (by decide)) W
    | with_reducible apply keep_ite
    | split
    | dsimp only

theorem keep_pageErr (K : Keeps 0x2000150 P) (W : Stores P) (p : Nat) (code : W16) {s : State} (hg : P s) : P (pageErr p code s) := by
  unfold pageErr
  repeat' first
    | with_reducible assumption
    | with_reducible exact hg
    | intro _
    | with_reducible apply keep_bump (K.mono (by decide))
    | with_reducible apply keep_mHdr (K.mono (by decide))
    | with_reducible apply keep_reportCode (K.mono (by decide)) W
    | with_reducible apply keep_setErr (K.mono (by decide))
    | (refine keep_with K hg ?_; intro g h; cases g <;> first | rfl | (cases h; done) | exact fun _ m => m | exact fun _ m => nomatch m)
    | dsimp only

theorem keep_raiseError (K : Keeps 0x2000150 P) (W : Stores P) (code : W16) {s : State} (hg : P s) : P (raiseError code s) := by
  unfold raiseError
  repeat' first
    | with_reducible assumption
    | with_reducible exact hg
    | intro _
    | with_reducible apply keep_raiseVec (K.mono (by decide))
    | with_reducible apply keep_reportCode (K.mono (by decide)) W

theorem keep_raiseSecurity (K : Keeps 0x2000150 P) (W : Stores P) (code : W16) {s : State} (hg : P s) : P (raiseSecurity code s) := by
  unfold raiseSecurity
  repeat' first
    | with_reducible assumption
    | with_reducible exact hg
    | intro _
    | with_reducible apply keep_raiseVec (K.mono (by decide))
    | with_reducible apply keep_reportCode (K.mono (by decide)) W

theorem keep_raiseStep (K : Keeps 0x40 P) {s : State} (hg : P s) : P (raiseStep s) := by
  unfold raiseStep
  repeat' first
    | with_reducible assumption
    | with_reducible exact hg
    | intro _
    | with_reducible apply keep_raiseVec (K.mono (by decide))

theorem keep_writeMbx (K : Keeps 0x8000000 P) (ws : List W32) {s : State} (hg : P s) : P (writeMbx ws s) := by
  unfold writeMbx
  repeat' first
    | with_reducible assumption
    | with_reducible exact hg
    | intro _
    | with_reducible apply keep_mPwr (K.mono (by decide))
    | with_reducible apply keep_foldl
    | (refine keep_with K hg ?_; intro g h; cases g <;> first | rfl | (cases h; done) | exact fun _ m => m | exact fun _ m => nomatch m)

theorem keep_sendMbx (K : Keeps 0xc000000 P) (type : Nat) (ws : List W32) {s : State} (hg : P s) : P (sendMbx type ws s) := by
  unfold sendMbx
  repeat' first
    | with_reducible assumption
    | with_reducible exact hg
    | intro _
    | with_reducible apply keep_writeMbx (K.mono (by decide))
    | with_reducible apply keep_mFlt (K.mono (by decide))
    | with_reducible apply keep_mPwr (K.mono (by decide))
    | with_reducible apply keep_ite
    | split
    | (refine keep_with K hg ?_; intro g h; cases g <;> first | rfl | (cases h; done) | exact fun _ m => m | exact fun _ m => nomatch m)

theorem keep_raiseFault (K : Keeps 0xe000150 P) (W : Stores P) (code : W16) (where_ detail : Nat) (injected : Bool) {s : State} (hg : P s) : P (raiseFault code where_ detail injected s) := by
  unfold raiseFault
  repeat' first
    | with_reducible assumption
    | with_reducible exact hg
    | intro _
    | with_reducible apply keep_raiseVec (K.mono (by decide))
    | with_reducible apply keep_reportCode (K.mono (by decide)) W
    | with_reducible apply keep_sendMbx (K.mono (by decide))
    | dsimp only

theorem keep_eccSingleAs (K : Keeps 0xe000150 P) (W : Stores P) (n : Nat) (injected : Bool) {s : State} (hg : P s) : P (eccSingleAs n injected s) := by
  unfold eccSingleAs
  repeat' first
    | with_reducible assumption
    | with_reducible exact hg
    | intro _
    | with_reducible apply keep_bump (K.mono (by decide))
    | with_reducible apply keep_mFlt (K.mono (by decide))
    | with_reducible apply keep_raiseFault (K.mono (by decide)) W
    | with_reducible apply keep_ite
    | split
    | (refine keep_with K hg ?_; intro g h; cases g <;> first | rfl | (cases h; done) | exact fun _ m => m | exact fun _ m => nomatch m)
    | dsimp only

theorem keep_eccSingle (K : Keeps 0xe000150 P) (W : Stores P) (n : Nat) {s : State} (hg : P s) : P (eccSingle n s) := by
  unfold eccSingle
  repeat' first
    | with_reducible assumption
    | with_reducible exact hg
    | intro _
    | with_reducible apply keep_eccSingleAs (K.mono (by decide)) W

theorem keep_logDouble (K : Keeps 0x4000050 P) (n word : Nat) (injected : Bool) {s : State} (hg : P s) : P (logDouble n word injected s) := by
  unfold logDouble
  repeat' first
    | with_reducible assumption
    | with_reducible exact hg
    | intro _
    | with_reducible apply keep_mFlt (K.mono (by decide))
    | with_reducible apply keep_bump (K.mono (by decide))
    | with_reducible apply keep_ite
    | split
    | (refine keep_with K hg ?_; intro g h; cases g <;> first | rfl | (cases h; done) | exact fun _ m => m | exact fun _ m => nomatch m)

theorem keep_fireInject (K : Keeps 0x4000050 P) {s : State} (hg : P s) : P (fireInject s) := by
  unfold fireInject
  repeat' first
    | with_reducible assumption
    | with_reducible exact hg
    | intro _
    | with_reducible apply keep_mFlt (K.mono (by decide))
    | with_reducible apply keep_bump (K.mono (by decide))
    | (refine keep_with K hg ?_; intro g h; cases g <;> first | rfl | (cases h; done) | exact fun _ m => m | exact fun _ m => nomatch m)
    | dsimp only

theorem keep_choice (K : Keeps 0x2000154 P) (W : Stores P) (cls outcome : Nat) (subject : Nat) {s0 : State} (hg : P s0) : P (choice cls outcome subject s0) := by
  unfold choice
  repeat' first
    | with_reducible assumption
    | with_reducible exact hg
    | intro _
    | with_reducible apply keep_bump (K.mono (by decide))
    | with_reducible apply keep_mRru (K.mono (by decide))
    | with_reducible apply keep_captureRec (K.mono (by decide)) W
    | with_reducible apply keep_ite
    | split
    | (refine keep_with K hg ?_; intro g h; cases g <;> first | rfl | (cases h; done) | exact fun _ m => m | exact fun _ m => nomatch m)
    | dsimp only

theorem keep_decision (K : Keeps 0x2000200 P) (dkind slot subject tag code arg : Nat) {s : State} (hg : P s) : P (decision dkind slot subject tag code arg s) := by
  unfold decision
  repeat' first
    | with_reducible assumption
    | with_reducible exact hg
    | intro _
    | (refine keep_with K hg ?_; intro g h; cases g <;> first | rfl | (cases h; done) | exact fun _ m => m | exact fun _ m => nomatch m)
    | dsimp only

theorem keep_stepHeader (K : Keeps 0x2000150 P) (W : Stores P) {s : State} (hg : P s) : P (stepHeader s) := by
  unfold stepHeader
  repeat' first
    | with_reducible assumption
    | with_reducible exact hg
    | intro _
    | with_reducible apply keep_captureRec (K.mono (by decide)) W
    | dsimp only

theorem keep_haltStep (K : Keeps 0x80000 P) {s : State} (hg : P s) : P (haltStep s) := by
  unfold haltStep
  repeat' first
    | with_reducible assumption
    | with_reducible exact hg
    | intro _
    | with_reducible apply keep_mOpt (K.mono (by decide))
    | (refine keep_with K hg ?_; intro g h; cases g <;> first | rfl | (cases h; done) | exact fun _ m => m | exact fun _ m => nomatch m)

theorem keep_meetTag (K : Keeps 0x4000 P) (t : Option Nat) {s : State} (hg : P s) : P (meetTag t s) := by
  unfold meetTag
  repeat' first
    | with_reducible assumption
    | with_reducible exact hg
    | intro _
    | with_reducible apply keep_mTrk (K.mono (by decide))
    | split
    | (refine keep_with K hg ?_; intro g h; cases g <;> first | rfl | (cases h; done) | exact fun _ m => m | exact fun _ m => nomatch m)

theorem keep_inject (K : Keeps 0x404000 P) (p : Packet) {s : State} (hg : P s) : P (inject p s) := by
  unfold inject
  repeat' first
    | with_reducible assumption
    | with_reducible exact hg
    | intro _
    | with_reducible apply keep_meetTag (K.mono (by decide))
    | with_reducible apply keep_mRtr (K.mono (by decide))
    | with_reducible apply keep_ite
    | split
    | (refine keep_with K hg ?_; intro g h; cases g <;> first | rfl | (cases h; done) | exact fun _ m => m | exact fun _ m => nomatch m)

theorem keep_sendBand (K : Keeps 0x404000 P) (dst : Coord) (ctx : Nat) (step : W16) (gsid : Nat) (m : BandMsg) {s : State} (hg : P s) : P (sendBand dst ctx step gsid m s) := by
  unfold sendBand
  repeat' first
    | with_reducible assumption
    | with_reducible exact hg
    | intro _
    | with_reducible apply keep_inject (K.mono (by decide))

theorem keep_takeInbox (K : Keeps 0x400000 P) (ok : Packet → Bool) {s : State} (hg : P s) : KeepO2 P (takeInbox ok s) := by
  refine ⟨fun p t h => ?_⟩
  unfold takeInbox at h
  split at h
  · cases h
  · cases h
    exact keep_mRtr (K.mono (by decide)) _ hg

theorem keep_takeBand (K : Keeps 0x400000 P) (t : Nat) {s : State} (hg : P s) : KeepO3 P (takeBand t s) := by
  refine ⟨fun p b u h => ?_⟩
  unfold takeBand at h
  cases e : takeInbox (isBandOf t) s with
  | none => rw [e] at h; cases h
  | some v => rw [e] at h; cases h; exact (keep_takeInbox (K.mono (by decide)) _ hg).use _ _ e

theorem keep_progress (K : Keeps 0x2000 P) (slot : Nat) {s : State} (hg : P s) : P (progress slot s) := by
  unfold progress
  repeat' first
    | with_reducible assumption
    | with_reducible exact hg
    | intro _
    | with_reducible apply keep_mSlot (K.mono (by decide))
    | (refine keep_with K hg ?_; intro g h; cases g <;> first | rfl | (cases h; done) | exact fun _ m => m | exact fun _ m => nomatch m)

theorem keep_fireMonitor (K : Keeps 0x200900 P) (W : Stores P) (c m : Nat) (code : W16) {s : State} (hg : P s) : P (fireMonitor c m code s) := by
  unfold fireMonitor
  repeat' first
    | with_reducible assumption
    | with_reducible exact hg
    | intro _
    | with_reducible apply keep_mMon (K.mono (by decide))
    | with_reducible apply keep_mTile (K.mono (by decide))
    | with_reducible apply keep_empRecord (K.mono (by decide)) W
    | with_reducible apply keep_ite
    | split
    | (refine keep_with K hg ?_; intro g h; cases g <;> first | rfl | (cases h; done) | exact fun _ m => m | exact fun _ m => nomatch m)
    | dsimp only

theorem keep_evalMonitors (K : Keeps 0x200900 P) (W : Stores P) (p : Nat) {s : State} (hg : P s) : P (evalMonitors p s) := by
  unfold evalMonitors
  repeat' first
    | with_reducible assumption
    | with_reducible exact hg
    | intro _
    | with_reducible apply keep_fireMonitor (K.mono (by decide)) W
    | with_reducible apply keep_foldl
    | with_reducible apply keep_ite
    | split
    | dsimp only

theorem keep_traceRec (K : Keeps 0x100 P) (W : Stores P) (p ctx source : Nat) (chip : Coord) {s : State} (hg : P s) : P (traceRec p ctx source chip s) := by
  unfold traceRec
  repeat' first
    | with_reducible assumption
    | with_reducible exact hg
    | intro _
    | with_reducible apply keep_empRecord (K.mono (by decide)) W
    | with_reducible apply keep_ite
    | split

theorem keep_applyPrim (K : Keeps 0x200900 P) (W : Stores P) (p : Nat) (set : Bool) (v : W32) (local_ : Bool) (ctx source : Nat) (chip : Coord) {s : State} (hg : P s) : P (applyPrim p set v local_ ctx source chip s) := by
  unfold applyPrim
  repeat' first
    | with_reducible assumption
    | with_reducible exact hg
    | intro _
    | with_reducible apply keep_traceRec (K.mono (by decide)) W
    | with_reducible apply keep_evalMonitors (K.mono (by decide)) W
    | with_reducible apply keep_mObj (K.mono (by decide))
    | with_reducible apply keep_ite
    | split
    | (refine keep_with K hg ?_; intro g h; cases g <;> first | rfl | (cases h; done) | exact fun _ m => m | exact fun _ m => nomatch m)
    | dsimp only

theorem keep_localPrim (K : Keeps 0x200900 P) (W : Stores P) (ctx v : Nat) (set : Bool) (val : W32) (source : Nat) {s : State} (hg : P s) : P (localPrim ctx v set val source s).2 := by
  unfold localPrim
  repeat' first
    | with_reducible assumption
    | with_reducible exact hg
    | intro _
    | with_reducible apply keep_applyPrim (K.mono (by decide)) W
    | split
    | (refine keep_with K hg ?_; intro g h; cases g <;> first | rfl | (cases h; done) | exact fun _ m => m | exact fun _ m => nomatch m)

theorem keep_doneSignal (K : Keeps 0x200900 P) (W : Stores P) (d : Desc) (ctx source : Nat) {s : State} (hg : P s) : P (doneSignal d ctx source s) := by
  unfold doneSignal
  repeat' first
    | with_reducible assumption
    | with_reducible exact hg
    | intro _
    | with_reducible apply keep_localPrim (K.mono (by decide)) W
    | with_reducible apply keep_ite
    | split
    | dsimp only

theorem keep_statCode (K : Keeps 0x2000950 P) (W : Stores P) (port : Nat) (code : W16) (idx : BitVec 2) {s : State} (hg : P s) : P (statCode port code idx s) := by
  unfold statCode
  repeat' first
    | with_reducible assumption
    | with_reducible exact hg
    | intro _
    | with_reducible apply keep_mTile (K.mono (by decide))
    | with_reducible apply keep_reportCode (K.mono (by decide)) W
    | (refine keep_with K hg ?_; intro g h; cases g <;> first | rfl | (cases h; done) | exact fun _ m => m | exact fun _ m => nomatch m)

theorem keep_completeDesc (K : Keeps 0x2000550 P) (W : Stores P) (r : Nat) (n : W32) (gsid : Nat) (code : W16) (flags : Nat) (p : WPurpose) {s : State} (hg : P s) : P (completeDesc r n gsid code flags p s) := by
  unfold completeDesc
  repeat' first
    | with_reducible assumption
    | with_reducible exact hg
    | intro _
    | with_reducible apply keep_empRecord (K.mono (by decide)) W
    | with_reducible apply keep_reportCode (K.mono (by decide)) W
    | with_reducible apply keep_mRing (K.mono (by decide))
    | (refine keep_with K hg ?_; intro g h; cases g <;> first | rfl | (cases h; done) | exact fun _ m => m | exact fun _ m => nomatch m)
    | dsimp only

theorem keep_abortGroup (K : Keeps 0x27def54 P) (W : Stores P) (axis base n rank ctx gsid : Nat) (step : W16) (code : W16) {s : State} (hg : P s) : P (abortGroup axis base n rank ctx gsid step code s) := by
  unfold abortGroup
  repeat' first
    | with_reducible assumption
    | with_reducible exact hg
    | intro _
    | with_reducible apply keep_sendBand (K.mono (by decide))
    | with_reducible apply keep_abort (K.mono (by decide)) W
    | with_reducible apply keep_foldl
    | with_reducible apply keep_ite
    | split

end Sys2Proof.Laws
end

