-- ==== Sys2Proof/Laws/FrameRetire.lean ====
section
/-! SUPPORT. Laws/FrameRetire.lean: the operations of Machine/Retire.lean change no more than they may. -/

namespace Sys2Proof.Laws

open Sys2Proof.Machine

variable {P : State → Prop} {s : State}

theorem keep_applySignal (K : Keeps 0x2200954 P) (W : Stores P) (f : Fenced) {s : State} (hg : P s) : P (applySignal f s) := by
  unfold applySignal
  repeat' first
    | with_reducible assumption
    | with_reducible exact hg
    | intro _
    | with_reducible apply keep_applyPrim (K.mono (by decide)) W
    | with_reducible apply keep_choice (K.mono (by decide)) W
    | with_reducible apply keep_raiseError (K.mono (by decide)) W
    | with_reducible apply keep_bump (K.mono (by decide))
    | with_reducible apply keep_mSyn (K.mono (by decide))
    | with_reducible apply keep_ite
    | split
    | (refine keep_with K hg ?_; intro g h; cases g <;> first | rfl | (cases h; done) | exact fun _ m => m | exact fun _ m => nomatch m)
    | dsimp only

theorem keep_settleFences (K : Keeps 0x2200954 P) (W : Stores P) (gsid : Nat) (ok : Bool) {s : State} (hg : P s) : P (settleFences gsid ok s) := by
  unfold settleFences
  repeat' first
    | with_reducible assumption
    | with_reducible exact hg
    | intro _
    | with_reducible apply keep_mSyn (K.mono (by decide))
    | with_reducible apply keep_applySignal (K.mono (by decide)) W
    | with_reducible apply keep_bump (K.mono (by decide))
    | with_reducible apply keep_foldS
    | with_reducible apply keep_ite
    | split
    | (refine keep_with K hg ?_; intro g h; cases g <;> first | rfl | (cases h; done) | exact fun _ m => m | exact fun _ m => nomatch m)
    | dsimp only

theorem keep_landFences (K : Keeps 0x2200954 P) (W : Stores P) (gsid landed : Nat) {s : State} (hg : P s) : P (landFences gsid landed s) := by
  unfold landFences
  repeat' first
    | with_reducible assumption
    | with_reducible exact hg
    | intro _
    | with_reducible apply keep_mSyn (K.mono (by decide))
    | with_reducible apply keep_applySignal (K.mono (by decide)) W
    | with_reducible apply keep_foldS
    | (refine keep_with K hg ?_; intro g h; cases g <;> first | rfl | (cases h; done) | exact fun _ m => m | exact fun _ m => nomatch m)
    | dsimp only

theorem keep_dropParts (K : Keeps 0x800 P) (slot : Nat) {s : State} (hg : P s) : P (dropParts slot s) := by
  unfold dropParts
  repeat' first
    | with_reducible assumption
    | with_reducible exact hg
    | intro _
    | with_reducible apply keep_ite
    | split
    | (refine keep_with K hg ?_; intro g h; cases g <;> first | rfl | (cases h; done) | exact fun _ m => m | exact fun _ m => nomatch m)

theorem keep_dropWork (K : Keeps 0x1c000 P) (x : Session) {s : State} (hg : P s) : P (dropWork x s) := by
  unfold dropWork
  repeat' first
    | with_reducible assumption
    | with_reducible exact hg
    | intro _
    | with_reducible apply keep_meetTag (K.mono (by decide))
    | with_reducible apply keep_foldS
    | (refine keep_with K hg ?_; intro g h; cases g <;> first | rfl | (cases h; done) | exact fun _ m => m | exact fun _ m => nomatch m)
    | dsimp only

theorem keep_dropRequests (K : Keeps 0x100 P) (slot : Nat) {s : State} (hg : P s) : P (dropRequests slot s) := by
  unfold dropRequests
  repeat' first
    | with_reducible assumption
    | with_reducible exact hg
    | intro _
    | with_reducible apply keep_mEmp (K.mono (by decide))
    | with_reducible apply keep_ite
    | split
    | (refine keep_with K hg ?_; intro g h; cases g <;> first | rfl | (cases h; done) | exact fun _ m => m | exact fun _ m => nomatch m)

theorem keep_fillStash (K : Keeps 0x100004 P) (W : Stores P) (x : Session) (code : W16) {s : State} (hg : P s) : P (fillStash x code s) := by
  unfold fillStash
  repeat' first
    | with_reducible assumption
    | with_reducible exact hg
    | intro _
    | with_reducible apply keep_undefBytes (K.mono (by decide)) W
    | with_reducible apply keep_mSpx (K.mono (by decide))
    | with_reducible apply keep_ite
    | split
    | (refine keep_with K hg ?_; intro g h; cases g <;> first | rfl | (cases h; done) | exact fun _ m => m | exact fun _ m => nomatch m)
    | dsimp only

theorem keep_freeSlot (K : Keeps 0x1e900 P) (slot : Nat) {s : State} (hg : P s) : P (freeSlot slot s) := by
  unfold freeSlot
  repeat' first
    | with_reducible assumption
    | with_reducible exact hg
    | intro _
    | with_reducible apply keep_eraseSlot (K.mono (by decide))
    | with_reducible apply keep_dropRequests (K.mono (by decide))
    | with_reducible apply keep_dropParts (K.mono (by decide))
    | with_reducible apply keep_dropWork (K.mono (by decide))
    | split
    | (refine keep_with K hg ?_; intro g h; cases g <;> first | rfl | (cases h; done) | exact fun _ m => m | exact fun _ m => nomatch m)

theorem keep_retireSlot (K : Keeps 0x231ef54 P) (W : Stores P) (slot : Nat) (code : W16) (flags : Nat) {s : State} (hg : P s) : P (retireSlot slot code flags s) := by
  unfold retireSlot
  repeat' first
    | with_reducible assumption
    | with_reducible exact hg
    | intro _
    | with_reducible apply keep_decision (K.mono (by decide))
    | with_reducible apply keep_doneSignal (K.mono (by decide)) W
    | with_reducible apply keep_completeDesc (K.mono (by decide)) W
    | with_reducible apply keep_fillStash (K.mono (by decide)) W
    | with_reducible apply keep_settleFences (K.mono (by decide)) W
    | with_reducible apply keep_freeSlot (K.mono (by decide))
    | with_reducible apply keep_ite
    | split
    | (refine keep_with K hg ?_; intro g h; cases g <;> first | rfl | (cases h; done) | exact fun _ m => m | exact fun _ m => nomatch m)
    | dsimp only

theorem keep_failStep (K : Keeps 0x80000 P) (step : W16) {s : State} (hg : P s) : P (failStep step s) := by
  unfold failStep
  repeat' first
    | with_reducible assumption
    | with_reducible exact hg
    | intro _
    | with_reducible apply keep_ite
    | split
    | (refine keep_with K hg ?_; intro g h; cases g <;> first | rfl | (cases h; done) | exact fun _ m => m | exact fun _ m => nomatch m)

theorem keep_endSession (K : Keeps 0x27def54 P) (W : Stores P) (slot : Nat) (code : W16) {s : State} (hg : P s) : P (endSession slot code s) := by
  unfold endSession
  repeat' first
    | with_reducible assumption
    | with_reducible exact hg
    | intro _
    | with_reducible apply keep_reportCode (K.mono (by decide)) W
    | with_reducible apply keep_failStep (K.mono (by decide))
    | with_reducible apply keep_retireSlot (K.mono (by decide)) W
    | with_reducible apply keep_abortGroup (K.mono (by decide)) W
    | with_reducible apply keep_ite
    | split
    | (refine keep_with K hg ?_; intro g h; cases g <;> first | rfl | (cases h; done) | exact fun _ m => m | exact fun _ m => nomatch m)
    | dsimp only

theorem keep_failSession (K : Keeps 0x27def54 P) (W : Stores P) (slot : Nat) (code : W16) {s : State} (hg : P s) : P (failSession slot code s) := by
  unfold failSession
  repeat' first
    | with_reducible assumption
    | with_reducible exact hg
    | intro _
    | with_reducible apply keep_endSession (K.mono (by decide)) W
    | with_reducible apply keep_raiseVec (K.mono (by decide))
    | with_reducible apply keep_ite
    | split

theorem keep_spxFail (K : Keeps 0x100000 P) (code : W16) {s : State} (hg : P s) : P (spxFail code s) := by
  unfold spxFail
  repeat' first
    | with_reducible assumption
    | with_reducible exact hg
    | intro _
    | with_reducible apply keep_mSpx (K.mono (by decide))
    | (refine keep_with K hg ?_; intro g h; cases g <;> first | rfl | (cases h; done) | exact fun _ m => m | exact fun _ m => nomatch m)

theorem keep_failSpx (K : Keeps 0x27def54 P) (W : Stores P) (slot : Nat) (code : W16) {s : State} (hg : P s) : P (failSpx slot code s) := by
  unfold failSpx
  repeat' first
    | with_reducible assumption
    | with_reducible exact hg
    | intro _
    | with_reducible apply keep_failSession (K.mono (by decide)) W
    | with_reducible apply keep_spxFail (K.mono (by decide))

theorem keep_endSpx (K : Keeps 0x27def54 P) (W : Stores P) (slot : Nat) (code : W16) {s : State} (hg : P s) : P (endSpx slot code s) := by
  unfold endSpx
  repeat' first
    | with_reducible assumption
    | with_reducible exact hg
    | intro _
    | with_reducible apply keep_endSession (K.mono (by decide)) W
    | with_reducible apply keep_spxFail (K.mono (by decide))

theorem keep_headDone (K : Keeps 0x2004550 P) (W : Stores P) (r : Nat) (code : W16) (flags : Nat) {s : State} (hg : P s) : P (headDone r code flags s) := by
  unfold headDone
  repeat' first
    | with_reducible assumption
    | with_reducible exact hg
    | intro _
    | with_reducible apply keep_mRing (K.mono (by decide))
    | with_reducible apply keep_tagStall (K.mono (by decide))
    | with_reducible apply keep_completeDesc (K.mono (by decide)) W
    | with_reducible apply keep_ite
    | split
    | (refine keep_with K hg ?_; intro g h; cases g <;> first | rfl | (cases h; done) | exact fun _ m => m | exact fun _ m => nomatch m)
    | dsimp only

theorem keep_takeTag (K : Keeps 0x4000 P) (t slot gsid seq : Nat) {s : State} (hg : P s) : P (takeTag t slot gsid seq s) := by
  unfold takeTag
  repeat' first
    | with_reducible assumption
    | with_reducible exact hg
    | intro _
    | with_reducible apply keep_mTrk (K.mono (by decide))
    | with_reducible apply keep_ite
    | split
    | (refine keep_with K hg ?_; intro g h; cases g <;> first | rfl | (cases h; done) | exact fun _ m => m | exact fun _ m => nomatch m)
    | dsimp only

end Sys2Proof.Laws
end

