-- ==== Sys2Proof/Laws/FrameChunks.lean ====
section
/-! SUPPORT. Laws/FrameChunks.lean: the operations of Machine/Chunks.lean change no more than they may. -/

namespace Sys2Proof.Laws

open Sys2Proof.Machine

variable {P : State → Prop} {s : State}

theorem keep_consumeInput (K : Keeps 0x800 P) (slot : Nat) (x : Session) (e : Nat) {s : State} (hg : P s) : P (consumeInput slot x e s) := by
  unfold consumeInput
  repeat' first
    | with_reducible assumption
    | with_reducible exact hg
    | intro _
    | with_reducible apply keep_ite
    | split
    | (refine keep_with K hg ?_; intro g h; cases g <;> first | rfl | (cases h; done) | exact fun _ m => m | exact fun _ m => nomatch m)

theorem keep_countOut (K : Keeps 0x10050 P) (r : OutRun) {s : State} (hg : P s) : P (countOut r s) := by
  unfold countOut
  repeat' first
    | with_reducible assumption
    | with_reducible exact hg
    | intro _
    | with_reducible apply keep_bump (K.mono (by decide))
    | with_reducible apply keep_mFin (K.mono (by decide))
    | (refine keep_with K hg ?_; intro g h; cases g <;> first | rfl | (cases h; done) | exact fun _ m => m | exact fun _ m => nomatch m)

theorem keep_writeSpan (K : Keeps 0x100 P) (W : Stores P) (p : WPurpose) (addr : Nat) (bytes : List Byte) (last : Bool) {s : State} (hg : P s) : P (writeSpan p addr bytes last s) := by
  unfold writeSpan
  repeat' first
    | with_reducible assumption
    | with_reducible exact hg
    | intro _
    | with_reducible apply keep_empWrite W
    | with_reducible apply keep_ite
    | split
    | dsimp only

theorem keep_writeOutAs (K : Keeps 0x100 P) (W : Stores P) (pe pl : Nat → WPurpose) (f addr m e : Nat) (r : OutRun) {s : State} (hg : P s) : P (writeOutAs pe pl f addr m e r s) := by
  unfold writeOutAs
  repeat' first
    | with_reducible assumption
    | with_reducible exact hg
    | intro _
    | with_reducible apply keep_writeSpan (K.mono (by decide)) W
    | with_reducible apply keep_ite
    | split
    | dsimp only

theorem keep_writeOut (K : Keeps 0x100 P) (W : Stores P) (slot : Nat) (tag : Option Nat) (f addr m e : Nat) (r : OutRun) {s : State} (hg : P s) : P (writeOut slot tag f addr m e r s) := by
  unfold writeOut
  repeat' first
    | with_reducible assumption
    | with_reducible exact hg
    | intro _
    | with_reducible apply keep_writeOutAs (K.mono (by decide)) W

theorem keep_deliverOut (K : Keeps 0x6100 P) (W : Stores P) (slot : Nat) (tag : Option Nat) (m e : Nat) (r : OutRun) {s : State} (hg : P s) : P (deliverOut slot tag m e r s) := by
  unfold deliverOut
  repeat' first
    | with_reducible assumption
    | with_reducible exact hg
    | intro _
    | with_reducible apply keep_meetTag (K.mono (by decide))
    | with_reducible apply keep_mSlot (K.mono (by decide))
    | with_reducible apply keep_writeOut (K.mono (by decide)) W
    | with_reducible apply keep_ite
    | split
    | (refine keep_with K hg ?_; intro g h; cases g <;> first | rfl | (cases h; done) | exact fun _ m => m | exact fun _ m => nomatch m)

theorem keep_deliverRuns (K : Keeps 0x6100 P) (W : Stores P) (slot : Nat) (tag : Option Nat) (m : Nat) (l : List (Nat × List Byte × List Byte)) {s : State}
    (hg : P s) : P (deliverRuns slot tag m l s) := by
  induction l generalizing s with
  | nil => exact keep_meetTag (K.mono (by decide)) tag hg
  | cons r rs ih =>
    cases rs with
    | nil => exact keep_deliverOut (K.mono (by decide)) W slot tag m _ _ hg
    | cons r2 rs => exact ih (keep_deliverOut (K.mono (by decide)) W slot none m _ _ hg)

theorem keep_flushTiles (K : Keeps 0x800 P) (slot m have_ : Nat) {s : State} (hg : P s) : P (flushTiles slot m have_ s) := by
  unfold flushTiles
  repeat' first
    | with_reducible assumption
    | with_reducible exact hg
    | intro _
    | with_reducible apply keep_mTile (K.mono (by decide))
    | with_reducible apply keep_foldS
    | with_reducible apply keep_ite
    | split
    | (refine keep_with K hg ?_; intro g h; cases g <;> first | rfl | (cases h; done) | exact fun _ m => m | exact fun _ m => nomatch m)
    | dsimp only

theorem keep_useCredit (K : Keeps 0x2000 P) (slot host k : Nat) {s : State} (hg : P s) : P (useCredit slot host k s) := by
  unfold useCredit
  repeat' first
    | with_reducible assumption
    | with_reducible exact hg
    | intro _
    | with_reducible apply keep_mSlot (K.mono (by decide))
    | split
    | (refine keep_with K hg ?_; intro g h; cases g <;> first | rfl | (cases h; done) | exact fun _ m => m | exact fun _ m => nomatch m)

theorem keep_returnCredit (K : Keeps 0x406000 P) (slot peer k : Nat) {s : State} (hg : P s) : P (returnCredit slot peer k s) := by
  unfold returnCredit
  repeat' first
    | with_reducible assumption
    | with_reducible exact hg
    | intro _
    | with_reducible apply keep_mSlot (K.mono (by decide))
    | with_reducible apply keep_sendBand (K.mono (by decide))
    | with_reducible apply keep_slotReturn (K.mono (by decide))
    | with_reducible apply keep_ite
    | split
    | (refine keep_with K hg ?_; intro g h; cases g <;> first | rfl | (cases h; done) | exact fun _ m => m | exact fun _ m => nomatch m)
    | dsimp only

theorem keep_drainOuts (K : Keeps 0x406000 P) (slot : Nat) {s : State} (hg : P s) : P (drainOuts slot s) := by
  unfold drainOuts
  repeat' first
    | with_reducible assumption
    | with_reducible exact hg
    | intro _
    | with_reducible apply keep_mSlot (K.mono (by decide))
    | with_reducible apply keep_inject (K.mono (by decide))
    | with_reducible apply keep_useCredit (K.mono (by decide))
    | with_reducible apply keep_foldS
    | with_reducible apply keep_ite
    | split
    | (refine keep_with K hg ?_; intro g h; cases g <;> first | rfl | (cases h; done) | exact fun _ m => m | exact fun _ m => nomatch m)
    | dsimp only

theorem keep_dropOperand (K : Keeps 0x8000 P) (o : Operand) {s : State} (hg : P s) : P (dropOperand o s) := by
  unfold dropOperand
  repeat' first
    | with_reducible assumption
    | with_reducible exact hg
    | intro _
    | with_reducible apply keep_mRed (K.mono (by decide))
    | (refine keep_with K hg ?_; intro g h; cases g <;> first | rfl | (cases h; done) | exact fun _ m => m | exact fun _ m => nomatch m)

theorem keep_mOperand (K : Keeps 0x8000 P) (o : Operand) (f : Operand → Operand) {s : State} (hg : P s) : P (mOperand o f s) := by
  unfold mOperand
  repeat' first
    | with_reducible assumption
    | with_reducible exact hg
    | intro _
    | with_reducible apply keep_mRed (K.mono (by decide))
    | with_reducible apply keep_ite
    | split
    | (refine keep_with K hg ?_; intro g h; cases g <;> first | rfl | (cases h; done) | exact fun _ m => m | exact fun _ m => nomatch m)

theorem keep_stageOperand (K : Keeps 0x8100 P) (W : Stores P) (x : Session) (o : Operand) {s : State} (hg : P s) : P (stageOperand x o s) := by
  unfold stageOperand
  repeat' first
    | with_reducible assumption
    | with_reducible exact hg
    | intro _
    | with_reducible apply keep_empWrite W
    | with_reducible apply keep_mOperand (K.mono (by decide))
    | with_reducible apply keep_ite
    | split
    | (refine keep_with K hg ?_; intro g h; cases g <;> first | rfl | (cases h; done) | exact fun _ m => m | exact fun _ m => nomatch m)
    | dsimp only

theorem keep_fetchOperand (K : Keeps 0x8100 P) (slot : Nat) (o : Operand) {s : State} (hg : P s) : P (fetchOperand slot o s) := by
  unfold fetchOperand
  repeat' first
    | with_reducible assumption
    | with_reducible exact hg
    | intro _
    | with_reducible apply keep_readFor (K.mono (by decide))
    | with_reducible apply keep_mOperand (K.mono (by decide))
    | split
    | (refine keep_with K hg ?_; intro g h; cases g <;> first | rfl | (cases h; done) | exact fun _ m => m | exact fun _ m => nomatch m)
    | dsimp only

theorem keep_holdTagged (K : Keeps 0x8100 P) (W : Stores P) (x : Session) (seq : Nat) (g : Goal) (c : Option Chunk) (peer : Option Nat) (reads : List Nat) (tag : Option Nat) {s : State} (hg : P s) : P (holdTagged x seq g c peer reads tag s) := by
  unfold holdTagged
  repeat' first
    | with_reducible assumption
    | with_reducible exact hg
    | intro _
    | with_reducible apply keep_stageOperand (K.mono (by decide)) W
    | with_reducible apply keep_mRed (K.mono (by decide))
    | (refine keep_with K hg ?_; intro g h; cases g <;> first | rfl | (cases h; done) | exact fun _ m => m | exact fun _ m => nomatch m)
    | dsimp only

theorem keep_holdOperand (K : Keeps 0x8100 P) (W : Stores P) (x : Session) (seq : Nat) (g : Goal) (c : Option Chunk) (peer : Option Nat) (reads : List Nat) {s : State} (hg : P s) : P (holdOperand x seq g c peer reads s) := by
  unfold holdOperand
  repeat' first
    | with_reducible assumption
    | with_reducible exact hg
    | intro _
    | with_reducible apply keep_holdTagged (K.mono (by decide)) W

theorem keep_flushAbsent (K : Keeps 0x67def54 P) (W : Stores P) (slot : Nat) {s : State} (hg : P s) : P (flushAbsent slot s) := by
  unfold flushAbsent
  repeat' first
    | with_reducible assumption
    | with_reducible exact hg
    | intro _
    | with_reducible apply keep_mSlot (K.mono (by decide))
    | with_reducible apply keep_bump (K.mono (by decide))
    | with_reducible apply keep_mSpx (K.mono (by decide))
    | with_reducible apply keep_sendBand (K.mono (by decide))
    | with_reducible apply keep_absent (K.mono (by decide)) W
    | with_reducible apply keep_foldS
    | with_reducible apply keep_foldl
    | split
    | (refine keep_with K hg ?_; intro g h; cases g <;> first | rfl | (cases h; done) | exact fun _ m => m | exact fun _ m => nomatch m)
    | dsimp only

theorem keep_absentOutput (K : Keeps 0xa100 P) (W : Stores P) (slot : Nat) (x : Session) (seq k lo : Nat) (g : Goal) {s : State} (hg : P s) : P (absentOutput slot x seq k lo g s) := by
  unfold absentOutput
  repeat' first
    | with_reducible assumption
    | with_reducible exact hg
    | intro _
    | with_reducible apply keep_holdOperand (K.mono (by decide)) W
    | with_reducible apply keep_mSlot (K.mono (by decide))
    | with_reducible apply keep_ite
    | split
    | (refine keep_with K hg ?_; intro g h; cases g <;> first | rfl | (cases h; done) | exact fun _ m => m | exact fun _ m => nomatch m)

end Sys2Proof.Laws
end

