-- ==== Sys2Proof/Laws/FrameIssue.lean ====
section
/-! SUPPORT. Laws/FrameIssue.lean: the operations of Machine/Issue.lean change no more than they may. -/

namespace Sys2Proof.Laws

open Sys2Proof.Machine

variable {P : State → Prop} {s : State}

/-- What a plan does keeps them. -/
def KeepP (P : State → Prop) : Plan → Prop
  | .absent act => ∀ s, P s → P (act s)
  | .chunk _ act => ∀ t s, P s → P (act t s)
  | _ => True

theorem keepP_absent {act : State → State} (H : ∀ s, P s → P (act s)) : KeepP P (.absent act) := H
theorem keepP_chunk {n : Nat} {act : Nat → State → State} (H : ∀ t s, P s → P (act t s)) : KeepP P (.chunk n act) := H

theorem keep_sourceRead (K : Keeps 0x100 P) (slot : Nat) (x : Session) (m e k : Nat) {s : State} (hg : P s) :
    P (sourceRead slot x m e k s).2 := by
  unfold sourceRead
  split
  · exact hg
  · refine keep_foldPair (fun p r h => ?_) _ hg
    dsimp only
    split
    · exact keep_readFor (K.mono (by decide)) _ _ _ (keep_readFor (K.mono (by decide)) _ _ _ h)
    · exact keep_readFor (K.mono (by decide)) _ _ _ h

theorem keep_addLocal (K : Keeps 0x2000 P) (slot : Nat) (o : LocalOp) {s : State} (hg : P s) : P (addLocal slot o s) := by
  unfold addLocal
  repeat' first
    | with_reducible assumption
    | with_reducible exact hg
    | intro _
    | with_reducible apply keep_mSlot (K.mono (by decide))
    | (refine keep_with K hg ?_; intro g h; cases g <;> first | rfl | (cases h; done) | exact fun _ m => m | exact fun _ m => nomatch m)

theorem keep_auxReads (K : Keeps 0x100 P) (slot : Nat) (x : Session) (seq first k : Nat) {s : State} (hg : P s) :
    P (auxReads slot x seq first k s).2.2.2 := by
  unfold auxReads
  split
  · exact hg
  · dsimp only
    split
    · exact keep_readFor (K.mono (by decide)) _ _ _ (by split <;> first | exact hg | exact keep_readFor (K.mono (by decide)) _ _ _ hg)
    · split <;> first | exact hg | exact keep_readFor (K.mono (by decide)) _ _ _ hg

theorem keep_noteRoot (K : Keeps 0x200a150 P) (W : Stores P) (slot : Nat) (poison skip : Bool) (infs : Nat) {s : State} (hg : P s) : P (noteRoot slot poison skip infs s) := by
  unfold noteRoot
  repeat' first
    | with_reducible assumption
    | with_reducible exact hg
    | intro _
    | with_reducible apply keep_mSlot (K.mono (by decide))
    | with_reducible apply keep_mRed (K.mono (by decide))
    | with_reducible apply keep_bump (K.mono (by decide))
    | with_reducible apply keep_raiseError (K.mono (by decide)) W
    | with_reducible apply keep_raiseVec (K.mono (by decide))
    | with_reducible apply keep_ite
    | split
    | (refine keep_with K hg ?_; intro g h; cases g <;> first | rfl | (cases h; done) | exact fun _ m => m | exact fun _ m => nomatch m)
    | dsimp only

theorem keep_rootOutput (K : Keeps 0x201a150 P) (W : Stores P) (slot seq : Nat) (els : List (Option Nat)) (fmt : Nat) (poison skip : Bool) (tag : Option Nat) (reads : List Nat) {s : State} (hg : P s) : P (rootOutput slot seq els fmt poison skip tag reads s) := by
  unfold rootOutput
  repeat' first
    | with_reducible assumption
    | with_reducible exact hg
    | intro _
    | with_reducible apply keep_noteRoot (K.mono (by decide)) W
    | with_reducible apply keep_mSlot (K.mono (by decide))
    | with_reducible apply keep_auxReads (K.mono (by decide))
    | with_reducible apply keep_mFin (K.mono (by decide))
    | with_reducible apply keep_ite
    | split
    | (refine keep_with K hg ?_; intro g h; cases g <;> first | rfl | (cases h; done) | exact fun _ m => m | exact fun _ m => nomatch m)
    | dsimp only

theorem keep_sendOutput (K : Keeps 0x40e100 P) (W : Stores P) (slot : Nat) (x : Session) (seq : Nat) (g : Goal) (c : Chunk) (tag : Option Nat) (reads : List Nat) {s : State} (hg : P s) : P (sendOutput slot x seq g c tag reads s) := by
  unfold sendOutput
  repeat' first
    | with_reducible assumption
    | with_reducible exact hg
    | intro _
    | with_reducible apply keep_meetTag (K.mono (by decide))
    | with_reducible apply keep_holdOperand (K.mono (by decide)) W
    | with_reducible apply keep_holdTagged (K.mono (by decide)) W
    | with_reducible apply keep_mSlot (K.mono (by decide))
    | with_reducible apply keep_inject (K.mono (by decide))
    | with_reducible apply keep_useCredit (K.mono (by decide))
    | with_reducible apply keep_ite
    | split
    | (refine keep_with K hg ?_; intro g h; cases g <;> first | rfl | (cases h; done) | exact fun _ m => m | exact fun _ m => nomatch m)
    | dsimp only

theorem keep_setCursor (K : Keeps 0x2000 P) (slot c : Nat) {s : State} (hg : P s) : P (setCursor slot c s) := by
  unfold setCursor
  repeat' first
    | with_reducible assumption
    | with_reducible exact hg
    | intro _
    | with_reducible apply keep_mSlot (K.mono (by decide))
    | (refine keep_with K hg ?_; intro g h; cases g <;> first | rfl | (cases h; done) | exact fun _ m => m | exact fun _ m => nomatch m)

theorem keep_countIssue (K : Keeps 0x2000 P) (slot : Nat) {s : State} (hg : P s) : P (countIssue slot s) := by
  unfold countIssue
  repeat' first
    | with_reducible assumption
    | with_reducible exact hg
    | intro _
    | with_reducible apply keep_mSlot (K.mono (by decide))
    | (refine keep_with K hg ?_; intro g h; cases g <;> first | rfl | (cases h; done) | exact fun _ m => m | exact fun _ m => nomatch m)

theorem keep_declareLeaves (K : Keeps 0x67def54 P) (W : Stores P) (slot : Nat) (x : Session) (seqs : List Nat) {s : State} (hg : P s) : P (declareLeaves slot x seqs s) := by
  unfold declareLeaves
  repeat' first
    | with_reducible assumption
    | with_reducible exact hg
    | intro _
    | with_reducible apply keep_bump (K.mono (by decide))
    | with_reducible apply keep_mSpx (K.mono (by decide))
    | with_reducible apply keep_rootOutput (K.mono (by decide)) W
    | with_reducible apply keep_absentOutput (K.mono (by decide)) W
    | with_reducible apply keep_flushAbsent (K.mono (by decide)) W
    | with_reducible apply keep_foldS
    | split
    | (refine keep_with K hg ?_; intro g h; cases g <;> first | rfl | (cases h; done) | exact fun _ m => m | exact fun _ m => nomatch m)
    | dsimp only

theorem keep_issueLeaf (K : Keeps 0x640e950 P) (W : Stores P) (slot : Nat) (x : Session) (seq tag : Nat) {s : State} (hg : P s) : P (issueLeaf slot x seq tag s) := by
  unfold issueLeaf
  repeat' first
    | with_reducible assumption
    | with_reducible exact hg
    | intro _
    | with_reducible apply keep_sourceRead (K.mono (by decide))
    | with_reducible apply keep_takeTag (K.mono (by decide))
    | with_reducible apply keep_fireInject (K.mono (by decide))
    | with_reducible apply keep_noteRoot (K.mono (by decide)) W
    | with_reducible apply keep_sendOutput (K.mono (by decide)) W
    | with_reducible apply keep_addLocal (K.mono (by decide))
    | with_reducible apply keep_consumeInput (K.mono (by decide))
    | with_reducible apply keep_countIssue (K.mono (by decide))
    | with_reducible apply keep_setCursor (K.mono (by decide))
    | with_reducible apply keep_ite
    | split
    | (refine keep_with K hg ?_; intro g h; cases g <;> first | rfl | (cases h; done) | exact fun _ m => m | exact fun _ m => nomatch m)
    | dsimp only

theorem keep_planReduce (K : Keeps 0x67def54 P) (W : Stores P) {s : State} (slot : Nat) (x : Session) : KeepP P (planReduce s slot x) := by
  unfold planReduce
  repeat' first
    | with_reducible assumption
    | intro _
    | with_reducible apply keep_absent (K.mono (by decide)) W
    | with_reducible apply keep_setCursor (K.mono (by decide))
    | with_reducible apply keep_declareLeaves (K.mono (by decide)) W
    | with_reducible apply keep_issueLeaf (K.mono (by decide)) W
    | with_reducible apply keep_ite
    | exact trivial
    | with_reducible apply keepP_chunk
    | with_reducible apply keepP_absent
    | split
    | dsimp only

theorem keep_declareTo (K : Keeps 0x67def54 P) (W : Stores P) (slot : Nat) (x : Session) (seq : Nat) (ranks : List Nat) {s : State} (hg : P s) : P (declareTo slot x seq ranks s) := by
  unfold declareTo
  repeat' first
    | with_reducible assumption
    | with_reducible exact hg
    | intro _
    | with_reducible apply keep_bump (K.mono (by decide))
    | with_reducible apply keep_mSpx (K.mono (by decide))
    | with_reducible apply keep_flushAbsent (K.mono (by decide)) W
    | with_reducible apply keep_mSlot (K.mono (by decide))
    | (refine keep_with K hg ?_; intro g h; cases g <;> first | rfl | (cases h; done) | exact fun _ m => m | exact fun _ m => nomatch m)
    | dsimp only

theorem keep_markGot (K : Keeps 0x2000 P) (slot i : Nat) {s : State} (hg : P s) : P (markGot slot i s) := by
  unfold markGot
  repeat' first
    | with_reducible assumption
    | with_reducible exact hg
    | intro _
    | with_reducible apply keep_mSlot (K.mono (by decide))
    | (refine keep_with K hg ?_; intro g h; cases g <;> first | rfl | (cases h; done) | exact fun _ m => m | exact fun _ m => nomatch m)

theorem keep_planGather (K : Keeps 0x67def54 P) (W : Stores P) {s : State} (slot : Nat) (x : Session) : KeepP P (planGather s slot x) := by
  unfold planGather
  repeat' first
    | with_reducible assumption
    | intro _
    | with_reducible apply keep_absent (K.mono (by decide)) W
    | with_reducible apply keep_declareTo (K.mono (by decide)) W
    | with_reducible apply keep_setCursor (K.mono (by decide))
    | with_reducible apply keep_markGot (K.mono (by decide))
    | with_reducible apply keep_sourceRead (K.mono (by decide))
    | with_reducible apply keep_addLocal (K.mono (by decide))
    | with_reducible apply keep_takeTag (K.mono (by decide))
    | with_reducible apply keep_inject (K.mono (by decide))
    | with_reducible apply keep_consumeInput (K.mono (by decide))
    | with_reducible apply keep_countIssue (K.mono (by decide))
    | with_reducible apply keep_ite
    | exact trivial
    | with_reducible apply keepP_chunk
    | with_reducible apply keepP_absent
    | split
    | dsimp only

theorem keep_planExchange (K : Keeps 0x67def54 P) (W : Stores P) {s : State} (slot : Nat) (x : Session) : KeepP P (planExchange s slot x) := by
  unfold planExchange
  repeat' first
    | with_reducible assumption
    | intro _
    | with_reducible apply keep_absent (K.mono (by decide)) W
    | with_reducible apply keep_setCursor (K.mono (by decide))
    | with_reducible apply keep_markGot (K.mono (by decide))
    | with_reducible apply keep_declareTo (K.mono (by decide)) W
    | with_reducible apply keep_sourceRead (K.mono (by decide))
    | with_reducible apply keep_takeTag (K.mono (by decide))
    | with_reducible apply keep_addLocal (K.mono (by decide))
    | with_reducible apply keep_inject (K.mono (by decide))
    | with_reducible apply keep_countIssue (K.mono (by decide))
    | with_reducible apply keep_ite
    | exact trivial
    | with_reducible apply keepP_chunk
    | with_reducible apply keepP_absent
    | split
    | dsimp only

theorem keep_planSend (K : Keeps 0x67def54 P) (W : Stores P) {s : State} (slot : Nat) (x : Session) : KeepP P (planSend s slot x) := by
  unfold planSend
  repeat' first
    | with_reducible assumption
    | intro _
    | with_reducible apply keep_absent (K.mono (by decide)) W
    | with_reducible apply keep_setCursor (K.mono (by decide))
    | with_reducible apply keep_declareTo (K.mono (by decide)) W
    | with_reducible apply keep_sourceRead (K.mono (by decide))
    | with_reducible apply keep_addLocal (K.mono (by decide))
    | with_reducible apply keep_takeTag (K.mono (by decide))
    | with_reducible apply keep_consumeInput (K.mono (by decide))
    | with_reducible apply keep_countIssue (K.mono (by decide))
    | with_reducible apply keep_inject (K.mono (by decide))
    | with_reducible apply keep_ite
    | exact trivial
    | with_reducible apply keepP_chunk
    | with_reducible apply keepP_absent
    | split
    | dsimp only

theorem keep_planElementwise (K : Keeps 0x16900 P) {s : State} (slot : Nat) (x : Session) : KeepP P (planElementwise s slot x) := by
  unfold planElementwise
  repeat' first
    | with_reducible assumption
    | intro _
    | with_reducible apply keep_sourceRead (K.mono (by decide))
    | with_reducible apply keep_readFor (K.mono (by decide))
    | with_reducible apply keep_consumeInput (K.mono (by decide))
    | with_reducible apply keep_countIssue (K.mono (by decide))
    | with_reducible apply keep_setCursor (K.mono (by decide))
    | with_reducible apply keep_mFin (K.mono (by decide))
    | with_reducible apply keep_takeTag (K.mono (by decide))
    | with_reducible apply keep_ite
    | exact trivial
    | with_reducible apply keepP_chunk
    | with_reducible apply keepP_absent
    | split
    | dsimp only

theorem keep_topkSelf (K : Keeps 0x2000 P) (slot sh : Nat) (last : Bool) (l : List (Nat × F32)) {s : State} (hg : P s) : P (topkSelf slot sh last l s) := by
  unfold topkSelf
  repeat' first
    | with_reducible assumption
    | with_reducible exact hg
    | intro _
    | with_reducible apply keep_mSlot (K.mono (by decide))
    | split
    | (refine keep_with K hg ?_; intro g h; cases g <;> first | rfl | (cases h; done) | exact fun _ m => m | exact fun _ m => nomatch m)
    | dsimp only

theorem keep_topkReads (K : Keeps 0x100 P) (slot : Nat) (x : Session) (r : TopkRead) {s : State} (hg : P s) : P (topkReads slot x r s).2 := by
  unfold topkReads
  repeat' first
    | with_reducible assumption
    | with_reducible exact hg
    | intro _
    | with_reducible apply keep_readFor (K.mono (by decide))
    | with_reducible apply keep_ite
    | split
    | dsimp only

theorem keep_issueTopk (K : Keeps 0x640e150 P) (W : Stores P) (slot : Nat) (x : Session) (g : Goal) (r : TopkRead) (next tag : Nat) {s : State} (hg : P s) : P (issueTopk slot x g r next tag s) := by
  unfold issueTopk
  repeat' first
    | with_reducible assumption
    | with_reducible exact hg
    | intro _
    | with_reducible apply keep_topkReads (K.mono (by decide))
    | with_reducible apply keep_takeTag (K.mono (by decide))
    | with_reducible apply keep_fireInject (K.mono (by decide))
    | with_reducible apply keep_noteRoot (K.mono (by decide)) W
    | with_reducible apply keep_countIssue (K.mono (by decide))
    | with_reducible apply keep_mSlot (K.mono (by decide))
    | with_reducible apply keep_sendOutput (K.mono (by decide)) W
    | with_reducible apply keep_ite
    | split
    | (refine keep_with K hg ?_; intro g h; cases g <;> first | rfl | (cases h; done) | exact fun _ m => m | exact fun _ m => nomatch m)
    | dsimp only

theorem keep_planTopk (K : Keeps 0x67def54 P) (W : Stores P) {s : State} (slot : Nat) (x : Session) : KeepP P (planTopk s slot x) := by
  unfold planTopk
  repeat' first
    | with_reducible assumption
    | intro _
    | with_reducible apply keep_absent (K.mono (by decide)) W
    | with_reducible apply keep_failSpx (K.mono (by decide)) W
    | with_reducible apply keep_topkSelf (K.mono (by decide))
    | with_reducible apply keep_mSlot (K.mono (by decide))
    | with_reducible apply keep_topkReads (K.mono (by decide))
    | with_reducible apply keep_flushAbsent (K.mono (by decide)) W
    | with_reducible apply keep_absentOutput (K.mono (by decide)) W
    | with_reducible apply keep_issueTopk (K.mono (by decide)) W
    | with_reducible apply keep_ite
    | exact trivial
    | with_reducible apply keepP_chunk
    | with_reducible apply keepP_absent
    | split
    | dsimp only

theorem keep_writeCounts (K : Keeps 0x2100 P) (W : Stores P) (slot sender : Nat) (x : Session) (l : List Nat) (tag : Option Nat) {s : State} (hg : P s) : P (writeCounts slot sender x l tag s) := by
  unfold writeCounts
  repeat' first
    | with_reducible assumption
    | with_reducible exact hg
    | intro _
    | with_reducible apply keep_writeSpan (K.mono (by decide)) W
    | with_reducible apply keep_mSlot (K.mono (by decide))
    | with_reducible apply keep_foldS
    | with_reducible apply keep_foldl
    | with_reducible apply keep_ite
    | split
    | (refine keep_with K hg ?_; intro g h; cases g <;> first | rfl | (cases h; done) | exact fun _ m => m | exact fun _ m => nomatch m)
    | dsimp only

theorem keep_landExpert (K : Keeps 0x2100 P) (W : Stores P) (slot sender : Nat) (x : Session) (kind offset : Nat) (b : List Byte) (tag : Option Nat) {s : State} (hg : P s) : P (landExpert slot sender x kind offset b tag s) := by
  unfold landExpert
  repeat' first
    | with_reducible assumption
    | with_reducible exact hg
    | intro _
    | with_reducible apply keep_mSlot (K.mono (by decide))
    | with_reducible apply keep_writeSpan (K.mono (by decide)) W
    | split
    | (refine keep_with K hg ?_; intro g h; cases g <;> first | rfl | (cases h; done) | exact fun _ m => m | exact fun _ m => nomatch m)

theorem keep_absentRow (K : Keeps 0x2000 P) (slot sender row bytes : Nat) {s : State} (hg : P s) : P (absentRow slot sender row bytes s) := by
  unfold absentRow
  repeat' first
    | with_reducible assumption
    | with_reducible exact hg
    | intro _
    | with_reducible apply keep_mSlot (K.mono (by decide))
    | split
    | (refine keep_with K hg ?_; intro g h; cases g <;> first | rfl | (cases h; done) | exact fun _ m => m | exact fun _ m => nomatch m)

theorem keep_issueExpert (K : Keeps 0x406100 P) (slot : Nat) (x : Session) (dest i : Nat) (last : Bool) (p : XPacket) (next tag : Nat) {s : State} (hg : P s) : P (issueExpert slot x dest i last p next tag s) := by
  unfold issueExpert
  repeat' first
    | with_reducible assumption
    | with_reducible exact hg
    | intro _
    | with_reducible apply keep_readFor (K.mono (by decide))
    | with_reducible apply keep_takeTag (K.mono (by decide))
    | with_reducible apply keep_addLocal (K.mono (by decide))
    | with_reducible apply keep_inject (K.mono (by decide))
    | with_reducible apply keep_countIssue (K.mono (by decide))
    | with_reducible apply keep_setCursor (K.mono (by decide))
    | with_reducible apply keep_ite
    | split
    | (refine keep_with K hg ?_; intro g h; cases g <;> first | rfl | (cases h; done) | exact fun _ m => m | exact fun _ m => nomatch m)
    | dsimp only

theorem keep_planExpert (K : Keeps 0x67def54 P) (W : Stores P) {s : State} (slot : Nat) (x : Session) : KeepP P (planExpert s slot x) := by
  unfold planExpert
  repeat' first
    | with_reducible assumption
    | intro _
    | with_reducible apply keep_absent (K.mono (by decide)) W
    | with_reducible apply keep_mSlot (K.mono (by decide))
    | with_reducible apply keep_readFor (K.mono (by decide))
    | with_reducible apply keep_setCursor (K.mono (by decide))
    | with_reducible apply keep_absentRow (K.mono (by decide))
    | with_reducible apply keep_declareTo (K.mono (by decide)) W
    | with_reducible apply keep_issueExpert (K.mono (by decide))
    | with_reducible apply keep_ite
    | exact trivial
    | with_reducible apply keepP_chunk
    | with_reducible apply keepP_absent
    | split
    | dsimp only

theorem keep_planOf (K : Keeps 0x67def54 P) (W : Stores P) {s : State} (slot : Nat) (x : Session) : KeepP P (planOf s slot x) := by
  unfold planOf
  repeat' first
    | with_reducible assumption
    | intro _
    | with_reducible apply keep_planReduce (K.mono (by decide)) W
    | with_reducible apply keep_planGather (K.mono (by decide)) W
    | with_reducible apply keep_planExchange (K.mono (by decide)) W
    | with_reducible apply keep_planSend (K.mono (by decide)) W
    | with_reducible apply keep_planTopk (K.mono (by decide)) W
    | with_reducible apply keep_planExpert (K.mono (by decide)) W
    | with_reducible apply keep_planElementwise (K.mono (by decide))
    | exact trivial
    | with_reducible apply keepP_chunk
    | with_reducible apply keepP_absent
    | split

end Sys2Proof.Laws
end

