-- ==== Sys2Proof/Laws/FrameExpert.lean ====
section
/-! SUPPORT. Laws/FrameExpert.lean: the operations of Machine/Expert.lean change no more than they may. -/

namespace Sys2Proof.Laws

open Sys2Proof.Machine

variable {P : State → Prop} {s : State}

theorem keep_writeSlots (K : Keeps 0x100 P) (W : Stores P) (slot : Nat) (x : Session) (l : List (Nat × Nat)) {s : State} (hg : P s) : P (writeSlots slot x l s) := by
  unfold writeSlots
  repeat' first
    | with_reducible assumption
    | with_reducible exact hg
    | intro _
    | with_reducible apply keep_writeSpan (K.mono (by decide)) W
    | with_reducible apply keep_foldS
    | dsimp only

theorem keep_writeStats (K : Keeps 0x102150 P) (W : Stores P) (slot : Nat) (x : Session) {s : State} (hg : P s) : P (writeStats slot x s) := by
  unfold writeStats
  repeat' first
    | with_reducible assumption
    | with_reducible exact hg
    | intro _
    | with_reducible apply keep_empWrite W
    | with_reducible apply keep_bump (K.mono (by decide))
    | with_reducible apply keep_mSpx (K.mono (by decide))
    | with_reducible apply keep_mSlot (K.mono (by decide))
    | with_reducible apply keep_foldl
    | (refine keep_with K hg ?_; intro g h; cases g <;> first | rfl | (cases h; done) | exact fun _ m => m | exact fun _ m => nomatch m)
    | dsimp only

end Sys2Proof.Laws
end

