-- ==== Sys2Proof/Laws/FrameLocal.lean ====
section
/-! SUPPORT. Laws/FrameLocal.lean: the operations of Machine/Local.lean change no more than they may. -/

namespace Sys2Proof.Laws

open Sys2Proof.Machine

variable {P : State → Prop} {s : State}

theorem keep_writeToken (K : Keeps 0x16150 P) (W : Stores P) (slot : Nat) (x : Session) (t : Nat) {s : State} (hg : P s) : P (writeToken slot x t s) := by
  unfold writeToken
  repeat' first
    | with_reducible assumption
    | with_reducible exact hg
    | intro _
    | with_reducible apply keep_countOut (K.mono (by decide))
    | with_reducible apply keep_deliverOut (K.mono (by decide)) W
    | with_reducible apply keep_writeSpan (K.mono (by decide)) W
    | with_reducible apply keep_ite
    | split
    | dsimp only

theorem keep_gotIf (K : Keeps 0x2000 P) (slot : Nat) (k : Option Nat) {s : State} (hg : P s) : P (gotIf slot k s) := by
  unfold gotIf
  repeat' first
    | with_reducible assumption
    | with_reducible exact hg
    | intro _
    | with_reducible apply keep_markGot (K.mono (by decide))
    | split
    | (refine keep_with K hg ?_; intro g h; cases g <;> first | rfl | (cases h; done) | exact fun _ m => m | exact fun _ m => nomatch m)

theorem keep_routeTable (K : Keeps 0x27def54 P) (W : Stores P) (slot : Nat) (x : Session) {s : State} (hg : P s) : P (routeTable slot x s) := by
  unfold routeTable
  repeat' first
    | with_reducible assumption
    | with_reducible exact hg
    | intro _
    | with_reducible apply keep_endSpx (K.mono (by decide)) W
    | with_reducible apply keep_mSlot (K.mono (by decide))
    | with_reducible apply keep_writeSlots (K.mono (by decide)) W
    | with_reducible apply keep_ite
    | split
    | (refine keep_with K hg ?_; intro g h; cases g <;> first | rfl | (cases h; done) | exact fun _ m => m | exact fun _ m => nomatch m)

theorem keep_writeTokens (K : Keeps 0x16154 P) (W : Stores P) (slot : Nat) (x : Session) {s : State} (hg : P s) : P (writeTokens slot x s) := by
  unfold writeTokens
  dsimp only
  have h0 : P (foldS (List.range (tokenCount s x)) s fun t s => writeToken slot x t s) :=
    keep_foldS (fun t _ h => keep_writeToken (K.mono (by decide)) W slot x t h) _ hg
  exact keep_mSlot (K.mono (by decide)) _ _ (keep_with K h0 (by intro g h; cases g <;> first | rfl | (cases h; done) | exact fun _ m => m | exact fun _ m => nomatch m))

theorem keep_runLocal (K : Keeps 0x27def54 P) (W : Stores P) (slot : Nat) (o : LocalOp) {s0 : State} (hg : P s0) : P (runLocal slot o s0) := by
  unfold runLocal
  repeat' first
    | with_reducible assumption
    | with_reducible exact hg
    | intro _
    | with_reducible apply keep_countOut (K.mono (by decide))
    | with_reducible apply keep_gotIf (K.mono (by decide))
    | with_reducible apply keep_deliverRuns (K.mono (by decide)) W
    | with_reducible apply keep_landExpert (K.mono (by decide)) W
    | with_reducible apply keep_writeCounts (K.mono (by decide)) W
    | with_reducible apply keep_empWrite W
    | with_reducible apply keep_rootOutput (K.mono (by decide)) W
    | with_reducible apply keep_routeTable (K.mono (by decide)) W
    | with_reducible apply keep_writeTokens (K.mono (by decide)) W
    | with_reducible apply keep_foldS
    | split
    | (refine keep_with K hg ?_; intro g h; cases g <;> first | rfl | (cases h; done) | exact fun _ m => m | exact fun _ m => nomatch m)
    | dsimp only

theorem keep_settleLocals (K : Keeps 0x27def54 P) (W : Stores P) (slot : Nat) {s : State} (hg : P s) : P (settleLocals slot s) := by
  unfold settleLocals
  repeat' first
    | with_reducible assumption
    | with_reducible exact hg
    | intro _
    | with_reducible apply keep_mSlot (K.mono (by decide))
    | with_reducible apply keep_runLocal (K.mono (by decide)) W
    | with_reducible apply keep_foldS
    | split
    | (refine keep_with K hg ?_; intro g h; cases g <;> first | rfl | (cases h; done) | exact fun _ m => m | exact fun _ m => nomatch m)
    | dsimp only

end Sys2Proof.Laws
end

