-- ==== Sys2Proof/Laws/FrameComplete.lean ====
section
/-! SUPPORT. Laws/FrameComplete.lean: the operations of Machine/Complete.lean change no more than they may. -/

namespace Sys2Proof.Laws

open Sys2Proof.Machine

variable {P : State → Prop} {s : State}

theorem keep_finishSession (K : Keeps 0x235ef54 P) (W : Stores P) (slot : Nat) (code : W16) (flags : Nat) {s : State} (hg : P s) : P (finishSession slot code flags s) := by
  unfold finishSession
  repeat' first
    | with_reducible assumption
    | with_reducible exact hg
    | intro _
    | with_reducible apply keep_retireSlot (K.mono (by decide)) W
    | with_reducible apply keep_mBkt (K.mono (by decide))
    | with_reducible apply keep_ite
    | split
    | (refine keep_with K hg ?_; intro g h; cases g <;> first | rfl | (cases h; done) | exact fun _ m => m | exact fun _ m => nomatch m)
    | dsimp only

theorem keep_parkSession (K : Keeps 0x235ef54 P) (W : Stores P) (slot : Nat) {s : State} (hg : P s) : P (parkSession slot s) := by
  unfold parkSession
  repeat' first
    | with_reducible assumption
    | with_reducible exact hg
    | intro _
    | with_reducible apply keep_freeSlot (K.mono (by decide))
    | with_reducible apply keep_mBkt (K.mono (by decide))
    | with_reducible apply keep_retireSlot (K.mono (by decide)) W
    | with_reducible apply keep_foldl
    | split
    | (refine keep_with K hg ?_; intro g h; cases g <;> first | rfl | (cases h; done) | exact fun _ m => m | exact fun _ m => nomatch m)
    | dsimp only

theorem keep_retirePark (K : Keeps 0x2640f54 P) (W : Stores P) (b : Nat) (code : W16) (flags : Nat) (signal : Bool) {s : State} (hg : P s) : P (retirePark b code flags signal s) := by
  unfold retirePark
  repeat' first
    | with_reducible assumption
    | with_reducible exact hg
    | intro _
    | with_reducible apply keep_decision (K.mono (by decide))
    | with_reducible apply keep_signal (K.mono (by decide)) W
    | with_reducible apply keep_doneSignal (K.mono (by decide)) W
    | with_reducible apply keep_settleFences (K.mono (by decide)) W
    | with_reducible apply keep_completeDesc (K.mono (by decide)) W
    | with_reducible apply keep_mBkt (K.mono (by decide))
    | with_reducible apply keep_ite
    | split
    | (refine keep_with K hg ?_; intro g h; cases g <;> first | rfl | (cases h; done) | exact fun _ m => m | exact fun _ m => nomatch m)
    | dsimp only

theorem keep_tryComplete (K : Keeps 0x67def54 P) (W : Stores P) (slot : Nat) {s : State} (hg : P s) : P (tryComplete slot s) := by
  unfold tryComplete
  repeat' first
    | with_reducible assumption
    | with_reducible exact hg
    | intro _
    | with_reducible apply keep_parkSession (K.mono (by decide)) W
    | with_reducible apply keep_writeStats (K.mono (by decide)) W
    | with_reducible apply keep_finishSession (K.mono (by decide)) W
    | with_reducible apply keep_flushTiles (K.mono (by decide))
    | with_reducible apply keep_ite
    | split
    | (refine keep_with K hg ?_; intro g h; cases g <;> first | rfl | (cases h; done) | exact fun _ m => m | exact fun _ m => nomatch m)
    | dsimp only

theorem keep_enterRun (K : Keeps 0x67def54 P) (W : Stores P) (slot : Nat) {s : State} (hg : P s) : P (enterRun slot s) := by
  unfold enterRun
  repeat' first
    | with_reducible assumption
    | with_reducible exact hg
    | intro _
    | with_reducible apply keep_decision (K.mono (by decide))
    | with_reducible apply keep_mSlot (K.mono (by decide))
    | with_reducible apply keep_finishSession (K.mono (by decide)) W
    | with_reducible apply keep_tryComplete (K.mono (by decide)) W
    | with_reducible apply keep_ite
    | split
    | (refine keep_with K hg ?_; intro g h; cases g <;> first | rfl | (cases h; done) | exact fun _ m => m | exact fun _ m => nomatch m)
    | dsimp only

theorem keep_nextIssue (K : Keeps 0x67def54 P) (W : Stores P) {i : Nat} {x : Session} {p : Plan} (h : nextIssue s = some (i, x, p)) : KeepP P p := by
  unfold nextIssue at h
  obtain ⟨a, -, ha⟩ := List.exists_of_findSome?_eq_some h
  split at ha
  · cases ha
  · have hp := keep_planOf (K.mono (by decide)) W (s := s) a.1 a.2
    split at ha
    · cases ha
    · cases ha
    · cases ha; exact hp

theorem keep_tagStall (K : Keeps 0x4400 P) (x : Session) {s : State} (hg : P s) : P (tagStall x s) := by
  unfold tagStall
  repeat' first
    | with_reducible assumption
    | with_reducible exact hg
    | intro _
    | with_reducible apply keep_mTrk (K.mono (by decide))
    | with_reducible apply keep_mRing (K.mono (by decide))
    | with_reducible apply keep_ite
    | split
    | (refine keep_with K hg ?_; intro g h; cases g <;> first | rfl | (cases h; done) | exact fun _ m => m | exact fun _ m => nomatch m)
    | dsimp only

theorem keep_chunkIssue (K : Keeps 0x67def54 P) (W : Stores P) {s : State} (hg : P s) : P (chunkIssue s) := by
  unfold chunkIssue
  split
  · exact hg
  · split
    · next i x act h => exact keep_tryComplete (K.mono (by decide)) W i (keep_settleLocals (K.mono (by decide)) W i (keep_nextIssue (K.mono (by decide)) W h _ (keep_mTrk (K.mono (by decide)) _ hg)))
    · next i x seq act h =>
      have hp : KeepP P (.chunk seq act) := keep_nextIssue (K.mono (by decide)) W h
      split
      · exact keep_fireInject (K.mono (by decide)) (keep_mSlot (K.mono (by decide)) _ _ hg)
      · split
        · exact keep_tagStall (K.mono (by decide)) x hg
        · exact keep_tryComplete (K.mono (by decide)) W i (keep_settleLocals (K.mono (by decide)) W i (hp _ _ (keep_decision (K.mono (by decide)) 2 i x.gsid _ 0 seq (keep_mTrk (K.mono (by decide)) _ hg))))
    · exact hg

theorem keep_reportStall (K : Keeps 0x67def54 P) (W : Stores P) {s : State} (hg : P s) : P (reportStall s) := by
  unfold reportStall
  repeat' first
    | with_reducible assumption
    | with_reducible exact hg
    | intro _
    | with_reducible apply keep_raiseVec (K.mono (by decide))
    | with_reducible apply keep_pageErr (K.mono (by decide)) W
    | with_reducible apply keep_choice (K.mono (by decide)) W
    | with_reducible apply keep_mTrk (K.mono (by decide))
    | (refine keep_with K hg ?_; intro g h; cases g <;> first | rfl | (cases h; done) | exact fun _ m => m | exact fun _ m => nomatch m)
    | dsimp only

theorem keep_tagExhausted (K : Keeps 0x67def54 P) (W : Stores P) {s : State} (hg : P s) : P (tagExhausted s) := by
  unfold tagExhausted
  repeat' first
    | with_reducible assumption
    | with_reducible exact hg
    | intro _
    | with_reducible apply keep_reportStall (K.mono (by decide)) W
    | with_reducible apply keep_ite
    | split
    | (refine keep_with K hg ?_; intro g h; cases g <;> first | rfl | (cases h; done) | exact fun _ m => m | exact fun _ m => nomatch m)

end Sys2Proof.Laws
end

