-- ==== Sys2Proof/Laws/FrameGas.lean ====
section
/-! SUPPORT. Laws/FrameGas.lean: the operations of Machine/Gas.lean change no more than they may. -/

namespace Sys2Proof.Laws

open Sys2Proof.Machine

variable {P : State → Prop} {s : State}

theorem keep_gasUse (K : Keeps 0x40000 P) (sub beats : Nat) {s : State} (hg : P s) : P (gasUse sub beats s) := by
  unfold gasUse
  repeat' first
    | with_reducible assumption
    | with_reducible exact hg
    | intro _
    | with_reducible apply keep_mGas (K.mono (by decide))
    | split
    | (refine keep_with K hg ?_; intro g h; cases g <;> first | rfl | (cases h; done) | exact fun _ m => m | exact fun _ m => nomatch m)

theorem keep_setSpan (K : Keeps 0x40000 P) (sp : Nat) (current : Bool) {s : State} (hg : P s) : P (setSpan sp current s) := by
  unfold setSpan
  repeat' first
    | with_reducible assumption
    | with_reducible exact hg
    | intro _
    | with_reducible apply keep_mGas (K.mono (by decide))
    | (refine keep_with K hg ?_; intro g h; cases g <;> first | rfl | (cases h; done) | exact fun _ m => m | exact fun _ m => nomatch m)

theorem keep_preloadSpan (K : Keeps 0x40100 P) (W : Stores P) (b sp : Nat) {s : State} (hg : P s) : P (preloadSpan b sp s) := by
  unfold preloadSpan
  repeat' first
    | with_reducible assumption
    | with_reducible exact hg
    | intro _
    | with_reducible apply keep_empRead (K.mono (by decide))
    | with_reducible apply keep_setSpan (K.mono (by decide))
    | with_reducible apply keep_empWrite W
    | with_reducible apply keep_gasUse (K.mono (by decide))
    | with_reducible apply keep_foldS
    | with_reducible apply keep_ite
    | split
    | dsimp only

theorem keep_preloadSweep (K : Keeps 0x40100 P) (W : Stores P) {s : State} (hg : P s) : P (preloadSweep s) := by
  unfold preloadSweep
  repeat' first
    | with_reducible assumption
    | with_reducible exact hg
    | intro _
    | with_reducible apply keep_preloadSpan (K.mono (by decide)) W
    | with_reducible apply keep_ite
    | split
    | (refine keep_with K hg ?_; intro g h; cases g <;> first | rfl | (cases h; done) | exact fun _ m => m | exact fun _ m => nomatch m)

theorem keep_rejectDeposit (K : Keeps 0x2042150 P) (W : Stores P) (port : Nat) (code : W16) {s : State} (hg : P s) : P (rejectDeposit port code s) := by
  unfold rejectDeposit
  repeat' first
    | with_reducible assumption
    | with_reducible exact hg
    | intro _
    | with_reducible apply keep_mGas (K.mono (by decide))
    | with_reducible apply keep_lastReject (K.mono (by decide))
    | with_reducible apply keep_bump (K.mono (by decide))
    | with_reducible apply keep_reportCode (K.mono (by decide)) W
    | with_reducible apply keep_raiseError (K.mono (by decide)) W
    | with_reducible apply keep_ite
    | split
    | (refine keep_with K hg ?_; intro g h; cases g <;> first | rfl | (cases h; done) | exact fun _ m => m | exact fun _ m => nomatch m)
    | dsimp only

theorem keep_accumulate (K : Keeps 0x40100 P) (W : Stores P) (b beat : Nat) (es : List F32) {s : State} (hg : P s) : P (accumulate b beat es s) := by
  unfold accumulate
  repeat' first
    | with_reducible assumption
    | with_reducible exact hg
    | intro _
    | with_reducible apply keep_gasUse (K.mono (by decide))
    | with_reducible apply keep_empWrite W
    | with_reducible apply keep_empRead (K.mono (by decide))
    | with_reducible apply keep_ite
    | split
    | dsimp only

theorem keep_countDeposit (K : Keeps 0x22c0950 P) (W : Stores P) (port b : Nat) {s : State} (hg : P s) : P (countDeposit port b s) := by
  unfold countDeposit
  repeat' first
    | with_reducible assumption
    | with_reducible exact hg
    | intro _
    | with_reducible apply keep_mBkt (K.mono (by decide))
    | with_reducible apply keep_localPrim (K.mono (by decide)) W
    | with_reducible apply keep_raiseVec (K.mono (by decide))
    | with_reducible apply keep_pageErr (K.mono (by decide)) W
    | with_reducible apply keep_mOpt (K.mono (by decide))
    | with_reducible apply keep_ite
    | split
    | (refine keep_with K hg ?_; intro g h; cases g <;> first | rfl | (cases h; done) | exact fun _ m => m | exact fun _ m => nomatch m)
    | dsimp only

theorem keep_applyDeposit (K : Keeps 0x22c0950 P) (W : Stores P) (port : Nat) (h : W64) (beat : BitVec 512) {s : State} (hg : P s) : P (applyDeposit port h beat s) := by
  unfold applyDeposit
  repeat' first
    | with_reducible assumption
    | with_reducible exact hg
    | intro _
    | with_reducible apply keep_preloadSpan (K.mono (by decide)) W
    | with_reducible apply keep_accumulate (K.mono (by decide)) W
    | with_reducible apply keep_countDeposit (K.mono (by decide)) W
    | with_reducible apply keep_foldS
    | with_reducible apply keep_ite
    | split
    | dsimp only

theorem keep_deposit (K : Keeps 0xe2c2950 P) (W : Stores P) (port : Nat) (h : W64) (beat : BitVec 512) (ecc : Ecc) {s0 : State} (hg : P s0) : P (deposit port h beat ecc s0) := by
  unfold deposit
  repeat' first
    | with_reducible assumption
    | with_reducible exact hg
    | intro _
    | with_reducible apply keep_wakeBy (K.mono (by decide))
    | with_reducible apply keep_eccSingle (K.mono (by decide)) W
    | with_reducible apply keep_rejectDeposit (K.mono (by decide)) W
    | with_reducible apply keep_logDouble (K.mono (by decide))
    | with_reducible apply keep_bump (K.mono (by decide))
    | with_reducible apply keep_mGas (K.mono (by decide))
    | with_reducible apply keep_mTile (K.mono (by decide))
    | with_reducible apply keep_applyDeposit (K.mono (by decide)) W
    | with_reducible apply keep_ite
    | split
    | (refine keep_with K hg ?_; intro g h; cases g <;> first | rfl | (cases h; done) | exact fun _ m => m | exact fun _ m => nomatch m)
    | dsimp only

theorem keep_releaseHeld (K : Keeps 0xe2c2950 P) (W : Stores P) {s : State} (hg : P s) : P (releaseHeld s) := by
  unfold releaseHeld
  repeat' first
    | with_reducible assumption
    | with_reducible exact hg
    | intro _
    | with_reducible apply keep_mTile (K.mono (by decide))
    | with_reducible apply keep_deposit (K.mono (by decide)) W
    | with_reducible apply keep_foldS
    | with_reducible apply keep_ite
    | split
    | (refine keep_with K hg ?_; intro g h; cases g <;> first | rfl | (cases h; done) | exact fun _ m => m | exact fun _ m => nomatch m)
    | dsimp only

end Sys2Proof.Laws
end

