-- ==== Sys2Proof/Laws/FrameStepOps.lean ====
section
/-! SUPPORT. Laws/FrameStepOps.lean: the operations of Machine/StepOps.lean change no more than they may. -/

namespace Sys2Proof.Laws

open Sys2Proof.Machine

variable {P : State → Prop} {s : State}

theorem keep_haltWith (K : Keeps 0x2080150 P) (W : Stores P) (code : W16) {s : State} (hg : P s) : P (haltWith code s) := by
  unfold haltWith
  repeat' first
    | with_reducible assumption
    | with_reducible exact hg
    | intro _
    | with_reducible apply keep_raiseStep (K.mono (by decide))
    | with_reducible apply keep_reportCode (K.mono (by decide)) W
    | with_reducible apply keep_haltStep (K.mono (by decide))

theorem keep_advanceUpdate (K : Keeps 0x80000 P) {s : State} (hg : P s) : P (advanceUpdate s) := by
  unfold advanceUpdate
  repeat' first
    | with_reducible assumption
    | with_reducible exact hg
    | intro _
    | with_reducible apply keep_mOpt (K.mono (by decide))
    | with_reducible apply keep_ite
    | split
    | (refine keep_with K hg ?_; intro g h; cases g <;> first | rfl | (cases h; done) | exact fun _ m => m | exact fun _ m => nomatch m)

theorem keep_repeatRetire (K : Keeps 0x265ef54 P) (W : Stores P) (step : W16) {s : State} (hg : P s) : P (repeatRetire step s) := by
  unfold repeatRetire
  repeat' first
    | with_reducible assumption
    | with_reducible exact hg
    | intro _
    | with_reducible apply keep_decision (K.mono (by decide))
    | with_reducible apply keep_doneSignal (K.mono (by decide)) W
    | with_reducible apply keep_completeDesc (K.mono (by decide)) W
    | with_reducible apply keep_freeSlot (K.mono (by decide))
    | with_reducible apply keep_settleFences (K.mono (by decide)) W
    | with_reducible apply keep_retirePark (K.mono (by decide)) W
    | with_reducible apply keep_foldS
    | split
    | (refine keep_with K hg ?_; intro g h; cases g <;> first | rfl | (cases h; done) | exact fun _ m => m | exact fun _ m => nomatch m)
    | dsimp only

theorem keep_verdictRepeat (K : Keeps 0x26def54 P) (W : Stores P) {s : State} (hg : P s) : P (verdictRepeat s) := by
  unfold verdictRepeat
  repeat' first
    | with_reducible assumption
    | with_reducible exact hg
    | intro _
    | with_reducible apply keep_bump (K.mono (by decide))
    | with_reducible apply keep_mOpt (K.mono (by decide))
    | with_reducible apply keep_haltWith (K.mono (by decide)) W
    | with_reducible apply keep_repeatRetire (K.mono (by decide)) W
    | with_reducible apply keep_mGas (K.mono (by decide))
    | with_reducible apply keep_stepHeader (K.mono (by decide)) W
    | with_reducible apply keep_raiseStep (K.mono (by decide))
    | with_reducible apply keep_reportCode (K.mono (by decide)) W
    | with_reducible apply keep_ite
    | split
    | (refine keep_with K hg ?_; intro g h; cases g <;> first | rfl | (cases h; done) | exact fun _ m => m | exact fun _ m => nomatch m)
    | dsimp only

theorem keep_verdictSkip (K : Keeps 0x23def54 P) (W : Stores P) {s : State} (hg : P s) : P (verdictSkip s) := by
  unfold verdictSkip
  repeat' first
    | with_reducible assumption
    | with_reducible exact hg
    | intro _
    | with_reducible apply keep_bump (K.mono (by decide))
    | with_reducible apply keep_mOpt (K.mono (by decide))
    | with_reducible apply keep_finishSession (K.mono (by decide)) W
    | with_reducible apply keep_foldS
    | (refine keep_with K hg ?_; intro g h; cases g <;> first | rfl | (cases h; done) | exact fun _ m => m | exact fun _ m => nomatch m)
    | dsimp only

theorem keep_markEmpty (K : Keeps 0x40000 P) {s : State} (hg : P s) : P (markEmpty s) := by
  unfold markEmpty
  repeat' first
    | with_reducible assumption
    | with_reducible exact hg
    | intro _
    | with_reducible apply keep_mBkt (K.mono (by decide))
    | with_reducible apply keep_foldS
    | with_reducible apply keep_ite
    | split
    | (refine keep_with K hg ?_; intro g h; cases g <;> first | rfl | (cases h; done) | exact fun _ m => m | exact fun _ m => nomatch m)

theorem keep_verdictUpdate (K : Keeps 0x20c0150 P) (W : Stores P) (sq : F32) {s : State} (hg : P s) : P (verdictUpdate sq s) := by
  unfold verdictUpdate
  repeat' first
    | with_reducible assumption
    | with_reducible exact hg
    | intro _
    | with_reducible apply keep_mOpt (K.mono (by decide))
    | with_reducible apply keep_haltWith (K.mono (by decide)) W
    | with_reducible apply keep_advanceUpdate (K.mono (by decide))
    | with_reducible apply keep_markEmpty (K.mono (by decide))
    | with_reducible apply keep_ite
    | split
    | (refine keep_with K hg ?_; intro g h; cases g <;> first | rfl | (cases h; done) | exact fun _ m => m | exact fun _ m => nomatch m)
    | dsimp only

theorem keep_stepVerdict (K : Keeps 0x27def54 P) (W : Stores P) (st : BandStatus) (sq : F32) {s : State} (hg : P s) : P (stepVerdict st sq s) := by
  unfold stepVerdict
  repeat' first
    | with_reducible assumption
    | with_reducible exact hg
    | intro _
    | with_reducible apply keep_mOpt (K.mono (by decide))
    | with_reducible apply keep_decision (K.mono (by decide))
    | with_reducible apply keep_verdictRepeat (K.mono (by decide)) W
    | with_reducible apply keep_verdictSkip (K.mono (by decide)) W
    | with_reducible apply keep_verdictUpdate (K.mono (by decide)) W
    | with_reducible apply keep_ite
    | split
    | (refine keep_with K hg ?_; intro g h; cases g <;> first | rfl | (cases h; done) | exact fun _ m => m | exact fun _ m => nomatch m)
    | dsimp only

theorem keep_digestRecord (K : Keeps 0x2000150 P) (W : Stores P) {s : State} (hg : P s) : P (digestRecord s) := by
  unfold digestRecord
  repeat' first
    | with_reducible assumption
    | with_reducible exact hg
    | intro _
    | with_reducible apply keep_captureRec (K.mono (by decide)) W

theorem keep_advanceB (K : Keeps 0x80000 P) {s : State} (hg : P s) : P (advanceB s) := by
  unfold advanceB
  repeat' first
    | with_reducible assumption
    | with_reducible exact hg
    | intro _
    | with_reducible apply keep_mOpt (K.mono (by decide))
    | with_reducible apply keep_foldS
    | split
    | (refine keep_with K hg ?_; intro g h; cases g <;> first | rfl | (cases h; done) | exact fun _ m => m | exact fun _ m => nomatch m)
    | dsimp only

theorem keep_staleAll (K : Keeps 0x40000 P) {s : State} (hg : P s) : P (staleAll s) := by
  unfold staleAll
  repeat' first
    | with_reducible assumption
    | with_reducible exact hg
    | intro _
    | with_reducible apply keep_setSpan (K.mono (by decide))
    | with_reducible apply keep_foldS
    | dsimp only

theorem keep_commitStep (K : Keeps 0xe6c2f54 P) (W : Stores P) {s : State} (hg : P s) : P (commitStep s) := by
  have h0 := keep_digestRecord (K.mono (by decide)) W (keep_decision (K.mono (by decide)) 7 15 s.opt.step.toNat 0 0 0 hg)
  unfold commitStep
  repeat' first
    | with_reducible exact hg
    | with_reducible assumption
    | intro _
    | with_reducible apply keep_stepHeader (K.mono (by decide)) W
    | with_reducible apply keep_raiseStep (K.mono (by decide))
    | with_reducible apply keep_releaseHeld (K.mono (by decide)) W
    | with_reducible apply keep_mFlt (K.mono (by decide))
    | with_reducible apply keep_mSes (K.mono (by decide))
    | with_reducible apply keep_mOpt (K.mono (by decide))
    | with_reducible apply keep_foldS
    | with_reducible apply keep_retirePark (K.mono (by decide)) W
    | with_reducible apply keep_staleAll (K.mono (by decide))
    | with_reducible apply keep_mGas (K.mono (by decide))
    | with_reducible apply keep_advanceB (K.mono (by decide))
    | with_reducible apply keep_ite
    | exact keep_with K h0 (by intro g h; cases g <;> first | rfl | (cases h; done) | exact fun _ m => m | exact fun _ m => nomatch m)

theorem keep_holdStep (K : Keeps 0xe0c0350 P) (W : Stores P) {s : State} (hg : P s) : P (holdStep s) := by
  unfold holdStep
  repeat' first
    | with_reducible assumption
    | with_reducible exact hg
    | intro _
    | with_reducible apply keep_decision (K.mono (by decide))
    | with_reducible apply keep_mOpt (K.mono (by decide))
    | with_reducible apply keep_bump (K.mono (by decide))
    | with_reducible apply keep_mFlt (K.mono (by decide))
    | with_reducible apply keep_mGas (K.mono (by decide))
    | with_reducible apply keep_raiseFault (K.mono (by decide)) W
    | with_reducible apply keep_ite
    | split
    | (refine keep_with K hg ?_; intro g h; cases g <;> first | rfl | (cases h; done) | exact fun _ m => m | exact fun _ m => nomatch m)
    | dsimp only

theorem keep_stepResult (K : Keeps 0xe0c0350 P) (W : Stores P) (st : BandStatus) (epochStep : W16) {s : State} (hg : P s) : P (stepResult st epochStep s) := by
  unfold stepResult
  repeat' first
    | with_reducible assumption
    | with_reducible exact hg
    | intro _
    | with_reducible apply keep_mOpt (K.mono (by decide))
    | with_reducible apply keep_holdStep (K.mono (by decide)) W
    | with_reducible apply keep_ite
    | split
    | (refine keep_with K hg ?_; intro g h; cases g <;> first | rfl | (cases h; done) | exact fun _ m => m | exact fun _ m => nomatch m)

end Sys2Proof.Laws
end

