-- ==== Sys2Proof/Laws/FrameLink.lean ====
section
/-! SUPPORT. Laws/FrameLink.lean: the operations of Machine/Link.lean change no more than they may. -/

namespace Sys2Proof.Laws

open Sys2Proof.Machine

variable {P : State → Prop} {s : State}

theorem keep_countNakSent (K : Keeps 0x800050 P) (p : Nat) (hg : P s) : P (countNakSent p s) := by
  unfold countNakSent
  repeat' first
    | with_reducible assumption
    | with_reducible exact hg
    | intro _
    | with_reducible apply keep_bump (K.mono (by decide))
    | with_reducible apply keep_mPort (K.mono (by decide))
    | (refine keep_with K hg ?_; intro g h; cases g <;> first | rfl | (cases h; done) | exact fun _ m => m | exact fun _ m => nomatch m)

theorem keep_countNakRcvd (K : Keeps 0x800050 P) (p : Nat) (hg : P s) : P (countNakRcvd p s) := by
  unfold countNakRcvd
  repeat' first
    | with_reducible assumption
    | with_reducible exact hg
    | intro _
    | with_reducible apply keep_bump (K.mono (by decide))
    | with_reducible apply keep_mPort (K.mono (by decide))
    | (refine keep_with K hg ?_; intro g h; cases g <;> first | rfl | (cases h; done) | exact fun _ m => m | exact fun _ m => nomatch m)

theorem keep_countFec (K : Keeps 0x800050 P) (p n : Nat) (hg : P s) : P (countFec p n s) := by
  unfold countFec
  repeat' first
    | with_reducible assumption
    | with_reducible exact hg
    | intro _
    | with_reducible apply keep_bump (K.mono (by decide))
    | with_reducible apply keep_mPort (K.mono (by decide))
    | (refine keep_with K hg ?_; intro g h; cases g <;> first | rfl | (cases h; done) | exact fun _ m => m | exact fun _ m => nomatch m)

theorem keep_countUncorr (K : Keeps 0x800050 P) (p : Nat) (hg : P s) : P (countUncorr p s) := by
  unfold countUncorr
  repeat' first
    | with_reducible assumption
    | with_reducible exact hg
    | intro _
    | with_reducible apply keep_bump (K.mono (by decide))
    | with_reducible apply keep_mPort (K.mono (by decide))
    | (refine keep_with K hg ?_; intro g h; cases g <;> first | rfl | (cases h; done) | exact fun _ m => m | exact fun _ m => nomatch m)

theorem keep_countDup (K : Keeps 0x800050 P) (p n : Nat) (hg : P s) : P (countDup p n s) := by
  unfold countDup
  repeat' first
    | with_reducible assumption
    | with_reducible exact hg
    | intro _
    | with_reducible apply keep_bump (K.mono (by decide))
    | with_reducible apply keep_mPort (K.mono (by decide))
    | (refine keep_with K hg ?_; intro g h; cases g <;> first | rfl | (cases h; done) | exact fun _ m => m | exact fun _ m => nomatch m)

theorem keep_countMisroute (K : Keeps 0x400050 P) (hg : P s) : P (countMisroute  s) := by
  unfold countMisroute
  repeat' first
    | with_reducible assumption
    | with_reducible exact hg
    | intro _
    | with_reducible apply keep_bump (K.mono (by decide))
    | with_reducible apply keep_mRtr (K.mono (by decide))
    | (refine keep_with K hg ?_; intro g h; cases g <;> first | rfl | (cases h; done) | exact fun _ m => m | exact fun _ m => nomatch m)

theorem keep_countBandDrop (K : Keeps 0x200050 P) (hg : P s) : P (countBandDrop  s) := by
  unfold countBandDrop
  repeat' first
    | with_reducible assumption
    | with_reducible exact hg
    | intro _
    | with_reducible apply keep_bump (K.mono (by decide))
    | with_reducible apply keep_mSyn (K.mono (by decide))
    | (refine keep_with K hg ?_; intro g h; cases g <;> first | rfl | (cases h; done) | exact fun _ m => m | exact fun _ m => nomatch m)

theorem keep_discardPkt (K : Keeps 0x2604550 P) (W : Stores P) (k : Packet) {s : State} (hg : P s) : P (discardPkt k s) := by
  unfold discardPkt
  repeat' first
    | with_reducible assumption
    | with_reducible exact hg
    | intro _
    | with_reducible apply keep_meetTag (K.mono (by decide))
    | with_reducible apply keep_countBandDrop (K.mono (by decide))
    | with_reducible apply keep_countMisroute (K.mono (by decide))
    | with_reducible apply keep_headDone (K.mono (by decide)) W
    | with_reducible apply keep_ite
    | split
    | (refine keep_with K hg ?_; intro g h; cases g <;> first | rfl | (cases h; done) | exact fun _ m => m | exact fun _ m => nomatch m)
    | dsimp only

theorem keep_leaveBuffer (K : Keeps 0x800000 P) (k : Packet) {s : State} (hg : P s) : P (leaveBuffer k s) := by
  unfold leaveBuffer
  repeat' first
    | with_reducible assumption
    | with_reducible exact hg
    | intro _
    | with_reducible apply keep_mPort (K.mono (by decide))
    | with_reducible apply keep_ite
    | split
    | (refine keep_with K hg ?_; intro g h; cases g <;> first | rfl | (cases h; done) | exact fun _ m => m | exact fun _ m => nomatch m)

theorem keep_freeKeys (K : Keeps 0x1000000 P) (p : Nat) {s : State} (hg : P s) : P (freeKeys p s) := by
  unfold freeKeys
  repeat' first
    | with_reducible assumption
    | with_reducible exact hg
    | intro _
    | with_reducible refine keep_mLsuQ (K.mono (by decide)) (fun _ _ m => by first | exact m | (simp at m; done) | (simp at m; exact m.1)) ?_
    | (refine keep_with K hg ?_; intro g h; cases g <;> first | rfl | (cases h; done) | exact fun _ m => m | exact fun _ m => nomatch m)

theorem keep_settleHold (K : Keeps 0x400000 P) {s : State} (hg : P s) : P (settleHold s) := by
  unfold settleHold
  repeat' first
    | with_reducible assumption
    | with_reducible exact hg
    | intro _
    | with_reducible apply keep_mRtr (K.mono (by decide))
    | with_reducible apply keep_holdDone (K.mono (by decide))
    | with_reducible apply keep_ite
    | split
    | (refine keep_with K hg ?_; intro g h; cases g <;> first | rfl | (cases h; done) | exact fun _ m => m | exact fun _ m => nomatch m)

theorem keep_dropLink (K : Keeps 0xfe84550 P) (W : Stores P) (p : Nat) {s : State} (hg : P s) : P (dropLink p s) := by
  unfold dropLink
  repeat' first
    | with_reducible assumption
    | with_reducible exact hg
    | intro _
    | with_reducible apply keep_freeKeys (K.mono (by decide))
    | with_reducible apply keep_mPort (K.mono (by decide))
    | with_reducible apply keep_mOpt (K.mono (by decide))
    | with_reducible apply keep_settleHold (K.mono (by decide))
    | with_reducible apply keep_leaveBuffer (K.mono (by decide))
    | with_reducible apply keep_discardPkt (K.mono (by decide)) W
    | with_reducible apply keep_foldS
    | with_reducible apply keep_ite
    | split
    | (refine keep_with K hg ?_; intro g h; cases g <;> first | rfl | (cases h; done) | exact fun _ m => m | exact fun _ m => nomatch m)
    | dsimp only

theorem keep_toPhyWait (K : Keeps 0x800000 P) (p : Nat) {s : State} (hg : P s) : P (toPhyWait p s) := by
  unfold toPhyWait
  repeat' first
    | with_reducible assumption
    | with_reducible exact hg
    | intro _
    | with_reducible apply keep_mPort (K.mono (by decide))
    | (refine keep_with K hg ?_; intro g h; cases g <;> first | rfl | (cases h; done) | exact fun _ m => m | exact fun _ m => nomatch m)

theorem keep_toDown (K : Keeps 0x800000 P) (p : Nat) {s : State} (hg : P s) : P (toDown p s) := by
  unfold toDown
  repeat' first
    | with_reducible assumption
    | with_reducible exact hg
    | intro _
    | with_reducible apply keep_toPhyWait (K.mono (by decide))
    | with_reducible apply keep_mPort (K.mono (by decide))
    | with_reducible apply keep_ite
    | split
    | (refine keep_with K hg ?_; intro g h; cases g <;> first | rfl | (cases h; done) | exact fun _ m => m | exact fun _ m => nomatch m)

theorem keep_linkDown (K : Keeps 0xfe84550 P) (W : Stores P) (p : Nat) (code : Option W16) (fault inj : Bool) {s : State} (hg : P s) : P (linkDown p code fault inj s) := by
  unfold linkDown
  repeat' first
    | with_reducible assumption
    | with_reducible exact hg
    | intro _
    | with_reducible apply keep_dropLink (K.mono (by decide)) W
    | with_reducible apply keep_mPort (K.mono (by decide))
    | with_reducible apply keep_toDown (K.mono (by decide))
    | with_reducible apply keep_raiseFault (K.mono (by decide)) W
    | with_reducible apply keep_ite
    | split
    | (refine keep_with K hg ?_; intro g h; cases g <;> first | rfl | (cases h; done) | exact fun _ m => m | exact fun _ m => nomatch m)
    | dsimp only

theorem keep_portMessage (K : Keeps 0xc000000 P) (p : Nat) (code : W16) (st : Nat) {s : State} (hg : P s) : P (portMessage p code st s) := by
  unfold portMessage
  repeat' first
    | with_reducible assumption
    | with_reducible exact hg
    | intro _
    | with_reducible apply keep_sendMbx (K.mono (by decide))

theorem keep_failPort (K : Keeps 0xfe84550 P) (W : Stores P) (p : Nat) (code : W16) {s : State} (hg : P s) : P (failPort p code s) := by
  unfold failPort
  repeat' first
    | with_reducible assumption
    | with_reducible exact hg
    | intro _
    | with_reducible apply keep_dropLink (K.mono (by decide)) W
    | with_reducible apply keep_mPort (K.mono (by decide))
    | with_reducible apply keep_portMessage (K.mono (by decide))
    | with_reducible apply keep_raiseError (K.mono (by decide)) W
    | with_reducible apply keep_raiseFault (K.mono (by decide)) W
    | (refine keep_with K hg ?_; intro g h; cases g <;> first | rfl | (cases h; done) | exact fun _ m => m | exact fun _ m => nomatch m)
    | dsimp only

theorem keep_trainTimeout (K : Keeps 0xfe84550 P) (W : Stores P) (p : Nat) (code : W16) {s : State} (hg : P s) : P (trainTimeout p code s) := by
  unfold trainTimeout
  repeat' first
    | with_reducible assumption
    | with_reducible exact hg
    | intro _
    | with_reducible apply keep_mPort (K.mono (by decide))
    | with_reducible apply keep_failPort (K.mono (by decide)) W
    | with_reducible apply keep_toPhyWait (K.mono (by decide))
    | with_reducible apply keep_lost (K.mono (by decide)) W
    | with_reducible apply keep_freeKeys (K.mono (by decide))
    | with_reducible apply keep_ite
    | split
    | (refine keep_with K hg ?_; intro g h; cases g <;> first | rfl | (cases h; done) | exact fun _ m => m | exact fun _ m => nomatch m)
    | dsimp only

theorem keep_txFrameStart (K : Keeps 0x800000 P) (p : Nat) {s : State} (hg : P s) : P (txFrameStart p s) := by
  unfold txFrameStart
  repeat' first
    | with_reducible assumption
    | with_reducible exact hg
    | intro _
    | with_reducible apply keep_mPort (K.mono (by decide))
    | with_reducible apply keep_ite
    | split
    | (refine keep_with K hg ?_; intro g h; cases g <;> first | rfl | (cases h; done) | exact fun _ m => m | exact fun _ m => nomatch m)

theorem keep_rxFrameStart (K : Keeps 0x800000 P) (p : Nat) {s : State} (hg : P s) : P (rxFrameStart p s) := by
  unfold rxFrameStart
  repeat' first
    | with_reducible assumption
    | with_reducible exact hg
    | intro _
    | with_reducible apply keep_mPort (K.mono (by decide))
    | with_reducible apply keep_ite
    | split
    | (refine keep_with K hg ?_; intro g h; cases g <;> first | rfl | (cases h; done) | exact fun _ m => m | exact fun _ m => nomatch m)

theorem keep_sendFlit (K : Keeps 0x800000 P) (p : Nat) (k : Packet) (i : Nat) {s : State} (hg : P s) : P (sendFlit p k i s) := by
  unfold sendFlit
  repeat' first
    | with_reducible assumption
    | with_reducible exact hg
    | intro _
    | with_reducible apply keep_txFrameStart (K.mono (by decide))
    | with_reducible apply keep_mPort (K.mono (by decide))
    | split
    | (refine keep_with K hg ?_; intro g h; cases g <;> first | rfl | (cases h; done) | exact fun _ m => m | exact fun _ m => nomatch m)
    | dsimp only

theorem keep_pumpBulk (K : Keeps 0x804000 P) (p : Nat) {s : State} (hg : P s) : P (pumpBulk p s).2 := by
  unfold pumpBulk
  repeat' first
    | with_reducible assumption
    | with_reducible exact hg
    | intro _
    | with_reducible apply keep_sendFlit (K.mono (by decide))
    | with_reducible apply keep_leaveBuffer (K.mono (by decide))
    | with_reducible apply keep_meetTag (K.mono (by decide))
    | with_reducible apply keep_mPort (K.mono (by decide))
    | with_reducible apply keep_ite
    | split
    | (refine keep_with K hg ?_; intro g h; cases g <;> first | rfl | (cases h; done) | exact fun _ m => m | exact fun _ m => nomatch m)
    | dsimp only

theorem keep_pumpOne (K : Keeps 0x804000 P) (p : Nat) {s : State} (hg : P s) : P (pumpOne p s).2 := by
  unfold pumpOne
  repeat' first
    | with_reducible assumption
    | with_reducible exact hg
    | intro _
    | with_reducible apply keep_leaveBuffer (K.mono (by decide))
    | with_reducible apply keep_meetTag (K.mono (by decide))
    | with_reducible apply keep_sendFlit (K.mono (by decide))
    | with_reducible apply keep_mPort (K.mono (by decide))
    | with_reducible apply keep_pumpBulk (K.mono (by decide))
    | with_reducible apply keep_ite
    | split
    | (refine keep_with K hg ?_; intro g h; cases g <;> first | rfl | (cases h; done) | exact fun _ m => m | exact fun _ m => nomatch m)
    | dsimp only

theorem keep_pumpAux (K : Keeps 0x804000 P) (p n : Nat) {s : State} (hg : P s) : P (pumpAux p n s) := by
  induction n generalizing s with
  | zero => exact hg
  | succ n ih =>
    unfold pumpAux
    exact keep_ite _ (ih (keep_pumpOne (K.mono (by decide)) p hg)) (keep_pumpOne (K.mono (by decide)) p hg)

theorem keep_pump (K : Keeps 0xc04000 P) (p : Nat) {s : State} (hg : P s) : P (pump p s) := by
  unfold pump
  repeat' first
    | with_reducible assumption
    | with_reducible exact hg
    | intro _
    | with_reducible apply keep_settleHold (K.mono (by decide))
    | with_reducible apply keep_pumpAux (K.mono (by decide))
    | with_reducible apply keep_ite
    | split

theorem keep_queueTo (K : Keeps 0xee84550 P) (W : Stores P) (p : Nat) (k : Packet) (enter : Bool) {s : State} (hg : P s) : P (queueTo p k enter s) := by
  unfold queueTo
  repeat' first
    | with_reducible assumption
    | with_reducible exact hg
    | intro _
    | with_reducible apply keep_leaveBuffer (K.mono (by decide))
    | with_reducible apply keep_meetTag (K.mono (by decide))
    | with_reducible apply keep_bump (K.mono (by decide))
    | with_reducible apply keep_mRru (K.mono (by decide))
    | with_reducible apply keep_lost (K.mono (by decide)) W
    | with_reducible apply keep_pump (K.mono (by decide))
    | with_reducible apply keep_mPort (K.mono (by decide))
    | with_reducible apply keep_discardPkt (K.mono (by decide)) W
    | with_reducible apply keep_ite
    | split
    | (refine keep_with K hg ?_; intro g h; cases g <;> first | rfl | (cases h; done) | exact fun _ m => m | exact fun _ m => nomatch m)

theorem keep_lcfEmit (K : Keeps 0x800050 P) (p : Nat) {s : State} (hg : P s) : P (lcfEmit p s) := by
  unfold lcfEmit
  repeat' first
    | with_reducible assumption
    | with_reducible exact hg
    | intro _
    | with_reducible apply keep_txFrameStart (K.mono (by decide))
    | with_reducible apply keep_mPort (K.mono (by decide))
    | with_reducible apply keep_countNakSent (K.mono (by decide))
    | with_reducible apply keep_foldl
    | with_reducible apply keep_ite
    | split
    | (refine keep_with K hg ?_; intro g h; cases g <;> first | rfl | (cases h; done) | exact fun _ m => m | exact fun _ m => nomatch m)
    | dsimp only

theorem keep_linkUp (K : Keeps 0xec84150 P) (W : Stores P) (p : Nat) {s : State} (hg : P s) : P (linkUp p s) := by
  unfold linkUp
  repeat' first
    | with_reducible assumption
    | with_reducible exact hg
    | intro _
    | with_reducible apply keep_pump (K.mono (by decide))
    | with_reducible apply keep_portMessage (K.mono (by decide))
    | with_reducible apply keep_mPort (K.mono (by decide))
    | with_reducible apply keep_lost (K.mono (by decide)) W
    | with_reducible apply keep_ite
    | split
    | (refine keep_with K hg ?_; intro g h; cases g <;> first | rfl | (cases h; done) | exact fun _ m => m | exact fun _ m => nomatch m)
    | dsimp only

theorem keep_lcfSend (K : Keeps 0xec84150 P) (W : Stores P) (p : Nat) {s : State} (hg : P s) : P (lcfSend p s) := by
  unfold lcfSend
  repeat' first
    | with_reducible assumption
    | with_reducible exact hg
    | intro _
    | with_reducible apply keep_pump (K.mono (by decide))
    | with_reducible apply keep_linkUp (K.mono (by decide)) W
    | with_reducible apply keep_lcfEmit (K.mono (by decide))
    | with_reducible apply keep_ite
    | split

theorem keep_replayFrames (K : Keeps 0x800000 P) (p : Nat) (from_ : W32) {s : State} (hg : P s) : P (replayFrames p from_ s) := by
  unfold replayFrames
  repeat' first
    | with_reducible assumption
    | with_reducible exact hg
    | intro _
    | with_reducible apply keep_mPort (K.mono (by decide))
    | with_reducible apply keep_ite
    | split
    | (refine keep_with K hg ?_; intro g h; cases g <;> first | rfl | (cases h; done) | exact fun _ m => m | exact fun _ m => nomatch m)
    | dsimp only

theorem keep_askReplay (K : Keeps 0xfe84550 P) (W : Stores P) (p : Nat) (from_ : W32) {s : State} (hg : P s) : P (askReplay p from_ s) := by
  unfold askReplay
  repeat' first
    | with_reducible assumption
    | with_reducible exact hg
    | intro _
    | with_reducible apply keep_linkDown (K.mono (by decide)) W
    | with_reducible apply keep_countNakRcvd (K.mono (by decide))
    | with_reducible apply keep_replayFrames (K.mono (by decide))
    | with_reducible apply keep_ite
    | split
    | dsimp only

theorem keep_retryTimeout (K : Keeps 0xfe84550 P) (W : Stores P) (p : Nat) {s : State} (hg : P s) : P (retryTimeout p s) := by
  unfold retryTimeout
  repeat' first
    | with_reducible assumption
    | with_reducible exact hg
    | intro _
    | with_reducible apply keep_askReplay (K.mono (by decide)) W
    | with_reducible apply keep_ite
    | split
    | (refine keep_with K hg ?_; intro g h; cases g <;> first | rfl | (cases h; done) | exact fun _ m => m | exact fun _ m => nomatch m)
    | dsimp only

theorem keep_badFlit (K : Keeps 0x800000 P) (p : Nat) {s : State} (hg : P s) : P (badFlit p s) := by
  unfold badFlit
  repeat' first
    | with_reducible assumption
    | with_reducible exact hg
    | intro _
    | with_reducible apply keep_mPort (K.mono (by decide))
    | (refine keep_with K hg ?_; intro g h; cases g <;> first | rfl | (cases h; done) | exact fun _ m => m | exact fun _ m => nomatch m)

theorem keep_landPacket (K : Keeps 0xc00000 P) (p : Nat) (k : Packet) (seq : W32) {s : State} (hg : P s) : P (landPacket p k seq s) := by
  unfold landPacket
  repeat' first
    | with_reducible assumption
    | with_reducible exact hg
    | intro _
    | with_reducible apply keep_leaveBuffer (K.mono (by decide))
    | with_reducible apply keep_mRtr (K.mono (by decide))
    | with_reducible apply keep_mPort (K.mono (by decide))
    | with_reducible apply keep_ite
    | split
    | (refine keep_with K hg ?_; intro g h; cases g <;> first | rfl | (cases h; done) | exact fun _ m => m | exact fun _ m => nomatch m)
    | dsimp only

theorem keep_protocolDrop (K : Keeps 0x800050 P) (p v n : Nat) {s : State} (hg : P s) : P (protocolDrop p v n s) := by
  unfold protocolDrop
  repeat' first
    | with_reducible assumption
    | with_reducible exact hg
    | intro _
    | with_reducible apply keep_mPort (K.mono (by decide))
    | with_reducible apply keep_countDup (K.mono (by decide))
    | split
    | (refine keep_with K hg ?_; intro g h; cases g <;> first | rfl | (cases h; done) | exact fun _ m => m | exact fun _ m => nomatch m)
    | dsimp only

theorem keep_dropPartial (K : Keeps 0x800050 P) (p : Nat) {s : State} (hg : P s) : P (dropPartial p s) := by
  unfold dropPartial
  repeat' first
    | with_reducible assumption
    | with_reducible exact hg
    | intro _
    | with_reducible apply keep_protocolDrop (K.mono (by decide))
    | with_reducible apply keep_mPort (K.mono (by decide))
    | split
    | (refine keep_with K hg ?_; intro g h; cases g <;> first | rfl | (cases h; done) | exact fun _ m => m | exact fun _ m => nomatch m)

theorem keep_reassemble (K : Keeps 0xc00050 P) (p : Nat) (seq w : W32) (body : List Byte) {s : State} (hg : P s) : P (reassemble p seq w body s) := by
  unfold reassemble
  repeat' first
    | with_reducible assumption
    | with_reducible exact hg
    | intro _
    | with_reducible apply keep_landPacket (K.mono (by decide))
    | with_reducible apply keep_protocolDrop (K.mono (by decide))
    | with_reducible apply keep_mPort (K.mono (by decide))
    | with_reducible apply keep_dropPartial (K.mono (by decide))
    | with_reducible apply keep_ite
    | split
    | (refine keep_with K hg ?_; intro g h; cases g <;> first | rfl | (cases h; done) | exact fun _ m => m | exact fun _ m => nomatch m)
    | dsimp only

theorem keep_keyMissing (K : Keeps 0xfe84550 P) (W : Stores P) (p : Nat) {s : State} (hg : P s) : P (keyMissing p s) := by
  unfold keyMissing
  repeat' first
    | with_reducible assumption
    | with_reducible exact hg
    | intro _
    | with_reducible apply keep_raiseSecurity (K.mono (by decide)) W
    | with_reducible apply keep_linkDown (K.mono (by decide)) W

theorem keep_meetFlit (K : Keeps 0x4800050 P) (p : Nat) (uncorrectable : Bool) (fec : Nat) {s : State} (hg : P s) : P (meetFlit p uncorrectable fec s).2 := by
  unfold meetFlit
  repeat' first
    | with_reducible assumption
    | with_reducible exact hg
    | intro _
    | with_reducible apply keep_countFec (K.mono (by decide))
    | with_reducible apply keep_fireInject (K.mono (by decide))
    | with_reducible apply keep_countUncorr (K.mono (by decide))
    | with_reducible apply keep_ite
    | split
    | dsimp only

theorem keep_flitReceive (K : Keeps 0xfe84550 P) (W : Stores P) (p : Nat) (flit : BitVec 1024) (frame : W32) (index : Nat) (uncorrectable : Bool) (fec : Nat) {s0 : State} (hg : P s0) : P (flitReceive p flit frame index uncorrectable fec s0) := by
  unfold flitReceive
  repeat' first
    | with_reducible assumption
    | with_reducible exact hg
    | intro _
    | with_reducible apply keep_meetFlit (K.mono (by decide))
    | with_reducible apply keep_badFlit (K.mono (by decide))
    | with_reducible apply keep_countDup (K.mono (by decide))
    | with_reducible apply keep_keyMissing (K.mono (by decide)) W
    | with_reducible apply keep_rxFrameStart (K.mono (by decide))
    | with_reducible apply keep_mPort (K.mono (by decide))
    | with_reducible apply keep_bump (K.mono (by decide))
    | with_reducible apply keep_mRru (K.mono (by decide))
    | with_reducible apply keep_reassemble (K.mono (by decide))
    | with_reducible apply keep_ite
    | split
    | (refine keep_with K hg ?_; intro g h; cases g <;> first | rfl | (cases h; done) | exact fun _ m => m | exact fun _ m => nomatch m)
    | dsimp only

theorem keep_capturePacket (K : Keeps 0x2000150 P) (W : Stores P) (k : Packet) {s : State} (hg : P s) : P (capturePacket k s) := by
  unfold capturePacket
  repeat' first
    | with_reducible assumption
    | with_reducible exact hg
    | intro _
    | with_reducible apply keep_captureRec (K.mono (by decide)) W
    | with_reducible apply keep_ite
    | split
    | dsimp only

theorem keep_authFail (K : Keeps 0xfe84550 P) (W : Stores P) (p : Nat) (seq : W32) {s : State} (hg : P s) : P (authFail p seq s) := by
  unfold authFail
  repeat' first
    | with_reducible assumption
    | with_reducible exact hg
    | intro _
    | with_reducible apply keep_linkDown (K.mono (by decide)) W
    | with_reducible apply keep_bump (K.mono (by decide))
    | with_reducible apply keep_mPort (K.mono (by decide))
    | with_reducible refine keep_mLsuQ (K.mono (by decide)) (fun _ _ m => by first | exact m | (simp at m; done) | (simp at m; exact m.1)) ?_
    | with_reducible apply keep_haltWith (K.mono (by decide)) W
    | with_reducible apply keep_mOpt (K.mono (by decide))
    | with_reducible apply keep_raiseFault (K.mono (by decide)) W
    | with_reducible apply keep_raiseSecurity (K.mono (by decide)) W
    | with_reducible apply keep_ite
    | split
    | (refine keep_with K hg ?_; intro g h; cases g <;> first | rfl | (cases h; done) | exact fun _ m => m | exact fun _ m => nomatch m)
    | dsimp only

theorem keep_applyAck (K : Keeps 0x800000 P) (p : Nat) (ack : W32) {s : State} (hg : P s) : P (applyAck p ack s) := by
  unfold applyAck
  repeat' first
    | with_reducible assumption
    | with_reducible exact hg
    | intro _
    | with_reducible apply keep_mPort (K.mono (by decide))
    | with_reducible apply keep_ite
    | split
    | (refine keep_with K hg ?_; intro g h; cases g <;> first | rfl | (cases h; done) | exact fun _ m => m | exact fun _ m => nomatch m)
    | dsimp only

theorem keep_applyLcf (K : Keeps 0xfe84550 P) (W : Stores P) (p : Nat) (b : List Byte) {s : State} (hg : P s) : P (applyLcf p b s) := by
  unfold applyLcf
  repeat' first
    | with_reducible assumption
    | with_reducible exact hg
    | intro _
    | with_reducible apply keep_mPort (K.mono (by decide))
    | with_reducible apply keep_applyAck (K.mono (by decide))
    | with_reducible apply keep_askReplay (K.mono (by decide)) W
    | with_reducible apply keep_foldl
    | with_reducible apply keep_ite
    | split
    | (refine keep_with K hg ?_; intro g h; cases g <;> first | rfl | (cases h; done) | exact fun _ m => m | exact fun _ m => nomatch m)
    | dsimp only

theorem keep_passFrame (K : Keeps 0x2880150 P) (W : Stores P) (p : Nat) (seq : W32) {s : State} (hg : P s) : P (passFrame p seq s) := by
  unfold passFrame
  repeat' first
    | with_reducible assumption
    | with_reducible exact hg
    | intro _
    | with_reducible apply keep_mPort (K.mono (by decide))
    | with_reducible apply keep_mOpt (K.mono (by decide))
    | with_reducible apply keep_capturePacket (K.mono (by decide)) W
    | with_reducible apply keep_foldS
    | (refine keep_with K hg ?_; intro g h; cases g <;> first | rfl | (cases h; done) | exact fun _ m => m | exact fun _ m => nomatch m)
    | dsimp only

theorem keep_lcfReceive (K : Keeps 0xfe84550 P) (W : Stores P) (p : Nat) (flit : BitVec 1024) (uncorrectable : Bool) (fec : Nat) {s0 : State} (hg : P s0) : P (lcfReceive p flit uncorrectable fec s0) := by
  unfold lcfReceive
  repeat' first
    | with_reducible assumption
    | with_reducible exact hg
    | intro _
    | with_reducible apply keep_meetFlit (K.mono (by decide))
    | with_reducible apply keep_badFlit (K.mono (by decide))
    | with_reducible apply keep_countDup (K.mono (by decide))
    | with_reducible apply keep_keyMissing (K.mono (by decide)) W
    | with_reducible apply keep_rxFrameStart (K.mono (by decide))
    | with_reducible apply keep_authFail (K.mono (by decide)) W
    | with_reducible apply keep_pump (K.mono (by decide))
    | with_reducible apply keep_linkUp (K.mono (by decide)) W
    | with_reducible apply keep_applyLcf (K.mono (by decide)) W
    | with_reducible apply keep_passFrame (K.mono (by decide)) W
    | with_reducible apply keep_ite
    | split
    | dsimp only

end Sys2Proof.Laws
end

