-- ==== Sys2Proof/Laws/FrameRouter.lean ====
section
/-! SUPPORT. Laws/FrameRouter.lean: the operations of Machine/Router.lean change no more than they may. -/

namespace Sys2Proof.Laws

open Sys2Proof.Machine

variable {P : State → Prop} {s : State}

theorem keep_ringMapWrite (K : Keeps 0x2400150 P) (W : Stores P) (v : W32) {s : State} (hg : P s) : P (ringMapWrite v s) := by
  unfold ringMapWrite
  repeat' first
    | with_reducible assumption
    | with_reducible exact hg
    | intro _
    | with_reducible apply keep_pageErr (K.mono (by decide)) W
    | with_reducible apply keep_mRtr (K.mono (by decide))
    | with_reducible apply keep_ite
    | split
    | (refine keep_with K hg ?_; intro g h; cases g <;> first | rfl | (cases h; done) | exact fun _ m => m | exact fun _ m => nomatch m)
    | dsimp only

theorem keep_routeHold (K : Keeps 0x400000 P) {s : State} (hg : P s) : P (routeHold s) := by
  unfold routeHold
  repeat' first
    | with_reducible assumption
    | with_reducible exact hg
    | intro _
    | with_reducible apply keep_mRtr (K.mono (by decide))
    | (refine keep_with K hg ?_; intro g h; cases g <;> first | rfl | (cases h; done) | exact fun _ m => m | exact fun _ m => nomatch m)

theorem keep_holdDone (K : Keeps 0x400000 P) {s : State} (hg : P s) : P (holdDone s) := by
  unfold holdDone
  repeat' first
    | with_reducible assumption
    | with_reducible exact hg
    | intro _
    | with_reducible apply keep_mRtr (K.mono (by decide))
    | with_reducible apply keep_ite
    | split
    | (refine keep_with K hg ?_; intro g h; cases g <;> first | rfl | (cases h; done) | exact fun _ m => m | exact fun _ m => nomatch m)

theorem keep_pumpAll (K : Keeps 0xc04000 P) {s : State} (hg : P s) : P (pumpAll s) := by
  unfold pumpAll
  repeat' first
    | with_reducible assumption
    | with_reducible exact hg
    | intro _
    | with_reducible apply keep_pump (K.mono (by decide))
    | with_reducible apply keep_foldS

theorem keep_routeHoldRelease (K : Keeps 0xe04000 P) {s : State} (hg : P s) : P (routeHoldRelease s) := by
  unfold routeHoldRelease
  repeat' first
    | with_reducible assumption
    | with_reducible exact hg
    | intro _
    | with_reducible apply keep_settleHold (K.mono (by decide))
    | with_reducible apply keep_mRtr (K.mono (by decide))
    | with_reducible apply keep_pumpAll (K.mono (by decide))
    | with_reducible apply keep_mSyn (K.mono (by decide))
    | (refine keep_with K hg ?_; intro g h; cases g <;> first | rfl | (cases h; done) | exact fun _ m => m | exact fun _ m => nomatch m)
    | dsimp only

theorem keep_headerRoute (K : Keeps 0xefdef54 P) (W : Stores P) (i : Nat) {s : State} (hg : P s) : P (headerRoute i s) := by
  unfold headerRoute
  repeat' first
    | with_reducible assumption
    | with_reducible exact hg
    | intro _
    | with_reducible apply keep_mRtr (K.mono (by decide))
    | with_reducible apply keep_leaveBuffer (K.mono (by decide))
    | with_reducible apply keep_countBandDrop (K.mono (by decide))
    | with_reducible apply keep_wakeBy (K.mono (by decide))
    | with_reducible apply keep_discardPkt (K.mono (by decide)) W
    | with_reducible apply keep_go (K.mono (by decide)) W
    | with_reducible apply keep_choice (K.mono (by decide)) W
    | with_reducible apply keep_queueTo (K.mono (by decide)) W
    | with_reducible apply keep_ite
    | split
    | (refine keep_with K hg ?_; intro g h; cases g <;> first | rfl | (cases h; done) | exact fun _ m => m | exact fun _ m => nomatch m)
    | dsimp only

end Sys2Proof.Laws
end

