-- ==== Sys2Proof/Laws/FrameBand.lean ====
section
/-! SUPPORT. Laws/FrameBand.lean: the operations of Machine/Band.lean change no more than they may. -/

namespace Sys2Proof.Laws

open Sys2Proof.Machine

variable {P : State → Prop} {s : State}

theorem keep_sendOut (K : Keeps 0xee84550 P) (W : Stores P) (port ctx : Nat) (step : W16) (m : BandMsg) {s : State} (hg : P s) : P (sendOut port ctx step m s) := by
  unfold sendOut
  repeat' first
    | with_reducible assumption
    | with_reducible exact hg
    | intro _
    | with_reducible apply keep_queueTo (K.mono (by decide)) W
    | (refine keep_with K hg ?_; intro g h; cases g <;> first | rfl | (cases h; done) | exact fun _ m => m | exact fun _ m => nomatch m)
    | dsimp only

theorem keep_putEntry (K : Keeps 0x200000 P) (e : Combine) {s : State} (hg : P s) : P (putEntry e s) := by
  unfold putEntry
  repeat' first
    | with_reducible assumption
    | with_reducible exact hg
    | intro _
    | with_reducible apply keep_mSyn (K.mono (by decide))
    | with_reducible apply keep_ite
    | split
    | (refine keep_with K hg ?_; intro g h; cases g <;> first | rfl | (cases h; done) | exact fun _ m => m | exact fun _ m => nomatch m)

theorem keep_clearEntry (K : Keeps 0x200000 P) (c : Nat) (crown : Coord) {s : State} (hg : P s) : P (clearEntry c crown s) := by
  unfold clearEntry
  repeat' first
    | with_reducible assumption
    | with_reducible exact hg
    | intro _
    | with_reducible apply keep_mSyn (K.mono (by decide))
    | (refine keep_with K hg ?_; intro g h; cases g <;> first | rfl | (cases h; done) | exact fun _ m => m | exact fun _ m => nomatch m)

theorem keep_barrierDone (K : Keeps 0x2204d50 P) (W : Stores P) (r : Nat) (st : BandStatus) {s : State} (hg : P s) : P (barrierDone r st s) := by
  unfold barrierDone
  repeat' first
    | with_reducible assumption
    | with_reducible exact hg
    | intro _
    | with_reducible apply keep_headDone (K.mono (by decide)) W
    | with_reducible apply keep_doneSignal (K.mono (by decide)) W
    | split
    | (refine keep_with K hg ?_; intro g h; cases g <;> first | rfl | (cases h; done) | exact fun _ m => m | exact fun _ m => nomatch m)

theorem keep_scalarDone (K : Keeps 0x2100 P) (W : Stores P) (slot : Nat) (st : BandStatus) (count : Nat) (value : W32) {s : State} (hg : P s) : P (scalarDone slot st count value s) := by
  unfold scalarDone
  repeat' first
    | with_reducible assumption
    | with_reducible exact hg
    | intro _
    | with_reducible apply keep_empWrite W
    | with_reducible apply keep_mSlot (K.mono (by decide))
    | split
    | (refine keep_with K hg ?_; intro g h; cases g <;> first | rfl | (cases h; done) | exact fun _ m => m | exact fun _ m => nomatch m)
    | dsimp only

theorem keep_takeRelease (K : Keeps 0xefdef54 P) (W : Stores P) (ctx : Nat) (step : W16) (a : Arrival) {s : State} (hg : P s) : P (takeRelease ctx step a s) := by
  unfold takeRelease
  repeat' first
    | with_reducible assumption
    | with_reducible exact hg
    | intro _
    | with_reducible apply keep_clearEntry (K.mono (by decide))
    | with_reducible apply keep_sendOut (K.mono (by decide)) W
    | with_reducible apply keep_release (K.mono (by decide)) W
    | with_reducible apply keep_mSyn (K.mono (by decide))
    | with_reducible apply keep_stepVerdict (K.mono (by decide)) W
    | with_reducible apply keep_stepResult (K.mono (by decide)) W
    | with_reducible apply keep_barrierDone (K.mono (by decide)) W
    | with_reducible apply keep_scalarDone (K.mono (by decide)) W
    | with_reducible apply keep_foldS
    | with_reducible apply keep_ite
    | split
    | (refine keep_with K hg ?_; intro g h; cases g <;> first | rfl | (cases h; done) | exact fun _ m => m | exact fun _ m => nomatch m)
    | dsimp only

theorem keep_crownRelease (K : Keeps 0xefdef54 P) (W : Stores P) (e : Combine) (timeout : Bool) {s : State} (hg : P s) : P (crownRelease e timeout s) := by
  unfold crownRelease
  repeat' first
    | with_reducible assumption
    | with_reducible exact hg
    | intro _
    | with_reducible apply keep_takeRelease (K.mono (by decide)) W
    | with_reducible apply keep_ite
    | split
    | (refine keep_with K hg ?_; intro g h; cases g <;> first | rfl | (cases h; done) | exact fun _ m => m | exact fun _ m => nomatch m)
    | dsimp only

theorem keep_advanceEntry (K : Keeps 0xefdef54 P) (W : Stores P) (e : Combine) {s : State} (hg : P s) : P (advanceEntry e s) := by
  unfold advanceEntry
  repeat' first
    | with_reducible assumption
    | with_reducible exact hg
    | intro _
    | with_reducible apply keep_crownRelease (K.mono (by decide)) W
    | with_reducible apply keep_putEntry (K.mono (by decide))
    | with_reducible apply keep_sendOut (K.mono (by decide)) W
    | with_reducible apply keep_arrive (K.mono (by decide)) W
    | with_reducible apply keep_ite
    | split
    | (refine keep_with K hg ?_; intro g h; cases g <;> first | rfl | (cases h; done) | exact fun _ m => m | exact fun _ m => nomatch m)
    | dsimp only

theorem keep_takeArrival (K : Keeps 0xefdef54 P) (W : Stores P) (port ctx : Nat) (step : W16) (a : Arrival) {s : State} (hg : P s) : P (takeArrival port ctx step a s) := by
  unfold takeArrival
  repeat' first
    | with_reducible assumption
    | with_reducible exact hg
    | intro _
    | with_reducible apply keep_bump (K.mono (by decide))
    | with_reducible apply keep_mSyn (K.mono (by decide))
    | with_reducible apply keep_advanceEntry (K.mono (by decide)) W
    | with_reducible apply keep_putEntry (K.mono (by decide))
    | with_reducible apply keep_countBandDrop (K.mono (by decide))
    | with_reducible apply keep_ite
    | split
    | (refine keep_with K hg ?_; intro g h; cases g <;> first | rfl | (cases h; done) | exact fun _ m => m | exact fun _ m => nomatch m)
    | dsimp only

theorem keep_countArrived (K : Keeps 0x200000 P) (c : Nat) {s : State} (hg : P s) : P (countArrived c s) := by
  unfold countArrived
  repeat' first
    | with_reducible assumption
    | with_reducible exact hg
    | intro _
    | with_reducible apply keep_mSyn (K.mono (by decide))
    | split
    | (refine keep_with K hg ?_; intro g h; cases g <;> first | rfl | (cases h; done) | exact fun _ m => m | exact fun _ m => nomatch m)

theorem keep_issueArrival (K : Keeps 0xefdef54 P) (W : Stores P) (c ctx : Nat) (step : W16) (op fmt gsize : Nat) (st : BandStatus) (value : W32) {s : State} (hg : P s) : P (issueArrival c ctx step op fmt gsize st value s) := by
  unfold issueArrival
  repeat' first
    | with_reducible assumption
    | with_reducible exact hg
    | intro _
    | with_reducible apply keep_takeArrival (K.mono (by decide)) W
    | with_reducible apply keep_countArrived (K.mono (by decide))
    | dsimp only

theorem keep_arrive (K : Keeps 0xefdef54 P) (W : Stores P) {s : State} (hg : P s) : P (arrive s) := by
  unfold arrive
  repeat' first
    | with_reducible assumption
    | with_reducible exact hg
    | intro _
    | with_reducible apply keep_takeBand (K.mono (by decide))
    | with_reducible apply keep_takeArrival (K.mono (by decide)) W
    | with_reducible refine keepO3_use ?_ (by assumption)
    | split
    | (refine keep_with K hg ?_; intro g h; cases g <;> first | rfl | (cases h; done) | exact fun _ m => m | exact fun _ m => nomatch m)

theorem keep_release (K : Keeps 0xefdef54 P) (W : Stores P) {s : State} (hg : P s) : P (release s) := by
  unfold release
  repeat' first
    | with_reducible assumption
    | with_reducible exact hg
    | intro _
    | with_reducible apply keep_takeBand (K.mono (by decide))
    | with_reducible apply keep_takeRelease (K.mono (by decide)) W
    | with_reducible refine keepO3_use ?_ (by assumption)
    | split
    | (refine keep_with K hg ?_; intro g h; cases g <;> first | rfl | (cases h; done) | exact fun _ m => m | exact fun _ m => nomatch m)

theorem keep_crownTimeout (K : Keeps 0xefdef54 P) (W : Stores P) (c : Nat) (forced : Bool) {s : State} (hg : P s) : P (crownTimeout c forced s) := by
  unfold crownTimeout
  repeat' first
    | with_reducible assumption
    | with_reducible exact hg
    | intro _
    | with_reducible apply keep_crownRelease (K.mono (by decide)) W
    | with_reducible apply keep_choice (K.mono (by decide)) W
    | with_reducible apply keep_putEntry (K.mono (by decide))
    | split
    | (refine keep_with K hg ?_; intro g h; cases g <;> first | rfl | (cases h; done) | exact fun _ m => m | exact fun _ m => nomatch m)

theorem keep_signal (K : Keeps 0x2600954 P) (W : Stores P) {s : State} (hg : P s) : P (signal s) := by
  unfold signal
  repeat' first
    | with_reducible assumption
    | with_reducible exact hg
    | intro _
    | with_reducible apply keep_takeBand (K.mono (by decide))
    | with_reducible apply keep_applySignal (K.mono (by decide)) W
    | with_reducible apply keep_mSyn (K.mono (by decide))
    | with_reducible apply keep_raiseVec (K.mono (by decide))
    | with_reducible apply keep_bump (K.mono (by decide))
    | with_reducible refine keepO3_use ?_ (by assumption)
    | with_reducible apply keep_ite
    | split
    | (refine keep_with K hg ?_; intro g h; cases g <;> first | rfl | (cases h; done) | exact fun _ m => m | exact fun _ m => nomatch m)
    | dsimp only

theorem keep_remoteSignalComplete (K : Keeps 0x2004550 P) (W : Stores P) (r : Nat) {s : State} (hg : P s) : P (remoteSignalComplete r s) := by
  unfold remoteSignalComplete
  repeat' first
    | with_reducible assumption
    | with_reducible exact hg
    | intro _
    | with_reducible apply keep_headDone (K.mono (by decide)) W
    | with_reducible apply keep_ite
    | split

end Sys2Proof.Laws
end

