-- ==== Sys2Proof/Laws/FrameSync.lean ====
section
/-! SUPPORT. Laws/FrameSync.lean: the operations of Machine/Sync.lean change no more than they may. -/

namespace Sys2Proof.Laws

open Sys2Proof.Machine

variable {P : State → Prop} {s : State}

theorem keep_mapRange (K : Keeps 0x200000 P) (p n : Nat) (f : Obj → Obj) {s : State} (hg : P s) : P (mapRange p n f s) := by
  unfold mapRange
  repeat' first
    | with_reducible assumption
    | with_reducible exact hg
    | intro _
    | with_reducible apply keep_mSyn (K.mono (by decide))
    | with_reducible apply keep_ite
    | split
    | (refine keep_with K hg ?_; intro g h; cases g <;> first | rfl | (cases h; done) | exact fun _ m => m | exact fun _ m => nomatch m)
    | dsimp only

theorem keep_segDisable (K : Keeps 0x200000 P) (old : W64) {s : State} (hg : P s) : KeepO P (segDisable old s) := by
  unfold segDisable
  repeat' first
    | with_reducible assumption
    | with_reducible exact hg
    | exact keepO_none
    | with_reducible apply keepO_some
    | with_reducible apply keepO_ite
    | with_reducible apply keepO_map
    | intro _
    | with_reducible apply keep_mapRange (K.mono (by decide))
    | with_reducible apply keep_ite
    | split
    | (refine keep_with K hg ?_; intro g h; cases g <;> first | rfl | (cases h; done) | exact fun _ m => m | exact fun _ m => nomatch m)

theorem keep_segEnable (K : Keeps 0x200000 P) (ctx : Nat) (new : W64) {s : State} (hg : P s) : KeepO P (segEnable ctx new s) := by
  unfold segEnable
  repeat' first
    | with_reducible assumption
    | with_reducible exact hg
    | exact keepO_none
    | with_reducible apply keepO_some
    | with_reducible apply keepO_ite
    | with_reducible apply keepO_map
    | intro _
    | with_reducible apply keep_mapRange (K.mono (by decide))
    | with_reducible apply keep_ite
    | split

theorem keep_segmentWrite (K : Keeps 0x2200150 P) (W : Stores P) (v0 : W64) {s : State} (hg : P s) : P (segmentWrite v0 s) := by
  unfold segmentWrite
  repeat' first
    | with_reducible assumption
    | intro _
    | with_reducible apply keep_pageErr (K.mono (by decide)) W
    | with_reducible apply keep_mSyn (K.mono (by decide))
    | with_reducible apply keep_mapRange (K.mono (by decide))
    | with_reducible refine keepO_use (keep_segEnable (K.mono (by decide)) _ _ ?_) (by assumption)
    | with_reducible refine keepO_use (keep_segDisable (K.mono (by decide)) _ ?_) (by assumption)
    | with_reducible refine keepO_use (keepO_bind (keep_segDisable (K.mono (by decide)) _ ?_) ?_) (by assumption)
    | with_reducible apply keep_segEnable (K.mono (by decide))
    | with_reducible apply keep_ite
    | split
    | dsimp only

theorem keep_winRecord (K : Keeps 0x2200150 P) (W : Stores P) (c : Nat) (code : W16) {s : State} (hg : P s) : P (winRecord c code s) := by
  unfold winRecord
  repeat' first
    | with_reducible assumption
    | with_reducible exact hg
    | intro _
    | with_reducible apply keep_mWin (K.mono (by decide))
    | with_reducible apply keep_reportCode (K.mono (by decide)) W
    | (refine keep_with K hg ?_; intro g h; cases g <;> first | rfl | (cases h; done) | exact fun _ m => m | exact fun _ m => nomatch m)

theorem keep_windowPrim (K : Keeps 0x2200950 P) (W : Stores P) (c : Nat) (set : Bool) (v : W32) {s : State} (hg : P s) : P (windowPrim c set v s) := by
  unfold windowPrim
  repeat' first
    | with_reducible assumption
    | with_reducible exact hg
    | intro _
    | with_reducible apply keep_winRecord (K.mono (by decide)) W
    | with_reducible apply keep_applyPrim (K.mono (by decide)) W
    | split
    | (refine keep_with K hg ?_; intro g h; cases g <;> first | rfl | (cases h; done) | exact fun _ m => m | exact fun _ m => nomatch m)

theorem keep_windowSet (K : Keeps 0x2200950 P) (W : Stores P) (c : Nat) (v : W32) {s : State} (hg : P s) : P (windowSet c v s) := by
  unfold windowSet
  repeat' first
    | with_reducible assumption
    | with_reducible exact hg
    | intro _
    | with_reducible apply keep_windowPrim (K.mono (by decide)) W

theorem keep_windowAdd (K : Keeps 0x2200950 P) (W : Stores P) (c : Nat) (v : W32) {s : State} (hg : P s) : P (windowAdd c v s) := by
  unfold windowAdd
  repeat' first
    | with_reducible assumption
    | with_reducible exact hg
    | intro _
    | with_reducible apply keep_windowPrim (K.mono (by decide)) W

theorem keep_monitorArm (K : Keeps 0x200900 P) (W : Stores P) (c : Nat) (v : W64) {s : State} (hg : P s) : P (monitorArm c v s) := by
  unfold monitorArm
  repeat' first
    | with_reducible assumption
    | with_reducible exact hg
    | intro _
    | with_reducible apply keep_mMon (K.mono (by decide))
    | with_reducible apply keep_mWin (K.mono (by decide))
    | with_reducible apply keep_fireMonitor (K.mono (by decide)) W
    | with_reducible apply keep_ite
    | split
    | (refine keep_with K hg ?_; intro g h; cases g <;> first | rfl | (cases h; done) | exact fun _ m => m | exact fun _ m => nomatch m)
    | dsimp only

theorem keep_countTimeout (K : Keeps 0x2200154 P) (W : Stores P) (p : Nat) (code : W16) {s : State} (hg : P s) : P (countTimeout p code s) := by
  unfold countTimeout
  repeat' first
    | with_reducible assumption
    | with_reducible exact hg
    | intro _
    | with_reducible apply keep_bump (K.mono (by decide))
    | with_reducible apply keep_mSyn (K.mono (by decide))
    | with_reducible apply keep_raiseError (K.mono (by decide)) W
    | with_reducible apply keep_choice (K.mono (by decide)) W
    | with_reducible apply keep_ite
    | split
    | (refine keep_with K hg ?_; intro g h; cases g <;> first | rfl | (cases h; done) | exact fun _ m => m | exact fun _ m => nomatch m)
    | dsimp only

theorem keep_releaseWaiter (K : Keeps 0x2204d54 P) (W : Stores P) (w : Waiter) (code : W16) {s : State} (hg : P s) : P (releaseWaiter w code s) := by
  unfold releaseWaiter
  repeat' first
    | with_reducible assumption
    | with_reducible exact hg
    | intro _
    | with_reducible apply keep_countTimeout (K.mono (by decide)) W
    | with_reducible apply keep_headDone (K.mono (by decide)) W
    | with_reducible apply keep_fireMonitor (K.mono (by decide)) W
    | split
    | (refine keep_with K hg ?_; intro g h; cases g <;> first | rfl | (cases h; done) | exact fun _ m => m | exact fun _ m => nomatch m)
    | dsimp only

theorem keep_syncTimeout (K : Keeps 0xa204d54 P) (W : Stores P) (w : Waiter) (forced : Option W16) {s : State} (hg : P s) : P (syncTimeout w forced s) := by
  unfold syncTimeout
  repeat' first
    | with_reducible assumption
    | with_reducible exact hg
    | intro _
    | with_reducible apply keep_releaseWaiter (K.mono (by decide)) W
    | with_reducible apply keep_wakeBy (K.mono (by decide))
    | with_reducible apply keep_mSyn (K.mono (by decide))
    | with_reducible apply keep_ite
    | split
    | (refine keep_with K hg ?_; intro g h; cases g <;> first | rfl | (cases h; done) | exact fun _ m => m | exact fun _ m => nomatch m)

theorem keep_releaseExpired (K : Keeps 0x2204d54 P) (W : Stores P) {s : State} (hg : P s) : P (releaseExpired s) := by
  unfold releaseExpired
  repeat' first
    | with_reducible assumption
    | with_reducible exact hg
    | intro _
    | with_reducible apply keep_releaseWaiter (K.mono (by decide)) W
    | with_reducible apply keep_mSyn (K.mono (by decide))
    | with_reducible apply keep_foldl
    | with_reducible apply keep_ite
    | split
    | (refine keep_with K hg ?_; intro g h; cases g <;> first | rfl | (cases h; done) | exact fun _ m => m | exact fun _ m => nomatch m)
    | dsimp only

theorem keep_orphanAll (K : Keeps 0x200000 P) (c : Nat) {s : State} (hg : P s) : P (orphanAll c s) := by
  unfold orphanAll
  repeat' first
    | with_reducible assumption
    | with_reducible exact hg
    | intro _
    | with_reducible apply keep_mSyn (K.mono (by decide))
    | with_reducible apply keep_ite
    | split
    | (refine keep_with K hg ?_; intro g h; cases g <;> first | rfl | (cases h; done) | exact fun _ m => m | exact fun _ m => nomatch m)

theorem keep_preempt (K : Keeps 0x200000 P) (v : W32) {s : State} (hg : P s) : P (preempt v s) := by
  unfold preempt
  repeat' first
    | with_reducible assumption
    | with_reducible exact hg
    | intro _
    | with_reducible apply keep_orphanAll (K.mono (by decide))
    | with_reducible apply keep_mSyn (K.mono (by decide))
    | with_reducible apply keep_ite
    | split
    | (refine keep_with K hg ?_; intro g h; cases g <;> first | rfl | (cases h; done) | exact fun _ m => m | exact fun _ m => nomatch m)
    | dsimp only

theorem keep_resume (K : Keeps 0x200000 P) (v : W32) {s : State} (hg : P s) : P (resume v s) := by
  unfold resume
  repeat' first
    | with_reducible assumption
    | with_reducible exact hg
    | intro _
    | with_reducible apply keep_mSyn (K.mono (by decide))
    | with_reducible apply keep_ite
    | split
    | (refine keep_with K hg ?_; intro g h; cases g <;> first | rfl | (cases h; done) | exact fun _ m => m | exact fun _ m => nomatch m)
    | dsimp only

theorem keep_synDbgSelWrite (K : Keeps 0x200000 P) (v : W32) {s : State} (hg : P s) : P (synDbgSelWrite v s) := by
  unfold synDbgSelWrite
  repeat' first
    | with_reducible assumption
    | with_reducible exact hg
    | intro _
    | with_reducible apply keep_mSyn (K.mono (by decide))
    | (refine keep_with K hg ?_; intro g h; cases g <;> first | rfl | (cases h; done) | exact fun _ m => m | exact fun _ m => nomatch m)

theorem keep_dbgWaiterRead (K : Keeps 0x20200000 P) {s : State} (hg : P s) : P (dbgWaiterRead s) := by
  unfold dbgWaiterRead
  repeat' first
    | with_reducible assumption
    | with_reducible exact hg
    | intro _
    | with_reducible apply keep_mDbg (K.mono (by decide))
    | with_reducible apply keep_mSyn (K.mono (by decide))
    | with_reducible apply keep_ite
    | split
    | (refine keep_with K hg ?_; intro g h; cases g <;> first | rfl | (cases h; done) | exact fun _ m => m | exact fun _ m => nomatch m)
    | dsimp only

end Sys2Proof.Laws
end

