-- ==== Sys2Proof/Laws/FrameIntake.lean ====
section
/-! SUPPORT. Laws/FrameIntake.lean: the operations of Machine/Intake.lean change no more than they may. -/

namespace Sys2Proof.Laws

open Sys2Proof.Machine

variable {P : State → Prop} {s : State}

theorem keep_tileWake (K : Keeps 0x8000050 P) {s : State} (hg : P s) : P (tileWake s) := by
  unfold tileWake
  repeat' first
    | with_reducible assumption
    | with_reducible exact hg
    | intro _
    | with_reducible apply keep_wakeBy (K.mono (by decide))
    | with_reducible apply keep_ite
    | split

theorem keep_tailTransfer (K : Keeps 0xe000950 P) (W : Stores P) (p : Nat) (w : W64) (ecc : Ecc) {s0 : State} (hg : P s0) : P (tailTransfer p w ecc s0) := by
  unfold tailTransfer
  repeat' first
    | with_reducible assumption
    | with_reducible exact hg
    | intro _
    | with_reducible apply keep_tileWake (K.mono (by decide))
    | with_reducible apply keep_eccSingle (K.mono (by decide)) W
    | with_reducible apply keep_logDouble (K.mono (by decide))
    | with_reducible apply keep_mTile (K.mono (by decide))
    | with_reducible apply keep_ite
    | split
    | (refine keep_with K hg ?_; intro g h; cases g <;> first | rfl | (cases h; done) | exact fun _ m => m | exact fun _ m => nomatch m)
    | dsimp only

theorem keep_partError (K : Keeps 0x27def54 P) (W : Stores P) (p slot : Nat) (idx : BitVec 2) {s : State} (hg : P s) : P (partError p slot idx s) := by
  unfold partError
  repeat' first
    | with_reducible assumption
    | with_reducible exact hg
    | intro _
    | with_reducible apply keep_failSession (K.mono (by decide)) W
    | with_reducible apply keep_statCode (K.mono (by decide)) W

theorem keep_cdataBeat (K : Keeps 0xe7def54 P) (W : Stores P) (p : Nat) (beat : BitVec 512) (last : Bool) (ecc : Ecc) {s : State} (hg : P s) : P (cdataBeat p beat last ecc s) := by
  unfold cdataBeat
  repeat' first
    | with_reducible assumption
    | with_reducible exact hg
    | intro _
    | with_reducible apply keep_eccSingle (K.mono (by decide)) W
    | with_reducible apply keep_logDouble (K.mono (by decide))
    | with_reducible apply keep_mTile (K.mono (by decide))
    | with_reducible apply keep_partError (K.mono (by decide)) W
    | with_reducible apply keep_ite
    | split
    | (refine keep_with K hg ?_; intro g h; cases g <;> first | rfl | (cases h; done) | exact fun _ m => m | exact fun _ m => nomatch m)
    | dsimp only

theorem keep_odataTransfer (K : Keeps 0x800 P) (p : Nat) {s : State} (hg : P s) : P (odataTransfer p s) := by
  unfold odataTransfer
  repeat' first
    | with_reducible assumption
    | with_reducible exact hg
    | intro _
    | with_reducible apply keep_mTile (K.mono (by decide))
    | (refine keep_with K hg ?_; intro g h; cases g <;> first | rfl | (cases h; done) | exact fun _ m => m | exact fun _ m => nomatch m)

theorem keep_takeStash (K : Keeps 0x102000 P) (slot : Nat) {s : State} (hg : P s) : P (takeStash slot s) := by
  unfold takeStash
  repeat' first
    | with_reducible assumption
    | with_reducible exact hg
    | intro _
    | with_reducible apply keep_mSlot (K.mono (by decide))
    | with_reducible apply keep_mSpx (K.mono (by decide))
    | with_reducible apply keep_ite
    | split
    | (refine keep_with K hg ?_; intro g h; cases g <;> first | rfl | (cases h; done) | exact fun _ m => m | exact fun _ m => nomatch m)
    | dsimp only

theorem keep_admitOrRun (K : Keeps 0x67def54 P) (W : Stores P) (slot : Nat) {s : State} (hg : P s) : P (admitOrRun slot s) := by
  unfold admitOrRun
  repeat' first
    | with_reducible assumption
    | with_reducible exact hg
    | intro _
    | with_reducible apply keep_enterRun (K.mono (by decide)) W
    | with_reducible apply keep_ite
    | split
    | (refine keep_with K hg ?_; intro g h; cases g <;> first | rfl | (cases h; done) | exact fun _ m => m | exact fun _ m => nomatch m)

theorem keep_rejectNotice (K : Keeps 0x27def54 P) (W : Stores P) (ctx : Nat) (d : Desc) (code : W16) {s : State} (hg : P s) : P (rejectNotice ctx d code s) := by
  unfold rejectNotice
  repeat' first
    | with_reducible assumption
    | with_reducible exact hg
    | intro _
    | with_reducible apply keep_abortGroup (K.mono (by decide)) W
    | with_reducible apply keep_ite
    | split
    | dsimp only

theorem keep_lastReject (K : Keeps 0x2000 P) (source : Nat) (code : W16) {s : State} (hg : P s) : P (lastReject source code s) := by
  unfold lastReject
  repeat' first
    | with_reducible assumption
    | with_reducible exact hg
    | intro _
    | with_reducible apply keep_mSes (K.mono (by decide))
    | (refine keep_with K hg ?_; intro g h; cases g <;> first | rfl | (cases h; done) | exact fun _ m => m | exact fun _ m => nomatch m)

theorem keep_setHead (K : Keeps 0x400 P) (r : Nat) (h : HeadState) {s : State} (hg : P s) : P (setHead r h s) := by
  unfold setHead
  repeat' first
    | with_reducible assumption
    | with_reducible exact hg
    | intro _
    | with_reducible apply keep_mRing (K.mono (by decide))
    | (refine keep_with K hg ?_; intro g h; cases g <;> first | rfl | (cases h; done) | exact fun _ m => m | exact fun _ m => nomatch m)

theorem keep_rejectHead (K : Keeps 0x2006550 P) (W : Stores P) (r : Nat) (code : W16) {s : State} (hg : P s) : P (rejectHead r code s) := by
  unfold rejectHead
  repeat' first
    | with_reducible assumption
    | with_reducible exact hg
    | intro _
    | with_reducible apply keep_headDone (K.mono (by decide)) W
    | with_reducible apply keep_lastReject (K.mono (by decide))
    | with_reducible apply keep_mRing (K.mono (by decide))
    | (refine keep_with K hg ?_; intro g h; cases g <;> first | rfl | (cases h; done) | exact fun _ m => m | exact fun _ m => nomatch m)

theorem keep_fetchHead (K : Keeps 0x500 P) (r : Nat) {s : State} (hg : P s) : P (fetchHead r s) := by
  unfold fetchHead
  repeat' first
    | with_reducible assumption
    | with_reducible exact hg
    | intro _
    | with_reducible apply keep_mRing (K.mono (by decide))
    | with_reducible apply keep_empRead (K.mono (by decide))
    | with_reducible apply keep_ite
    | split
    | (refine keep_with K hg ?_; intro g h; cases g <;> first | rfl | (cases h; done) | exact fun _ m => m | exact fun _ m => nomatch m)
    | dsimp only

theorem keep_sendRemote (K : Keeps 0x2604d54 P) (W : Stores P) (r : Nat) (d : Desc) {s : State} (hg : P s) : P (sendRemote r d s) := by
  unfold sendRemote
  repeat' first
    | with_reducible assumption
    | with_reducible exact hg
    | intro _
    | with_reducible apply keep_signal (K.mono (by decide)) W
    | with_reducible apply keep_setHead (K.mono (by decide))
    | with_reducible apply keep_inject (K.mono (by decide))
    | (refine keep_with K hg ?_; intro g h; cases g <;> first | rfl | (cases h; done) | exact fun _ m => m | exact fun _ m => nomatch m)
    | dsimp only

theorem keep_headBarrier (K : Keeps 0xefdef54 P) (W : Stores P) (r : Nat) (d : Desc) {s : State} (hg : P s) : P (headBarrier r d s) := by
  unfold headBarrier
  repeat' first
    | with_reducible assumption
    | with_reducible exact hg
    | intro _
    | with_reducible apply keep_barrierDone (K.mono (by decide)) W
    | with_reducible apply keep_countArrived (K.mono (by decide))
    | with_reducible apply keep_issueArrival (K.mono (by decide)) W
    | with_reducible apply keep_setHead (K.mono (by decide))
    | with_reducible apply keep_ite
    | split
    | dsimp only

theorem keep_headSync (K : Keeps 0xefdef54 P) (W : Stores P) (r : Nat) (d : Desc) {s : State} (hg : P s) : P (headSync r d s) := by
  unfold headSync
  repeat' first
    | with_reducible assumption
    | with_reducible exact hg
    | intro _
    | with_reducible apply keep_sendRemote (K.mono (by decide)) W
    | with_reducible apply keep_headBarrier (K.mono (by decide)) W
    | with_reducible apply keep_headDone (K.mono (by decide)) W
    | with_reducible apply keep_doneSignal (K.mono (by decide)) W
    | split
    | (refine keep_with K hg ?_; intro g h; cases g <;> first | rfl | (cases h; done) | exact fun _ m => m | exact fun _ m => nomatch m)

theorem keep_leaveHead (K : Keeps 0x400 P) (r : Nat) {s : State} (hg : P s) : P (leaveHead r s) := by
  unfold leaveHead
  repeat' first
    | with_reducible assumption
    | with_reducible exact hg
    | intro _
    | with_reducible apply keep_mRing (K.mono (by decide))
    | (refine keep_with K hg ?_; intro g h; cases g <;> first | rfl | (cases h; done) | exact fun _ m => m | exact fun _ m => nomatch m)

theorem keep_startScalar (K : Keeps 0xefdef54 P) (W : Stores P) (slot : Nat) (x : Session) {s : State} (hg : P s) : P (startScalar slot x s) := by
  unfold startScalar
  repeat' first
    | with_reducible assumption
    | with_reducible exact hg
    | intro _
    | with_reducible apply keep_empRead (K.mono (by decide))
    | with_reducible apply keep_enterRun (K.mono (by decide)) W
    | with_reducible apply keep_scalarDone (K.mono (by decide)) W
    | with_reducible apply keep_countArrived (K.mono (by decide))
    | with_reducible apply keep_issueArrival (K.mono (by decide)) W
    | with_reducible apply keep_ite
    | split
    | dsimp only

theorem keep_noteSpx (K : Keeps 0x100000 P) (own : Bool) (code : W16) {s : State} (hg : P s) : P (noteSpx own code s) := by
  unfold noteSpx
  repeat' first
    | with_reducible assumption
    | with_reducible exact hg
    | intro _
    | with_reducible apply keep_spxFail (K.mono (by decide))
    | with_reducible apply keep_ite
    | split

theorem keep_countZero (K : Keeps 0x2204d54 P) (W : Stores P) (r ctx : Nat) (d : Desc) {s : State} (hg : P s) : P (countZero r ctx d s) := by
  unfold countZero
  repeat' first
    | with_reducible assumption
    | with_reducible exact hg
    | intro _
    | with_reducible apply keep_headDone (K.mono (by decide)) W
    | with_reducible apply keep_doneSignal (K.mono (by decide)) W
    | with_reducible apply keep_settleFences (K.mono (by decide)) W

theorem keep_headResolve (K : Keeps 0xefdef54 P) (W : Stores P) (r : Nat) (d : Desc) {s : State} (hg : P s) : P (headResolve r d s) := by
  unfold headResolve
  repeat' first
    | with_reducible assumption
    | with_reducible exact hg
    | intro _
    | with_reducible apply keep_rejectNotice (K.mono (by decide)) W
    | with_reducible apply keep_noteSpx (K.mono (by decide))
    | with_reducible apply keep_rejectHead (K.mono (by decide)) W
    | with_reducible apply keep_headSync (K.mono (by decide)) W
    | with_reducible apply keep_countZero (K.mono (by decide)) W
    | with_reducible apply keep_takeStash (K.mono (by decide))
    | with_reducible apply keep_putSlot (K.mono (by decide))
    | with_reducible apply keep_leaveHead (K.mono (by decide))
    | with_reducible apply keep_startScalar (K.mono (by decide)) W
    | with_reducible apply keep_admitOrRun (K.mono (by decide)) W
    | with_reducible apply keep_ite
    | split
    | (refine keep_with K hg ?_; intro g h; cases g <;> first | rfl | (cases h; done) | exact fun _ m => m | exact fun _ m => nomatch m)
    | dsimp only

theorem keep_headTurn (K : Keeps 0xefdef54 P) (W : Stores P) (r : Nat) {s : State} (hg : P s) : P (headTurn r s) := by
  unfold headTurn
  repeat' first
    | with_reducible assumption
    | with_reducible exact hg
    | intro _
    | with_reducible apply keep_fetchHead (K.mono (by decide))
    | with_reducible apply keep_rejectHead (K.mono (by decide)) W
    | with_reducible apply keep_headResolve (K.mono (by decide)) W
    | with_reducible apply keep_ite
    | split
    | (refine keep_with K hg ?_; intro g h; cases g <;> first | rfl | (cases h; done) | exact fun _ m => m | exact fun _ m => nomatch m)
    | dsimp only

theorem keep_scanRings (K : Keeps 0xefdef54 P) (W : Stores P) (l : List Nat) {s : State} (hg : P s) : P (scanRings l s) := by
  induction l generalizing s with
  | nil => exact hg
  | cons r rest ih =>
    unfold scanRings
    split
    · exact keep_headTurn (K.mono (by decide)) W r hg
    · split
      · exact ih (keep_setHead (K.mono (by decide)) r _ hg)
      · exact ih hg

theorem keep_discardPart (K : Keeps 0x800 P) (p : Nat) {s : State} (hg : P s) : P (discardPart p s) := by
  unfold discardPart
  repeat' first
    | with_reducible assumption
    | with_reducible exact hg
    | intro _
    | with_reducible apply keep_mTile (K.mono (by decide))
    | with_reducible apply keep_ite
    | split
    | (refine keep_with K hg ?_; intro g h; cases g <;> first | rfl | (cases h; done) | exact fun _ m => m | exact fun _ m => nomatch m)
    | dsimp only

theorem keep_answerTail (K : Keeps 0x2002950 P) (W : Stores P) (p : Nat) (w : W64) (idx : BitVec 2) (code : W16) {s : State} (hg : P s) : P (answerTail p w idx code s) := by
  unfold answerTail
  repeat' first
    | with_reducible assumption
    | with_reducible exact hg
    | intro _
    | with_reducible apply keep_lastReject (K.mono (by decide))
    | with_reducible apply keep_statCode (K.mono (by decide)) W
    | with_reducible apply keep_discardPart (K.mono (by decide))
    | with_reducible apply keep_ite
    | split
    | dsimp only

theorem keep_bindPart (K : Keeps 0x27def54 P) (W : Stores P) (p slot : Nat) (w : W64) (idx : BitVec 2) {s : State} (hg : P s) : P (bindPart p slot w idx s) := by
  unfold bindPart
  repeat' first
    | with_reducible assumption
    | with_reducible exact hg
    | intro _
    | with_reducible apply keep_mSlot (K.mono (by decide))
    | with_reducible apply keep_answerTail (K.mono (by decide)) W
    | with_reducible apply keep_freeSlot (K.mono (by decide))
    | with_reducible apply keep_finishSession (K.mono (by decide)) W
    | with_reducible apply keep_mTile (K.mono (by decide))
    | with_reducible apply keep_partError (K.mono (by decide)) W
    | with_reducible apply keep_ite
    | split
    | (refine keep_with K hg ?_; intro g h; cases g <;> first | rfl | (cases h; done) | exact fun _ m => m | exact fun _ m => nomatch m)
    | dsimp only

theorem keep_openTemplate (K : Keeps 0x67def54 P) (W : Stores P) (slot : Nat) (w : W64) {s : State} (hg : P s) : P (openTemplate slot w s) := by
  unfold openTemplate
  repeat' first
    | with_reducible assumption
    | with_reducible exact hg
    | intro _
    | with_reducible apply keep_rejectNotice (K.mono (by decide)) W
    | with_reducible apply keep_noteSpx (K.mono (by decide))
    | with_reducible apply keep_putSlot (K.mono (by decide))
    | with_reducible apply keep_admitOrRun (K.mono (by decide)) W
    | split
    | (refine keep_with K hg ?_; intro g h; cases g <;> first | rfl | (cases h; done) | exact fun _ m => m | exact fun _ m => nomatch m)
    | dsimp only

theorem keep_tailTurn (K : Keeps 0x67def54 P) (W : Stores P) (p : Nat) {s : State} (hg : P s) : P (tailTurn p s) := by
  unfold tailTurn
  repeat' first
    | with_reducible assumption
    | with_reducible exact hg
    | intro _
    | with_reducible apply keep_mTile (K.mono (by decide))
    | with_reducible apply keep_answerTail (K.mono (by decide)) W
    | with_reducible apply keep_bindPart (K.mono (by decide)) W
    | with_reducible apply keep_openTemplate (K.mono (by decide)) W
    | split
    | (refine keep_with K hg ?_; intro g h; cases g <;> first | rfl | (cases h; done) | exact fun _ m => m | exact fun _ m => nomatch m)
    | dsimp only

theorem keep_intakeSlot (K : Keeps 0xefdef54 P) (W : Stores P) {s : State} (hg : P s) : P (intakeSlot s) := by
  unfold intakeSlot
  repeat' first
    | with_reducible assumption
    | with_reducible exact hg
    | intro _
    | with_reducible apply keep_mQue (K.mono (by decide))
    | with_reducible apply keep_tailTurn (K.mono (by decide)) W
    | with_reducible apply keep_scanRings (K.mono (by decide)) W
    | with_reducible apply keep_ite
    | split
    | (refine keep_with K hg ?_; intro g h; cases g <;> first | rfl | (cases h; done) | exact fun _ m => m | exact fun _ m => nomatch m)
    | dsimp only

theorem keep_denyWindow (K : Keeps 0x2200150 P) (W : Stores P) (page ctx : Nat) {s : State} (hg : P s) : P (denyWindow page ctx s) := by
  unfold denyWindow
  repeat' first
    | with_reducible assumption
    | with_reducible exact hg
    | intro _
    | with_reducible apply keep_mWin (K.mono (by decide))
    | with_reducible apply keep_pageErr (K.mono (by decide)) W
    | (refine keep_with K hg ?_; intro g h; cases g <;> first | rfl | (cases h; done) | exact fun _ m => m | exact fun _ m => nomatch m)

theorem keep_ringCode (K : Keeps 0x2000550 P) (W : Stores P) (r : Nat) (code : W16) {s : State} (hg : P s) : P (ringCode r code s) := by
  unfold ringCode
  repeat' first
    | with_reducible assumption
    | with_reducible exact hg
    | intro _
    | with_reducible apply keep_mRing (K.mono (by decide))
    | with_reducible apply keep_reportCode (K.mono (by decide)) W
    | (refine keep_with K hg ?_; intro g h; cases g <;> first | rfl | (cases h; done) | exact fun _ m => m | exact fun _ m => nomatch m)

theorem keep_doorbell (K : Keeps 0x2200550 P) (W : Stores P) (who : Requester) (ctx r : Nat) (p : W32) {s : State} (hg : P s) : P (doorbell who ctx r p s) := by
  unfold doorbell
  repeat' first
    | with_reducible assumption
    | with_reducible exact hg
    | intro _
    | with_reducible apply keep_denyWindow (K.mono (by decide)) W
    | with_reducible apply keep_ringCode (K.mono (by decide)) W
    | with_reducible apply keep_mRing (K.mono (by decide))
    | with_reducible apply keep_raiseError (K.mono (by decide)) W
    | with_reducible apply keep_ite
    | split
    | (refine keep_with K hg ?_; intro g h; cases g <;> first | rfl | (cases h; done) | exact fun _ m => m | exact fun _ m => nomatch m)
    | dsimp only

theorem keep_bellWake (K : Keeps 0x8000050 P) (who : Requester) (ctx r : Nat) (p : W32) {s : State} (hg : P s) : P (bellWake who ctx r p s) := by
  unfold bellWake
  repeat' first
    | with_reducible assumption
    | with_reducible exact hg
    | intro _
    | with_reducible apply keep_wakeBy (K.mono (by decide))
    | with_reducible apply keep_ite
    | split

theorem keep_completeRest (K : Keeps 0x2000550 P) (W : Stores P) (r : Nat) (code : W16) (p : WPurpose) (k : Nat) (n : W32) {s : State} (hg : P s) :
    P (completeRest r code p k n s) := by
  induction k generalizing n s with
  | zero => exact hg
  | succ k ih =>
    unfold completeRest
    dsimp only
    split
    · exact hg
    · exact ih _ (keep_ite _ hg (keep_completeDesc (K.mono (by decide)) W _ _ _ _ _ _ hg))

theorem keep_forgetFetch (K : Keeps 0x100 P) (r : Nat) {s : State} (hg : P s) : P (forgetFetch r s) := by
  unfold forgetFetch
  repeat' first
    | with_reducible assumption
    | with_reducible exact hg
    | intro _
    | with_reducible apply keep_mEmp (K.mono (by decide))
    | with_reducible apply keep_ite
    | split
    | (refine keep_with K hg ?_; intro g h; cases g <;> first | rfl | (cases h; done) | exact fun _ m => m | exact fun _ m => nomatch m)

theorem keep_ringOff (K : Keeps 0x2004550 P) (W : Stores P) (r : Nat) {s : State} (hg : P s) : P (ringOff r s) := by
  unfold ringOff
  repeat' first
    | with_reducible assumption
    | with_reducible exact hg
    | intro _
    | with_reducible apply keep_forgetFetch (K.mono (by decide))
    | with_reducible apply keep_mRing (K.mono (by decide))
    | with_reducible apply keep_completeRest (K.mono (by decide)) W
    | with_reducible apply keep_tagStall (K.mono (by decide))
    | with_reducible apply keep_ite
    | split
    | (refine keep_with K hg ?_; intro g h; cases g <;> first | rfl | (cases h; done) | exact fun _ m => m | exact fun _ m => nomatch m)
    | dsimp only

theorem keep_ringCfgWrite (K : Keeps 0x2004550 P) (W : Stores P) (v : W32) {s : State} (hg : P s) : P (ringCfgWrite v s) := by
  unfold ringCfgWrite
  repeat' first
    | with_reducible assumption
    | with_reducible exact hg
    | intro _
    | with_reducible apply keep_ringOff (K.mono (by decide)) W
    | with_reducible apply keep_pageErr (K.mono (by decide)) W
    | with_reducible apply keep_mRing (K.mono (by decide))
    | with_reducible apply keep_ite
    | split
    | (refine keep_with K hg ?_; intro g h; cases g <;> first | rfl | (cases h; done) | exact fun _ m => m | exact fun _ m => nomatch m)
    | dsimp only

theorem keep_ringEnable (K : Keeps 0x2004550 P) (W : Stores P) (v : W32) {s : State} (hg : P s) : P (ringEnable v s) := by
  unfold ringEnable
  repeat' first
    | with_reducible assumption
    | with_reducible exact hg
    | intro _
    | with_reducible apply keep_ringCfgWrite (K.mono (by decide)) W
    | with_reducible apply keep_ite
    | split

theorem keep_ringDisable (K : Keeps 0x2004550 P) (W : Stores P) (v : W32) {s : State} (hg : P s) : P (ringDisable v s) := by
  unfold ringDisable
  repeat' first
    | with_reducible assumption
    | with_reducible exact hg
    | intro _
    | with_reducible apply keep_ringCfgWrite (K.mono (by decide)) W
    | with_reducible apply keep_ite
    | split

theorem keep_tplInstall (K : Keeps 0x2001150 P) (W : Stores P) {s : State} (hg : P s) : P (tplInstall s) := by
  unfold tplInstall
  repeat' first
    | with_reducible assumption
    | with_reducible exact hg
    | intro _
    | with_reducible apply keep_pageErr (K.mono (by decide)) W
    | with_reducible apply keep_mTpl (K.mono (by decide))
    | with_reducible apply keep_ite
    | split
    | (refine keep_with K hg ?_; intro g h; cases g <;> first | rfl | (cases h; done) | exact fun _ m => m | exact fun _ m => nomatch m)
    | dsimp only

theorem keep_tplRead (K : Keeps 0x1000 P) {s : State} (hg : P s) : P (tplRead s) := by
  unfold tplRead
  repeat' first
    | with_reducible assumption
    | with_reducible exact hg
    | intro _
    | with_reducible apply keep_mTpl (K.mono (by decide))
    | with_reducible apply keep_foldl
    | (refine keep_with K hg ?_; intro g h; cases g <;> first | rfl | (cases h; done) | exact fun _ m => m | exact fun _ m => nomatch m)
    | dsimp only

theorem keep_tplInvalidate (K : Keeps 0x2001150 P) (W : Stores P) {s : State} (hg : P s) : P (tplInvalidate s) := by
  unfold tplInvalidate
  repeat' first
    | with_reducible assumption
    | with_reducible exact hg
    | intro _
    | with_reducible apply keep_pageErr (K.mono (by decide)) W
    | with_reducible apply keep_mTpl (K.mono (by decide))
    | with_reducible apply keep_ite
    | split
    | (refine keep_with K hg ?_; intro g h; cases g <;> first | rfl | (cases h; done) | exact fun _ m => m | exact fun _ m => nomatch m)
    | dsimp only

theorem keep_regionEntryWrite (K : Keeps 0x2002150 P) (W : Stores P) (v : W32) {s : State} (hg : P s) : P (regionEntryWrite v s) := by
  unfold regionEntryWrite
  repeat' first
    | with_reducible assumption
    | with_reducible exact hg
    | intro _
    | with_reducible apply keep_pageErr (K.mono (by decide)) W
    | with_reducible apply keep_mSes (K.mono (by decide))
    | with_reducible apply keep_ite
    | split
    | (refine keep_with K hg ?_; intro g h; cases g <;> first | rfl | (cases h; done) | exact fun _ m => m | exact fun _ m => nomatch m)
    | dsimp only

theorem keep_listAbort (K : Keeps 0x2050 P) (g : Nat) {s : State} (hg : P s) : P (listAbort g s) := by
  unfold listAbort
  repeat' first
    | with_reducible assumption
    | with_reducible exact hg
    | intro _
    | with_reducible apply keep_mSes (K.mono (by decide))
    | with_reducible apply keep_bump (K.mono (by decide))
    | with_reducible apply keep_ite
    | split
    | (refine keep_with K hg ?_; intro g h; cases g <;> first | rfl | (cases h; done) | exact fun _ m => m | exact fun _ m => nomatch m)

theorem keep_abortHeld (K : Keeps 0x27def54 P) (W : Stores P) (g : Nat) {s : State} (hg : P s) : P (abortHeld g s) := by
  unfold abortHeld
  repeat' first
    | with_reducible assumption
    | with_reducible exact hg
    | intro _
    | with_reducible apply keep_failStep (K.mono (by decide))
    | with_reducible apply keep_retireSlot (K.mono (by decide)) W
    | with_reducible apply keep_listAbort (K.mono (by decide))
    | with_reducible apply keep_mBkt (K.mono (by decide))
    | with_reducible apply keep_retirePark (K.mono (by decide)) W
    | with_reducible apply keep_ite
    | split
    | (refine keep_with K hg ?_; intro g h; cases g <;> first | rfl | (cases h; done) | exact fun _ m => m | exact fun _ m => nomatch m)
    | dsimp only

theorem keep_abort (K : Keeps 0x27def54 P) (W : Stores P) {s : State} (hg : P s) : P (abort s) := by
  unfold abort
  repeat' first
    | with_reducible assumption
    | with_reducible exact hg
    | intro _
    | with_reducible apply keep_takeBand (K.mono (by decide))
    | with_reducible apply keep_abortHeld (K.mono (by decide)) W
    | with_reducible apply keep_mSes (K.mono (by decide))
    | with_reducible refine keepO3_use ?_ (by assumption)
    | split
    | (refine keep_with K hg ?_; intro g h; cases g <;> first | rfl | (cases h; done) | exact fun _ m => m | exact fun _ m => nomatch m)

end Sys2Proof.Laws
end

