-- ==== Sys2Proof/Laws/FrameRowStats.lean ====
section
/-! SUPPORT. Laws/FrameRowStats.lean: the operations of Machine/RowStats.lean change no more than they may. -/

namespace Sys2Proof.Laws

open Sys2Proof.Machine

variable {P : State → Prop} {s : State}

theorem keep_mBlock (K : Keeps 0x2000 P) (slot b : Nat) (f : RowBlock → RowBlock) {s : State} (hg : P s) : P (mBlock slot b f s) := by
  unfold mBlock
  repeat' first
    | with_reducible assumption
    | with_reducible exact hg
    | intro _
    | with_reducible apply keep_mSlot (K.mono (by decide))
    | split
    | (refine keep_with K hg ?_; intro g h; cases g <;> first | rfl | (cases h; done) | exact fun _ m => m | exact fun _ m => nomatch m)

theorem keep_thimblePut (K : Keeps 0x20000 P) (i : Nat) (a b : F32) {s : State} (hg : P s) : P (thimblePut i a b s) := by
  unfold thimblePut
  repeat' first
    | with_reducible assumption
    | with_reducible exact hg
    | intro _
    | with_reducible apply keep_mRow (K.mono (by decide))
    | (refine keep_with K hg ?_; intro g h; cases g <;> first | rfl | (cases h; done) | exact fun _ m => m | exact fun _ m => nomatch m)

theorem keep_holdStat (K : Keeps 0x8100 P) (W : Stores P) (x : Session) (seq rank : Nat) (c : Chunk) (reads : List Nat) {s : State} (hg : P s) : P (holdStat x seq rank c reads s) := by
  unfold holdStat
  repeat' first
    | with_reducible assumption
    | with_reducible exact hg
    | intro _
    | with_reducible apply keep_holdOperand (K.mono (by decide)) W
    | split
    | (refine keep_with K hg ?_; intro g h; cases g <;> first | rfl | (cases h; done) | exact fun _ m => m | exact fun _ m => nomatch m)
    | dsimp only

theorem keep_statHop (K : Keeps 0x404000 P) {s : State} (x : Session) (plus : Bool) (op : Nat) (c : Chunk) (reads : List Nat) (hg : P s) : P (statHop s x plus op c reads) := by
  unfold statHop
  repeat' first
    | with_reducible assumption
    | with_reducible exact hg
    | intro _
    | with_reducible apply keep_inject (K.mono (by decide))
    | with_reducible apply keep_ite
    | split
    | dsimp only

theorem keep_sendStats (K : Keeps 0x640e150 P) (W : Stores P) (slot b phase : Nat) (l : List F32) (reads : List Nat) {s : State} (hg : P s) : P (sendStats slot b phase l reads s) := by
  unfold sendStats
  repeat' first
    | with_reducible assumption
    | with_reducible exact hg
    | intro _
    | with_reducible apply keep_fireInject (K.mono (by decide))
    | with_reducible apply keep_noteRoot (K.mono (by decide)) W
    | with_reducible apply keep_holdStat (K.mono (by decide)) W
    | with_reducible apply keep_statHop (K.mono (by decide))
    | with_reducible apply keep_ite
    | split
    | (refine keep_with K hg ?_; intro g h; cases g <;> first | rfl | (cases h; done) | exact fun _ m => m | exact fun _ m => nomatch m)
    | dsimp only

theorem keep_takeStat (K : Keeps 0x40c100 P) (W : Stores P) (x : Session) (rank : Nat) (c : Chunk) {s : State} (hg : P s) : P (takeStat x rank c s) := by
  unfold takeStat
  repeat' first
    | with_reducible assumption
    | with_reducible exact hg
    | intro _
    | with_reducible apply keep_holdStat (K.mono (by decide)) W
    | with_reducible apply keep_statHop (K.mono (by decide))
    | with_reducible apply keep_ite
    | split
    | dsimp only

theorem keep_statRoot (K : Keeps 0x200a150 P) (W : Stores P) (slot seq : Nat) (els : List (Option Nat)) (k : Cuff) {s : State} (hg : P s) : P (statRoot slot seq els k s) := by
  unfold statRoot
  repeat' first
    | with_reducible assumption
    | with_reducible exact hg
    | intro _
    | with_reducible apply keep_mBlock (K.mono (by decide))
    | with_reducible apply keep_noteRoot (K.mono (by decide)) W
    | with_reducible apply keep_ite
    | split
    | (refine keep_with K hg ?_; intro g h; cases g <;> first | rfl | (cases h; done) | exact fun _ m => m | exact fun _ m => nomatch m)
    | dsimp only

theorem keep_passReads (K : Keeps 0x100 P) (slot b : Nat) {s : State} (hg : P s) : P (passReads slot b s).2 := by
  unfold passReads
  repeat' first
    | with_reducible assumption
    | with_reducible exact hg
    | intro _
    | with_reducible apply keep_sourceRead (K.mono (by decide))
    | with_reducible apply keep_readFor (K.mono (by decide))
    | with_reducible apply keep_ite
    | split
    | (refine keep_with K hg ?_; intro g h; cases g <;> first | rfl | (cases h; done) | exact fun _ m => m | exact fun _ m => nomatch m)
    | dsimp only

theorem keep_setLast (K : Keeps 0x2000 P) (slot c : Nat) {s : State} (hg : P s) : P (setLast slot c s) := by
  unfold setLast
  repeat' first
    | with_reducible assumption
    | with_reducible exact hg
    | intro _
    | with_reducible apply keep_mSlot (K.mono (by decide))
    | (refine keep_with K hg ?_; intro g h; cases g <;> first | rfl | (cases h; done) | exact fun _ m => m | exact fun _ m => nomatch m)

theorem keep_firstPass (K : Keeps 0x67def54 P) (W : Stores P) (slot b : Nat) (x : Session) {s : State} (hg : P s) : P (firstPass slot b x s) := by
  unfold firstPass
  repeat' first
    | with_reducible assumption
    | with_reducible exact hg
    | intro _
    | with_reducible apply keep_failSession (K.mono (by decide)) W
    | with_reducible apply keep_passReads (K.mono (by decide))
    | with_reducible apply keep_mSlot (K.mono (by decide))
    | with_reducible apply keep_mBlock (K.mono (by decide))
    | with_reducible apply keep_consumeInput (K.mono (by decide))
    | with_reducible apply keep_setLast (K.mono (by decide))
    | with_reducible apply keep_sendStats (K.mono (by decide)) W
    | with_reducible apply keep_ite
    | split
    | (refine keep_with K hg ?_; intro g h; cases g <;> first | rfl | (cases h; done) | exact fun _ m => m | exact fun _ m => nomatch m)
    | dsimp only

theorem keep_midPass (K : Keeps 0x640e150 P) (W : Stores P) (slot b : Nat) (x : Session) {s : State} (hg : P s) : P (midPass slot b x s) := by
  unfold midPass
  repeat' first
    | with_reducible assumption
    | with_reducible exact hg
    | intro _
    | with_reducible apply keep_setLast (K.mono (by decide))
    | with_reducible apply keep_sendStats (K.mono (by decide)) W
    | with_reducible apply keep_mBlock (K.mono (by decide))
    | (refine keep_with K hg ?_; intro g h; cases g <;> first | rfl | (cases h; done) | exact fun _ m => m | exact fun _ m => nomatch m)
    | dsimp only

theorem keep_rowDeliver (K : Keeps 0x6100 P) (W : Stores P) (slot b : Nat) (x : Session) (e : Nat) (r : OutRun) {s : State} (hg : P s) : P (rowDeliver slot b x e r s) := by
  unfold rowDeliver
  repeat' first
    | with_reducible assumption
    | with_reducible exact hg
    | intro _
    | with_reducible apply keep_deliverOut (K.mono (by decide)) W
    | with_reducible apply keep_writeOutAs (K.mono (by decide)) W
    | with_reducible apply keep_ite
    | split

theorem keep_deliverBlock (K : Keeps 0x16150 P) (W : Stores P) (slot b : Nat) {s : State} (hg : P s) : P (deliverBlock slot b s) := by
  unfold deliverBlock
  repeat' first
    | with_reducible assumption
    | with_reducible exact hg
    | intro _
    | with_reducible apply keep_rowDeliver (K.mono (by decide)) W
    | with_reducible apply keep_countOut (K.mono (by decide))
    | with_reducible apply keep_foldS
    | with_reducible apply keep_ite
    | split
    | (refine keep_with K hg ?_; intro g h; cases g <;> first | rfl | (cases h; done) | exact fun _ m => m | exact fun _ m => nomatch m)
    | dsimp only

theorem keep_lastPass (K : Keeps 0x36150 P) (W : Stores P) (slot b : Nat) (x : Session) {s : State} (hg : P s) : P (lastPass slot b x s) := by
  unfold lastPass
  repeat' first
    | with_reducible assumption
    | with_reducible exact hg
    | intro _
    | with_reducible apply keep_bump (K.mono (by decide))
    | with_reducible apply keep_mRow (K.mono (by decide))
    | with_reducible apply keep_mBlock (K.mono (by decide))
    | with_reducible apply keep_deliverBlock (K.mono (by decide)) W
    | with_reducible apply keep_setLast (K.mono (by decide))
    | with_reducible apply keep_ite
    | split
    | (refine keep_with K hg ?_; intro g h; cases g <;> first | rfl | (cases h; done) | exact fun _ m => m | exact fun _ m => nomatch m)
    | dsimp only

theorem keep_rowPass (K : Keeps 0x67fef54 P) (W : Stores P) (slot : Nat) {s : State} (hg : P s) : P (rowPass slot s) := by
  unfold rowPass
  repeat' first
    | with_reducible assumption
    | with_reducible exact hg
    | intro _
    | with_reducible apply keep_firstPass (K.mono (by decide)) W
    | with_reducible apply keep_midPass (K.mono (by decide)) W
    | with_reducible apply keep_tryComplete (K.mono (by decide)) W
    | with_reducible apply keep_lastPass (K.mono (by decide)) W
    | with_reducible apply keep_ite
    | split
    | (refine keep_with K hg ?_; intro g h; cases g <;> first | rfl | (cases h; done) | exact fun _ m => m | exact fun _ m => nomatch m)
    | dsimp only

theorem keep_rowStatisticsFinal (K : Keeps 0x22000 P) (slot b : Nat) {s : State} (hg : P s) : P (rowStatisticsFinal slot b s) := by
  unfold rowStatisticsFinal
  repeat' first
    | with_reducible assumption
    | with_reducible exact hg
    | intro _
    | with_reducible apply keep_mBlock (K.mono (by decide))
    | with_reducible apply keep_thimblePut (K.mono (by decide))
    | with_reducible apply keep_foldS
    | with_reducible apply keep_ite
    | split
    | (refine keep_with K hg ?_; intro g h; cases g <;> first | rfl | (cases h; done) | exact fun _ m => m | exact fun _ m => nomatch m)
    | dsimp only

end Sys2Proof.Laws
end

