-- ==== Sys2Proof/Laws/FrameReduce.lean ====
section
/-! SUPPORT. Laws/FrameReduce.lean: the operations of Machine/Reduce.lean change no more than they may. -/

namespace Sys2Proof.Laws

open Sys2Proof.Machine

variable {P : State → Prop} {s : State}

theorem keep_logRedFail (K : Keeps 0x8050 P) (x : Session) (f : RedFail) {s : State} (hg : P s) : P (logRedFail x f s) := by
  unfold logRedFail
  repeat' first
    | with_reducible assumption
    | with_reducible exact hg
    | intro _
    | with_reducible apply keep_bump (K.mono (by decide))
    | with_reducible apply keep_mRed (K.mono (by decide))
    | with_reducible apply keep_ite
    | split
    | (refine keep_with K hg ?_; intro g h; cases g <;> first | rfl | (cases h; done) | exact fun _ m => m | exact fun _ m => nomatch m)
    | dsimp only

theorem keep_redFail (K : Keeps 0x27def54 P) (W : Stores P) (slot : Nat) (x : Session) (f : RedFail) {s : State} (hg : P s) : P (redFail slot x f s) := by
  unfold redFail
  repeat' first
    | with_reducible assumption
    | with_reducible exact hg
    | intro _
    | with_reducible apply keep_failSession (K.mono (by decide)) W
    | with_reducible apply keep_logRedFail (K.mono (by decide))
    | with_reducible apply keep_ite
    | split

theorem keep_redFailLogClear (K : Keeps 0x8000 P) (v : W32) {s : State} (hg : P s) : P (redFailLogClear v s) := by
  unfold redFailLogClear
  repeat' first
    | with_reducible assumption
    | with_reducible exact hg
    | intro _
    | with_reducible apply keep_mRed (K.mono (by decide))
    | with_reducible apply keep_ite
    | split
    | (refine keep_with K hg ?_; intro g h; cases g <;> first | rfl | (cases h; done) | exact fun _ m => m | exact fun _ m => nomatch m)

theorem keep_useOperand (K : Keeps 0x40e000 P) (slot : Nat) (o : Operand) {s : State} (hg : P s) : P (useOperand slot o s) := by
  unfold useOperand
  repeat' first
    | with_reducible assumption
    | with_reducible exact hg
    | intro _
    | with_reducible apply keep_dropOperand (K.mono (by decide))
    | with_reducible apply keep_returnCredit (K.mono (by decide))
    | with_reducible apply keep_ite
    | split
    | (refine keep_with K hg ?_; intro g h; cases g <;> first | rfl | (cases h; done) | exact fun _ m => m | exact fun _ m => nomatch m)
    | dsimp only

theorem keep_countOutput (K : Keeps 0x2000 P) (slot key : Nat) {s : State} (hg : P s) : P (countOutput slot key s) := by
  unfold countOutput
  repeat' first
    | with_reducible assumption
    | with_reducible exact hg
    | intro _
    | with_reducible apply keep_mSlot (K.mono (by decide))
    | split
    | (refine keep_with K hg ?_; intro g h; cases g <;> first | rfl | (cases h; done) | exact fun _ m => m | exact fun _ m => nomatch m)

theorem keep_releaseOutput (K : Keeps 0x241e150 P) (W : Stores P) (slot seq level node : Nat) (els : List (Option Nat)) (k : Cuff) {s : State} (hg : P s) : P (releaseOutput slot seq level node els k s) := by
  unfold releaseOutput
  repeat' first
    | with_reducible assumption
    | with_reducible exact hg
    | intro _
    | with_reducible apply keep_noteRoot (K.mono (by decide)) W
    | with_reducible apply keep_statRoot (K.mono (by decide)) W
    | with_reducible apply keep_rootOutput (K.mono (by decide)) W
    | with_reducible apply keep_sendOutput (K.mono (by decide)) W
    | with_reducible apply keep_ite
    | split
    | (refine keep_with K hg ?_; intro g h; cases g <;> first | rfl | (cases h; done) | exact fun _ m => m | exact fun _ m => nomatch m)
    | dsimp only

theorem keep_passOutput (K : Keeps 0x241e150 P) (W : Stores P) (slot seq level node : Nat) (c : Chunk) {s : State} (hg : P s) : P (passOutput slot seq level node c s) := by
  unfold passOutput
  repeat' first
    | with_reducible assumption
    | with_reducible exact hg
    | intro _
    | with_reducible apply keep_noteRoot (K.mono (by decide)) W
    | with_reducible apply keep_sendOutput (K.mono (by decide)) W
    | with_reducible apply keep_releaseOutput (K.mono (by decide)) W
    | with_reducible apply keep_ite
    | split
    | (refine keep_with K hg ?_; intro g h; cases g <;> first | rfl | (cases h; done) | exact fun _ m => m | exact fun _ m => nomatch m)
    | dsimp only

theorem keep_combineAt (K : Keeps 0x67def54 P) (W : Stores P) (slot : Nat) (x : Session) (seq level node : Nat) (a b : Chunk) {s : State} (hg : P s) : P (combineAt slot x seq level node a b s) := by
  unfold combineAt
  repeat' first
    | with_reducible assumption
    | with_reducible exact hg
    | intro _
    | with_reducible apply keep_redFail (K.mono (by decide)) W
    | with_reducible apply keep_fireInject (K.mono (by decide))
    | with_reducible apply keep_bump (K.mono (by decide))
    | with_reducible apply keep_mRed (K.mono (by decide))
    | with_reducible apply keep_releaseOutput (K.mono (by decide)) W
    | with_reducible apply keep_ite
    | split
    | (refine keep_with K hg ?_; intro g h; cases g <;> first | rfl | (cases h; done) | exact fun _ m => m | exact fun _ m => nomatch m)
    | dsimp only

theorem keep_mTopk (K : Keeps 0x2000 P) (slot key : Nat) (f : TopkNode → TopkNode) {s : State} (hg : P s) : P (mTopk slot key f s) := by
  unfold mTopk
  repeat' first
    | with_reducible assumption
    | with_reducible exact hg
    | intro _
    | with_reducible apply keep_mSlot (K.mono (by decide))
    | split
    | (refine keep_with K hg ?_; intro g h; cases g <;> first | rfl | (cases h; done) | exact fun _ m => m | exact fun _ m => nomatch m)

theorem keep_topkRoot (K : Keeps 0x211a150 P) (W : Stores P) (slot sh : Nat) (l : List (Nat × W32)) (poison skip : Bool) {s : State} (hg : P s) : P (topkRoot slot sh l poison skip s) := by
  unfold topkRoot
  repeat' first
    | with_reducible assumption
    | with_reducible exact hg
    | intro _
    | with_reducible apply keep_bump (K.mono (by decide))
    | with_reducible apply keep_mSpx (K.mono (by decide))
    | with_reducible apply keep_empWrite W
    | with_reducible apply keep_noteRoot (K.mono (by decide)) W
    | with_reducible apply keep_countOut (K.mono (by decide))
    | with_reducible apply keep_mSlot (K.mono (by decide))
    | with_reducible apply keep_rootOutput (K.mono (by decide)) W
    | with_reducible apply keep_foldS
    | with_reducible apply keep_ite
    | split
    | (refine keep_with K hg ?_; intro g h; cases g <;> first | rfl | (cases h; done) | exact fun _ m => m | exact fun _ m => nomatch m)
    | dsimp only

theorem keep_topkSend (K : Keeps 0x40e100 P) (W : Stores P) (slot sh level node : Nat) (c : Chunk) {s : State} (hg : P s) : P (topkSend slot sh level node c s) := by
  unfold topkSend
  repeat' first
    | with_reducible assumption
    | with_reducible exact hg
    | intro _
    | with_reducible apply keep_sendOutput (K.mono (by decide)) W
    | split
    | (refine keep_with K hg ?_; intro g h; cases g <;> first | rfl | (cases h; done) | exact fun _ m => m | exact fun _ m => nomatch m)

theorem keep_topkDone (K : Keeps 0x2000 P) (slot sh level node : Nat) {s : State} (hg : P s) : P (topkDone slot sh level node s) := by
  unfold topkDone
  repeat' first
    | with_reducible assumption
    | with_reducible exact hg
    | intro _
    | with_reducible apply keep_mTopk (K.mono (by decide))
    | (refine keep_with K hg ?_; intro g h; cases g <;> first | rfl | (cases h; done) | exact fun _ m => m | exact fun _ m => nomatch m)

theorem keep_topkEmit (K : Keeps 0x67def54 P) (W : Stores P) (slot : Nat) (x : Session) (sh level node : Nat) {s : State} (hg : P s) : P (topkEmit slot x sh level node s) := by
  unfold topkEmit
  repeat' first
    | with_reducible assumption
    | with_reducible exact hg
    | intro _
    | with_reducible apply keep_fireInject (K.mono (by decide))
    | with_reducible apply keep_bump (K.mono (by decide))
    | with_reducible apply keep_mRed (K.mono (by decide))
    | with_reducible apply keep_redFail (K.mono (by decide)) W
    | with_reducible apply keep_topkDone (K.mono (by decide))
    | with_reducible apply keep_noteRoot (K.mono (by decide)) W
    | with_reducible apply keep_topkRoot (K.mono (by decide)) W
    | with_reducible apply keep_topkSend (K.mono (by decide)) W
    | with_reducible apply keep_foldS
    | with_reducible apply keep_foldl
    | with_reducible apply keep_ite
    | split
    | (refine keep_with K hg ?_; intro g h; cases g <;> first | rfl | (cases h; done) | exact fun _ m => m | exact fun _ m => nomatch m)
    | dsimp only

theorem keep_topkFeed (K : Keeps 0x27def54 P) (W : Stores P) (slot sh level node : Nat) (o : Operand) {s : State} (hg : P s) : P (topkFeed slot sh level node o s) := by
  unfold topkFeed
  repeat' first
    | with_reducible assumption
    | with_reducible exact hg
    | intro _
    | with_reducible apply keep_redFail (K.mono (by decide)) W
    | with_reducible apply keep_useOperand (K.mono (by decide))
    | with_reducible apply keep_mTopk (K.mono (by decide))
    | with_reducible apply keep_ite
    | split
    | (refine keep_with K hg ?_; intro g h; cases g <;> first | rfl | (cases h; done) | exact fun _ m => m | exact fun _ m => nomatch m)
    | dsimp only

theorem keep_topkPass (K : Keeps 0x27def54 P) (W : Stores P) (slot sh level node : Nat) (o : Operand) {s : State} (hg : P s) : P (topkPass slot sh level node o s) := by
  unfold topkPass
  repeat' first
    | with_reducible assumption
    | with_reducible exact hg
    | intro _
    | with_reducible apply keep_redFail (K.mono (by decide)) W
    | with_reducible apply keep_noteRoot (K.mono (by decide)) W
    | with_reducible apply keep_topkSend (K.mono (by decide)) W
    | with_reducible apply keep_useOperand (K.mono (by decide))
    | with_reducible apply keep_mTopk (K.mono (by decide))
    | with_reducible apply keep_topkRoot (K.mono (by decide)) W
    | with_reducible apply keep_topkDone (K.mono (by decide))
    | with_reducible apply keep_ite
    | split
    | (refine keep_with K hg ?_; intro g h; cases g <;> first | rfl | (cases h; done) | exact fun _ m => m | exact fun _ m => nomatch m)
    | dsimp only

theorem keep_topkNode (K : Keeps 0x67def54 P) (W : Stores P) (slot : Nat) (x : Session) (sh level node : Nat) {s : State} (hg : P s) : P (topkNode slot x sh level node s) := by
  unfold topkNode
  repeat' first
    | with_reducible assumption
    | with_reducible exact hg
    | intro _
    | with_reducible apply keep_fetchOperand (K.mono (by decide))
    | with_reducible apply keep_mTopk (K.mono (by decide))
    | with_reducible apply keep_dropOperand (K.mono (by decide))
    | with_reducible apply keep_topkRoot (K.mono (by decide)) W
    | with_reducible apply keep_topkDone (K.mono (by decide))
    | with_reducible apply keep_flushAbsent (K.mono (by decide)) W
    | with_reducible apply keep_absentOutput (K.mono (by decide)) W
    | with_reducible apply keep_topkPass (K.mono (by decide)) W
    | with_reducible apply keep_topkFeed (K.mono (by decide)) W
    | with_reducible apply keep_topkEmit (K.mono (by decide)) W
    | with_reducible apply keep_ite
    | split
    | (refine keep_with K hg ?_; intro g h; cases g <;> first | rfl | (cases h; done) | exact fun _ m => m | exact fun _ m => nomatch m)
    | dsimp only

theorem keep_noteLate (K : Keeps 0x4000050 P) (x : Session) (level node : Nat) (l r : Operand) {s : State} (hg : P s) : P (noteLate x level node l r s) := by
  unfold noteLate
  repeat' first
    | with_reducible assumption
    | with_reducible exact hg
    | intro _
    | with_reducible apply keep_bump (K.mono (by decide))
    | with_reducible apply keep_mFlt (K.mono (by decide))
    | with_reducible apply keep_ite
    | split
    | (refine keep_with K hg ?_; intro g h; cases g <;> first | rfl | (cases h; done) | exact fun _ m => m | exact fun _ m => nomatch m)
    | dsimp only

theorem keep_combineTurn (K : Keeps 0x67def54 P) (W : Stores P) (slot : Nat) (x : Session) (seq level node : Nat) {s : State} (hg : P s) : P (combineTurn slot x seq level node s) := by
  unfold combineTurn
  repeat' first
    | with_reducible assumption
    | with_reducible exact hg
    | intro _
    | with_reducible apply keep_fetchOperand (K.mono (by decide))
    | with_reducible apply keep_countOutput (K.mono (by decide))
    | with_reducible apply keep_useOperand (K.mono (by decide))
    | with_reducible apply keep_combineAt (K.mono (by decide)) W
    | with_reducible apply keep_noteLate (K.mono (by decide))
    | with_reducible apply keep_passOutput (K.mono (by decide)) W
    | with_reducible apply keep_rootOutput (K.mono (by decide)) W
    | with_reducible apply keep_flushAbsent (K.mono (by decide)) W
    | with_reducible apply keep_absentOutput (K.mono (by decide)) W
    | with_reducible apply keep_bump (K.mono (by decide))
    | with_reducible apply keep_mSpx (K.mono (by decide))
    | with_reducible apply keep_ite
    | split
    | (refine keep_with K hg ?_; intro g h; cases g <;> first | rfl | (cases h; done) | exact fun _ m => m | exact fun _ m => nomatch m)
    | dsimp only

theorem keep_nodeCombine (K : Keeps 0x67def54 P) (W : Stores P) (slot seq level node : Nat) {s : State} (hg : P s) : P (nodeCombine slot seq level node s) := by
  unfold nodeCombine
  repeat' first
    | with_reducible assumption
    | with_reducible exact hg
    | intro _
    | with_reducible apply keep_tryComplete (K.mono (by decide)) W
    | with_reducible apply keep_topkNode (K.mono (by decide)) W
    | with_reducible apply keep_combineTurn (K.mono (by decide)) W
    | with_reducible apply keep_ite
    | split
    | (refine keep_with K hg ?_; intro g h; cases g <;> first | rfl | (cases h; done) | exact fun _ m => m | exact fun _ m => nomatch m)
    | dsimp only

theorem keep_takeOperand (K : Keeps 0x8100 P) (W : Stores P) (x : Session) (seq level rank : Nat) (c : Option Chunk) {s : State} (hg : P s) : P (takeOperand x seq level rank c s) := by
  unfold takeOperand
  repeat' first
    | with_reducible assumption
    | with_reducible exact hg
    | intro _
    | with_reducible apply keep_holdOperand (K.mono (by decide)) W
    | with_reducible apply keep_ite
    | split
    | (refine keep_with K hg ?_; intro g h; cases g <;> first | rfl | (cases h; done) | exact fun _ m => m | exact fun _ m => nomatch m)

theorem keep_depositChunk (K : Keeps 0x6100 P) (W : Stores P) (slot : Nat) (x : Session) (key e k : Nat) (c : Chunk) {s : State} (hg : P s) : P (depositChunk slot x key e k c s) := by
  unfold depositChunk
  repeat' first
    | with_reducible assumption
    | with_reducible exact hg
    | intro _
    | with_reducible apply keep_markGot (K.mono (by decide))
    | with_reducible apply keep_deliverRuns (K.mono (by decide)) W
    | dsimp only

theorem keep_takeGather (K : Keeps 0x406100 P) (W : Stores P) (slot : Nat) (x : Session) (p : Packet) (c : Chunk) {s : State} (hg : P s) : P (takeGather slot x p c s) := by
  unfold takeGather
  repeat' first
    | with_reducible assumption
    | with_reducible exact hg
    | intro _
    | with_reducible apply keep_depositChunk (K.mono (by decide)) W
    | with_reducible apply keep_inject (K.mono (by decide))
    | with_reducible apply keep_ite
    | split
    | (refine keep_with K hg ?_; intro g h; cases g <;> first | rfl | (cases h; done) | exact fun _ m => m | exact fun _ m => nomatch m)
    | dsimp only

theorem keep_takeExchange (K : Keeps 0x6100 P) (W : Stores P) (slot : Nat) (x : Session) (rank : Nat) (c : Chunk) {s : State} (hg : P s) : P (takeExchange slot x rank c s) := by
  unfold takeExchange
  repeat' first
    | with_reducible assumption
    | with_reducible exact hg
    | intro _
    | with_reducible apply keep_depositChunk (K.mono (by decide)) W
    | with_reducible apply keep_ite
    | split
    | dsimp only

theorem keep_takeReceive (K : Keeps 0x6100 P) (W : Stores P) (slot : Nat) (x : Session) (c : Chunk) {s : State} (hg : P s) : P (takeReceive slot x c s) := by
  unfold takeReceive
  repeat' first
    | with_reducible assumption
    | with_reducible exact hg
    | intro _
    | with_reducible apply keep_depositChunk (K.mono (by decide)) W
    | with_reducible apply keep_ite
    | split
    | dsimp only

theorem keep_placeChunk (K : Keeps 0x44e150 P) (W : Stores P) (p : Packet) {s : State} (hg : P s) : P (placeChunk p s) := by
  unfold placeChunk
  repeat' first
    | with_reducible assumption
    | with_reducible exact hg
    | intro _
    | with_reducible apply keep_bump (K.mono (by decide))
    | with_reducible apply keep_mGas (K.mono (by decide))
    | with_reducible apply keep_progress (K.mono (by decide))
    | with_reducible apply keep_takeOperand (K.mono (by decide)) W
    | with_reducible apply keep_takeStat (K.mono (by decide)) W
    | with_reducible apply keep_takeGather (K.mono (by decide)) W
    | with_reducible apply keep_takeExchange (K.mono (by decide)) W
    | with_reducible apply keep_takeReceive (K.mono (by decide)) W
    | with_reducible apply keep_ite
    | split
    | (refine keep_with K hg ?_; intro g h; cases g <;> first | rfl | (cases h; done) | exact fun _ m => m | exact fun _ m => nomatch m)
    | dsimp only

theorem keep_chunkReceive (K : Keeps 0x44e150 P) (W : Stores P) {s : State} (hg : P s) : P (chunkReceive s) := by
  unfold chunkReceive
  repeat' first
    | with_reducible assumption
    | with_reducible exact hg
    | intro _
    | with_reducible apply keep_takeInbox (K.mono (by decide))
    | with_reducible apply keep_placeChunk (K.mono (by decide)) W
    | with_reducible refine keepO2_use ?_ (by assumption)
    | split
    | (refine keep_with K hg ?_; intro g h; cases g <;> first | rfl | (cases h; done) | exact fun _ m => m | exact fun _ m => nomatch m)

theorem keep_noteAbsent (K : Keeps 0xa100 P) (W : Stores P) (slot seq level rank : Nat) {s : State} (hg : P s) : P (noteAbsent slot seq level rank s) := by
  unfold noteAbsent
  repeat' first
    | with_reducible assumption
    | with_reducible exact hg
    | intro _
    | with_reducible apply keep_takeOperand (K.mono (by decide)) W
    | with_reducible apply keep_markGot (K.mono (by decide))
    | with_reducible apply keep_absentRow (K.mono (by decide))
    | with_reducible apply keep_ite
    | split
    | (refine keep_with K hg ?_; intro g h; cases g <;> first | rfl | (cases h; done) | exact fun _ m => m | exact fun _ m => nomatch m)
    | dsimp only

theorem keep_absent (K : Keeps 0x67def54 P) (W : Stores P) {s : State} (hg : P s) : P (absent s) := by
  unfold absent
  repeat' first
    | with_reducible assumption
    | with_reducible exact hg
    | intro _
    | with_reducible apply keep_takeBand (K.mono (by decide))
    | with_reducible apply keep_tryComplete (K.mono (by decide)) W
    | with_reducible apply keep_progress (K.mono (by decide))
    | with_reducible apply keep_noteAbsent (K.mono (by decide)) W
    | with_reducible refine keepO3_use ?_ (by assumption)
    | with_reducible apply keep_foldS
    | split
    | (refine keep_with K hg ?_; intro g h; cases g <;> first | rfl | (cases h; done) | exact fun _ m => m | exact fun _ m => nomatch m)
    | dsimp only

theorem keep_slotReturn (K : Keeps 0x406000 P) {s : State} (hg : P s) : P (slotReturn s) := by
  unfold slotReturn
  repeat' first
    | with_reducible assumption
    | with_reducible exact hg
    | intro _
    | with_reducible apply keep_takeBand (K.mono (by decide))
    | with_reducible apply keep_drainOuts (K.mono (by decide))
    | with_reducible apply keep_mSlot (K.mono (by decide))
    | with_reducible refine keepO3_use ?_ (by assumption)
    | split
    | (refine keep_with K hg ?_; intro g h; cases g <;> first | rfl | (cases h; done) | exact fun _ m => m | exact fun _ m => nomatch m)
    | dsimp only

theorem keep_chunkRetire (K : Keeps 0x67def54 P) (W : Stores P) (t : Nat) {s : State} (hg : P s) : P (chunkRetire t s) := by
  unfold chunkRetire
  repeat' first
    | with_reducible assumption
    | with_reducible exact hg
    | intro _
    | with_reducible apply keep_mTrk (K.mono (by decide))
    | with_reducible apply keep_mQue (K.mono (by decide))
    | with_reducible apply keep_tagStall (K.mono (by decide))
    | with_reducible apply keep_tryComplete (K.mono (by decide)) W
    | with_reducible apply keep_progress (K.mono (by decide))
    | with_reducible apply keep_ite
    | split
    | (refine keep_with K hg ?_; intro g h; cases g <;> first | rfl | (cases h; done) | exact fun _ m => m | exact fun _ m => nomatch m)
    | dsimp only

theorem keep_transposeRowBlock (K : Keeps 0x2100 P) (slot b : Nat) {s : State} (hg : P s) : P (transposeRowBlock slot b s) := by
  unfold transposeRowBlock
  repeat' first
    | with_reducible assumption
    | with_reducible exact hg
    | intro _
    | with_reducible apply keep_readFor (K.mono (by decide))
    | with_reducible apply keep_addLocal (K.mono (by decide))
    | with_reducible apply keep_mSlot (K.mono (by decide))
    | with_reducible apply keep_ite
    | split
    | (refine keep_with K hg ?_; intro g h; cases g <;> first | rfl | (cases h; done) | exact fun _ m => m | exact fun _ m => nomatch m)
    | dsimp only

theorem keep_depositEntryWrite (K : Keeps 0x2002150 P) (W : Stores P) (v : W64) {s : State} (hg : P s) : P (depositEntryWrite v s) := by
  unfold depositEntryWrite
  repeat' first
    | with_reducible assumption
    | with_reducible exact hg
    | intro _
    | with_reducible apply keep_pageErr (K.mono (by decide)) W
    | with_reducible apply keep_mSes (K.mono (by decide))
    | with_reducible apply keep_ite
    | split
    | (refine keep_with K hg ?_; intro g h; cases g <;> first | rfl | (cases h; done) | exact fun _ m => m | exact fun _ m => nomatch m)
    | dsimp only

end Sys2Proof.Laws
end

