-- ==== Sys2Proof/Laws/FrameAdmission.lean ====
section
/-! SUPPORT. Laws/FrameAdmission.lean: the operations of Machine/Admission.lean change no more than they may. -/

namespace Sys2Proof.Laws

open Sys2Proof.Machine

variable {P : State → Prop} {s : State}

theorem keep_sendHome (K : Keeps 0x404000 P) (x : Session) (m : BandMsg) {s : State} (hg : P s) : P (sendHome x m s) := by
  unfold sendHome
  repeat' first
    | with_reducible assumption
    | with_reducible exact hg
    | intro _
    | with_reducible apply keep_sendBand (K.mono (by decide))

theorem keep_setAdmit (K : Keeps 0x2000 P) (i : Nat) (st : SesState) {s : State} (hg : P s) : P (setAdmit i st s) := by
  unfold setAdmit
  repeat' first
    | with_reducible assumption
    | with_reducible exact hg
    | intro _
    | with_reducible apply keep_mSlot (K.mono (by decide))
    | (refine keep_with K hg ?_; intro g h; cases g <;> first | rfl | (cases h; done) | exact fun _ m => m | exact fun _ m => nomatch m)

theorem keep_revokeSession (K : Keeps 0x2406154 P) (W : Stores P) (i : Nat) {s : State} (hg : P s) : P (revokeSession i s) := by
  unfold revokeSession
  repeat' first
    | with_reducible assumption
    | with_reducible exact hg
    | intro _
    | with_reducible apply keep_mSlot (K.mono (by decide))
    | with_reducible apply keep_setAdmit (K.mono (by decide))
    | with_reducible apply keep_choice (K.mono (by decide)) W
    | with_reducible apply keep_sendHome (K.mono (by decide))
    | with_reducible apply keep_revoke (K.mono (by decide))
    | split
    | (refine keep_with K hg ?_; intro g h; cases g <;> first | rfl | (cases h; done) | exact fun _ m => m | exact fun _ m => nomatch m)
    | dsimp only

theorem keep_revokeUntil (K : Keeps 0x2406154 P) (W : Stores P) (need : Nat) (staged : Bool) (l : List (Nat × Session)) {s : State} (hg : P s) :
    P (revokeUntil need staged l s) := by
  induction l generalizing s with
  | nil => exact hg
  | cons a l ih =>
    unfold revokeUntil
    split
    · exact hg
    · exact ih (keep_revokeSession (K.mono (by decide)) W _ hg)

theorem keep_holdSpace (K : Keeps 0x67def54 P) (W : Stores P) (i : Nat) (x : Session) (staged : Bool) {s : State} (hg : P s) : P (holdSpace i x staged s) := by
  unfold holdSpace
  repeat' first
    | with_reducible assumption
    | with_reducible exact hg
    | intro _
    | with_reducible apply keep_revokeUntil (K.mono (by decide)) W
    | with_reducible apply keep_mSlot (K.mono (by decide))
    | with_reducible apply keep_setAdmit (K.mono (by decide))
    | with_reducible apply keep_sendHome (K.mono (by decide))
    | with_reducible apply keep_grant (K.mono (by decide)) W
    | (refine keep_with K hg ?_; intro g h; cases g <;> first | rfl | (cases h; done) | exact fun _ m => m | exact fun _ m => nomatch m)
    | dsimp only

theorem keep_unfit (K : Keeps 0x27def54 P) (W : Stores P) (i : Nat) (x : Session) {s : State} (hg : P s) : P (unfit i x s) := by
  unfold unfit
  repeat' first
    | with_reducible assumption
    | with_reducible exact hg
    | intro _
    | with_reducible apply keep_lastReject (K.mono (by decide))
    | with_reducible apply keep_reportCode (K.mono (by decide)) W
    | with_reducible apply keep_mRing (K.mono (by decide))
    | with_reducible apply keep_retireSlot (K.mono (by decide)) W
    | with_reducible apply keep_failStep (K.mono (by decide))
    | with_reducible apply keep_abortGroup (K.mono (by decide)) W
    | with_reducible apply keep_ite
    | split
    | (refine keep_with K hg ?_; intro g h; cases g <;> first | rfl | (cases h; done) | exact fun _ m => m | exact fun _ m => nomatch m)
    | dsimp only

theorem keep_stageTurn (K : Keeps 0x67def54 P) (W : Stores P) (i : Nat) (x : Session) (timed : Bool) {s : State} (hg : P s) : P (stageTurn i x timed s) := by
  unfold stageTurn
  repeat' first
    | with_reducible assumption
    | with_reducible exact hg
    | intro _
    | with_reducible apply keep_holdSpace (K.mono (by decide)) W
    | with_reducible apply keep_choice (K.mono (by decide)) W
    | with_reducible apply keep_unfit (K.mono (by decide)) W
    | with_reducible apply keep_ite
    | split
    | dsimp only

theorem keep_considerSession (K : Keeps 0x67def54 P) (W : Stores P) (i : Nat) {s : State} (hg : P s) : P (considerSession i s) := by
  unfold considerSession
  repeat' first
    | with_reducible assumption
    | with_reducible exact hg
    | intro _
    | with_reducible apply keep_enterRun (K.mono (by decide)) W
    | with_reducible apply keep_stageTurn (K.mono (by decide)) W
    | with_reducible apply keep_holdSpace (K.mono (by decide)) W
    | with_reducible apply keep_ite
    | split
    | (refine keep_with K hg ?_; intro g h; cases g <;> first | rfl | (cases h; done) | exact fun _ m => m | exact fun _ m => nomatch m)

theorem keep_admissionScan (K : Keeps 0x67def54 P) (W : Stores P) {s : State} (hg : P s) : P (admissionScan s) := by
  unfold admissionScan
  repeat' first
    | with_reducible assumption
    | with_reducible exact hg
    | intro _
    | with_reducible apply keep_considerSession (K.mono (by decide)) W
    | with_reducible apply keep_foldS
    | with_reducible apply keep_ite
    | split
    | dsimp only

theorem keep_stageAfterTimeout (K : Keeps 0x67def54 P) (W : Stores P) (i : Nat) (forced : Bool) {s : State} (hg : P s) : P (stageAfterTimeout i forced s) := by
  unfold stageAfterTimeout
  repeat' first
    | with_reducible assumption
    | with_reducible exact hg
    | intro _
    | with_reducible apply keep_holdSpace (K.mono (by decide)) W
    | with_reducible apply keep_stageTurn (K.mono (by decide)) W
    | with_reducible apply keep_ite
    | split
    | (refine keep_with K hg ?_; intro g h; cases g <;> first | rfl | (cases h; done) | exact fun _ m => m | exact fun _ m => nomatch m)

theorem keep_admitMsg (K : Keeps 0x67def54 P) (W : Stores P) {s : State} (hg : P s) : P (admitMsg s) := by
  unfold admitMsg
  repeat' first
    | with_reducible assumption
    | with_reducible exact hg
    | intro _
    | with_reducible apply keep_takeBand (K.mono (by decide))
    | with_reducible apply keep_sendHome (K.mono (by decide))
    | with_reducible apply keep_firm (K.mono (by decide)) W
    | with_reducible apply keep_setAdmit (K.mono (by decide))
    | with_reducible apply keep_choice (K.mono (by decide)) W
    | with_reducible apply keep_refuse (K.mono (by decide)) W
    | with_reducible refine keepO3_use ?_ (by assumption)
    | split
    | (refine keep_with K hg ?_; intro g h; cases g <;> first | rfl | (cases h; done) | exact fun _ m => m | exact fun _ m => nomatch m)

theorem keep_retract (K : Keeps 0x67def54 P) (W : Stores P) {s : State} (hg : P s) : P (retract s) := by
  unfold retract
  repeat' first
    | with_reducible assumption
    | with_reducible exact hg
    | intro _
    | with_reducible apply keep_takeBand (K.mono (by decide))
    | with_reducible apply keep_bump (K.mono (by decide))
    | with_reducible apply keep_mSes (K.mono (by decide))
    | with_reducible apply keep_firm (K.mono (by decide)) W
    | with_reducible apply keep_setAdmit (K.mono (by decide))
    | with_reducible refine keepO3_use ?_ (by assumption)
    | with_reducible apply keep_ite
    | split
    | (refine keep_with K hg ?_; intro g h; cases g <;> first | rfl | (cases h; done) | exact fun _ m => m | exact fun _ m => nomatch m)
    | dsimp only

theorem keep_go (K : Keeps 0x67def54 P) (W : Stores P) {s : State} (hg : P s) : P (go s) := by
  unfold go
  repeat' first
    | with_reducible assumption
    | with_reducible exact hg
    | intro _
    | with_reducible apply keep_takeBand (K.mono (by decide))
    | with_reducible apply keep_firm (K.mono (by decide)) W
    | with_reducible apply keep_enterRun (K.mono (by decide)) W
    | with_reducible refine keepO3_use ?_ (by assumption)
    | with_reducible apply keep_ite
    | split
    | (refine keep_with K hg ?_; intro g h; cases g <;> first | rfl | (cases h; done) | exact fun _ m => m | exact fun _ m => nomatch m)

theorem keep_putHome (K : Keeps 0x2000 P) (h : HomeSes) {s : State} (hg : P s) : P (putHome h s) := by
  unfold putHome
  repeat' first
    | with_reducible assumption
    | with_reducible exact hg
    | intro _
    | with_reducible apply keep_mSes (K.mono (by decide))
    | (refine keep_with K hg ?_; intro g h; cases g <;> first | rfl | (cases h; done) | exact fun _ m => m | exact fun _ m => nomatch m)

theorem keep_dropHome (K : Keeps 0x2000 P) (g : Nat) {s : State} (hg : P s) : P (dropHome g s) := by
  unfold dropHome
  repeat' first
    | with_reducible assumption
    | with_reducible exact hg
    | intro _
    | with_reducible apply keep_mSes (K.mono (by decide))
    | (refine keep_with K hg ?_; intro g h; cases g <;> first | rfl | (cases h; done) | exact fun _ m => m | exact fun _ m => nomatch m)

theorem keep_homeSend (K : Keeps 0x404000 P) (h : HomeSes) (m : BandMsg) {s : State} (hg : P s) : P (homeSend h m s) := by
  unfold homeSend
  repeat' first
    | with_reducible assumption
    | with_reducible exact hg
    | intro _
    | with_reducible apply keep_sendBand (K.mono (by decide))
    | with_reducible apply keep_foldS

theorem keep_homeAdmit (K : Keeps 0x67def54 P) (W : Stores P) (h : HomeSes) {s : State} (hg : P s) : P (homeAdmit h s) := by
  unfold homeAdmit
  repeat' first
    | with_reducible assumption
    | with_reducible exact hg
    | intro _
    | with_reducible apply keep_homeSend (K.mono (by decide))
    | with_reducible apply keep_putHome (K.mono (by decide))
    | with_reducible apply keep_firm (K.mono (by decide)) W
    | with_reducible apply keep_ite
    | split
    | (refine keep_with K hg ?_; intro g h; cases g <;> first | rfl | (cases h; done) | exact fun _ m => m | exact fun _ m => nomatch m)

theorem keep_grant (K : Keeps 0x67def54 P) (W : Stores P) {s : State} (hg : P s) : P (grant s) := by
  unfold grant
  repeat' first
    | with_reducible assumption
    | with_reducible exact hg
    | intro _
    | with_reducible apply keep_takeBand (K.mono (by decide))
    | with_reducible apply keep_homeAdmit (K.mono (by decide)) W
    | with_reducible apply keep_homeSend (K.mono (by decide))
    | with_reducible apply keep_abort (K.mono (by decide)) W
    | with_reducible apply keep_dropHome (K.mono (by decide))
    | with_reducible refine keepO3_use ?_ (by assumption)
    | with_reducible apply keep_ite
    | split
    | (refine keep_with K hg ?_; intro g h; cases g <;> first | rfl | (cases h; done) | exact fun _ m => m | exact fun _ m => nomatch m)
    | dsimp only

theorem keep_homeMsg_inl (K : Keeps 0x400000 P) {t : Nat} {h : HomeSes} {k : Nat} {u s : State} (hg : P s)
    (e : homeMsg t s = .inl (some (h, k, u))) : P u := by
  unfold homeMsg at e
  split at e
  · cases e
  · next p m v hv =>
    split at e
    · cases e
    · split at e
      · cases e; exact (keep_takeBand (K.mono (by decide)) t hg).use _ _ _ hv
      · cases e

theorem keep_homeMsg_inr (K : Keeps 0x400000 P) {t : Nat} {u s : State} (hg : P s) (e : homeMsg t s = .inr u) : P u := by
  unfold homeMsg at e
  split at e
  · cases e; exact hg
  · next p m v hv =>
    have hv := (keep_takeBand (K.mono (by decide)) t hg).use _ _ _ hv
    split at e
    · cases e; exact hv
    · split at e
      · cases e
      · cases e; exact hv

theorem keep_revoke (K : Keeps 0x402000 P) {s : State} (hg : P s) : P (revoke s) := by
  unfold revoke
  repeat' first
    | with_reducible assumption
    | with_reducible exact hg
    | intro _
    | with_reducible apply keep_homeMsg (K.mono (by decide))
    | with_reducible apply keep_dropHome (K.mono (by decide))
    | with_reducible apply keep_putHome (K.mono (by decide))
    | with_reducible exact keep_homeMsg_inl (K.mono (by decide)) hg (by assumption)
    | with_reducible exact keep_homeMsg_inr (K.mono (by decide)) hg (by assumption)
    | with_reducible apply keep_ite
    | split
    | (refine keep_with K hg ?_; intro g h; cases g <;> first | rfl | (cases h; done) | exact fun _ m => m | exact fun _ m => nomatch m)
    | dsimp only

theorem keep_firm (K : Keeps 0x67def54 P) (W : Stores P) {s : State} (hg : P s) : P (firm s) := by
  unfold firm
  repeat' first
    | with_reducible assumption
    | with_reducible exact hg
    | intro _
    | with_reducible apply keep_homeMsg (K.mono (by decide))
    | with_reducible apply keep_homeSend (K.mono (by decide))
    | with_reducible apply keep_go (K.mono (by decide)) W
    | with_reducible apply keep_dropHome (K.mono (by decide))
    | with_reducible apply keep_putHome (K.mono (by decide))
    | with_reducible exact keep_homeMsg_inl (K.mono (by decide)) hg (by assumption)
    | with_reducible exact keep_homeMsg_inr (K.mono (by decide)) hg (by assumption)
    | with_reducible apply keep_ite
    | split
    | (refine keep_with K hg ?_; intro g h; cases g <;> first | rfl | (cases h; done) | exact fun _ m => m | exact fun _ m => nomatch m)
    | dsimp only

theorem keep_refuse (K : Keeps 0x67def54 P) (W : Stores P) {s : State} (hg : P s) : P (refuse s) := by
  unfold refuse
  repeat' first
    | with_reducible assumption
    | with_reducible exact hg
    | intro _
    | with_reducible apply keep_homeMsg (K.mono (by decide))
    | with_reducible apply keep_homeSend (K.mono (by decide))
    | with_reducible apply keep_retract (K.mono (by decide)) W
    | with_reducible apply keep_putHome (K.mono (by decide))
    | with_reducible apply keep_firm (K.mono (by decide)) W
    | with_reducible exact keep_homeMsg_inl (K.mono (by decide)) hg (by assumption)
    | with_reducible exact keep_homeMsg_inr (K.mono (by decide)) hg (by assumption)
    | with_reducible apply keep_ite
    | split
    | (refine keep_with K hg ?_; intro g h; cases g <;> first | rfl | (cases h; done) | exact fun _ m => m | exact fun _ m => nomatch m)

end Sys2Proof.Laws
end

