-- ==== Sys2Proof/Laws/FrameFinish.lean ====
section
/-! SUPPORT. Laws/FrameFinish.lean: the operations of Machine/Finish.lean change no more than they may. -/

namespace Sys2Proof.Laws

open Sys2Proof.Machine

variable {P : State → Prop} {s : State}

theorem keep_savePre (K : Keeps 0x10150 P) (W : Stores P) (slot : Nat) (x : Session) (e i0 : Nat) (vs : List Nat) {s : State} (hg : P s) : P (savePre slot x e i0 vs s) := by
  unfold savePre
  repeat' first
    | with_reducible assumption
    | with_reducible exact hg
    | intro _
    | with_reducible apply keep_countOut (K.mono (by decide))
    | with_reducible apply keep_writeSpan (K.mono (by decide)) W
    | dsimp only

theorem keep_finishItem (K : Keeps 0x16150 P) (W : Stores P) (it : FinItem) {s : State} (hg : P s) : P (finishItem it s) := by
  unfold finishItem
  repeat' first
    | with_reducible assumption
    | with_reducible exact hg
    | intro _
    | with_reducible apply keep_savePre (K.mono (by decide)) W
    | with_reducible apply keep_progress (K.mono (by decide))
    | with_reducible apply keep_deliverOut (K.mono (by decide)) W
    | with_reducible apply keep_countOut (K.mono (by decide))
    | with_reducible apply keep_ite
    | split
    | (refine keep_with K hg ?_; intro g h; cases g <;> first | rfl | (cases h; done) | exact fun _ m => m | exact fun _ m => nomatch m)
    | dsimp only

theorem keep_finChunk (K : Keeps 0x67def54 P) (W : Stores P) {s : State} (hg : P s) : P (finChunk s) := by
  unfold finChunk
  repeat' first
    | with_reducible assumption
    | with_reducible exact hg
    | intro _
    | with_reducible apply keep_tryComplete (K.mono (by decide)) W
    | with_reducible apply keep_finishItem (K.mono (by decide)) W
    | with_reducible apply keep_mFin (K.mono (by decide))
    | with_reducible apply keep_ite
    | split
    | (refine keep_with K hg ?_; intro g h; cases g <;> first | rfl | (cases h; done) | exact fun _ m => m | exact fun _ m => nomatch m)
    | dsimp only

theorem keep_finEntryCommit (K : Keeps 0x2010150 P) (W : Stores P) (v : W64) {s : State} (hg : P s) : P (finEntryCommit v s) := by
  unfold finEntryCommit
  repeat' first
    | with_reducible assumption
    | with_reducible exact hg
    | intro _
    | with_reducible apply keep_mFin (K.mono (by decide))
    | with_reducible apply keep_pageErr (K.mono (by decide)) W
    | with_reducible apply keep_ite
    | split
    | (refine keep_with K hg ?_; intro g h; cases g <;> first | rfl | (cases h; done) | exact fun _ m => m | exact fun _ m => nomatch m)
    | dsimp only

theorem keep_rowEntryCommit (K : Keeps 0x2020150 P) (W : Stores P) (v : W64) {s : State} (hg : P s) : P (rowEntryCommit v s) := by
  unfold rowEntryCommit
  repeat' first
    | with_reducible assumption
    | with_reducible exact hg
    | intro _
    | with_reducible apply keep_mRow (K.mono (by decide))
    | with_reducible apply keep_pageErr (K.mono (by decide)) W
    | with_reducible apply keep_ite
    | split
    | (refine keep_with K hg ?_; intro g h; cases g <;> first | rfl | (cases h; done) | exact fun _ m => m | exact fun _ m => nomatch m)
    | dsimp only

theorem keep_entryIndexWrite (K : Keeps 0x1f0000 P) (reg : IndexReg) (v : W32) {s : State} (hg : P s) : P (entryIndexWrite reg v s) := by
  unfold entryIndexWrite
  repeat' first
    | with_reducible assumption
    | with_reducible exact hg
    | intro _
    | with_reducible apply keep_mFin (K.mono (by decide))
    | with_reducible apply keep_mRow (K.mono (by decide))
    | with_reducible apply keep_mGas (K.mono (by decide))
    | with_reducible apply keep_mOpt (K.mono (by decide))
    | with_reducible apply keep_mSpx (K.mono (by decide))
    | split
    | (refine keep_with K hg ?_; intro g h; cases g <;> first | rfl | (cases h; done) | exact fun _ m => m | exact fun _ m => nomatch m)

end Sys2Proof.Laws
end

