-- ==== Sys2Proof/Laws/FrameExchange.lean ====
section
/-! SUPPORT. Laws/FrameExchange.lean: the operations of Machine/Exchange.lean change no more than they may. -/

namespace Sys2Proof.Laws

open Sys2Proof.Machine

variable {P : State → Prop} {s : State}

theorem keep_expertDispatchRoute (K : Keeps 0x2100 P) (slot : Nat) {s : State} (hg : P s) : P (expertDispatchRoute slot s) := by
  unfold expertDispatchRoute
  repeat' first
    | with_reducible assumption
    | with_reducible exact hg
    | intro _
    | with_reducible apply keep_readFor (K.mono (by decide))
    | with_reducible apply keep_addLocal (K.mono (by decide))
    | with_reducible apply keep_progress (K.mono (by decide))
    | with_reducible apply keep_ite
    | split
    | (refine keep_with K hg ?_; intro g h; cases g <;> first | rfl | (cases h; done) | exact fun _ m => m | exact fun _ m => nomatch m)
    | dsimp only

theorem keep_placeExpert (K : Keeps 0x67def54 P) (W : Stores P) (p : Packet) {s : State} (hg : P s) : P (placeExpert p s) := by
  unfold placeExpert
  repeat' first
    | with_reducible assumption
    | with_reducible exact hg
    | intro _
    | with_reducible apply keep_tryComplete (K.mono (by decide)) W
    | with_reducible apply keep_writeCounts (K.mono (by decide)) W
    | with_reducible apply keep_progress (K.mono (by decide))
    | with_reducible apply keep_endSpx (K.mono (by decide)) W
    | with_reducible apply keep_landExpert (K.mono (by decide)) W
    | with_reducible apply keep_ite
    | split
    | (refine keep_with K hg ?_; intro g h; cases g <;> first | rfl | (cases h; done) | exact fun _ m => m | exact fun _ m => nomatch m)
    | dsimp only

theorem keep_expertPacket (K : Keeps 0x67def54 P) (W : Stores P) {s : State} (hg : P s) : P (expertPacket s) := by
  unfold expertPacket
  repeat' first
    | with_reducible assumption
    | with_reducible exact hg
    | intro _
    | with_reducible apply keep_takeInbox (K.mono (by decide))
    | with_reducible apply keep_placeExpert (K.mono (by decide)) W
    | with_reducible refine keepO2_use ?_ (by assumption)
    | with_reducible apply keep_ite
    | split
    | (refine keep_with K hg ?_; intro g h; cases g <;> first | rfl | (cases h; done) | exact fun _ m => m | exact fun _ m => nomatch m)

theorem keep_expertCombineOutput (K : Keeps 0x2100 P) (slot : Nat) {s : State} (hg : P s) : P (expertCombineOutput slot s) := by
  unfold expertCombineOutput
  repeat' first
    | with_reducible assumption
    | with_reducible exact hg
    | intro _
    | with_reducible apply keep_readFor (K.mono (by decide))
    | with_reducible apply keep_addLocal (K.mono (by decide))
    | with_reducible apply keep_progress (K.mono (by decide))
    | with_reducible apply keep_ite
    | split
    | (refine keep_with K hg ?_; intro g h; cases g <;> first | rfl | (cases h; done) | exact fun _ m => m | exact fun _ m => nomatch m)
    | dsimp only

theorem keep_clearToSend (K : Keeps 0x27def54 P) (W : Stores P) {s : State} (hg : P s) : P (clearToSend s) := by
  unfold clearToSend
  repeat' first
    | with_reducible assumption
    | with_reducible exact hg
    | intro _
    | with_reducible apply keep_takeBand (K.mono (by decide))
    | with_reducible apply keep_endSpx (K.mono (by decide)) W
    | with_reducible apply keep_progress (K.mono (by decide))
    | with_reducible apply keep_mSlot (K.mono (by decide))
    | with_reducible refine keepO3_use ?_ (by assumption)
    | with_reducible apply keep_ite
    | split
    | (refine keep_with K hg ?_; intro g h; cases g <;> first | rfl | (cases h; done) | exact fun _ m => m | exact fun _ m => nomatch m)

theorem keep_receiveReady (K : Keeps 0x27def54 P) (W : Stores P) (slot : Nat) {s : State} (hg : P s) : P (receiveReady slot s) := by
  unfold receiveReady
  repeat' first
    | with_reducible assumption
    | with_reducible exact hg
    | intro _
    | with_reducible apply keep_sendBand (K.mono (by decide))
    | with_reducible apply keep_clearToSend (K.mono (by decide)) W
    | with_reducible apply keep_mSlot (K.mono (by decide))
    | with_reducible apply keep_bump (K.mono (by decide))
    | with_reducible apply keep_mSpx (K.mono (by decide))
    | with_reducible apply keep_ite
    | split
    | (refine keep_with K hg ?_; intro g h; cases g <;> first | rfl | (cases h; done) | exact fun _ m => m | exact fun _ m => nomatch m)

theorem keep_stashRelease (K : Keeps 0x2300150 P) (W : Stores P) (who : Requester) (ctx i : Nat) (v : W32) {s : State} (hg : P s) : P (stashRelease who ctx i v s) := by
  unfold stashRelease
  repeat' first
    | with_reducible assumption
    | with_reducible exact hg
    | intro _
    | with_reducible apply keep_denyWindow (K.mono (by decide)) W
    | with_reducible apply keep_pageErr (K.mono (by decide)) W
    | with_reducible apply keep_mSpx (K.mono (by decide))
    | with_reducible apply keep_ite
    | split
    | (refine keep_with K hg ?_; intro g h; cases g <;> first | rfl | (cases h; done) | exact fun _ m => m | exact fun _ m => nomatch m)
    | dsimp only

theorem keep_stashCfgWrite (K : Keeps 0x2100150 P) (W : Stores P) (v : W64) {s : State} (hg : P s) : P (stashCfgWrite v s) := by
  unfold stashCfgWrite
  repeat' first
    | with_reducible assumption
    | with_reducible exact hg
    | intro _
    | with_reducible apply keep_pageErr (K.mono (by decide)) W
    | with_reducible apply keep_mSpx (K.mono (by decide))
    | with_reducible apply keep_ite
    | split
    | (refine keep_with K hg ?_; intro g h; cases g <;> first | rfl | (cases h; done) | exact fun _ m => m | exact fun _ m => nomatch m)
    | dsimp only

theorem keep_spxEntryCommit (K : Keeps 0x2100150 P) (W : Stores P) (v : W64) {s : State} (hg : P s) : P (spxEntryCommit v s) := by
  unfold spxEntryCommit
  repeat' first
    | with_reducible assumption
    | with_reducible exact hg
    | intro _
    | with_reducible apply keep_mSpx (K.mono (by decide))
    | with_reducible apply keep_pageErr (K.mono (by decide)) W
    | with_reducible apply keep_ite
    | split
    | (refine keep_with K hg ?_; intro g h; cases g <;> first | rfl | (cases h; done) | exact fun _ m => m | exact fun _ m => nomatch m)
    | dsimp only

end Sys2Proof.Laws
end

