-- ==== Sys2Proof/Laws/FrameUpdate.lean ====
section
/-! SUPPORT. Laws/FrameUpdate.lean: the operations of Machine/Update.lean change no more than they may. -/

namespace Sys2Proof.Laws

open Sys2Proof.Machine

variable {P : State → Prop} {s : State}

theorem keep_stepArrival (K : Keeps 0xefdef54 P) (W : Stores P) (c : Nat) (fmt : Nat) (st : BandStatus) (v : W32) {s : State} (hg : P s) : P (stepArrival c fmt st v s) := by
  unfold stepArrival
  repeat' first
    | with_reducible assumption
    | with_reducible exact hg
    | intro _
    | with_reducible apply keep_issueArrival (K.mono (by decide)) W
    | with_reducible apply keep_stepVerdict (K.mono (by decide)) W
    | with_reducible apply keep_countArrived (K.mono (by decide))
    | with_reducible apply keep_stepResult (K.mono (by decide)) W
    | with_reducible apply keep_ite
    | split
    | dsimp only

theorem keep_sendContribution (K : Keeps 0xefdef54 P) (W : Stores P) (late : Bool) {s : State} (hg : P s) : P (sendContribution late s) := by
  unfold sendContribution
  repeat' first
    | with_reducible assumption
    | with_reducible exact hg
    | intro _
    | with_reducible apply keep_decision (K.mono (by decide))
    | with_reducible apply keep_mOpt (K.mono (by decide))
    | with_reducible apply keep_choice (K.mono (by decide)) W
    | with_reducible apply keep_countArrived (K.mono (by decide))
    | with_reducible apply keep_fireInject (K.mono (by decide))
    | with_reducible apply keep_stepArrival (K.mono (by decide)) W
    | with_reducible apply keep_ite
    | split
    | (refine keep_with K hg ?_; intro g h; cases g <;> first | rfl | (cases h; done) | exact fun _ m => m | exact fun _ m => nomatch m)
    | dsimp only

theorem keep_releaseContribution (K : Keeps 0xefdef54 P) (W : Stores P) {s : State} (hg : P s) : P (releaseContribution s) := by
  unfold releaseContribution
  repeat' first
    | with_reducible assumption
    | with_reducible exact hg
    | intro _
    | with_reducible apply keep_sendContribution (K.mono (by decide)) W
    | with_reducible apply keep_ite
    | split

theorem keep_stepDeadline (K : Keeps 0xefdef54 P) (W : Stores P) (forced : Bool) {s : State} (hg : P s) : P (stepDeadline forced s) := by
  unfold stepDeadline
  repeat' first
    | with_reducible assumption
    | with_reducible exact hg
    | intro _
    | with_reducible apply keep_sendContribution (K.mono (by decide)) W
    | with_reducible apply keep_ite
    | split
    | (refine keep_with K hg ?_; intro g h; cases g <;> first | rfl | (cases h; done) | exact fun _ m => m | exact fun _ m => nomatch m)

theorem keep_runWave (K : Keeps 0xc0150 P) (W : Stores P) (b : Nat) (k : Park) {s : State} (hg : P s) : P (runWave b k s) := by
  unfold runWave
  repeat' first
    | with_reducible assumption
    | with_reducible exact hg
    | intro _
    | with_reducible apply keep_empRead (K.mono (by decide))
    | with_reducible apply keep_writeSpan (K.mono (by decide)) W
    | with_reducible apply keep_mBkt (K.mono (by decide))
    | with_reducible apply keep_bump (K.mono (by decide))
    | with_reducible apply keep_mOpt (K.mono (by decide))
    | with_reducible apply keep_foldS
    | (refine keep_with K hg ?_; intro g h; cases g <;> first | rfl | (cases h; done) | exact fun _ m => m | exact fun _ m => nomatch m)
    | dsimp only

theorem keep_updateWave (K : Keeps 0xc0150 P) (W : Stores P) {s : State} (hg : P s) : P (updateWave s) := by
  unfold updateWave
  repeat' first
    | with_reducible assumption
    | with_reducible exact hg
    | intro _
    | with_reducible apply keep_runWave (K.mono (by decide)) W
    | with_reducible apply keep_ite
    | split
    | (refine keep_with K hg ?_; intro g h; cases g <;> first | rfl | (cases h; done) | exact fun _ m => m | exact fun _ m => nomatch m)

theorem keep_commitVote (K : Keeps 0xefdef54 P) (W : Stores P) {s : State} (hg : P s) : P (commitVote s) := by
  unfold commitVote
  repeat' first
    | with_reducible assumption
    | with_reducible exact hg
    | intro _
    | with_reducible apply keep_decision (K.mono (by decide))
    | with_reducible apply keep_stepArrival (K.mono (by decide)) W
    | with_reducible apply keep_mOpt (K.mono (by decide))
    | with_reducible apply keep_ite
    | split
    | (refine keep_with K hg ?_; intro g h; cases g <;> first | rfl | (cases h; done) | exact fun _ m => m | exact fun _ m => nomatch m)
    | dsimp only

theorem keep_enStart (K : Keeps 0x80200 P) {s : State} (hg : P s) : P (enStart s) := by
  unfold enStart
  repeat' first
    | with_reducible assumption
    | with_reducible exact hg
    | intro _
    | with_reducible apply keep_mOpt (K.mono (by decide))
    | with_reducible apply keep_mCtl (K.mono (by decide))
    | (refine keep_with K hg ?_; intro g h; cases g <;> first | rfl | (cases h; done) | exact fun _ m => m | exact fun _ m => nomatch m)

theorem keep_startStep (K : Keeps 0x80200 P) {s : State} (hg : P s) : P (startStep s) := by
  unfold startStep
  repeat' first
    | with_reducible assumption
    | with_reducible exact hg
    | intro _
    | with_reducible apply keep_mOpt (K.mono (by decide))
    | with_reducible apply keep_enStart (K.mono (by decide))
    | (refine keep_with K hg ?_; intro g h; cases g <;> first | rfl | (cases h; done) | exact fun _ m => m | exact fun _ m => nomatch m)

theorem keep_stepCtlWrite (K : Keeps 0x2080350 P) (W : Stores P) (v : W32) {s : State} (hg : P s) : P (stepCtlWrite v s) := by
  unfold stepCtlWrite
  repeat' first
    | with_reducible assumption
    | with_reducible exact hg
    | intro _
    | with_reducible apply keep_mOpt (K.mono (by decide))
    | with_reducible apply keep_pageErr (K.mono (by decide)) W
    | with_reducible apply keep_startStep (K.mono (by decide))
    | with_reducible apply keep_ite
    | split
    | (refine keep_with K hg ?_; intro g h; cases g <;> first | rfl | (cases h; done) | exact fun _ m => m | exact fun _ m => nomatch m)
    | dsimp only

theorem keep_stepEnable (K : Keeps 0x2080350 P) (W : Stores P) (v : W32) {s : State} (hg : P s) : P (stepEnable v s) := by
  unfold stepEnable
  repeat' first
    | with_reducible assumption
    | with_reducible exact hg
    | intro _
    | with_reducible apply keep_stepCtlWrite (K.mono (by decide)) W
    | with_reducible apply keep_ite
    | split

theorem keep_stepDisable (K : Keeps 0x2080350 P) (W : Stores P) (v : W32) {s : State} (hg : P s) : P (stepDisable v s) := by
  unfold stepDisable
  repeat' first
    | with_reducible assumption
    | with_reducible exact hg
    | intro _
    | with_reducible apply keep_stepCtlWrite (K.mono (by decide)) W
    | with_reducible apply keep_ite
    | split

theorem keep_bucketEntryCommit (K : Keeps 0x2040150 P) (W : Stores P) (v : W64) {s : State} (hg : P s) : P (bucketEntryCommit v s) := by
  unfold bucketEntryCommit
  repeat' first
    | with_reducible assumption
    | with_reducible exact hg
    | intro _
    | with_reducible apply keep_mGas (K.mono (by decide))
    | with_reducible apply keep_pageErr (K.mono (by decide)) W
    | with_reducible apply keep_mBkt (K.mono (by decide))
    | with_reducible apply keep_ite
    | split
    | (refine keep_with K hg ?_; intro g h; cases g <;> first | rfl | (cases h; done) | exact fun _ m => m | exact fun _ m => nomatch m)
    | dsimp only

theorem keep_optEntryCommit (K : Keeps 0x80000 P) (v : W32) {s : State} (hg : P s) : P (optEntryCommit v s) := by
  unfold optEntryCommit
  repeat' first
    | with_reducible assumption
    | with_reducible exact hg
    | intro _
    | with_reducible apply keep_mOpt (K.mono (by decide))
    | with_reducible apply keep_ite
    | split
    | (refine keep_with K hg ?_; intro g h; cases g <;> first | rfl | (cases h; done) | exact fun _ m => m | exact fun _ m => nomatch m)
    | dsimp only

theorem keep_uprogWrite (K : Keeps 0x2080150 P) (W : Stores P) (v : W32) {s : State} (hg : P s) : P (uprogWrite v s) := by
  unfold uprogWrite
  repeat' first
    | with_reducible assumption
    | with_reducible exact hg
    | intro _
    | with_reducible apply keep_pageErr (K.mono (by decide)) W
    | with_reducible apply keep_mOpt (K.mono (by decide))
    | with_reducible apply keep_ite
    | split
    | (refine keep_with K hg ?_; intro g h; cases g <;> first | rfl | (cases h; done) | exact fun _ m => m | exact fun _ m => nomatch m)

end Sys2Proof.Laws
end

