-- ==== Sys2Proof/Laws/FrameMirror.lean ====
section
/-! SUPPORT. Laws/FrameMirror.lean: the operations of Machine/Mirror.lean change no more than they may. -/

namespace Sys2Proof.Laws

open Sys2Proof.Machine

variable {P : State → Prop} {s : State}

theorem keep_endRec (K : Keeps 0xe000150 P) (W : Stores P) (code : W16) {s : State} (hg : P s) : P (endRec code s) := by
  unfold endRec
  repeat' first
    | with_reducible assumption
    | with_reducible exact hg
    | intro _
    | with_reducible apply keep_mFlt (K.mono (by decide))
    | with_reducible apply keep_reportCode (K.mono (by decide)) W
    | with_reducible apply keep_sendMbx (K.mono (by decide))
    | with_reducible apply keep_ite
    | split
    | (refine keep_with K hg ?_; intro g h; cases g <;> first | rfl | (cases h; done) | exact fun _ m => m | exact fun _ m => nomatch m)
    | dsimp only

theorem keep_reportLost (K : Keeps 0xe080150 P) (W : Stores P) {s : State} (hg : P s) : P (reportLost s) := by
  unfold reportLost
  repeat' first
    | with_reducible assumption
    | with_reducible exact hg
    | intro _
    | with_reducible apply keep_mOpt (K.mono (by decide))
    | with_reducible apply keep_mFlt (K.mono (by decide))
    | with_reducible apply keep_sendMbx (K.mono (by decide))
    | with_reducible apply keep_raiseStep (K.mono (by decide))
    | with_reducible apply keep_reportCode (K.mono (by decide)) W
    | (refine keep_with K hg ?_; intro g h; cases g <;> first | rfl | (cases h; done) | exact fun _ m => m | exact fun _ m => nomatch m)
    | dsimp only

theorem keep_failRestore (K : Keeps 0xe080150 P) (W : Stores P) {s : State} (hg : P s) : P (failRestore s) := by
  unfold failRestore
  repeat' first
    | with_reducible assumption
    | with_reducible exact hg
    | intro _
    | with_reducible apply keep_mOpt (K.mono (by decide))
    | with_reducible apply keep_endRec (K.mono (by decide)) W
    | with_reducible apply keep_reportLost (K.mono (by decide)) W
    | with_reducible apply keep_ite
    | split
    | (refine keep_with K hg ?_; intro g h; cases g <;> first | rfl | (cases h; done) | exact fun _ m => m | exact fun _ m => nomatch m)
    | dsimp only

theorem keep_tryEndRestore (K : Keeps 0xe6def54 P) (W : Stores P) {s : State} (hg : P s) : P (tryEndRestore s) := by
  unfold tryEndRestore
  repeat' first
    | with_reducible assumption
    | with_reducible exact hg
    | intro _
    | with_reducible apply keep_endRec (K.mono (by decide)) W
    | with_reducible apply keep_ite
    | split

theorem keep_issueMirror (K : Keeps 0x2444200 P) (b : Nat) (h : MirrorHdr) (payload : List Byte) (reads : List Nat) {s : State} (hg : P s) : P (issueMirror b h payload reads s) := by
  unfold issueMirror
  repeat' first
    | with_reducible assumption
    | with_reducible exact hg
    | intro _
    | with_reducible apply keep_takeTag (K.mono (by decide))
    | with_reducible apply keep_decision (K.mono (by decide))
    | with_reducible apply keep_mBkt (K.mono (by decide))
    | with_reducible apply keep_inject (K.mono (by decide))
    | split
    | (refine keep_with K hg ?_; intro g h; cases g <;> first | rfl | (cases h; done) | exact fun _ m => m | exact fun _ m => nomatch m)
    | dsimp only

theorem keep_sendPart (K : Keeps 0x2444300 P) (b p i n : Nat) (step : W16) (gen : Bool) {s : State} (hg : P s) : P (sendPart b p i n step gen s) := by
  unfold sendPart
  repeat' first
    | with_reducible assumption
    | with_reducible exact hg
    | intro _
    | with_reducible apply keep_empRead (K.mono (by decide))
    | with_reducible apply keep_issueMirror (K.mono (by decide))
    | with_reducible apply keep_foldS
    | dsimp only

theorem keep_sendSeal (K : Keeps 0x2444200 P) (b : Nat) (step : W16) (gen : Bool) {s : State} (hg : P s) : P (sendSeal b step gen s) := by
  unfold sendSeal
  repeat' first
    | with_reducible assumption
    | with_reducible exact hg
    | intro _
    | with_reducible apply keep_mBkt (K.mono (by decide))
    | with_reducible apply keep_issueMirror (K.mono (by decide))
    | (refine keep_with K hg ?_; intro g h; cases g <;> first | rfl | (cases h; done) | exact fun _ m => m | exact fun _ m => nomatch m)
    | dsimp only

theorem keep_mirrorSend (K : Keeps 0x2444300 P) (b : Nat) {s : State} (hg : P s) : P (mirrorSend b s) := by
  unfold mirrorSend
  repeat' first
    | with_reducible assumption
    | with_reducible exact hg
    | intro _
    | with_reducible apply keep_sendPart (K.mono (by decide))
    | with_reducible apply keep_mBkt (K.mono (by decide))
    | with_reducible apply keep_sendSeal (K.mono (by decide))
    | with_reducible apply keep_foldS
    | with_reducible apply keep_ite
    | split
    | (refine keep_with K hg ?_; intro g h; cases g <;> first | rfl | (cases h; done) | exact fun _ m => m | exact fun _ m => nomatch m)
    | dsimp only

theorem keep_clearSent (K : Keeps 0x40000 P) {s : State} (hg : P s) : P (clearSent s) := by
  unfold clearSent
  repeat' first
    | with_reducible assumption
    | with_reducible exact hg
    | intro _
    | with_reducible apply keep_mBkt (K.mono (by decide))
    | with_reducible apply keep_foldS
    | (refine keep_with K hg ?_; intro g h; cases g <;> first | rfl | (cases h; done) | exact fun _ m => m | exact fun _ m => nomatch m)

theorem keep_mirrorMissing (K : Keeps 0xe0c0150 P) (W : Stores P) (b : Nat) {s : State} (hg : P s) : P (mirrorMissing b s) := by
  unfold mirrorMissing
  repeat' first
    | with_reducible assumption
    | with_reducible exact hg
    | intro _
    | with_reducible apply keep_mBkt (K.mono (by decide))
    | with_reducible apply keep_bump (K.mono (by decide))
    | with_reducible apply keep_mOpt (K.mono (by decide))
    | with_reducible apply keep_pageErr (K.mono (by decide)) W
    | with_reducible apply keep_endRec (K.mono (by decide)) W
    | with_reducible apply keep_clearSent (K.mono (by decide))
    | with_reducible apply keep_ite
    | split
    | (refine keep_with K hg ?_; intro g h; cases g <;> first | rfl | (cases h; done) | exact fun _ m => m | exact fun _ m => nomatch m)
    | dsimp only

theorem keep_dropMirror (K : Keeps 0x400000 P) (tag : Nat) {s : State} (hg : P s) : P (dropMirror tag s) := by
  unfold dropMirror
  repeat' first
    | with_reducible assumption
    | with_reducible exact hg
    | intro _
    | with_reducible apply keep_mRtr (K.mono (by decide))
    | split
    | (refine keep_with K hg ?_; intro g h; cases g <;> first | rfl | (cases h; done) | exact fun _ m => m | exact fun _ m => nomatch m)

theorem keep_mirrorTimeout (K : Keeps 0xe0c0150 P) (W : Stores P) (b : Nat) {s : State} (hg : P s) : P (mirrorTimeout b s) := by
  unfold mirrorTimeout
  repeat' first
    | with_reducible assumption
    | with_reducible exact hg
    | intro _
    | with_reducible apply keep_mirrorMissing (K.mono (by decide)) W
    | with_reducible apply keep_ite
    | split
    | (refine keep_with K hg ?_; intro g h; cases g <;> first | rfl | (cases h; done) | exact fun _ m => m | exact fun _ m => nomatch m)

theorem keep_countSent (K : Keeps 0xe040150 P) (W : Stores P) {s : State} (hg : P s) : P (countSent s) := by
  unfold countSent
  repeat' first
    | with_reducible assumption
    | with_reducible exact hg
    | intro _
    | with_reducible apply keep_mFlt (K.mono (by decide))
    | with_reducible apply keep_endRec (K.mono (by decide)) W
    | with_reducible apply keep_clearSent (K.mono (by decide))
    | with_reducible apply keep_ite
    | split
    | (refine keep_with K hg ?_; intro g h; cases g <;> first | rfl | (cases h; done) | exact fun _ m => m | exact fun _ m => nomatch m)
    | dsimp only

theorem keep_mirrorAck (K : Keeps 0xe440150 P) (W : Stores P) {s : State} (hg : P s) : P (mirrorAck s) := by
  unfold mirrorAck
  repeat' first
    | with_reducible assumption
    | with_reducible exact hg
    | intro _
    | with_reducible apply keep_takeBand (K.mono (by decide))
    | with_reducible apply keep_countSent (K.mono (by decide)) W
    | with_reducible apply keep_mBkt (K.mono (by decide))
    | with_reducible refine keepO3_use ?_ (by assumption)
    | with_reducible apply keep_ite
    | split
    | (refine keep_with K hg ?_; intro g h; cases g <;> first | rfl | (cases h; done) | exact fun _ m => m | exact fun _ m => nomatch m)

theorem keep_placeRecord (K : Keeps 0x66def54 P) (W : Stores P) (b o : Nat) (bytes : List Byte) {s : State} (hg : P s) : P (placeRecord b o bytes s) := by
  unfold placeRecord
  repeat' first
    | with_reducible assumption
    | with_reducible exact hg
    | intro _
    | with_reducible apply keep_mBkt (K.mono (by decide))
    | with_reducible apply keep_writeSpan (K.mono (by decide)) W
    | with_reducible apply keep_restore (K.mono (by decide)) W
    | with_reducible apply keep_foldl
    | with_reducible apply keep_ite
    | split
    | (refine keep_with K hg ?_; intro g h; cases g <;> first | rfl | (cases h; done) | exact fun _ m => m | exact fun _ m => nomatch m)
    | dsimp only

theorem keep_restorePacket (K : Keeps 0xe6def54 P) (W : Stores P) (p : Packet) {s : State} (hg : P s) : P (restorePacket p s) := by
  unfold restorePacket
  repeat' first
    | with_reducible assumption
    | with_reducible exact hg
    | intro _
    | with_reducible apply keep_placeRecord (K.mono (by decide)) W
    | with_reducible apply keep_tryEndRestore (K.mono (by decide)) W
    | with_reducible apply keep_mFlt (K.mono (by decide))
    | with_reducible apply keep_foldS
    | (refine keep_with K hg ?_; intro g h; cases g <;> first | rfl | (cases h; done) | exact fun _ m => m | exact fun _ m => nomatch m)
    | dsimp only

theorem keep_buddyPacket (K : Keeps 0x80150 P) (W : Stores P) (p : Packet) {s : State} (hg : P s) : P (buddyPacket p s) := by
  unfold buddyPacket
  repeat' first
    | with_reducible assumption
    | with_reducible exact hg
    | intro _
    | with_reducible apply keep_bump (K.mono (by decide))
    | with_reducible apply keep_mOpt (K.mono (by decide))
    | with_reducible apply keep_writeSpan (K.mono (by decide)) W
    | with_reducible apply keep_ite
    | split
    | (refine keep_with K hg ?_; intro g h; cases g <;> first | rfl | (cases h; done) | exact fun _ m => m | exact fun _ m => nomatch m)
    | dsimp only

theorem keep_mirrorPacket (K : Keeps 0xe6def54 P) (W : Stores P) {s : State} (hg : P s) : P (mirrorPacket s) := by
  unfold mirrorPacket
  repeat' first
    | with_reducible assumption
    | with_reducible exact hg
    | intro _
    | with_reducible apply keep_takeInbox (K.mono (by decide))
    | with_reducible apply keep_restorePacket (K.mono (by decide)) W
    | with_reducible apply keep_buddyPacket (K.mono (by decide)) W
    | with_reducible refine keepO2_use ?_ (by assumption)
    | with_reducible apply keep_ite
    | split
    | (refine keep_with K hg ?_; intro g h; cases g <;> first | rfl | (cases h; done) | exact fun _ m => m | exact fun _ m => nomatch m)

theorem keep_restoreRecordVerify (K : Keeps 0xe6def54 P) (W : Stores P) (b : Nat) {s : State} (hg : P s) : P (restoreRecordVerify b s) := by
  unfold restoreRecordVerify
  repeat' first
    | with_reducible assumption
    | with_reducible exact hg
    | intro _
    | with_reducible apply keep_empRead (K.mono (by decide))
    | with_reducible apply keep_restore (K.mono (by decide)) W
    | with_reducible apply keep_tryEndRestore (K.mono (by decide)) W
    | with_reducible apply keep_mFlt (K.mono (by decide))
    | with_reducible apply keep_mBkt (K.mono (by decide))
    | with_reducible apply keep_writeSpan (K.mono (by decide)) W
    | with_reducible apply keep_failRestore (K.mono (by decide)) W
    | with_reducible apply keep_ite
    | split
    | (refine keep_with K hg ?_; intro g h; cases g <;> first | rfl | (cases h; done) | exact fun _ m => m | exact fun _ m => nomatch m)
    | dsimp only

theorem keep_recTimeout (K : Keeps 0xe080150 P) (W : Stores P) {s : State} (hg : P s) : P (recTimeout s) := by
  unfold recTimeout
  repeat' first
    | with_reducible assumption
    | with_reducible exact hg
    | intro _
    | with_reducible apply keep_failRestore (K.mono (by decide)) W
    | with_reducible apply keep_ite
    | split

end Sys2Proof.Laws
end

