-- ==== Sys2Proof/Laws/FrameRecovery.lean ====
section
/-! SUPPORT. Laws/FrameRecovery.lean: the operations of Machine/Recovery.lean change no more than they may. -/

namespace Sys2Proof.Laws

open Sys2Proof.Machine

variable {P : State → Prop} {s : State}

theorem keep_startRec (K : Keeps 0x6000150 P) (W : Stores P) (op : Nat) {act : State → State} {s : State} (hf : ∀ t, P t → P (act t)) (hg : P s) :
    P (startRec op act s) := by
  unfold startRec
  repeat' first
    | with_reducible exact hg
    | with_reducible apply hf
    | with_reducible apply keep_ite
    | with_reducible apply keep_mFlt (K.mono (by decide))
    | with_reducible apply keep_pageErr (K.mono (by decide)) W
    | split
    | exact keep_with K hg (by intro g h; cases g <;> first | rfl | (cases h; done) | exact fun _ m => m | exact fun _ m => nomatch m)

theorem keep_retireParams (K : Keeps 0x221ef54 P) (W : Stores P) (step : W16) {s : State} (hg : P s) : P (retireParams step s) := by
  unfold retireParams
  repeat' first
    | with_reducible assumption
    | with_reducible exact hg
    | intro _
    | with_reducible apply keep_decision (K.mono (by decide))
    | with_reducible apply keep_completeDesc (K.mono (by decide)) W
    | with_reducible apply keep_freeSlot (K.mono (by decide))
    | with_reducible apply keep_settleFences (K.mono (by decide)) W
    | with_reducible apply keep_foldS
    | split
    | (refine keep_with K hg ?_; intro g h; cases g <;> first | rfl | (cases h; done) | exact fun _ m => m | exact fun _ m => nomatch m)
    | dsimp only

theorem keep_closeWaves (K : Keeps 0x100 P) {s : State} (hg : P s) : P (closeWaves s) := by
  unfold closeWaves
  repeat' first
    | with_reducible assumption
    | with_reducible exact hg
    | intro _
    | with_reducible apply keep_mEmp (K.mono (by decide))
    | split
    | (refine keep_with K hg ?_; intro g h; cases g <;> first | rfl | (cases h; done) | exact fun _ m => m | exact fun _ m => nomatch m)
    | dsimp only

theorem keep_holdSessions (K : Keeps 0x2000 P) (step : W16) {s : State} (hg : P s) : P (holdSessions step s) := by
  unfold holdSessions
  repeat' first
    | with_reducible assumption
    | with_reducible exact hg
    | intro _
    | with_reducible apply keep_mSes (K.mono (by decide))
    | with_reducible apply keep_ite
    | split
    | (refine keep_with K hg ?_; intro g h; cases g <;> first | rfl | (cases h; done) | exact fun _ m => m | exact fun _ m => nomatch m)
    | dsimp only

theorem keep_quiesce (K : Keeps 0x26def54 P) (W : Stores P) {s : State} (hg : P s) : P (quiesce s) := by
  unfold quiesce
  repeat' first
    | with_reducible assumption
    | with_reducible exact hg
    | intro _
    | with_reducible apply keep_mOpt (K.mono (by decide))
    | with_reducible apply keep_holdSessions (K.mono (by decide))
    | with_reducible apply keep_retireParams (K.mono (by decide)) W
    | with_reducible apply keep_repeatRetire (K.mono (by decide)) W
    | with_reducible apply keep_closeWaves (K.mono (by decide))
    | with_reducible apply keep_ite
    | split
    | (refine keep_with K hg ?_; intro g h; cases g <;> first | rfl | (cases h; done) | exact fun _ m => m | exact fun _ m => nomatch m)

theorem keep_resetChannel (K : Keeps 0x200000 P) (c : Nat) {s : State} (hg : P s) : P (resetChannel c s) := by
  unfold resetChannel
  repeat' first
    | with_reducible assumption
    | with_reducible exact hg
    | intro _
    | with_reducible apply keep_mSyn (K.mono (by decide))
    | (refine keep_with K hg ?_; intro g h; cases g <;> first | rfl | (cases h; done) | exact fun _ m => m | exact fun _ m => nomatch m)

theorem keep_adoptCommon (K : Keeps 0x4280000 P) {s : State} (hg : P s) : P (adoptCommon s) := by
  unfold adoptCommon
  repeat' first
    | with_reducible assumption
    | with_reducible exact hg
    | intro _
    | with_reducible apply keep_mOpt (K.mono (by decide))
    | with_reducible apply keep_resetChannel (K.mono (by decide))
    | with_reducible apply keep_mFlt (K.mono (by decide))
    | (refine keep_with K hg ?_; intro g h; cases g <;> first | rfl | (cases h; done) | exact fun _ m => m | exact fun _ m => nomatch m)
    | dsimp only

theorem keep_adoptRewind (K : Keeps 0xc0000 P) {s : State} (hg : P s) : P (adoptRewind s) := by
  unfold adoptRewind
  repeat' first
    | with_reducible assumption
    | with_reducible exact hg
    | intro _
    | with_reducible apply keep_staleAll (K.mono (by decide))
    | with_reducible apply keep_mGas (K.mono (by decide))
    | with_reducible apply keep_mOpt (K.mono (by decide))
    | with_reducible apply keep_advanceB (K.mono (by decide))
    | (refine keep_with K hg ?_; intro g h; cases g <;> first | rfl | (cases h; done) | exact fun _ m => m | exact fun _ m => nomatch m)
    | dsimp only

theorem keep_adoptForward (K : Keeps 0xc0000 P) {s : State} (hg : P s) : P (adoptForward s) := by
  unfold adoptForward
  repeat' first
    | with_reducible assumption
    | with_reducible exact hg
    | intro _
    | with_reducible apply keep_mBkt (K.mono (by decide))
    | with_reducible apply keep_mOpt (K.mono (by decide))
    | with_reducible apply keep_advanceB (K.mono (by decide))
    | with_reducible apply keep_foldS
    | (refine keep_with K hg ?_; intro g h; cases g <;> first | rfl | (cases h; done) | exact fun _ m => m | exact fun _ m => nomatch m)
    | dsimp only

theorem keep_adopt (K : Keeps 0xe6def54 P) (W : Stores P) {s : State} (hg : P s) : P (adopt s) := by
  unfold adopt
  repeat' first
    | with_reducible assumption
    | with_reducible exact hg
    | intro _
    | with_reducible apply keep_startRec (K.mono (by decide)) W
    | with_reducible apply keep_quiesce (K.mono (by decide)) W
    | with_reducible apply keep_endRec (K.mono (by decide)) W
    | with_reducible apply keep_adoptCommon (K.mono (by decide))
    | with_reducible apply keep_adoptForward (K.mono (by decide))
    | with_reducible apply keep_adoptRewind (K.mono (by decide))
    | with_reducible apply keep_raiseStep (K.mono (by decide))
    | with_reducible apply keep_releaseHeld (K.mono (by decide)) W
    | with_reducible apply keep_enStart (K.mono (by decide))
    | with_reducible apply keep_ite
    | split
    | dsimp only

theorem keep_returnPacket (K : Keeps 0x2404300 P) (n i t : Nat) {s : State} (hg : P s) : P (returnPacket n i t s) := by
  unfold returnPacket
  repeat' first
    | with_reducible assumption
    | with_reducible exact hg
    | intro _
    | with_reducible apply keep_takeTag (K.mono (by decide))
    | with_reducible apply keep_decision (K.mono (by decide))
    | with_reducible apply keep_empRead (K.mono (by decide))
    | with_reducible apply keep_inject (K.mono (by decide))
    | dsimp only

theorem keep_returnCycle (K : Keeps 0xe404350 P) (W : Stores P) {s : State} (hg : P s) : P (returnCycle s) := by
  unfold returnCycle
  repeat' first
    | with_reducible assumption
    | with_reducible exact hg
    | intro _
    | with_reducible apply keep_endRec (K.mono (by decide)) W
    | with_reducible apply keep_mFlt (K.mono (by decide))
    | with_reducible apply keep_returnPacket (K.mono (by decide))
    | with_reducible apply keep_ite
    | split
    | (refine keep_with K hg ?_; intro g h; cases g <;> first | rfl | (cases h; done) | exact fun _ m => m | exact fun _ m => nomatch m)
    | dsimp only

theorem keep_returnGen (K : Keeps 0xe000150 P) (W : Stores P) {s : State} (hg : P s) : P (returnGen s) := by
  unfold returnGen
  repeat' first
    | with_reducible assumption
    | with_reducible exact hg
    | intro _
    | with_reducible apply keep_startRec (K.mono (by decide)) W
    | with_reducible apply keep_endRec (K.mono (by decide)) W
    | with_reducible apply keep_ite
    | split

theorem keep_restore (K : Keeps 0x66def54 P) (W : Stores P) {s : State} (hg : P s) : P (restore s) := by
  unfold restore
  repeat' first
    | with_reducible assumption
    | with_reducible exact hg
    | intro _
    | with_reducible apply keep_startRec (K.mono (by decide)) W
    | with_reducible apply keep_quiesce (K.mono (by decide)) W
    | with_reducible apply keep_mBkt (K.mono (by decide))
    | with_reducible apply keep_mFlt (K.mono (by decide))
    | with_reducible apply keep_foldS
    | split
    | (refine keep_with K hg ?_; intro g h; cases g <;> first | rfl | (cases h; done) | exact fun _ m => m | exact fun _ m => nomatch m)
    | dsimp only

theorem keep_resendAll (K : Keeps 0xe040150 P) (W : Stores P) {s : State} (hg : P s) : P (resendAll s) := by
  unfold resendAll
  repeat' first
    | with_reducible assumption
    | with_reducible exact hg
    | intro _
    | with_reducible apply keep_mBkt (K.mono (by decide))
    | with_reducible apply keep_countSent (K.mono (by decide)) W
    | with_reducible apply keep_mFlt (K.mono (by decide))
    | with_reducible apply keep_foldS
    | (refine keep_with K hg ?_; intro g h; cases g <;> first | rfl | (cases h; done) | exact fun _ m => m | exact fun _ m => nomatch m)
    | dsimp only

theorem keep_seed (K : Keeps 0xe040150 P) (W : Stores P) {s : State} (hg : P s) : P (seed s) := by
  unfold seed
  repeat' first
    | with_reducible assumption
    | with_reducible exact hg
    | intro _
    | with_reducible apply keep_startRec (K.mono (by decide)) W
    | with_reducible apply keep_resendAll (K.mono (by decide)) W
    | with_reducible apply keep_endRec (K.mono (by decide)) W
    | with_reducible apply keep_ite
    | split

theorem keep_setGen (K : Keeps 0xe080150 P) (W : Stores P) {s : State} (hg : P s) : P (setGen s) := by
  unfold setGen
  repeat' first
    | with_reducible assumption
    | with_reducible exact hg
    | intro _
    | with_reducible apply keep_startRec (K.mono (by decide)) W
    | with_reducible apply keep_endRec (K.mono (by decide)) W
    | with_reducible apply keep_mOpt (K.mono (by decide))
    | with_reducible apply keep_ite
    | split
    | (refine keep_with K hg ?_; intro g h; cases g <;> first | rfl | (cases h; done) | exact fun _ m => m | exact fun _ m => nomatch m)

theorem keep_lost (K : Keeps 0xe080150 P) (W : Stores P) {s : State} (hg : P s) : P (lost s) := by
  unfold lost
  repeat' first
    | with_reducible assumption
    | with_reducible exact hg
    | intro _
    | with_reducible apply keep_startRec (K.mono (by decide)) W
    | with_reducible apply keep_endRec (K.mono (by decide)) W
    | with_reducible apply keep_reportLost (K.mono (by decide)) W

theorem keep_remirror (K : Keeps 0xe040150 P) (W : Stores P) {s : State} (hg : P s) : P (remirror s) := by
  unfold remirror
  repeat' first
    | with_reducible assumption
    | with_reducible exact hg
    | intro _
    | with_reducible apply keep_startRec (K.mono (by decide)) W
    | with_reducible apply keep_resendAll (K.mono (by decide)) W
    | with_reducible apply keep_endRec (K.mono (by decide)) W
    | with_reducible apply keep_pageErr (K.mono (by decide)) W
    | with_reducible apply keep_ite
    | split

end Sys2Proof.Laws
end

