-- ==== Sys2Proof/Laws/FrameMemport.lean ====
section
/-! SUPPORT. Laws/FrameMemport.lean: the operations of Machine/Memport.lean change no more than they may. -/

namespace Sys2Proof.Laws

open Sys2Proof.Machine

variable {P : State → Prop} {s : State}

theorem keep_dropWaiting (K : Keeps 0x404000 P) (tag : Nat) {s : State} (hg : P s) : P (dropWaiting tag s) := by
  unfold dropWaiting
  repeat' first
    | with_reducible assumption
    | with_reducible exact hg
    | intro _
    | with_reducible apply keep_mRtr (K.mono (by decide))
    | with_reducible apply keep_meetTag (K.mono (by decide))
    | with_reducible apply keep_foldS
    | split
    | (refine keep_with K hg ?_; intro g h; cases g <;> first | rfl | (cases h; done) | exact fun _ m => m | exact fun _ m => nomatch m)
    | dsimp only

theorem keep_forgetWave (K : Keeps 0x40100 P) (b start : Nat) {s : State} (hg : P s) : P (forgetWave b start s) := by
  unfold forgetWave
  repeat' first
    | with_reducible assumption
    | with_reducible exact hg
    | intro _
    | with_reducible apply keep_mBkt (K.mono (by decide))
    | with_reducible apply keep_mEmp (K.mono (by decide))
    | with_reducible apply keep_ite
    | split
    | (refine keep_with K hg ?_; intro g h; cases g <;> first | rfl | (cases h; done) | exact fun _ m => m | exact fun _ m => nomatch m)
    | dsimp only

theorem keep_gasPoison (K : Keeps 0xe080150 P) (W : Stores P) (b : Nat) (injected : Bool) {s : State} (hg : P s) : P (gasPoison b injected s) := by
  unfold gasPoison
  repeat' first
    | with_reducible assumption
    | with_reducible exact hg
    | intro _
    | with_reducible apply keep_raiseFault (K.mono (by decide)) W
    | with_reducible apply keep_haltStep (K.mono (by decide))
    | with_reducible apply keep_mFlt (K.mono (by decide))
    | (refine keep_with K hg ?_; intro g h; cases g <;> first | rfl | (cases h; done) | exact fun _ m => m | exact fun _ m => nomatch m)

theorem keep_poisonedRead (K : Keeps 0xe7def54 P) (W : Stores P) (r : RReq) (injected : Bool) {s : State} (hg : P s) : P (poisonedRead r injected s) := by
  unfold poisonedRead
  repeat' first
    | with_reducible assumption
    | with_reducible exact hg
    | intro _
    | with_reducible apply keep_gasPoison (K.mono (by decide)) W
    | with_reducible apply keep_putBack (K.mono (by decide)) W
    | with_reducible apply keep_setSpan (K.mono (by decide))
    | with_reducible apply keep_haltWith (K.mono (by decide)) W
    | with_reducible apply keep_forgetWave (K.mono (by decide))
    | with_reducible apply keep_dropMirror (K.mono (by decide))
    | with_reducible apply keep_endRec (K.mono (by decide)) W
    | with_reducible apply keep_mirrorMissing (K.mono (by decide)) W
    | with_reducible apply keep_restore (K.mono (by decide)) W
    | with_reducible apply keep_failRestore (K.mono (by decide)) W
    | with_reducible apply keep_failSession (K.mono (by decide)) W
    | with_reducible apply keep_dropWaiting (K.mono (by decide))
    | with_reducible apply keep_rejectHead (K.mono (by decide)) W
    | with_reducible apply keep_ite
    | split
    | (refine keep_with K hg ?_; intro g h; cases g <;> first | rfl | (cases h; done) | exact fun _ m => m | exact fun _ m => nomatch m)
    | dsimp only

theorem keep_completeOperands (K : Keeps 0xc100 P) (W : Stores P) (tag : Nat) {s : State} (hg : P s) : P (completeOperands tag s) := by
  unfold completeOperands
  repeat' first
    | with_reducible assumption
    | with_reducible exact hg
    | intro _
    | with_reducible apply keep_mOperand (K.mono (by decide))
    | with_reducible apply keep_meetTag (K.mono (by decide))
    | with_reducible apply keep_stageOperand (K.mono (by decide)) W
    | with_reducible apply keep_foldS
    | with_reducible apply keep_ite
    | split
    | (refine keep_with K hg ?_; intro g h; cases g <;> first | rfl | (cases h; done) | exact fun _ m => m | exact fun _ m => nomatch m)
    | dsimp only

theorem keep_cleanRead (K : Keeps 0xe7def54 P) (W : Stores P) (r : RReq) {s : State} (hg : P s) : P (cleanRead r s) := by
  unfold cleanRead
  repeat' first
    | with_reducible assumption
    | with_reducible exact hg
    | intro _
    | with_reducible apply keep_tryComplete (K.mono (by decide)) W
    | with_reducible apply keep_settleLocals (K.mono (by decide)) W
    | with_reducible apply keep_mRing (K.mono (by decide))
    | with_reducible apply keep_restore (K.mono (by decide)) W
    | with_reducible apply keep_tryEndRestore (K.mono (by decide)) W
    | with_reducible apply keep_ite
    | split
    | (refine keep_with K hg ?_; intro g h; cases g <;> first | rfl | (cases h; done) | exact fun _ m => m | exact fun _ m => nomatch m)
    | dsimp only

theorem keep_dropRead (K : Keeps 0x100 P) (q : RReq) (p : RPurpose) {s : State} (hg : P s) : P (dropRead q p s) := by
  unfold dropRead
  repeat' first
    | with_reducible assumption
    | with_reducible exact hg
    | intro _
    | with_reducible apply keep_mEmp (K.mono (by decide))
    | with_reducible apply keep_ite
    | split
    | (refine keep_with K hg ?_; intro g h; cases g <;> first | rfl | (cases h; done) | exact fun _ m => m | exact fun _ m => nomatch m)

theorem keep_rdataReturn (K : Keeps 0xe7def54 P) (W : Stores P) (k : BitVec 10 × EmpReq) (poison : Byte) (ecc : Ecc) {s0 : State} (hg : P s0) : P (rdataReturn k poison ecc s0) := by
  unfold rdataReturn
  repeat' first
    | with_reducible assumption
    | with_reducible exact hg
    | intro _
    | with_reducible apply keep_mEmp (K.mono (by decide))
    | with_reducible apply keep_eccSingle (K.mono (by decide)) W
    | with_reducible apply keep_logDouble (K.mono (by decide))
    | with_reducible apply keep_fireInject (K.mono (by decide))
    | with_reducible apply keep_poisonedRead (K.mono (by decide)) W
    | with_reducible apply keep_dropRead (K.mono (by decide))
    | with_reducible apply keep_cleanRead (K.mono (by decide)) W
    | with_reducible apply keep_completeOperands (K.mono (by decide)) W
    | with_reducible apply keep_ite
    | split
    | (refine keep_with K hg ?_; intro g h; cases g <;> first | rfl | (cases h; done) | exact fun _ m => m | exact fun _ m => nomatch m)
    | dsimp only

theorem keep_waveAck (K : Keeps 0x40c0000 P) (b upTo : Nat) {s : State} (hg : P s) : P (waveAck b upTo s) := by
  unfold waveAck
  repeat' first
    | with_reducible assumption
    | with_reducible exact hg
    | intro _
    | with_reducible apply keep_mFlt (K.mono (by decide))
    | with_reducible apply keep_mBkt (K.mono (by decide))
    | with_reducible apply keep_advanceUpdate (K.mono (by decide))
    | with_reducible apply keep_foldl
    | with_reducible apply keep_ite
    | split
    | (refine keep_with K hg ?_; intro g h; cases g <;> first | rfl | (cases h; done) | exact fun _ m => m | exact fun _ m => nomatch m)
    | dsimp only

theorem keep_landBytes (K : Keeps 0x2202954 P) (W : Stores P) (slot bytes : Nat) {s : State} (hg : P s) : P (landBytes slot bytes s) := by
  unfold landBytes
  repeat' first
    | with_reducible assumption
    | with_reducible exact hg
    | intro _
    | with_reducible apply keep_landFences (K.mono (by decide)) W
    | with_reducible apply keep_progress (K.mono (by decide))
    | with_reducible apply keep_mSlot (K.mono (by decide))
    | split
    | (refine keep_with K hg ?_; intro g h; cases g <;> first | rfl | (cases h; done) | exact fun _ m => m | exact fun _ m => nomatch m)

theorem keep_rowAck (K : Keeps 0x2000 P) (slot block : Nat) {s : State} (hg : P s) : P (rowAck slot block s) := by
  unfold rowAck
  repeat' first
    | with_reducible assumption
    | with_reducible exact hg
    | intro _
    | with_reducible apply keep_mBlock (K.mono (by decide))
    | with_reducible apply keep_ite
    | split
    | (refine keep_with K hg ?_; intro g h; cases g <;> first | rfl | (cases h; done) | exact fun _ m => m | exact fun _ m => nomatch m)
    | dsimp only

theorem keep_wackFor (K : Keeps 0xe7def54 P) (W : Stores P) (p : WPurpose) {s : State} (hg : P s) : P (wackFor p s) := by
  unfold wackFor
  repeat' first
    | with_reducible assumption
    | with_reducible exact hg
    | intro _
    | with_reducible apply keep_tryComplete (K.mono (by decide)) W
    | with_reducible apply keep_meetTag (K.mono (by decide))
    | with_reducible apply keep_landBytes (K.mono (by decide)) W
    | with_reducible apply keep_rowAck (K.mono (by decide))
    | with_reducible apply keep_raiseVec (K.mono (by decide))
    | with_reducible apply keep_waveAck (K.mono (by decide))
    | with_reducible apply keep_sendBand (K.mono (by decide))
    | with_reducible apply keep_mirrorAck (K.mono (by decide)) W
    | with_reducible apply keep_restore (K.mono (by decide)) W
    | with_reducible apply keep_tryEndRestore (K.mono (by decide)) W
    | with_reducible apply keep_ite
    | split
    | (refine keep_with K hg ?_; intro g h; cases g <;> first | rfl | (cases h; done) | exact fun _ m => m | exact fun _ m => nomatch m)
    | dsimp only

theorem keep_wackReturn (K : Keeps 0xe7def54 P) (W : Stores P) (k : BitVec 10 × EmpReq) {s0 : State} (hg : P s0) : P (wackReturn k s0) := by
  unfold wackReturn
  repeat' first
    | with_reducible assumption
    | with_reducible exact hg
    | intro _
    | with_reducible apply keep_mEmp (K.mono (by decide))
    | with_reducible apply keep_wackFor (K.mono (by decide)) W
    | with_reducible apply keep_ite
    | split
    | (refine keep_with K hg ?_; intro g h; cases g <;> first | rfl | (cases h; done) | exact fun _ m => m | exact fun _ m => nomatch m)
    | dsimp only

theorem keep_schedModeLost (K : Keeps 0x2000350 P) (W : Stores P) (c : SchedCause) {s : State} (hg : P s) : P (schedModeLost c s) := by
  unfold schedModeLost
  repeat' first
    | with_reducible assumption
    | with_reducible exact hg
    | intro _
    | with_reducible apply keep_raiseError (K.mono (by decide)) W
    | with_reducible apply keep_mCtl (K.mono (by decide))
    | with_reducible apply keep_mEmp (K.mono (by decide))
    | with_reducible apply keep_ite
    | split
    | (refine keep_with K hg ?_; intro g h; cases g <;> first | rfl | (cases h; done) | exact fun _ m => m | exact fun _ m => nomatch m)
    | dsimp only

theorem keep_schedRise (K : Keeps 0x100 P) {s : State} (hg : P s) : P (schedRise s) := by
  unfold schedRise
  repeat' first
    | with_reducible assumption
    | with_reducible exact hg
    | intro _
    | with_reducible apply keep_mEmp (K.mono (by decide))
    | (refine keep_with K hg ?_; intro g h; cases g <;> first | rfl | (cases h; done) | exact fun _ m => m | exact fun _ m => nomatch m)

theorem keep_empTimingWrite (K : Keeps 0x67def54 P) (W : Stores P) (v : W32) {s : State} (hg : P s) : P (empTimingWrite v s) := by
  unfold empTimingWrite
  repeat' first
    | with_reducible assumption
    | with_reducible exact hg
    | intro _
    | with_reducible apply keep_refuse (K.mono (by decide)) W
    | with_reducible apply keep_pageErr (K.mono (by decide)) W
    | with_reducible apply keep_mCtl (K.mono (by decide))
    | with_reducible apply keep_ite
    | split
    | (refine keep_with K hg ?_; intro g h; cases g <;> first | rfl | (cases h; done) | exact fun _ m => m | exact fun _ m => nomatch m)
    | dsimp only

theorem keep_msixRequest (K : Keeps 0x40 P) (v : BitVec 9) {s : State} (hg : P s) : P (msixRequest v s) := by
  unfold msixRequest
  repeat' first
    | with_reducible assumption
    | with_reducible exact hg
    | intro _
    | with_reducible apply keep_ite
    | split
    | (refine keep_with K hg ?_; intro g h; cases g <;> first | rfl | (cases h; done) | exact fun _ m => m | exact fun _ m => nomatch m)

end Sys2Proof.Laws
end

