-- ==== Sys2Proof/Laws/FrameCsq.lean ====
section
/-! SUPPORT. Laws/FrameCsq.lean: the operations of Machine/Csq.lean change no more than they may. -/

namespace Sys2Proof.Laws

open Sys2Proof.Machine

variable {P : State → Prop} {s : State}

theorem keep_csqWdogKick (K : Keeps 0x200 P) {s : State} (hg : P s) : P (csqWdogKick s) := by
  unfold csqWdogKick
  repeat' first
    | with_reducible assumption
    | with_reducible exact hg
    | intro _
    | with_reducible apply keep_mCtl (K.mono (by decide))
    | (refine keep_with K hg ?_; intro g h; cases g <;> first | rfl | (cases h; done) | exact fun _ m => m | exact fun _ m => nomatch m)

theorem keep_csqExpire (K : Keeps 0x2000350 P) (W : Stores P) (cause : Nat) {s : State} (hg : P s) : P (csqExpire cause s) := by
  unfold csqExpire
  repeat' first
    | with_reducible assumption
    | with_reducible exact hg
    | intro _
    | with_reducible apply keep_mCtl (K.mono (by decide))
    | with_reducible apply keep_raiseError (K.mono (by decide)) W
    | with_reducible apply keep_bump (K.mono (by decide))
    | with_reducible apply keep_ite
    | split
    | (refine keep_with K hg ?_; intro g h; cases g <;> first | rfl | (cases h; done) | exact fun _ m => m | exact fun _ m => nomatch m)
    | dsimp only

theorem keep_csqWatchdog (K : Keeps 0x2000350 P) (W : Stores P) {s : State} (hg : P s) : P (csqWatchdog s) := by
  unfold csqWatchdog
  repeat' first
    | with_reducible assumption
    | with_reducible exact hg
    | intro _
    | with_reducible apply keep_csqExpire (K.mono (by decide)) W
    | with_reducible apply keep_ite
    | split

theorem keep_sequencerResume (K : Keeps 0x200 P) {s : State} (hg : P s) : P (sequencerResume s) := by
  unfold sequencerResume
  repeat' first
    | with_reducible assumption
    | with_reducible exact hg
    | intro _
    | with_reducible apply keep_mCtl (K.mono (by decide))
    | with_reducible apply keep_ite
    | split
    | (refine keep_with K hg ?_; intro g h; cases g <;> first | rfl | (cases h; done) | exact fun _ m => m | exact fun _ m => nomatch m)

theorem keep_ucodeDataWrite (K : Keeps 0x2000350 P) (W : Stores P) (v : W32) {s : State} (hg : P s) : P (ucodeDataWrite v s) := by
  unfold ucodeDataWrite
  repeat' first
    | with_reducible assumption
    | with_reducible exact hg
    | intro _
    | with_reducible apply keep_pageErr (K.mono (by decide)) W
    | with_reducible apply keep_mCtl (K.mono (by decide))
    | with_reducible apply keep_ite
    | split
    | (refine keep_with K hg ?_; intro g h; cases g <;> first | rfl | (cases h; done) | exact fun _ m => m | exact fun _ m => nomatch m)

theorem keep_csqCtlWrite (K : Keeps 0x2000350 P) (W : Stores P) (v : W32) {s : State} (hg : P s) : P (csqCtlWrite v s) := by
  unfold csqCtlWrite
  repeat' first
    | with_reducible assumption
    | with_reducible exact hg
    | intro _
    | with_reducible apply keep_mCtl (K.mono (by decide))
    | with_reducible apply keep_pageErr (K.mono (by decide)) W
    | with_reducible apply keep_ite
    | split
    | (refine keep_with K hg ?_; intro g h; cases g <;> first | rfl | (cases h; done) | exact fun _ m => m | exact fun _ m => nomatch m)
    | dsimp only

theorem keep_csqStart (K : Keeps 0x2000350 P) (W : Stores P) (v : W32) {s : State} (hg : P s) : P (csqStart v s) := by
  unfold csqStart
  repeat' first
    | with_reducible assumption
    | with_reducible exact hg
    | intro _
    | with_reducible apply keep_csqCtlWrite (K.mono (by decide)) W

theorem keep_microcodeCheckDone (K : Keeps 0xe000350 P) (W : Stores P) {s : State} (hg : P s) : P (microcodeCheckDone s) := by
  unfold microcodeCheckDone
  repeat' first
    | with_reducible assumption
    | with_reducible exact hg
    | intro _
    | with_reducible apply keep_mCtl (K.mono (by decide))
    | with_reducible apply keep_sendMbx (K.mono (by decide))
    | with_reducible apply keep_pageErr (K.mono (by decide)) W
    | with_reducible apply keep_ite
    | split
    | (refine keep_with K hg ?_; intro g h; cases g <;> first | rfl | (cases h; done) | exact fun _ m => m | exact fun _ m => nomatch m)
    | dsimp only

theorem keep_mbxInDoorbell (K : Keeps 0x8000000 P) (v : W32) {s : State} (hg : P s) : P (mbxInDoorbell v s) := by
  unfold mbxInDoorbell
  repeat' first
    | with_reducible assumption
    | with_reducible exact hg
    | intro _
    | with_reducible apply keep_mPwr (K.mono (by decide))
    | with_reducible apply keep_ite
    | split
    | (refine keep_with K hg ?_; intro g h; cases g <;> first | rfl | (cases h; done) | exact fun _ m => m | exact fun _ m => nomatch m)

theorem keep_takeMessage (K : Keeps 0xc000050 P) {s : State} (hg : P s) : P (takeMessage s) := by
  unfold takeMessage
  repeat' first
    | with_reducible assumption
    | with_reducible exact hg
    | intro _
    | with_reducible apply keep_mPwr (K.mono (by decide))
    | with_reducible apply keep_sendMbx (K.mono (by decide))
    | with_reducible apply keep_bump (K.mono (by decide))
    | with_reducible apply keep_ite
    | split
    | (refine keep_with K hg ?_; intro g h; cases g <;> first | rfl | (cases h; done) | exact fun _ m => m | exact fun _ m => nomatch m)
    | dsimp only

theorem keep_writeHeld (K : Keeps 0x8000000 P) {s : State} (hg : P s) : P (writeHeld s) := by
  unfold writeHeld
  repeat' first
    | with_reducible assumption
    | with_reducible exact hg
    | intro _
    | with_reducible apply keep_writeMbx (K.mono (by decide))
    | with_reducible apply keep_mPwr (K.mono (by decide))
    | with_reducible apply keep_ite
    | split
    | (refine keep_with K hg ?_; intro g h; cases g <;> first | rfl | (cases h; done) | exact fun _ m => m | exact fun _ m => nomatch m)
    | dsimp only

theorem keep_mbxOutDbClear (K : Keeps 0x8000000 P) (v : W32) {s : State} (hg : P s) : P (mbxOutDbClear v s) := by
  unfold mbxOutDbClear
  repeat' first
    | with_reducible assumption
    | with_reducible exact hg
    | intro _
    | with_reducible apply keep_mPwr (K.mono (by decide))
    | with_reducible apply keep_ite
    | split
    | (refine keep_with K hg ?_; intro g h; cases g <;> first | rfl | (cases h; done) | exact fun _ m => m | exact fun _ m => nomatch m)

end Sys2Proof.Laws
end

