-- ==== Sys2Proof/Laws/FramePorts.lean ====
section
/-! SUPPORT. Laws/FramePorts.lean: the operations of Machine/Ports.lean change no more than they may. -/

namespace Sys2Proof.Laws

open Sys2Proof.Machine

variable {P : State → Prop} {s : State}

theorem keep_setPortState (K : Keeps 0x800000 P) (p : Nat) (st : BitVec 3) {s : State} (hg : P s) : P (setPortState p st s) := by
  unfold setPortState
  repeat' first
    | with_reducible assumption
    | with_reducible exact hg
    | intro _
    | with_reducible apply keep_mPort (K.mono (by decide))
    | (refine keep_with K hg ?_; intro g h; cases g <;> first | rfl | (cases h; done) | exact fun _ m => m | exact fun _ m => nomatch m)

theorem keep_enterKeys (K : Keeps 0x800000 P) (p : Nat) {s : State} (hg : P s) : P (enterKeys p s) := by
  unfold enterKeys
  repeat' first
    | with_reducible assumption
    | with_reducible exact hg
    | intro _
    | with_reducible apply keep_mPort (K.mono (by decide))
    | with_reducible apply keep_ite
    | split
    | (refine keep_with K hg ?_; intro g h; cases g <;> first | rfl | (cases h; done) | exact fun _ m => m | exact fun _ m => nomatch m)

theorem keep_attestDone (K : Keeps 0x800000 P) (p : Nat) {s : State} (hg : P s) : P (attestDone p s) := by
  unfold attestDone
  repeat' first
    | with_reducible assumption
    | with_reducible exact hg
    | intro _
    | with_reducible apply keep_enterKeys (K.mono (by decide))
    | with_reducible apply keep_ite
    | split
    | dsimp only

theorem keep_attestFail (K : Keeps 0xfe84550 P) (W : Stores P) (p : Nat) {s : State} (hg : P s) : P (attestFail p s) := by
  unfold attestFail
  repeat' first
    | with_reducible assumption
    | with_reducible exact hg
    | intro _
    | with_reducible apply keep_failPort (K.mono (by decide)) W
    | with_reducible apply keep_raiseSecurity (K.mono (by decide)) W
    | with_reducible apply keep_bump (K.mono (by decide))
    | with_reducible apply keep_mPort (K.mono (by decide))
    | (refine keep_with K hg ?_; intro g h; cases g <;> first | rfl | (cases h; done) | exact fun _ m => m | exact fun _ m => nomatch m)
    | dsimp only

theorem keep_mapCheck (K : Keeps 0xfe84550 P) (W : Stores P) (p : Nat) {s : State} (hg : P s) : P (mapCheck p s) := by
  unfold mapCheck
  repeat' first
    | with_reducible assumption
    | with_reducible exact hg
    | intro _
    | with_reducible apply keep_mPort (K.mono (by decide))
    | with_reducible apply keep_failPort (K.mono (by decide)) W
    | with_reducible apply keep_ite
    | split
    | (refine keep_with K hg ?_; intro g h; cases g <;> first | rfl | (cases h; done) | exact fun _ m => m | exact fun _ m => nomatch m)
    | dsimp only

theorem keep_exchangeDone (K : Keeps 0xfe84550 P) (W : Stores P) (p : Nat) {s : State} (hg : P s) : P (exchangeDone p s) := by
  unfold exchangeDone
  repeat' first
    | with_reducible assumption
    | with_reducible exact hg
    | intro _
    | with_reducible apply keep_mapCheck (K.mono (by decide)) W
    | with_reducible apply keep_ite
    | split
    | dsimp only

theorem keep_phyLock (K : Keeps 0x800000 P) (p : Nat) {s : State} (hg : P s) : P (phyLock p s) := by
  unfold phyLock
  repeat' first
    | with_reducible assumption
    | with_reducible exact hg
    | intro _
    | with_reducible apply keep_mPort (K.mono (by decide))
    | with_reducible apply keep_setPortState (K.mono (by decide))
    | with_reducible apply keep_ite
    | split
    | (refine keep_with K hg ?_; intro g h; cases g <;> first | rfl | (cases h; done) | exact fun _ m => m | exact fun _ m => nomatch m)
    | dsimp only

theorem keep_linkLost (K : Keeps 0xfe84550 P) (W : Stores P) (p : Nat) (lock : Bool) (lanes : W16) {s : State} (hg : P s) : P (linkLost p lock lanes s) := by
  unfold linkLost
  repeat' first
    | with_reducible assumption
    | with_reducible exact hg
    | intro _
    | with_reducible apply keep_mPort (K.mono (by decide))
    | with_reducible apply keep_linkDown (K.mono (by decide)) W
    | with_reducible apply keep_ite
    | split
    | (refine keep_with K hg ?_; intro g h; cases g <;> first | rfl | (cases h; done) | exact fun _ m => m | exact fun _ m => nomatch m)
    | dsimp only

theorem keep_trainingFlitSend (K : Keeps 0xfe84550 P) (W : Stores P) (p : Nat) {s : State} (hg : P s) : P (trainingFlitSend p s) := by
  unfold trainingFlitSend
  repeat' first
    | with_reducible assumption
    | with_reducible exact hg
    | intro _
    | with_reducible apply keep_exchangeDone (K.mono (by decide)) W
    | with_reducible apply keep_mPort (K.mono (by decide))
    | with_reducible apply keep_ite
    | split
    | (refine keep_with K hg ?_; intro g h; cases g <;> first | rfl | (cases h; done) | exact fun _ m => m | exact fun _ m => nomatch m)
    | dsimp only

theorem keep_trainingFlit (K : Keeps 0xfe84550 P) (W : Stores P) (p : Nat) (flit : BitVec 1024) (fec : Nat) {s0 : State} (hg : P s0) : P (trainingFlit p flit fec s0) := by
  unfold trainingFlit
  repeat' first
    | with_reducible assumption
    | with_reducible exact hg
    | intro _
    | with_reducible apply keep_meetFlit (K.mono (by decide))
    | with_reducible apply keep_exchangeDone (K.mono (by decide)) W
    | with_reducible apply keep_mPort (K.mono (by decide))
    | with_reducible apply keep_ite
    | split
    | (refine keep_with K hg ?_; intro g h; cases g <;> first | rfl | (cases h; done) | exact fun _ m => m | exact fun _ m => nomatch m)
    | dsimp only

theorem keep_trainingTimeout (K : Keeps 0xfe84550 P) (W : Stores P) (p : Nat) {s : State} (hg : P s) : P (trainingTimeout p s) := by
  unfold trainingTimeout
  repeat' first
    | with_reducible assumption
    | with_reducible exact hg
    | intro _
    | with_reducible apply keep_trainTimeout (K.mono (by decide)) W
    | with_reducible apply keep_ite
    | split
    | dsimp only

theorem keep_phyPresentChange (K : Keeps 0xfe84550 P) (W : Stores P) (p : Nat) (present : Bool) {s : State} (hg : P s) : P (phyPresentChange p present s) := by
  unfold phyPresentChange
  repeat' first
    | with_reducible assumption
    | with_reducible exact hg
    | intro _
    | with_reducible apply keep_mPort (K.mono (by decide))
    | with_reducible apply keep_toPhyWait (K.mono (by decide))
    | with_reducible apply keep_linkDown (K.mono (by decide)) W
    | with_reducible apply keep_toDown (K.mono (by decide))
    | with_reducible apply keep_lost (K.mono (by decide)) W
    | with_reducible apply keep_freeKeys (K.mono (by decide))
    | with_reducible apply keep_ite
    | split
    | (refine keep_with K hg ?_; intro g h; cases g <;> first | rfl | (cases h; done) | exact fun _ m => m | exact fun _ m => nomatch m)
    | dsimp only

theorem keep_portRetrain (K : Keeps 0xfe84550 P) (W : Stores P) (p : Nat) (v : W32) {s : State} (hg : P s) : P (portRetrain p v s) := by
  unfold portRetrain
  repeat' first
    | with_reducible assumption
    | with_reducible exact hg
    | intro _
    | with_reducible apply keep_linkDown (K.mono (by decide)) W
    | with_reducible apply keep_mPort (K.mono (by decide))
    | with_reducible apply keep_ite
    | split
    | (refine keep_with K hg ?_; intro g h; cases g <;> first | rfl | (cases h; done) | exact fun _ m => m | exact fun _ m => nomatch m)

theorem keep_portMapWrite (K : Keeps 0xfe84550 P) (W : Stores P) (p : Nat) (v : W32) {s : State} (hg : P s) : P (portMapWrite p v s) := by
  unfold portMapWrite
  repeat' first
    | with_reducible assumption
    | with_reducible exact hg
    | intro _
    | with_reducible apply keep_pageErr (K.mono (by decide)) W
    | with_reducible apply keep_mRtr (K.mono (by decide))
    | with_reducible apply keep_linkDown (K.mono (by decide)) W
    | with_reducible apply keep_toDown (K.mono (by decide))
    | with_reducible apply keep_mPort (K.mono (by decide))
    | with_reducible apply keep_ite
    | split
    | (refine keep_with K hg ?_; intro g h; cases g <;> first | rfl | (cases h; done) | exact fun _ m => m | exact fun _ m => nomatch m)
    | dsimp only

theorem keep_attMessage (K : Keeps 0xfe84550 P) (W : Stores P) (p msg : Nat) (bytes : List Byte) {s : State} (hg : P s) : P (attMessage p msg bytes s) := by
  unfold attMessage
  repeat' first
    | with_reducible assumption
    | with_reducible exact hg
    | intro _
    | with_reducible apply keep_attestFail (K.mono (by decide)) W
    | with_reducible apply keep_mPort (K.mono (by decide))
    | with_reducible apply keep_attestDone (K.mono (by decide))
    | with_reducible apply keep_ite
    | split
    | (refine keep_with K hg ?_; intro g h; cases g <;> first | rfl | (cases h; done) | exact fun _ m => m | exact fun _ m => nomatch m)
    | dsimp only

theorem keep_attPass (K : Keeps 0xfe84550 P) (W : Stores P) (p msg : Nat) (bytes : List Byte) {s : State} (hg : P s) : P (attPass p msg bytes s) := by
  unfold attPass
  repeat' first
    | with_reducible assumption
    | with_reducible exact hg
    | intro _
    | with_reducible refine keep_mLsuQ (K.mono (by decide)) (fun _ _ m => by first | exact m | (simp at m; done) | (simp at m; exact m.1)) ?_
    | with_reducible apply keep_mPort (K.mono (by decide))
    | with_reducible apply keep_attestDone (K.mono (by decide))
    | with_reducible apply keep_attestFail (K.mono (by decide)) W
    | with_reducible apply keep_ite
    | split
    | (refine keep_with K hg ?_; intro g h; cases g <;> first | rfl | (cases h; done) | exact fun _ m => m | exact fun _ m => nomatch m)
    | dsimp only

theorem keep_attestationFlit (K : Keeps 0xfe84550 P) (W : Stores P) (p : Nat) (flit : BitVec 1024) (fec : Nat) {s0 : State} (hg : P s0) : P (attestationFlit p flit fec s0) := by
  unfold attestationFlit
  repeat' first
    | with_reducible assumption
    | with_reducible exact hg
    | intro _
    | with_reducible apply keep_meetFlit (K.mono (by decide))
    | with_reducible apply keep_attestFail (K.mono (by decide)) W
    | with_reducible apply keep_attPass (K.mono (by decide)) W
    | with_reducible apply keep_mPort (K.mono (by decide))
    | with_reducible apply keep_ite
    | split
    | (refine keep_with K hg ?_; intro g h; cases g <;> first | rfl | (cases h; done) | exact fun _ m => m | exact fun _ m => nomatch m)
    | dsimp only

theorem keep_attestTimeout (K : Keeps 0xfe84550 P) (W : Stores P) (p : Nat) {s : State} (hg : P s) : P (attestTimeout p s) := by
  unfold attestTimeout
  repeat' first
    | with_reducible assumption
    | with_reducible exact hg
    | intro _
    | with_reducible apply keep_trainTimeout (K.mono (by decide)) W
    | with_reducible apply keep_ite
    | split

theorem keep_setKeyReq (K : Keeps 0x800000 P) (p : Nat) (rx : Bool) (t : Option Nat) {s : State} (hg : P s) : P (setKeyReq p rx t s) := by
  unfold setKeyReq
  repeat' first
    | with_reducible assumption
    | with_reducible exact hg
    | intro _
    | with_reducible apply keep_mPort (K.mono (by decide))
    | with_reducible apply keep_ite
    | split
    | (refine keep_with K hg ?_; intro g h; cases g <;> first | rfl | (cases h; done) | exact fun _ m => m | exact fun _ m => nomatch m)

theorem keep_keyReq (K : Keeps 0x800000 P) (p : Nat) (rx : Bool) {s : State} (hg : P s) : P (keyReq p rx s) := by
  unfold keyReq
  repeat' first
    | with_reducible assumption
    | with_reducible exact hg
    | intro _
    | with_reducible apply keep_setKeyReq (K.mono (by decide))
    | with_reducible apply keep_ite
    | split

theorem keep_takeKey (K : Keeps 0x41c04000 P) (slot : Nat) (key : BitVec 256) (fixed : W32) {s : State} (hg : P s) : P (takeKey slot key fixed s) := by
  unfold takeKey
  repeat' first
    | with_reducible assumption
    | with_reducible exact hg
    | intro _
    | with_reducible apply keep_mLsu (K.mono (by decide))
    | with_reducible apply keep_setKeyReq (K.mono (by decide))
    | with_reducible apply keep_mPort (K.mono (by decide))
    | with_reducible apply keep_pump (K.mono (by decide))
    | with_reducible apply keep_ite
    | split
    | (refine keep_with K hg ?_; intro g h; cases g <;> first | rfl | (cases h; done) | exact fun _ m => m | exact fun _ m => nomatch m)
    | dsimp only

theorem keep_keyLoad (K : Keeps 0x41c04000 P) (slot : Nat) (key : BitVec 256) (fixed : W32) {s : State} (hg : P s) : P (keyLoad slot key fixed s) := by
  unfold keyLoad
  repeat' first
    | with_reducible assumption
    | with_reducible exact hg
    | intro _
    | with_reducible apply keep_takeKey (K.mono (by decide))
    | with_reducible apply keep_ite
    | split

theorem keep_keyTimeout (K : Keeps 0xfe84550 P) (W : Stores P) (p : Nat) (rx : Bool) {s : State} (hg : P s) : P (keyTimeout p rx s) := by
  unfold keyTimeout
  repeat' first
    | with_reducible assumption
    | with_reducible exact hg
    | intro _
    | with_reducible apply keep_raiseSecurity (K.mono (by decide)) W
    | with_reducible apply keep_trainTimeout (K.mono (by decide)) W
    | with_reducible apply keep_mPort (K.mono (by decide))
    | with_reducible apply keep_keyMissing (K.mono (by decide)) W
    | with_reducible apply keep_ite
    | split
    | (refine keep_with K hg ?_; intro g h; cases g <;> first | rfl | (cases h; done) | exact fun _ m => m | exact fun _ m => nomatch m)
    | dsimp only

theorem keep_zeroise (K : Keeps 0xfe84550 P) (W : Stores P) {s : State} (hg : P s) : P (zeroise s) := by
  unfold zeroise
  repeat' first
    | with_reducible assumption
    | with_reducible exact hg
    | intro _
    | with_reducible refine keep_mLsuQ (K.mono (by decide)) (fun _ _ m => by first | exact m | (simp at m; done) | (simp at m; exact m.1)) ?_
    | with_reducible apply keep_linkDown (K.mono (by decide)) W
    | with_reducible apply keep_foldS
    | with_reducible apply keep_ite
    | split
    | (refine keep_with K hg ?_; intro g h; cases g <;> first | rfl | (cases h; done) | exact fun _ m => m | exact fun _ m => nomatch m)
    | dsimp only

theorem keep_authLogClear (K : Keeps 0x1000000 P) (v : W32) {s : State} (hg : P s) : P (authLogClear v s) := by
  unfold authLogClear
  repeat' first
    | with_reducible assumption
    | with_reducible exact hg
    | intro _
    | with_reducible refine keep_mLsuQ (K.mono (by decide)) (fun _ _ m => by first | exact m | (simp at m; done) | (simp at m; exact m.1)) ?_
    | with_reducible apply keep_ite
    | split
    | (refine keep_with K hg ?_; intro g h; cases g <;> first | rfl | (cases h; done) | exact fun _ m => m | exact fun _ m => nomatch m)

end Sys2Proof.Laws
end

