-- ==== Sys2Proof/Laws/FrameFaults.lean ====
section
/-! SUPPORT. Laws/FrameFaults.lean: the operations of Machine/Faults.lean change no more than they may. -/

namespace Sys2Proof.Laws

open Sys2Proof.Machine

variable {P : State → Prop} {s : State}

theorem keep_eccSingleBit (K : Keeps 0xe000350 P) (W : Stores P) (mem : Nat) {s : State} (hg : P s) : P (eccSingleBit mem s) := by
  unfold eccSingleBit
  repeat' first
    | with_reducible assumption
    | with_reducible exact hg
    | intro _
    | with_reducible apply keep_fireInject (K.mono (by decide))
    | with_reducible apply keep_bump (K.mono (by decide))
    | with_reducible apply keep_mCtl (K.mono (by decide))
    | with_reducible apply keep_eccSingleAs (K.mono (by decide)) W
    | with_reducible apply keep_ite
    | split
    | (refine keep_with K hg ?_; intro g h; cases g <;> first | rfl | (cases h; done) | exact fun _ m => m | exact fun _ m => nomatch m)
    | dsimp only

theorem keep_controlLoss (K : Keeps 0xe080350 P) (W : Stores P) (mem word : Nat) (injected : Bool) {s : State} (hg : P s) : P (controlLoss mem word injected s) := by
  unfold controlLoss
  repeat' first
    | with_reducible assumption
    | with_reducible exact hg
    | intro _
    | with_reducible apply keep_haltStep (K.mono (by decide))
    | with_reducible apply keep_mCtl (K.mono (by decide))
    | with_reducible apply keep_raiseFault (K.mono (by decide)) W
    | with_reducible apply keep_mFlt (K.mono (by decide))
    | (refine keep_with K hg ?_; intro g h; cases g <;> first | rfl | (cases h; done) | exact fun _ m => m | exact fun _ m => nomatch m)
    | dsimp only

theorem keep_rewriteObject (K : Keeps 0x200000 P) (p : Nat) {s : State} (hg : P s) : P (rewriteObject p s) := by
  unfold rewriteObject
  repeat' first
    | with_reducible assumption
    | with_reducible exact hg
    | intro _
    | with_reducible apply keep_mObj (K.mono (by decide))
    | split
    | (refine keep_with K hg ?_; intro g h; cases g <;> first | rfl | (cases h; done) | exact fun _ m => m | exact fun _ m => nomatch m)
    | dsimp only

theorem keep_eccDoubleBit (K : Keeps 0xfffef54 P) (W : Stores P) (mem word : Nat) {s0 : State} (hg : P s0) : P (eccDoubleBit mem word s0) := by
  unfold eccDoubleBit
  repeat' first
    | with_reducible assumption
    | with_reducible exact hg
    | intro _
    | with_reducible apply keep_logDouble (K.mono (by decide))
    | with_reducible apply keep_fireInject (K.mono (by decide))
    | with_reducible apply keep_csqExpire (K.mono (by decide)) W
    | with_reducible apply keep_controlLoss (K.mono (by decide)) W
    | with_reducible apply keep_failSession (K.mono (by decide)) W
    | with_reducible apply keep_mRow (K.mono (by decide))
    | with_reducible apply keep_reportCode (K.mono (by decide)) W
    | with_reducible apply keep_rewriteObject (K.mono (by decide))
    | with_reducible apply keep_badFlit (K.mono (by decide))
    | with_reducible apply keep_linkDown (K.mono (by decide)) W
    | with_reducible apply keep_ite
    | split
    | (refine keep_with K hg ?_; intro g h; cases g <;> first | rfl | (cases h; done) | exact fun _ m => m | exact fun _ m => nomatch m)
    | dsimp only

theorem keep_eccLogClear (K : Keeps 0x4000000 P) (v : W32) {s : State} (hg : P s) : P (eccLogClear v s) := by
  unfold eccLogClear
  repeat' first
    | with_reducible assumption
    | with_reducible exact hg
    | intro _
    | with_reducible apply keep_mFlt (K.mono (by decide))
    | with_reducible apply keep_ite
    | split
    | (refine keep_with K hg ?_; intro g h; cases g <;> first | rfl | (cases h; done) | exact fun _ m => m | exact fun _ m => nomatch m)

theorem keep_histCtlWrite (K : Keeps 0x4000000 P) (v : W32) {s : State} (hg : P s) : P (histCtlWrite v s) := by
  unfold histCtlWrite
  repeat' first
    | with_reducible assumption
    | with_reducible exact hg
    | intro _
    | with_reducible apply keep_mFlt (K.mono (by decide))
    | with_reducible apply keep_ite
    | split
    | (refine keep_with K hg ?_; intro g h; cases g <;> first | rfl | (cases h; done) | exact fun _ m => m | exact fun _ m => nomatch m)
    | dsimp only

theorem keep_histClear (K : Keeps 0x4000000 P) (v : W32) {s : State} (hg : P s) : P (histClear v s) := by
  unfold histClear
  repeat' first
    | with_reducible assumption
    | with_reducible exact hg
    | intro _
    | with_reducible apply keep_histCtlWrite (K.mono (by decide))

theorem keep_lateContribution (K : Keeps 0x67def54 P) (W : Stores P) (i : Nat) {s : State} (hg : P s) : P (lateContribution i s) := by
  unfold lateContribution
  repeat' first
    | with_reducible assumption
    | with_reducible exact hg
    | intro _
    | with_reducible apply keep_endSession (K.mono (by decide)) W
    | with_reducible apply keep_mFlt (K.mono (by decide))
    | with_reducible apply keep_ite
    | split
    | (refine keep_with K hg ?_; intro g h; cases g <;> first | rfl | (cases h; done) | exact fun _ m => m | exact fun _ m => nomatch m)
    | dsimp only

theorem keep_goSilent (K : Keeps 0xfe84550 P) (W : Stores P) {s : State} (hg : P s) : P (goSilent s) := by
  unfold goSilent
  repeat' first
    | with_reducible assumption
    | with_reducible exact hg
    | intro _
    | with_reducible apply keep_mFlt (K.mono (by decide))
    | with_reducible apply keep_linkDown (K.mono (by decide)) W
    | with_reducible apply keep_foldS
    | with_reducible apply keep_ite
    | split
    | (refine keep_with K hg ?_; intro g h; cases g <;> first | rfl | (cases h; done) | exact fun _ m => m | exact fun _ m => nomatch m)
    | dsimp only

theorem keep_fireLink (K : Keeps 0xfe84550 P) (W : Stores P) {s : State} (hg : P s) : P (fireLink s) := by
  unfold fireLink
  repeat' first
    | with_reducible assumption
    | with_reducible exact hg
    | intro _
    | with_reducible apply keep_linkDown (K.mono (by decide)) W
    | with_reducible apply keep_fireInject (K.mono (by decide))
    | with_reducible apply keep_ite
    | split
    | dsimp only

theorem keep_fireNow (K : Keeps 0xfe84550 P) (W : Stores P) {s : State} (hg : P s) : P (fireNow s) := by
  unfold fireNow
  repeat' first
    | with_reducible assumption
    | with_reducible exact hg
    | intro _
    | with_reducible apply keep_goSilent (K.mono (by decide)) W
    | with_reducible apply keep_fireInject (K.mono (by decide))
    | with_reducible apply keep_fireLink (K.mono (by decide)) W
    | with_reducible apply keep_ite
    | split

theorem keep_injectArm (K : Keeps 0xfe84550 P) (W : Stores P) (v : W32) {s : State} (hg : P s) : P (injectArm v s) := by
  unfold injectArm
  repeat' first
    | with_reducible assumption
    | with_reducible exact hg
    | intro _
    | with_reducible apply keep_mFlt (K.mono (by decide))
    | with_reducible apply keep_pageErr (K.mono (by decide)) W
    | with_reducible apply keep_fireNow (K.mono (by decide)) W
    | with_reducible apply keep_ite
    | split
    | (refine keep_with K hg ?_; intro g h; cases g <;> first | rfl | (cases h; done) | exact fun _ m => m | exact fun _ m => nomatch m)
    | dsimp only

theorem keep_stragglerExpiry (K : Keeps 0x2000 P) (i : Nat) {s : State} (hg : P s) : P (stragglerExpiry i s) := by
  unfold stragglerExpiry
  repeat' first
    | with_reducible assumption
    | with_reducible exact hg
    | intro _
    | with_reducible apply keep_mSlot (K.mono (by decide))
    | with_reducible apply keep_ite
    | split
    | (refine keep_with K hg ?_; intro g h; cases g <;> first | rfl | (cases h; done) | exact fun _ m => m | exact fun _ m => nomatch m)

theorem keep_silentChipExpiry (K : Keeps 0x4800000 P) {s : State} (hg : P s) : P (silentChipExpiry s) := by
  unfold silentChipExpiry
  repeat' first
    | with_reducible assumption
    | with_reducible exact hg
    | intro _
    | with_reducible apply keep_mFlt (K.mono (by decide))
    | with_reducible apply keep_toDown (K.mono (by decide))
    | with_reducible apply keep_foldS
    | with_reducible apply keep_ite
    | split
    | (refine keep_with K hg ?_; intro g h; cases g <;> first | rfl | (cases h; done) | exact fun _ m => m | exact fun _ m => nomatch m)
    | dsimp only

end Sys2Proof.Laws
end

