-- ==== Sys2Proof/Laws/FrameReplay.lean ====
section
/-! SUPPORT. Laws/FrameReplay.lean: the operations of Machine/Replay.lean change no more than they may. -/

namespace Sys2Proof.Laws

open Sys2Proof.Machine

variable {P : State → Prop} {s : State}

theorem keep_capCtlWrite (K : Keeps 0x2000150 P) (W : Stores P) (v : W32) {s : State} (hg : P s) : P (capCtlWrite v s) := by
  unfold capCtlWrite
  repeat' first
    | with_reducible assumption
    | with_reducible exact hg
    | intro _
    | with_reducible apply keep_mRru (K.mono (by decide))
    | with_reducible apply keep_stepHeader (K.mono (by decide)) W
    | with_reducible apply keep_freezeCapture (K.mono (by decide)) W
    | with_reducible apply keep_ite
    | split
    | (refine keep_with K hg ?_; intro g h; cases g <;> first | rfl | (cases h; done) | exact fun _ m => m | exact fun _ m => nomatch m)
    | dsimp only

theorem keep_replayGo (K : Keeps 0x2000150 P) (W : Stores P) {s : State} (hg : P s) : P (replayGo s) := by
  unfold replayGo
  repeat' first
    | with_reducible assumption
    | with_reducible exact hg
    | intro _
    | with_reducible apply keep_pageErr (K.mono (by decide)) W
    | with_reducible apply keep_mRru (K.mono (by decide))
    | with_reducible apply keep_foldl
    | with_reducible apply keep_ite
    | split
    | (refine keep_with K hg ?_; intro g h; cases g <;> first | rfl | (cases h; done) | exact fun _ m => m | exact fun _ m => nomatch m)
    | dsimp only

theorem keep_endReplay (K : Keeps 0x2000000 P) (code : Nat) {s : State} (hg : P s) : P (endReplay code s) := by
  unfold endReplay
  repeat' first
    | with_reducible assumption
    | with_reducible exact hg
    | intro _
    | with_reducible apply keep_mRru (K.mono (by decide))
    | (refine keep_with K hg ?_; intro g h; cases g <;> first | rfl | (cases h; done) | exact fun _ m => m | exact fun _ m => nomatch m)

theorem keep_replayStop (K : Keeps 0x2000000 P) {s : State} (hg : P s) : P (replayStop s) := by
  unfold replayStop
  repeat' first
    | with_reducible assumption
    | with_reducible exact hg
    | intro _
    | with_reducible apply keep_endReplay (K.mono (by decide))
    | with_reducible apply keep_ite
    | split

theorem keep_closeSpan (K : Keeps 0x2000000 P) {s : State} (hg : P s) : P (closeSpan s) := by
  unfold closeSpan
  repeat' first
    | with_reducible assumption
    | with_reducible exact hg
    | intro _
    | with_reducible apply keep_endReplay (K.mono (by decide))
    | with_reducible apply keep_ite
    | split
    | dsimp only

theorem keep_replayDelivery (K : Keeps 0x2400050 P) (p : Nat) {s : State} (hg : P s) : P (replayDelivery p s) := by
  unfold replayDelivery
  repeat' first
    | with_reducible assumption
    | with_reducible exact hg
    | intro _
    | with_reducible apply keep_closeSpan (K.mono (by decide))
    | with_reducible apply keep_endReplay (K.mono (by decide))
    | with_reducible apply keep_mRtr (K.mono (by decide))
    | with_reducible apply keep_bump (K.mono (by decide))
    | with_reducible apply keep_mRru (K.mono (by decide))
    | with_reducible apply keep_ite
    | split
    | (refine keep_with K hg ?_; intro g h; cases g <;> first | rfl | (cases h; done) | exact fun _ m => m | exact fun _ m => nomatch m)
    | dsimp only

theorem keep_applyForced (K : Keeps 0xefdef54 P) (W : Stores P) (r : List Byte) {s : State} (hg : P s) : KeepO P (applyForced r s) := by
  unfold applyForced
  repeat' first
    | with_reducible assumption
    | with_reducible exact hg
    | exact keepO_none
    | with_reducible apply keepO_some
    | with_reducible apply keepO_ite
    | with_reducible apply keepO_map
    | intro _
    | with_reducible apply keep_stageAfterTimeout (K.mono (by decide)) W
    | with_reducible apply keep_syncTimeout (K.mono (by decide)) W
    | with_reducible apply keep_stepDeadline (K.mono (by decide)) W
    | with_reducible apply keep_crownTimeout (K.mono (by decide)) W
    | with_reducible apply keep_reportStall (K.mono (by decide)) W
    | with_reducible apply keep_ite
    | split
    | (refine keep_with K hg ?_; intro g h; cases g <;> first | rfl | (cases h; done) | exact fun _ m => m | exact fun _ m => nomatch m)
    | dsimp only

theorem keep_replayForcedChoice (K : Keeps 0xefdef54 P) (W : Stores P) (n : Nat) {s : State} (hg : P s) : P (replayForcedChoice n s) := by
  unfold replayForcedChoice
  repeat' first
    | with_reducible assumption
    | with_reducible exact hg
    | intro _
    | with_reducible apply keep_applyForced (K.mono (by decide)) W
    | with_reducible apply keep_mRru (K.mono (by decide))
    | with_reducible refine keepO_use ?_ (by assumption)
    | with_reducible apply keep_ite
    | split
    | (refine keep_with K hg ?_; intro g h; cases g <;> first | rfl | (cases h; done) | exact fun _ m => m | exact fun _ m => nomatch m)
    | dsimp only

theorem keep_replayCommit (K : Keeps 0x2000150 P) (W : Stores P) (digest : W64) (step attempt : Nat) {s : State} (hg : P s) : P (replayCommit digest step attempt s) := by
  unfold replayCommit
  repeat' first
    | with_reducible assumption
    | with_reducible exact hg
    | intro _
    | with_reducible apply keep_mRru (K.mono (by decide))
    | with_reducible apply keep_endReplay (K.mono (by decide))
    | with_reducible apply keep_raiseVec (K.mono (by decide))
    | with_reducible apply keep_reportCode (K.mono (by decide)) W
    | with_reducible apply keep_ite
    | split
    | (refine keep_with K hg ?_; intro g h; cases g <;> first | rfl | (cases h; done) | exact fun _ m => m | exact fun _ m => nomatch m)
    | dsimp only

theorem keep_commit (K : Keeps 0xe6c2f54 P) (W : Stores P) {s : State} (hg : P s) : P (commit s) := by
  unfold commit
  repeat' first
    | with_reducible assumption
    | with_reducible exact hg
    | intro _
    | with_reducible apply keep_commitStep (K.mono (by decide)) W
    | with_reducible apply keep_replayCommit (K.mono (by decide)) W
    | with_reducible apply keep_decision (K.mono (by decide))
    | with_reducible apply keep_ite
    | split
    | (refine keep_with K hg ?_; intro g h; cases g <;> first | rfl | (cases h; done) | exact fun _ m => m | exact fun _ m => nomatch m)
    | dsimp only

end Sys2Proof.Laws
end

