-- ==== Sys2Proof/Laws/FrameReset.lean ====
section
/-! SUPPORT. Laws/FrameReset.lean: the operations of Machine/Reset.lean change no more than they may. -/

namespace Sys2Proof.Laws

open Sys2Proof.Machine

variable {P : State → Prop} {s : State}

theorem keep_clearCold (K : Keeps 0x3fffff71 P) {s : State} (hg : P s) : P (clearCold s) := by
  unfold clearCold
  repeat' first
    | with_reducible assumption
    | with_reducible exact hg
    | intro _
    | (refine keep_with K hg ?_; intro g h; cases g <;> first | rfl | (cases h; done) | exact fun _ m => m | exact fun _ m => nomatch m)

theorem keep_clearWarm (K : Keeps 0x3fffff71 P) {s : State} (hg : P s) : P (clearWarm s) := by
  unfold clearWarm
  repeat' first
    | with_reducible assumption
    | with_reducible exact hg
    | intro _
    | with_reducible apply keep_clearCold (K.mono (by decide))
    | (refine keep_with K hg ?_; intro g h; cases g <;> first | rfl | (cases h; done) | exact fun _ m => m | exact fun _ m => nomatch m)

theorem keep_clearEngine (K : Keeps 0x3fffff71 P) {s : State} (hg : P s) : P (clearEngine s) := by
  unfold clearEngine
  repeat' first
    | with_reducible assumption
    | with_reducible exact hg
    | intro _
    | with_reducible apply keep_clearWarm (K.mono (by decide))
    | with_reducible apply keep_ite
    | split
    | (refine keep_with K hg ?_; intro g h; cases g <;> first | rfl | (cases h; done) | exact fun _ m => m | exact fun _ m => nomatch m)

theorem keep_resetNow (K : Keeps 0x3fffff75 P) (W : Stores P) (kind : Nat) {s : State} (hg : P s) : P (resetNow kind s) := by
  unfold resetNow
  repeat' first
    | with_reducible assumption
    | with_reducible exact hg
    | intro _
    | with_reducible apply keep_clearEngine (K.mono (by decide))
    | with_reducible apply keep_clearWarm (K.mono (by decide))
    | with_reducible apply keep_clearCold (K.mono (by decide))
    | with_reducible apply keep_mRst (K.mono (by decide))
    | with_reducible apply keep_release (K.mono (by decide)) W
    | split
    | (refine keep_with K hg ?_; intro g h; cases g <;> first | rfl | (cases h; done) | exact fun _ m => m | exact fun _ m => nomatch m)
    | dsimp only

theorem keep_assertReset (K : Keeps 0x3fffff75 P) (W : Stores P) (kind : Nat) {s : State} (hg : P s) : P (assertReset kind s) := by
  unfold assertReset
  repeat' first
    | with_reducible assumption
    | with_reducible exact hg
    | intro _
    | with_reducible apply keep_wakeBy (K.mono (by decide))
    | with_reducible apply keep_mRst (K.mono (by decide))
    | with_reducible apply keep_resetNow (K.mono (by decide)) W
    | with_reducible apply keep_ite
    | split
    | (refine keep_with K hg ?_; intro g h; cases g <;> first | rfl | (cases h; done) | exact fun _ m => m | exact fun _ m => nomatch m)
    | dsimp only

theorem keep_resetMessage (K : Keeps 0xc000000 P) (kind ctx : Nat) {s : State} (hg : P s) : P (resetMessage kind ctx s) := by
  unfold resetMessage
  repeat' first
    | with_reducible assumption
    | with_reducible exact hg
    | intro _
    | with_reducible apply keep_sendMbx (K.mono (by decide))

theorem keep_rstDone (K : Keeps 0x1c000000 P) {s : State} (hg : P s) : P (rstDone s) := by
  unfold rstDone
  repeat' first
    | with_reducible assumption
    | with_reducible exact hg
    | intro _
    | with_reducible apply keep_resetMessage (K.mono (by decide))
    | with_reducible apply keep_mRst (K.mono (by decide))
    | with_reducible apply keep_ite
    | split
    | (refine keep_with K hg ?_; intro g h; cases g <;> first | rfl | (cases h; done) | exact fun _ m => m | exact fun _ m => nomatch m)

theorem keep_endForReset (K : Keeps 0x27def54 P) (W : Stores P) (i : Nat) {s : State} (hg : P s) : P (endForReset i s) := by
  unfold endForReset
  repeat' first
    | with_reducible assumption
    | with_reducible exact hg
    | intro _
    | with_reducible apply keep_freeSlot (K.mono (by decide))
    | with_reducible apply keep_endSession (K.mono (by decide)) W
    | with_reducible apply keep_ite
    | split
    | (refine keep_with K hg ?_; intro g h; cases g <;> first | rfl | (cases h; done) | exact fun _ m => m | exact fun _ m => nomatch m)

theorem keep_endParkForReset (K : Keeps 0x27def54 P) (W : Stores P) (b : Nat) {s : State} (hg : P s) : P (endParkForReset b s) := by
  unfold endParkForReset
  repeat' first
    | with_reducible assumption
    | with_reducible exact hg
    | intro _
    | with_reducible apply keep_failStep (K.mono (by decide))
    | with_reducible apply keep_reportCode (K.mono (by decide)) W
    | with_reducible apply keep_mBkt (K.mono (by decide))
    | with_reducible apply keep_retirePark (K.mono (by decide)) W
    | with_reducible apply keep_abortGroup (K.mono (by decide)) W
    | split
    | (refine keep_with K hg ?_; intro g h; cases g <;> first | rfl | (cases h; done) | exact fun _ m => m | exact fun _ m => nomatch m)
    | dsimp only

theorem keep_clearRing (K : Keeps 0x2004550 P) (W : Stores P) (r : Nat) {s : State} (hg : P s) : P (clearRing r s) := by
  unfold clearRing
  repeat' first
    | with_reducible assumption
    | with_reducible exact hg
    | intro _
    | with_reducible apply keep_mRing (K.mono (by decide))
    | with_reducible apply keep_tagStall (K.mono (by decide))
    | with_reducible apply keep_completeRest (K.mono (by decide)) W
    | with_reducible apply keep_forgetFetch (K.mono (by decide))
    | (refine keep_with K hg ?_; intro g h; cases g <;> first | rfl | (cases h; done) | exact fun _ m => m | exact fun _ m => nomatch m)
    | dsimp only

theorem keep_ctxObjects (K : Keeps 0x200000 P) (c : Nat) {s : State} (hg : P s) : P (ctxObjects c s) := by
  unfold ctxObjects
  repeat' first
    | with_reducible assumption
    | with_reducible exact hg
    | intro _
    | with_reducible apply keep_mSyn (K.mono (by decide))
    | with_reducible apply keep_orphanAll (K.mono (by decide))
    | with_reducible apply keep_ite
    | split
    | (refine keep_with K hg ?_; intro g h; cases g <;> first | rfl | (cases h; done) | exact fun _ m => m | exact fun _ m => nomatch m)

theorem keep_ctxRstReq (K : Keeps 0x127def54 P) (W : Stores P) (c : Nat) {s : State} (hg : P s) : P (ctxRstReq c s) := by
  unfold ctxRstReq
  repeat' first
    | with_reducible assumption
    | with_reducible exact hg
    | intro _
    | with_reducible apply keep_mWin (K.mono (by decide))
    | with_reducible apply keep_mRst (K.mono (by decide))
    | with_reducible apply keep_endForReset (K.mono (by decide)) W
    | with_reducible apply keep_endParkForReset (K.mono (by decide)) W
    | with_reducible apply keep_ctxObjects (K.mono (by decide))
    | with_reducible apply keep_clearRing (K.mono (by decide)) W
    | with_reducible apply keep_foldS
    | with_reducible apply keep_ite
    | split
    | (refine keep_with K hg ?_; intro g h; cases g <;> first | rfl | (cases h; done) | exact fun _ m => m | exact fun _ m => nomatch m)
    | dsimp only

theorem keep_ctxRstAck (K : Keeps 0x1c200400 P) (c : Nat) {s : State} (hg : P s) : P (ctxRstAck c s) := by
  unfold ctxRstAck
  repeat' first
    | with_reducible assumption
    | with_reducible exact hg
    | intro _
    | with_reducible apply keep_mRing (K.mono (by decide))
    | with_reducible apply keep_resetMessage (K.mono (by decide))
    | with_reducible apply keep_mWin (K.mono (by decide))
    | with_reducible apply keep_mRst (K.mono (by decide))
    | with_reducible apply keep_foldS
    | with_reducible apply keep_ite
    | split
    | (refine keep_with K hg ?_; intro g h; cases g <;> first | rfl | (cases h; done) | exact fun _ m => m | exact fun _ m => nomatch m)
    | dsimp only

end Sys2Proof.Laws
end

