-- ==== Sys2Proof/Laws/FramePower.lean ====
section
/-! SUPPORT. Laws/FramePower.lean: the operations of Machine/Power.lean change no more than they may. -/

namespace Sys2Proof.Laws

open Sys2Proof.Machine

variable {P : State → Prop} {s : State}

theorem keep_powerReq (K : Keeps 0x8000000 P) (v : Nat) {s : State} (hg : P s) : P (powerReq v s) := by
  unfold powerReq
  repeat' first
    | with_reducible assumption
    | with_reducible exact hg
    | intro _
    | with_reducible apply keep_mPwr (K.mono (by decide))
    | (refine keep_with K hg ?_; intro g h; cases g <;> first | rfl | (cases h; done) | exact fun _ m => m | exact fun _ m => nomatch m)

theorem keep_dozeRequest (K : Keeps 0x8000050 P) {s : State} (hg : P s) : P (dozeRequest s) := by
  unfold dozeRequest
  repeat' first
    | with_reducible assumption
    | with_reducible exact hg
    | intro _
    | with_reducible apply keep_powerReq (K.mono (by decide))
    | with_reducible apply keep_powerNak (K.mono (by decide))
    | with_reducible apply keep_mPwr (K.mono (by decide))
    | with_reducible apply keep_ite
    | split
    | (refine keep_with K hg ?_; intro g h; cases g <;> first | rfl | (cases h; done) | exact fun _ m => m | exact fun _ m => nomatch m)
    | dsimp only

theorem keep_sleepRequest (K : Keeps 0x8000050 P) {s : State} (hg : P s) : P (sleepRequest s) := by
  unfold sleepRequest
  repeat' first
    | with_reducible assumption
    | with_reducible exact hg
    | intro _
    | with_reducible apply keep_powerReq (K.mono (by decide))
    | with_reducible apply keep_powerNak (K.mono (by decide))
    | with_reducible apply keep_mPwr (K.mono (by decide))
    | with_reducible apply keep_ite
    | split
    | (refine keep_with K hg ?_; intro g h; cases g <;> first | rfl | (cases h; done) | exact fun _ m => m | exact fun _ m => nomatch m)
    | dsimp only

theorem keep_sleepEntryDone (K : Keeps 0x8000000 P) {s : State} (hg : P s) : P (sleepEntryDone s) := by
  unfold sleepEntryDone
  repeat' first
    | with_reducible assumption
    | with_reducible exact hg
    | intro _
    | with_reducible apply keep_mPwr (K.mono (by decide))
    | with_reducible apply keep_ite
    | split
    | (refine keep_with K hg ?_; intro g h; cases g <;> first | rfl | (cases h; done) | exact fun _ m => m | exact fun _ m => nomatch m)

theorem keep_requestRun (K : Keeps 0x8000050 P) (reserved : Bool) {s : State} (hg : P s) : P (requestRun reserved s) := by
  unfold requestRun
  exact keep_wakeBy (K.mono (by decide)) _ (keep_powerReq (K.mono (by decide)) _ hg)

theorem keep_runRequest (K : Keeps 0x8000050 P) {s : State} (hg : P s) : P (runRequest s) :=
  keep_requestRun K _ hg

theorem keep_wakeSource (K : Keeps 0x8000050 P) (cause : WakeFrom) {s : State} (hg : P s) : P (wakeSource cause s) := by
  unfold wakeSource
  split
  · exact keep_requestRun K _ hg
  · exact keep_wakeBy (K.mono (by decide)) _ hg

theorem keep_isoRelease (K : Keeps 0x8000000 P) {s : State} (hg : P s) : P (isoRelease s) := by
  unfold isoRelease
  repeat' first
    | with_reducible assumption
    | with_reducible exact hg
    | intro _
    | with_reducible apply keep_mPwr (K.mono (by decide))
    | with_reducible apply keep_ite
    | split
    | (refine keep_with K hg ?_; intro g h; cases g <;> first | rfl | (cases h; done) | exact fun _ m => m | exact fun _ m => nomatch m)

theorem keep_pwrGood (K : Keeps 0x8000000 P) {s : State} (hg : P s) : P (pwrGood s) := by
  unfold pwrGood
  repeat' first
    | with_reducible assumption
    | with_reducible exact hg
    | intro _
    | with_reducible apply keep_isoRelease (K.mono (by decide))
    | with_reducible apply keep_mPwr (K.mono (by decide))
    | with_reducible apply keep_ite
    | split
    | (refine keep_with K hg ?_; intro g h; cases g <;> first | rfl | (cases h; done) | exact fun _ m => m | exact fun _ m => nomatch m)

theorem keep_toRun (K : Keeps 0x8000200 P) {s : State} (hg : P s) : P (toRun s) := by
  unfold toRun
  repeat' first
    | with_reducible assumption
    | with_reducible exact hg
    | intro _
    | with_reducible apply keep_mCtl (K.mono (by decide))
    | with_reducible apply keep_mPwr (K.mono (by decide))
    | split
    | (refine keep_with K hg ?_; intro g h; cases g <;> first | rfl | (cases h; done) | exact fun _ m => m | exact fun _ m => nomatch m)
    | dsimp only

theorem keep_sleepWakeDone (K : Keeps 0x3fffff75 P) (W : Stores P) {s : State} (hg : P s) : P (sleepWakeDone s) := by
  unfold sleepWakeDone
  repeat' first
    | with_reducible assumption
    | with_reducible exact hg
    | intro _
    | with_reducible apply keep_toRun (K.mono (by decide))
    | with_reducible apply keep_resetNow (K.mono (by decide)) W
    | with_reducible apply keep_ite
    | split
    | (refine keep_with K hg ?_; intro g h; cases g <;> first | rfl | (cases h; done) | exact fun _ m => m | exact fun _ m => nomatch m)

theorem keep_dozeWakeDone (K : Keeps 0x8000200 P) {s : State} (hg : P s) : P (dozeWakeDone s) := by
  unfold dozeWakeDone
  repeat' first
    | with_reducible assumption
    | with_reducible exact hg
    | intro _
    | with_reducible apply keep_toRun (K.mono (by decide))
    | with_reducible apply keep_ite
    | split
    | (refine keep_with K hg ?_; intro g h; cases g <;> first | rfl | (cases h; done) | exact fun _ m => m | exact fun _ m => nomatch m)

theorem keep_thrLimitChange (K : Keeps 0x8000000 P) (l : Byte) {s : State} (hg : P s) : P (thrLimitChange l s) := by
  unfold thrLimitChange
  repeat' first
    | with_reducible assumption
    | with_reducible exact hg
    | intro _
    | with_reducible apply keep_mPwr (K.mono (by decide))
    | (refine keep_with K hg ?_; intro g h; cases g <;> first | rfl | (cases h; done) | exact fun _ m => m | exact fun _ m => nomatch m)

theorem keep_thrSample (K : Keeps 0x8000000 P) {s : State} (hg : P s) : P (thrSample s) := by
  unfold thrSample
  repeat' first
    | with_reducible assumption
    | with_reducible exact hg
    | intro _
    | with_reducible apply keep_mPwr (K.mono (by decide))
    | with_reducible apply keep_ite
    | split
    | (refine keep_with K hg ?_; intro g h; cases g <;> first | rfl | (cases h; done) | exact fun _ m => m | exact fun _ m => nomatch m)

theorem keep_throttleInForce (K : Keeps 0x8000000 P) {s : State} (hg : P s) : P (throttleInForce s) := by
  unfold throttleInForce
  repeat' first
    | with_reducible assumption
    | with_reducible exact hg
    | intro _
    | with_reducible apply keep_mPwr (K.mono (by decide))
    | with_reducible apply keep_ite
    | split
    | (refine keep_with K hg ?_; intro g h; cases g <;> first | rfl | (cases h; done) | exact fun _ m => m | exact fun _ m => nomatch m)

theorem keep_peakClr (K : Keeps 0x8000000 P) (v : W32) {s : State} (hg : P s) : P (peakClr v s) := by
  unfold peakClr
  repeat' first
    | with_reducible assumption
    | with_reducible exact hg
    | intro _
    | with_reducible apply keep_mPwr (K.mono (by decide))
    | with_reducible apply keep_ite
    | split
    | (refine keep_with K hg ?_; intro g h; cases g <;> first | rfl | (cases h; done) | exact fun _ m => m | exact fun _ m => nomatch m)

end Sys2Proof.Laws
end

