-- ==== Sys2Proof/Laws/FrameDebug.lean ====
section
/-! SUPPORT. Laws/FrameDebug.lean: the operations of Machine/Debug.lean change no more than they may. -/

namespace Sys2Proof.Laws

open Sys2Proof.Machine

variable {P : State → Prop} {s : State}

theorem keep_sampleUnlock (K : Keeps 0x20000000 P) (unlock : Bool) {s : State} (hg : P s) : P (sampleUnlock unlock s) := by
  unfold sampleUnlock
  repeat' first
    | with_reducible assumption
    | with_reducible exact hg
    | intro _
    | with_reducible apply keep_mDbg (K.mono (by decide))
    | (refine keep_with K hg ?_; intro g h; cases g <;> first | rfl | (cases h; done) | exact fun _ m => m | exact fun _ m => nomatch m)

theorem keep_freezeReq (K : Keeps 0x20000000 P) (src : FreezeSource) (on : Bool) {s : State} (hg : P s) : P (freezeReq src on s) := by
  unfold freezeReq
  repeat' first
    | with_reducible assumption
    | with_reducible exact hg
    | intro _
    | with_reducible apply keep_sampleUnlock (K.mono (by decide))
    | with_reducible apply keep_mDbg (K.mono (by decide))
    | with_reducible apply keep_ite
    | split
    | (refine keep_with K hg ?_; intro g h; cases g <;> first | rfl | (cases h; done) | exact fun _ m => m | exact fun _ m => nomatch m)
    | dsimp only

theorem keep_debugFreezeRequest (K : Keeps 0x20000000 P) (src : FreezeSource) {s : State} (hg : P s) : P (debugFreezeRequest src s) := by
  unfold debugFreezeRequest
  repeat' first
    | with_reducible assumption
    | with_reducible exact hg
    | intro _
    | with_reducible apply keep_freezeReq (K.mono (by decide))
    | with_reducible apply keep_mDbg (K.mono (by decide))
    | with_reducible apply keep_ite
    | split
    | (refine keep_with K hg ?_; intro g h; cases g <;> first | rfl | (cases h; done) | exact fun _ m => m | exact fun _ m => nomatch m)
    | dsimp only

theorem keep_debugFreezeDone (K : Keeps 0x20000050 P) {s : State} (hg : P s) : P (debugFreezeDone s) := by
  unfold debugFreezeDone
  repeat' first
    | with_reducible assumption
    | with_reducible exact hg
    | intro _
    | with_reducible apply keep_bump (K.mono (by decide))
    | with_reducible apply keep_mDbg (K.mono (by decide))
    | with_reducible apply keep_ite
    | split
    | (refine keep_with K hg ?_; intro g h; cases g <;> first | rfl | (cases h; done) | exact fun _ m => m | exact fun _ m => nomatch m)

theorem keep_debugFreezeEnd (K : Keeps 0x2e2c2950 P) (W : Stores P) (src : FreezeSource) {s : State} (hg : P s) : P (debugFreezeEnd src s) := by
  unfold debugFreezeEnd
  repeat' first
    | with_reducible assumption
    | with_reducible exact hg
    | intro _
    | with_reducible apply keep_freezeReq (K.mono (by decide))
    | with_reducible apply keep_releaseHeld (K.mono (by decide)) W
    | with_reducible apply keep_mDbg (K.mono (by decide))
    | with_reducible apply keep_ite
    | split
    | (refine keep_with K hg ?_; intro g h; cases g <;> first | rfl | (cases h; done) | exact fun _ m => m | exact fun _ m => nomatch m)
    | dsimp only

theorem keep_dbgSelWrite (K : Keeps 0x22000150 P) (W : Stores P) (v : W32) {s : State} (hg : P s) : P (dbgSelWrite v s) := by
  unfold dbgSelWrite
  repeat' first
    | with_reducible assumption
    | with_reducible exact hg
    | intro _
    | with_reducible apply keep_pageErr (K.mono (by decide)) W
    | with_reducible apply keep_mDbg (K.mono (by decide))
    | with_reducible apply keep_ite
    | split
    | (refine keep_with K hg ?_; intro g h; cases g <;> first | rfl | (cases h; done) | exact fun _ m => m | exact fun _ m => nomatch m)

theorem keep_dbgLatch (K : Keeps 0x20000000 P) (v : W64) {s : State} (hg : P s) : P (dbgLatch v s) := by
  unfold dbgLatch
  repeat' first
    | with_reducible assumption
    | with_reducible exact hg
    | intro _
    | with_reducible apply keep_mDbg (K.mono (by decide))
    | (refine keep_with K hg ?_; intro g h; cases g <;> first | rfl | (cases h; done) | exact fun _ m => m | exact fun _ m => nomatch m)

theorem keep_dbgDataRead (K : Keeps 0x22000154 P) (W : Stores P) (high : Bool) {s : State} (hg : P s) : P (dbgDataRead high s) := by
  unfold dbgDataRead
  repeat' first
    | with_reducible assumption
    | with_reducible exact hg
    | intro _
    | with_reducible apply keep_mDbg (K.mono (by decide))
    | with_reducible apply keep_dbgLatch (K.mono (by decide))
    | with_reducible apply keep_pageErr (K.mono (by decide)) W
    | with_reducible apply keep_ite
    | split
    | (refine keep_with K hg ?_; intro g h; cases g <;> first | rfl | (cases h; done) | exact fun _ m => m | exact fun _ m => nomatch m)
    | dsimp only

theorem keep_pageErrClear (K : Keeps 0x10 P) (p : Nat) (v : W32) {s : State} (hg : P s) : P (pageErrClear p v s) := by
  unfold pageErrClear
  repeat' first
    | with_reducible assumption
    | with_reducible exact hg
    | intro _
    | with_reducible apply keep_mHdr (K.mono (by decide))
    | with_reducible apply keep_ite
    | split
    | (refine keep_with K hg ?_; intro g h; cases g <;> first | rfl | (cases h; done) | exact fun _ m => m | exact fun _ m => nomatch m)

theorem keep_pageIrqClear (K : Keeps 0x10 P) (p : Nat) (v : W32) {s : State} (hg : P s) : P (pageIrqClear p v s) := by
  unfold pageIrqClear
  repeat' first
    | with_reducible assumption
    | with_reducible exact hg
    | intro _
    | with_reducible apply keep_mHdr (K.mono (by decide))
    | (refine keep_with K hg ?_; intro g h; cases g <;> first | rfl | (cases h; done) | exact fun _ m => m | exact fun _ m => nomatch m)

theorem keep_pageIrqMaskWrite (K : Keeps 0x50 P) (p : Nat) (v : W32) {s : State} (hg : P s) : P (pageIrqMaskWrite p v s) := by
  unfold pageIrqMaskWrite
  repeat' first
    | with_reducible assumption
    | with_reducible exact hg
    | intro _
    | with_reducible apply keep_mHdr (K.mono (by decide))
    | with_reducible apply keep_raiseVec (K.mono (by decide))
    | with_reducible apply keep_ite
    | split
    | (refine keep_with K hg ?_; intro g h; cases g <;> first | rfl | (cases h; done) | exact fun _ m => m | exact fun _ m => nomatch m)
    | dsimp only

end Sys2Proof.Laws
end

