-- ==== Sys2Proof/Laws/FrameConfigBus.lean ====
section
/-! SUPPORT. Laws/FrameConfigBus.lean: the operations of Machine/ConfigBus.lean change no more than they may. -/

namespace Sys2Proof.Laws

open Sys2Proof.Machine

variable {P : State → Prop} {s : State}

theorem keep_guarded (K : Keeps 0x2000150 P) (W : Stores P) (p : Nat) (ok : Bool) {f : State → State} {s : State} (hf : ∀ t, P t → P (f t)) (hg : P s) :
    P (guarded p ok f s) := by
  unfold guarded
  split
  · exact hf s hg
  · exact keep_pageErr (K.mono (by decide)) W _ _ hg

theorem keep_areaPut (K : Keeps 0x2000150 P) (W : Stores P) (p kind : Nat) (ok : Bool) (base len : W64) {f : State → State} {s : State}
    (hf : ∀ t, P t → P (f t)) (hg : P s) : P (areaPut p kind ok base len f s) :=
  keep_guarded (K.mono (by decide)) W p _ hf hg

theorem keep_ringArea (K : Keeps 0x2000550 P) (W : Stores P) (f : Ring → Ring) {s : State} (hg : P s) : P (ringArea f s) := by
  unfold ringArea
  repeat' first
    | with_reducible assumption
    | with_reducible apply keep_mRing (K.mono (by decide))
    | with_reducible apply keep_pageErr (K.mono (by decide)) W
    | with_reducible apply keep_ite
    | split

theorem keep_wideLow (K : Keeps 0x67fef54 P) (W : Stores P) (s : State) (p off : Nat) : KeepW P (wideLow s p off) := by
  unfold wideLow
  repeat' first
    | with_reducible assumption
    | intro _
    | exact keepW_none
    | with_reducible apply keepW_some
    | with_reducible apply keep_ringArea (K.mono (by decide)) W
    | with_reducible apply keep_mSes (K.mono (by decide))
    | with_reducible apply keep_areaPut (K.mono (by decide)) W
    | with_reducible apply keep_depositEntryWrite (K.mono (by decide)) W
    | with_reducible apply keep_finEntryCommit (K.mono (by decide)) W
    | with_reducible apply keep_mFin (K.mono (by decide))
    | with_reducible apply keep_rowEntryCommit (K.mono (by decide)) W
    | with_reducible apply keep_mRow (K.mono (by decide))
    | with_reducible apply keep_mGas (K.mono (by decide))
    | with_reducible apply keep_bucketEntryCommit (K.mono (by decide)) W
    | with_reducible apply keep_pageErr (K.mono (by decide)) W
    | with_reducible apply keep_ite
    | split

theorem keep_wideHigh (K : Keeps 0x6380150 P) (W : Stores P) (s : State) (p off : Nat) : KeepW P (wideHigh s p off) := by
  unfold wideHigh
  repeat' first
    | with_reducible assumption
    | intro _
    | exact keepW_none
    | with_reducible apply keepW_some
    | with_reducible apply keep_areaPut (K.mono (by decide)) W
    | with_reducible apply keep_mOpt (K.mono (by decide))
    | with_reducible apply keep_spxEntryCommit (K.mono (by decide)) W
    | with_reducible apply keep_mSpx (K.mono (by decide))
    | with_reducible apply keep_stashCfgWrite (K.mono (by decide)) W
    | with_reducible apply keep_segmentWrite (K.mono (by decide)) W
    | with_reducible apply keep_mSyn (K.mono (by decide))
    | with_reducible apply keep_mRru (K.mono (by decide))
    | with_reducible apply keep_eccLogClear (K.mono (by decide))
    | with_reducible apply keep_mFlt (K.mono (by decide))
    | with_reducible apply keep_ite
    | split

theorem keep_wide (K : Keeps 0x67fef54 P) (W : Stores P) (s : State) (p off : Nat) : KeepW P (wide s p off) := by
  unfold wide
  split
  · exact keep_wideLow (K.mono (by decide)) W s p off
  · exact keep_wideHigh (K.mono (by decide)) W s p off

theorem keep_vecMaskWrite (K : Keeps 0x400 P) (n : Nat) (v : W32) {s : State} (hg : P s) : P (vecMaskWrite n v s) := by
  unfold vecMaskWrite
  repeat' first
    | with_reducible assumption
    | with_reducible exact hg
    | intro _
    | with_reducible apply keep_mQue (K.mono (by decide))
    | with_reducible apply keep_foldl
    | with_reducible apply keep_ite
    | split
    | (refine keep_with K hg ?_; intro g h; cases g <;> first | rfl | (cases h; done) | exact fun _ m => m | exact fun _ m => nomatch m)
    | dsimp only

theorem keep_tplCmd (K : Keeps 0x2001150 P) (W : Stores P) (v : W32) {s : State} (hg : P s) : P (tplCmd v s) := by
  unfold tplCmd
  repeat' first
    | with_reducible assumption
    | with_reducible exact hg
    | intro _
    | with_reducible apply keep_tplInstall (K.mono (by decide)) W
    | with_reducible apply keep_tplRead (K.mono (by decide))
    | with_reducible apply keep_tplInvalidate (K.mono (by decide)) W
    | with_reducible apply keep_ite
    | split
    | dsimp only

theorem keep_writeLow (K : Keeps 0x67fff54 P) (W : Stores P) {s : State} (p off : Nat) (v : W32) (hg : P s) : KeepO P (writeLow s p off v) := by
  unfold writeLow
  repeat' first
    | with_reducible assumption
    | with_reducible exact hg
    | exact keepO_none
    | with_reducible apply keepO_some
    | with_reducible apply keepO_ite
    | with_reducible apply keepO_map
    | intro _
    | with_reducible apply keep_mCtl (K.mono (by decide))
    | with_reducible apply keep_empTimingWrite (K.mono (by decide)) W
    | with_reducible apply keep_guarded (K.mono (by decide)) W
    | with_reducible apply keep_ucodeDataWrite (K.mono (by decide)) W
    | with_reducible apply keep_csqCtlWrite (K.mono (by decide)) W
    | with_reducible apply keep_mQue (K.mono (by decide))
    | with_reducible apply keep_ringCfgWrite (K.mono (by decide)) W
    | with_reducible apply keep_vecMaskWrite (K.mono (by decide))
    | with_reducible apply keep_mTpl (K.mono (by decide))
    | with_reducible apply keep_tplCmd (K.mono (by decide)) W
    | with_reducible apply keep_mSes (K.mono (by decide))
    | with_reducible apply keep_regionEntryWrite (K.mono (by decide)) W
    | with_reducible apply keep_mTrk (K.mono (by decide))
    | with_reducible apply keep_redFailLogClear (K.mono (by decide))
    | with_reducible apply keep_mRed (K.mono (by decide))
    | with_reducible apply keep_entryIndexWrite (K.mono (by decide))
    | with_reducible apply keep_ite
    | split
    | (refine keep_with K hg ?_; intro g h; cases g <;> first | rfl | (cases h; done) | exact fun _ m => m | exact fun _ m => nomatch m)

theorem keep_writeMid (K : Keeps 0xeffef54 P) (W : Stores P) {s : State} (p off : Nat) (v : W32) (hg : P s) : KeepO P (writeMid s p off v) := by
  unfold writeMid
  repeat' first
    | with_reducible assumption
    | with_reducible exact hg
    | exact keepO_none
    | with_reducible apply keepO_some
    | with_reducible apply keepO_ite
    | with_reducible apply keepO_map
    | intro _
    | with_reducible apply keep_entryIndexWrite (K.mono (by decide))
    | with_reducible apply keep_guarded (K.mono (by decide)) W
    | with_reducible apply keep_mOpt (K.mono (by decide))
    | with_reducible apply keep_stepCtlWrite (K.mono (by decide)) W
    | with_reducible apply keep_mirrorTimeout (K.mono (by decide)) W
    | with_reducible apply keep_optEntryCommit (K.mono (by decide))
    | with_reducible apply keep_uprogWrite (K.mono (by decide)) W
    | with_reducible apply keep_mSyn (K.mono (by decide))
    | with_reducible apply keep_crownTimeout (K.mono (by decide)) W
    | with_reducible apply keep_resume (K.mono (by decide))
    | with_reducible apply keep_preempt (K.mono (by decide))
    | with_reducible apply keep_synDbgSelWrite (K.mono (by decide))
    | with_reducible apply keep_pageErr (K.mono (by decide)) W
    | with_reducible apply keep_ite
    | split
    | (refine keep_with K hg ?_; intro g h; cases g <;> first | rfl | (cases h; done) | exact fun _ m => m | exact fun _ m => nomatch m)
    | dsimp only

theorem keep_routeCtlWrite (K : Keeps 0x2e04150 P) (W : Stores P) (v : W32) {s : State} (hg : P s) : P (routeCtlWrite v s) := by
  unfold routeCtlWrite
  repeat' first
    | with_reducible assumption
    | with_reducible exact hg
    | intro _
    | with_reducible apply keep_guarded (K.mono (by decide)) W
    | with_reducible apply keep_mRtr (K.mono (by decide))
    | with_reducible apply keep_routeHold (K.mono (by decide))
    | with_reducible apply keep_routeHoldRelease (K.mono (by decide))
    | with_reducible apply keep_ite
    | split
    | (refine keep_with K hg ?_; intro g h; cases g <;> first | rfl | (cases h; done) | exact fun _ m => m | exact fun _ m => nomatch m)
    | dsimp only

theorem keep_weightWrite (K : Keeps 0x800000 P) (first n : Nat) (v : W32) {s : State} (hg : P s) : P (weightWrite first n v s) := by
  unfold weightWrite
  repeat' first
    | with_reducible assumption
    | with_reducible exact hg
    | intro _
    | with_reducible apply keep_mLnk (K.mono (by decide))
    | with_reducible apply keep_foldl
    | with_reducible apply keep_ite
    | split
    | (refine keep_with K hg ?_; intro g h; cases g <;> first | rfl | (cases h; done) | exact fun _ m => m | exact fun _ m => nomatch m)
    | dsimp only

theorem keep_retryCtlWrite (K : Keeps 0x800000 P) (v : W32) {s : State} (hg : P s) : P (retryCtlWrite v s) := by
  unfold retryCtlWrite
  repeat' first
    | with_reducible assumption
    | with_reducible exact hg
    | intro _
    | with_reducible apply keep_mLnk (K.mono (by decide))
    | with_reducible apply keep_ite
    | split
    | (refine keep_with K hg ?_; intro g h; cases g <;> first | rfl | (cases h; done) | exact fun _ m => m | exact fun _ m => nomatch m)
    | dsimp only

theorem keep_replayCtlWrite (K : Keeps 0x2000150 P) (W : Stores P) (v : W32) {s : State} (hg : P s) : P (replayCtlWrite v s) := by
  unfold replayCtlWrite
  repeat' first
    | with_reducible assumption
    | with_reducible exact hg
    | intro _
    | with_reducible apply keep_mRru (K.mono (by decide))
    | with_reducible apply keep_replayGo (K.mono (by decide)) W
    | with_reducible apply keep_replayStop (K.mono (by decide))
    | with_reducible apply keep_ite
    | split
    | (refine keep_with K hg ?_; intro g h; cases g <;> first | rfl | (cases h; done) | exact fun _ m => m | exact fun _ m => nomatch m)
    | dsimp only

theorem keep_recCmd (K : Keeps 0xe6def54 P) (W : Stores P) (op : Nat) {s : State} (hg : P s) : P (recCmd op s) := by
  unfold recCmd
  repeat' first
    | with_reducible assumption
    | with_reducible exact hg
    | intro _
    | with_reducible apply keep_adopt (K.mono (by decide)) W
    | with_reducible apply keep_returnGen (K.mono (by decide)) W
    | with_reducible apply keep_restore (K.mono (by decide)) W
    | with_reducible apply keep_seed (K.mono (by decide)) W
    | with_reducible apply keep_setGen (K.mono (by decide)) W
    | with_reducible apply keep_lost (K.mono (by decide)) W
    | with_reducible apply keep_remirror (K.mono (by decide)) W
    | with_reducible apply keep_pageErr (K.mono (by decide)) W
    | split
    | (refine keep_with K hg ?_; intro g h; cases g <;> first | rfl | (cases h; done) | exact fun _ m => m | exact fun _ m => nomatch m)

theorem keep_writeFabric (K : Keeps 0xfe84550 P) (W : Stores P) {s : State} (p off : Nat) (v : W32) (hg : P s) : KeepO P (writeFabric s p off v) := by
  unfold writeFabric
  repeat' first
    | with_reducible assumption
    | with_reducible exact hg
    | exact keepO_none
    | with_reducible apply keepO_some
    | with_reducible apply keepO_ite
    | with_reducible apply keepO_map
    | intro _
    | with_reducible apply keep_guarded (K.mono (by decide)) W
    | with_reducible apply keep_mRtr (K.mono (by decide))
    | with_reducible apply keep_routeCtlWrite (K.mono (by decide)) W
    | with_reducible apply keep_ringMapWrite (K.mono (by decide)) W
    | with_reducible apply keep_portMapWrite (K.mono (by decide)) W
    | with_reducible apply keep_mLnk (K.mono (by decide))
    | with_reducible apply keep_weightWrite (K.mono (by decide))
    | with_reducible apply keep_retryCtlWrite (K.mono (by decide))
    | with_reducible apply keep_portRetrain (K.mono (by decide)) W
    | with_reducible refine keep_mLsuQ (K.mono (by decide)) (fun _ _ m => by first | exact m | (simp at m; done) | (simp at m; exact m.1)) ?_
    | with_reducible apply keep_keyTimeout (K.mono (by decide)) W
    | with_reducible apply keep_authLogClear (K.mono (by decide))
    | with_reducible apply keep_ite
    | split
    | (refine keep_with K hg ?_; intro g h; cases g <;> first | rfl | (cases h; done) | exact fun _ m => m | exact fun _ m => nomatch m)

theorem keep_writeHigh (K : Keeps 0xfedef54 P) (W : Stores P) {s : State} (p off : Nat) (v : W32) (hg : P s) : KeepO P (writeHigh s p off v) := by
  unfold writeHigh
  repeat' first
    | with_reducible assumption
    | with_reducible exact hg
    | exact keepO_none
    | with_reducible apply keepO_some
    | with_reducible apply keepO_ite
    | with_reducible apply keepO_map
    | intro _
    | with_reducible apply keep_capCtlWrite (K.mono (by decide)) W
    | with_reducible apply keep_guarded (K.mono (by decide)) W
    | with_reducible apply keep_mRru (K.mono (by decide))
    | with_reducible apply keep_replayCtlWrite (K.mono (by decide)) W
    | with_reducible apply keep_mFlt (K.mono (by decide))
    | with_reducible apply keep_histCtlWrite (K.mono (by decide))
    | with_reducible apply keep_recCmd (K.mono (by decide)) W
    | with_reducible apply keep_recTimeout (K.mono (by decide)) W
    | with_reducible apply keep_injectArm (K.mono (by decide)) W
    | with_reducible apply keep_peakClr (K.mono (by decide))
    | with_reducible apply keep_mbxInDoorbell (K.mono (by decide))
    | with_reducible apply keep_mbxOutDbClear (K.mono (by decide))
    | with_reducible apply keep_mPwr (K.mono (by decide))
    | with_reducible apply keep_ite
    | split
    | (refine keep_with K hg ?_; intro g h; cases g <;> first | rfl | (cases h; done) | exact fun _ m => m | exact fun _ m => nomatch m)
    | dsimp only

theorem keep_writeHeader (K : Keeps 0x50 P) {s : State} (p off : Nat) (v : W32) (hg : P s) : P (writeHeader s p off v) := by
  unfold writeHeader
  repeat' first
    | with_reducible assumption
    | with_reducible exact hg
    | intro _
    | with_reducible apply keep_pageIrqClear (K.mono (by decide))
    | with_reducible apply keep_pageIrqMaskWrite (K.mono (by decide))
    | with_reducible apply keep_pageErrClear (K.mono (by decide))
    | with_reducible apply keep_mHdr (K.mono (by decide))
    | with_reducible apply keep_ite
    | split
    | (refine keep_with K hg ?_; intro g h; cases g <;> first | rfl | (cases h; done) | exact fun _ m => m | exact fun _ m => nomatch m)

theorem keep_writeNarrow (K : Keeps 0xfffff54 P) (W : Stores P) {s : State} (p off : Nat) (v : W32) (hg : P s) : KeepO P (writeNarrow s p off v) := by
  unfold writeNarrow
  repeat' first
    | with_reducible assumption
    | with_reducible exact hg
    | exact keepO_none
    | with_reducible apply keepO_some
    | with_reducible apply keepO_ite
    | with_reducible apply keepO_map
    | intro _
    | with_reducible apply keep_writeLow (K.mono (by decide)) W
    | with_reducible apply keep_writeMid (K.mono (by decide)) W
    | with_reducible apply keep_writeFabric (K.mono (by decide)) W
    | with_reducible apply keep_writeHigh (K.mono (by decide)) W
    | with_reducible apply keep_ite
    | split

theorem keep_dbgAddrWrite (K : Keeps 0x20000000 P) (v : W64) {s : State} (hg : P s) : P (dbgAddrWrite v s) := by
  unfold dbgAddrWrite
  repeat' first
    | with_reducible assumption
    | with_reducible exact hg
    | intro _
    | with_reducible apply keep_mDbg (K.mono (by decide))
    | (refine keep_with K hg ?_; intro g h; cases g <;> first | rfl | (cases h; done) | exact fun _ m => m | exact fun _ m => nomatch m)

theorem keep_writeHalf (K : Keeps 0x20 P) (a : Nat) (v : W32) (cur : W64) {put : W64 → State → State} {s : State}
    (hp : ∀ v t, P t → P (put v t)) (hg : P s) : P (writeHalf a v cur put s) := by
  unfold writeHalf
  split
  · (refine keep_with K hg ?_; intro g h; cases g <;> first | rfl | (cases h; done) | exact fun _ m => m | exact fun _ m => nomatch m)
  · exact hp _ _ (keep_with K hg (by intro g h; cases g <;> first | rfl | (cases h; done) | exact fun _ m => m | exact fun _ m => nomatch m))

theorem keep_writePage (K : Keeps 0xfffff74 P) (W : Stores P) (a : Nat) (v : W32) {s : State} (hg : P s) : KeepO P (writePage a v s) := by
  unfold writePage
  dsimp only
  refine keepO_ite _ keepO_none (keepO_ite _ (keepO_some (keep_writeHeader (K.mono (by decide)) _ _ _ hg)) ?_)
  split
  · next cur put h => exact keepO_some (keep_writeHalf (K.mono (by decide)) _ _ _ ((keep_wide (K.mono (by decide)) W s _ _).use cur put h) hg)
  · split
    · next t h => exact keepO_some ((keep_writeNarrow (K.mono (by decide)) W _ _ _ hg).use t h)
    · exact keepO_ite _ (keepO_some hg) keepO_none

theorem keep_monTargetWrite (K : Keeps 0x200000 P) (c : Nat) (v : W64) {s : State} (hg : P s) : P (monTargetWrite c v s) := by
  unfold monTargetWrite
  repeat' first
    | with_reducible assumption
    | with_reducible exact hg
    | intro _
    | with_reducible apply keep_mMon (K.mono (by decide))
    | (refine keep_with K hg ?_; intro g h; cases g <;> first | rfl | (cases h; done) | exact fun _ m => m | exact fun _ m => nomatch m)

theorem keep_writeWindow (K : Keeps 0x2300d70 P) (W : Stores P) (who : Requester) (c a : Nat) (v : W32) {s : State} (hg : P s) : KeepO P (writeWindow who c a v s) := by
  unfold writeWindow
  repeat' first
    | with_reducible assumption
    | with_reducible exact hg
    | exact keepO_none
    | with_reducible apply keepO_some
    | with_reducible apply keepO_ite
    | with_reducible apply keepO_map
    | intro _
    | with_reducible apply keep_doorbell (K.mono (by decide)) W
    | with_reducible apply keep_denyWindow (K.mono (by decide)) W
    | with_reducible apply keep_stashRelease (K.mono (by decide)) W
    | with_reducible apply keep_mWin (K.mono (by decide))
    | with_reducible apply keep_windowSet (K.mono (by decide)) W
    | with_reducible apply keep_windowAdd (K.mono (by decide)) W
    | with_reducible apply keep_writeHalf (K.mono (by decide))
    | with_reducible apply keep_monitorArm (K.mono (by decide)) W
    | with_reducible apply keep_monTargetWrite (K.mono (by decide))
    | with_reducible apply keep_ite
    | split
    | (refine keep_with K hg ?_; intro g h; cases g <;> first | rfl | (cases h; done) | exact fun _ m => m | exact fun _ m => nomatch m)
    | dsimp only

theorem keep_debugWrite (K : Keeps 0x2e2c2970 P) (W : Stores P) (unlock : Bool) (off : Nat) (v : W32) {s0 : State} (hg : P s0) : P (debugWrite unlock off v s0) := by
  unfold debugWrite
  repeat' first
    | with_reducible assumption
    | with_reducible exact hg
    | intro _
    | with_reducible apply keep_sampleUnlock (K.mono (by decide))
    | with_reducible apply keep_writeHeader (K.mono (by decide))
    | with_reducible apply keep_debugFreezeRequest (K.mono (by decide))
    | with_reducible apply keep_debugFreezeEnd (K.mono (by decide)) W
    | with_reducible apply keep_dbgSelWrite (K.mono (by decide)) W
    | with_reducible apply keep_writeHalf (K.mono (by decide))
    | with_reducible apply keep_dbgAddrWrite (K.mono (by decide))
    | with_reducible apply keep_ite
    | split
    | (refine keep_with K hg ?_; intro g h; cases g <;> first | rfl | (cases h; done) | exact fun _ m => m | exact fun _ m => nomatch m)
    | dsimp only

theorem keep_denyPage (K : Keeps 0x2000150 P) (W : Stores P) (a : Nat) {s : State} (hg : P s) : P (denyPage a s) := by
  unfold denyPage
  repeat' first
    | with_reducible assumption
    | with_reducible exact hg
    | intro _
    | with_reducible apply keep_pageErr (K.mono (by decide)) W
    | with_reducible apply keep_ite
    | split

theorem keep_busWrite (K : Keeps 0x2fffff74 P) (W : Stores P) (who : Requester) (a : Nat) (v : W32) {s : State} (hg : P s) : P (busWrite who a v s).2 := by
  unfold busWrite
  repeat' first
    | with_reducible assumption
    | with_reducible exact hg
    | intro _
    | with_reducible apply keep_debugWrite (K.mono (by decide)) W
    | with_reducible apply keep_denyPage (K.mono (by decide)) W
    | with_reducible apply keep_writeWindow (K.mono (by decide)) W
    | with_reducible apply keep_writePage (K.mono (by decide)) W
    | with_reducible refine keepO_use ?_ (by assumption)
    | with_reducible apply keep_ite
    | split
    | (refine keep_with K hg ?_; intro g h; cases g <;> first | rfl | (cases h; done) | exact fun _ m => m | exact fun _ m => nomatch m)
    | dsimp only

theorem keep_configWrite (K : Keeps 0x2fffff74 P) (W : Stores P) (who : Requester) (a : Nat) (v : W32) {s : State} (hg : P s) : P (configWrite who a v s) := by
  unfold configWrite
  repeat' first
    | with_reducible assumption
    | with_reducible exact hg
    | intro _
    | with_reducible apply keep_busWrite (K.mono (by decide)) W
    | with_reducible apply keep_mDbg (K.mono (by decide))
    | (refine keep_with K hg ?_; intro g h; cases g <;> first | rfl | (cases h; done) | exact fun _ m => m | exact fun _ m => nomatch m)
    | dsimp only

end Sys2Proof.Laws
end

