-- ==== Sys2Proof/Laws/FrameSeu.lean ====
section
/-! SUPPORT. Laws/FrameSeu.lean: the operations of Machine/Seu.lean change no more than they may. -/

namespace Sys2Proof.Laws

open Sys2Proof.Machine

variable {P : State → Prop} {s : State}

end Sys2Proof.Laws
end

