-- ==== Sys2Proof/Laws/FrameTick.lean ====
section
/-! SUPPORT. Laws/FrameTick.lean: the operations of Machine/Tick.lean change no more than they may. -/

namespace Sys2Proof.Laws

open Sys2Proof.Machine

variable {P : State → Prop} {s : State}

theorem keep_endPulses (K : Keeps 0x11800800 P) {s : State} (hg : P s) : P (endPulses s) := by
  unfold endPulses
  repeat' first
    | with_reducible assumption
    | with_reducible exact hg
    | intro _
    | (refine keep_with K hg ?_; intro g h; cases g <;> first | rfl | (cases h; done) | exact fun _ m => m | exact fun _ m => nomatch m)
    | dsimp only

theorem keep_countCycles (K : Keeps 0xe7fef54 P) (W : Stores P) {s : State} (hg : P s) : P (countCycles s) := by
  unfold countCycles
  repeat' first
    | with_reducible assumption
    | with_reducible exact hg
    | intro _
    | with_reducible apply keep_mTrk (K.mono (by decide))
    | with_reducible apply keep_bump (K.mono (by decide))
    | with_reducible apply keep_mSes (K.mono (by decide))
    | with_reducible apply keep_mGas (K.mono (by decide))
    | with_reducible apply keep_mSpx (K.mono (by decide))
    | with_reducible apply keep_mRow (K.mono (by decide))
    | with_reducible apply keep_mPwr (K.mono (by decide))
    | with_reducible apply keep_ite
    | split
    | (refine keep_with K hg ?_; intro g h; cases g <;> first | rfl | (cases h; done) | exact fun _ m => m | exact fun _ m => nomatch m)
    | dsimp only

theorem keep_powerTick (K : Keeps 0x8000054 P) {s : State} (hg : P s) : P (powerTick s) := by
  unfold powerTick
  repeat' first
    | with_reducible assumption
    | with_reducible exact hg
    | intro _
    | with_reducible apply keep_mPwr (K.mono (by decide))
    | with_reducible apply keep_bump (K.mono (by decide))
    | with_reducible apply keep_ite
    | split
    | (refine keep_with K hg ?_; intro g h; cases g <;> first | rfl | (cases h; done) | exact fun _ m => m | exact fun _ m => nomatch m)
    | dsimp only

theorem keep_wdogTick (K : Keeps 0x200 P) {s : State} (hg : P s) : P (wdogTick s) := by
  unfold wdogTick
  repeat' first
    | with_reducible assumption
    | with_reducible exact hg
    | intro _
    | with_reducible apply keep_mCtl (K.mono (by decide))
    | with_reducible apply keep_ite
    | split
    | (refine keep_with K hg ?_; intro g h; cases g <;> first | rfl | (cases h; done) | exact fun _ m => m | exact fun _ m => nomatch m)

theorem keep_tickEdge (K : Keeps 0x8000256 P) {s : State} (hg : P s) : P (tickEdge s) := by
  unfold tickEdge
  repeat' first
    | with_reducible assumption
    | with_reducible exact hg
    | intro _
    | with_reducible apply keep_isoRelease (K.mono (by decide))
    | with_reducible apply keep_thrSample (K.mono (by decide))
    | with_reducible apply keep_wdogTick (K.mono (by decide))
    | with_reducible apply keep_powerTick (K.mono (by decide))
    | (refine keep_with K hg ?_; intro g h; cases g <;> first | rfl | (cases h; done) | exact fun _ m => m | exact fun _ m => nomatch m)

theorem keep_newPeriod (K : Keeps 0x2040100 P) {s : State} (hg : P s) : P (newPeriod s) := by
  unfold newPeriod
  repeat' first
    | with_reducible assumption
    | with_reducible exact hg
    | intro _
    | with_reducible apply keep_mEmp (K.mono (by decide))
    | with_reducible apply keep_mGas (K.mono (by decide))
    | with_reducible apply keep_mRru (K.mono (by decide))
    | (refine keep_with K hg ?_; intro g h; cases g <;> first | rfl | (cases h; done) | exact fun _ m => m | exact fun _ m => nomatch m)

theorem keep_idleCycle (K : Keeps 0x1fffef57 P) (W : Stores P) {s : State} (hg : P s) : P (idleCycle s) := by
  unfold idleCycle
  repeat' first
    | with_reducible assumption
    | with_reducible exact hg
    | intro _
    | with_reducible apply keep_endPulses (K.mono (by decide))
    | with_reducible apply keep_tickEdge (K.mono (by decide))
    | with_reducible apply keep_newPeriod (K.mono (by decide))
    | with_reducible apply keep_empIssue (K.mono (by decide))
    | with_reducible apply keep_empFlush (K.mono (by decide)) W
    | with_reducible apply keep_fireLink (K.mono (by decide)) W
    | with_reducible apply keep_releaseHeld (K.mono (by decide)) W
    | with_reducible apply keep_returnCycle (K.mono (by decide)) W
    | with_reducible apply keep_releaseExpired (K.mono (by decide)) W
    | with_reducible apply keep_writeHeld (K.mono (by decide))
    | with_reducible apply keep_takeMessage (K.mono (by decide))
    | with_reducible apply keep_countCycles (K.mono (by decide)) W
    | with_reducible apply keep_ite
    | split
    | (refine keep_with K hg ?_; intro g h; cases g <;> first | rfl | (cases h; done) | exact fun _ m => m | exact fun _ m => nomatch m)
    | dsimp only

end Sys2Proof.Laws
end

