-- ==== Sys2Proof/Laws/FrameExec.lean ====
section
/-! SUPPORT. Laws/FrameExec.lean: what each command may change: a property that does not depend on the parts the command may
change lives on in the next state. -/

namespace Sys2Proof.Laws

open Sys2Proof.Machine

variable {P : State → Prop}

theorem keep_execTailTransfer (K : Keeps 0xe000950 P) (W : Stores P) (port : Fin 64) (word : W64) (ecc : Ecc) (s : State) {t : State} (hg : P s) (h : execTailTransfer port word ecc s = .next t) :
    P t := by
  unfold execTailTransfer at h
  repeat' first
    | with_reducible exact hg
    | (with_reducible cases h; done)
    | split at h
    | (injection h with h; subst h)
    | with_reducible apply keep_tailTransfer (K.mono (by decide)) W
    | with_reducible apply keep_ite
    | (refine keep_with K hg ?_; intro g h; cases g <;> first | rfl | (cases h; done) | exact fun _ m => m | exact fun _ m => nomatch m)

theorem keep_execCdataBeat (K : Keeps 0xe7def54 P) (W : Stores P) (port : Fin 64) (beat : BitVec 512) (last : Bool) (ecc : Ecc) (s : State) {t : State} (hg : P s) (h : execCdataBeat port beat last ecc s = .next t) :
    P t := by
  unfold execCdataBeat at h
  repeat' first
    | with_reducible exact hg
    | (with_reducible cases h; done)
    | split at h
    | (injection h with h; subst h)
    | with_reducible apply keep_cdataBeat (K.mono (by decide)) W
    | with_reducible apply keep_ite
    | (refine keep_with K hg ?_; intro g h; cases g <;> first | rfl | (cases h; done) | exact fun _ m => m | exact fun _ m => nomatch m)

theorem keep_execDdataDeposit (K : Keeps 0xe2c2950 P) (W : Stores P) (port : Fin 64) (header : W64) (beat : BitVec 512) (ecc : Ecc) (s : State) {t : State} (hg : P s) (h : execDdataDeposit port header beat ecc s = .next t) :
    P t := by
  unfold execDdataDeposit at h
  repeat' first
    | with_reducible exact hg
    | (with_reducible cases h; done)
    | split at h
    | (injection h with h; subst h)
    | with_reducible apply keep_deposit (K.mono (by decide)) W
    | with_reducible apply keep_ite
    | (refine keep_with K hg ?_; intro g h; cases g <;> first | rfl | (cases h; done) | exact fun _ m => m | exact fun _ m => nomatch m)

theorem keep_execOdataTransfer (K : Keeps 0x800 P) (port : Fin 64) (s : State) {t : State} (hg : P s) (h : execOdataTransfer port s = .next t) :
    P t := by
  unfold execOdataTransfer at h
  repeat' first
    | with_reducible exact hg
    | (with_reducible cases h; done)
    | split at h
    | (injection h with h; subst h)
    | with_reducible apply keep_odataTransfer (K.mono (by decide))
    | with_reducible apply keep_ite
    | (refine keep_with K hg ?_; intro g h; cases g <;> first | rfl | (cases h; done) | exact fun _ m => m | exact fun _ m => nomatch m)

theorem keep_execIntakeSlot (K : Keeps 0xefdef54 P) (W : Stores P) (s : State) {t : State} (hg : P s) (h : execIntakeSlot s = .next t) :
    P t := by
  unfold execIntakeSlot at h
  repeat' first
    | with_reducible exact hg
    | (with_reducible cases h; done)
    | split at h
    | (injection h with h; subst h)
    | with_reducible apply keep_intakeSlot (K.mono (by decide)) W
    | with_reducible apply keep_ite
    | (refine keep_with K hg ?_; intro g h; cases g <;> first | rfl | (cases h; done) | exact fun _ m => m | exact fun _ m => nomatch m)

theorem keep_execExpertDispatchRoute (K : Keeps 0x2100 P) (slot : Fin 4096) (s : State) {t : State} (hg : P s) (h : execExpertDispatchRoute slot s = .next t) :
    P t := by
  unfold execExpertDispatchRoute at h
  repeat' first
    | with_reducible exact hg
    | (with_reducible cases h; done)
    | split at h
    | (injection h with h; subst h)
    | with_reducible apply keep_expertDispatchRoute (K.mono (by decide))
    | with_reducible apply keep_ite
    | (refine keep_with K hg ?_; intro g h; cases g <;> first | rfl | (cases h; done) | exact fun _ m => m | exact fun _ m => nomatch m)

theorem keep_execChunkIssue (K : Keeps 0x67def54 P) (W : Stores P) (s : State) {t : State} (hg : P s) (h : execChunkIssue s = .next t) :
    P t := by
  unfold execChunkIssue at h
  repeat' first
    | with_reducible exact hg
    | (with_reducible cases h; done)
    | split at h
    | (injection h with h; subst h)
    | with_reducible apply keep_chunkIssue (K.mono (by decide)) W
    | with_reducible apply keep_ite
    | (refine keep_with K hg ?_; intro g h; cases g <;> first | rfl | (cases h; done) | exact fun _ m => m | exact fun _ m => nomatch m)

theorem keep_execTagExhausted (K : Keeps 0x67def54 P) (W : Stores P) (s : State) {t : State} (hg : P s) (h : execTagExhausted s = .next t) :
    P t := by
  unfold execTagExhausted at h
  repeat' first
    | with_reducible exact hg
    | (with_reducible cases h; done)
    | split at h
    | (injection h with h; subst h)
    | with_reducible apply keep_tagExhausted (K.mono (by decide)) W
    | with_reducible apply keep_ite
    | (refine keep_with K hg ?_; intro g h; cases g <;> first | rfl | (cases h; done) | exact fun _ m => m | exact fun _ m => nomatch m)

theorem keep_execChunkRetire (K : Keeps 0x67def54 P) (W : Stores P) (tag : Fin 65536) (s : State) {t : State} (hg : P s) (h : execChunkRetire tag s = .next t) :
    P t := by
  unfold execChunkRetire at h
  repeat' first
    | with_reducible exact hg
    | (with_reducible cases h; done)
    | split at h
    | (injection h with h; subst h)
    | with_reducible apply keep_chunkRetire (K.mono (by decide)) W
    | with_reducible apply keep_ite
    | (refine keep_with K hg ?_; intro g h; cases g <;> first | rfl | (cases h; done) | exact fun _ m => m | exact fun _ m => nomatch m)

theorem keep_execMsixRequest (K : Keeps 0x40 P) (vec : Fin 262) (s : State) {t : State} (hg : P s) (h : execMsixRequest vec s = .next t) :
    P t := by
  unfold execMsixRequest at h
  repeat' first
    | with_reducible exact hg
    | (with_reducible cases h; done)
    | split at h
    | (injection h with h; subst h)
    | with_reducible apply keep_msixRequest (K.mono (by decide))
    | with_reducible apply keep_ite
    | (refine keep_with K hg ?_; intro g h; cases g <;> first | rfl | (cases h; done) | exact fun _ m => m | exact fun _ m => nomatch m)

theorem keep_execMsixAck (K : Keeps 0x40 P) (s : State) {t : State} (hg : P s) (h : execMsixAck s = .next t) :
    P t := by
  unfold execMsixAck at h
  repeat' first
    | with_reducible exact hg
    | (with_reducible cases h; done)
    | split at h
    | (injection h with h; subst h)
    | with_reducible apply keep_ite
    | (refine keep_with K hg ?_; intro g h; cases g <;> first | rfl | (cases h; done) | exact fun _ m => m | exact fun _ m => nomatch m)

theorem keep_execCsqWdogKick (K : Keeps 0x8000250 P) (s : State) {t : State} (hg : P s) (h : execCsqWdogKick s = .next t) :
    P t := by
  unfold execCsqWdogKick at h
  repeat' first
    | with_reducible exact hg
    | (with_reducible cases h; done)
    | split at h
    | (injection h with h; subst h)
    | with_reducible apply keep_csqWdogKick (K.mono (by decide))
    | with_reducible apply keep_holdAccess (K.mono (by decide))
    | with_reducible apply keep_ite
    | (refine keep_with K hg ?_; intro g h; cases g <;> first | rfl | (cases h; done) | exact fun _ m => m | exact fun _ m => nomatch m)

theorem keep_execCsqWatchdog (K : Keeps 0x2000350 P) (W : Stores P) (s : State) {t : State} (hg : P s) (h : execCsqWatchdog s = .next t) :
    P t := by
  unfold execCsqWatchdog at h
  repeat' first
    | with_reducible exact hg
    | (with_reducible cases h; done)
    | split at h
    | (injection h with h; subst h)
    | with_reducible apply keep_csqWatchdog (K.mono (by decide)) W
    | with_reducible apply keep_ite
    | (refine keep_with K hg ?_; intro g h; cases g <;> first | rfl | (cases h; done) | exact fun _ m => m | exact fun _ m => nomatch m)

theorem keep_execSequencerResume (K : Keeps 0x200 P) (s : State) {t : State} (hg : P s) (h : execSequencerResume s = .next t) :
    P t := by
  unfold execSequencerResume at h
  repeat' first
    | with_reducible exact hg
    | (with_reducible cases h; done)
    | split at h
    | (injection h with h; subst h)
    | with_reducible apply keep_sequencerResume (K.mono (by decide))
    | with_reducible apply keep_ite
    | (refine keep_with K hg ?_; intro g h; cases g <;> first | rfl | (cases h; done) | exact fun _ m => m | exact fun _ m => nomatch m)

theorem keep_execRdataReturn (K : Keeps 0xe7def54 P) (W : Stores P) (tag : EmpTag) (poison : Byte) (ecc : Ecc) (s : State) {t : State} (hg : P s) (h : execRdataReturn tag poison ecc s = .next t) :
    P t := by
  unfold execRdataReturn at h
  repeat' first
    | with_reducible exact hg
    | (with_reducible cases h; done)
    | split at h
    | (injection h with h; subst h)
    | with_reducible apply keep_rdataReturn (K.mono (by decide)) W
    | with_reducible apply keep_ite
    | (refine keep_with K hg ?_; intro g h; cases g <;> first | rfl | (cases h; done) | exact fun _ m => m | exact fun _ m => nomatch m)

theorem keep_execWackReturn (K : Keeps 0xe7def54 P) (W : Stores P) (tag : EmpTag) (s : State) {t : State} (hg : P s) (h : execWackReturn tag s = .next t) :
    P t := by
  unfold execWackReturn at h
  repeat' first
    | with_reducible exact hg
    | (with_reducible cases h; done)
    | split at h
    | (injection h with h; subst h)
    | with_reducible apply keep_wackReturn (K.mono (by decide)) W
    | with_reducible apply keep_ite
    | (refine keep_with K hg ?_; intro g h; cases g <;> first | rfl | (cases h; done) | exact fun _ m => m | exact fun _ m => nomatch m)

theorem keep_execSchedModeLost (K : Keeps 0x2000350 P) (W : Stores P) (cause : SchedCause) (s : State) {t : State} (hg : P s) (h : execSchedModeLost cause s = .next t) :
    P t := by
  unfold execSchedModeLost at h
  repeat' first
    | with_reducible exact hg
    | (with_reducible cases h; done)
    | split at h
    | (injection h with h; subst h)
    | with_reducible apply keep_schedModeLost (K.mono (by decide)) W
    | with_reducible apply keep_ite
    | (refine keep_with K hg ?_; intro g h; cases g <;> first | rfl | (cases h; done) | exact fun _ m => m | exact fun _ m => nomatch m)

theorem keep_execEmpTimingWrite (K : Keeps 0xe7def54 P) (W : Stores P) (value : W32) (s : State) {t : State} (hg : P s) (h : execEmpTimingWrite value s = .next t) :
    P t := by
  unfold execEmpTimingWrite at h
  repeat' first
    | with_reducible exact hg
    | (with_reducible cases h; done)
    | split at h
    | (injection h with h; subst h)
    | with_reducible apply keep_empTimingWrite (K.mono (by decide)) W
    | with_reducible apply keep_holdAccess (K.mono (by decide))
    | with_reducible apply keep_ite
    | (refine keep_with K hg ?_; intro g h; cases g <;> first | rfl | (cases h; done) | exact fun _ m => m | exact fun _ m => nomatch m)

theorem keep_execConfigWrite (K : Keeps 0x2fffff74 P) (W : Stores P) (who : Requester) (word : BitVec 22) (value : W32) (s : State) {t : State} (hg : P s) (h : execConfigWrite who word value s = .next t) :
    P t := by
  unfold execConfigWrite at h
  repeat' first
    | with_reducible exact hg
    | (with_reducible cases h; done)
    | split at h
    | (injection h with h; subst h)
    | with_reducible apply keep_configWrite (K.mono (by decide)) W
    | with_reducible apply keep_holdAccess (K.mono (by decide))
    | with_reducible apply keep_ite
    | (refine keep_with K hg ?_; intro g h; cases g <;> first | rfl | (cases h; done) | exact fun _ m => m | exact fun _ m => nomatch m)

theorem keep_execMbxInDoorbell (K : Keeps 0x8000000 P) (value : W32) (s : State) {t : State} (hg : P s) (h : execMbxInDoorbell value s = .next t) :
    P t := by
  unfold execMbxInDoorbell at h
  repeat' first
    | with_reducible exact hg
    | (with_reducible cases h; done)
    | split at h
    | (injection h with h; subst h)
    | with_reducible apply keep_mbxInDoorbell (K.mono (by decide))
    | with_reducible apply keep_ite
    | (refine keep_with K hg ?_; intro g h; cases g <;> first | rfl | (cases h; done) | exact fun _ m => m | exact fun _ m => nomatch m)

theorem keep_execMbxOutDbClear (K : Keeps 0x8000000 P) (value : W32) (s : State) {t : State} (hg : P s) (h : execMbxOutDbClear value s = .next t) :
    P t := by
  unfold execMbxOutDbClear at h
  repeat' first
    | with_reducible exact hg
    | (with_reducible cases h; done)
    | split at h
    | (injection h with h; subst h)
    | with_reducible apply keep_mbxOutDbClear (K.mono (by decide))
    | with_reducible apply keep_ite
    | (refine keep_with K hg ?_; intro g h; cases g <;> first | rfl | (cases h; done) | exact fun _ m => m | exact fun _ m => nomatch m)

theorem keep_execKeyLoad (K : Keeps 0x41c04000 P) (slot : Fin 40) (key : BitVec 256) (fixed : W32) (s : State) {t : State} (hg : P s) (h : execKeyLoad slot key fixed s = .next t) :
    P t := by
  unfold execKeyLoad at h
  repeat' first
    | with_reducible exact hg
    | (with_reducible cases h; done)
    | split at h
    | (injection h with h; subst h)
    | with_reducible apply keep_keyLoad (K.mono (by decide))
    | with_reducible apply keep_ite
    | (refine keep_with K hg ?_; intro g h; cases g <;> first | rfl | (cases h; done) | exact fun _ m => m | exact fun _ m => nomatch m)

theorem keep_execKeyReq (K : Keeps 0x800000 P) (port : Fin 10) (dir : Dir) (s : State) {t : State} (hg : P s) (h : execKeyReq port dir s = .next t) :
    P t := by
  unfold execKeyReq at h
  repeat' first
    | with_reducible exact hg
    | (with_reducible cases h; done)
    | split at h
    | (injection h with h; subst h)
    | with_reducible apply keep_keyReq (K.mono (by decide))
    | with_reducible apply keep_ite
    | (refine keep_with K hg ?_; intro g h; cases g <;> first | rfl | (cases h; done) | exact fun _ m => m | exact fun _ m => nomatch m)

theorem keep_execKeyTimeout (K : Keeps 0xfe84550 P) (W : Stores P) (port : Fin 10) (dir : Dir) (s : State) {t : State} (hg : P s) (h : execKeyTimeout port dir s = .next t) :
    P t := by
  unfold execKeyTimeout at h
  repeat' first
    | with_reducible exact hg
    | (with_reducible cases h; done)
    | split at h
    | (injection h with h; subst h)
    | with_reducible apply keep_keyTimeout (K.mono (by decide)) W
    | with_reducible apply keep_ite
    | (refine keep_with K hg ?_; intro g h; cases g <;> first | rfl | (cases h; done) | exact fun _ m => m | exact fun _ m => nomatch m)

theorem keep_execZeroise (K : Keeps 0xfe84550 P) (W : Stores P) (s : State) {t : State} (hg : P s) (h : execZeroise s = .next t) :
    P t := by
  unfold execZeroise at h
  repeat' first
    | with_reducible exact hg
    | (with_reducible cases h; done)
    | split at h
    | (injection h with h; subst h)
    | with_reducible apply keep_zeroise (K.mono (by decide)) W
    | with_reducible apply keep_ite
    | (refine keep_with K hg ?_; intro g h; cases g <;> first | rfl | (cases h; done) | exact fun _ m => m | exact fun _ m => nomatch m)

theorem keep_execAttMessage (K : Keeps 0xfe84550 P) (W : Stores P) (port : Fin 10) (msg : Byte) (bytes : List Byte) (s : State) {t : State} (hg : P s) (h : execAttMessage port msg bytes s = .next t) :
    P t := by
  unfold execAttMessage at h
  repeat' first
    | with_reducible exact hg
    | (with_reducible cases h; done)
    | split at h
    | (injection h with h; subst h)
    | with_reducible apply keep_attMessage (K.mono (by decide)) W
    | with_reducible apply keep_ite
    | (refine keep_with K hg ?_; intro g h; cases g <;> first | rfl | (cases h; done) | exact fun _ m => m | exact fun _ m => nomatch m)

theorem keep_execAttestationFlit (K : Keeps 0xfe84550 P) (W : Stores P) (port : Fin 10) (flit : PhyFlit) (s : State) {t : State} (hg : P s) (h : execAttestationFlit port flit s = .next t) :
    P t := by
  unfold execAttestationFlit at h
  repeat' first
    | with_reducible exact hg
    | (with_reducible cases h; done)
    | split at h
    | (injection h with h; subst h)
    | with_reducible apply keep_attestationFlit (K.mono (by decide)) W
    | with_reducible apply keep_ite
    | (refine keep_with K hg ?_; intro g h; cases g <;> first | rfl | (cases h; done) | exact fun _ m => m | exact fun _ m => nomatch m)

theorem keep_execAttestTimeout (K : Keeps 0xfe84550 P) (W : Stores P) (port : Fin 10) (s : State) {t : State} (hg : P s) (h : execAttestTimeout port s = .next t) :
    P t := by
  unfold execAttestTimeout at h
  repeat' first
    | with_reducible exact hg
    | (with_reducible cases h; done)
    | split at h
    | (injection h with h; subst h)
    | with_reducible apply keep_attestTimeout (K.mono (by decide)) W
    | with_reducible apply keep_ite
    | (refine keep_with K hg ?_; intro g h; cases g <;> first | rfl | (cases h; done) | exact fun _ m => m | exact fun _ m => nomatch m)

theorem keep_execDozeRequest (K : Keeps 0x8000050 P) (s : State) {t : State} (hg : P s) (h : execDozeRequest s = .next t) :
    P t := by
  unfold execDozeRequest at h
  repeat' first
    | with_reducible exact hg
    | (with_reducible cases h; done)
    | split at h
    | (injection h with h; subst h)
    | with_reducible apply keep_dozeRequest (K.mono (by decide))
    | with_reducible apply keep_ite
    | (refine keep_with K hg ?_; intro g h; cases g <;> first | rfl | (cases h; done) | exact fun _ m => m | exact fun _ m => nomatch m)

theorem keep_execSleepRequest (K : Keeps 0x8000050 P) (s : State) {t : State} (hg : P s) (h : execSleepRequest s = .next t) :
    P t := by
  unfold execSleepRequest at h
  repeat' first
    | with_reducible exact hg
    | (with_reducible cases h; done)
    | split at h
    | (injection h with h; subst h)
    | with_reducible apply keep_sleepRequest (K.mono (by decide))
    | with_reducible apply keep_ite
    | (refine keep_with K hg ?_; intro g h; cases g <;> first | rfl | (cases h; done) | exact fun _ m => m | exact fun _ m => nomatch m)

theorem keep_execSleepEntryDone (K : Keeps 0x8000000 P) (s : State) {t : State} (hg : P s) (h : execSleepEntryDone s = .next t) :
    P t := by
  unfold execSleepEntryDone at h
  repeat' first
    | with_reducible exact hg
    | (with_reducible cases h; done)
    | split at h
    | (injection h with h; subst h)
    | with_reducible apply keep_sleepEntryDone (K.mono (by decide))
    | with_reducible apply keep_ite
    | (refine keep_with K hg ?_; intro g h; cases g <;> first | rfl | (cases h; done) | exact fun _ m => m | exact fun _ m => nomatch m)

theorem keep_execRunRequest (K : Keeps 0x8000050 P) (s : State) {t : State} (hg : P s) (h : execRunRequest s = .next t) :
    P t := by
  unfold execRunRequest at h
  repeat' first
    | with_reducible exact hg
    | (with_reducible cases h; done)
    | split at h
    | (injection h with h; subst h)
    | with_reducible apply keep_runRequest (K.mono (by decide))
    | with_reducible apply keep_ite
    | (refine keep_with K hg ?_; intro g h; cases g <;> first | rfl | (cases h; done) | exact fun _ m => m | exact fun _ m => nomatch m)

theorem keep_execWakeSource (K : Keeps 0x8000050 P) (cause : WakeFrom) (s : State) {t : State} (hg : P s) (h : execWakeSource cause s = .next t) :
    P t := by
  unfold execWakeSource at h
  repeat' first
    | with_reducible exact hg
    | (with_reducible cases h; done)
    | split at h
    | (injection h with h; subst h)
    | with_reducible apply keep_wakeSource (K.mono (by decide))
    | with_reducible apply keep_ite
    | (refine keep_with K hg ?_; intro g h; cases g <;> first | rfl | (cases h; done) | exact fun _ m => m | exact fun _ m => nomatch m)

theorem keep_execPwrGood (K : Keeps 0x8000000 P) (s : State) {t : State} (hg : P s) (h : execPwrGood s = .next t) :
    P t := by
  unfold execPwrGood at h
  repeat' first
    | with_reducible exact hg
    | (with_reducible cases h; done)
    | split at h
    | (injection h with h; subst h)
    | with_reducible apply keep_pwrGood (K.mono (by decide))
    | with_reducible apply keep_ite
    | (refine keep_with K hg ?_; intro g h; cases g <;> first | rfl | (cases h; done) | exact fun _ m => m | exact fun _ m => nomatch m)

theorem keep_execSleepWakeDone (K : Keeps 0x3fffff75 P) (W : Stores P) (s : State) {t : State} (hg : P s) (h : execSleepWakeDone s = .next t) :
    P t := by
  unfold execSleepWakeDone at h
  repeat' first
    | with_reducible exact hg
    | (with_reducible cases h; done)
    | split at h
    | (injection h with h; subst h)
    | with_reducible apply keep_sleepWakeDone (K.mono (by decide)) W
    | with_reducible apply keep_ite
    | (refine keep_with K hg ?_; intro g h; cases g <;> first | rfl | (cases h; done) | exact fun _ m => m | exact fun _ m => nomatch m)

theorem keep_execDozeWakeDone (K : Keeps 0x8000200 P) (s : State) {t : State} (hg : P s) (h : execDozeWakeDone s = .next t) :
    P t := by
  unfold execDozeWakeDone at h
  repeat' first
    | with_reducible exact hg
    | (with_reducible cases h; done)
    | split at h
    | (injection h with h; subst h)
    | with_reducible apply keep_dozeWakeDone (K.mono (by decide))
    | with_reducible apply keep_ite
    | (refine keep_with K hg ?_; intro g h; cases g <;> first | rfl | (cases h; done) | exact fun _ m => m | exact fun _ m => nomatch m)

theorem keep_execThrLimitChange (K : Keeps 0x8000000 P) (limit : Byte) (s : State) {t : State} (hg : P s) (h : execThrLimitChange limit s = .next t) :
    P t := by
  unfold execThrLimitChange at h
  repeat' first
    | with_reducible exact hg
    | (with_reducible cases h; done)
    | split at h
    | (injection h with h; subst h)
    | with_reducible apply keep_thrLimitChange (K.mono (by decide))
    | with_reducible apply keep_ite
    | (refine keep_with K hg ?_; intro g h; cases g <;> first | rfl | (cases h; done) | exact fun _ m => m | exact fun _ m => nomatch m)

theorem keep_execThrottleInForce (K : Keeps 0x8000000 P) (s : State) {t : State} (hg : P s) (h : execThrottleInForce s = .next t) :
    P t := by
  unfold execThrottleInForce at h
  repeat' first
    | with_reducible exact hg
    | (with_reducible cases h; done)
    | split at h
    | (injection h with h; subst h)
    | with_reducible apply keep_throttleInForce (K.mono (by decide))
    | with_reducible apply keep_ite
    | (refine keep_with K hg ?_; intro g h; cases g <;> first | rfl | (cases h; done) | exact fun _ m => m | exact fun _ m => nomatch m)

theorem keep_execPeakClr (K : Keeps 0x8000000 P) (value : W32) (s : State) {t : State} (hg : P s) (h : execPeakClr value s = .next t) :
    P t := by
  unfold execPeakClr at h
  repeat' first
    | with_reducible exact hg
    | (with_reducible cases h; done)
    | split at h
    | (injection h with h; subst h)
    | with_reducible apply keep_peakClr (K.mono (by decide))
    | with_reducible apply keep_ite
    | (refine keep_with K hg ?_; intro g h; cases g <;> first | rfl | (cases h; done) | exact fun _ m => m | exact fun _ m => nomatch m)

theorem keep_execRstColdN (K : Keeps 0x3fffff75 P) (W : Stores P) (s : State) {t : State} (hg : P s) (h : execRstColdN s = .next t) :
    P t := by
  unfold execRstColdN at h
  repeat' first
    | with_reducible exact hg
    | (with_reducible cases h; done)
    | split at h
    | (injection h with h; subst h)
    | with_reducible apply keep_assertReset (K.mono (by decide)) W
    | with_reducible apply keep_ite
    | (refine keep_with K hg ?_; intro g h; cases g <;> first | rfl | (cases h; done) | exact fun _ m => m | exact fun _ m => nomatch m)

theorem keep_execRstWarmN (K : Keeps 0x3fffff75 P) (W : Stores P) (s : State) {t : State} (hg : P s) (h : execRstWarmN s = .next t) :
    P t := by
  unfold execRstWarmN at h
  repeat' first
    | with_reducible exact hg
    | (with_reducible cases h; done)
    | split at h
    | (injection h with h; subst h)
    | with_reducible apply keep_assertReset (K.mono (by decide)) W
    | with_reducible apply keep_ite
    | (refine keep_with K hg ?_; intro g h; cases g <;> first | rfl | (cases h; done) | exact fun _ m => m | exact fun _ m => nomatch m)

theorem keep_execRstEngN (K : Keeps 0x3fffff75 P) (W : Stores P) (s : State) {t : State} (hg : P s) (h : execRstEngN s = .next t) :
    P t := by
  unfold execRstEngN at h
  repeat' first
    | with_reducible exact hg
    | (with_reducible cases h; done)
    | split at h
    | (injection h with h; subst h)
    | with_reducible apply keep_assertReset (K.mono (by decide)) W
    | with_reducible apply keep_ite
    | (refine keep_with K hg ?_; intro g h; cases g <;> first | rfl | (cases h; done) | exact fun _ m => m | exact fun _ m => nomatch m)

theorem keep_execRstDone (K : Keeps 0x1c000000 P) (s : State) {t : State} (hg : P s) (h : execRstDone s = .next t) :
    P t := by
  unfold execRstDone at h
  repeat' first
    | with_reducible exact hg
    | (with_reducible cases h; done)
    | split at h
    | (injection h with h; subst h)
    | with_reducible apply keep_rstDone (K.mono (by decide))
    | with_reducible apply keep_ite
    | (refine keep_with K hg ?_; intro g h; cases g <;> first | rfl | (cases h; done) | exact fun _ m => m | exact fun _ m => nomatch m)

theorem keep_execCtxRstReq (K : Keeps 0x127def54 P) (W : Stores P) (ctx : Fin 64) (s : State) {t : State} (hg : P s) (h : execCtxRstReq ctx s = .next t) :
    P t := by
  unfold execCtxRstReq at h
  repeat' first
    | with_reducible exact hg
    | (with_reducible cases h; done)
    | split at h
    | (injection h with h; subst h)
    | with_reducible apply keep_ctxRstReq (K.mono (by decide)) W
    | with_reducible apply keep_ite
    | (refine keep_with K hg ?_; intro g h; cases g <;> first | rfl | (cases h; done) | exact fun _ m => m | exact fun _ m => nomatch m)

theorem keep_execCtxRstAck (K : Keeps 0x1c200400 P) (ctx : Fin 64) (s : State) {t : State} (hg : P s) (h : execCtxRstAck ctx s = .next t) :
    P t := by
  unfold execCtxRstAck at h
  repeat' first
    | with_reducible exact hg
    | (with_reducible cases h; done)
    | split at h
    | (injection h with h; subst h)
    | with_reducible apply keep_ctxRstAck (K.mono (by decide))
    | with_reducible apply keep_ite
    | (refine keep_with K hg ?_; intro g h; cases g <;> first | rfl | (cases h; done) | exact fun _ m => m | exact fun _ m => nomatch m)

theorem keep_execDebugFreezeRequest (K : Keeps 0x28000050 P) (source : FreezeSource) (s : State) {t : State} (hg : P s) (h : execDebugFreezeRequest source s = .next t) :
    P t := by
  unfold execDebugFreezeRequest at h
  repeat' first
    | with_reducible exact hg
    | (with_reducible cases h; done)
    | split at h
    | (injection h with h; subst h)
    | with_reducible apply keep_debugFreezeRequest (K.mono (by decide))
    | with_reducible apply keep_holdAccess (K.mono (by decide))
    | with_reducible apply keep_ite
    | (refine keep_with K hg ?_; intro g h; cases g <;> first | rfl | (cases h; done) | exact fun _ m => m | exact fun _ m => nomatch m)

theorem keep_execDebugFreezeDone (K : Keeps 0x20000050 P) (s : State) {t : State} (hg : P s) (h : execDebugFreezeDone s = .next t) :
    P t := by
  unfold execDebugFreezeDone at h
  repeat' first
    | with_reducible exact hg
    | (with_reducible cases h; done)
    | split at h
    | (injection h with h; subst h)
    | with_reducible apply keep_debugFreezeDone (K.mono (by decide))
    | with_reducible apply keep_ite
    | (refine keep_with K hg ?_; intro g h; cases g <;> first | rfl | (cases h; done) | exact fun _ m => m | exact fun _ m => nomatch m)

theorem keep_execDebugFreezeEnd (K : Keeps 0x2e2c2950 P) (W : Stores P) (source : FreezeSource) (s : State) {t : State} (hg : P s) (h : execDebugFreezeEnd source s = .next t) :
    P t := by
  unfold execDebugFreezeEnd at h
  repeat' first
    | with_reducible exact hg
    | (with_reducible cases h; done)
    | split at h
    | (injection h with h; subst h)
    | with_reducible apply keep_debugFreezeEnd (K.mono (by decide)) W
    | with_reducible apply keep_holdAccess (K.mono (by decide))
    | with_reducible apply keep_ite
    | (refine keep_with K hg ?_; intro g h; cases g <;> first | rfl | (cases h; done) | exact fun _ m => m | exact fun _ m => nomatch m)

theorem keep_execDbgSelWrite (K : Keeps 0x2a000150 P) (W : Stores P) (value : DbgWrite) (s : State) {t : State} (hg : P s) (h : execDbgSelWrite value s = .next t) :
    P t := by
  unfold execDbgSelWrite at h
  repeat' first
    | with_reducible exact hg
    | (with_reducible cases h; done)
    | split at h
    | (injection h with h; subst h)
    | with_reducible apply keep_dbgSelWrite (K.mono (by decide)) W
    | with_reducible apply keep_sampleUnlock (K.mono (by decide))
    | with_reducible apply keep_holdAccess (K.mono (by decide))
    | with_reducible apply keep_ite
    | (refine keep_with K hg ?_; intro g h; cases g <;> first | rfl | (cases h; done) | exact fun _ m => m | exact fun _ m => nomatch m)

theorem keep_execDbgDataRead (K : Keeps 0x2a000154 P) (W : Stores P) (high : DbgRead) (s : State) {t : State} (hg : P s) (h : execDbgDataRead high s = .next t) :
    P t := by
  unfold execDbgDataRead at h
  repeat' first
    | with_reducible exact hg
    | (with_reducible cases h; done)
    | split at h
    | (injection h with h; subst h)
    | with_reducible apply keep_dbgDataRead (K.mono (by decide)) W
    | with_reducible apply keep_sampleUnlock (K.mono (by decide))
    | with_reducible apply keep_holdAccess (K.mono (by decide))
    | with_reducible apply keep_ite
    | (refine keep_with K hg ?_; intro g h; cases g <;> first | rfl | (cases h; done) | exact fun _ m => m | exact fun _ m => nomatch m)

theorem keep_execRingMapWrite (K : Keeps 0xa400150 P) (W : Stores P) (value : W32) (s : State) {t : State} (hg : P s) (h : execRingMapWrite value s = .next t) :
    P t := by
  unfold execRingMapWrite at h
  repeat' first
    | with_reducible exact hg
    | (with_reducible cases h; done)
    | split at h
    | (injection h with h; subst h)
    | with_reducible apply keep_ringMapWrite (K.mono (by decide)) W
    | with_reducible apply keep_holdAccess (K.mono (by decide))
    | with_reducible apply keep_ite
    | (refine keep_with K hg ?_; intro g h; cases g <;> first | rfl | (cases h; done) | exact fun _ m => m | exact fun _ m => nomatch m)

theorem keep_execRouteHold (K : Keeps 0x8400050 P) (s : State) {t : State} (hg : P s) (h : execRouteHold s = .next t) :
    P t := by
  unfold execRouteHold at h
  repeat' first
    | with_reducible exact hg
    | (with_reducible cases h; done)
    | split at h
    | (injection h with h; subst h)
    | with_reducible apply keep_routeHold (K.mono (by decide))
    | with_reducible apply keep_holdAccess (K.mono (by decide))
    | with_reducible apply keep_ite
    | (refine keep_with K hg ?_; intro g h; cases g <;> first | rfl | (cases h; done) | exact fun _ m => m | exact fun _ m => nomatch m)

theorem keep_execHoldDone (K : Keeps 0x400000 P) (s : State) {t : State} (hg : P s) (h : execHoldDone s = .next t) :
    P t := by
  unfold execHoldDone at h
  repeat' first
    | with_reducible exact hg
    | (with_reducible cases h; done)
    | split at h
    | (injection h with h; subst h)
    | with_reducible apply keep_holdDone (K.mono (by decide))
    | with_reducible apply keep_ite
    | (refine keep_with K hg ?_; intro g h; cases g <;> first | rfl | (cases h; done) | exact fun _ m => m | exact fun _ m => nomatch m)

theorem keep_execRouteHoldRelease (K : Keeps 0x8e04050 P) (s : State) {t : State} (hg : P s) (h : execRouteHoldRelease s = .next t) :
    P t := by
  unfold execRouteHoldRelease at h
  repeat' first
    | with_reducible exact hg
    | (with_reducible cases h; done)
    | split at h
    | (injection h with h; subst h)
    | with_reducible apply keep_routeHoldRelease (K.mono (by decide))
    | with_reducible apply keep_holdAccess (K.mono (by decide))
    | with_reducible apply keep_ite
    | (refine keep_with K hg ?_; intro g h; cases g <;> first | rfl | (cases h; done) | exact fun _ m => m | exact fun _ m => nomatch m)

theorem keep_execHeaderRoute (K : Keeps 0xefdef54 P) (W : Stores P) (input : Fin 11) (s : State) {t : State} (hg : P s) (h : execHeaderRoute input s = .next t) :
    P t := by
  unfold execHeaderRoute at h
  repeat' first
    | with_reducible exact hg
    | (with_reducible cases h; done)
    | split at h
    | (injection h with h; subst h)
    | with_reducible apply keep_headerRoute (K.mono (by decide)) W
    | with_reducible apply keep_ite
    | (refine keep_with K hg ?_; intro g h; cases g <;> first | rfl | (cases h; done) | exact fun _ m => m | exact fun _ m => nomatch m)

theorem keep_execPhyLock (K : Keeps 0x800000 P) (port : Fin 10) (s : State) {t : State} (hg : P s) (h : execPhyLock port s = .next t) :
    P t := by
  unfold execPhyLock at h
  repeat' first
    | with_reducible exact hg
    | (with_reducible cases h; done)
    | split at h
    | (injection h with h; subst h)
    | with_reducible apply keep_phyLock (K.mono (by decide))
    | with_reducible apply keep_ite
    | (refine keep_with K hg ?_; intro g h; cases g <;> first | rfl | (cases h; done) | exact fun _ m => m | exact fun _ m => nomatch m)

theorem keep_execLinkLost (K : Keeps 0xfe84550 P) (W : Stores P) (port : Fin 10) (lock : Bool) (laneOk : W16) (s : State) {t : State} (hg : P s) (h : execLinkLost port lock laneOk s = .next t) :
    P t := by
  unfold execLinkLost at h
  repeat' first
    | with_reducible exact hg
    | (with_reducible cases h; done)
    | split at h
    | (injection h with h; subst h)
    | with_reducible apply keep_linkLost (K.mono (by decide)) W
    | with_reducible apply keep_ite
    | (refine keep_with K hg ?_; intro g h; cases g <;> first | rfl | (cases h; done) | exact fun _ m => m | exact fun _ m => nomatch m)

theorem keep_execTrainingFlit (K : Keeps 0xfe84550 P) (W : Stores P) (port : Fin 10) (flit : PhyFlit) (s : State) {t : State} (hg : P s) (h : execTrainingFlit port flit s = .next t) :
    P t := by
  unfold execTrainingFlit at h
  repeat' first
    | with_reducible exact hg
    | (with_reducible cases h; done)
    | split at h
    | (injection h with h; subst h)
    | with_reducible apply keep_trainingFlit (K.mono (by decide)) W
    | with_reducible apply keep_ite
    | (refine keep_with K hg ?_; intro g h; cases g <;> first | rfl | (cases h; done) | exact fun _ m => m | exact fun _ m => nomatch m)

theorem keep_execTrainingTimeout (K : Keeps 0xfe84550 P) (W : Stores P) (port : Fin 10) (s : State) {t : State} (hg : P s) (h : execTrainingTimeout port s = .next t) :
    P t := by
  unfold execTrainingTimeout at h
  repeat' first
    | with_reducible exact hg
    | (with_reducible cases h; done)
    | split at h
    | (injection h with h; subst h)
    | with_reducible apply keep_trainingTimeout (K.mono (by decide)) W
    | with_reducible apply keep_ite
    | (refine keep_with K hg ?_; intro g h; cases g <;> first | rfl | (cases h; done) | exact fun _ m => m | exact fun _ m => nomatch m)

theorem keep_execPortRetrain (K : Keeps 0xfe84550 P) (W : Stores P) (port : Fin 10) (value : W32) (s : State) {t : State} (hg : P s) (h : execPortRetrain port value s = .next t) :
    P t := by
  unfold execPortRetrain at h
  repeat' first
    | with_reducible exact hg
    | (with_reducible cases h; done)
    | split at h
    | (injection h with h; subst h)
    | with_reducible apply keep_portRetrain (K.mono (by decide)) W
    | with_reducible apply keep_holdAccess (K.mono (by decide))
    | with_reducible apply keep_ite
    | (refine keep_with K hg ?_; intro g h; cases g <;> first | rfl | (cases h; done) | exact fun _ m => m | exact fun _ m => nomatch m)

theorem keep_execPortMapWrite (K : Keeps 0xfe84550 P) (W : Stores P) (port : Fin 10) (value : W32) (s : State) {t : State} (hg : P s) (h : execPortMapWrite port value s = .next t) :
    P t := by
  unfold execPortMapWrite at h
  repeat' first
    | with_reducible exact hg
    | (with_reducible cases h; done)
    | split at h
    | (injection h with h; subst h)
    | with_reducible apply keep_portMapWrite (K.mono (by decide)) W
    | with_reducible apply keep_holdAccess (K.mono (by decide))
    | with_reducible apply keep_ite
    | (refine keep_with K hg ?_; intro g h; cases g <;> first | rfl | (cases h; done) | exact fun _ m => m | exact fun _ m => nomatch m)

theorem keep_execFlitReceive (K : Keeps 0xfe84550 P) (W : Stores P) (port : Fin 10) (flit : BitVec 1024) (frame : W32) (index : Fin 63) (uncorrectable : Bool) (fecCorr : Byte) (s : State) {t : State} (hg : P s) (h : execFlitReceive port flit frame index uncorrectable fecCorr s = .next t) :
    P t := by
  unfold execFlitReceive at h
  repeat' first
    | with_reducible exact hg
    | (with_reducible cases h; done)
    | split at h
    | (injection h with h; subst h)
    | with_reducible apply keep_flitReceive (K.mono (by decide)) W
    | with_reducible apply keep_ite
    | (refine keep_with K hg ?_; intro g h; cases g <;> first | rfl | (cases h; done) | exact fun _ m => m | exact fun _ m => nomatch m)

theorem keep_execLcfReceive (K : Keeps 0xfe84550 P) (W : Stores P) (port : Fin 10) (flit : PhyFlit) (uncorrectable : Bool) (s : State) {t : State} (hg : P s) (h : execLcfReceive port flit uncorrectable s = .next t) :
    P t := by
  unfold execLcfReceive at h
  repeat' first
    | with_reducible exact hg
    | (with_reducible cases h; done)
    | split at h
    | (injection h with h; subst h)
    | with_reducible apply keep_lcfReceive (K.mono (by decide)) W
    | with_reducible apply keep_ite
    | (refine keep_with K hg ?_; intro g h; cases g <;> first | rfl | (cases h; done) | exact fun _ m => m | exact fun _ m => nomatch m)

theorem keep_execLcfSend (K : Keeps 0xec84150 P) (W : Stores P) (port : Fin 10) (s : State) {t : State} (hg : P s) (h : execLcfSend port s = .next t) :
    P t := by
  unfold execLcfSend at h
  repeat' first
    | with_reducible exact hg
    | (with_reducible cases h; done)
    | split at h
    | (injection h with h; subst h)
    | with_reducible apply keep_lcfSend (K.mono (by decide)) W
    | with_reducible apply keep_ite
    | (refine keep_with K hg ?_; intro g h; cases g <;> first | rfl | (cases h; done) | exact fun _ m => m | exact fun _ m => nomatch m)

theorem keep_execRetryTimeout (K : Keeps 0xfe84550 P) (W : Stores P) (port : Fin 10) (s : State) {t : State} (hg : P s) (h : execRetryTimeout port s = .next t) :
    P t := by
  unfold execRetryTimeout at h
  repeat' first
    | with_reducible exact hg
    | (with_reducible cases h; done)
    | split at h
    | (injection h with h; subst h)
    | with_reducible apply keep_retryTimeout (K.mono (by decide)) W
    | with_reducible apply keep_ite
    | (refine keep_with K hg ?_; intro g h; cases g <;> first | rfl | (cases h; done) | exact fun _ m => m | exact fun _ m => nomatch m)

theorem keep_execChunkReceive (K : Keeps 0x44e150 P) (W : Stores P) (s : State) {t : State} (hg : P s) (h : execChunkReceive s = .next t) :
    P t := by
  unfold execChunkReceive at h
  repeat' first
    | with_reducible exact hg
    | (with_reducible cases h; done)
    | split at h
    | (injection h with h; subst h)
    | with_reducible apply keep_chunkReceive (K.mono (by decide)) W
    | with_reducible apply keep_ite
    | (refine keep_with K hg ?_; intro g h; cases g <;> first | rfl | (cases h; done) | exact fun _ m => m | exact fun _ m => nomatch m)

theorem keep_execDoorbell (K : Keeps 0xa200550 P) (W : Stores P) (who : Requester) (ctx : Fin 64) (ring : Fin 256) (count : W32) (s : State) {t : State} (hg : P s) (h : execDoorbell who ctx ring count s = .next t) :
    P t := by
  unfold execDoorbell at h
  repeat' first
    | with_reducible exact hg
    | (with_reducible cases h; done)
    | split at h
    | (injection h with h; subst h)
    | with_reducible apply keep_doorbell (K.mono (by decide)) W
    | with_reducible apply keep_bellWake (K.mono (by decide))
    | with_reducible apply keep_holdAccess (K.mono (by decide))
    | with_reducible apply keep_ite
    | (refine keep_with K hg ?_; intro g h; cases g <;> first | rfl | (cases h; done) | exact fun _ m => m | exact fun _ m => nomatch m)

theorem keep_execTplInstall (K : Keeps 0xa001150 P) (W : Stores P) (s : State) {t : State} (hg : P s) (h : execTplInstall s = .next t) :
    P t := by
  unfold execTplInstall at h
  repeat' first
    | with_reducible exact hg
    | (with_reducible cases h; done)
    | split at h
    | (injection h with h; subst h)
    | with_reducible apply keep_tplInstall (K.mono (by decide)) W
    | with_reducible apply keep_holdAccess (K.mono (by decide))
    | with_reducible apply keep_ite
    | (refine keep_with K hg ?_; intro g h; cases g <;> first | rfl | (cases h; done) | exact fun _ m => m | exact fun _ m => nomatch m)

theorem keep_execTplRead (K : Keeps 0x8001050 P) (s : State) {t : State} (hg : P s) (h : execTplRead s = .next t) :
    P t := by
  unfold execTplRead at h
  repeat' first
    | with_reducible exact hg
    | (with_reducible cases h; done)
    | split at h
    | (injection h with h; subst h)
    | with_reducible apply keep_tplRead (K.mono (by decide))
    | with_reducible apply keep_holdAccess (K.mono (by decide))
    | with_reducible apply keep_ite
    | (refine keep_with K hg ?_; intro g h; cases g <;> first | rfl | (cases h; done) | exact fun _ m => m | exact fun _ m => nomatch m)

theorem keep_execTplInvalidate (K : Keeps 0xa001150 P) (W : Stores P) (s : State) {t : State} (hg : P s) (h : execTplInvalidate s = .next t) :
    P t := by
  unfold execTplInvalidate at h
  repeat' first
    | with_reducible exact hg
    | (with_reducible cases h; done)
    | split at h
    | (injection h with h; subst h)
    | with_reducible apply keep_tplInvalidate (K.mono (by decide)) W
    | with_reducible apply keep_holdAccess (K.mono (by decide))
    | with_reducible apply keep_ite
    | (refine keep_with K hg ?_; intro g h; cases g <;> first | rfl | (cases h; done) | exact fun _ m => m | exact fun _ m => nomatch m)

theorem keep_execRegionEntryWrite (K : Keeps 0xa002150 P) (W : Stores P) (value : W32) (s : State) {t : State} (hg : P s) (h : execRegionEntryWrite value s = .next t) :
    P t := by
  unfold execRegionEntryWrite at h
  repeat' first
    | with_reducible exact hg
    | (with_reducible cases h; done)
    | split at h
    | (injection h with h; subst h)
    | with_reducible apply keep_regionEntryWrite (K.mono (by decide)) W
    | with_reducible apply keep_holdAccess (K.mono (by decide))
    | with_reducible apply keep_ite
    | (refine keep_with K hg ?_; intro g h; cases g <;> first | rfl | (cases h; done) | exact fun _ m => m | exact fun _ m => nomatch m)

theorem keep_execRingEnable (K : Keeps 0xa004550 P) (W : Stores P) (value : W32) (s : State) {t : State} (hg : P s) (h : execRingEnable value s = .next t) :
    P t := by
  unfold execRingEnable at h
  repeat' first
    | with_reducible exact hg
    | (with_reducible cases h; done)
    | split at h
    | (injection h with h; subst h)
    | with_reducible apply keep_ringEnable (K.mono (by decide)) W
    | with_reducible apply keep_holdAccess (K.mono (by decide))
    | with_reducible apply keep_ite
    | (refine keep_with K hg ?_; intro g h; cases g <;> first | rfl | (cases h; done) | exact fun _ m => m | exact fun _ m => nomatch m)

theorem keep_execRingDisable (K : Keeps 0xa004550 P) (W : Stores P) (value : W32) (s : State) {t : State} (hg : P s) (h : execRingDisable value s = .next t) :
    P t := by
  unfold execRingDisable at h
  repeat' first
    | with_reducible exact hg
    | (with_reducible cases h; done)
    | split at h
    | (injection h with h; subst h)
    | with_reducible apply keep_ringDisable (K.mono (by decide)) W
    | with_reducible apply keep_holdAccess (K.mono (by decide))
    | with_reducible apply keep_ite
    | (refine keep_with K hg ?_; intro g h; cases g <;> first | rfl | (cases h; done) | exact fun _ m => m | exact fun _ m => nomatch m)

theorem keep_execAbort (K : Keeps 0x27def54 P) (W : Stores P) (s : State) {t : State} (hg : P s) (h : execAbort s = .next t) :
    P t := by
  unfold execAbort at h
  repeat' first
    | with_reducible exact hg
    | (with_reducible cases h; done)
    | split at h
    | (injection h with h; subst h)
    | with_reducible apply keep_abort (K.mono (by decide)) W
    | with_reducible apply keep_ite
    | (refine keep_with K hg ?_; intro g h; cases g <;> first | rfl | (cases h; done) | exact fun _ m => m | exact fun _ m => nomatch m)

theorem keep_execNodeCombine (K : Keeps 0x67def54 P) (W : Stores P) (slot : Fin 4096) (seq : W32) (level : Fin 5) (node : Fin 16) (s : State) {t : State} (hg : P s) (h : execNodeCombine slot seq level node s = .next t) :
    P t := by
  unfold execNodeCombine at h
  repeat' first
    | with_reducible exact hg
    | (with_reducible cases h; done)
    | split at h
    | (injection h with h; subst h)
    | with_reducible apply keep_nodeCombine (K.mono (by decide)) W
    | with_reducible apply keep_ite
    | (refine keep_with K hg ?_; intro g h; cases g <;> first | rfl | (cases h; done) | exact fun _ m => m | exact fun _ m => nomatch m)

theorem keep_execAbsent (K : Keeps 0x67def54 P) (W : Stores P) (s : State) {t : State} (hg : P s) (h : execAbsent s = .next t) :
    P t := by
  unfold execAbsent at h
  repeat' first
    | with_reducible exact hg
    | (with_reducible cases h; done)
    | split at h
    | (injection h with h; subst h)
    | with_reducible apply keep_absent (K.mono (by decide)) W
    | with_reducible apply keep_ite
    | (refine keep_with K hg ?_; intro g h; cases g <;> first | rfl | (cases h; done) | exact fun _ m => m | exact fun _ m => nomatch m)

theorem keep_execRedFailLogClear (K : Keeps 0x8008050 P) (value : W32) (s : State) {t : State} (hg : P s) (h : execRedFailLogClear value s = .next t) :
    P t := by
  unfold execRedFailLogClear at h
  repeat' first
    | with_reducible exact hg
    | (with_reducible cases h; done)
    | split at h
    | (injection h with h; subst h)
    | with_reducible apply keep_redFailLogClear (K.mono (by decide))
    | with_reducible apply keep_holdAccess (K.mono (by decide))
    | with_reducible apply keep_ite
    | (refine keep_with K hg ?_; intro g h; cases g <;> first | rfl | (cases h; done) | exact fun _ m => m | exact fun _ m => nomatch m)

theorem keep_execAdmissionScan (K : Keeps 0x67def54 P) (W : Stores P) (s : State) {t : State} (hg : P s) (h : execAdmissionScan s = .next t) :
    P t := by
  unfold execAdmissionScan at h
  repeat' first
    | with_reducible exact hg
    | (with_reducible cases h; done)
    | split at h
    | (injection h with h; subst h)
    | with_reducible apply keep_admissionScan (K.mono (by decide)) W
    | with_reducible apply keep_ite
    | (refine keep_with K hg ?_; intro g h; cases g <;> first | rfl | (cases h; done) | exact fun _ m => m | exact fun _ m => nomatch m)

theorem keep_execGrant (K : Keeps 0x67def54 P) (W : Stores P) (s : State) {t : State} (hg : P s) (h : execGrant s = .next t) :
    P t := by
  unfold execGrant at h
  repeat' first
    | with_reducible exact hg
    | (with_reducible cases h; done)
    | split at h
    | (injection h with h; subst h)
    | with_reducible apply keep_grant (K.mono (by decide)) W
    | with_reducible apply keep_ite
    | (refine keep_with K hg ?_; intro g h; cases g <;> first | rfl | (cases h; done) | exact fun _ m => m | exact fun _ m => nomatch m)

theorem keep_execRevoke (K : Keeps 0x402000 P) (s : State) {t : State} (hg : P s) (h : execRevoke s = .next t) :
    P t := by
  unfold execRevoke at h
  repeat' first
    | with_reducible exact hg
    | (with_reducible cases h; done)
    | split at h
    | (injection h with h; subst h)
    | with_reducible apply keep_revoke (K.mono (by decide))
    | with_reducible apply keep_ite
    | (refine keep_with K hg ?_; intro g h; cases g <;> first | rfl | (cases h; done) | exact fun _ m => m | exact fun _ m => nomatch m)

theorem keep_execAdmitMsg (K : Keeps 0x67def54 P) (W : Stores P) (s : State) {t : State} (hg : P s) (h : execAdmitMsg s = .next t) :
    P t := by
  unfold execAdmitMsg at h
  repeat' first
    | with_reducible exact hg
    | (with_reducible cases h; done)
    | split at h
    | (injection h with h; subst h)
    | with_reducible apply keep_admitMsg (K.mono (by decide)) W
    | with_reducible apply keep_ite
    | (refine keep_with K hg ?_; intro g h; cases g <;> first | rfl | (cases h; done) | exact fun _ m => m | exact fun _ m => nomatch m)

theorem keep_execFirm (K : Keeps 0x67def54 P) (W : Stores P) (s : State) {t : State} (hg : P s) (h : execFirm s = .next t) :
    P t := by
  unfold execFirm at h
  repeat' first
    | with_reducible exact hg
    | (with_reducible cases h; done)
    | split at h
    | (injection h with h; subst h)
    | with_reducible apply keep_firm (K.mono (by decide)) W
    | with_reducible apply keep_ite
    | (refine keep_with K hg ?_; intro g h; cases g <;> first | rfl | (cases h; done) | exact fun _ m => m | exact fun _ m => nomatch m)

theorem keep_execRefuse (K : Keeps 0x67def54 P) (W : Stores P) (s : State) {t : State} (hg : P s) (h : execRefuse s = .next t) :
    P t := by
  unfold execRefuse at h
  repeat' first
    | with_reducible exact hg
    | (with_reducible cases h; done)
    | split at h
    | (injection h with h; subst h)
    | with_reducible apply keep_refuse (K.mono (by decide)) W
    | with_reducible apply keep_ite
    | (refine keep_with K hg ?_; intro g h; cases g <;> first | rfl | (cases h; done) | exact fun _ m => m | exact fun _ m => nomatch m)

theorem keep_execRetract (K : Keeps 0x67def54 P) (W : Stores P) (s : State) {t : State} (hg : P s) (h : execRetract s = .next t) :
    P t := by
  unfold execRetract at h
  repeat' first
    | with_reducible exact hg
    | (with_reducible cases h; done)
    | split at h
    | (injection h with h; subst h)
    | with_reducible apply keep_retract (K.mono (by decide)) W
    | with_reducible apply keep_ite
    | (refine keep_with K hg ?_; intro g h; cases g <;> first | rfl | (cases h; done) | exact fun _ m => m | exact fun _ m => nomatch m)

theorem keep_execGo (K : Keeps 0x67def54 P) (W : Stores P) (s : State) {t : State} (hg : P s) (h : execGo s = .next t) :
    P t := by
  unfold execGo at h
  repeat' first
    | with_reducible exact hg
    | (with_reducible cases h; done)
    | split at h
    | (injection h with h; subst h)
    | with_reducible apply keep_go (K.mono (by decide)) W
    | with_reducible apply keep_ite
    | (refine keep_with K hg ?_; intro g h; cases g <;> first | rfl | (cases h; done) | exact fun _ m => m | exact fun _ m => nomatch m)

theorem keep_execStageAfterTimeout (K : Keeps 0x67def54 P) (W : Stores P) (slot : Fin 4096) (s : State) {t : State} (hg : P s) (h : execStageAfterTimeout slot s = .next t) :
    P t := by
  unfold execStageAfterTimeout at h
  repeat' first
    | with_reducible exact hg
    | (with_reducible cases h; done)
    | split at h
    | (injection h with h; subst h)
    | with_reducible apply keep_stageAfterTimeout (K.mono (by decide)) W
    | with_reducible apply keep_ite
    | (refine keep_with K hg ?_; intro g h; cases g <;> first | rfl | (cases h; done) | exact fun _ m => m | exact fun _ m => nomatch m)

theorem keep_execSlotReturn (K : Keeps 0x406000 P) (s : State) {t : State} (hg : P s) (h : execSlotReturn s = .next t) :
    P t := by
  unfold execSlotReturn at h
  repeat' first
    | with_reducible exact hg
    | (with_reducible cases h; done)
    | split at h
    | (injection h with h; subst h)
    | with_reducible apply keep_slotReturn (K.mono (by decide))
    | with_reducible apply keep_ite
    | (refine keep_with K hg ?_; intro g h; cases g <;> first | rfl | (cases h; done) | exact fun _ m => m | exact fun _ m => nomatch m)

theorem keep_execTransposeRowBlock (K : Keeps 0x2100 P) (slot : Fin 4096) (block : Nat) (s : State) {t : State} (hg : P s) (h : execTransposeRowBlock slot block s = .next t) :
    P t := by
  unfold execTransposeRowBlock at h
  repeat' first
    | with_reducible exact hg
    | (with_reducible cases h; done)
    | split at h
    | (injection h with h; subst h)
    | with_reducible apply keep_transposeRowBlock (K.mono (by decide))
    | with_reducible apply keep_ite
    | (refine keep_with K hg ?_; intro g h; cases g <;> first | rfl | (cases h; done) | exact fun _ m => m | exact fun _ m => nomatch m)

theorem keep_execDepositEntryWrite (K : Keeps 0xa002150 P) (W : Stores P) (value : W64) (s : State) {t : State} (hg : P s) (h : execDepositEntryWrite value s = .next t) :
    P t := by
  unfold execDepositEntryWrite at h
  repeat' first
    | with_reducible exact hg
    | (with_reducible cases h; done)
    | split at h
    | (injection h with h; subst h)
    | with_reducible apply keep_depositEntryWrite (K.mono (by decide)) W
    | with_reducible apply keep_holdAccess (K.mono (by decide))
    | with_reducible apply keep_ite
    | (refine keep_with K hg ?_; intro g h; cases g <;> first | rfl | (cases h; done) | exact fun _ m => m | exact fun _ m => nomatch m)

theorem keep_execFinChunk (K : Keeps 0x67def54 P) (W : Stores P) (s : State) {t : State} (hg : P s) (h : execFinChunk s = .next t) :
    P t := by
  unfold execFinChunk at h
  repeat' first
    | with_reducible exact hg
    | (with_reducible cases h; done)
    | split at h
    | (injection h with h; subst h)
    | with_reducible apply keep_finChunk (K.mono (by decide)) W
    | with_reducible apply keep_ite
    | (refine keep_with K hg ?_; intro g h; cases g <;> first | rfl | (cases h; done) | exact fun _ m => m | exact fun _ m => nomatch m)

theorem keep_execRowPass (K : Keeps 0x67fef54 P) (W : Stores P) (slot : Fin 4096) (s : State) {t : State} (hg : P s) (h : execRowPass slot s = .next t) :
    P t := by
  unfold execRowPass at h
  repeat' first
    | with_reducible exact hg
    | (with_reducible cases h; done)
    | split at h
    | (injection h with h; subst h)
    | with_reducible apply keep_rowPass (K.mono (by decide)) W
    | with_reducible apply keep_ite
    | (refine keep_with K hg ?_; intro g h; cases g <;> first | rfl | (cases h; done) | exact fun _ m => m | exact fun _ m => nomatch m)

theorem keep_execRowStatisticsFinal (K : Keeps 0x22000 P) (slot : Fin 4096) (block : Nat) (s : State) {t : State} (hg : P s) (h : execRowStatisticsFinal slot block s = .next t) :
    P t := by
  unfold execRowStatisticsFinal at h
  repeat' first
    | with_reducible exact hg
    | (with_reducible cases h; done)
    | split at h
    | (injection h with h; subst h)
    | with_reducible apply keep_rowStatisticsFinal (K.mono (by decide))
    | with_reducible apply keep_ite
    | (refine keep_with K hg ?_; intro g h; cases g <;> first | rfl | (cases h; done) | exact fun _ m => m | exact fun _ m => nomatch m)

theorem keep_execFinEntryCommit (K : Keeps 0xa010150 P) (W : Stores P) (value : W64) (s : State) {t : State} (hg : P s) (h : execFinEntryCommit value s = .next t) :
    P t := by
  unfold execFinEntryCommit at h
  repeat' first
    | with_reducible exact hg
    | (with_reducible cases h; done)
    | split at h
    | (injection h with h; subst h)
    | with_reducible apply keep_finEntryCommit (K.mono (by decide)) W
    | with_reducible apply keep_holdAccess (K.mono (by decide))
    | with_reducible apply keep_ite
    | (refine keep_with K hg ?_; intro g h; cases g <;> first | rfl | (cases h; done) | exact fun _ m => m | exact fun _ m => nomatch m)

theorem keep_execRowEntryCommit (K : Keeps 0xa020150 P) (W : Stores P) (value : W64) (s : State) {t : State} (hg : P s) (h : execRowEntryCommit value s = .next t) :
    P t := by
  unfold execRowEntryCommit at h
  repeat' first
    | with_reducible exact hg
    | (with_reducible cases h; done)
    | split at h
    | (injection h with h; subst h)
    | with_reducible apply keep_rowEntryCommit (K.mono (by decide)) W
    | with_reducible apply keep_holdAccess (K.mono (by decide))
    | with_reducible apply keep_ite
    | (refine keep_with K hg ?_; intro g h; cases g <;> first | rfl | (cases h; done) | exact fun _ m => m | exact fun _ m => nomatch m)

theorem keep_execEntryIndexWrite (K : Keeps 0x81f0050 P) (reg : IndexReg) (value : W32) (s : State) {t : State} (hg : P s) (h : execEntryIndexWrite reg value s = .next t) :
    P t := by
  unfold execEntryIndexWrite at h
  repeat' first
    | with_reducible exact hg
    | (with_reducible cases h; done)
    | split at h
    | (injection h with h; subst h)
    | with_reducible apply keep_entryIndexWrite (K.mono (by decide))
    | with_reducible apply keep_holdAccess (K.mono (by decide))
    | with_reducible apply keep_ite
    | (refine keep_with K hg ?_; intro g h; cases g <;> first | rfl | (cases h; done) | exact fun _ m => m | exact fun _ m => nomatch m)

theorem keep_execPreloadSweep (K : Keeps 0x40100 P) (W : Stores P) (s : State) {t : State} (hg : P s) (h : execPreloadSweep s = .next t) :
    P t := by
  unfold execPreloadSweep at h
  repeat' first
    | with_reducible exact hg
    | (with_reducible cases h; done)
    | split at h
    | (injection h with h; subst h)
    | with_reducible apply keep_preloadSweep (K.mono (by decide)) W
    | with_reducible apply keep_ite
    | (refine keep_with K hg ?_; intro g h; cases g <;> first | rfl | (cases h; done) | exact fun _ m => m | exact fun _ m => nomatch m)

theorem keep_execReleaseContribution (K : Keeps 0xefdef54 P) (W : Stores P) (s : State) {t : State} (hg : P s) (h : execReleaseContribution s = .next t) :
    P t := by
  unfold execReleaseContribution at h
  repeat' first
    | with_reducible exact hg
    | (with_reducible cases h; done)
    | split at h
    | (injection h with h; subst h)
    | with_reducible apply keep_releaseContribution (K.mono (by decide)) W
    | with_reducible apply keep_ite
    | (refine keep_with K hg ?_; intro g h; cases g <;> first | rfl | (cases h; done) | exact fun _ m => m | exact fun _ m => nomatch m)

theorem keep_execStepDeadline (K : Keeps 0xefdef54 P) (W : Stores P) (s : State) {t : State} (hg : P s) (h : execStepDeadline s = .next t) :
    P t := by
  unfold execStepDeadline at h
  repeat' first
    | with_reducible exact hg
    | (with_reducible cases h; done)
    | split at h
    | (injection h with h; subst h)
    | with_reducible apply keep_stepDeadline (K.mono (by decide)) W
    | with_reducible apply keep_ite
    | (refine keep_with K hg ?_; intro g h; cases g <;> first | rfl | (cases h; done) | exact fun _ m => m | exact fun _ m => nomatch m)

theorem keep_execRelease (K : Keeps 0xefdef54 P) (W : Stores P) (s : State) {t : State} (hg : P s) (h : execRelease s = .next t) :
    P t := by
  unfold execRelease at h
  repeat' first
    | with_reducible exact hg
    | (with_reducible cases h; done)
    | split at h
    | (injection h with h; subst h)
    | with_reducible apply keep_release (K.mono (by decide)) W
    | with_reducible apply keep_ite
    | (refine keep_with K hg ?_; intro g h; cases g <;> first | rfl | (cases h; done) | exact fun _ m => m | exact fun _ m => nomatch m)

theorem keep_execUpdateWave (K : Keeps 0xc0150 P) (W : Stores P) (s : State) {t : State} (hg : P s) (h : execUpdateWave s = .next t) :
    P t := by
  unfold execUpdateWave at h
  repeat' first
    | with_reducible exact hg
    | (with_reducible cases h; done)
    | split at h
    | (injection h with h; subst h)
    | with_reducible apply keep_updateWave (K.mono (by decide)) W
    | with_reducible apply keep_ite
    | (refine keep_with K hg ?_; intro g h; cases g <;> first | rfl | (cases h; done) | exact fun _ m => m | exact fun _ m => nomatch m)

theorem keep_execMirrorSend (K : Keeps 0x2444300 P) (bucket : Fin 4096) (s : State) {t : State} (hg : P s) (h : execMirrorSend bucket s = .next t) :
    P t := by
  unfold execMirrorSend at h
  repeat' first
    | with_reducible exact hg
    | (with_reducible cases h; done)
    | split at h
    | (injection h with h; subst h)
    | with_reducible apply keep_mirrorSend (K.mono (by decide))
    | with_reducible apply keep_ite
    | (refine keep_with K hg ?_; intro g h; cases g <;> first | rfl | (cases h; done) | exact fun _ m => m | exact fun _ m => nomatch m)

theorem keep_execMirrorPacket (K : Keeps 0xe6def54 P) (W : Stores P) (s : State) {t : State} (hg : P s) (h : execMirrorPacket s = .next t) :
    P t := by
  unfold execMirrorPacket at h
  repeat' first
    | with_reducible exact hg
    | (with_reducible cases h; done)
    | split at h
    | (injection h with h; subst h)
    | with_reducible apply keep_mirrorPacket (K.mono (by decide)) W
    | with_reducible apply keep_ite
    | (refine keep_with K hg ?_; intro g h; cases g <;> first | rfl | (cases h; done) | exact fun _ m => m | exact fun _ m => nomatch m)

theorem keep_execMirrorAck (K : Keeps 0xe440150 P) (W : Stores P) (s : State) {t : State} (hg : P s) (h : execMirrorAck s = .next t) :
    P t := by
  unfold execMirrorAck at h
  repeat' first
    | with_reducible exact hg
    | (with_reducible cases h; done)
    | split at h
    | (injection h with h; subst h)
    | with_reducible apply keep_mirrorAck (K.mono (by decide)) W
    | with_reducible apply keep_ite
    | (refine keep_with K hg ?_; intro g h; cases g <;> first | rfl | (cases h; done) | exact fun _ m => m | exact fun _ m => nomatch m)

theorem keep_execMirrorTimeout (K : Keeps 0xe0c0150 P) (W : Stores P) (bucket : Fin 4096) (s : State) {t : State} (hg : P s) (h : execMirrorTimeout bucket s = .next t) :
    P t := by
  unfold execMirrorTimeout at h
  repeat' first
    | with_reducible exact hg
    | (with_reducible cases h; done)
    | split at h
    | (injection h with h; subst h)
    | with_reducible apply keep_mirrorTimeout (K.mono (by decide)) W
    | with_reducible apply keep_ite
    | (refine keep_with K hg ?_; intro g h; cases g <;> first | rfl | (cases h; done) | exact fun _ m => m | exact fun _ m => nomatch m)

theorem keep_execCommitVote (K : Keeps 0xefdef54 P) (W : Stores P) (s : State) {t : State} (hg : P s) (h : execCommitVote s = .next t) :
    P t := by
  unfold execCommitVote at h
  repeat' first
    | with_reducible exact hg
    | (with_reducible cases h; done)
    | split at h
    | (injection h with h; subst h)
    | with_reducible apply keep_commitVote (K.mono (by decide)) W
    | with_reducible apply keep_ite
    | (refine keep_with K hg ?_; intro g h; cases g <;> first | rfl | (cases h; done) | exact fun _ m => m | exact fun _ m => nomatch m)

theorem keep_execCommit (K : Keeps 0xe6c2f54 P) (W : Stores P) (s : State) {t : State} (hg : P s) (h : execCommit s = .next t) :
    P t := by
  unfold execCommit at h
  repeat' first
    | with_reducible exact hg
    | (with_reducible cases h; done)
    | split at h
    | (injection h with h; subst h)
    | with_reducible apply keep_commit (K.mono (by decide)) W
    | with_reducible apply keep_ite
    | (refine keep_with K hg ?_; intro g h; cases g <;> first | rfl | (cases h; done) | exact fun _ m => m | exact fun _ m => nomatch m)

theorem keep_execStepEnable (K : Keeps 0xa080350 P) (W : Stores P) (value : W32) (s : State) {t : State} (hg : P s) (h : execStepEnable value s = .next t) :
    P t := by
  unfold execStepEnable at h
  repeat' first
    | with_reducible exact hg
    | (with_reducible cases h; done)
    | split at h
    | (injection h with h; subst h)
    | with_reducible apply keep_stepEnable (K.mono (by decide)) W
    | with_reducible apply keep_holdAccess (K.mono (by decide))
    | with_reducible apply keep_ite
    | (refine keep_with K hg ?_; intro g h; cases g <;> first | rfl | (cases h; done) | exact fun _ m => m | exact fun _ m => nomatch m)

theorem keep_execStepDisable (K : Keeps 0xa080350 P) (W : Stores P) (value : W32) (s : State) {t : State} (hg : P s) (h : execStepDisable value s = .next t) :
    P t := by
  unfold execStepDisable at h
  repeat' first
    | with_reducible exact hg
    | (with_reducible cases h; done)
    | split at h
    | (injection h with h; subst h)
    | with_reducible apply keep_stepDisable (K.mono (by decide)) W
    | with_reducible apply keep_holdAccess (K.mono (by decide))
    | with_reducible apply keep_ite
    | (refine keep_with K hg ?_; intro g h; cases g <;> first | rfl | (cases h; done) | exact fun _ m => m | exact fun _ m => nomatch m)

theorem keep_execBucketEntryCommit (K : Keeps 0xa040150 P) (W : Stores P) (value : W64) (s : State) {t : State} (hg : P s) (h : execBucketEntryCommit value s = .next t) :
    P t := by
  unfold execBucketEntryCommit at h
  repeat' first
    | with_reducible exact hg
    | (with_reducible cases h; done)
    | split at h
    | (injection h with h; subst h)
    | with_reducible apply keep_bucketEntryCommit (K.mono (by decide)) W
    | with_reducible apply keep_holdAccess (K.mono (by decide))
    | with_reducible apply keep_ite
    | (refine keep_with K hg ?_; intro g h; cases g <;> first | rfl | (cases h; done) | exact fun _ m => m | exact fun _ m => nomatch m)

theorem keep_execOptEntryCommit (K : Keeps 0x8080050 P) (value : W32) (s : State) {t : State} (hg : P s) (h : execOptEntryCommit value s = .next t) :
    P t := by
  unfold execOptEntryCommit at h
  repeat' first
    | with_reducible exact hg
    | (with_reducible cases h; done)
    | split at h
    | (injection h with h; subst h)
    | with_reducible apply keep_optEntryCommit (K.mono (by decide))
    | with_reducible apply keep_holdAccess (K.mono (by decide))
    | with_reducible apply keep_ite
    | (refine keep_with K hg ?_; intro g h; cases g <;> first | rfl | (cases h; done) | exact fun _ m => m | exact fun _ m => nomatch m)

theorem keep_execUprogWrite (K : Keeps 0xa080150 P) (W : Stores P) (value : W32) (s : State) {t : State} (hg : P s) (h : execUprogWrite value s = .next t) :
    P t := by
  unfold execUprogWrite at h
  repeat' first
    | with_reducible exact hg
    | (with_reducible cases h; done)
    | split at h
    | (injection h with h; subst h)
    | with_reducible apply keep_uprogWrite (K.mono (by decide)) W
    | with_reducible apply keep_holdAccess (K.mono (by decide))
    | with_reducible apply keep_ite
    | (refine keep_with K hg ?_; intro g h; cases g <;> first | rfl | (cases h; done) | exact fun _ m => m | exact fun _ m => nomatch m)

theorem keep_execExpertPacket (K : Keeps 0x67def54 P) (W : Stores P) (s : State) {t : State} (hg : P s) (h : execExpertPacket s = .next t) :
    P t := by
  unfold execExpertPacket at h
  repeat' first
    | with_reducible exact hg
    | (with_reducible cases h; done)
    | split at h
    | (injection h with h; subst h)
    | with_reducible apply keep_expertPacket (K.mono (by decide)) W
    | with_reducible apply keep_ite
    | (refine keep_with K hg ?_; intro g h; cases g <;> first | rfl | (cases h; done) | exact fun _ m => m | exact fun _ m => nomatch m)

theorem keep_execExpertCombineOutput (K : Keeps 0x2100 P) (slot : Fin 4096) (s : State) {t : State} (hg : P s) (h : execExpertCombineOutput slot s = .next t) :
    P t := by
  unfold execExpertCombineOutput at h
  repeat' first
    | with_reducible exact hg
    | (with_reducible cases h; done)
    | split at h
    | (injection h with h; subst h)
    | with_reducible apply keep_expertCombineOutput (K.mono (by decide))
    | with_reducible apply keep_ite
    | (refine keep_with K hg ?_; intro g h; cases g <;> first | rfl | (cases h; done) | exact fun _ m => m | exact fun _ m => nomatch m)

theorem keep_execClearToSend (K : Keeps 0x27def54 P) (W : Stores P) (s : State) {t : State} (hg : P s) (h : execClearToSend s = .next t) :
    P t := by
  unfold execClearToSend at h
  repeat' first
    | with_reducible exact hg
    | (with_reducible cases h; done)
    | split at h
    | (injection h with h; subst h)
    | with_reducible apply keep_clearToSend (K.mono (by decide)) W
    | with_reducible apply keep_ite
    | (refine keep_with K hg ?_; intro g h; cases g <;> first | rfl | (cases h; done) | exact fun _ m => m | exact fun _ m => nomatch m)

theorem keep_execReceiveReady (K : Keeps 0x27def54 P) (W : Stores P) (slot : Fin 4096) (s : State) {t : State} (hg : P s) (h : execReceiveReady slot s = .next t) :
    P t := by
  unfold execReceiveReady at h
  repeat' first
    | with_reducible exact hg
    | (with_reducible cases h; done)
    | split at h
    | (injection h with h; subst h)
    | with_reducible apply keep_receiveReady (K.mono (by decide)) W
    | with_reducible apply keep_ite
    | (refine keep_with K hg ?_; intro g h; cases g <;> first | rfl | (cases h; done) | exact fun _ m => m | exact fun _ m => nomatch m)

theorem keep_execStashRelease (K : Keeps 0xa300150 P) (W : Stores P) (who : Requester) (ctx : Fin 64) (stash : Fin 16) (value : W32) (s : State) {t : State} (hg : P s) (h : execStashRelease who ctx stash value s = .next t) :
    P t := by
  unfold execStashRelease at h
  repeat' first
    | with_reducible exact hg
    | (with_reducible cases h; done)
    | split at h
    | (injection h with h; subst h)
    | with_reducible apply keep_stashRelease (K.mono (by decide)) W
    | with_reducible apply keep_holdAccess (K.mono (by decide))
    | with_reducible apply keep_ite
    | (refine keep_with K hg ?_; intro g h; cases g <;> first | rfl | (cases h; done) | exact fun _ m => m | exact fun _ m => nomatch m)

theorem keep_execStashCfgWrite (K : Keeps 0xa100150 P) (W : Stores P) (value : W64) (s : State) {t : State} (hg : P s) (h : execStashCfgWrite value s = .next t) :
    P t := by
  unfold execStashCfgWrite at h
  repeat' first
    | with_reducible exact hg
    | (with_reducible cases h; done)
    | split at h
    | (injection h with h; subst h)
    | with_reducible apply keep_stashCfgWrite (K.mono (by decide)) W
    | with_reducible apply keep_holdAccess (K.mono (by decide))
    | with_reducible apply keep_ite
    | (refine keep_with K hg ?_; intro g h; cases g <;> first | rfl | (cases h; done) | exact fun _ m => m | exact fun _ m => nomatch m)

theorem keep_execSpxEntryCommit (K : Keeps 0xa100150 P) (W : Stores P) (value : W64) (s : State) {t : State} (hg : P s) (h : execSpxEntryCommit value s = .next t) :
    P t := by
  unfold execSpxEntryCommit at h
  repeat' first
    | with_reducible exact hg
    | (with_reducible cases h; done)
    | split at h
    | (injection h with h; subst h)
    | with_reducible apply keep_spxEntryCommit (K.mono (by decide)) W
    | with_reducible apply keep_holdAccess (K.mono (by decide))
    | with_reducible apply keep_ite
    | (refine keep_with K hg ?_; intro g h; cases g <;> first | rfl | (cases h; done) | exact fun _ m => m | exact fun _ m => nomatch m)

theorem keep_execSegmentWrite (K : Keeps 0xa200150 P) (W : Stores P) (value : W64) (s : State) {t : State} (hg : P s) (h : execSegmentWrite value s = .next t) :
    P t := by
  unfold execSegmentWrite at h
  repeat' first
    | with_reducible exact hg
    | (with_reducible cases h; done)
    | split at h
    | (injection h with h; subst h)
    | with_reducible apply keep_segmentWrite (K.mono (by decide)) W
    | with_reducible apply keep_holdAccess (K.mono (by decide))
    | with_reducible apply keep_ite
    | (refine keep_with K hg ?_; intro g h; cases g <;> first | rfl | (cases h; done) | exact fun _ m => m | exact fun _ m => nomatch m)

theorem keep_execWindowSet (K : Keeps 0xa200950 P) (W : Stores P) (ctx : Fin 64) (value : W32) (s : State) {t : State} (hg : P s) (h : execWindowSet ctx value s = .next t) :
    P t := by
  unfold execWindowSet at h
  repeat' first
    | with_reducible exact hg
    | (with_reducible cases h; done)
    | split at h
    | (injection h with h; subst h)
    | with_reducible apply keep_windowSet (K.mono (by decide)) W
    | with_reducible apply keep_holdAccess (K.mono (by decide))
    | with_reducible apply keep_ite
    | (refine keep_with K hg ?_; intro g h; cases g <;> first | rfl | (cases h; done) | exact fun _ m => m | exact fun _ m => nomatch m)

theorem keep_execWindowAdd (K : Keeps 0xa200950 P) (W : Stores P) (ctx : Fin 64) (value : W32) (s : State) {t : State} (hg : P s) (h : execWindowAdd ctx value s = .next t) :
    P t := by
  unfold execWindowAdd at h
  repeat' first
    | with_reducible exact hg
    | (with_reducible cases h; done)
    | split at h
    | (injection h with h; subst h)
    | with_reducible apply keep_windowAdd (K.mono (by decide)) W
    | with_reducible apply keep_holdAccess (K.mono (by decide))
    | with_reducible apply keep_ite
    | (refine keep_with K hg ?_; intro g h; cases g <;> first | rfl | (cases h; done) | exact fun _ m => m | exact fun _ m => nomatch m)

theorem keep_execMonitorArm (K : Keeps 0x8200950 P) (W : Stores P) (ctx : Fin 64) (value : W64) (s : State) {t : State} (hg : P s) (h : execMonitorArm ctx value s = .next t) :
    P t := by
  unfold execMonitorArm at h
  repeat' first
    | with_reducible exact hg
    | (with_reducible cases h; done)
    | split at h
    | (injection h with h; subst h)
    | with_reducible apply keep_monitorArm (K.mono (by decide)) W
    | with_reducible apply keep_holdAccess (K.mono (by decide))
    | with_reducible apply keep_ite
    | (refine keep_with K hg ?_; intro g h; cases g <;> first | rfl | (cases h; done) | exact fun _ m => m | exact fun _ m => nomatch m)

theorem keep_execSyncTimeout (K : Keeps 0xa204d54 P) (W : Stores P) (waiter : Waiter) (s : State) {t : State} (hg : P s) (h : execSyncTimeout waiter s = .next t) :
    P t := by
  unfold execSyncTimeout at h
  repeat' first
    | with_reducible exact hg
    | (with_reducible cases h; done)
    | split at h
    | (injection h with h; subst h)
    | with_reducible apply keep_syncTimeout (K.mono (by decide)) W
    | with_reducible apply keep_ite
    | (refine keep_with K hg ?_; intro g h; cases g <;> first | rfl | (cases h; done) | exact fun _ m => m | exact fun _ m => nomatch m)

theorem keep_execPreempt (K : Keeps 0x8200050 P) (value : W32) (s : State) {t : State} (hg : P s) (h : execPreempt value s = .next t) :
    P t := by
  unfold execPreempt at h
  repeat' first
    | with_reducible exact hg
    | (with_reducible cases h; done)
    | split at h
    | (injection h with h; subst h)
    | with_reducible apply keep_preempt (K.mono (by decide))
    | with_reducible apply keep_holdAccess (K.mono (by decide))
    | with_reducible apply keep_ite
    | (refine keep_with K hg ?_; intro g h; cases g <;> first | rfl | (cases h; done) | exact fun _ m => m | exact fun _ m => nomatch m)

theorem keep_execResume (K : Keeps 0x8200050 P) (value : W32) (s : State) {t : State} (hg : P s) (h : execResume value s = .next t) :
    P t := by
  unfold execResume at h
  repeat' first
    | with_reducible exact hg
    | (with_reducible cases h; done)
    | split at h
    | (injection h with h; subst h)
    | with_reducible apply keep_resume (K.mono (by decide))
    | with_reducible apply keep_holdAccess (K.mono (by decide))
    | with_reducible apply keep_ite
    | (refine keep_with K hg ?_; intro g h; cases g <;> first | rfl | (cases h; done) | exact fun _ m => m | exact fun _ m => nomatch m)

theorem keep_execSignal (K : Keeps 0x2600954 P) (W : Stores P) (s : State) {t : State} (hg : P s) (h : execSignal s = .next t) :
    P t := by
  unfold execSignal at h
  repeat' first
    | with_reducible exact hg
    | (with_reducible cases h; done)
    | split at h
    | (injection h with h; subst h)
    | with_reducible apply keep_signal (K.mono (by decide)) W
    | with_reducible apply keep_ite
    | (refine keep_with K hg ?_; intro g h; cases g <;> first | rfl | (cases h; done) | exact fun _ m => m | exact fun _ m => nomatch m)

theorem keep_execArrive (K : Keeps 0xefdef54 P) (W : Stores P) (s : State) {t : State} (hg : P s) (h : execArrive s = .next t) :
    P t := by
  unfold execArrive at h
  repeat' first
    | with_reducible exact hg
    | (with_reducible cases h; done)
    | split at h
    | (injection h with h; subst h)
    | with_reducible apply keep_arrive (K.mono (by decide)) W
    | with_reducible apply keep_ite
    | (refine keep_with K hg ?_; intro g h; cases g <;> first | rfl | (cases h; done) | exact fun _ m => m | exact fun _ m => nomatch m)

theorem keep_execCrownTimeout (K : Keeps 0xefdef54 P) (W : Stores P) (chan : Fin 64) (s : State) {t : State} (hg : P s) (h : execCrownTimeout chan s = .next t) :
    P t := by
  unfold execCrownTimeout at h
  repeat' first
    | with_reducible exact hg
    | (with_reducible cases h; done)
    | split at h
    | (injection h with h; subst h)
    | with_reducible apply keep_crownTimeout (K.mono (by decide)) W
    | with_reducible apply keep_ite
    | (refine keep_with K hg ?_; intro g h; cases g <;> first | rfl | (cases h; done) | exact fun _ m => m | exact fun _ m => nomatch m)

theorem keep_execSynDbgSelWrite (K : Keeps 0x8200050 P) (value : W32) (s : State) {t : State} (hg : P s) (h : execSynDbgSelWrite value s = .next t) :
    P t := by
  unfold execSynDbgSelWrite at h
  repeat' first
    | with_reducible exact hg
    | (with_reducible cases h; done)
    | split at h
    | (injection h with h; subst h)
    | with_reducible apply keep_synDbgSelWrite (K.mono (by decide))
    | with_reducible apply keep_holdAccess (K.mono (by decide))
    | with_reducible apply keep_ite
    | (refine keep_with K hg ?_; intro g h; cases g <;> first | rfl | (cases h; done) | exact fun _ m => m | exact fun _ m => nomatch m)

theorem keep_execDbgWaiterRead (K : Keeps 0x28200050 P) (s : State) {t : State} (hg : P s) (h : execDbgWaiterRead s = .next t) :
    P t := by
  unfold execDbgWaiterRead at h
  repeat' first
    | with_reducible exact hg
    | (with_reducible cases h; done)
    | split at h
    | (injection h with h; subst h)
    | with_reducible apply keep_dbgWaiterRead (K.mono (by decide))
    | with_reducible apply keep_holdAccess (K.mono (by decide))
    | with_reducible apply keep_ite
    | (refine keep_with K hg ?_; intro g h; cases g <;> first | rfl | (cases h; done) | exact fun _ m => m | exact fun _ m => nomatch m)

theorem keep_execGapRecord (K : Keeps 0x2000150 P) (W : Stores P) (s : State) {t : State} (hg : P s) (h : execGapRecord s = .next t) :
    P t := by
  unfold execGapRecord at h
  repeat' first
    | with_reducible exact hg
    | (with_reducible cases h; done)
    | split at h
    | (injection h with h; subst h)
    | with_reducible apply keep_gapRecord (K.mono (by decide)) W
    | with_reducible apply keep_ite
    | (refine keep_with K hg ?_; intro g h; cases g <;> first | rfl | (cases h; done) | exact fun _ m => m | exact fun _ m => nomatch m)

theorem keep_execCaptureModeWrite (K : Keeps 0xa000150 P) (W : Stores P) (value : W32) (s : State) {t : State} (hg : P s) (h : execCaptureModeWrite value s = .next t) :
    P t := by
  unfold execCaptureModeWrite at h
  repeat' first
    | with_reducible exact hg
    | (with_reducible cases h; done)
    | split at h
    | (injection h with h; subst h)
    | with_reducible apply keep_capCtlWrite (K.mono (by decide)) W
    | with_reducible apply keep_holdAccess (K.mono (by decide))
    | with_reducible apply keep_ite
    | (refine keep_with K hg ?_; intro g h; cases g <;> first | rfl | (cases h; done) | exact fun _ m => m | exact fun _ m => nomatch m)

theorem keep_execCaptureFreeze (K : Keeps 0xa000150 P) (W : Stores P) (s : State) {t : State} (hg : P s) (h : execCaptureFreeze s = .next t) :
    P t := by
  unfold execCaptureFreeze at h
  repeat' first
    | with_reducible exact hg
    | (with_reducible cases h; done)
    | split at h
    | (injection h with h; subst h)
    | with_reducible apply keep_freezeCapture (K.mono (by decide)) W
    | with_reducible apply keep_holdAccess (K.mono (by decide))
    | with_reducible apply keep_ite
    | (refine keep_with K hg ?_; intro g h; cases g <;> first | rfl | (cases h; done) | exact fun _ m => m | exact fun _ m => nomatch m)

theorem keep_execReplayGo (K : Keeps 0xa000150 P) (W : Stores P) (s : State) {t : State} (hg : P s) (h : execReplayGo s = .next t) :
    P t := by
  unfold execReplayGo at h
  repeat' first
    | with_reducible exact hg
    | (with_reducible cases h; done)
    | split at h
    | (injection h with h; subst h)
    | with_reducible apply keep_replayGo (K.mono (by decide)) W
    | with_reducible apply keep_holdAccess (K.mono (by decide))
    | with_reducible apply keep_ite
    | (refine keep_with K hg ?_; intro g h; cases g <;> first | rfl | (cases h; done) | exact fun _ m => m | exact fun _ m => nomatch m)

theorem keep_execReplayStop (K : Keeps 0xa000050 P) (s : State) {t : State} (hg : P s) (h : execReplayStop s = .next t) :
    P t := by
  unfold execReplayStop at h
  repeat' first
    | with_reducible exact hg
    | (with_reducible cases h; done)
    | split at h
    | (injection h with h; subst h)
    | with_reducible apply keep_replayStop (K.mono (by decide))
    | with_reducible apply keep_holdAccess (K.mono (by decide))
    | with_reducible apply keep_ite
    | (refine keep_with K hg ?_; intro g h; cases g <;> first | rfl | (cases h; done) | exact fun _ m => m | exact fun _ m => nomatch m)

theorem keep_execReplayDelivery (K : Keeps 0x2400050 P) (port : Fin 10) (s : State) {t : State} (hg : P s) (h : execReplayDelivery port s = .next t) :
    P t := by
  unfold execReplayDelivery at h
  repeat' first
    | with_reducible exact hg
    | (with_reducible cases h; done)
    | split at h
    | (injection h with h; subst h)
    | with_reducible apply keep_replayDelivery (K.mono (by decide))
    | with_reducible apply keep_ite
    | (refine keep_with K hg ?_; intro g h; cases g <;> first | rfl | (cases h; done) | exact fun _ m => m | exact fun _ m => nomatch m)

theorem keep_execReplayForcedChoice (K : Keeps 0xefdef54 P) (W : Stores P) (record : Nat) (s : State) {t : State} (hg : P s) (h : execReplayForcedChoice record s = .next t) :
    P t := by
  unfold execReplayForcedChoice at h
  repeat' first
    | with_reducible exact hg
    | (with_reducible cases h; done)
    | split at h
    | (injection h with h; subst h)
    | with_reducible apply keep_replayForcedChoice (K.mono (by decide)) W
    | with_reducible apply keep_ite
    | (refine keep_with K hg ?_; intro g h; cases g <;> first | rfl | (cases h; done) | exact fun _ m => m | exact fun _ m => nomatch m)

theorem keep_execEccSingleBit (K : Keeps 0xe000350 P) (W : Stores P) (mem : Fin 12) (s : State) {t : State} (hg : P s) (h : execEccSingleBit mem s = .next t) :
    P t := by
  unfold execEccSingleBit at h
  repeat' first
    | with_reducible exact hg
    | (with_reducible cases h; done)
    | split at h
    | (injection h with h; subst h)
    | with_reducible apply keep_eccSingleBit (K.mono (by decide)) W
    | with_reducible apply keep_ite
    | (refine keep_with K hg ?_; intro g h; cases g <;> first | rfl | (cases h; done) | exact fun _ m => m | exact fun _ m => nomatch m)

theorem keep_execEccDoubleBit (K : Keeps 0xfffef54 P) (W : Stores P) (mem : Fin 12) (word : W32) (s : State) {t : State} (hg : P s) (h : execEccDoubleBit mem word s = .next t) :
    P t := by
  unfold execEccDoubleBit at h
  repeat' first
    | with_reducible exact hg
    | (with_reducible cases h; done)
    | split at h
    | (injection h with h; subst h)
    | with_reducible apply keep_eccDoubleBit (K.mono (by decide)) W
    | with_reducible apply keep_ite
    | (refine keep_with K hg ?_; intro g h; cases g <;> first | rfl | (cases h; done) | exact fun _ m => m | exact fun _ m => nomatch m)

theorem keep_execEccLogClear (K : Keeps 0xc000050 P) (value : W32) (s : State) {t : State} (hg : P s) (h : execEccLogClear value s = .next t) :
    P t := by
  unfold execEccLogClear at h
  repeat' first
    | with_reducible exact hg
    | (with_reducible cases h; done)
    | split at h
    | (injection h with h; subst h)
    | with_reducible apply keep_eccLogClear (K.mono (by decide))
    | with_reducible apply keep_holdAccess (K.mono (by decide))
    | with_reducible apply keep_ite
    | (refine keep_with K hg ?_; intro g h; cases g <;> first | rfl | (cases h; done) | exact fun _ m => m | exact fun _ m => nomatch m)

theorem keep_execLateContribution (K : Keeps 0x67def54 P) (W : Stores P) (slot : Fin 4096) (s : State) {t : State} (hg : P s) (h : execLateContribution slot s = .next t) :
    P t := by
  unfold execLateContribution at h
  repeat' first
    | with_reducible exact hg
    | (with_reducible cases h; done)
    | split at h
    | (injection h with h; subst h)
    | with_reducible apply keep_lateContribution (K.mono (by decide)) W
    | with_reducible apply keep_ite
    | (refine keep_with K hg ?_; intro g h; cases g <;> first | rfl | (cases h; done) | exact fun _ m => m | exact fun _ m => nomatch m)

theorem keep_execHistClear (K : Keeps 0xc000050 P) (value : W32) (s : State) {t : State} (hg : P s) (h : execHistClear value s = .next t) :
    P t := by
  unfold execHistClear at h
  repeat' first
    | with_reducible exact hg
    | (with_reducible cases h; done)
    | split at h
    | (injection h with h; subst h)
    | with_reducible apply keep_histClear (K.mono (by decide))
    | with_reducible apply keep_holdAccess (K.mono (by decide))
    | with_reducible apply keep_ite
    | (refine keep_with K hg ?_; intro g h; cases g <;> first | rfl | (cases h; done) | exact fun _ m => m | exact fun _ m => nomatch m)

theorem keep_execAdopt (K : Keeps 0xe6def54 P) (W : Stores P) (s : State) {t : State} (hg : P s) (h : execAdopt s = .next t) :
    P t := by
  unfold execAdopt at h
  repeat' first
    | with_reducible exact hg
    | (with_reducible cases h; done)
    | split at h
    | (injection h with h; subst h)
    | with_reducible apply keep_adopt (K.mono (by decide)) W
    | with_reducible apply keep_holdAccess (K.mono (by decide))
    | with_reducible apply keep_ite
    | (refine keep_with K hg ?_; intro g h; cases g <;> first | rfl | (cases h; done) | exact fun _ m => m | exact fun _ m => nomatch m)

theorem keep_execReturnGen (K : Keeps 0xe000150 P) (W : Stores P) (s : State) {t : State} (hg : P s) (h : execReturnGen s = .next t) :
    P t := by
  unfold execReturnGen at h
  repeat' first
    | with_reducible exact hg
    | (with_reducible cases h; done)
    | split at h
    | (injection h with h; subst h)
    | with_reducible apply keep_returnGen (K.mono (by decide)) W
    | with_reducible apply keep_holdAccess (K.mono (by decide))
    | with_reducible apply keep_ite
    | (refine keep_with K hg ?_; intro g h; cases g <;> first | rfl | (cases h; done) | exact fun _ m => m | exact fun _ m => nomatch m)

theorem keep_execRestore (K : Keeps 0xe6def54 P) (W : Stores P) (s : State) {t : State} (hg : P s) (h : execRestore s = .next t) :
    P t := by
  unfold execRestore at h
  repeat' first
    | with_reducible exact hg
    | (with_reducible cases h; done)
    | split at h
    | (injection h with h; subst h)
    | with_reducible apply keep_restore (K.mono (by decide)) W
    | with_reducible apply keep_holdAccess (K.mono (by decide))
    | with_reducible apply keep_ite
    | (refine keep_with K hg ?_; intro g h; cases g <;> first | rfl | (cases h; done) | exact fun _ m => m | exact fun _ m => nomatch m)

theorem keep_execRestoreRecordVerify (K : Keeps 0xe6def54 P) (W : Stores P) (bucket : Fin 4096) (s : State) {t : State} (hg : P s) (h : execRestoreRecordVerify bucket s = .next t) :
    P t := by
  unfold execRestoreRecordVerify at h
  repeat' first
    | with_reducible exact hg
    | (with_reducible cases h; done)
    | split at h
    | (injection h with h; subst h)
    | with_reducible apply keep_restoreRecordVerify (K.mono (by decide)) W
    | with_reducible apply keep_ite
    | (refine keep_with K hg ?_; intro g h; cases g <;> first | rfl | (cases h; done) | exact fun _ m => m | exact fun _ m => nomatch m)

theorem keep_execRecTimeout (K : Keeps 0xe080150 P) (W : Stores P) (s : State) {t : State} (hg : P s) (h : execRecTimeout s = .next t) :
    P t := by
  unfold execRecTimeout at h
  repeat' first
    | with_reducible exact hg
    | (with_reducible cases h; done)
    | split at h
    | (injection h with h; subst h)
    | with_reducible apply keep_recTimeout (K.mono (by decide)) W
    | with_reducible apply keep_ite
    | (refine keep_with K hg ?_; intro g h; cases g <;> first | rfl | (cases h; done) | exact fun _ m => m | exact fun _ m => nomatch m)

theorem keep_execSeed (K : Keeps 0xe040150 P) (W : Stores P) (s : State) {t : State} (hg : P s) (h : execSeed s = .next t) :
    P t := by
  unfold execSeed at h
  repeat' first
    | with_reducible exact hg
    | (with_reducible cases h; done)
    | split at h
    | (injection h with h; subst h)
    | with_reducible apply keep_seed (K.mono (by decide)) W
    | with_reducible apply keep_holdAccess (K.mono (by decide))
    | with_reducible apply keep_ite
    | (refine keep_with K hg ?_; intro g h; cases g <;> first | rfl | (cases h; done) | exact fun _ m => m | exact fun _ m => nomatch m)

theorem keep_execSetGen (K : Keeps 0xe080150 P) (W : Stores P) (s : State) {t : State} (hg : P s) (h : execSetGen s = .next t) :
    P t := by
  unfold execSetGen at h
  repeat' first
    | with_reducible exact hg
    | (with_reducible cases h; done)
    | split at h
    | (injection h with h; subst h)
    | with_reducible apply keep_setGen (K.mono (by decide)) W
    | with_reducible apply keep_holdAccess (K.mono (by decide))
    | with_reducible apply keep_ite
    | (refine keep_with K hg ?_; intro g h; cases g <;> first | rfl | (cases h; done) | exact fun _ m => m | exact fun _ m => nomatch m)

theorem keep_execLost (K : Keeps 0xe080150 P) (W : Stores P) (s : State) {t : State} (hg : P s) (h : execLost s = .next t) :
    P t := by
  unfold execLost at h
  repeat' first
    | with_reducible exact hg
    | (with_reducible cases h; done)
    | split at h
    | (injection h with h; subst h)
    | with_reducible apply keep_lost (K.mono (by decide)) W
    | with_reducible apply keep_holdAccess (K.mono (by decide))
    | with_reducible apply keep_ite
    | (refine keep_with K hg ?_; intro g h; cases g <;> first | rfl | (cases h; done) | exact fun _ m => m | exact fun _ m => nomatch m)

theorem keep_execRemirror (K : Keeps 0xe040150 P) (W : Stores P) (s : State) {t : State} (hg : P s) (h : execRemirror s = .next t) :
    P t := by
  unfold execRemirror at h
  repeat' first
    | with_reducible exact hg
    | (with_reducible cases h; done)
    | split at h
    | (injection h with h; subst h)
    | with_reducible apply keep_remirror (K.mono (by decide)) W
    | with_reducible apply keep_holdAccess (K.mono (by decide))
    | with_reducible apply keep_ite
    | (refine keep_with K hg ?_; intro g h; cases g <;> first | rfl | (cases h; done) | exact fun _ m => m | exact fun _ m => nomatch m)

theorem keep_execInjectArm (K : Keeps 0xfe84550 P) (W : Stores P) (value : W32) (s : State) {t : State} (hg : P s) (h : execInjectArm value s = .next t) :
    P t := by
  unfold execInjectArm at h
  repeat' first
    | with_reducible exact hg
    | (with_reducible cases h; done)
    | split at h
    | (injection h with h; subst h)
    | with_reducible apply keep_injectArm (K.mono (by decide)) W
    | with_reducible apply keep_holdAccess (K.mono (by decide))
    | with_reducible apply keep_ite
    | (refine keep_with K hg ?_; intro g h; cases g <;> first | rfl | (cases h; done) | exact fun _ m => m | exact fun _ m => nomatch m)

theorem keep_execStragglerExpiry (K : Keeps 0x2000 P) (slot : Fin 4096) (s : State) {t : State} (hg : P s) (h : execStragglerExpiry slot s = .next t) :
    P t := by
  unfold execStragglerExpiry at h
  repeat' first
    | with_reducible exact hg
    | (with_reducible cases h; done)
    | split at h
    | (injection h with h; subst h)
    | with_reducible apply keep_stragglerExpiry (K.mono (by decide))
    | with_reducible apply keep_ite
    | (refine keep_with K hg ?_; intro g h; cases g <;> first | rfl | (cases h; done) | exact fun _ m => m | exact fun _ m => nomatch m)

theorem keep_execSilentChipExpiry (K : Keeps 0x4800000 P) (s : State) {t : State} (hg : P s) (h : execSilentChipExpiry s = .next t) :
    P t := by
  unfold execSilentChipExpiry at h
  repeat' first
    | with_reducible exact hg
    | (with_reducible cases h; done)
    | split at h
    | (injection h with h; subst h)
    | with_reducible apply keep_silentChipExpiry (K.mono (by decide))
    | with_reducible apply keep_ite
    | (refine keep_with K hg ?_; intro g h; cases g <;> first | rfl | (cases h; done) | exact fun _ m => m | exact fun _ m => nomatch m)

theorem keep_execAuthLogClear (K : Keeps 0x9000050 P) (value : W32) (s : State) {t : State} (hg : P s) (h : execAuthLogClear value s = .next t) :
    P t := by
  unfold execAuthLogClear at h
  repeat' first
    | with_reducible exact hg
    | (with_reducible cases h; done)
    | split at h
    | (injection h with h; subst h)
    | with_reducible apply keep_authLogClear (K.mono (by decide))
    | with_reducible apply keep_holdAccess (K.mono (by decide))
    | with_reducible apply keep_ite
    | (refine keep_with K hg ?_; intro g h; cases g <;> first | rfl | (cases h; done) | exact fun _ m => m | exact fun _ m => nomatch m)

theorem keep_execUcodeDataWrite (K : Keeps 0xa000350 P) (W : Stores P) (value : W32) (s : State) {t : State} (hg : P s) (h : execUcodeDataWrite value s = .next t) :
    P t := by
  unfold execUcodeDataWrite at h
  repeat' first
    | with_reducible exact hg
    | (with_reducible cases h; done)
    | split at h
    | (injection h with h; subst h)
    | with_reducible apply keep_ucodeDataWrite (K.mono (by decide)) W
    | with_reducible apply keep_holdAccess (K.mono (by decide))
    | with_reducible apply keep_ite
    | (refine keep_with K hg ?_; intro g h; cases g <;> first | rfl | (cases h; done) | exact fun _ m => m | exact fun _ m => nomatch m)

theorem keep_execCsqStart (K : Keeps 0xa000350 P) (W : Stores P) (value : W32) (s : State) {t : State} (hg : P s) (h : execCsqStart value s = .next t) :
    P t := by
  unfold execCsqStart at h
  repeat' first
    | with_reducible exact hg
    | (with_reducible cases h; done)
    | split at h
    | (injection h with h; subst h)
    | with_reducible apply keep_csqStart (K.mono (by decide)) W
    | with_reducible apply keep_holdAccess (K.mono (by decide))
    | with_reducible apply keep_ite
    | (refine keep_with K hg ?_; intro g h; cases g <;> first | rfl | (cases h; done) | exact fun _ m => m | exact fun _ m => nomatch m)

theorem keep_execMicrocodeCheckDone (K : Keeps 0xe000350 P) (W : Stores P) (s : State) {t : State} (hg : P s) (h : execMicrocodeCheckDone s = .next t) :
    P t := by
  unfold execMicrocodeCheckDone at h
  repeat' first
    | with_reducible exact hg
    | (with_reducible cases h; done)
    | split at h
    | (injection h with h; subst h)
    | with_reducible apply keep_microcodeCheckDone (K.mono (by decide)) W
    | with_reducible apply keep_ite
    | (refine keep_with K hg ?_; intro g h; cases g <;> first | rfl | (cases h; done) | exact fun _ m => m | exact fun _ m => nomatch m)

theorem keep_execPageErrClear (K : Keeps 0x8000050 P) (page : Fin 19) (value : W32) (s : State) {t : State} (hg : P s) (h : execPageErrClear page value s = .next t) :
    P t := by
  unfold execPageErrClear at h
  repeat' first
    | with_reducible exact hg
    | (with_reducible cases h; done)
    | split at h
    | (injection h with h; subst h)
    | with_reducible apply keep_pageErrClear (K.mono (by decide))
    | with_reducible apply keep_holdAccess (K.mono (by decide))
    | with_reducible apply keep_ite
    | (refine keep_with K hg ?_; intro g h; cases g <;> first | rfl | (cases h; done) | exact fun _ m => m | exact fun _ m => nomatch m)

theorem keep_execPageIrqClear (K : Keeps 0x8000050 P) (page : Fin 19) (value : W32) (s : State) {t : State} (hg : P s) (h : execPageIrqClear page value s = .next t) :
    P t := by
  unfold execPageIrqClear at h
  repeat' first
    | with_reducible exact hg
    | (with_reducible cases h; done)
    | split at h
    | (injection h with h; subst h)
    | with_reducible apply keep_pageIrqClear (K.mono (by decide))
    | with_reducible apply keep_holdAccess (K.mono (by decide))
    | with_reducible apply keep_ite
    | (refine keep_with K hg ?_; intro g h; cases g <;> first | rfl | (cases h; done) | exact fun _ m => m | exact fun _ m => nomatch m)

theorem keep_execPageIrqMaskWrite (K : Keeps 0x8000050 P) (page : Fin 19) (value : W32) (s : State) {t : State} (hg : P s) (h : execPageIrqMaskWrite page value s = .next t) :
    P t := by
  unfold execPageIrqMaskWrite at h
  repeat' first
    | with_reducible exact hg
    | (with_reducible cases h; done)
    | split at h
    | (injection h with h; subst h)
    | with_reducible apply keep_pageIrqMaskWrite (K.mono (by decide))
    | with_reducible apply keep_holdAccess (K.mono (by decide))
    | with_reducible apply keep_ite
    | (refine keep_with K hg ?_; intro g h; cases g <;> first | rfl | (cases h; done) | exact fun _ m => m | exact fun _ m => nomatch m)

theorem keep_execTrainingFlitSend (K : Keeps 0xfe84550 P) (W : Stores P) (port : Fin 10) (s : State) {t : State} (hg : P s) (h : execTrainingFlitSend port s = .next t) :
    P t := by
  unfold execTrainingFlitSend at h
  repeat' first
    | with_reducible exact hg
    | (with_reducible cases h; done)
    | split at h
    | (injection h with h; subst h)
    | with_reducible apply keep_trainingFlitSend (K.mono (by decide)) W
    | with_reducible apply keep_ite
    | (refine keep_with K hg ?_; intro g h; cases g <;> first | rfl | (cases h; done) | exact fun _ m => m | exact fun _ m => nomatch m)

theorem keep_execPhyPresentChange (K : Keeps 0xfe84550 P) (W : Stores P) (port : Fin 10) (present : Bool) (s : State) {t : State} (hg : P s) (h : execPhyPresentChange port present s = .next t) :
    P t := by
  unfold execPhyPresentChange at h
  repeat' first
    | with_reducible exact hg
    | (with_reducible cases h; done)
    | split at h
    | (injection h with h; subst h)
    | with_reducible apply keep_phyPresentChange (K.mono (by decide)) W
    | with_reducible apply keep_ite
    | (refine keep_with K hg ?_; intro g h; cases g <;> first | rfl | (cases h; done) | exact fun _ m => m | exact fun _ m => nomatch m)

theorem keep_execRemoteSignalComplete (K : Keeps 0x2004550 P) (W : Stores P) (ring : Fin 256) (s : State) {t : State} (hg : P s) (h : execRemoteSignalComplete ring s = .next t) :
    P t := by
  unfold execRemoteSignalComplete at h
  repeat' first
    | with_reducible exact hg
    | (with_reducible cases h; done)
    | split at h
    | (injection h with h; subst h)
    | with_reducible apply keep_remoteSignalComplete (K.mono (by decide)) W
    | with_reducible apply keep_ite
    | (refine keep_with K hg ?_; intro g h; cases g <;> first | rfl | (cases h; done) | exact fun _ m => m | exact fun _ m => nomatch m)

theorem keep_execSchedRise (K : Keeps 0x100 P) (s : State) {t : State} (hg : P s) (h : execSchedRise s = .next t) :
    P t := by
  unfold execSchedRise at h
  repeat' first
    | with_reducible exact hg
    | (with_reducible cases h; done)
    | split at h
    | (injection h with h; subst h)
    | with_reducible apply keep_schedRise (K.mono (by decide))
    | with_reducible apply keep_ite
    | (refine keep_with K hg ?_; intro g h; cases g <;> first | rfl | (cases h; done) | exact fun _ m => m | exact fun _ m => nomatch m)

end Sys2Proof.Laws
end

