-- ==== Sys2Proof/Laws/Reports.lean ====
section
/-! SUPPORT. Laws/Reports.lean: the fields that the operations that report something leave alone. -/

namespace Sys2Proof.Laws

open Sys2Proof.Machine Sys2Proof.Safety

variable (s : State)

@[simp] theorem reportCode_ccc (code : W16) : (reportCode code s).ccc = s.ccc :=
  keep_reportCode (P := Unchanged .ccc s) (keeps_unchanged s .ccc (by decide)) (stores_unchanged s .ccc (by decide) (by decide)) _ rfl
@[simp] theorem reportCode_tick (code : W16) : (reportCode code s).tick = s.tick :=
  keep_reportCode (P := Unchanged .tick s) (keeps_unchanged s .tick (by decide)) (stores_unchanged s .tick (by decide) (by decide)) _ rfl
@[simp] theorem reportCode_free (code : W16) : (reportCode code s).free = s.free :=
  keep_reportCode (P := Unchanged .free s) (keeps_unchanged s .free (by decide)) (stores_unchanged s .free (by decide) (by decide)) _ rfl
@[simp] theorem reportCode_pending (code : W16) : (reportCode code s).pending = s.pending :=
  keep_reportCode (P := Unchanged .pending s) (keeps_unchanged s .pending (by decide)) (stores_unchanged s .pending (by decide) (by decide)) _ rfl
@[simp] theorem reportCode_heldLow (code : W16) : (reportCode code s).heldLow = s.heldLow :=
  keep_reportCode (P := Unchanged .heldLow s) (keeps_unchanged s .heldLow (by decide)) (stores_unchanged s .heldLow (by decide) (by decide)) _ rfl
@[simp] theorem reportCode_ctl (code : W16) : (reportCode code s).ctl = s.ctl :=
  keep_reportCode (P := Unchanged .ctl s) (keeps_unchanged s .ctl (by decide)) (stores_unchanged s .ctl (by decide) (by decide)) _ rfl
@[simp] theorem reportCode_que (code : W16) : (reportCode code s).que = s.que :=
  keep_reportCode (P := Unchanged .que s) (keeps_unchanged s .que (by decide)) (stores_unchanged s .que (by decide) (by decide)) _ rfl
@[simp] theorem reportCode_tiles (code : W16) : (reportCode code s).tiles = s.tiles :=
  keep_reportCode (P := Unchanged .tiles s) (keeps_unchanged s .tiles (by decide)) (stores_unchanged s .tiles (by decide) (by decide)) _ rfl
@[simp] theorem reportCode_tpl (code : W16) : (reportCode code s).tpl = s.tpl :=
  keep_reportCode (P := Unchanged .tpl s) (keeps_unchanged s .tpl (by decide)) (stores_unchanged s .tpl (by decide) (by decide)) _ rfl
@[simp] theorem reportCode_ses (code : W16) : (reportCode code s).ses = s.ses :=
  keep_reportCode (P := Unchanged .ses s) (keeps_unchanged s .ses (by decide)) (stores_unchanged s .ses (by decide) (by decide)) _ rfl
@[simp] theorem reportCode_trk (code : W16) : (reportCode code s).trk = s.trk :=
  keep_reportCode (P := Unchanged .trk s) (keeps_unchanged s .trk (by decide)) (stores_unchanged s .trk (by decide) (by decide)) _ rfl
@[simp] theorem reportCode_red (code : W16) : (reportCode code s).red = s.red :=
  keep_reportCode (P := Unchanged .red s) (keeps_unchanged s .red (by decide)) (stores_unchanged s .red (by decide) (by decide)) _ rfl
@[simp] theorem reportCode_fin (code : W16) : (reportCode code s).fin = s.fin :=
  keep_reportCode (P := Unchanged .fin s) (keeps_unchanged s .fin (by decide)) (stores_unchanged s .fin (by decide) (by decide)) _ rfl
@[simp] theorem reportCode_row (code : W16) : (reportCode code s).row = s.row :=
  keep_reportCode (P := Unchanged .row s) (keeps_unchanged s .row (by decide)) (stores_unchanged s .row (by decide) (by decide)) _ rfl
@[simp] theorem reportCode_gas (code : W16) : (reportCode code s).gas = s.gas :=
  keep_reportCode (P := Unchanged .gas s) (keeps_unchanged s .gas (by decide)) (stores_unchanged s .gas (by decide) (by decide)) _ rfl
@[simp] theorem reportCode_opt (code : W16) : (reportCode code s).opt = s.opt :=
  keep_reportCode (P := Unchanged .opt s) (keeps_unchanged s .opt (by decide)) (stores_unchanged s .opt (by decide) (by decide)) _ rfl
@[simp] theorem reportCode_spx (code : W16) : (reportCode code s).spx = s.spx :=
  keep_reportCode (P := Unchanged .spx s) (keeps_unchanged s .spx (by decide)) (stores_unchanged s .spx (by decide) (by decide)) _ rfl
@[simp] theorem reportCode_syn (code : W16) : (reportCode code s).syn = s.syn :=
  keep_reportCode (P := Unchanged .syn s) (keeps_unchanged s .syn (by decide)) (stores_unchanged s .syn (by decide) (by decide)) _ rfl
@[simp] theorem reportCode_rtr (code : W16) : (reportCode code s).rtr = s.rtr :=
  keep_reportCode (P := Unchanged .rtr s) (keeps_unchanged s .rtr (by decide)) (stores_unchanged s .rtr (by decide) (by decide)) _ rfl
@[simp] theorem reportCode_lnk (code : W16) : (reportCode code s).lnk = s.lnk :=
  keep_reportCode (P := Unchanged .lnk s) (keeps_unchanged s .lnk (by decide)) (stores_unchanged s .lnk (by decide) (by decide)) _ rfl
@[simp] theorem reportCode_lsu (code : W16) : (reportCode code s).lsu = s.lsu :=
  keep_reportCode (P := Unchanged .lsu s) (keeps_unchanged s .lsu (by decide)) (stores_unchanged s .lsu (by decide) (by decide)) _ rfl
@[simp] theorem reportCode_flt (code : W16) : (reportCode code s).flt = s.flt :=
  keep_reportCode (P := Unchanged .flt s) (keeps_unchanged s .flt (by decide)) (stores_unchanged s .flt (by decide) (by decide)) _ rfl
@[simp] theorem reportCode_pwr (code : W16) : (reportCode code s).pwr = s.pwr :=
  keep_reportCode (P := Unchanged .pwr s) (keeps_unchanged s .pwr (by decide)) (stores_unchanged s .pwr (by decide) (by decide)) _ rfl
@[simp] theorem reportCode_rst (code : W16) : (reportCode code s).rst = s.rst :=
  keep_reportCode (P := Unchanged .rst s) (keeps_unchanged s .rst (by decide)) (stores_unchanged s .rst (by decide) (by decide)) _ rfl
@[simp] theorem reportCode_dbg (code : W16) : (reportCode code s).dbg = s.dbg :=
  keep_reportCode (P := Unchanged .dbg s) (keeps_unchanged s .dbg (by decide)) (stores_unchanged s .dbg (by decide) (by decide)) _ rfl

@[simp] theorem raiseVec_ccc (v : Nat) : (raiseVec v s).ccc = s.ccc :=
  keep_raiseVec (P := Unchanged .ccc s) (keeps_unchanged s .ccc (by decide)) _ rfl
@[simp] theorem raiseVec_tick (v : Nat) : (raiseVec v s).tick = s.tick :=
  keep_raiseVec (P := Unchanged .tick s) (keeps_unchanged s .tick (by decide)) _ rfl
@[simp] theorem raiseVec_free (v : Nat) : (raiseVec v s).free = s.free :=
  keep_raiseVec (P := Unchanged .free s) (keeps_unchanged s .free (by decide)) _ rfl
@[simp] theorem raiseVec_pending (v : Nat) : (raiseVec v s).pending = s.pending :=
  keep_raiseVec (P := Unchanged .pending s) (keeps_unchanged s .pending (by decide)) _ rfl
@[simp] theorem raiseVec_hdrs (v : Nat) : (raiseVec v s).hdrs = s.hdrs :=
  keep_raiseVec (P := Unchanged .hdrs s) (keeps_unchanged s .hdrs (by decide)) _ rfl
@[simp] theorem raiseVec_heldLow (v : Nat) : (raiseVec v s).heldLow = s.heldLow :=
  keep_raiseVec (P := Unchanged .heldLow s) (keeps_unchanged s .heldLow (by decide)) _ rfl
@[simp] theorem raiseVec_mem (v : Nat) : (raiseVec v s).mem = s.mem :=
  keep_raiseVec (P := Unchanged .mem s) (keeps_unchanged s .mem (by decide)) _ rfl
@[simp] theorem raiseVec_emp (v : Nat) : (raiseVec v s).emp = s.emp :=
  keep_raiseVec (P := Unchanged .emp s) (keeps_unchanged s .emp (by decide)) _ rfl
@[simp] theorem raiseVec_ctl (v : Nat) : (raiseVec v s).ctl = s.ctl :=
  keep_raiseVec (P := Unchanged .ctl s) (keeps_unchanged s .ctl (by decide)) _ rfl
@[simp] theorem raiseVec_que (v : Nat) : (raiseVec v s).que = s.que :=
  keep_raiseVec (P := Unchanged .que s) (keeps_unchanged s .que (by decide)) _ rfl
@[simp] theorem raiseVec_tiles (v : Nat) : (raiseVec v s).tiles = s.tiles :=
  keep_raiseVec (P := Unchanged .tiles s) (keeps_unchanged s .tiles (by decide)) _ rfl
@[simp] theorem raiseVec_tpl (v : Nat) : (raiseVec v s).tpl = s.tpl :=
  keep_raiseVec (P := Unchanged .tpl s) (keeps_unchanged s .tpl (by decide)) _ rfl
@[simp] theorem raiseVec_ses (v : Nat) : (raiseVec v s).ses = s.ses :=
  keep_raiseVec (P := Unchanged .ses s) (keeps_unchanged s .ses (by decide)) _ rfl
@[simp] theorem raiseVec_trk (v : Nat) : (raiseVec v s).trk = s.trk :=
  keep_raiseVec (P := Unchanged .trk s) (keeps_unchanged s .trk (by decide)) _ rfl
@[simp] theorem raiseVec_red (v : Nat) : (raiseVec v s).red = s.red :=
  keep_raiseVec (P := Unchanged .red s) (keeps_unchanged s .red (by decide)) _ rfl
@[simp] theorem raiseVec_fin (v : Nat) : (raiseVec v s).fin = s.fin :=
  keep_raiseVec (P := Unchanged .fin s) (keeps_unchanged s .fin (by decide)) _ rfl
@[simp] theorem raiseVec_row (v : Nat) : (raiseVec v s).row = s.row :=
  keep_raiseVec (P := Unchanged .row s) (keeps_unchanged s .row (by decide)) _ rfl
@[simp] theorem raiseVec_gas (v : Nat) : (raiseVec v s).gas = s.gas :=
  keep_raiseVec (P := Unchanged .gas s) (keeps_unchanged s .gas (by decide)) _ rfl
@[simp] theorem raiseVec_opt (v : Nat) : (raiseVec v s).opt = s.opt :=
  keep_raiseVec (P := Unchanged .opt s) (keeps_unchanged s .opt (by decide)) _ rfl
@[simp] theorem raiseVec_spx (v : Nat) : (raiseVec v s).spx = s.spx :=
  keep_raiseVec (P := Unchanged .spx s) (keeps_unchanged s .spx (by decide)) _ rfl
@[simp] theorem raiseVec_syn (v : Nat) : (raiseVec v s).syn = s.syn :=
  keep_raiseVec (P := Unchanged .syn s) (keeps_unchanged s .syn (by decide)) _ rfl
@[simp] theorem raiseVec_rtr (v : Nat) : (raiseVec v s).rtr = s.rtr :=
  keep_raiseVec (P := Unchanged .rtr s) (keeps_unchanged s .rtr (by decide)) _ rfl
@[simp] theorem raiseVec_lnk (v : Nat) : (raiseVec v s).lnk = s.lnk :=
  keep_raiseVec (P := Unchanged .lnk s) (keeps_unchanged s .lnk (by decide)) _ rfl
@[simp] theorem raiseVec_lsu (v : Nat) : (raiseVec v s).lsu = s.lsu :=
  keep_raiseVec (P := Unchanged .lsu s) (keeps_unchanged s .lsu (by decide)) _ rfl
@[simp] theorem raiseVec_rru (v : Nat) : (raiseVec v s).rru = s.rru :=
  keep_raiseVec (P := Unchanged .rru s) (keeps_unchanged s .rru (by decide)) _ rfl
@[simp] theorem raiseVec_flt (v : Nat) : (raiseVec v s).flt = s.flt :=
  keep_raiseVec (P := Unchanged .flt s) (keeps_unchanged s .flt (by decide)) _ rfl
@[simp] theorem raiseVec_pwr (v : Nat) : (raiseVec v s).pwr = s.pwr :=
  keep_raiseVec (P := Unchanged .pwr s) (keeps_unchanged s .pwr (by decide)) _ rfl
@[simp] theorem raiseVec_rst (v : Nat) : (raiseVec v s).rst = s.rst :=
  keep_raiseVec (P := Unchanged .rst s) (keeps_unchanged s .rst (by decide)) _ rfl
@[simp] theorem raiseVec_dbg (v : Nat) : (raiseVec v s).dbg = s.dbg :=
  keep_raiseVec (P := Unchanged .dbg s) (keeps_unchanged s .dbg (by decide)) _ rfl

@[simp] theorem setErr_ccc (p : Nat) : (setErr p s).ccc = s.ccc :=
  keep_setErr (P := Unchanged .ccc s) (keeps_unchanged s .ccc (by decide)) _ rfl
@[simp] theorem setErr_tick (p : Nat) : (setErr p s).tick = s.tick :=
  keep_setErr (P := Unchanged .tick s) (keeps_unchanged s .tick (by decide)) _ rfl
@[simp] theorem setErr_free (p : Nat) : (setErr p s).free = s.free :=
  keep_setErr (P := Unchanged .free s) (keeps_unchanged s .free (by decide)) _ rfl
@[simp] theorem setErr_pending (p : Nat) : (setErr p s).pending = s.pending :=
  keep_setErr (P := Unchanged .pending s) (keeps_unchanged s .pending (by decide)) _ rfl
@[simp] theorem setErr_heldLow (p : Nat) : (setErr p s).heldLow = s.heldLow :=
  keep_setErr (P := Unchanged .heldLow s) (keeps_unchanged s .heldLow (by decide)) _ rfl
@[simp] theorem setErr_mem (p : Nat) : (setErr p s).mem = s.mem :=
  keep_setErr (P := Unchanged .mem s) (keeps_unchanged s .mem (by decide)) _ rfl
@[simp] theorem setErr_emp (p : Nat) : (setErr p s).emp = s.emp :=
  keep_setErr (P := Unchanged .emp s) (keeps_unchanged s .emp (by decide)) _ rfl
@[simp] theorem setErr_ctl (p : Nat) : (setErr p s).ctl = s.ctl :=
  keep_setErr (P := Unchanged .ctl s) (keeps_unchanged s .ctl (by decide)) _ rfl
@[simp] theorem setErr_que (p : Nat) : (setErr p s).que = s.que :=
  keep_setErr (P := Unchanged .que s) (keeps_unchanged s .que (by decide)) _ rfl
@[simp] theorem setErr_tiles (p : Nat) : (setErr p s).tiles = s.tiles :=
  keep_setErr (P := Unchanged .tiles s) (keeps_unchanged s .tiles (by decide)) _ rfl
@[simp] theorem setErr_tpl (p : Nat) : (setErr p s).tpl = s.tpl :=
  keep_setErr (P := Unchanged .tpl s) (keeps_unchanged s .tpl (by decide)) _ rfl
@[simp] theorem setErr_ses (p : Nat) : (setErr p s).ses = s.ses :=
  keep_setErr (P := Unchanged .ses s) (keeps_unchanged s .ses (by decide)) _ rfl
@[simp] theorem setErr_trk (p : Nat) : (setErr p s).trk = s.trk :=
  keep_setErr (P := Unchanged .trk s) (keeps_unchanged s .trk (by decide)) _ rfl
@[simp] theorem setErr_red (p : Nat) : (setErr p s).red = s.red :=
  keep_setErr (P := Unchanged .red s) (keeps_unchanged s .red (by decide)) _ rfl
@[simp] theorem setErr_fin (p : Nat) : (setErr p s).fin = s.fin :=
  keep_setErr (P := Unchanged .fin s) (keeps_unchanged s .fin (by decide)) _ rfl
@[simp] theorem setErr_row (p : Nat) : (setErr p s).row = s.row :=
  keep_setErr (P := Unchanged .row s) (keeps_unchanged s .row (by decide)) _ rfl
@[simp] theorem setErr_gas (p : Nat) : (setErr p s).gas = s.gas :=
  keep_setErr (P := Unchanged .gas s) (keeps_unchanged s .gas (by decide)) _ rfl
@[simp] theorem setErr_opt (p : Nat) : (setErr p s).opt = s.opt :=
  keep_setErr (P := Unchanged .opt s) (keeps_unchanged s .opt (by decide)) _ rfl
@[simp] theorem setErr_spx (p : Nat) : (setErr p s).spx = s.spx :=
  keep_setErr (P := Unchanged .spx s) (keeps_unchanged s .spx (by decide)) _ rfl
@[simp] theorem setErr_syn (p : Nat) : (setErr p s).syn = s.syn :=
  keep_setErr (P := Unchanged .syn s) (keeps_unchanged s .syn (by decide)) _ rfl
@[simp] theorem setErr_rtr (p : Nat) : (setErr p s).rtr = s.rtr :=
  keep_setErr (P := Unchanged .rtr s) (keeps_unchanged s .rtr (by decide)) _ rfl
@[simp] theorem setErr_lnk (p : Nat) : (setErr p s).lnk = s.lnk :=
  keep_setErr (P := Unchanged .lnk s) (keeps_unchanged s .lnk (by decide)) _ rfl
@[simp] theorem setErr_lsu (p : Nat) : (setErr p s).lsu = s.lsu :=
  keep_setErr (P := Unchanged .lsu s) (keeps_unchanged s .lsu (by decide)) _ rfl
@[simp] theorem setErr_rru (p : Nat) : (setErr p s).rru = s.rru :=
  keep_setErr (P := Unchanged .rru s) (keeps_unchanged s .rru (by decide)) _ rfl
@[simp] theorem setErr_flt (p : Nat) : (setErr p s).flt = s.flt :=
  keep_setErr (P := Unchanged .flt s) (keeps_unchanged s .flt (by decide)) _ rfl
@[simp] theorem setErr_pwr (p : Nat) : (setErr p s).pwr = s.pwr :=
  keep_setErr (P := Unchanged .pwr s) (keeps_unchanged s .pwr (by decide)) _ rfl
@[simp] theorem setErr_rst (p : Nat) : (setErr p s).rst = s.rst :=
  keep_setErr (P := Unchanged .rst s) (keeps_unchanged s .rst (by decide)) _ rfl
@[simp] theorem setErr_dbg (p : Nat) : (setErr p s).dbg = s.dbg :=
  keep_setErr (P := Unchanged .dbg s) (keeps_unchanged s .dbg (by decide)) _ rfl

@[simp] theorem setSat_ccc (p : Nat) : (setSat p s).ccc = s.ccc :=
  keep_setSat (P := Unchanged .ccc s) (keeps_unchanged s .ccc (by decide)) _ rfl
@[simp] theorem setSat_tick (p : Nat) : (setSat p s).tick = s.tick :=
  keep_setSat (P := Unchanged .tick s) (keeps_unchanged s .tick (by decide)) _ rfl
@[simp] theorem setSat_free (p : Nat) : (setSat p s).free = s.free :=
  keep_setSat (P := Unchanged .free s) (keeps_unchanged s .free (by decide)) _ rfl
@[simp] theorem setSat_pending (p : Nat) : (setSat p s).pending = s.pending :=
  keep_setSat (P := Unchanged .pending s) (keeps_unchanged s .pending (by decide)) _ rfl
@[simp] theorem setSat_heldLow (p : Nat) : (setSat p s).heldLow = s.heldLow :=
  keep_setSat (P := Unchanged .heldLow s) (keeps_unchanged s .heldLow (by decide)) _ rfl
@[simp] theorem setSat_mem (p : Nat) : (setSat p s).mem = s.mem :=
  keep_setSat (P := Unchanged .mem s) (keeps_unchanged s .mem (by decide)) _ rfl
@[simp] theorem setSat_emp (p : Nat) : (setSat p s).emp = s.emp :=
  keep_setSat (P := Unchanged .emp s) (keeps_unchanged s .emp (by decide)) _ rfl
@[simp] theorem setSat_ctl (p : Nat) : (setSat p s).ctl = s.ctl :=
  keep_setSat (P := Unchanged .ctl s) (keeps_unchanged s .ctl (by decide)) _ rfl
@[simp] theorem setSat_que (p : Nat) : (setSat p s).que = s.que :=
  keep_setSat (P := Unchanged .que s) (keeps_unchanged s .que (by decide)) _ rfl
@[simp] theorem setSat_tiles (p : Nat) : (setSat p s).tiles = s.tiles :=
  keep_setSat (P := Unchanged .tiles s) (keeps_unchanged s .tiles (by decide)) _ rfl
@[simp] theorem setSat_tpl (p : Nat) : (setSat p s).tpl = s.tpl :=
  keep_setSat (P := Unchanged .tpl s) (keeps_unchanged s .tpl (by decide)) _ rfl
@[simp] theorem setSat_ses (p : Nat) : (setSat p s).ses = s.ses :=
  keep_setSat (P := Unchanged .ses s) (keeps_unchanged s .ses (by decide)) _ rfl
@[simp] theorem setSat_trk (p : Nat) : (setSat p s).trk = s.trk :=
  keep_setSat (P := Unchanged .trk s) (keeps_unchanged s .trk (by decide)) _ rfl
@[simp] theorem setSat_red (p : Nat) : (setSat p s).red = s.red :=
  keep_setSat (P := Unchanged .red s) (keeps_unchanged s .red (by decide)) _ rfl
@[simp] theorem setSat_fin (p : Nat) : (setSat p s).fin = s.fin :=
  keep_setSat (P := Unchanged .fin s) (keeps_unchanged s .fin (by decide)) _ rfl
@[simp] theorem setSat_row (p : Nat) : (setSat p s).row = s.row :=
  keep_setSat (P := Unchanged .row s) (keeps_unchanged s .row (by decide)) _ rfl
@[simp] theorem setSat_gas (p : Nat) : (setSat p s).gas = s.gas :=
  keep_setSat (P := Unchanged .gas s) (keeps_unchanged s .gas (by decide)) _ rfl
@[simp] theorem setSat_opt (p : Nat) : (setSat p s).opt = s.opt :=
  keep_setSat (P := Unchanged .opt s) (keeps_unchanged s .opt (by decide)) _ rfl
@[simp] theorem setSat_spx (p : Nat) : (setSat p s).spx = s.spx :=
  keep_setSat (P := Unchanged .spx s) (keeps_unchanged s .spx (by decide)) _ rfl
@[simp] theorem setSat_syn (p : Nat) : (setSat p s).syn = s.syn :=
  keep_setSat (P := Unchanged .syn s) (keeps_unchanged s .syn (by decide)) _ rfl
@[simp] theorem setSat_rtr (p : Nat) : (setSat p s).rtr = s.rtr :=
  keep_setSat (P := Unchanged .rtr s) (keeps_unchanged s .rtr (by decide)) _ rfl
@[simp] theorem setSat_lnk (p : Nat) : (setSat p s).lnk = s.lnk :=
  keep_setSat (P := Unchanged .lnk s) (keeps_unchanged s .lnk (by decide)) _ rfl
@[simp] theorem setSat_lsu (p : Nat) : (setSat p s).lsu = s.lsu :=
  keep_setSat (P := Unchanged .lsu s) (keeps_unchanged s .lsu (by decide)) _ rfl
@[simp] theorem setSat_rru (p : Nat) : (setSat p s).rru = s.rru :=
  keep_setSat (P := Unchanged .rru s) (keeps_unchanged s .rru (by decide)) _ rfl
@[simp] theorem setSat_flt (p : Nat) : (setSat p s).flt = s.flt :=
  keep_setSat (P := Unchanged .flt s) (keeps_unchanged s .flt (by decide)) _ rfl
@[simp] theorem setSat_pwr (p : Nat) : (setSat p s).pwr = s.pwr :=
  keep_setSat (P := Unchanged .pwr s) (keeps_unchanged s .pwr (by decide)) _ rfl
@[simp] theorem setSat_rst (p : Nat) : (setSat p s).rst = s.rst :=
  keep_setSat (P := Unchanged .rst s) (keeps_unchanged s .rst (by decide)) _ rfl
@[simp] theorem setSat_dbg (p : Nat) : (setSat p s).dbg = s.dbg :=
  keep_setSat (P := Unchanged .dbg s) (keeps_unchanged s .dbg (by decide)) _ rfl

@[simp] theorem pageErr_ccc (p : Nat) (code : W16) : (pageErr p code s).ccc = s.ccc :=
  keep_pageErr (P := Unchanged .ccc s) (keeps_unchanged s .ccc (by decide)) (stores_unchanged s .ccc (by decide) (by decide)) _ _ rfl
@[simp] theorem pageErr_tick (p : Nat) (code : W16) : (pageErr p code s).tick = s.tick :=
  keep_pageErr (P := Unchanged .tick s) (keeps_unchanged s .tick (by decide)) (stores_unchanged s .tick (by decide) (by decide)) _ _ rfl
@[simp] theorem pageErr_free (p : Nat) (code : W16) : (pageErr p code s).free = s.free :=
  keep_pageErr (P := Unchanged .free s) (keeps_unchanged s .free (by decide)) (stores_unchanged s .free (by decide) (by decide)) _ _ rfl
@[simp] theorem pageErr_pending (p : Nat) (code : W16) : (pageErr p code s).pending = s.pending :=
  keep_pageErr (P := Unchanged .pending s) (keeps_unchanged s .pending (by decide)) (stores_unchanged s .pending (by decide) (by decide)) _ _ rfl
@[simp] theorem pageErr_heldLow (p : Nat) (code : W16) : (pageErr p code s).heldLow = s.heldLow :=
  keep_pageErr (P := Unchanged .heldLow s) (keeps_unchanged s .heldLow (by decide)) (stores_unchanged s .heldLow (by decide) (by decide)) _ _ rfl
@[simp] theorem pageErr_ctl (p : Nat) (code : W16) : (pageErr p code s).ctl = s.ctl :=
  keep_pageErr (P := Unchanged .ctl s) (keeps_unchanged s .ctl (by decide)) (stores_unchanged s .ctl (by decide) (by decide)) _ _ rfl
@[simp] theorem pageErr_que (p : Nat) (code : W16) : (pageErr p code s).que = s.que :=
  keep_pageErr (P := Unchanged .que s) (keeps_unchanged s .que (by decide)) (stores_unchanged s .que (by decide) (by decide)) _ _ rfl
@[simp] theorem pageErr_tiles (p : Nat) (code : W16) : (pageErr p code s).tiles = s.tiles :=
  keep_pageErr (P := Unchanged .tiles s) (keeps_unchanged s .tiles (by decide)) (stores_unchanged s .tiles (by decide) (by decide)) _ _ rfl
@[simp] theorem pageErr_tpl (p : Nat) (code : W16) : (pageErr p code s).tpl = s.tpl :=
  keep_pageErr (P := Unchanged .tpl s) (keeps_unchanged s .tpl (by decide)) (stores_unchanged s .tpl (by decide) (by decide)) _ _ rfl
@[simp] theorem pageErr_ses (p : Nat) (code : W16) : (pageErr p code s).ses = s.ses :=
  keep_pageErr (P := Unchanged .ses s) (keeps_unchanged s .ses (by decide)) (stores_unchanged s .ses (by decide) (by decide)) _ _ rfl
@[simp] theorem pageErr_trk (p : Nat) (code : W16) : (pageErr p code s).trk = s.trk :=
  keep_pageErr (P := Unchanged .trk s) (keeps_unchanged s .trk (by decide)) (stores_unchanged s .trk (by decide) (by decide)) _ _ rfl
@[simp] theorem pageErr_red (p : Nat) (code : W16) : (pageErr p code s).red = s.red :=
  keep_pageErr (P := Unchanged .red s) (keeps_unchanged s .red (by decide)) (stores_unchanged s .red (by decide) (by decide)) _ _ rfl
@[simp] theorem pageErr_fin (p : Nat) (code : W16) : (pageErr p code s).fin = s.fin :=
  keep_pageErr (P := Unchanged .fin s) (keeps_unchanged s .fin (by decide)) (stores_unchanged s .fin (by decide) (by decide)) _ _ rfl
@[simp] theorem pageErr_row (p : Nat) (code : W16) : (pageErr p code s).row = s.row :=
  keep_pageErr (P := Unchanged .row s) (keeps_unchanged s .row (by decide)) (stores_unchanged s .row (by decide) (by decide)) _ _ rfl
@[simp] theorem pageErr_gas (p : Nat) (code : W16) : (pageErr p code s).gas = s.gas :=
  keep_pageErr (P := Unchanged .gas s) (keeps_unchanged s .gas (by decide)) (stores_unchanged s .gas (by decide) (by decide)) _ _ rfl
@[simp] theorem pageErr_opt (p : Nat) (code : W16) : (pageErr p code s).opt = s.opt :=
  keep_pageErr (P := Unchanged .opt s) (keeps_unchanged s .opt (by decide)) (stores_unchanged s .opt (by decide) (by decide)) _ _ rfl
@[simp] theorem pageErr_spx (p : Nat) (code : W16) : (pageErr p code s).spx = s.spx :=
  keep_pageErr (P := Unchanged .spx s) (keeps_unchanged s .spx (by decide)) (stores_unchanged s .spx (by decide) (by decide)) _ _ rfl
@[simp] theorem pageErr_syn (p : Nat) (code : W16) : (pageErr p code s).syn = s.syn :=
  keep_pageErr (P := Unchanged .syn s) (keeps_unchanged s .syn (by decide)) (stores_unchanged s .syn (by decide) (by decide)) _ _ rfl
@[simp] theorem pageErr_rtr (p : Nat) (code : W16) : (pageErr p code s).rtr = s.rtr :=
  keep_pageErr (P := Unchanged .rtr s) (keeps_unchanged s .rtr (by decide)) (stores_unchanged s .rtr (by decide) (by decide)) _ _ rfl
@[simp] theorem pageErr_lnk (p : Nat) (code : W16) : (pageErr p code s).lnk = s.lnk :=
  keep_pageErr (P := Unchanged .lnk s) (keeps_unchanged s .lnk (by decide)) (stores_unchanged s .lnk (by decide) (by decide)) _ _ rfl
@[simp] theorem pageErr_lsu (p : Nat) (code : W16) : (pageErr p code s).lsu = s.lsu :=
  keep_pageErr (P := Unchanged .lsu s) (keeps_unchanged s .lsu (by decide)) (stores_unchanged s .lsu (by decide) (by decide)) _ _ rfl
@[simp] theorem pageErr_flt (p : Nat) (code : W16) : (pageErr p code s).flt = s.flt :=
  keep_pageErr (P := Unchanged .flt s) (keeps_unchanged s .flt (by decide)) (stores_unchanged s .flt (by decide) (by decide)) _ _ rfl
@[simp] theorem pageErr_pwr (p : Nat) (code : W16) : (pageErr p code s).pwr = s.pwr :=
  keep_pageErr (P := Unchanged .pwr s) (keeps_unchanged s .pwr (by decide)) (stores_unchanged s .pwr (by decide) (by decide)) _ _ rfl
@[simp] theorem pageErr_rst (p : Nat) (code : W16) : (pageErr p code s).rst = s.rst :=
  keep_pageErr (P := Unchanged .rst s) (keeps_unchanged s .rst (by decide)) (stores_unchanged s .rst (by decide) (by decide)) _ _ rfl
@[simp] theorem pageErr_dbg (p : Nat) (code : W16) : (pageErr p code s).dbg = s.dbg :=
  keep_pageErr (P := Unchanged .dbg s) (keeps_unchanged s .dbg (by decide)) (stores_unchanged s .dbg (by decide) (by decide)) _ _ rfl

@[simp] theorem raiseError_ccc (code : W16) : (raiseError code s).ccc = s.ccc :=
  keep_raiseError (P := Unchanged .ccc s) (keeps_unchanged s .ccc (by decide)) (stores_unchanged s .ccc (by decide) (by decide)) _ rfl
@[simp] theorem raiseError_tick (code : W16) : (raiseError code s).tick = s.tick :=
  keep_raiseError (P := Unchanged .tick s) (keeps_unchanged s .tick (by decide)) (stores_unchanged s .tick (by decide) (by decide)) _ rfl
@[simp] theorem raiseError_free (code : W16) : (raiseError code s).free = s.free :=
  keep_raiseError (P := Unchanged .free s) (keeps_unchanged s .free (by decide)) (stores_unchanged s .free (by decide) (by decide)) _ rfl
@[simp] theorem raiseError_pending (code : W16) : (raiseError code s).pending = s.pending :=
  keep_raiseError (P := Unchanged .pending s) (keeps_unchanged s .pending (by decide)) (stores_unchanged s .pending (by decide) (by decide)) _ rfl
@[simp] theorem raiseError_heldLow (code : W16) : (raiseError code s).heldLow = s.heldLow :=
  keep_raiseError (P := Unchanged .heldLow s) (keeps_unchanged s .heldLow (by decide)) (stores_unchanged s .heldLow (by decide) (by decide)) _ rfl
@[simp] theorem raiseError_ctl (code : W16) : (raiseError code s).ctl = s.ctl :=
  keep_raiseError (P := Unchanged .ctl s) (keeps_unchanged s .ctl (by decide)) (stores_unchanged s .ctl (by decide) (by decide)) _ rfl
@[simp] theorem raiseError_que (code : W16) : (raiseError code s).que = s.que :=
  keep_raiseError (P := Unchanged .que s) (keeps_unchanged s .que (by decide)) (stores_unchanged s .que (by decide) (by decide)) _ rfl
@[simp] theorem raiseError_tiles (code : W16) : (raiseError code s).tiles = s.tiles :=
  keep_raiseError (P := Unchanged .tiles s) (keeps_unchanged s .tiles (by decide)) (stores_unchanged s .tiles (by decide) (by decide)) _ rfl
@[simp] theorem raiseError_tpl (code : W16) : (raiseError code s).tpl = s.tpl :=
  keep_raiseError (P := Unchanged .tpl s) (keeps_unchanged s .tpl (by decide)) (stores_unchanged s .tpl (by decide) (by decide)) _ rfl
@[simp] theorem raiseError_ses (code : W16) : (raiseError code s).ses = s.ses :=
  keep_raiseError (P := Unchanged .ses s) (keeps_unchanged s .ses (by decide)) (stores_unchanged s .ses (by decide) (by decide)) _ rfl
@[simp] theorem raiseError_trk (code : W16) : (raiseError code s).trk = s.trk :=
  keep_raiseError (P := Unchanged .trk s) (keeps_unchanged s .trk (by decide)) (stores_unchanged s .trk (by decide) (by decide)) _ rfl
@[simp] theorem raiseError_red (code : W16) : (raiseError code s).red = s.red :=
  keep_raiseError (P := Unchanged .red s) (keeps_unchanged s .red (by decide)) (stores_unchanged s .red (by decide) (by decide)) _ rfl
@[simp] theorem raiseError_fin (code : W16) : (raiseError code s).fin = s.fin :=
  keep_raiseError (P := Unchanged .fin s) (keeps_unchanged s .fin (by decide)) (stores_unchanged s .fin (by decide) (by decide)) _ rfl
@[simp] theorem raiseError_row (code : W16) : (raiseError code s).row = s.row :=
  keep_raiseError (P := Unchanged .row s) (keeps_unchanged s .row (by decide)) (stores_unchanged s .row (by decide) (by decide)) _ rfl
@[simp] theorem raiseError_gas (code : W16) : (raiseError code s).gas = s.gas :=
  keep_raiseError (P := Unchanged .gas s) (keeps_unchanged s .gas (by decide)) (stores_unchanged s .gas (by decide) (by decide)) _ rfl
@[simp] theorem raiseError_opt (code : W16) : (raiseError code s).opt = s.opt :=
  keep_raiseError (P := Unchanged .opt s) (keeps_unchanged s .opt (by decide)) (stores_unchanged s .opt (by decide) (by decide)) _ rfl
@[simp] theorem raiseError_spx (code : W16) : (raiseError code s).spx = s.spx :=
  keep_raiseError (P := Unchanged .spx s) (keeps_unchanged s .spx (by decide)) (stores_unchanged s .spx (by decide) (by decide)) _ rfl
@[simp] theorem raiseError_syn (code : W16) : (raiseError code s).syn = s.syn :=
  keep_raiseError (P := Unchanged .syn s) (keeps_unchanged s .syn (by decide)) (stores_unchanged s .syn (by decide) (by decide)) _ rfl
@[simp] theorem raiseError_rtr (code : W16) : (raiseError code s).rtr = s.rtr :=
  keep_raiseError (P := Unchanged .rtr s) (keeps_unchanged s .rtr (by decide)) (stores_unchanged s .rtr (by decide) (by decide)) _ rfl
@[simp] theorem raiseError_lnk (code : W16) : (raiseError code s).lnk = s.lnk :=
  keep_raiseError (P := Unchanged .lnk s) (keeps_unchanged s .lnk (by decide)) (stores_unchanged s .lnk (by decide) (by decide)) _ rfl
@[simp] theorem raiseError_lsu (code : W16) : (raiseError code s).lsu = s.lsu :=
  keep_raiseError (P := Unchanged .lsu s) (keeps_unchanged s .lsu (by decide)) (stores_unchanged s .lsu (by decide) (by decide)) _ rfl
@[simp] theorem raiseError_flt (code : W16) : (raiseError code s).flt = s.flt :=
  keep_raiseError (P := Unchanged .flt s) (keeps_unchanged s .flt (by decide)) (stores_unchanged s .flt (by decide) (by decide)) _ rfl
@[simp] theorem raiseError_pwr (code : W16) : (raiseError code s).pwr = s.pwr :=
  keep_raiseError (P := Unchanged .pwr s) (keeps_unchanged s .pwr (by decide)) (stores_unchanged s .pwr (by decide) (by decide)) _ rfl
@[simp] theorem raiseError_rst (code : W16) : (raiseError code s).rst = s.rst :=
  keep_raiseError (P := Unchanged .rst s) (keeps_unchanged s .rst (by decide)) (stores_unchanged s .rst (by decide) (by decide)) _ rfl
@[simp] theorem raiseError_dbg (code : W16) : (raiseError code s).dbg = s.dbg :=
  keep_raiseError (P := Unchanged .dbg s) (keeps_unchanged s .dbg (by decide)) (stores_unchanged s .dbg (by decide) (by decide)) _ rfl

@[simp] theorem raiseSecurity_ccc (code : W16) : (raiseSecurity code s).ccc = s.ccc :=
  keep_raiseSecurity (P := Unchanged .ccc s) (keeps_unchanged s .ccc (by decide)) (stores_unchanged s .ccc (by decide) (by decide)) _ rfl
@[simp] theorem raiseSecurity_tick (code : W16) : (raiseSecurity code s).tick = s.tick :=
  keep_raiseSecurity (P := Unchanged .tick s) (keeps_unchanged s .tick (by decide)) (stores_unchanged s .tick (by decide) (by decide)) _ rfl
@[simp] theorem raiseSecurity_free (code : W16) : (raiseSecurity code s).free = s.free :=
  keep_raiseSecurity (P := Unchanged .free s) (keeps_unchanged s .free (by decide)) (stores_unchanged s .free (by decide) (by decide)) _ rfl
@[simp] theorem raiseSecurity_pending (code : W16) : (raiseSecurity code s).pending = s.pending :=
  keep_raiseSecurity (P := Unchanged .pending s) (keeps_unchanged s .pending (by decide)) (stores_unchanged s .pending (by decide) (by decide)) _ rfl
@[simp] theorem raiseSecurity_heldLow (code : W16) : (raiseSecurity code s).heldLow = s.heldLow :=
  keep_raiseSecurity (P := Unchanged .heldLow s) (keeps_unchanged s .heldLow (by decide)) (stores_unchanged s .heldLow (by decide) (by decide)) _ rfl
@[simp] theorem raiseSecurity_ctl (code : W16) : (raiseSecurity code s).ctl = s.ctl :=
  keep_raiseSecurity (P := Unchanged .ctl s) (keeps_unchanged s .ctl (by decide)) (stores_unchanged s .ctl (by decide) (by decide)) _ rfl
@[simp] theorem raiseSecurity_que (code : W16) : (raiseSecurity code s).que = s.que :=
  keep_raiseSecurity (P := Unchanged .que s) (keeps_unchanged s .que (by decide)) (stores_unchanged s .que (by decide) (by decide)) _ rfl
@[simp] theorem raiseSecurity_tiles (code : W16) : (raiseSecurity code s).tiles = s.tiles :=
  keep_raiseSecurity (P := Unchanged .tiles s) (keeps_unchanged s .tiles (by decide)) (stores_unchanged s .tiles (by decide) (by decide)) _ rfl
@[simp] theorem raiseSecurity_tpl (code : W16) : (raiseSecurity code s).tpl = s.tpl :=
  keep_raiseSecurity (P := Unchanged .tpl s) (keeps_unchanged s .tpl (by decide)) (stores_unchanged s .tpl (by decide) (by decide)) _ rfl
@[simp] theorem raiseSecurity_ses (code : W16) : (raiseSecurity code s).ses = s.ses :=
  keep_raiseSecurity (P := Unchanged .ses s) (keeps_unchanged s .ses (by decide)) (stores_unchanged s .ses (by decide) (by decide)) _ rfl
@[simp] theorem raiseSecurity_trk (code : W16) : (raiseSecurity code s).trk = s.trk :=
  keep_raiseSecurity (P := Unchanged .trk s) (keeps_unchanged s .trk (by decide)) (stores_unchanged s .trk (by decide) (by decide)) _ rfl
@[simp] theorem raiseSecurity_red (code : W16) : (raiseSecurity code s).red = s.red :=
  keep_raiseSecurity (P := Unchanged .red s) (keeps_unchanged s .red (by decide)) (stores_unchanged s .red (by decide) (by decide)) _ rfl
@[simp] theorem raiseSecurity_fin (code : W16) : (raiseSecurity code s).fin = s.fin :=
  keep_raiseSecurity (P := Unchanged .fin s) (keeps_unchanged s .fin (by decide)) (stores_unchanged s .fin (by decide) (by decide)) _ rfl
@[simp] theorem raiseSecurity_row (code : W16) : (raiseSecurity code s).row = s.row :=
  keep_raiseSecurity (P := Unchanged .row s) (keeps_unchanged s .row (by decide)) (stores_unchanged s .row (by decide) (by decide)) _ rfl
@[simp] theorem raiseSecurity_gas (code : W16) : (raiseSecurity code s).gas = s.gas :=
  keep_raiseSecurity (P := Unchanged .gas s) (keeps_unchanged s .gas (by decide)) (stores_unchanged s .gas (by decide) (by decide)) _ rfl
@[simp] theorem raiseSecurity_opt (code : W16) : (raiseSecurity code s).opt = s.opt :=
  keep_raiseSecurity (P := Unchanged .opt s) (keeps_unchanged s .opt (by decide)) (stores_unchanged s .opt (by decide) (by decide)) _ rfl
@[simp] theorem raiseSecurity_spx (code : W16) : (raiseSecurity code s).spx = s.spx :=
  keep_raiseSecurity (P := Unchanged .spx s) (keeps_unchanged s .spx (by decide)) (stores_unchanged s .spx (by decide) (by decide)) _ rfl
@[simp] theorem raiseSecurity_syn (code : W16) : (raiseSecurity code s).syn = s.syn :=
  keep_raiseSecurity (P := Unchanged .syn s) (keeps_unchanged s .syn (by decide)) (stores_unchanged s .syn (by decide) (by decide)) _ rfl
@[simp] theorem raiseSecurity_rtr (code : W16) : (raiseSecurity code s).rtr = s.rtr :=
  keep_raiseSecurity (P := Unchanged .rtr s) (keeps_unchanged s .rtr (by decide)) (stores_unchanged s .rtr (by decide) (by decide)) _ rfl
@[simp] theorem raiseSecurity_lnk (code : W16) : (raiseSecurity code s).lnk = s.lnk :=
  keep_raiseSecurity (P := Unchanged .lnk s) (keeps_unchanged s .lnk (by decide)) (stores_unchanged s .lnk (by decide) (by decide)) _ rfl
@[simp] theorem raiseSecurity_lsu (code : W16) : (raiseSecurity code s).lsu = s.lsu :=
  keep_raiseSecurity (P := Unchanged .lsu s) (keeps_unchanged s .lsu (by decide)) (stores_unchanged s .lsu (by decide) (by decide)) _ rfl
@[simp] theorem raiseSecurity_flt (code : W16) : (raiseSecurity code s).flt = s.flt :=
  keep_raiseSecurity (P := Unchanged .flt s) (keeps_unchanged s .flt (by decide)) (stores_unchanged s .flt (by decide) (by decide)) _ rfl
@[simp] theorem raiseSecurity_pwr (code : W16) : (raiseSecurity code s).pwr = s.pwr :=
  keep_raiseSecurity (P := Unchanged .pwr s) (keeps_unchanged s .pwr (by decide)) (stores_unchanged s .pwr (by decide) (by decide)) _ rfl
@[simp] theorem raiseSecurity_rst (code : W16) : (raiseSecurity code s).rst = s.rst :=
  keep_raiseSecurity (P := Unchanged .rst s) (keeps_unchanged s .rst (by decide)) (stores_unchanged s .rst (by decide) (by decide)) _ rfl
@[simp] theorem raiseSecurity_dbg (code : W16) : (raiseSecurity code s).dbg = s.dbg :=
  keep_raiseSecurity (P := Unchanged .dbg s) (keeps_unchanged s .dbg (by decide)) (stores_unchanged s .dbg (by decide) (by decide)) _ rfl

@[simp] theorem raiseStep_ccc  : (raiseStep s).ccc = s.ccc :=
  keep_raiseStep (P := Unchanged .ccc s) (keeps_unchanged s .ccc (by decide))  rfl
@[simp] theorem raiseStep_tick  : (raiseStep s).tick = s.tick :=
  keep_raiseStep (P := Unchanged .tick s) (keeps_unchanged s .tick (by decide))  rfl
@[simp] theorem raiseStep_free  : (raiseStep s).free = s.free :=
  keep_raiseStep (P := Unchanged .free s) (keeps_unchanged s .free (by decide))  rfl
@[simp] theorem raiseStep_pending  : (raiseStep s).pending = s.pending :=
  keep_raiseStep (P := Unchanged .pending s) (keeps_unchanged s .pending (by decide))  rfl
@[simp] theorem raiseStep_hdrs  : (raiseStep s).hdrs = s.hdrs :=
  keep_raiseStep (P := Unchanged .hdrs s) (keeps_unchanged s .hdrs (by decide))  rfl
@[simp] theorem raiseStep_heldLow  : (raiseStep s).heldLow = s.heldLow :=
  keep_raiseStep (P := Unchanged .heldLow s) (keeps_unchanged s .heldLow (by decide))  rfl
@[simp] theorem raiseStep_mem  : (raiseStep s).mem = s.mem :=
  keep_raiseStep (P := Unchanged .mem s) (keeps_unchanged s .mem (by decide))  rfl
@[simp] theorem raiseStep_emp  : (raiseStep s).emp = s.emp :=
  keep_raiseStep (P := Unchanged .emp s) (keeps_unchanged s .emp (by decide))  rfl
@[simp] theorem raiseStep_ctl  : (raiseStep s).ctl = s.ctl :=
  keep_raiseStep (P := Unchanged .ctl s) (keeps_unchanged s .ctl (by decide))  rfl
@[simp] theorem raiseStep_que  : (raiseStep s).que = s.que :=
  keep_raiseStep (P := Unchanged .que s) (keeps_unchanged s .que (by decide))  rfl
@[simp] theorem raiseStep_tiles  : (raiseStep s).tiles = s.tiles :=
  keep_raiseStep (P := Unchanged .tiles s) (keeps_unchanged s .tiles (by decide))  rfl
@[simp] theorem raiseStep_tpl  : (raiseStep s).tpl = s.tpl :=
  keep_raiseStep (P := Unchanged .tpl s) (keeps_unchanged s .tpl (by decide))  rfl
@[simp] theorem raiseStep_ses  : (raiseStep s).ses = s.ses :=
  keep_raiseStep (P := Unchanged .ses s) (keeps_unchanged s .ses (by decide))  rfl
@[simp] theorem raiseStep_trk  : (raiseStep s).trk = s.trk :=
  keep_raiseStep (P := Unchanged .trk s) (keeps_unchanged s .trk (by decide))  rfl
@[simp] theorem raiseStep_red  : (raiseStep s).red = s.red :=
  keep_raiseStep (P := Unchanged .red s) (keeps_unchanged s .red (by decide))  rfl
@[simp] theorem raiseStep_fin  : (raiseStep s).fin = s.fin :=
  keep_raiseStep (P := Unchanged .fin s) (keeps_unchanged s .fin (by decide))  rfl
@[simp] theorem raiseStep_row  : (raiseStep s).row = s.row :=
  keep_raiseStep (P := Unchanged .row s) (keeps_unchanged s .row (by decide))  rfl
@[simp] theorem raiseStep_gas  : (raiseStep s).gas = s.gas :=
  keep_raiseStep (P := Unchanged .gas s) (keeps_unchanged s .gas (by decide))  rfl
@[simp] theorem raiseStep_opt  : (raiseStep s).opt = s.opt :=
  keep_raiseStep (P := Unchanged .opt s) (keeps_unchanged s .opt (by decide))  rfl
@[simp] theorem raiseStep_spx  : (raiseStep s).spx = s.spx :=
  keep_raiseStep (P := Unchanged .spx s) (keeps_unchanged s .spx (by decide))  rfl
@[simp] theorem raiseStep_syn  : (raiseStep s).syn = s.syn :=
  keep_raiseStep (P := Unchanged .syn s) (keeps_unchanged s .syn (by decide))  rfl
@[simp] theorem raiseStep_rtr  : (raiseStep s).rtr = s.rtr :=
  keep_raiseStep (P := Unchanged .rtr s) (keeps_unchanged s .rtr (by decide))  rfl
@[simp] theorem raiseStep_lnk  : (raiseStep s).lnk = s.lnk :=
  keep_raiseStep (P := Unchanged .lnk s) (keeps_unchanged s .lnk (by decide))  rfl
@[simp] theorem raiseStep_lsu  : (raiseStep s).lsu = s.lsu :=
  keep_raiseStep (P := Unchanged .lsu s) (keeps_unchanged s .lsu (by decide))  rfl
@[simp] theorem raiseStep_rru  : (raiseStep s).rru = s.rru :=
  keep_raiseStep (P := Unchanged .rru s) (keeps_unchanged s .rru (by decide))  rfl
@[simp] theorem raiseStep_flt  : (raiseStep s).flt = s.flt :=
  keep_raiseStep (P := Unchanged .flt s) (keeps_unchanged s .flt (by decide))  rfl
@[simp] theorem raiseStep_pwr  : (raiseStep s).pwr = s.pwr :=
  keep_raiseStep (P := Unchanged .pwr s) (keeps_unchanged s .pwr (by decide))  rfl
@[simp] theorem raiseStep_rst  : (raiseStep s).rst = s.rst :=
  keep_raiseStep (P := Unchanged .rst s) (keeps_unchanged s .rst (by decide))  rfl
@[simp] theorem raiseStep_dbg  : (raiseStep s).dbg = s.dbg :=
  keep_raiseStep (P := Unchanged .dbg s) (keeps_unchanged s .dbg (by decide))  rfl

@[simp] theorem raiseFault_ccc (code : W16) (where_ detail : Nat) (injected : Bool) : (raiseFault code where_ detail injected s).ccc = s.ccc :=
  keep_raiseFault (P := Unchanged .ccc s) (keeps_unchanged s .ccc (by decide)) (stores_unchanged s .ccc (by decide) (by decide)) _ _ _ _ rfl
@[simp] theorem raiseFault_tick (code : W16) (where_ detail : Nat) (injected : Bool) : (raiseFault code where_ detail injected s).tick = s.tick :=
  keep_raiseFault (P := Unchanged .tick s) (keeps_unchanged s .tick (by decide)) (stores_unchanged s .tick (by decide) (by decide)) _ _ _ _ rfl
@[simp] theorem raiseFault_free (code : W16) (where_ detail : Nat) (injected : Bool) : (raiseFault code where_ detail injected s).free = s.free :=
  keep_raiseFault (P := Unchanged .free s) (keeps_unchanged s .free (by decide)) (stores_unchanged s .free (by decide) (by decide)) _ _ _ _ rfl
@[simp] theorem raiseFault_pending (code : W16) (where_ detail : Nat) (injected : Bool) : (raiseFault code where_ detail injected s).pending = s.pending :=
  keep_raiseFault (P := Unchanged .pending s) (keeps_unchanged s .pending (by decide)) (stores_unchanged s .pending (by decide) (by decide)) _ _ _ _ rfl
@[simp] theorem raiseFault_heldLow (code : W16) (where_ detail : Nat) (injected : Bool) : (raiseFault code where_ detail injected s).heldLow = s.heldLow :=
  keep_raiseFault (P := Unchanged .heldLow s) (keeps_unchanged s .heldLow (by decide)) (stores_unchanged s .heldLow (by decide) (by decide)) _ _ _ _ rfl
@[simp] theorem raiseFault_ctl (code : W16) (where_ detail : Nat) (injected : Bool) : (raiseFault code where_ detail injected s).ctl = s.ctl :=
  keep_raiseFault (P := Unchanged .ctl s) (keeps_unchanged s .ctl (by decide)) (stores_unchanged s .ctl (by decide) (by decide)) _ _ _ _ rfl
@[simp] theorem raiseFault_que (code : W16) (where_ detail : Nat) (injected : Bool) : (raiseFault code where_ detail injected s).que = s.que :=
  keep_raiseFault (P := Unchanged .que s) (keeps_unchanged s .que (by decide)) (stores_unchanged s .que (by decide) (by decide)) _ _ _ _ rfl
@[simp] theorem raiseFault_tiles (code : W16) (where_ detail : Nat) (injected : Bool) : (raiseFault code where_ detail injected s).tiles = s.tiles :=
  keep_raiseFault (P := Unchanged .tiles s) (keeps_unchanged s .tiles (by decide)) (stores_unchanged s .tiles (by decide) (by decide)) _ _ _ _ rfl
@[simp] theorem raiseFault_tpl (code : W16) (where_ detail : Nat) (injected : Bool) : (raiseFault code where_ detail injected s).tpl = s.tpl :=
  keep_raiseFault (P := Unchanged .tpl s) (keeps_unchanged s .tpl (by decide)) (stores_unchanged s .tpl (by decide) (by decide)) _ _ _ _ rfl
@[simp] theorem raiseFault_ses (code : W16) (where_ detail : Nat) (injected : Bool) : (raiseFault code where_ detail injected s).ses = s.ses :=
  keep_raiseFault (P := Unchanged .ses s) (keeps_unchanged s .ses (by decide)) (stores_unchanged s .ses (by decide) (by decide)) _ _ _ _ rfl
@[simp] theorem raiseFault_trk (code : W16) (where_ detail : Nat) (injected : Bool) : (raiseFault code where_ detail injected s).trk = s.trk :=
  keep_raiseFault (P := Unchanged .trk s) (keeps_unchanged s .trk (by decide)) (stores_unchanged s .trk (by decide) (by decide)) _ _ _ _ rfl
@[simp] theorem raiseFault_red (code : W16) (where_ detail : Nat) (injected : Bool) : (raiseFault code where_ detail injected s).red = s.red :=
  keep_raiseFault (P := Unchanged .red s) (keeps_unchanged s .red (by decide)) (stores_unchanged s .red (by decide) (by decide)) _ _ _ _ rfl
@[simp] theorem raiseFault_fin (code : W16) (where_ detail : Nat) (injected : Bool) : (raiseFault code where_ detail injected s).fin = s.fin :=
  keep_raiseFault (P := Unchanged .fin s) (keeps_unchanged s .fin (by decide)) (stores_unchanged s .fin (by decide) (by decide)) _ _ _ _ rfl
@[simp] theorem raiseFault_row (code : W16) (where_ detail : Nat) (injected : Bool) : (raiseFault code where_ detail injected s).row = s.row :=
  keep_raiseFault (P := Unchanged .row s) (keeps_unchanged s .row (by decide)) (stores_unchanged s .row (by decide) (by decide)) _ _ _ _ rfl
@[simp] theorem raiseFault_gas (code : W16) (where_ detail : Nat) (injected : Bool) : (raiseFault code where_ detail injected s).gas = s.gas :=
  keep_raiseFault (P := Unchanged .gas s) (keeps_unchanged s .gas (by decide)) (stores_unchanged s .gas (by decide) (by decide)) _ _ _ _ rfl
@[simp] theorem raiseFault_opt (code : W16) (where_ detail : Nat) (injected : Bool) : (raiseFault code where_ detail injected s).opt = s.opt :=
  keep_raiseFault (P := Unchanged .opt s) (keeps_unchanged s .opt (by decide)) (stores_unchanged s .opt (by decide) (by decide)) _ _ _ _ rfl
@[simp] theorem raiseFault_spx (code : W16) (where_ detail : Nat) (injected : Bool) : (raiseFault code where_ detail injected s).spx = s.spx :=
  keep_raiseFault (P := Unchanged .spx s) (keeps_unchanged s .spx (by decide)) (stores_unchanged s .spx (by decide) (by decide)) _ _ _ _ rfl
@[simp] theorem raiseFault_syn (code : W16) (where_ detail : Nat) (injected : Bool) : (raiseFault code where_ detail injected s).syn = s.syn :=
  keep_raiseFault (P := Unchanged .syn s) (keeps_unchanged s .syn (by decide)) (stores_unchanged s .syn (by decide) (by decide)) _ _ _ _ rfl
@[simp] theorem raiseFault_rtr (code : W16) (where_ detail : Nat) (injected : Bool) : (raiseFault code where_ detail injected s).rtr = s.rtr :=
  keep_raiseFault (P := Unchanged .rtr s) (keeps_unchanged s .rtr (by decide)) (stores_unchanged s .rtr (by decide) (by decide)) _ _ _ _ rfl
@[simp] theorem raiseFault_lnk (code : W16) (where_ detail : Nat) (injected : Bool) : (raiseFault code where_ detail injected s).lnk = s.lnk :=
  keep_raiseFault (P := Unchanged .lnk s) (keeps_unchanged s .lnk (by decide)) (stores_unchanged s .lnk (by decide) (by decide)) _ _ _ _ rfl
@[simp] theorem raiseFault_lsu (code : W16) (where_ detail : Nat) (injected : Bool) : (raiseFault code where_ detail injected s).lsu = s.lsu :=
  keep_raiseFault (P := Unchanged .lsu s) (keeps_unchanged s .lsu (by decide)) (stores_unchanged s .lsu (by decide) (by decide)) _ _ _ _ rfl
@[simp] theorem raiseFault_rst (code : W16) (where_ detail : Nat) (injected : Bool) : (raiseFault code where_ detail injected s).rst = s.rst :=
  keep_raiseFault (P := Unchanged .rst s) (keeps_unchanged s .rst (by decide)) (stores_unchanged s .rst (by decide) (by decide)) _ _ _ _ rfl
@[simp] theorem raiseFault_dbg (code : W16) (where_ detail : Nat) (injected : Bool) : (raiseFault code where_ detail injected s).dbg = s.dbg :=
  keep_raiseFault (P := Unchanged .dbg s) (keeps_unchanged s .dbg (by decide)) (stores_unchanged s .dbg (by decide) (by decide)) _ _ _ _ rfl

@[simp] theorem writeMbx_ccc (ws : List W32) : (writeMbx ws s).ccc = s.ccc :=
  keep_writeMbx (P := Unchanged .ccc s) (keeps_unchanged s .ccc (by decide)) _ rfl
@[simp] theorem writeMbx_tick (ws : List W32) : (writeMbx ws s).tick = s.tick :=
  keep_writeMbx (P := Unchanged .tick s) (keeps_unchanged s .tick (by decide)) _ rfl
@[simp] theorem writeMbx_free (ws : List W32) : (writeMbx ws s).free = s.free :=
  keep_writeMbx (P := Unchanged .free s) (keeps_unchanged s .free (by decide)) _ rfl
@[simp] theorem writeMbx_pending (ws : List W32) : (writeMbx ws s).pending = s.pending :=
  keep_writeMbx (P := Unchanged .pending s) (keeps_unchanged s .pending (by decide)) _ rfl
@[simp] theorem writeMbx_hdrs (ws : List W32) : (writeMbx ws s).hdrs = s.hdrs :=
  keep_writeMbx (P := Unchanged .hdrs s) (keeps_unchanged s .hdrs (by decide)) _ rfl
@[simp] theorem writeMbx_heldLow (ws : List W32) : (writeMbx ws s).heldLow = s.heldLow :=
  keep_writeMbx (P := Unchanged .heldLow s) (keeps_unchanged s .heldLow (by decide)) _ rfl
@[simp] theorem writeMbx_msix (ws : List W32) : (writeMbx ws s).msix = s.msix :=
  keep_writeMbx (P := Unchanged .msix s) (keeps_unchanged s .msix (by decide)) _ rfl
@[simp] theorem writeMbx_mem (ws : List W32) : (writeMbx ws s).mem = s.mem :=
  keep_writeMbx (P := Unchanged .mem s) (keeps_unchanged s .mem (by decide)) _ rfl
@[simp] theorem writeMbx_emp (ws : List W32) : (writeMbx ws s).emp = s.emp :=
  keep_writeMbx (P := Unchanged .emp s) (keeps_unchanged s .emp (by decide)) _ rfl
@[simp] theorem writeMbx_ctl (ws : List W32) : (writeMbx ws s).ctl = s.ctl :=
  keep_writeMbx (P := Unchanged .ctl s) (keeps_unchanged s .ctl (by decide)) _ rfl
@[simp] theorem writeMbx_que (ws : List W32) : (writeMbx ws s).que = s.que :=
  keep_writeMbx (P := Unchanged .que s) (keeps_unchanged s .que (by decide)) _ rfl
@[simp] theorem writeMbx_tiles (ws : List W32) : (writeMbx ws s).tiles = s.tiles :=
  keep_writeMbx (P := Unchanged .tiles s) (keeps_unchanged s .tiles (by decide)) _ rfl
@[simp] theorem writeMbx_tpl (ws : List W32) : (writeMbx ws s).tpl = s.tpl :=
  keep_writeMbx (P := Unchanged .tpl s) (keeps_unchanged s .tpl (by decide)) _ rfl
@[simp] theorem writeMbx_ses (ws : List W32) : (writeMbx ws s).ses = s.ses :=
  keep_writeMbx (P := Unchanged .ses s) (keeps_unchanged s .ses (by decide)) _ rfl
@[simp] theorem writeMbx_trk (ws : List W32) : (writeMbx ws s).trk = s.trk :=
  keep_writeMbx (P := Unchanged .trk s) (keeps_unchanged s .trk (by decide)) _ rfl
@[simp] theorem writeMbx_red (ws : List W32) : (writeMbx ws s).red = s.red :=
  keep_writeMbx (P := Unchanged .red s) (keeps_unchanged s .red (by decide)) _ rfl
@[simp] theorem writeMbx_fin (ws : List W32) : (writeMbx ws s).fin = s.fin :=
  keep_writeMbx (P := Unchanged .fin s) (keeps_unchanged s .fin (by decide)) _ rfl
@[simp] theorem writeMbx_row (ws : List W32) : (writeMbx ws s).row = s.row :=
  keep_writeMbx (P := Unchanged .row s) (keeps_unchanged s .row (by decide)) _ rfl
@[simp] theorem writeMbx_gas (ws : List W32) : (writeMbx ws s).gas = s.gas :=
  keep_writeMbx (P := Unchanged .gas s) (keeps_unchanged s .gas (by decide)) _ rfl
@[simp] theorem writeMbx_opt (ws : List W32) : (writeMbx ws s).opt = s.opt :=
  keep_writeMbx (P := Unchanged .opt s) (keeps_unchanged s .opt (by decide)) _ rfl
@[simp] theorem writeMbx_spx (ws : List W32) : (writeMbx ws s).spx = s.spx :=
  keep_writeMbx (P := Unchanged .spx s) (keeps_unchanged s .spx (by decide)) _ rfl
@[simp] theorem writeMbx_syn (ws : List W32) : (writeMbx ws s).syn = s.syn :=
  keep_writeMbx (P := Unchanged .syn s) (keeps_unchanged s .syn (by decide)) _ rfl
@[simp] theorem writeMbx_rtr (ws : List W32) : (writeMbx ws s).rtr = s.rtr :=
  keep_writeMbx (P := Unchanged .rtr s) (keeps_unchanged s .rtr (by decide)) _ rfl
@[simp] theorem writeMbx_lnk (ws : List W32) : (writeMbx ws s).lnk = s.lnk :=
  keep_writeMbx (P := Unchanged .lnk s) (keeps_unchanged s .lnk (by decide)) _ rfl
@[simp] theorem writeMbx_lsu (ws : List W32) : (writeMbx ws s).lsu = s.lsu :=
  keep_writeMbx (P := Unchanged .lsu s) (keeps_unchanged s .lsu (by decide)) _ rfl
@[simp] theorem writeMbx_rru (ws : List W32) : (writeMbx ws s).rru = s.rru :=
  keep_writeMbx (P := Unchanged .rru s) (keeps_unchanged s .rru (by decide)) _ rfl
@[simp] theorem writeMbx_flt (ws : List W32) : (writeMbx ws s).flt = s.flt :=
  keep_writeMbx (P := Unchanged .flt s) (keeps_unchanged s .flt (by decide)) _ rfl
@[simp] theorem writeMbx_rst (ws : List W32) : (writeMbx ws s).rst = s.rst :=
  keep_writeMbx (P := Unchanged .rst s) (keeps_unchanged s .rst (by decide)) _ rfl
@[simp] theorem writeMbx_dbg (ws : List W32) : (writeMbx ws s).dbg = s.dbg :=
  keep_writeMbx (P := Unchanged .dbg s) (keeps_unchanged s .dbg (by decide)) _ rfl

@[simp] theorem sendMbx_ccc (type : Nat) (ws : List W32) : (sendMbx type ws s).ccc = s.ccc :=
  keep_sendMbx (P := Unchanged .ccc s) (keeps_unchanged s .ccc (by decide)) _ _ rfl
@[simp] theorem sendMbx_tick (type : Nat) (ws : List W32) : (sendMbx type ws s).tick = s.tick :=
  keep_sendMbx (P := Unchanged .tick s) (keeps_unchanged s .tick (by decide)) _ _ rfl
@[simp] theorem sendMbx_free (type : Nat) (ws : List W32) : (sendMbx type ws s).free = s.free :=
  keep_sendMbx (P := Unchanged .free s) (keeps_unchanged s .free (by decide)) _ _ rfl
@[simp] theorem sendMbx_pending (type : Nat) (ws : List W32) : (sendMbx type ws s).pending = s.pending :=
  keep_sendMbx (P := Unchanged .pending s) (keeps_unchanged s .pending (by decide)) _ _ rfl
@[simp] theorem sendMbx_hdrs (type : Nat) (ws : List W32) : (sendMbx type ws s).hdrs = s.hdrs :=
  keep_sendMbx (P := Unchanged .hdrs s) (keeps_unchanged s .hdrs (by decide)) _ _ rfl
@[simp] theorem sendMbx_heldLow (type : Nat) (ws : List W32) : (sendMbx type ws s).heldLow = s.heldLow :=
  keep_sendMbx (P := Unchanged .heldLow s) (keeps_unchanged s .heldLow (by decide)) _ _ rfl
@[simp] theorem sendMbx_msix (type : Nat) (ws : List W32) : (sendMbx type ws s).msix = s.msix :=
  keep_sendMbx (P := Unchanged .msix s) (keeps_unchanged s .msix (by decide)) _ _ rfl
@[simp] theorem sendMbx_mem (type : Nat) (ws : List W32) : (sendMbx type ws s).mem = s.mem :=
  keep_sendMbx (P := Unchanged .mem s) (keeps_unchanged s .mem (by decide)) _ _ rfl
@[simp] theorem sendMbx_emp (type : Nat) (ws : List W32) : (sendMbx type ws s).emp = s.emp :=
  keep_sendMbx (P := Unchanged .emp s) (keeps_unchanged s .emp (by decide)) _ _ rfl
@[simp] theorem sendMbx_ctl (type : Nat) (ws : List W32) : (sendMbx type ws s).ctl = s.ctl :=
  keep_sendMbx (P := Unchanged .ctl s) (keeps_unchanged s .ctl (by decide)) _ _ rfl
@[simp] theorem sendMbx_que (type : Nat) (ws : List W32) : (sendMbx type ws s).que = s.que :=
  keep_sendMbx (P := Unchanged .que s) (keeps_unchanged s .que (by decide)) _ _ rfl
@[simp] theorem sendMbx_tiles (type : Nat) (ws : List W32) : (sendMbx type ws s).tiles = s.tiles :=
  keep_sendMbx (P := Unchanged .tiles s) (keeps_unchanged s .tiles (by decide)) _ _ rfl
@[simp] theorem sendMbx_tpl (type : Nat) (ws : List W32) : (sendMbx type ws s).tpl = s.tpl :=
  keep_sendMbx (P := Unchanged .tpl s) (keeps_unchanged s .tpl (by decide)) _ _ rfl
@[simp] theorem sendMbx_ses (type : Nat) (ws : List W32) : (sendMbx type ws s).ses = s.ses :=
  keep_sendMbx (P := Unchanged .ses s) (keeps_unchanged s .ses (by decide)) _ _ rfl
@[simp] theorem sendMbx_trk (type : Nat) (ws : List W32) : (sendMbx type ws s).trk = s.trk :=
  keep_sendMbx (P := Unchanged .trk s) (keeps_unchanged s .trk (by decide)) _ _ rfl
@[simp] theorem sendMbx_red (type : Nat) (ws : List W32) : (sendMbx type ws s).red = s.red :=
  keep_sendMbx (P := Unchanged .red s) (keeps_unchanged s .red (by decide)) _ _ rfl
@[simp] theorem sendMbx_fin (type : Nat) (ws : List W32) : (sendMbx type ws s).fin = s.fin :=
  keep_sendMbx (P := Unchanged .fin s) (keeps_unchanged s .fin (by decide)) _ _ rfl
@[simp] theorem sendMbx_row (type : Nat) (ws : List W32) : (sendMbx type ws s).row = s.row :=
  keep_sendMbx (P := Unchanged .row s) (keeps_unchanged s .row (by decide)) _ _ rfl
@[simp] theorem sendMbx_gas (type : Nat) (ws : List W32) : (sendMbx type ws s).gas = s.gas :=
  keep_sendMbx (P := Unchanged .gas s) (keeps_unchanged s .gas (by decide)) _ _ rfl
@[simp] theorem sendMbx_opt (type : Nat) (ws : List W32) : (sendMbx type ws s).opt = s.opt :=
  keep_sendMbx (P := Unchanged .opt s) (keeps_unchanged s .opt (by decide)) _ _ rfl
@[simp] theorem sendMbx_spx (type : Nat) (ws : List W32) : (sendMbx type ws s).spx = s.spx :=
  keep_sendMbx (P := Unchanged .spx s) (keeps_unchanged s .spx (by decide)) _ _ rfl
@[simp] theorem sendMbx_syn (type : Nat) (ws : List W32) : (sendMbx type ws s).syn = s.syn :=
  keep_sendMbx (P := Unchanged .syn s) (keeps_unchanged s .syn (by decide)) _ _ rfl
@[simp] theorem sendMbx_rtr (type : Nat) (ws : List W32) : (sendMbx type ws s).rtr = s.rtr :=
  keep_sendMbx (P := Unchanged .rtr s) (keeps_unchanged s .rtr (by decide)) _ _ rfl
@[simp] theorem sendMbx_lnk (type : Nat) (ws : List W32) : (sendMbx type ws s).lnk = s.lnk :=
  keep_sendMbx (P := Unchanged .lnk s) (keeps_unchanged s .lnk (by decide)) _ _ rfl
@[simp] theorem sendMbx_lsu (type : Nat) (ws : List W32) : (sendMbx type ws s).lsu = s.lsu :=
  keep_sendMbx (P := Unchanged .lsu s) (keeps_unchanged s .lsu (by decide)) _ _ rfl
@[simp] theorem sendMbx_rru (type : Nat) (ws : List W32) : (sendMbx type ws s).rru = s.rru :=
  keep_sendMbx (P := Unchanged .rru s) (keeps_unchanged s .rru (by decide)) _ _ rfl
@[simp] theorem sendMbx_rst (type : Nat) (ws : List W32) : (sendMbx type ws s).rst = s.rst :=
  keep_sendMbx (P := Unchanged .rst s) (keeps_unchanged s .rst (by decide)) _ _ rfl
@[simp] theorem sendMbx_dbg (type : Nat) (ws : List W32) : (sendMbx type ws s).dbg = s.dbg :=
  keep_sendMbx (P := Unchanged .dbg s) (keeps_unchanged s .dbg (by decide)) _ _ rfl

@[simp] theorem hdrRecord_ccc (ccc kind port vc : Nat) (pay : Option Nat) (rest : List Byte) : (hdrRecord ccc kind port vc pay rest s).ccc = s.ccc :=
  keep_hdrRecord (P := Unchanged .ccc s) (keeps_unchanged s .ccc (by decide)) (stores_unchanged s .ccc (by decide) (by decide)) _ _ _ _ _ _ rfl
@[simp] theorem hdrRecord_tick (ccc kind port vc : Nat) (pay : Option Nat) (rest : List Byte) : (hdrRecord ccc kind port vc pay rest s).tick = s.tick :=
  keep_hdrRecord (P := Unchanged .tick s) (keeps_unchanged s .tick (by decide)) (stores_unchanged s .tick (by decide) (by decide)) _ _ _ _ _ _ rfl
@[simp] theorem hdrRecord_free (ccc kind port vc : Nat) (pay : Option Nat) (rest : List Byte) : (hdrRecord ccc kind port vc pay rest s).free = s.free :=
  keep_hdrRecord (P := Unchanged .free s) (keeps_unchanged s .free (by decide)) (stores_unchanged s .free (by decide) (by decide)) _ _ _ _ _ _ rfl
@[simp] theorem hdrRecord_pending (ccc kind port vc : Nat) (pay : Option Nat) (rest : List Byte) : (hdrRecord ccc kind port vc pay rest s).pending = s.pending :=
  keep_hdrRecord (P := Unchanged .pending s) (keeps_unchanged s .pending (by decide)) (stores_unchanged s .pending (by decide) (by decide)) _ _ _ _ _ _ rfl
@[simp] theorem hdrRecord_heldLow (ccc kind port vc : Nat) (pay : Option Nat) (rest : List Byte) : (hdrRecord ccc kind port vc pay rest s).heldLow = s.heldLow :=
  keep_hdrRecord (P := Unchanged .heldLow s) (keeps_unchanged s .heldLow (by decide)) (stores_unchanged s .heldLow (by decide) (by decide)) _ _ _ _ _ _ rfl
@[simp] theorem hdrRecord_ctl (ccc kind port vc : Nat) (pay : Option Nat) (rest : List Byte) : (hdrRecord ccc kind port vc pay rest s).ctl = s.ctl :=
  keep_hdrRecord (P := Unchanged .ctl s) (keeps_unchanged s .ctl (by decide)) (stores_unchanged s .ctl (by decide) (by decide)) _ _ _ _ _ _ rfl
@[simp] theorem hdrRecord_que (ccc kind port vc : Nat) (pay : Option Nat) (rest : List Byte) : (hdrRecord ccc kind port vc pay rest s).que = s.que :=
  keep_hdrRecord (P := Unchanged .que s) (keeps_unchanged s .que (by decide)) (stores_unchanged s .que (by decide) (by decide)) _ _ _ _ _ _ rfl
@[simp] theorem hdrRecord_tiles (ccc kind port vc : Nat) (pay : Option Nat) (rest : List Byte) : (hdrRecord ccc kind port vc pay rest s).tiles = s.tiles :=
  keep_hdrRecord (P := Unchanged .tiles s) (keeps_unchanged s .tiles (by decide)) (stores_unchanged s .tiles (by decide) (by decide)) _ _ _ _ _ _ rfl
@[simp] theorem hdrRecord_tpl (ccc kind port vc : Nat) (pay : Option Nat) (rest : List Byte) : (hdrRecord ccc kind port vc pay rest s).tpl = s.tpl :=
  keep_hdrRecord (P := Unchanged .tpl s) (keeps_unchanged s .tpl (by decide)) (stores_unchanged s .tpl (by decide) (by decide)) _ _ _ _ _ _ rfl
@[simp] theorem hdrRecord_ses (ccc kind port vc : Nat) (pay : Option Nat) (rest : List Byte) : (hdrRecord ccc kind port vc pay rest s).ses = s.ses :=
  keep_hdrRecord (P := Unchanged .ses s) (keeps_unchanged s .ses (by decide)) (stores_unchanged s .ses (by decide) (by decide)) _ _ _ _ _ _ rfl
@[simp] theorem hdrRecord_trk (ccc kind port vc : Nat) (pay : Option Nat) (rest : List Byte) : (hdrRecord ccc kind port vc pay rest s).trk = s.trk :=
  keep_hdrRecord (P := Unchanged .trk s) (keeps_unchanged s .trk (by decide)) (stores_unchanged s .trk (by decide) (by decide)) _ _ _ _ _ _ rfl
@[simp] theorem hdrRecord_red (ccc kind port vc : Nat) (pay : Option Nat) (rest : List Byte) : (hdrRecord ccc kind port vc pay rest s).red = s.red :=
  keep_hdrRecord (P := Unchanged .red s) (keeps_unchanged s .red (by decide)) (stores_unchanged s .red (by decide) (by decide)) _ _ _ _ _ _ rfl
@[simp] theorem hdrRecord_fin (ccc kind port vc : Nat) (pay : Option Nat) (rest : List Byte) : (hdrRecord ccc kind port vc pay rest s).fin = s.fin :=
  keep_hdrRecord (P := Unchanged .fin s) (keeps_unchanged s .fin (by decide)) (stores_unchanged s .fin (by decide) (by decide)) _ _ _ _ _ _ rfl
@[simp] theorem hdrRecord_row (ccc kind port vc : Nat) (pay : Option Nat) (rest : List Byte) : (hdrRecord ccc kind port vc pay rest s).row = s.row :=
  keep_hdrRecord (P := Unchanged .row s) (keeps_unchanged s .row (by decide)) (stores_unchanged s .row (by decide) (by decide)) _ _ _ _ _ _ rfl
@[simp] theorem hdrRecord_gas (ccc kind port vc : Nat) (pay : Option Nat) (rest : List Byte) : (hdrRecord ccc kind port vc pay rest s).gas = s.gas :=
  keep_hdrRecord (P := Unchanged .gas s) (keeps_unchanged s .gas (by decide)) (stores_unchanged s .gas (by decide) (by decide)) _ _ _ _ _ _ rfl
@[simp] theorem hdrRecord_opt (ccc kind port vc : Nat) (pay : Option Nat) (rest : List Byte) : (hdrRecord ccc kind port vc pay rest s).opt = s.opt :=
  keep_hdrRecord (P := Unchanged .opt s) (keeps_unchanged s .opt (by decide)) (stores_unchanged s .opt (by decide) (by decide)) _ _ _ _ _ _ rfl
@[simp] theorem hdrRecord_spx (ccc kind port vc : Nat) (pay : Option Nat) (rest : List Byte) : (hdrRecord ccc kind port vc pay rest s).spx = s.spx :=
  keep_hdrRecord (P := Unchanged .spx s) (keeps_unchanged s .spx (by decide)) (stores_unchanged s .spx (by decide) (by decide)) _ _ _ _ _ _ rfl
@[simp] theorem hdrRecord_syn (ccc kind port vc : Nat) (pay : Option Nat) (rest : List Byte) : (hdrRecord ccc kind port vc pay rest s).syn = s.syn :=
  keep_hdrRecord (P := Unchanged .syn s) (keeps_unchanged s .syn (by decide)) (stores_unchanged s .syn (by decide) (by decide)) _ _ _ _ _ _ rfl
@[simp] theorem hdrRecord_rtr (ccc kind port vc : Nat) (pay : Option Nat) (rest : List Byte) : (hdrRecord ccc kind port vc pay rest s).rtr = s.rtr :=
  keep_hdrRecord (P := Unchanged .rtr s) (keeps_unchanged s .rtr (by decide)) (stores_unchanged s .rtr (by decide) (by decide)) _ _ _ _ _ _ rfl
@[simp] theorem hdrRecord_lnk (ccc kind port vc : Nat) (pay : Option Nat) (rest : List Byte) : (hdrRecord ccc kind port vc pay rest s).lnk = s.lnk :=
  keep_hdrRecord (P := Unchanged .lnk s) (keeps_unchanged s .lnk (by decide)) (stores_unchanged s .lnk (by decide) (by decide)) _ _ _ _ _ _ rfl
@[simp] theorem hdrRecord_lsu (ccc kind port vc : Nat) (pay : Option Nat) (rest : List Byte) : (hdrRecord ccc kind port vc pay rest s).lsu = s.lsu :=
  keep_hdrRecord (P := Unchanged .lsu s) (keeps_unchanged s .lsu (by decide)) (stores_unchanged s .lsu (by decide) (by decide)) _ _ _ _ _ _ rfl
@[simp] theorem hdrRecord_flt (ccc kind port vc : Nat) (pay : Option Nat) (rest : List Byte) : (hdrRecord ccc kind port vc pay rest s).flt = s.flt :=
  keep_hdrRecord (P := Unchanged .flt s) (keeps_unchanged s .flt (by decide)) (stores_unchanged s .flt (by decide) (by decide)) _ _ _ _ _ _ rfl
@[simp] theorem hdrRecord_pwr (ccc kind port vc : Nat) (pay : Option Nat) (rest : List Byte) : (hdrRecord ccc kind port vc pay rest s).pwr = s.pwr :=
  keep_hdrRecord (P := Unchanged .pwr s) (keeps_unchanged s .pwr (by decide)) (stores_unchanged s .pwr (by decide) (by decide)) _ _ _ _ _ _ rfl
@[simp] theorem hdrRecord_rst (ccc kind port vc : Nat) (pay : Option Nat) (rest : List Byte) : (hdrRecord ccc kind port vc pay rest s).rst = s.rst :=
  keep_hdrRecord (P := Unchanged .rst s) (keeps_unchanged s .rst (by decide)) (stores_unchanged s .rst (by decide) (by decide)) _ _ _ _ _ _ rfl
@[simp] theorem hdrRecord_dbg (ccc kind port vc : Nat) (pay : Option Nat) (rest : List Byte) : (hdrRecord ccc kind port vc pay rest s).dbg = s.dbg :=
  keep_hdrRecord (P := Unchanged .dbg s) (keeps_unchanged s .dbg (by decide)) (stores_unchanged s .dbg (by decide) (by decide)) _ _ _ _ _ _ rfl

@[simp] theorem stepHeader_ccc  : (stepHeader s).ccc = s.ccc :=
  keep_stepHeader (P := Unchanged .ccc s) (keeps_unchanged s .ccc (by decide)) (stores_unchanged s .ccc (by decide) (by decide))  rfl
@[simp] theorem stepHeader_tick  : (stepHeader s).tick = s.tick :=
  keep_stepHeader (P := Unchanged .tick s) (keeps_unchanged s .tick (by decide)) (stores_unchanged s .tick (by decide) (by decide))  rfl
@[simp] theorem stepHeader_free  : (stepHeader s).free = s.free :=
  keep_stepHeader (P := Unchanged .free s) (keeps_unchanged s .free (by decide)) (stores_unchanged s .free (by decide) (by decide))  rfl
@[simp] theorem stepHeader_pending  : (stepHeader s).pending = s.pending :=
  keep_stepHeader (P := Unchanged .pending s) (keeps_unchanged s .pending (by decide)) (stores_unchanged s .pending (by decide) (by decide))  rfl
@[simp] theorem stepHeader_heldLow  : (stepHeader s).heldLow = s.heldLow :=
  keep_stepHeader (P := Unchanged .heldLow s) (keeps_unchanged s .heldLow (by decide)) (stores_unchanged s .heldLow (by decide) (by decide))  rfl
@[simp] theorem stepHeader_ctl  : (stepHeader s).ctl = s.ctl :=
  keep_stepHeader (P := Unchanged .ctl s) (keeps_unchanged s .ctl (by decide)) (stores_unchanged s .ctl (by decide) (by decide))  rfl
@[simp] theorem stepHeader_que  : (stepHeader s).que = s.que :=
  keep_stepHeader (P := Unchanged .que s) (keeps_unchanged s .que (by decide)) (stores_unchanged s .que (by decide) (by decide))  rfl
@[simp] theorem stepHeader_tiles  : (stepHeader s).tiles = s.tiles :=
  keep_stepHeader (P := Unchanged .tiles s) (keeps_unchanged s .tiles (by decide)) (stores_unchanged s .tiles (by decide) (by decide))  rfl
@[simp] theorem stepHeader_tpl  : (stepHeader s).tpl = s.tpl :=
  keep_stepHeader (P := Unchanged .tpl s) (keeps_unchanged s .tpl (by decide)) (stores_unchanged s .tpl (by decide) (by decide))  rfl
@[simp] theorem stepHeader_ses  : (stepHeader s).ses = s.ses :=
  keep_stepHeader (P := Unchanged .ses s) (keeps_unchanged s .ses (by decide)) (stores_unchanged s .ses (by decide) (by decide))  rfl
@[simp] theorem stepHeader_trk  : (stepHeader s).trk = s.trk :=
  keep_stepHeader (P := Unchanged .trk s) (keeps_unchanged s .trk (by decide)) (stores_unchanged s .trk (by decide) (by decide))  rfl
@[simp] theorem stepHeader_red  : (stepHeader s).red = s.red :=
  keep_stepHeader (P := Unchanged .red s) (keeps_unchanged s .red (by decide)) (stores_unchanged s .red (by decide) (by decide))  rfl
@[simp] theorem stepHeader_fin  : (stepHeader s).fin = s.fin :=
  keep_stepHeader (P := Unchanged .fin s) (keeps_unchanged s .fin (by decide)) (stores_unchanged s .fin (by decide) (by decide))  rfl
@[simp] theorem stepHeader_row  : (stepHeader s).row = s.row :=
  keep_stepHeader (P := Unchanged .row s) (keeps_unchanged s .row (by decide)) (stores_unchanged s .row (by decide) (by decide))  rfl
@[simp] theorem stepHeader_gas  : (stepHeader s).gas = s.gas :=
  keep_stepHeader (P := Unchanged .gas s) (keeps_unchanged s .gas (by decide)) (stores_unchanged s .gas (by decide) (by decide))  rfl
@[simp] theorem stepHeader_opt  : (stepHeader s).opt = s.opt :=
  keep_stepHeader (P := Unchanged .opt s) (keeps_unchanged s .opt (by decide)) (stores_unchanged s .opt (by decide) (by decide))  rfl
@[simp] theorem stepHeader_spx  : (stepHeader s).spx = s.spx :=
  keep_stepHeader (P := Unchanged .spx s) (keeps_unchanged s .spx (by decide)) (stores_unchanged s .spx (by decide) (by decide))  rfl
@[simp] theorem stepHeader_syn  : (stepHeader s).syn = s.syn :=
  keep_stepHeader (P := Unchanged .syn s) (keeps_unchanged s .syn (by decide)) (stores_unchanged s .syn (by decide) (by decide))  rfl
@[simp] theorem stepHeader_rtr  : (stepHeader s).rtr = s.rtr :=
  keep_stepHeader (P := Unchanged .rtr s) (keeps_unchanged s .rtr (by decide)) (stores_unchanged s .rtr (by decide) (by decide))  rfl
@[simp] theorem stepHeader_lnk  : (stepHeader s).lnk = s.lnk :=
  keep_stepHeader (P := Unchanged .lnk s) (keeps_unchanged s .lnk (by decide)) (stores_unchanged s .lnk (by decide) (by decide))  rfl
@[simp] theorem stepHeader_lsu  : (stepHeader s).lsu = s.lsu :=
  keep_stepHeader (P := Unchanged .lsu s) (keeps_unchanged s .lsu (by decide)) (stores_unchanged s .lsu (by decide) (by decide))  rfl
@[simp] theorem stepHeader_flt  : (stepHeader s).flt = s.flt :=
  keep_stepHeader (P := Unchanged .flt s) (keeps_unchanged s .flt (by decide)) (stores_unchanged s .flt (by decide) (by decide))  rfl
@[simp] theorem stepHeader_pwr  : (stepHeader s).pwr = s.pwr :=
  keep_stepHeader (P := Unchanged .pwr s) (keeps_unchanged s .pwr (by decide)) (stores_unchanged s .pwr (by decide) (by decide))  rfl
@[simp] theorem stepHeader_rst  : (stepHeader s).rst = s.rst :=
  keep_stepHeader (P := Unchanged .rst s) (keeps_unchanged s .rst (by decide)) (stores_unchanged s .rst (by decide) (by decide))  rfl
@[simp] theorem stepHeader_dbg  : (stepHeader s).dbg = s.dbg :=
  keep_stepHeader (P := Unchanged .dbg s) (keeps_unchanged s .dbg (by decide)) (stores_unchanged s .dbg (by decide) (by decide))  rfl

@[simp] theorem captureRec_ccc (ccc kind port vc : Nat) (rest : List Byte) (payload : Option (List Byte)) : (captureRec ccc kind port vc rest payload s).ccc = s.ccc :=
  keep_captureRec (P := Unchanged .ccc s) (keeps_unchanged s .ccc (by decide)) (stores_unchanged s .ccc (by decide) (by decide)) _ _ _ _ _ _ rfl
@[simp] theorem captureRec_tick (ccc kind port vc : Nat) (rest : List Byte) (payload : Option (List Byte)) : (captureRec ccc kind port vc rest payload s).tick = s.tick :=
  keep_captureRec (P := Unchanged .tick s) (keeps_unchanged s .tick (by decide)) (stores_unchanged s .tick (by decide) (by decide)) _ _ _ _ _ _ rfl
@[simp] theorem captureRec_free (ccc kind port vc : Nat) (rest : List Byte) (payload : Option (List Byte)) : (captureRec ccc kind port vc rest payload s).free = s.free :=
  keep_captureRec (P := Unchanged .free s) (keeps_unchanged s .free (by decide)) (stores_unchanged s .free (by decide) (by decide)) _ _ _ _ _ _ rfl
@[simp] theorem captureRec_pending (ccc kind port vc : Nat) (rest : List Byte) (payload : Option (List Byte)) : (captureRec ccc kind port vc rest payload s).pending = s.pending :=
  keep_captureRec (P := Unchanged .pending s) (keeps_unchanged s .pending (by decide)) (stores_unchanged s .pending (by decide) (by decide)) _ _ _ _ _ _ rfl
@[simp] theorem captureRec_heldLow (ccc kind port vc : Nat) (rest : List Byte) (payload : Option (List Byte)) : (captureRec ccc kind port vc rest payload s).heldLow = s.heldLow :=
  keep_captureRec (P := Unchanged .heldLow s) (keeps_unchanged s .heldLow (by decide)) (stores_unchanged s .heldLow (by decide) (by decide)) _ _ _ _ _ _ rfl
@[simp] theorem captureRec_ctl (ccc kind port vc : Nat) (rest : List Byte) (payload : Option (List Byte)) : (captureRec ccc kind port vc rest payload s).ctl = s.ctl :=
  keep_captureRec (P := Unchanged .ctl s) (keeps_unchanged s .ctl (by decide)) (stores_unchanged s .ctl (by decide) (by decide)) _ _ _ _ _ _ rfl
@[simp] theorem captureRec_que (ccc kind port vc : Nat) (rest : List Byte) (payload : Option (List Byte)) : (captureRec ccc kind port vc rest payload s).que = s.que :=
  keep_captureRec (P := Unchanged .que s) (keeps_unchanged s .que (by decide)) (stores_unchanged s .que (by decide) (by decide)) _ _ _ _ _ _ rfl
@[simp] theorem captureRec_tiles (ccc kind port vc : Nat) (rest : List Byte) (payload : Option (List Byte)) : (captureRec ccc kind port vc rest payload s).tiles = s.tiles :=
  keep_captureRec (P := Unchanged .tiles s) (keeps_unchanged s .tiles (by decide)) (stores_unchanged s .tiles (by decide) (by decide)) _ _ _ _ _ _ rfl
@[simp] theorem captureRec_tpl (ccc kind port vc : Nat) (rest : List Byte) (payload : Option (List Byte)) : (captureRec ccc kind port vc rest payload s).tpl = s.tpl :=
  keep_captureRec (P := Unchanged .tpl s) (keeps_unchanged s .tpl (by decide)) (stores_unchanged s .tpl (by decide) (by decide)) _ _ _ _ _ _ rfl
@[simp] theorem captureRec_ses (ccc kind port vc : Nat) (rest : List Byte) (payload : Option (List Byte)) : (captureRec ccc kind port vc rest payload s).ses = s.ses :=
  keep_captureRec (P := Unchanged .ses s) (keeps_unchanged s .ses (by decide)) (stores_unchanged s .ses (by decide) (by decide)) _ _ _ _ _ _ rfl
@[simp] theorem captureRec_trk (ccc kind port vc : Nat) (rest : List Byte) (payload : Option (List Byte)) : (captureRec ccc kind port vc rest payload s).trk = s.trk :=
  keep_captureRec (P := Unchanged .trk s) (keeps_unchanged s .trk (by decide)) (stores_unchanged s .trk (by decide) (by decide)) _ _ _ _ _ _ rfl
@[simp] theorem captureRec_red (ccc kind port vc : Nat) (rest : List Byte) (payload : Option (List Byte)) : (captureRec ccc kind port vc rest payload s).red = s.red :=
  keep_captureRec (P := Unchanged .red s) (keeps_unchanged s .red (by decide)) (stores_unchanged s .red (by decide) (by decide)) _ _ _ _ _ _ rfl
@[simp] theorem captureRec_fin (ccc kind port vc : Nat) (rest : List Byte) (payload : Option (List Byte)) : (captureRec ccc kind port vc rest payload s).fin = s.fin :=
  keep_captureRec (P := Unchanged .fin s) (keeps_unchanged s .fin (by decide)) (stores_unchanged s .fin (by decide) (by decide)) _ _ _ _ _ _ rfl
@[simp] theorem captureRec_row (ccc kind port vc : Nat) (rest : List Byte) (payload : Option (List Byte)) : (captureRec ccc kind port vc rest payload s).row = s.row :=
  keep_captureRec (P := Unchanged .row s) (keeps_unchanged s .row (by decide)) (stores_unchanged s .row (by decide) (by decide)) _ _ _ _ _ _ rfl
@[simp] theorem captureRec_gas (ccc kind port vc : Nat) (rest : List Byte) (payload : Option (List Byte)) : (captureRec ccc kind port vc rest payload s).gas = s.gas :=
  keep_captureRec (P := Unchanged .gas s) (keeps_unchanged s .gas (by decide)) (stores_unchanged s .gas (by decide) (by decide)) _ _ _ _ _ _ rfl
@[simp] theorem captureRec_opt (ccc kind port vc : Nat) (rest : List Byte) (payload : Option (List Byte)) : (captureRec ccc kind port vc rest payload s).opt = s.opt :=
  keep_captureRec (P := Unchanged .opt s) (keeps_unchanged s .opt (by decide)) (stores_unchanged s .opt (by decide) (by decide)) _ _ _ _ _ _ rfl
@[simp] theorem captureRec_spx (ccc kind port vc : Nat) (rest : List Byte) (payload : Option (List Byte)) : (captureRec ccc kind port vc rest payload s).spx = s.spx :=
  keep_captureRec (P := Unchanged .spx s) (keeps_unchanged s .spx (by decide)) (stores_unchanged s .spx (by decide) (by decide)) _ _ _ _ _ _ rfl
@[simp] theorem captureRec_syn (ccc kind port vc : Nat) (rest : List Byte) (payload : Option (List Byte)) : (captureRec ccc kind port vc rest payload s).syn = s.syn :=
  keep_captureRec (P := Unchanged .syn s) (keeps_unchanged s .syn (by decide)) (stores_unchanged s .syn (by decide) (by decide)) _ _ _ _ _ _ rfl
@[simp] theorem captureRec_rtr (ccc kind port vc : Nat) (rest : List Byte) (payload : Option (List Byte)) : (captureRec ccc kind port vc rest payload s).rtr = s.rtr :=
  keep_captureRec (P := Unchanged .rtr s) (keeps_unchanged s .rtr (by decide)) (stores_unchanged s .rtr (by decide) (by decide)) _ _ _ _ _ _ rfl
@[simp] theorem captureRec_lnk (ccc kind port vc : Nat) (rest : List Byte) (payload : Option (List Byte)) : (captureRec ccc kind port vc rest payload s).lnk = s.lnk :=
  keep_captureRec (P := Unchanged .lnk s) (keeps_unchanged s .lnk (by decide)) (stores_unchanged s .lnk (by decide) (by decide)) _ _ _ _ _ _ rfl
@[simp] theorem captureRec_lsu (ccc kind port vc : Nat) (rest : List Byte) (payload : Option (List Byte)) : (captureRec ccc kind port vc rest payload s).lsu = s.lsu :=
  keep_captureRec (P := Unchanged .lsu s) (keeps_unchanged s .lsu (by decide)) (stores_unchanged s .lsu (by decide) (by decide)) _ _ _ _ _ _ rfl
@[simp] theorem captureRec_flt (ccc kind port vc : Nat) (rest : List Byte) (payload : Option (List Byte)) : (captureRec ccc kind port vc rest payload s).flt = s.flt :=
  keep_captureRec (P := Unchanged .flt s) (keeps_unchanged s .flt (by decide)) (stores_unchanged s .flt (by decide) (by decide)) _ _ _ _ _ _ rfl
@[simp] theorem captureRec_pwr (ccc kind port vc : Nat) (rest : List Byte) (payload : Option (List Byte)) : (captureRec ccc kind port vc rest payload s).pwr = s.pwr :=
  keep_captureRec (P := Unchanged .pwr s) (keeps_unchanged s .pwr (by decide)) (stores_unchanged s .pwr (by decide) (by decide)) _ _ _ _ _ _ rfl
@[simp] theorem captureRec_rst (ccc kind port vc : Nat) (rest : List Byte) (payload : Option (List Byte)) : (captureRec ccc kind port vc rest payload s).rst = s.rst :=
  keep_captureRec (P := Unchanged .rst s) (keeps_unchanged s .rst (by decide)) (stores_unchanged s .rst (by decide) (by decide)) _ _ _ _ _ _ rfl
@[simp] theorem captureRec_dbg (ccc kind port vc : Nat) (rest : List Byte) (payload : Option (List Byte)) : (captureRec ccc kind port vc rest payload s).dbg = s.dbg :=
  keep_captureRec (P := Unchanged .dbg s) (keeps_unchanged s .dbg (by decide)) (stores_unchanged s .dbg (by decide) (by decide)) _ _ _ _ _ _ rfl

@[simp] theorem freezeCapture_ccc (code : W16) : (freezeCapture code s).ccc = s.ccc :=
  keep_freezeCapture (P := Unchanged .ccc s) (keeps_unchanged s .ccc (by decide)) (stores_unchanged s .ccc (by decide) (by decide)) _ rfl
@[simp] theorem freezeCapture_tick (code : W16) : (freezeCapture code s).tick = s.tick :=
  keep_freezeCapture (P := Unchanged .tick s) (keeps_unchanged s .tick (by decide)) (stores_unchanged s .tick (by decide) (by decide)) _ rfl
@[simp] theorem freezeCapture_free (code : W16) : (freezeCapture code s).free = s.free :=
  keep_freezeCapture (P := Unchanged .free s) (keeps_unchanged s .free (by decide)) (stores_unchanged s .free (by decide) (by decide)) _ rfl
@[simp] theorem freezeCapture_pending (code : W16) : (freezeCapture code s).pending = s.pending :=
  keep_freezeCapture (P := Unchanged .pending s) (keeps_unchanged s .pending (by decide)) (stores_unchanged s .pending (by decide) (by decide)) _ rfl
@[simp] theorem freezeCapture_heldLow (code : W16) : (freezeCapture code s).heldLow = s.heldLow :=
  keep_freezeCapture (P := Unchanged .heldLow s) (keeps_unchanged s .heldLow (by decide)) (stores_unchanged s .heldLow (by decide) (by decide)) _ rfl
@[simp] theorem freezeCapture_ctl (code : W16) : (freezeCapture code s).ctl = s.ctl :=
  keep_freezeCapture (P := Unchanged .ctl s) (keeps_unchanged s .ctl (by decide)) (stores_unchanged s .ctl (by decide) (by decide)) _ rfl
@[simp] theorem freezeCapture_que (code : W16) : (freezeCapture code s).que = s.que :=
  keep_freezeCapture (P := Unchanged .que s) (keeps_unchanged s .que (by decide)) (stores_unchanged s .que (by decide) (by decide)) _ rfl
@[simp] theorem freezeCapture_tiles (code : W16) : (freezeCapture code s).tiles = s.tiles :=
  keep_freezeCapture (P := Unchanged .tiles s) (keeps_unchanged s .tiles (by decide)) (stores_unchanged s .tiles (by decide) (by decide)) _ rfl
@[simp] theorem freezeCapture_tpl (code : W16) : (freezeCapture code s).tpl = s.tpl :=
  keep_freezeCapture (P := Unchanged .tpl s) (keeps_unchanged s .tpl (by decide)) (stores_unchanged s .tpl (by decide) (by decide)) _ rfl
@[simp] theorem freezeCapture_ses (code : W16) : (freezeCapture code s).ses = s.ses :=
  keep_freezeCapture (P := Unchanged .ses s) (keeps_unchanged s .ses (by decide)) (stores_unchanged s .ses (by decide) (by decide)) _ rfl
@[simp] theorem freezeCapture_trk (code : W16) : (freezeCapture code s).trk = s.trk :=
  keep_freezeCapture (P := Unchanged .trk s) (keeps_unchanged s .trk (by decide)) (stores_unchanged s .trk (by decide) (by decide)) _ rfl
@[simp] theorem freezeCapture_red (code : W16) : (freezeCapture code s).red = s.red :=
  keep_freezeCapture (P := Unchanged .red s) (keeps_unchanged s .red (by decide)) (stores_unchanged s .red (by decide) (by decide)) _ rfl
@[simp] theorem freezeCapture_fin (code : W16) : (freezeCapture code s).fin = s.fin :=
  keep_freezeCapture (P := Unchanged .fin s) (keeps_unchanged s .fin (by decide)) (stores_unchanged s .fin (by decide) (by decide)) _ rfl
@[simp] theorem freezeCapture_row (code : W16) : (freezeCapture code s).row = s.row :=
  keep_freezeCapture (P := Unchanged .row s) (keeps_unchanged s .row (by decide)) (stores_unchanged s .row (by decide) (by decide)) _ rfl
@[simp] theorem freezeCapture_gas (code : W16) : (freezeCapture code s).gas = s.gas :=
  keep_freezeCapture (P := Unchanged .gas s) (keeps_unchanged s .gas (by decide)) (stores_unchanged s .gas (by decide) (by decide)) _ rfl
@[simp] theorem freezeCapture_opt (code : W16) : (freezeCapture code s).opt = s.opt :=
  keep_freezeCapture (P := Unchanged .opt s) (keeps_unchanged s .opt (by decide)) (stores_unchanged s .opt (by decide) (by decide)) _ rfl
@[simp] theorem freezeCapture_spx (code : W16) : (freezeCapture code s).spx = s.spx :=
  keep_freezeCapture (P := Unchanged .spx s) (keeps_unchanged s .spx (by decide)) (stores_unchanged s .spx (by decide) (by decide)) _ rfl
@[simp] theorem freezeCapture_syn (code : W16) : (freezeCapture code s).syn = s.syn :=
  keep_freezeCapture (P := Unchanged .syn s) (keeps_unchanged s .syn (by decide)) (stores_unchanged s .syn (by decide) (by decide)) _ rfl
@[simp] theorem freezeCapture_rtr (code : W16) : (freezeCapture code s).rtr = s.rtr :=
  keep_freezeCapture (P := Unchanged .rtr s) (keeps_unchanged s .rtr (by decide)) (stores_unchanged s .rtr (by decide) (by decide)) _ rfl
@[simp] theorem freezeCapture_lnk (code : W16) : (freezeCapture code s).lnk = s.lnk :=
  keep_freezeCapture (P := Unchanged .lnk s) (keeps_unchanged s .lnk (by decide)) (stores_unchanged s .lnk (by decide) (by decide)) _ rfl
@[simp] theorem freezeCapture_lsu (code : W16) : (freezeCapture code s).lsu = s.lsu :=
  keep_freezeCapture (P := Unchanged .lsu s) (keeps_unchanged s .lsu (by decide)) (stores_unchanged s .lsu (by decide) (by decide)) _ rfl
@[simp] theorem freezeCapture_flt (code : W16) : (freezeCapture code s).flt = s.flt :=
  keep_freezeCapture (P := Unchanged .flt s) (keeps_unchanged s .flt (by decide)) (stores_unchanged s .flt (by decide) (by decide)) _ rfl
@[simp] theorem freezeCapture_pwr (code : W16) : (freezeCapture code s).pwr = s.pwr :=
  keep_freezeCapture (P := Unchanged .pwr s) (keeps_unchanged s .pwr (by decide)) (stores_unchanged s .pwr (by decide) (by decide)) _ rfl
@[simp] theorem freezeCapture_rst (code : W16) : (freezeCapture code s).rst = s.rst :=
  keep_freezeCapture (P := Unchanged .rst s) (keeps_unchanged s .rst (by decide)) (stores_unchanged s .rst (by decide) (by decide)) _ rfl
@[simp] theorem freezeCapture_dbg (code : W16) : (freezeCapture code s).dbg = s.dbg :=
  keep_freezeCapture (P := Unchanged .dbg s) (keeps_unchanged s .dbg (by decide)) (stores_unchanged s .dbg (by decide) (by decide)) _ rfl

@[simp] theorem decision_ccc (dkind slot subject tag code arg : Nat) : (decision dkind slot subject tag code arg s).ccc = s.ccc :=
  keep_decision (P := Unchanged .ccc s) (keeps_unchanged s .ccc (by decide)) _ _ _ _ _ _ rfl
@[simp] theorem decision_tick (dkind slot subject tag code arg : Nat) : (decision dkind slot subject tag code arg s).tick = s.tick :=
  keep_decision (P := Unchanged .tick s) (keeps_unchanged s .tick (by decide)) _ _ _ _ _ _ rfl
@[simp] theorem decision_free (dkind slot subject tag code arg : Nat) : (decision dkind slot subject tag code arg s).free = s.free :=
  keep_decision (P := Unchanged .free s) (keeps_unchanged s .free (by decide)) _ _ _ _ _ _ rfl
@[simp] theorem decision_pending (dkind slot subject tag code arg : Nat) : (decision dkind slot subject tag code arg s).pending = s.pending :=
  keep_decision (P := Unchanged .pending s) (keeps_unchanged s .pending (by decide)) _ _ _ _ _ _ rfl
@[simp] theorem decision_hdrs (dkind slot subject tag code arg : Nat) : (decision dkind slot subject tag code arg s).hdrs = s.hdrs :=
  keep_decision (P := Unchanged .hdrs s) (keeps_unchanged s .hdrs (by decide)) _ _ _ _ _ _ rfl
@[simp] theorem decision_heldLow (dkind slot subject tag code arg : Nat) : (decision dkind slot subject tag code arg s).heldLow = s.heldLow :=
  keep_decision (P := Unchanged .heldLow s) (keeps_unchanged s .heldLow (by decide)) _ _ _ _ _ _ rfl
@[simp] theorem decision_msix (dkind slot subject tag code arg : Nat) : (decision dkind slot subject tag code arg s).msix = s.msix :=
  keep_decision (P := Unchanged .msix s) (keeps_unchanged s .msix (by decide)) _ _ _ _ _ _ rfl
@[simp] theorem decision_mem (dkind slot subject tag code arg : Nat) : (decision dkind slot subject tag code arg s).mem = s.mem :=
  keep_decision (P := Unchanged .mem s) (keeps_unchanged s .mem (by decide)) _ _ _ _ _ _ rfl
@[simp] theorem decision_emp (dkind slot subject tag code arg : Nat) : (decision dkind slot subject tag code arg s).emp = s.emp :=
  keep_decision (P := Unchanged .emp s) (keeps_unchanged s .emp (by decide)) _ _ _ _ _ _ rfl
@[simp] theorem decision_que (dkind slot subject tag code arg : Nat) : (decision dkind slot subject tag code arg s).que = s.que :=
  keep_decision (P := Unchanged .que s) (keeps_unchanged s .que (by decide)) _ _ _ _ _ _ rfl
@[simp] theorem decision_tiles (dkind slot subject tag code arg : Nat) : (decision dkind slot subject tag code arg s).tiles = s.tiles :=
  keep_decision (P := Unchanged .tiles s) (keeps_unchanged s .tiles (by decide)) _ _ _ _ _ _ rfl
@[simp] theorem decision_tpl (dkind slot subject tag code arg : Nat) : (decision dkind slot subject tag code arg s).tpl = s.tpl :=
  keep_decision (P := Unchanged .tpl s) (keeps_unchanged s .tpl (by decide)) _ _ _ _ _ _ rfl
@[simp] theorem decision_ses (dkind slot subject tag code arg : Nat) : (decision dkind slot subject tag code arg s).ses = s.ses :=
  keep_decision (P := Unchanged .ses s) (keeps_unchanged s .ses (by decide)) _ _ _ _ _ _ rfl
@[simp] theorem decision_trk (dkind slot subject tag code arg : Nat) : (decision dkind slot subject tag code arg s).trk = s.trk :=
  keep_decision (P := Unchanged .trk s) (keeps_unchanged s .trk (by decide)) _ _ _ _ _ _ rfl
@[simp] theorem decision_red (dkind slot subject tag code arg : Nat) : (decision dkind slot subject tag code arg s).red = s.red :=
  keep_decision (P := Unchanged .red s) (keeps_unchanged s .red (by decide)) _ _ _ _ _ _ rfl
@[simp] theorem decision_fin (dkind slot subject tag code arg : Nat) : (decision dkind slot subject tag code arg s).fin = s.fin :=
  keep_decision (P := Unchanged .fin s) (keeps_unchanged s .fin (by decide)) _ _ _ _ _ _ rfl
@[simp] theorem decision_row (dkind slot subject tag code arg : Nat) : (decision dkind slot subject tag code arg s).row = s.row :=
  keep_decision (P := Unchanged .row s) (keeps_unchanged s .row (by decide)) _ _ _ _ _ _ rfl
@[simp] theorem decision_gas (dkind slot subject tag code arg : Nat) : (decision dkind slot subject tag code arg s).gas = s.gas :=
  keep_decision (P := Unchanged .gas s) (keeps_unchanged s .gas (by decide)) _ _ _ _ _ _ rfl
@[simp] theorem decision_opt (dkind slot subject tag code arg : Nat) : (decision dkind slot subject tag code arg s).opt = s.opt :=
  keep_decision (P := Unchanged .opt s) (keeps_unchanged s .opt (by decide)) _ _ _ _ _ _ rfl
@[simp] theorem decision_spx (dkind slot subject tag code arg : Nat) : (decision dkind slot subject tag code arg s).spx = s.spx :=
  keep_decision (P := Unchanged .spx s) (keeps_unchanged s .spx (by decide)) _ _ _ _ _ _ rfl
@[simp] theorem decision_syn (dkind slot subject tag code arg : Nat) : (decision dkind slot subject tag code arg s).syn = s.syn :=
  keep_decision (P := Unchanged .syn s) (keeps_unchanged s .syn (by decide)) _ _ _ _ _ _ rfl
@[simp] theorem decision_rtr (dkind slot subject tag code arg : Nat) : (decision dkind slot subject tag code arg s).rtr = s.rtr :=
  keep_decision (P := Unchanged .rtr s) (keeps_unchanged s .rtr (by decide)) _ _ _ _ _ _ rfl
@[simp] theorem decision_lnk (dkind slot subject tag code arg : Nat) : (decision dkind slot subject tag code arg s).lnk = s.lnk :=
  keep_decision (P := Unchanged .lnk s) (keeps_unchanged s .lnk (by decide)) _ _ _ _ _ _ rfl
@[simp] theorem decision_lsu (dkind slot subject tag code arg : Nat) : (decision dkind slot subject tag code arg s).lsu = s.lsu :=
  keep_decision (P := Unchanged .lsu s) (keeps_unchanged s .lsu (by decide)) _ _ _ _ _ _ rfl
@[simp] theorem decision_flt (dkind slot subject tag code arg : Nat) : (decision dkind slot subject tag code arg s).flt = s.flt :=
  keep_decision (P := Unchanged .flt s) (keeps_unchanged s .flt (by decide)) _ _ _ _ _ _ rfl
@[simp] theorem decision_pwr (dkind slot subject tag code arg : Nat) : (decision dkind slot subject tag code arg s).pwr = s.pwr :=
  keep_decision (P := Unchanged .pwr s) (keeps_unchanged s .pwr (by decide)) _ _ _ _ _ _ rfl
@[simp] theorem decision_rst (dkind slot subject tag code arg : Nat) : (decision dkind slot subject tag code arg s).rst = s.rst :=
  keep_decision (P := Unchanged .rst s) (keeps_unchanged s .rst (by decide)) _ _ _ _ _ _ rfl
@[simp] theorem decision_dbg (dkind slot subject tag code arg : Nat) : (decision dkind slot subject tag code arg s).dbg = s.dbg :=
  keep_decision (P := Unchanged .dbg s) (keeps_unchanged s .dbg (by decide)) _ _ _ _ _ _ rfl

@[simp] theorem choice_ccc (cls outcome : Nat) (subject : Nat) : (choice cls outcome subject s).ccc = s.ccc :=
  keep_choice (P := Unchanged .ccc s) (keeps_unchanged s .ccc (by decide)) (stores_unchanged s .ccc (by decide) (by decide)) _ _ _ rfl
@[simp] theorem choice_tick (cls outcome : Nat) (subject : Nat) : (choice cls outcome subject s).tick = s.tick :=
  keep_choice (P := Unchanged .tick s) (keeps_unchanged s .tick (by decide)) (stores_unchanged s .tick (by decide) (by decide)) _ _ _ rfl
@[simp] theorem choice_pending (cls outcome : Nat) (subject : Nat) : (choice cls outcome subject s).pending = s.pending :=
  keep_choice (P := Unchanged .pending s) (keeps_unchanged s .pending (by decide)) (stores_unchanged s .pending (by decide) (by decide)) _ _ _ rfl
@[simp] theorem choice_heldLow (cls outcome : Nat) (subject : Nat) : (choice cls outcome subject s).heldLow = s.heldLow :=
  keep_choice (P := Unchanged .heldLow s) (keeps_unchanged s .heldLow (by decide)) (stores_unchanged s .heldLow (by decide) (by decide)) _ _ _ rfl
@[simp] theorem choice_ctl (cls outcome : Nat) (subject : Nat) : (choice cls outcome subject s).ctl = s.ctl :=
  keep_choice (P := Unchanged .ctl s) (keeps_unchanged s .ctl (by decide)) (stores_unchanged s .ctl (by decide) (by decide)) _ _ _ rfl
@[simp] theorem choice_que (cls outcome : Nat) (subject : Nat) : (choice cls outcome subject s).que = s.que :=
  keep_choice (P := Unchanged .que s) (keeps_unchanged s .que (by decide)) (stores_unchanged s .que (by decide) (by decide)) _ _ _ rfl
@[simp] theorem choice_tiles (cls outcome : Nat) (subject : Nat) : (choice cls outcome subject s).tiles = s.tiles :=
  keep_choice (P := Unchanged .tiles s) (keeps_unchanged s .tiles (by decide)) (stores_unchanged s .tiles (by decide) (by decide)) _ _ _ rfl
@[simp] theorem choice_tpl (cls outcome : Nat) (subject : Nat) : (choice cls outcome subject s).tpl = s.tpl :=
  keep_choice (P := Unchanged .tpl s) (keeps_unchanged s .tpl (by decide)) (stores_unchanged s .tpl (by decide) (by decide)) _ _ _ rfl
@[simp] theorem choice_ses (cls outcome : Nat) (subject : Nat) : (choice cls outcome subject s).ses = s.ses :=
  keep_choice (P := Unchanged .ses s) (keeps_unchanged s .ses (by decide)) (stores_unchanged s .ses (by decide) (by decide)) _ _ _ rfl
@[simp] theorem choice_trk (cls outcome : Nat) (subject : Nat) : (choice cls outcome subject s).trk = s.trk :=
  keep_choice (P := Unchanged .trk s) (keeps_unchanged s .trk (by decide)) (stores_unchanged s .trk (by decide) (by decide)) _ _ _ rfl
@[simp] theorem choice_red (cls outcome : Nat) (subject : Nat) : (choice cls outcome subject s).red = s.red :=
  keep_choice (P := Unchanged .red s) (keeps_unchanged s .red (by decide)) (stores_unchanged s .red (by decide) (by decide)) _ _ _ rfl
@[simp] theorem choice_fin (cls outcome : Nat) (subject : Nat) : (choice cls outcome subject s).fin = s.fin :=
  keep_choice (P := Unchanged .fin s) (keeps_unchanged s .fin (by decide)) (stores_unchanged s .fin (by decide) (by decide)) _ _ _ rfl
@[simp] theorem choice_row (cls outcome : Nat) (subject : Nat) : (choice cls outcome subject s).row = s.row :=
  keep_choice (P := Unchanged .row s) (keeps_unchanged s .row (by decide)) (stores_unchanged s .row (by decide) (by decide)) _ _ _ rfl
@[simp] theorem choice_gas (cls outcome : Nat) (subject : Nat) : (choice cls outcome subject s).gas = s.gas :=
  keep_choice (P := Unchanged .gas s) (keeps_unchanged s .gas (by decide)) (stores_unchanged s .gas (by decide) (by decide)) _ _ _ rfl
@[simp] theorem choice_opt (cls outcome : Nat) (subject : Nat) : (choice cls outcome subject s).opt = s.opt :=
  keep_choice (P := Unchanged .opt s) (keeps_unchanged s .opt (by decide)) (stores_unchanged s .opt (by decide) (by decide)) _ _ _ rfl
@[simp] theorem choice_spx (cls outcome : Nat) (subject : Nat) : (choice cls outcome subject s).spx = s.spx :=
  keep_choice (P := Unchanged .spx s) (keeps_unchanged s .spx (by decide)) (stores_unchanged s .spx (by decide) (by decide)) _ _ _ rfl
@[simp] theorem choice_syn (cls outcome : Nat) (subject : Nat) : (choice cls outcome subject s).syn = s.syn :=
  keep_choice (P := Unchanged .syn s) (keeps_unchanged s .syn (by decide)) (stores_unchanged s .syn (by decide) (by decide)) _ _ _ rfl
@[simp] theorem choice_rtr (cls outcome : Nat) (subject : Nat) : (choice cls outcome subject s).rtr = s.rtr :=
  keep_choice (P := Unchanged .rtr s) (keeps_unchanged s .rtr (by decide)) (stores_unchanged s .rtr (by decide) (by decide)) _ _ _ rfl
@[simp] theorem choice_lnk (cls outcome : Nat) (subject : Nat) : (choice cls outcome subject s).lnk = s.lnk :=
  keep_choice (P := Unchanged .lnk s) (keeps_unchanged s .lnk (by decide)) (stores_unchanged s .lnk (by decide) (by decide)) _ _ _ rfl
@[simp] theorem choice_lsu (cls outcome : Nat) (subject : Nat) : (choice cls outcome subject s).lsu = s.lsu :=
  keep_choice (P := Unchanged .lsu s) (keeps_unchanged s .lsu (by decide)) (stores_unchanged s .lsu (by decide) (by decide)) _ _ _ rfl
@[simp] theorem choice_flt (cls outcome : Nat) (subject : Nat) : (choice cls outcome subject s).flt = s.flt :=
  keep_choice (P := Unchanged .flt s) (keeps_unchanged s .flt (by decide)) (stores_unchanged s .flt (by decide) (by decide)) _ _ _ rfl
@[simp] theorem choice_pwr (cls outcome : Nat) (subject : Nat) : (choice cls outcome subject s).pwr = s.pwr :=
  keep_choice (P := Unchanged .pwr s) (keeps_unchanged s .pwr (by decide)) (stores_unchanged s .pwr (by decide) (by decide)) _ _ _ rfl
@[simp] theorem choice_rst (cls outcome : Nat) (subject : Nat) : (choice cls outcome subject s).rst = s.rst :=
  keep_choice (P := Unchanged .rst s) (keeps_unchanged s .rst (by decide)) (stores_unchanged s .rst (by decide) (by decide)) _ _ _ rfl
@[simp] theorem choice_dbg (cls outcome : Nat) (subject : Nat) : (choice cls outcome subject s).dbg = s.dbg :=
  keep_choice (P := Unchanged .dbg s) (keeps_unchanged s .dbg (by decide)) (stores_unchanged s .dbg (by decide) (by decide)) _ _ _ rfl

@[simp] theorem logDouble_ccc (n word : Nat) (injected : Bool) : (logDouble n word injected s).ccc = s.ccc :=
  keep_logDouble (P := Unchanged .ccc s) (keeps_unchanged s .ccc (by decide)) _ _ _ rfl
@[simp] theorem logDouble_tick (n word : Nat) (injected : Bool) : (logDouble n word injected s).tick = s.tick :=
  keep_logDouble (P := Unchanged .tick s) (keeps_unchanged s .tick (by decide)) _ _ _ rfl
@[simp] theorem logDouble_free (n word : Nat) (injected : Bool) : (logDouble n word injected s).free = s.free :=
  keep_logDouble (P := Unchanged .free s) (keeps_unchanged s .free (by decide)) _ _ _ rfl
@[simp] theorem logDouble_pending (n word : Nat) (injected : Bool) : (logDouble n word injected s).pending = s.pending :=
  keep_logDouble (P := Unchanged .pending s) (keeps_unchanged s .pending (by decide)) _ _ _ rfl
@[simp] theorem logDouble_heldLow (n word : Nat) (injected : Bool) : (logDouble n word injected s).heldLow = s.heldLow :=
  keep_logDouble (P := Unchanged .heldLow s) (keeps_unchanged s .heldLow (by decide)) _ _ _ rfl
@[simp] theorem logDouble_mem (n word : Nat) (injected : Bool) : (logDouble n word injected s).mem = s.mem :=
  keep_logDouble (P := Unchanged .mem s) (keeps_unchanged s .mem (by decide)) _ _ _ rfl
@[simp] theorem logDouble_emp (n word : Nat) (injected : Bool) : (logDouble n word injected s).emp = s.emp :=
  keep_logDouble (P := Unchanged .emp s) (keeps_unchanged s .emp (by decide)) _ _ _ rfl
@[simp] theorem logDouble_ctl (n word : Nat) (injected : Bool) : (logDouble n word injected s).ctl = s.ctl :=
  keep_logDouble (P := Unchanged .ctl s) (keeps_unchanged s .ctl (by decide)) _ _ _ rfl
@[simp] theorem logDouble_que (n word : Nat) (injected : Bool) : (logDouble n word injected s).que = s.que :=
  keep_logDouble (P := Unchanged .que s) (keeps_unchanged s .que (by decide)) _ _ _ rfl
@[simp] theorem logDouble_tiles (n word : Nat) (injected : Bool) : (logDouble n word injected s).tiles = s.tiles :=
  keep_logDouble (P := Unchanged .tiles s) (keeps_unchanged s .tiles (by decide)) _ _ _ rfl
@[simp] theorem logDouble_tpl (n word : Nat) (injected : Bool) : (logDouble n word injected s).tpl = s.tpl :=
  keep_logDouble (P := Unchanged .tpl s) (keeps_unchanged s .tpl (by decide)) _ _ _ rfl
@[simp] theorem logDouble_ses (n word : Nat) (injected : Bool) : (logDouble n word injected s).ses = s.ses :=
  keep_logDouble (P := Unchanged .ses s) (keeps_unchanged s .ses (by decide)) _ _ _ rfl
@[simp] theorem logDouble_trk (n word : Nat) (injected : Bool) : (logDouble n word injected s).trk = s.trk :=
  keep_logDouble (P := Unchanged .trk s) (keeps_unchanged s .trk (by decide)) _ _ _ rfl
@[simp] theorem logDouble_red (n word : Nat) (injected : Bool) : (logDouble n word injected s).red = s.red :=
  keep_logDouble (P := Unchanged .red s) (keeps_unchanged s .red (by decide)) _ _ _ rfl
@[simp] theorem logDouble_fin (n word : Nat) (injected : Bool) : (logDouble n word injected s).fin = s.fin :=
  keep_logDouble (P := Unchanged .fin s) (keeps_unchanged s .fin (by decide)) _ _ _ rfl
@[simp] theorem logDouble_row (n word : Nat) (injected : Bool) : (logDouble n word injected s).row = s.row :=
  keep_logDouble (P := Unchanged .row s) (keeps_unchanged s .row (by decide)) _ _ _ rfl
@[simp] theorem logDouble_gas (n word : Nat) (injected : Bool) : (logDouble n word injected s).gas = s.gas :=
  keep_logDouble (P := Unchanged .gas s) (keeps_unchanged s .gas (by decide)) _ _ _ rfl
@[simp] theorem logDouble_opt (n word : Nat) (injected : Bool) : (logDouble n word injected s).opt = s.opt :=
  keep_logDouble (P := Unchanged .opt s) (keeps_unchanged s .opt (by decide)) _ _ _ rfl
@[simp] theorem logDouble_spx (n word : Nat) (injected : Bool) : (logDouble n word injected s).spx = s.spx :=
  keep_logDouble (P := Unchanged .spx s) (keeps_unchanged s .spx (by decide)) _ _ _ rfl
@[simp] theorem logDouble_syn (n word : Nat) (injected : Bool) : (logDouble n word injected s).syn = s.syn :=
  keep_logDouble (P := Unchanged .syn s) (keeps_unchanged s .syn (by decide)) _ _ _ rfl
@[simp] theorem logDouble_rtr (n word : Nat) (injected : Bool) : (logDouble n word injected s).rtr = s.rtr :=
  keep_logDouble (P := Unchanged .rtr s) (keeps_unchanged s .rtr (by decide)) _ _ _ rfl
@[simp] theorem logDouble_lnk (n word : Nat) (injected : Bool) : (logDouble n word injected s).lnk = s.lnk :=
  keep_logDouble (P := Unchanged .lnk s) (keeps_unchanged s .lnk (by decide)) _ _ _ rfl
@[simp] theorem logDouble_lsu (n word : Nat) (injected : Bool) : (logDouble n word injected s).lsu = s.lsu :=
  keep_logDouble (P := Unchanged .lsu s) (keeps_unchanged s .lsu (by decide)) _ _ _ rfl
@[simp] theorem logDouble_rru (n word : Nat) (injected : Bool) : (logDouble n word injected s).rru = s.rru :=
  keep_logDouble (P := Unchanged .rru s) (keeps_unchanged s .rru (by decide)) _ _ _ rfl
@[simp] theorem logDouble_pwr (n word : Nat) (injected : Bool) : (logDouble n word injected s).pwr = s.pwr :=
  keep_logDouble (P := Unchanged .pwr s) (keeps_unchanged s .pwr (by decide)) _ _ _ rfl
@[simp] theorem logDouble_rst (n word : Nat) (injected : Bool) : (logDouble n word injected s).rst = s.rst :=
  keep_logDouble (P := Unchanged .rst s) (keeps_unchanged s .rst (by decide)) _ _ _ rfl
@[simp] theorem logDouble_dbg (n word : Nat) (injected : Bool) : (logDouble n word injected s).dbg = s.dbg :=
  keep_logDouble (P := Unchanged .dbg s) (keeps_unchanged s .dbg (by decide)) _ _ _ rfl

@[simp] theorem eccSingleAs_ccc (n : Nat) (injected : Bool) : (eccSingleAs n injected s).ccc = s.ccc :=
  keep_eccSingleAs (P := Unchanged .ccc s) (keeps_unchanged s .ccc (by decide)) (stores_unchanged s .ccc (by decide) (by decide)) _ _ rfl
@[simp] theorem eccSingleAs_tick (n : Nat) (injected : Bool) : (eccSingleAs n injected s).tick = s.tick :=
  keep_eccSingleAs (P := Unchanged .tick s) (keeps_unchanged s .tick (by decide)) (stores_unchanged s .tick (by decide) (by decide)) _ _ rfl
@[simp] theorem eccSingleAs_free (n : Nat) (injected : Bool) : (eccSingleAs n injected s).free = s.free :=
  keep_eccSingleAs (P := Unchanged .free s) (keeps_unchanged s .free (by decide)) (stores_unchanged s .free (by decide) (by decide)) _ _ rfl
@[simp] theorem eccSingleAs_pending (n : Nat) (injected : Bool) : (eccSingleAs n injected s).pending = s.pending :=
  keep_eccSingleAs (P := Unchanged .pending s) (keeps_unchanged s .pending (by decide)) (stores_unchanged s .pending (by decide) (by decide)) _ _ rfl
@[simp] theorem eccSingleAs_heldLow (n : Nat) (injected : Bool) : (eccSingleAs n injected s).heldLow = s.heldLow :=
  keep_eccSingleAs (P := Unchanged .heldLow s) (keeps_unchanged s .heldLow (by decide)) (stores_unchanged s .heldLow (by decide) (by decide)) _ _ rfl
@[simp] theorem eccSingleAs_ctl (n : Nat) (injected : Bool) : (eccSingleAs n injected s).ctl = s.ctl :=
  keep_eccSingleAs (P := Unchanged .ctl s) (keeps_unchanged s .ctl (by decide)) (stores_unchanged s .ctl (by decide) (by decide)) _ _ rfl
@[simp] theorem eccSingleAs_que (n : Nat) (injected : Bool) : (eccSingleAs n injected s).que = s.que :=
  keep_eccSingleAs (P := Unchanged .que s) (keeps_unchanged s .que (by decide)) (stores_unchanged s .que (by decide) (by decide)) _ _ rfl
@[simp] theorem eccSingleAs_tiles (n : Nat) (injected : Bool) : (eccSingleAs n injected s).tiles = s.tiles :=
  keep_eccSingleAs (P := Unchanged .tiles s) (keeps_unchanged s .tiles (by decide)) (stores_unchanged s .tiles (by decide) (by decide)) _ _ rfl
@[simp] theorem eccSingleAs_tpl (n : Nat) (injected : Bool) : (eccSingleAs n injected s).tpl = s.tpl :=
  keep_eccSingleAs (P := Unchanged .tpl s) (keeps_unchanged s .tpl (by decide)) (stores_unchanged s .tpl (by decide) (by decide)) _ _ rfl
@[simp] theorem eccSingleAs_ses (n : Nat) (injected : Bool) : (eccSingleAs n injected s).ses = s.ses :=
  keep_eccSingleAs (P := Unchanged .ses s) (keeps_unchanged s .ses (by decide)) (stores_unchanged s .ses (by decide) (by decide)) _ _ rfl
@[simp] theorem eccSingleAs_trk (n : Nat) (injected : Bool) : (eccSingleAs n injected s).trk = s.trk :=
  keep_eccSingleAs (P := Unchanged .trk s) (keeps_unchanged s .trk (by decide)) (stores_unchanged s .trk (by decide) (by decide)) _ _ rfl
@[simp] theorem eccSingleAs_red (n : Nat) (injected : Bool) : (eccSingleAs n injected s).red = s.red :=
  keep_eccSingleAs (P := Unchanged .red s) (keeps_unchanged s .red (by decide)) (stores_unchanged s .red (by decide) (by decide)) _ _ rfl
@[simp] theorem eccSingleAs_fin (n : Nat) (injected : Bool) : (eccSingleAs n injected s).fin = s.fin :=
  keep_eccSingleAs (P := Unchanged .fin s) (keeps_unchanged s .fin (by decide)) (stores_unchanged s .fin (by decide) (by decide)) _ _ rfl
@[simp] theorem eccSingleAs_row (n : Nat) (injected : Bool) : (eccSingleAs n injected s).row = s.row :=
  keep_eccSingleAs (P := Unchanged .row s) (keeps_unchanged s .row (by decide)) (stores_unchanged s .row (by decide) (by decide)) _ _ rfl
@[simp] theorem eccSingleAs_gas (n : Nat) (injected : Bool) : (eccSingleAs n injected s).gas = s.gas :=
  keep_eccSingleAs (P := Unchanged .gas s) (keeps_unchanged s .gas (by decide)) (stores_unchanged s .gas (by decide) (by decide)) _ _ rfl
@[simp] theorem eccSingleAs_opt (n : Nat) (injected : Bool) : (eccSingleAs n injected s).opt = s.opt :=
  keep_eccSingleAs (P := Unchanged .opt s) (keeps_unchanged s .opt (by decide)) (stores_unchanged s .opt (by decide) (by decide)) _ _ rfl
@[simp] theorem eccSingleAs_spx (n : Nat) (injected : Bool) : (eccSingleAs n injected s).spx = s.spx :=
  keep_eccSingleAs (P := Unchanged .spx s) (keeps_unchanged s .spx (by decide)) (stores_unchanged s .spx (by decide) (by decide)) _ _ rfl
@[simp] theorem eccSingleAs_syn (n : Nat) (injected : Bool) : (eccSingleAs n injected s).syn = s.syn :=
  keep_eccSingleAs (P := Unchanged .syn s) (keeps_unchanged s .syn (by decide)) (stores_unchanged s .syn (by decide) (by decide)) _ _ rfl
@[simp] theorem eccSingleAs_rtr (n : Nat) (injected : Bool) : (eccSingleAs n injected s).rtr = s.rtr :=
  keep_eccSingleAs (P := Unchanged .rtr s) (keeps_unchanged s .rtr (by decide)) (stores_unchanged s .rtr (by decide) (by decide)) _ _ rfl
@[simp] theorem eccSingleAs_lnk (n : Nat) (injected : Bool) : (eccSingleAs n injected s).lnk = s.lnk :=
  keep_eccSingleAs (P := Unchanged .lnk s) (keeps_unchanged s .lnk (by decide)) (stores_unchanged s .lnk (by decide) (by decide)) _ _ rfl
@[simp] theorem eccSingleAs_lsu (n : Nat) (injected : Bool) : (eccSingleAs n injected s).lsu = s.lsu :=
  keep_eccSingleAs (P := Unchanged .lsu s) (keeps_unchanged s .lsu (by decide)) (stores_unchanged s .lsu (by decide) (by decide)) _ _ rfl
@[simp] theorem eccSingleAs_rst (n : Nat) (injected : Bool) : (eccSingleAs n injected s).rst = s.rst :=
  keep_eccSingleAs (P := Unchanged .rst s) (keeps_unchanged s .rst (by decide)) (stores_unchanged s .rst (by decide) (by decide)) _ _ rfl
@[simp] theorem eccSingleAs_dbg (n : Nat) (injected : Bool) : (eccSingleAs n injected s).dbg = s.dbg :=
  keep_eccSingleAs (P := Unchanged .dbg s) (keeps_unchanged s .dbg (by decide)) (stores_unchanged s .dbg (by decide) (by decide)) _ _ rfl

@[simp] theorem eccSingle_ccc (n : Nat) : (eccSingle n s).ccc = s.ccc :=
  keep_eccSingle (P := Unchanged .ccc s) (keeps_unchanged s .ccc (by decide)) (stores_unchanged s .ccc (by decide) (by decide)) _ rfl
@[simp] theorem eccSingle_tick (n : Nat) : (eccSingle n s).tick = s.tick :=
  keep_eccSingle (P := Unchanged .tick s) (keeps_unchanged s .tick (by decide)) (stores_unchanged s .tick (by decide) (by decide)) _ rfl
@[simp] theorem eccSingle_free (n : Nat) : (eccSingle n s).free = s.free :=
  keep_eccSingle (P := Unchanged .free s) (keeps_unchanged s .free (by decide)) (stores_unchanged s .free (by decide) (by decide)) _ rfl
@[simp] theorem eccSingle_pending (n : Nat) : (eccSingle n s).pending = s.pending :=
  keep_eccSingle (P := Unchanged .pending s) (keeps_unchanged s .pending (by decide)) (stores_unchanged s .pending (by decide) (by decide)) _ rfl
@[simp] theorem eccSingle_heldLow (n : Nat) : (eccSingle n s).heldLow = s.heldLow :=
  keep_eccSingle (P := Unchanged .heldLow s) (keeps_unchanged s .heldLow (by decide)) (stores_unchanged s .heldLow (by decide) (by decide)) _ rfl
@[simp] theorem eccSingle_ctl (n : Nat) : (eccSingle n s).ctl = s.ctl :=
  keep_eccSingle (P := Unchanged .ctl s) (keeps_unchanged s .ctl (by decide)) (stores_unchanged s .ctl (by decide) (by decide)) _ rfl
@[simp] theorem eccSingle_que (n : Nat) : (eccSingle n s).que = s.que :=
  keep_eccSingle (P := Unchanged .que s) (keeps_unchanged s .que (by decide)) (stores_unchanged s .que (by decide) (by decide)) _ rfl
@[simp] theorem eccSingle_tiles (n : Nat) : (eccSingle n s).tiles = s.tiles :=
  keep_eccSingle (P := Unchanged .tiles s) (keeps_unchanged s .tiles (by decide)) (stores_unchanged s .tiles (by decide) (by decide)) _ rfl
@[simp] theorem eccSingle_tpl (n : Nat) : (eccSingle n s).tpl = s.tpl :=
  keep_eccSingle (P := Unchanged .tpl s) (keeps_unchanged s .tpl (by decide)) (stores_unchanged s .tpl (by decide) (by decide)) _ rfl
@[simp] theorem eccSingle_ses (n : Nat) : (eccSingle n s).ses = s.ses :=
  keep_eccSingle (P := Unchanged .ses s) (keeps_unchanged s .ses (by decide)) (stores_unchanged s .ses (by decide) (by decide)) _ rfl
@[simp] theorem eccSingle_trk (n : Nat) : (eccSingle n s).trk = s.trk :=
  keep_eccSingle (P := Unchanged .trk s) (keeps_unchanged s .trk (by decide)) (stores_unchanged s .trk (by decide) (by decide)) _ rfl
@[simp] theorem eccSingle_red (n : Nat) : (eccSingle n s).red = s.red :=
  keep_eccSingle (P := Unchanged .red s) (keeps_unchanged s .red (by decide)) (stores_unchanged s .red (by decide) (by decide)) _ rfl
@[simp] theorem eccSingle_fin (n : Nat) : (eccSingle n s).fin = s.fin :=
  keep_eccSingle (P := Unchanged .fin s) (keeps_unchanged s .fin (by decide)) (stores_unchanged s .fin (by decide) (by decide)) _ rfl
@[simp] theorem eccSingle_row (n : Nat) : (eccSingle n s).row = s.row :=
  keep_eccSingle (P := Unchanged .row s) (keeps_unchanged s .row (by decide)) (stores_unchanged s .row (by decide) (by decide)) _ rfl
@[simp] theorem eccSingle_gas (n : Nat) : (eccSingle n s).gas = s.gas :=
  keep_eccSingle (P := Unchanged .gas s) (keeps_unchanged s .gas (by decide)) (stores_unchanged s .gas (by decide) (by decide)) _ rfl
@[simp] theorem eccSingle_opt (n : Nat) : (eccSingle n s).opt = s.opt :=
  keep_eccSingle (P := Unchanged .opt s) (keeps_unchanged s .opt (by decide)) (stores_unchanged s .opt (by decide) (by decide)) _ rfl
@[simp] theorem eccSingle_spx (n : Nat) : (eccSingle n s).spx = s.spx :=
  keep_eccSingle (P := Unchanged .spx s) (keeps_unchanged s .spx (by decide)) (stores_unchanged s .spx (by decide) (by decide)) _ rfl
@[simp] theorem eccSingle_syn (n : Nat) : (eccSingle n s).syn = s.syn :=
  keep_eccSingle (P := Unchanged .syn s) (keeps_unchanged s .syn (by decide)) (stores_unchanged s .syn (by decide) (by decide)) _ rfl
@[simp] theorem eccSingle_rtr (n : Nat) : (eccSingle n s).rtr = s.rtr :=
  keep_eccSingle (P := Unchanged .rtr s) (keeps_unchanged s .rtr (by decide)) (stores_unchanged s .rtr (by decide) (by decide)) _ rfl
@[simp] theorem eccSingle_lnk (n : Nat) : (eccSingle n s).lnk = s.lnk :=
  keep_eccSingle (P := Unchanged .lnk s) (keeps_unchanged s .lnk (by decide)) (stores_unchanged s .lnk (by decide) (by decide)) _ rfl
@[simp] theorem eccSingle_lsu (n : Nat) : (eccSingle n s).lsu = s.lsu :=
  keep_eccSingle (P := Unchanged .lsu s) (keeps_unchanged s .lsu (by decide)) (stores_unchanged s .lsu (by decide) (by decide)) _ rfl
@[simp] theorem eccSingle_rst (n : Nat) : (eccSingle n s).rst = s.rst :=
  keep_eccSingle (P := Unchanged .rst s) (keeps_unchanged s .rst (by decide)) (stores_unchanged s .rst (by decide) (by decide)) _ rfl
@[simp] theorem eccSingle_dbg (n : Nat) : (eccSingle n s).dbg = s.dbg :=
  keep_eccSingle (P := Unchanged .dbg s) (keeps_unchanged s .dbg (by decide)) (stores_unchanged s .dbg (by decide) (by decide)) _ rfl

@[simp] theorem fireInject_ccc  : (fireInject s).ccc = s.ccc :=
  keep_fireInject (P := Unchanged .ccc s) (keeps_unchanged s .ccc (by decide))  rfl
@[simp] theorem fireInject_tick  : (fireInject s).tick = s.tick :=
  keep_fireInject (P := Unchanged .tick s) (keeps_unchanged s .tick (by decide))  rfl
@[simp] theorem fireInject_free  : (fireInject s).free = s.free :=
  keep_fireInject (P := Unchanged .free s) (keeps_unchanged s .free (by decide))  rfl
@[simp] theorem fireInject_pending  : (fireInject s).pending = s.pending :=
  keep_fireInject (P := Unchanged .pending s) (keeps_unchanged s .pending (by decide))  rfl
@[simp] theorem fireInject_heldLow  : (fireInject s).heldLow = s.heldLow :=
  keep_fireInject (P := Unchanged .heldLow s) (keeps_unchanged s .heldLow (by decide))  rfl
@[simp] theorem fireInject_mem  : (fireInject s).mem = s.mem :=
  keep_fireInject (P := Unchanged .mem s) (keeps_unchanged s .mem (by decide))  rfl
@[simp] theorem fireInject_emp  : (fireInject s).emp = s.emp :=
  keep_fireInject (P := Unchanged .emp s) (keeps_unchanged s .emp (by decide))  rfl
@[simp] theorem fireInject_ctl  : (fireInject s).ctl = s.ctl :=
  keep_fireInject (P := Unchanged .ctl s) (keeps_unchanged s .ctl (by decide))  rfl
@[simp] theorem fireInject_que  : (fireInject s).que = s.que :=
  keep_fireInject (P := Unchanged .que s) (keeps_unchanged s .que (by decide))  rfl
@[simp] theorem fireInject_tiles  : (fireInject s).tiles = s.tiles :=
  keep_fireInject (P := Unchanged .tiles s) (keeps_unchanged s .tiles (by decide))  rfl
@[simp] theorem fireInject_tpl  : (fireInject s).tpl = s.tpl :=
  keep_fireInject (P := Unchanged .tpl s) (keeps_unchanged s .tpl (by decide))  rfl
@[simp] theorem fireInject_ses  : (fireInject s).ses = s.ses :=
  keep_fireInject (P := Unchanged .ses s) (keeps_unchanged s .ses (by decide))  rfl
@[simp] theorem fireInject_trk  : (fireInject s).trk = s.trk :=
  keep_fireInject (P := Unchanged .trk s) (keeps_unchanged s .trk (by decide))  rfl
@[simp] theorem fireInject_red  : (fireInject s).red = s.red :=
  keep_fireInject (P := Unchanged .red s) (keeps_unchanged s .red (by decide))  rfl
@[simp] theorem fireInject_fin  : (fireInject s).fin = s.fin :=
  keep_fireInject (P := Unchanged .fin s) (keeps_unchanged s .fin (by decide))  rfl
@[simp] theorem fireInject_row  : (fireInject s).row = s.row :=
  keep_fireInject (P := Unchanged .row s) (keeps_unchanged s .row (by decide))  rfl
@[simp] theorem fireInject_gas  : (fireInject s).gas = s.gas :=
  keep_fireInject (P := Unchanged .gas s) (keeps_unchanged s .gas (by decide))  rfl
@[simp] theorem fireInject_opt  : (fireInject s).opt = s.opt :=
  keep_fireInject (P := Unchanged .opt s) (keeps_unchanged s .opt (by decide))  rfl
@[simp] theorem fireInject_spx  : (fireInject s).spx = s.spx :=
  keep_fireInject (P := Unchanged .spx s) (keeps_unchanged s .spx (by decide))  rfl
@[simp] theorem fireInject_syn  : (fireInject s).syn = s.syn :=
  keep_fireInject (P := Unchanged .syn s) (keeps_unchanged s .syn (by decide))  rfl
@[simp] theorem fireInject_rtr  : (fireInject s).rtr = s.rtr :=
  keep_fireInject (P := Unchanged .rtr s) (keeps_unchanged s .rtr (by decide))  rfl
@[simp] theorem fireInject_lnk  : (fireInject s).lnk = s.lnk :=
  keep_fireInject (P := Unchanged .lnk s) (keeps_unchanged s .lnk (by decide))  rfl
@[simp] theorem fireInject_lsu  : (fireInject s).lsu = s.lsu :=
  keep_fireInject (P := Unchanged .lsu s) (keeps_unchanged s .lsu (by decide))  rfl
@[simp] theorem fireInject_rru  : (fireInject s).rru = s.rru :=
  keep_fireInject (P := Unchanged .rru s) (keeps_unchanged s .rru (by decide))  rfl
@[simp] theorem fireInject_pwr  : (fireInject s).pwr = s.pwr :=
  keep_fireInject (P := Unchanged .pwr s) (keeps_unchanged s .pwr (by decide))  rfl
@[simp] theorem fireInject_rst  : (fireInject s).rst = s.rst :=
  keep_fireInject (P := Unchanged .rst s) (keeps_unchanged s .rst (by decide))  rfl
@[simp] theorem fireInject_dbg  : (fireInject s).dbg = s.dbg :=
  keep_fireInject (P := Unchanged .dbg s) (keeps_unchanged s .dbg (by decide))  rfl

@[simp] theorem statCode_ccc (port : Nat) (code : W16) (idx : BitVec 2) : (statCode port code idx s).ccc = s.ccc :=
  keep_statCode (P := Unchanged .ccc s) (keeps_unchanged s .ccc (by decide)) (stores_unchanged s .ccc (by decide) (by decide)) _ _ _ rfl
@[simp] theorem statCode_tick (port : Nat) (code : W16) (idx : BitVec 2) : (statCode port code idx s).tick = s.tick :=
  keep_statCode (P := Unchanged .tick s) (keeps_unchanged s .tick (by decide)) (stores_unchanged s .tick (by decide) (by decide)) _ _ _ rfl
@[simp] theorem statCode_free (port : Nat) (code : W16) (idx : BitVec 2) : (statCode port code idx s).free = s.free :=
  keep_statCode (P := Unchanged .free s) (keeps_unchanged s .free (by decide)) (stores_unchanged s .free (by decide) (by decide)) _ _ _ rfl
@[simp] theorem statCode_pending (port : Nat) (code : W16) (idx : BitVec 2) : (statCode port code idx s).pending = s.pending :=
  keep_statCode (P := Unchanged .pending s) (keeps_unchanged s .pending (by decide)) (stores_unchanged s .pending (by decide) (by decide)) _ _ _ rfl
@[simp] theorem statCode_heldLow (port : Nat) (code : W16) (idx : BitVec 2) : (statCode port code idx s).heldLow = s.heldLow :=
  keep_statCode (P := Unchanged .heldLow s) (keeps_unchanged s .heldLow (by decide)) (stores_unchanged s .heldLow (by decide) (by decide)) _ _ _ rfl
@[simp] theorem statCode_ctl (port : Nat) (code : W16) (idx : BitVec 2) : (statCode port code idx s).ctl = s.ctl :=
  keep_statCode (P := Unchanged .ctl s) (keeps_unchanged s .ctl (by decide)) (stores_unchanged s .ctl (by decide) (by decide)) _ _ _ rfl
@[simp] theorem statCode_que (port : Nat) (code : W16) (idx : BitVec 2) : (statCode port code idx s).que = s.que :=
  keep_statCode (P := Unchanged .que s) (keeps_unchanged s .que (by decide)) (stores_unchanged s .que (by decide) (by decide)) _ _ _ rfl
@[simp] theorem statCode_tpl (port : Nat) (code : W16) (idx : BitVec 2) : (statCode port code idx s).tpl = s.tpl :=
  keep_statCode (P := Unchanged .tpl s) (keeps_unchanged s .tpl (by decide)) (stores_unchanged s .tpl (by decide) (by decide)) _ _ _ rfl
@[simp] theorem statCode_ses (port : Nat) (code : W16) (idx : BitVec 2) : (statCode port code idx s).ses = s.ses :=
  keep_statCode (P := Unchanged .ses s) (keeps_unchanged s .ses (by decide)) (stores_unchanged s .ses (by decide) (by decide)) _ _ _ rfl
@[simp] theorem statCode_trk (port : Nat) (code : W16) (idx : BitVec 2) : (statCode port code idx s).trk = s.trk :=
  keep_statCode (P := Unchanged .trk s) (keeps_unchanged s .trk (by decide)) (stores_unchanged s .trk (by decide) (by decide)) _ _ _ rfl
@[simp] theorem statCode_red (port : Nat) (code : W16) (idx : BitVec 2) : (statCode port code idx s).red = s.red :=
  keep_statCode (P := Unchanged .red s) (keeps_unchanged s .red (by decide)) (stores_unchanged s .red (by decide) (by decide)) _ _ _ rfl
@[simp] theorem statCode_fin (port : Nat) (code : W16) (idx : BitVec 2) : (statCode port code idx s).fin = s.fin :=
  keep_statCode (P := Unchanged .fin s) (keeps_unchanged s .fin (by decide)) (stores_unchanged s .fin (by decide) (by decide)) _ _ _ rfl
@[simp] theorem statCode_row (port : Nat) (code : W16) (idx : BitVec 2) : (statCode port code idx s).row = s.row :=
  keep_statCode (P := Unchanged .row s) (keeps_unchanged s .row (by decide)) (stores_unchanged s .row (by decide) (by decide)) _ _ _ rfl
@[simp] theorem statCode_gas (port : Nat) (code : W16) (idx : BitVec 2) : (statCode port code idx s).gas = s.gas :=
  keep_statCode (P := Unchanged .gas s) (keeps_unchanged s .gas (by decide)) (stores_unchanged s .gas (by decide) (by decide)) _ _ _ rfl
@[simp] theorem statCode_opt (port : Nat) (code : W16) (idx : BitVec 2) : (statCode port code idx s).opt = s.opt :=
  keep_statCode (P := Unchanged .opt s) (keeps_unchanged s .opt (by decide)) (stores_unchanged s .opt (by decide) (by decide)) _ _ _ rfl
@[simp] theorem statCode_spx (port : Nat) (code : W16) (idx : BitVec 2) : (statCode port code idx s).spx = s.spx :=
  keep_statCode (P := Unchanged .spx s) (keeps_unchanged s .spx (by decide)) (stores_unchanged s .spx (by decide) (by decide)) _ _ _ rfl
@[simp] theorem statCode_syn (port : Nat) (code : W16) (idx : BitVec 2) : (statCode port code idx s).syn = s.syn :=
  keep_statCode (P := Unchanged .syn s) (keeps_unchanged s .syn (by decide)) (stores_unchanged s .syn (by decide) (by decide)) _ _ _ rfl
@[simp] theorem statCode_rtr (port : Nat) (code : W16) (idx : BitVec 2) : (statCode port code idx s).rtr = s.rtr :=
  keep_statCode (P := Unchanged .rtr s) (keeps_unchanged s .rtr (by decide)) (stores_unchanged s .rtr (by decide) (by decide)) _ _ _ rfl
@[simp] theorem statCode_lnk (port : Nat) (code : W16) (idx : BitVec 2) : (statCode port code idx s).lnk = s.lnk :=
  keep_statCode (P := Unchanged .lnk s) (keeps_unchanged s .lnk (by decide)) (stores_unchanged s .lnk (by decide) (by decide)) _ _ _ rfl
@[simp] theorem statCode_lsu (port : Nat) (code : W16) (idx : BitVec 2) : (statCode port code idx s).lsu = s.lsu :=
  keep_statCode (P := Unchanged .lsu s) (keeps_unchanged s .lsu (by decide)) (stores_unchanged s .lsu (by decide) (by decide)) _ _ _ rfl
@[simp] theorem statCode_flt (port : Nat) (code : W16) (idx : BitVec 2) : (statCode port code idx s).flt = s.flt :=
  keep_statCode (P := Unchanged .flt s) (keeps_unchanged s .flt (by decide)) (stores_unchanged s .flt (by decide) (by decide)) _ _ _ rfl
@[simp] theorem statCode_pwr (port : Nat) (code : W16) (idx : BitVec 2) : (statCode port code idx s).pwr = s.pwr :=
  keep_statCode (P := Unchanged .pwr s) (keeps_unchanged s .pwr (by decide)) (stores_unchanged s .pwr (by decide) (by decide)) _ _ _ rfl
@[simp] theorem statCode_rst (port : Nat) (code : W16) (idx : BitVec 2) : (statCode port code idx s).rst = s.rst :=
  keep_statCode (P := Unchanged .rst s) (keeps_unchanged s .rst (by decide)) (stores_unchanged s .rst (by decide) (by decide)) _ _ _ rfl
@[simp] theorem statCode_dbg (port : Nat) (code : W16) (idx : BitVec 2) : (statCode port code idx s).dbg = s.dbg :=
  keep_statCode (P := Unchanged .dbg s) (keeps_unchanged s .dbg (by decide)) (stores_unchanged s .dbg (by decide) (by decide)) _ _ _ rfl

end Sys2Proof.Laws
end

