-- ==== Sys2Proof/Laws/State.lean ====
section
/-! SUPPORT. Laws/State.lean: what each named update of the state does to each field, so that no proof unfolds a record
update. -/

namespace Sys2Proof.Laws

open Sys2Proof.Machine

variable (s : State)

@[simp] theorem mCtl_ccc (f : Ctl → Ctl) : (mCtl f s).ccc = s.ccc := rfl
@[simp] theorem mCtl_tick (f : Ctl → Ctl) : (mCtl f s).tick = s.tick := rfl
@[simp] theorem mCtl_free (f : Ctl → Ctl) : (mCtl f s).free = s.free := rfl
@[simp] theorem mCtl_pending (f : Ctl → Ctl) : (mCtl f s).pending = s.pending := rfl
@[simp] theorem mCtl_hdrs (f : Ctl → Ctl) : (mCtl f s).hdrs = s.hdrs := rfl
@[simp] theorem mCtl_heldLow (f : Ctl → Ctl) : (mCtl f s).heldLow = s.heldLow := rfl
@[simp] theorem mCtl_msix (f : Ctl → Ctl) : (mCtl f s).msix = s.msix := rfl
@[simp] theorem mCtl_mem (f : Ctl → Ctl) : (mCtl f s).mem = s.mem := rfl
@[simp] theorem mCtl_emp (f : Ctl → Ctl) : (mCtl f s).emp = s.emp := rfl
@[simp] theorem mCtl_ctl (f : Ctl → Ctl) : (mCtl f s).ctl = f s.ctl := rfl
@[simp] theorem mCtl_que (f : Ctl → Ctl) : (mCtl f s).que = s.que := rfl
@[simp] theorem mCtl_tiles (f : Ctl → Ctl) : (mCtl f s).tiles = s.tiles := rfl
@[simp] theorem mCtl_tpl (f : Ctl → Ctl) : (mCtl f s).tpl = s.tpl := rfl
@[simp] theorem mCtl_ses (f : Ctl → Ctl) : (mCtl f s).ses = s.ses := rfl
@[simp] theorem mCtl_trk (f : Ctl → Ctl) : (mCtl f s).trk = s.trk := rfl
@[simp] theorem mCtl_red (f : Ctl → Ctl) : (mCtl f s).red = s.red := rfl
@[simp] theorem mCtl_fin (f : Ctl → Ctl) : (mCtl f s).fin = s.fin := rfl
@[simp] theorem mCtl_row (f : Ctl → Ctl) : (mCtl f s).row = s.row := rfl
@[simp] theorem mCtl_gas (f : Ctl → Ctl) : (mCtl f s).gas = s.gas := rfl
@[simp] theorem mCtl_opt (f : Ctl → Ctl) : (mCtl f s).opt = s.opt := rfl
@[simp] theorem mCtl_spx (f : Ctl → Ctl) : (mCtl f s).spx = s.spx := rfl
@[simp] theorem mCtl_syn (f : Ctl → Ctl) : (mCtl f s).syn = s.syn := rfl
@[simp] theorem mCtl_rtr (f : Ctl → Ctl) : (mCtl f s).rtr = s.rtr := rfl
@[simp] theorem mCtl_lnk (f : Ctl → Ctl) : (mCtl f s).lnk = s.lnk := rfl
@[simp] theorem mCtl_lsu (f : Ctl → Ctl) : (mCtl f s).lsu = s.lsu := rfl
@[simp] theorem mCtl_rru (f : Ctl → Ctl) : (mCtl f s).rru = s.rru := rfl
@[simp] theorem mCtl_flt (f : Ctl → Ctl) : (mCtl f s).flt = s.flt := rfl
@[simp] theorem mCtl_pwr (f : Ctl → Ctl) : (mCtl f s).pwr = s.pwr := rfl
@[simp] theorem mCtl_rst (f : Ctl → Ctl) : (mCtl f s).rst = s.rst := rfl
@[simp] theorem mCtl_dbg (f : Ctl → Ctl) : (mCtl f s).dbg = s.dbg := rfl

@[simp] theorem mQue_ccc (f : Que → Que) : (mQue f s).ccc = s.ccc := rfl
@[simp] theorem mQue_tick (f : Que → Que) : (mQue f s).tick = s.tick := rfl
@[simp] theorem mQue_free (f : Que → Que) : (mQue f s).free = s.free := rfl
@[simp] theorem mQue_pending (f : Que → Que) : (mQue f s).pending = s.pending := rfl
@[simp] theorem mQue_hdrs (f : Que → Que) : (mQue f s).hdrs = s.hdrs := rfl
@[simp] theorem mQue_heldLow (f : Que → Que) : (mQue f s).heldLow = s.heldLow := rfl
@[simp] theorem mQue_msix (f : Que → Que) : (mQue f s).msix = s.msix := rfl
@[simp] theorem mQue_mem (f : Que → Que) : (mQue f s).mem = s.mem := rfl
@[simp] theorem mQue_emp (f : Que → Que) : (mQue f s).emp = s.emp := rfl
@[simp] theorem mQue_ctl (f : Que → Que) : (mQue f s).ctl = s.ctl := rfl
@[simp] theorem mQue_que (f : Que → Que) : (mQue f s).que = f s.que := rfl
@[simp] theorem mQue_tiles (f : Que → Que) : (mQue f s).tiles = s.tiles := rfl
@[simp] theorem mQue_tpl (f : Que → Que) : (mQue f s).tpl = s.tpl := rfl
@[simp] theorem mQue_ses (f : Que → Que) : (mQue f s).ses = s.ses := rfl
@[simp] theorem mQue_trk (f : Que → Que) : (mQue f s).trk = s.trk := rfl
@[simp] theorem mQue_red (f : Que → Que) : (mQue f s).red = s.red := rfl
@[simp] theorem mQue_fin (f : Que → Que) : (mQue f s).fin = s.fin := rfl
@[simp] theorem mQue_row (f : Que → Que) : (mQue f s).row = s.row := rfl
@[simp] theorem mQue_gas (f : Que → Que) : (mQue f s).gas = s.gas := rfl
@[simp] theorem mQue_opt (f : Que → Que) : (mQue f s).opt = s.opt := rfl
@[simp] theorem mQue_spx (f : Que → Que) : (mQue f s).spx = s.spx := rfl
@[simp] theorem mQue_syn (f : Que → Que) : (mQue f s).syn = s.syn := rfl
@[simp] theorem mQue_rtr (f : Que → Que) : (mQue f s).rtr = s.rtr := rfl
@[simp] theorem mQue_lnk (f : Que → Que) : (mQue f s).lnk = s.lnk := rfl
@[simp] theorem mQue_lsu (f : Que → Que) : (mQue f s).lsu = s.lsu := rfl
@[simp] theorem mQue_rru (f : Que → Que) : (mQue f s).rru = s.rru := rfl
@[simp] theorem mQue_flt (f : Que → Que) : (mQue f s).flt = s.flt := rfl
@[simp] theorem mQue_pwr (f : Que → Que) : (mQue f s).pwr = s.pwr := rfl
@[simp] theorem mQue_rst (f : Que → Que) : (mQue f s).rst = s.rst := rfl
@[simp] theorem mQue_dbg (f : Que → Que) : (mQue f s).dbg = s.dbg := rfl

@[simp] theorem mSes_ccc (f : Ses → Ses) : (mSes f s).ccc = s.ccc := rfl
@[simp] theorem mSes_tick (f : Ses → Ses) : (mSes f s).tick = s.tick := rfl
@[simp] theorem mSes_free (f : Ses → Ses) : (mSes f s).free = s.free := rfl
@[simp] theorem mSes_pending (f : Ses → Ses) : (mSes f s).pending = s.pending := rfl
@[simp] theorem mSes_hdrs (f : Ses → Ses) : (mSes f s).hdrs = s.hdrs := rfl
@[simp] theorem mSes_heldLow (f : Ses → Ses) : (mSes f s).heldLow = s.heldLow := rfl
@[simp] theorem mSes_msix (f : Ses → Ses) : (mSes f s).msix = s.msix := rfl
@[simp] theorem mSes_mem (f : Ses → Ses) : (mSes f s).mem = s.mem := rfl
@[simp] theorem mSes_emp (f : Ses → Ses) : (mSes f s).emp = s.emp := rfl
@[simp] theorem mSes_ctl (f : Ses → Ses) : (mSes f s).ctl = s.ctl := rfl
@[simp] theorem mSes_que (f : Ses → Ses) : (mSes f s).que = s.que := rfl
@[simp] theorem mSes_tiles (f : Ses → Ses) : (mSes f s).tiles = s.tiles := rfl
@[simp] theorem mSes_tpl (f : Ses → Ses) : (mSes f s).tpl = s.tpl := rfl
@[simp] theorem mSes_ses (f : Ses → Ses) : (mSes f s).ses = f s.ses := rfl
@[simp] theorem mSes_trk (f : Ses → Ses) : (mSes f s).trk = s.trk := rfl
@[simp] theorem mSes_red (f : Ses → Ses) : (mSes f s).red = s.red := rfl
@[simp] theorem mSes_fin (f : Ses → Ses) : (mSes f s).fin = s.fin := rfl
@[simp] theorem mSes_row (f : Ses → Ses) : (mSes f s).row = s.row := rfl
@[simp] theorem mSes_gas (f : Ses → Ses) : (mSes f s).gas = s.gas := rfl
@[simp] theorem mSes_opt (f : Ses → Ses) : (mSes f s).opt = s.opt := rfl
@[simp] theorem mSes_spx (f : Ses → Ses) : (mSes f s).spx = s.spx := rfl
@[simp] theorem mSes_syn (f : Ses → Ses) : (mSes f s).syn = s.syn := rfl
@[simp] theorem mSes_rtr (f : Ses → Ses) : (mSes f s).rtr = s.rtr := rfl
@[simp] theorem mSes_lnk (f : Ses → Ses) : (mSes f s).lnk = s.lnk := rfl
@[simp] theorem mSes_lsu (f : Ses → Ses) : (mSes f s).lsu = s.lsu := rfl
@[simp] theorem mSes_rru (f : Ses → Ses) : (mSes f s).rru = s.rru := rfl
@[simp] theorem mSes_flt (f : Ses → Ses) : (mSes f s).flt = s.flt := rfl
@[simp] theorem mSes_pwr (f : Ses → Ses) : (mSes f s).pwr = s.pwr := rfl
@[simp] theorem mSes_rst (f : Ses → Ses) : (mSes f s).rst = s.rst := rfl
@[simp] theorem mSes_dbg (f : Ses → Ses) : (mSes f s).dbg = s.dbg := rfl

@[simp] theorem mTrk_ccc (f : Trk → Trk) : (mTrk f s).ccc = s.ccc := rfl
@[simp] theorem mTrk_tick (f : Trk → Trk) : (mTrk f s).tick = s.tick := rfl
@[simp] theorem mTrk_free (f : Trk → Trk) : (mTrk f s).free = s.free := rfl
@[simp] theorem mTrk_pending (f : Trk → Trk) : (mTrk f s).pending = s.pending := rfl
@[simp] theorem mTrk_hdrs (f : Trk → Trk) : (mTrk f s).hdrs = s.hdrs := rfl
@[simp] theorem mTrk_heldLow (f : Trk → Trk) : (mTrk f s).heldLow = s.heldLow := rfl
@[simp] theorem mTrk_msix (f : Trk → Trk) : (mTrk f s).msix = s.msix := rfl
@[simp] theorem mTrk_mem (f : Trk → Trk) : (mTrk f s).mem = s.mem := rfl
@[simp] theorem mTrk_emp (f : Trk → Trk) : (mTrk f s).emp = s.emp := rfl
@[simp] theorem mTrk_ctl (f : Trk → Trk) : (mTrk f s).ctl = s.ctl := rfl
@[simp] theorem mTrk_que (f : Trk → Trk) : (mTrk f s).que = s.que := rfl
@[simp] theorem mTrk_tiles (f : Trk → Trk) : (mTrk f s).tiles = s.tiles := rfl
@[simp] theorem mTrk_tpl (f : Trk → Trk) : (mTrk f s).tpl = s.tpl := rfl
@[simp] theorem mTrk_ses (f : Trk → Trk) : (mTrk f s).ses = s.ses := rfl
@[simp] theorem mTrk_trk (f : Trk → Trk) : (mTrk f s).trk = f s.trk := rfl
@[simp] theorem mTrk_red (f : Trk → Trk) : (mTrk f s).red = s.red := rfl
@[simp] theorem mTrk_fin (f : Trk → Trk) : (mTrk f s).fin = s.fin := rfl
@[simp] theorem mTrk_row (f : Trk → Trk) : (mTrk f s).row = s.row := rfl
@[simp] theorem mTrk_gas (f : Trk → Trk) : (mTrk f s).gas = s.gas := rfl
@[simp] theorem mTrk_opt (f : Trk → Trk) : (mTrk f s).opt = s.opt := rfl
@[simp] theorem mTrk_spx (f : Trk → Trk) : (mTrk f s).spx = s.spx := rfl
@[simp] theorem mTrk_syn (f : Trk → Trk) : (mTrk f s).syn = s.syn := rfl
@[simp] theorem mTrk_rtr (f : Trk → Trk) : (mTrk f s).rtr = s.rtr := rfl
@[simp] theorem mTrk_lnk (f : Trk → Trk) : (mTrk f s).lnk = s.lnk := rfl
@[simp] theorem mTrk_lsu (f : Trk → Trk) : (mTrk f s).lsu = s.lsu := rfl
@[simp] theorem mTrk_rru (f : Trk → Trk) : (mTrk f s).rru = s.rru := rfl
@[simp] theorem mTrk_flt (f : Trk → Trk) : (mTrk f s).flt = s.flt := rfl
@[simp] theorem mTrk_pwr (f : Trk → Trk) : (mTrk f s).pwr = s.pwr := rfl
@[simp] theorem mTrk_rst (f : Trk → Trk) : (mTrk f s).rst = s.rst := rfl
@[simp] theorem mTrk_dbg (f : Trk → Trk) : (mTrk f s).dbg = s.dbg := rfl

@[simp] theorem mRed_ccc (f : Red → Red) : (mRed f s).ccc = s.ccc := rfl
@[simp] theorem mRed_tick (f : Red → Red) : (mRed f s).tick = s.tick := rfl
@[simp] theorem mRed_free (f : Red → Red) : (mRed f s).free = s.free := rfl
@[simp] theorem mRed_pending (f : Red → Red) : (mRed f s).pending = s.pending := rfl
@[simp] theorem mRed_hdrs (f : Red → Red) : (mRed f s).hdrs = s.hdrs := rfl
@[simp] theorem mRed_heldLow (f : Red → Red) : (mRed f s).heldLow = s.heldLow := rfl
@[simp] theorem mRed_msix (f : Red → Red) : (mRed f s).msix = s.msix := rfl
@[simp] theorem mRed_mem (f : Red → Red) : (mRed f s).mem = s.mem := rfl
@[simp] theorem mRed_emp (f : Red → Red) : (mRed f s).emp = s.emp := rfl
@[simp] theorem mRed_ctl (f : Red → Red) : (mRed f s).ctl = s.ctl := rfl
@[simp] theorem mRed_que (f : Red → Red) : (mRed f s).que = s.que := rfl
@[simp] theorem mRed_tiles (f : Red → Red) : (mRed f s).tiles = s.tiles := rfl
@[simp] theorem mRed_tpl (f : Red → Red) : (mRed f s).tpl = s.tpl := rfl
@[simp] theorem mRed_ses (f : Red → Red) : (mRed f s).ses = s.ses := rfl
@[simp] theorem mRed_trk (f : Red → Red) : (mRed f s).trk = s.trk := rfl
@[simp] theorem mRed_red (f : Red → Red) : (mRed f s).red = f s.red := rfl
@[simp] theorem mRed_fin (f : Red → Red) : (mRed f s).fin = s.fin := rfl
@[simp] theorem mRed_row (f : Red → Red) : (mRed f s).row = s.row := rfl
@[simp] theorem mRed_gas (f : Red → Red) : (mRed f s).gas = s.gas := rfl
@[simp] theorem mRed_opt (f : Red → Red) : (mRed f s).opt = s.opt := rfl
@[simp] theorem mRed_spx (f : Red → Red) : (mRed f s).spx = s.spx := rfl
@[simp] theorem mRed_syn (f : Red → Red) : (mRed f s).syn = s.syn := rfl
@[simp] theorem mRed_rtr (f : Red → Red) : (mRed f s).rtr = s.rtr := rfl
@[simp] theorem mRed_lnk (f : Red → Red) : (mRed f s).lnk = s.lnk := rfl
@[simp] theorem mRed_lsu (f : Red → Red) : (mRed f s).lsu = s.lsu := rfl
@[simp] theorem mRed_rru (f : Red → Red) : (mRed f s).rru = s.rru := rfl
@[simp] theorem mRed_flt (f : Red → Red) : (mRed f s).flt = s.flt := rfl
@[simp] theorem mRed_pwr (f : Red → Red) : (mRed f s).pwr = s.pwr := rfl
@[simp] theorem mRed_rst (f : Red → Red) : (mRed f s).rst = s.rst := rfl
@[simp] theorem mRed_dbg (f : Red → Red) : (mRed f s).dbg = s.dbg := rfl

@[simp] theorem mFin_ccc (f : Fin' → Fin') : (mFin f s).ccc = s.ccc := rfl
@[simp] theorem mFin_tick (f : Fin' → Fin') : (mFin f s).tick = s.tick := rfl
@[simp] theorem mFin_free (f : Fin' → Fin') : (mFin f s).free = s.free := rfl
@[simp] theorem mFin_pending (f : Fin' → Fin') : (mFin f s).pending = s.pending := rfl
@[simp] theorem mFin_hdrs (f : Fin' → Fin') : (mFin f s).hdrs = s.hdrs := rfl
@[simp] theorem mFin_heldLow (f : Fin' → Fin') : (mFin f s).heldLow = s.heldLow := rfl
@[simp] theorem mFin_msix (f : Fin' → Fin') : (mFin f s).msix = s.msix := rfl
@[simp] theorem mFin_mem (f : Fin' → Fin') : (mFin f s).mem = s.mem := rfl
@[simp] theorem mFin_emp (f : Fin' → Fin') : (mFin f s).emp = s.emp := rfl
@[simp] theorem mFin_ctl (f : Fin' → Fin') : (mFin f s).ctl = s.ctl := rfl
@[simp] theorem mFin_que (f : Fin' → Fin') : (mFin f s).que = s.que := rfl
@[simp] theorem mFin_tiles (f : Fin' → Fin') : (mFin f s).tiles = s.tiles := rfl
@[simp] theorem mFin_tpl (f : Fin' → Fin') : (mFin f s).tpl = s.tpl := rfl
@[simp] theorem mFin_ses (f : Fin' → Fin') : (mFin f s).ses = s.ses := rfl
@[simp] theorem mFin_trk (f : Fin' → Fin') : (mFin f s).trk = s.trk := rfl
@[simp] theorem mFin_red (f : Fin' → Fin') : (mFin f s).red = s.red := rfl
@[simp] theorem mFin_fin (f : Fin' → Fin') : (mFin f s).fin = f s.fin := rfl
@[simp] theorem mFin_row (f : Fin' → Fin') : (mFin f s).row = s.row := rfl
@[simp] theorem mFin_gas (f : Fin' → Fin') : (mFin f s).gas = s.gas := rfl
@[simp] theorem mFin_opt (f : Fin' → Fin') : (mFin f s).opt = s.opt := rfl
@[simp] theorem mFin_spx (f : Fin' → Fin') : (mFin f s).spx = s.spx := rfl
@[simp] theorem mFin_syn (f : Fin' → Fin') : (mFin f s).syn = s.syn := rfl
@[simp] theorem mFin_rtr (f : Fin' → Fin') : (mFin f s).rtr = s.rtr := rfl
@[simp] theorem mFin_lnk (f : Fin' → Fin') : (mFin f s).lnk = s.lnk := rfl
@[simp] theorem mFin_lsu (f : Fin' → Fin') : (mFin f s).lsu = s.lsu := rfl
@[simp] theorem mFin_rru (f : Fin' → Fin') : (mFin f s).rru = s.rru := rfl
@[simp] theorem mFin_flt (f : Fin' → Fin') : (mFin f s).flt = s.flt := rfl
@[simp] theorem mFin_pwr (f : Fin' → Fin') : (mFin f s).pwr = s.pwr := rfl
@[simp] theorem mFin_rst (f : Fin' → Fin') : (mFin f s).rst = s.rst := rfl
@[simp] theorem mFin_dbg (f : Fin' → Fin') : (mFin f s).dbg = s.dbg := rfl

@[simp] theorem mRow_ccc (f : Row → Row) : (mRow f s).ccc = s.ccc := rfl
@[simp] theorem mRow_tick (f : Row → Row) : (mRow f s).tick = s.tick := rfl
@[simp] theorem mRow_free (f : Row → Row) : (mRow f s).free = s.free := rfl
@[simp] theorem mRow_pending (f : Row → Row) : (mRow f s).pending = s.pending := rfl
@[simp] theorem mRow_hdrs (f : Row → Row) : (mRow f s).hdrs = s.hdrs := rfl
@[simp] theorem mRow_heldLow (f : Row → Row) : (mRow f s).heldLow = s.heldLow := rfl
@[simp] theorem mRow_msix (f : Row → Row) : (mRow f s).msix = s.msix := rfl
@[simp] theorem mRow_mem (f : Row → Row) : (mRow f s).mem = s.mem := rfl
@[simp] theorem mRow_emp (f : Row → Row) : (mRow f s).emp = s.emp := rfl
@[simp] theorem mRow_ctl (f : Row → Row) : (mRow f s).ctl = s.ctl := rfl
@[simp] theorem mRow_que (f : Row → Row) : (mRow f s).que = s.que := rfl
@[simp] theorem mRow_tiles (f : Row → Row) : (mRow f s).tiles = s.tiles := rfl
@[simp] theorem mRow_tpl (f : Row → Row) : (mRow f s).tpl = s.tpl := rfl
@[simp] theorem mRow_ses (f : Row → Row) : (mRow f s).ses = s.ses := rfl
@[simp] theorem mRow_trk (f : Row → Row) : (mRow f s).trk = s.trk := rfl
@[simp] theorem mRow_red (f : Row → Row) : (mRow f s).red = s.red := rfl
@[simp] theorem mRow_fin (f : Row → Row) : (mRow f s).fin = s.fin := rfl
@[simp] theorem mRow_row (f : Row → Row) : (mRow f s).row = f s.row := rfl
@[simp] theorem mRow_gas (f : Row → Row) : (mRow f s).gas = s.gas := rfl
@[simp] theorem mRow_opt (f : Row → Row) : (mRow f s).opt = s.opt := rfl
@[simp] theorem mRow_spx (f : Row → Row) : (mRow f s).spx = s.spx := rfl
@[simp] theorem mRow_syn (f : Row → Row) : (mRow f s).syn = s.syn := rfl
@[simp] theorem mRow_rtr (f : Row → Row) : (mRow f s).rtr = s.rtr := rfl
@[simp] theorem mRow_lnk (f : Row → Row) : (mRow f s).lnk = s.lnk := rfl
@[simp] theorem mRow_lsu (f : Row → Row) : (mRow f s).lsu = s.lsu := rfl
@[simp] theorem mRow_rru (f : Row → Row) : (mRow f s).rru = s.rru := rfl
@[simp] theorem mRow_flt (f : Row → Row) : (mRow f s).flt = s.flt := rfl
@[simp] theorem mRow_pwr (f : Row → Row) : (mRow f s).pwr = s.pwr := rfl
@[simp] theorem mRow_rst (f : Row → Row) : (mRow f s).rst = s.rst := rfl
@[simp] theorem mRow_dbg (f : Row → Row) : (mRow f s).dbg = s.dbg := rfl

@[simp] theorem mGas_ccc (f : Gas → Gas) : (mGas f s).ccc = s.ccc := rfl
@[simp] theorem mGas_tick (f : Gas → Gas) : (mGas f s).tick = s.tick := rfl
@[simp] theorem mGas_free (f : Gas → Gas) : (mGas f s).free = s.free := rfl
@[simp] theorem mGas_pending (f : Gas → Gas) : (mGas f s).pending = s.pending := rfl
@[simp] theorem mGas_hdrs (f : Gas → Gas) : (mGas f s).hdrs = s.hdrs := rfl
@[simp] theorem mGas_heldLow (f : Gas → Gas) : (mGas f s).heldLow = s.heldLow := rfl
@[simp] theorem mGas_msix (f : Gas → Gas) : (mGas f s).msix = s.msix := rfl
@[simp] theorem mGas_mem (f : Gas → Gas) : (mGas f s).mem = s.mem := rfl
@[simp] theorem mGas_emp (f : Gas → Gas) : (mGas f s).emp = s.emp := rfl
@[simp] theorem mGas_ctl (f : Gas → Gas) : (mGas f s).ctl = s.ctl := rfl
@[simp] theorem mGas_que (f : Gas → Gas) : (mGas f s).que = s.que := rfl
@[simp] theorem mGas_tiles (f : Gas → Gas) : (mGas f s).tiles = s.tiles := rfl
@[simp] theorem mGas_tpl (f : Gas → Gas) : (mGas f s).tpl = s.tpl := rfl
@[simp] theorem mGas_ses (f : Gas → Gas) : (mGas f s).ses = s.ses := rfl
@[simp] theorem mGas_trk (f : Gas → Gas) : (mGas f s).trk = s.trk := rfl
@[simp] theorem mGas_red (f : Gas → Gas) : (mGas f s).red = s.red := rfl
@[simp] theorem mGas_fin (f : Gas → Gas) : (mGas f s).fin = s.fin := rfl
@[simp] theorem mGas_row (f : Gas → Gas) : (mGas f s).row = s.row := rfl
@[simp] theorem mGas_gas (f : Gas → Gas) : (mGas f s).gas = f s.gas := rfl
@[simp] theorem mGas_opt (f : Gas → Gas) : (mGas f s).opt = s.opt := rfl
@[simp] theorem mGas_spx (f : Gas → Gas) : (mGas f s).spx = s.spx := rfl
@[simp] theorem mGas_syn (f : Gas → Gas) : (mGas f s).syn = s.syn := rfl
@[simp] theorem mGas_rtr (f : Gas → Gas) : (mGas f s).rtr = s.rtr := rfl
@[simp] theorem mGas_lnk (f : Gas → Gas) : (mGas f s).lnk = s.lnk := rfl
@[simp] theorem mGas_lsu (f : Gas → Gas) : (mGas f s).lsu = s.lsu := rfl
@[simp] theorem mGas_rru (f : Gas → Gas) : (mGas f s).rru = s.rru := rfl
@[simp] theorem mGas_flt (f : Gas → Gas) : (mGas f s).flt = s.flt := rfl
@[simp] theorem mGas_pwr (f : Gas → Gas) : (mGas f s).pwr = s.pwr := rfl
@[simp] theorem mGas_rst (f : Gas → Gas) : (mGas f s).rst = s.rst := rfl
@[simp] theorem mGas_dbg (f : Gas → Gas) : (mGas f s).dbg = s.dbg := rfl

@[simp] theorem mOpt_ccc (f : Opt → Opt) : (mOpt f s).ccc = s.ccc := rfl
@[simp] theorem mOpt_tick (f : Opt → Opt) : (mOpt f s).tick = s.tick := rfl
@[simp] theorem mOpt_free (f : Opt → Opt) : (mOpt f s).free = s.free := rfl
@[simp] theorem mOpt_pending (f : Opt → Opt) : (mOpt f s).pending = s.pending := rfl
@[simp] theorem mOpt_hdrs (f : Opt → Opt) : (mOpt f s).hdrs = s.hdrs := rfl
@[simp] theorem mOpt_heldLow (f : Opt → Opt) : (mOpt f s).heldLow = s.heldLow := rfl
@[simp] theorem mOpt_msix (f : Opt → Opt) : (mOpt f s).msix = s.msix := rfl
@[simp] theorem mOpt_mem (f : Opt → Opt) : (mOpt f s).mem = s.mem := rfl
@[simp] theorem mOpt_emp (f : Opt → Opt) : (mOpt f s).emp = s.emp := rfl
@[simp] theorem mOpt_ctl (f : Opt → Opt) : (mOpt f s).ctl = s.ctl := rfl
@[simp] theorem mOpt_que (f : Opt → Opt) : (mOpt f s).que = s.que := rfl
@[simp] theorem mOpt_tiles (f : Opt → Opt) : (mOpt f s).tiles = s.tiles := rfl
@[simp] theorem mOpt_tpl (f : Opt → Opt) : (mOpt f s).tpl = s.tpl := rfl
@[simp] theorem mOpt_ses (f : Opt → Opt) : (mOpt f s).ses = s.ses := rfl
@[simp] theorem mOpt_trk (f : Opt → Opt) : (mOpt f s).trk = s.trk := rfl
@[simp] theorem mOpt_red (f : Opt → Opt) : (mOpt f s).red = s.red := rfl
@[simp] theorem mOpt_fin (f : Opt → Opt) : (mOpt f s).fin = s.fin := rfl
@[simp] theorem mOpt_row (f : Opt → Opt) : (mOpt f s).row = s.row := rfl
@[simp] theorem mOpt_gas (f : Opt → Opt) : (mOpt f s).gas = s.gas := rfl
@[simp] theorem mOpt_opt (f : Opt → Opt) : (mOpt f s).opt = f s.opt := rfl
@[simp] theorem mOpt_spx (f : Opt → Opt) : (mOpt f s).spx = s.spx := rfl
@[simp] theorem mOpt_syn (f : Opt → Opt) : (mOpt f s).syn = s.syn := rfl
@[simp] theorem mOpt_rtr (f : Opt → Opt) : (mOpt f s).rtr = s.rtr := rfl
@[simp] theorem mOpt_lnk (f : Opt → Opt) : (mOpt f s).lnk = s.lnk := rfl
@[simp] theorem mOpt_lsu (f : Opt → Opt) : (mOpt f s).lsu = s.lsu := rfl
@[simp] theorem mOpt_rru (f : Opt → Opt) : (mOpt f s).rru = s.rru := rfl
@[simp] theorem mOpt_flt (f : Opt → Opt) : (mOpt f s).flt = s.flt := rfl
@[simp] theorem mOpt_pwr (f : Opt → Opt) : (mOpt f s).pwr = s.pwr := rfl
@[simp] theorem mOpt_rst (f : Opt → Opt) : (mOpt f s).rst = s.rst := rfl
@[simp] theorem mOpt_dbg (f : Opt → Opt) : (mOpt f s).dbg = s.dbg := rfl

@[simp] theorem mSpx_ccc (f : Spx → Spx) : (mSpx f s).ccc = s.ccc := rfl
@[simp] theorem mSpx_tick (f : Spx → Spx) : (mSpx f s).tick = s.tick := rfl
@[simp] theorem mSpx_free (f : Spx → Spx) : (mSpx f s).free = s.free := rfl
@[simp] theorem mSpx_pending (f : Spx → Spx) : (mSpx f s).pending = s.pending := rfl
@[simp] theorem mSpx_hdrs (f : Spx → Spx) : (mSpx f s).hdrs = s.hdrs := rfl
@[simp] theorem mSpx_heldLow (f : Spx → Spx) : (mSpx f s).heldLow = s.heldLow := rfl
@[simp] theorem mSpx_msix (f : Spx → Spx) : (mSpx f s).msix = s.msix := rfl
@[simp] theorem mSpx_mem (f : Spx → Spx) : (mSpx f s).mem = s.mem := rfl
@[simp] theorem mSpx_emp (f : Spx → Spx) : (mSpx f s).emp = s.emp := rfl
@[simp] theorem mSpx_ctl (f : Spx → Spx) : (mSpx f s).ctl = s.ctl := rfl
@[simp] theorem mSpx_que (f : Spx → Spx) : (mSpx f s).que = s.que := rfl
@[simp] theorem mSpx_tiles (f : Spx → Spx) : (mSpx f s).tiles = s.tiles := rfl
@[simp] theorem mSpx_tpl (f : Spx → Spx) : (mSpx f s).tpl = s.tpl := rfl
@[simp] theorem mSpx_ses (f : Spx → Spx) : (mSpx f s).ses = s.ses := rfl
@[simp] theorem mSpx_trk (f : Spx → Spx) : (mSpx f s).trk = s.trk := rfl
@[simp] theorem mSpx_red (f : Spx → Spx) : (mSpx f s).red = s.red := rfl
@[simp] theorem mSpx_fin (f : Spx → Spx) : (mSpx f s).fin = s.fin := rfl
@[simp] theorem mSpx_row (f : Spx → Spx) : (mSpx f s).row = s.row := rfl
@[simp] theorem mSpx_gas (f : Spx → Spx) : (mSpx f s).gas = s.gas := rfl
@[simp] theorem mSpx_opt (f : Spx → Spx) : (mSpx f s).opt = s.opt := rfl
@[simp] theorem mSpx_spx (f : Spx → Spx) : (mSpx f s).spx = f s.spx := rfl
@[simp] theorem mSpx_syn (f : Spx → Spx) : (mSpx f s).syn = s.syn := rfl
@[simp] theorem mSpx_rtr (f : Spx → Spx) : (mSpx f s).rtr = s.rtr := rfl
@[simp] theorem mSpx_lnk (f : Spx → Spx) : (mSpx f s).lnk = s.lnk := rfl
@[simp] theorem mSpx_lsu (f : Spx → Spx) : (mSpx f s).lsu = s.lsu := rfl
@[simp] theorem mSpx_rru (f : Spx → Spx) : (mSpx f s).rru = s.rru := rfl
@[simp] theorem mSpx_flt (f : Spx → Spx) : (mSpx f s).flt = s.flt := rfl
@[simp] theorem mSpx_pwr (f : Spx → Spx) : (mSpx f s).pwr = s.pwr := rfl
@[simp] theorem mSpx_rst (f : Spx → Spx) : (mSpx f s).rst = s.rst := rfl
@[simp] theorem mSpx_dbg (f : Spx → Spx) : (mSpx f s).dbg = s.dbg := rfl

@[simp] theorem mSyn_ccc (f : Syn → Syn) : (mSyn f s).ccc = s.ccc := rfl
@[simp] theorem mSyn_tick (f : Syn → Syn) : (mSyn f s).tick = s.tick := rfl
@[simp] theorem mSyn_free (f : Syn → Syn) : (mSyn f s).free = s.free := rfl
@[simp] theorem mSyn_pending (f : Syn → Syn) : (mSyn f s).pending = s.pending := rfl
@[simp] theorem mSyn_hdrs (f : Syn → Syn) : (mSyn f s).hdrs = s.hdrs := rfl
@[simp] theorem mSyn_heldLow (f : Syn → Syn) : (mSyn f s).heldLow = s.heldLow := rfl
@[simp] theorem mSyn_msix (f : Syn → Syn) : (mSyn f s).msix = s.msix := rfl
@[simp] theorem mSyn_mem (f : Syn → Syn) : (mSyn f s).mem = s.mem := rfl
@[simp] theorem mSyn_emp (f : Syn → Syn) : (mSyn f s).emp = s.emp := rfl
@[simp] theorem mSyn_ctl (f : Syn → Syn) : (mSyn f s).ctl = s.ctl := rfl
@[simp] theorem mSyn_que (f : Syn → Syn) : (mSyn f s).que = s.que := rfl
@[simp] theorem mSyn_tiles (f : Syn → Syn) : (mSyn f s).tiles = s.tiles := rfl
@[simp] theorem mSyn_tpl (f : Syn → Syn) : (mSyn f s).tpl = s.tpl := rfl
@[simp] theorem mSyn_ses (f : Syn → Syn) : (mSyn f s).ses = s.ses := rfl
@[simp] theorem mSyn_trk (f : Syn → Syn) : (mSyn f s).trk = s.trk := rfl
@[simp] theorem mSyn_red (f : Syn → Syn) : (mSyn f s).red = s.red := rfl
@[simp] theorem mSyn_fin (f : Syn → Syn) : (mSyn f s).fin = s.fin := rfl
@[simp] theorem mSyn_row (f : Syn → Syn) : (mSyn f s).row = s.row := rfl
@[simp] theorem mSyn_gas (f : Syn → Syn) : (mSyn f s).gas = s.gas := rfl
@[simp] theorem mSyn_opt (f : Syn → Syn) : (mSyn f s).opt = s.opt := rfl
@[simp] theorem mSyn_spx (f : Syn → Syn) : (mSyn f s).spx = s.spx := rfl
@[simp] theorem mSyn_syn (f : Syn → Syn) : (mSyn f s).syn = f s.syn := rfl
@[simp] theorem mSyn_rtr (f : Syn → Syn) : (mSyn f s).rtr = s.rtr := rfl
@[simp] theorem mSyn_lnk (f : Syn → Syn) : (mSyn f s).lnk = s.lnk := rfl
@[simp] theorem mSyn_lsu (f : Syn → Syn) : (mSyn f s).lsu = s.lsu := rfl
@[simp] theorem mSyn_rru (f : Syn → Syn) : (mSyn f s).rru = s.rru := rfl
@[simp] theorem mSyn_flt (f : Syn → Syn) : (mSyn f s).flt = s.flt := rfl
@[simp] theorem mSyn_pwr (f : Syn → Syn) : (mSyn f s).pwr = s.pwr := rfl
@[simp] theorem mSyn_rst (f : Syn → Syn) : (mSyn f s).rst = s.rst := rfl
@[simp] theorem mSyn_dbg (f : Syn → Syn) : (mSyn f s).dbg = s.dbg := rfl

@[simp] theorem mRtr_ccc (f : Rtr → Rtr) : (mRtr f s).ccc = s.ccc := rfl
@[simp] theorem mRtr_tick (f : Rtr → Rtr) : (mRtr f s).tick = s.tick := rfl
@[simp] theorem mRtr_free (f : Rtr → Rtr) : (mRtr f s).free = s.free := rfl
@[simp] theorem mRtr_pending (f : Rtr → Rtr) : (mRtr f s).pending = s.pending := rfl
@[simp] theorem mRtr_hdrs (f : Rtr → Rtr) : (mRtr f s).hdrs = s.hdrs := rfl
@[simp] theorem mRtr_heldLow (f : Rtr → Rtr) : (mRtr f s).heldLow = s.heldLow := rfl
@[simp] theorem mRtr_msix (f : Rtr → Rtr) : (mRtr f s).msix = s.msix := rfl
@[simp] theorem mRtr_mem (f : Rtr → Rtr) : (mRtr f s).mem = s.mem := rfl
@[simp] theorem mRtr_emp (f : Rtr → Rtr) : (mRtr f s).emp = s.emp := rfl
@[simp] theorem mRtr_ctl (f : Rtr → Rtr) : (mRtr f s).ctl = s.ctl := rfl
@[simp] theorem mRtr_que (f : Rtr → Rtr) : (mRtr f s).que = s.que := rfl
@[simp] theorem mRtr_tiles (f : Rtr → Rtr) : (mRtr f s).tiles = s.tiles := rfl
@[simp] theorem mRtr_tpl (f : Rtr → Rtr) : (mRtr f s).tpl = s.tpl := rfl
@[simp] theorem mRtr_ses (f : Rtr → Rtr) : (mRtr f s).ses = s.ses := rfl
@[simp] theorem mRtr_trk (f : Rtr → Rtr) : (mRtr f s).trk = s.trk := rfl
@[simp] theorem mRtr_red (f : Rtr → Rtr) : (mRtr f s).red = s.red := rfl
@[simp] theorem mRtr_fin (f : Rtr → Rtr) : (mRtr f s).fin = s.fin := rfl
@[simp] theorem mRtr_row (f : Rtr → Rtr) : (mRtr f s).row = s.row := rfl
@[simp] theorem mRtr_gas (f : Rtr → Rtr) : (mRtr f s).gas = s.gas := rfl
@[simp] theorem mRtr_opt (f : Rtr → Rtr) : (mRtr f s).opt = s.opt := rfl
@[simp] theorem mRtr_spx (f : Rtr → Rtr) : (mRtr f s).spx = s.spx := rfl
@[simp] theorem mRtr_syn (f : Rtr → Rtr) : (mRtr f s).syn = s.syn := rfl
@[simp] theorem mRtr_rtr (f : Rtr → Rtr) : (mRtr f s).rtr = f s.rtr := rfl
@[simp] theorem mRtr_lnk (f : Rtr → Rtr) : (mRtr f s).lnk = s.lnk := rfl
@[simp] theorem mRtr_lsu (f : Rtr → Rtr) : (mRtr f s).lsu = s.lsu := rfl
@[simp] theorem mRtr_rru (f : Rtr → Rtr) : (mRtr f s).rru = s.rru := rfl
@[simp] theorem mRtr_flt (f : Rtr → Rtr) : (mRtr f s).flt = s.flt := rfl
@[simp] theorem mRtr_pwr (f : Rtr → Rtr) : (mRtr f s).pwr = s.pwr := rfl
@[simp] theorem mRtr_rst (f : Rtr → Rtr) : (mRtr f s).rst = s.rst := rfl
@[simp] theorem mRtr_dbg (f : Rtr → Rtr) : (mRtr f s).dbg = s.dbg := rfl

@[simp] theorem mLnk_ccc (f : Lnk → Lnk) : (mLnk f s).ccc = s.ccc := rfl
@[simp] theorem mLnk_tick (f : Lnk → Lnk) : (mLnk f s).tick = s.tick := rfl
@[simp] theorem mLnk_free (f : Lnk → Lnk) : (mLnk f s).free = s.free := rfl
@[simp] theorem mLnk_pending (f : Lnk → Lnk) : (mLnk f s).pending = s.pending := rfl
@[simp] theorem mLnk_hdrs (f : Lnk → Lnk) : (mLnk f s).hdrs = s.hdrs := rfl
@[simp] theorem mLnk_heldLow (f : Lnk → Lnk) : (mLnk f s).heldLow = s.heldLow := rfl
@[simp] theorem mLnk_msix (f : Lnk → Lnk) : (mLnk f s).msix = s.msix := rfl
@[simp] theorem mLnk_mem (f : Lnk → Lnk) : (mLnk f s).mem = s.mem := rfl
@[simp] theorem mLnk_emp (f : Lnk → Lnk) : (mLnk f s).emp = s.emp := rfl
@[simp] theorem mLnk_ctl (f : Lnk → Lnk) : (mLnk f s).ctl = s.ctl := rfl
@[simp] theorem mLnk_que (f : Lnk → Lnk) : (mLnk f s).que = s.que := rfl
@[simp] theorem mLnk_tiles (f : Lnk → Lnk) : (mLnk f s).tiles = s.tiles := rfl
@[simp] theorem mLnk_tpl (f : Lnk → Lnk) : (mLnk f s).tpl = s.tpl := rfl
@[simp] theorem mLnk_ses (f : Lnk → Lnk) : (mLnk f s).ses = s.ses := rfl
@[simp] theorem mLnk_trk (f : Lnk → Lnk) : (mLnk f s).trk = s.trk := rfl
@[simp] theorem mLnk_red (f : Lnk → Lnk) : (mLnk f s).red = s.red := rfl
@[simp] theorem mLnk_fin (f : Lnk → Lnk) : (mLnk f s).fin = s.fin := rfl
@[simp] theorem mLnk_row (f : Lnk → Lnk) : (mLnk f s).row = s.row := rfl
@[simp] theorem mLnk_gas (f : Lnk → Lnk) : (mLnk f s).gas = s.gas := rfl
@[simp] theorem mLnk_opt (f : Lnk → Lnk) : (mLnk f s).opt = s.opt := rfl
@[simp] theorem mLnk_spx (f : Lnk → Lnk) : (mLnk f s).spx = s.spx := rfl
@[simp] theorem mLnk_syn (f : Lnk → Lnk) : (mLnk f s).syn = s.syn := rfl
@[simp] theorem mLnk_rtr (f : Lnk → Lnk) : (mLnk f s).rtr = s.rtr := rfl
@[simp] theorem mLnk_lnk (f : Lnk → Lnk) : (mLnk f s).lnk = f s.lnk := rfl
@[simp] theorem mLnk_lsu (f : Lnk → Lnk) : (mLnk f s).lsu = s.lsu := rfl
@[simp] theorem mLnk_rru (f : Lnk → Lnk) : (mLnk f s).rru = s.rru := rfl
@[simp] theorem mLnk_flt (f : Lnk → Lnk) : (mLnk f s).flt = s.flt := rfl
@[simp] theorem mLnk_pwr (f : Lnk → Lnk) : (mLnk f s).pwr = s.pwr := rfl
@[simp] theorem mLnk_rst (f : Lnk → Lnk) : (mLnk f s).rst = s.rst := rfl
@[simp] theorem mLnk_dbg (f : Lnk → Lnk) : (mLnk f s).dbg = s.dbg := rfl

@[simp] theorem mLsu_ccc (f : Lsu → Lsu) : (mLsu f s).ccc = s.ccc := rfl
@[simp] theorem mLsu_tick (f : Lsu → Lsu) : (mLsu f s).tick = s.tick := rfl
@[simp] theorem mLsu_free (f : Lsu → Lsu) : (mLsu f s).free = s.free := rfl
@[simp] theorem mLsu_pending (f : Lsu → Lsu) : (mLsu f s).pending = s.pending := rfl
@[simp] theorem mLsu_hdrs (f : Lsu → Lsu) : (mLsu f s).hdrs = s.hdrs := rfl
@[simp] theorem mLsu_heldLow (f : Lsu → Lsu) : (mLsu f s).heldLow = s.heldLow := rfl
@[simp] theorem mLsu_msix (f : Lsu → Lsu) : (mLsu f s).msix = s.msix := rfl
@[simp] theorem mLsu_mem (f : Lsu → Lsu) : (mLsu f s).mem = s.mem := rfl
@[simp] theorem mLsu_emp (f : Lsu → Lsu) : (mLsu f s).emp = s.emp := rfl
@[simp] theorem mLsu_ctl (f : Lsu → Lsu) : (mLsu f s).ctl = s.ctl := rfl
@[simp] theorem mLsu_que (f : Lsu → Lsu) : (mLsu f s).que = s.que := rfl
@[simp] theorem mLsu_tiles (f : Lsu → Lsu) : (mLsu f s).tiles = s.tiles := rfl
@[simp] theorem mLsu_tpl (f : Lsu → Lsu) : (mLsu f s).tpl = s.tpl := rfl
@[simp] theorem mLsu_ses (f : Lsu → Lsu) : (mLsu f s).ses = s.ses := rfl
@[simp] theorem mLsu_trk (f : Lsu → Lsu) : (mLsu f s).trk = s.trk := rfl
@[simp] theorem mLsu_red (f : Lsu → Lsu) : (mLsu f s).red = s.red := rfl
@[simp] theorem mLsu_fin (f : Lsu → Lsu) : (mLsu f s).fin = s.fin := rfl
@[simp] theorem mLsu_row (f : Lsu → Lsu) : (mLsu f s).row = s.row := rfl
@[simp] theorem mLsu_gas (f : Lsu → Lsu) : (mLsu f s).gas = s.gas := rfl
@[simp] theorem mLsu_opt (f : Lsu → Lsu) : (mLsu f s).opt = s.opt := rfl
@[simp] theorem mLsu_spx (f : Lsu → Lsu) : (mLsu f s).spx = s.spx := rfl
@[simp] theorem mLsu_syn (f : Lsu → Lsu) : (mLsu f s).syn = s.syn := rfl
@[simp] theorem mLsu_rtr (f : Lsu → Lsu) : (mLsu f s).rtr = s.rtr := rfl
@[simp] theorem mLsu_lnk (f : Lsu → Lsu) : (mLsu f s).lnk = s.lnk := rfl
@[simp] theorem mLsu_lsu (f : Lsu → Lsu) : (mLsu f s).lsu = f s.lsu := rfl
@[simp] theorem mLsu_rru (f : Lsu → Lsu) : (mLsu f s).rru = s.rru := rfl
@[simp] theorem mLsu_flt (f : Lsu → Lsu) : (mLsu f s).flt = s.flt := rfl
@[simp] theorem mLsu_pwr (f : Lsu → Lsu) : (mLsu f s).pwr = s.pwr := rfl
@[simp] theorem mLsu_rst (f : Lsu → Lsu) : (mLsu f s).rst = s.rst := rfl
@[simp] theorem mLsu_dbg (f : Lsu → Lsu) : (mLsu f s).dbg = s.dbg := rfl

@[simp] theorem mRru_ccc (f : Rru → Rru) : (mRru f s).ccc = s.ccc := rfl
@[simp] theorem mRru_tick (f : Rru → Rru) : (mRru f s).tick = s.tick := rfl
@[simp] theorem mRru_free (f : Rru → Rru) : (mRru f s).free = s.free := rfl
@[simp] theorem mRru_pending (f : Rru → Rru) : (mRru f s).pending = s.pending := rfl
@[simp] theorem mRru_hdrs (f : Rru → Rru) : (mRru f s).hdrs = s.hdrs := rfl
@[simp] theorem mRru_heldLow (f : Rru → Rru) : (mRru f s).heldLow = s.heldLow := rfl
@[simp] theorem mRru_msix (f : Rru → Rru) : (mRru f s).msix = s.msix := rfl
@[simp] theorem mRru_mem (f : Rru → Rru) : (mRru f s).mem = s.mem := rfl
@[simp] theorem mRru_emp (f : Rru → Rru) : (mRru f s).emp = s.emp := rfl
@[simp] theorem mRru_ctl (f : Rru → Rru) : (mRru f s).ctl = s.ctl := rfl
@[simp] theorem mRru_que (f : Rru → Rru) : (mRru f s).que = s.que := rfl
@[simp] theorem mRru_tiles (f : Rru → Rru) : (mRru f s).tiles = s.tiles := rfl
@[simp] theorem mRru_tpl (f : Rru → Rru) : (mRru f s).tpl = s.tpl := rfl
@[simp] theorem mRru_ses (f : Rru → Rru) : (mRru f s).ses = s.ses := rfl
@[simp] theorem mRru_trk (f : Rru → Rru) : (mRru f s).trk = s.trk := rfl
@[simp] theorem mRru_red (f : Rru → Rru) : (mRru f s).red = s.red := rfl
@[simp] theorem mRru_fin (f : Rru → Rru) : (mRru f s).fin = s.fin := rfl
@[simp] theorem mRru_row (f : Rru → Rru) : (mRru f s).row = s.row := rfl
@[simp] theorem mRru_gas (f : Rru → Rru) : (mRru f s).gas = s.gas := rfl
@[simp] theorem mRru_opt (f : Rru → Rru) : (mRru f s).opt = s.opt := rfl
@[simp] theorem mRru_spx (f : Rru → Rru) : (mRru f s).spx = s.spx := rfl
@[simp] theorem mRru_syn (f : Rru → Rru) : (mRru f s).syn = s.syn := rfl
@[simp] theorem mRru_rtr (f : Rru → Rru) : (mRru f s).rtr = s.rtr := rfl
@[simp] theorem mRru_lnk (f : Rru → Rru) : (mRru f s).lnk = s.lnk := rfl
@[simp] theorem mRru_lsu (f : Rru → Rru) : (mRru f s).lsu = s.lsu := rfl
@[simp] theorem mRru_rru (f : Rru → Rru) : (mRru f s).rru = f s.rru := rfl
@[simp] theorem mRru_flt (f : Rru → Rru) : (mRru f s).flt = s.flt := rfl
@[simp] theorem mRru_pwr (f : Rru → Rru) : (mRru f s).pwr = s.pwr := rfl
@[simp] theorem mRru_rst (f : Rru → Rru) : (mRru f s).rst = s.rst := rfl
@[simp] theorem mRru_dbg (f : Rru → Rru) : (mRru f s).dbg = s.dbg := rfl

@[simp] theorem mFlt_ccc (f : Flt → Flt) : (mFlt f s).ccc = s.ccc := rfl
@[simp] theorem mFlt_tick (f : Flt → Flt) : (mFlt f s).tick = s.tick := rfl
@[simp] theorem mFlt_free (f : Flt → Flt) : (mFlt f s).free = s.free := rfl
@[simp] theorem mFlt_pending (f : Flt → Flt) : (mFlt f s).pending = s.pending := rfl
@[simp] theorem mFlt_hdrs (f : Flt → Flt) : (mFlt f s).hdrs = s.hdrs := rfl
@[simp] theorem mFlt_heldLow (f : Flt → Flt) : (mFlt f s).heldLow = s.heldLow := rfl
@[simp] theorem mFlt_msix (f : Flt → Flt) : (mFlt f s).msix = s.msix := rfl
@[simp] theorem mFlt_mem (f : Flt → Flt) : (mFlt f s).mem = s.mem := rfl
@[simp] theorem mFlt_emp (f : Flt → Flt) : (mFlt f s).emp = s.emp := rfl
@[simp] theorem mFlt_ctl (f : Flt → Flt) : (mFlt f s).ctl = s.ctl := rfl
@[simp] theorem mFlt_que (f : Flt → Flt) : (mFlt f s).que = s.que := rfl
@[simp] theorem mFlt_tiles (f : Flt → Flt) : (mFlt f s).tiles = s.tiles := rfl
@[simp] theorem mFlt_tpl (f : Flt → Flt) : (mFlt f s).tpl = s.tpl := rfl
@[simp] theorem mFlt_ses (f : Flt → Flt) : (mFlt f s).ses = s.ses := rfl
@[simp] theorem mFlt_trk (f : Flt → Flt) : (mFlt f s).trk = s.trk := rfl
@[simp] theorem mFlt_red (f : Flt → Flt) : (mFlt f s).red = s.red := rfl
@[simp] theorem mFlt_fin (f : Flt → Flt) : (mFlt f s).fin = s.fin := rfl
@[simp] theorem mFlt_row (f : Flt → Flt) : (mFlt f s).row = s.row := rfl
@[simp] theorem mFlt_gas (f : Flt → Flt) : (mFlt f s).gas = s.gas := rfl
@[simp] theorem mFlt_opt (f : Flt → Flt) : (mFlt f s).opt = s.opt := rfl
@[simp] theorem mFlt_spx (f : Flt → Flt) : (mFlt f s).spx = s.spx := rfl
@[simp] theorem mFlt_syn (f : Flt → Flt) : (mFlt f s).syn = s.syn := rfl
@[simp] theorem mFlt_rtr (f : Flt → Flt) : (mFlt f s).rtr = s.rtr := rfl
@[simp] theorem mFlt_lnk (f : Flt → Flt) : (mFlt f s).lnk = s.lnk := rfl
@[simp] theorem mFlt_lsu (f : Flt → Flt) : (mFlt f s).lsu = s.lsu := rfl
@[simp] theorem mFlt_rru (f : Flt → Flt) : (mFlt f s).rru = s.rru := rfl
@[simp] theorem mFlt_flt (f : Flt → Flt) : (mFlt f s).flt = f s.flt := rfl
@[simp] theorem mFlt_pwr (f : Flt → Flt) : (mFlt f s).pwr = s.pwr := rfl
@[simp] theorem mFlt_rst (f : Flt → Flt) : (mFlt f s).rst = s.rst := rfl
@[simp] theorem mFlt_dbg (f : Flt → Flt) : (mFlt f s).dbg = s.dbg := rfl

@[simp] theorem mPwr_ccc (f : Pwr → Pwr) : (mPwr f s).ccc = s.ccc := rfl
@[simp] theorem mPwr_tick (f : Pwr → Pwr) : (mPwr f s).tick = s.tick := rfl
@[simp] theorem mPwr_free (f : Pwr → Pwr) : (mPwr f s).free = s.free := rfl
@[simp] theorem mPwr_pending (f : Pwr → Pwr) : (mPwr f s).pending = s.pending := rfl
@[simp] theorem mPwr_hdrs (f : Pwr → Pwr) : (mPwr f s).hdrs = s.hdrs := rfl
@[simp] theorem mPwr_heldLow (f : Pwr → Pwr) : (mPwr f s).heldLow = s.heldLow := rfl
@[simp] theorem mPwr_msix (f : Pwr → Pwr) : (mPwr f s).msix = s.msix := rfl
@[simp] theorem mPwr_mem (f : Pwr → Pwr) : (mPwr f s).mem = s.mem := rfl
@[simp] theorem mPwr_emp (f : Pwr → Pwr) : (mPwr f s).emp = s.emp := rfl
@[simp] theorem mPwr_ctl (f : Pwr → Pwr) : (mPwr f s).ctl = s.ctl := rfl
@[simp] theorem mPwr_que (f : Pwr → Pwr) : (mPwr f s).que = s.que := rfl
@[simp] theorem mPwr_tiles (f : Pwr → Pwr) : (mPwr f s).tiles = s.tiles := rfl
@[simp] theorem mPwr_tpl (f : Pwr → Pwr) : (mPwr f s).tpl = s.tpl := rfl
@[simp] theorem mPwr_ses (f : Pwr → Pwr) : (mPwr f s).ses = s.ses := rfl
@[simp] theorem mPwr_trk (f : Pwr → Pwr) : (mPwr f s).trk = s.trk := rfl
@[simp] theorem mPwr_red (f : Pwr → Pwr) : (mPwr f s).red = s.red := rfl
@[simp] theorem mPwr_fin (f : Pwr → Pwr) : (mPwr f s).fin = s.fin := rfl
@[simp] theorem mPwr_row (f : Pwr → Pwr) : (mPwr f s).row = s.row := rfl
@[simp] theorem mPwr_gas (f : Pwr → Pwr) : (mPwr f s).gas = s.gas := rfl
@[simp] theorem mPwr_opt (f : Pwr → Pwr) : (mPwr f s).opt = s.opt := rfl
@[simp] theorem mPwr_spx (f : Pwr → Pwr) : (mPwr f s).spx = s.spx := rfl
@[simp] theorem mPwr_syn (f : Pwr → Pwr) : (mPwr f s).syn = s.syn := rfl
@[simp] theorem mPwr_rtr (f : Pwr → Pwr) : (mPwr f s).rtr = s.rtr := rfl
@[simp] theorem mPwr_lnk (f : Pwr → Pwr) : (mPwr f s).lnk = s.lnk := rfl
@[simp] theorem mPwr_lsu (f : Pwr → Pwr) : (mPwr f s).lsu = s.lsu := rfl
@[simp] theorem mPwr_rru (f : Pwr → Pwr) : (mPwr f s).rru = s.rru := rfl
@[simp] theorem mPwr_flt (f : Pwr → Pwr) : (mPwr f s).flt = s.flt := rfl
@[simp] theorem mPwr_pwr (f : Pwr → Pwr) : (mPwr f s).pwr = f s.pwr := rfl
@[simp] theorem mPwr_rst (f : Pwr → Pwr) : (mPwr f s).rst = s.rst := rfl
@[simp] theorem mPwr_dbg (f : Pwr → Pwr) : (mPwr f s).dbg = s.dbg := rfl

@[simp] theorem mRst_ccc (f : Rst → Rst) : (mRst f s).ccc = s.ccc := rfl
@[simp] theorem mRst_tick (f : Rst → Rst) : (mRst f s).tick = s.tick := rfl
@[simp] theorem mRst_free (f : Rst → Rst) : (mRst f s).free = s.free := rfl
@[simp] theorem mRst_pending (f : Rst → Rst) : (mRst f s).pending = s.pending := rfl
@[simp] theorem mRst_hdrs (f : Rst → Rst) : (mRst f s).hdrs = s.hdrs := rfl
@[simp] theorem mRst_heldLow (f : Rst → Rst) : (mRst f s).heldLow = s.heldLow := rfl
@[simp] theorem mRst_msix (f : Rst → Rst) : (mRst f s).msix = s.msix := rfl
@[simp] theorem mRst_mem (f : Rst → Rst) : (mRst f s).mem = s.mem := rfl
@[simp] theorem mRst_emp (f : Rst → Rst) : (mRst f s).emp = s.emp := rfl
@[simp] theorem mRst_ctl (f : Rst → Rst) : (mRst f s).ctl = s.ctl := rfl
@[simp] theorem mRst_que (f : Rst → Rst) : (mRst f s).que = s.que := rfl
@[simp] theorem mRst_tiles (f : Rst → Rst) : (mRst f s).tiles = s.tiles := rfl
@[simp] theorem mRst_tpl (f : Rst → Rst) : (mRst f s).tpl = s.tpl := rfl
@[simp] theorem mRst_ses (f : Rst → Rst) : (mRst f s).ses = s.ses := rfl
@[simp] theorem mRst_trk (f : Rst → Rst) : (mRst f s).trk = s.trk := rfl
@[simp] theorem mRst_red (f : Rst → Rst) : (mRst f s).red = s.red := rfl
@[simp] theorem mRst_fin (f : Rst → Rst) : (mRst f s).fin = s.fin := rfl
@[simp] theorem mRst_row (f : Rst → Rst) : (mRst f s).row = s.row := rfl
@[simp] theorem mRst_gas (f : Rst → Rst) : (mRst f s).gas = s.gas := rfl
@[simp] theorem mRst_opt (f : Rst → Rst) : (mRst f s).opt = s.opt := rfl
@[simp] theorem mRst_spx (f : Rst → Rst) : (mRst f s).spx = s.spx := rfl
@[simp] theorem mRst_syn (f : Rst → Rst) : (mRst f s).syn = s.syn := rfl
@[simp] theorem mRst_rtr (f : Rst → Rst) : (mRst f s).rtr = s.rtr := rfl
@[simp] theorem mRst_lnk (f : Rst → Rst) : (mRst f s).lnk = s.lnk := rfl
@[simp] theorem mRst_lsu (f : Rst → Rst) : (mRst f s).lsu = s.lsu := rfl
@[simp] theorem mRst_rru (f : Rst → Rst) : (mRst f s).rru = s.rru := rfl
@[simp] theorem mRst_flt (f : Rst → Rst) : (mRst f s).flt = s.flt := rfl
@[simp] theorem mRst_pwr (f : Rst → Rst) : (mRst f s).pwr = s.pwr := rfl
@[simp] theorem mRst_rst (f : Rst → Rst) : (mRst f s).rst = f s.rst := rfl
@[simp] theorem mRst_dbg (f : Rst → Rst) : (mRst f s).dbg = s.dbg := rfl

@[simp] theorem mDbg_ccc (f : Dbg → Dbg) : (mDbg f s).ccc = s.ccc := rfl
@[simp] theorem mDbg_tick (f : Dbg → Dbg) : (mDbg f s).tick = s.tick := rfl
@[simp] theorem mDbg_free (f : Dbg → Dbg) : (mDbg f s).free = s.free := rfl
@[simp] theorem mDbg_pending (f : Dbg → Dbg) : (mDbg f s).pending = s.pending := rfl
@[simp] theorem mDbg_hdrs (f : Dbg → Dbg) : (mDbg f s).hdrs = s.hdrs := rfl
@[simp] theorem mDbg_heldLow (f : Dbg → Dbg) : (mDbg f s).heldLow = s.heldLow := rfl
@[simp] theorem mDbg_msix (f : Dbg → Dbg) : (mDbg f s).msix = s.msix := rfl
@[simp] theorem mDbg_mem (f : Dbg → Dbg) : (mDbg f s).mem = s.mem := rfl
@[simp] theorem mDbg_emp (f : Dbg → Dbg) : (mDbg f s).emp = s.emp := rfl
@[simp] theorem mDbg_ctl (f : Dbg → Dbg) : (mDbg f s).ctl = s.ctl := rfl
@[simp] theorem mDbg_que (f : Dbg → Dbg) : (mDbg f s).que = s.que := rfl
@[simp] theorem mDbg_tiles (f : Dbg → Dbg) : (mDbg f s).tiles = s.tiles := rfl
@[simp] theorem mDbg_tpl (f : Dbg → Dbg) : (mDbg f s).tpl = s.tpl := rfl
@[simp] theorem mDbg_ses (f : Dbg → Dbg) : (mDbg f s).ses = s.ses := rfl
@[simp] theorem mDbg_trk (f : Dbg → Dbg) : (mDbg f s).trk = s.trk := rfl
@[simp] theorem mDbg_red (f : Dbg → Dbg) : (mDbg f s).red = s.red := rfl
@[simp] theorem mDbg_fin (f : Dbg → Dbg) : (mDbg f s).fin = s.fin := rfl
@[simp] theorem mDbg_row (f : Dbg → Dbg) : (mDbg f s).row = s.row := rfl
@[simp] theorem mDbg_gas (f : Dbg → Dbg) : (mDbg f s).gas = s.gas := rfl
@[simp] theorem mDbg_opt (f : Dbg → Dbg) : (mDbg f s).opt = s.opt := rfl
@[simp] theorem mDbg_spx (f : Dbg → Dbg) : (mDbg f s).spx = s.spx := rfl
@[simp] theorem mDbg_syn (f : Dbg → Dbg) : (mDbg f s).syn = s.syn := rfl
@[simp] theorem mDbg_rtr (f : Dbg → Dbg) : (mDbg f s).rtr = s.rtr := rfl
@[simp] theorem mDbg_lnk (f : Dbg → Dbg) : (mDbg f s).lnk = s.lnk := rfl
@[simp] theorem mDbg_lsu (f : Dbg → Dbg) : (mDbg f s).lsu = s.lsu := rfl
@[simp] theorem mDbg_rru (f : Dbg → Dbg) : (mDbg f s).rru = s.rru := rfl
@[simp] theorem mDbg_flt (f : Dbg → Dbg) : (mDbg f s).flt = s.flt := rfl
@[simp] theorem mDbg_pwr (f : Dbg → Dbg) : (mDbg f s).pwr = s.pwr := rfl
@[simp] theorem mDbg_rst (f : Dbg → Dbg) : (mDbg f s).rst = s.rst := rfl
@[simp] theorem mDbg_dbg (f : Dbg → Dbg) : (mDbg f s).dbg = f s.dbg := rfl

@[simp] theorem mEmp_ccc (f : Emp → Emp) : (mEmp f s).ccc = s.ccc := rfl
@[simp] theorem mEmp_tick (f : Emp → Emp) : (mEmp f s).tick = s.tick := rfl
@[simp] theorem mEmp_free (f : Emp → Emp) : (mEmp f s).free = s.free := rfl
@[simp] theorem mEmp_pending (f : Emp → Emp) : (mEmp f s).pending = s.pending := rfl
@[simp] theorem mEmp_hdrs (f : Emp → Emp) : (mEmp f s).hdrs = s.hdrs := rfl
@[simp] theorem mEmp_heldLow (f : Emp → Emp) : (mEmp f s).heldLow = s.heldLow := rfl
@[simp] theorem mEmp_msix (f : Emp → Emp) : (mEmp f s).msix = s.msix := rfl
@[simp] theorem mEmp_mem (f : Emp → Emp) : (mEmp f s).mem = s.mem := rfl
@[simp] theorem mEmp_emp (f : Emp → Emp) : (mEmp f s).emp = f s.emp := rfl
@[simp] theorem mEmp_ctl (f : Emp → Emp) : (mEmp f s).ctl = s.ctl := rfl
@[simp] theorem mEmp_que (f : Emp → Emp) : (mEmp f s).que = s.que := rfl
@[simp] theorem mEmp_tiles (f : Emp → Emp) : (mEmp f s).tiles = s.tiles := rfl
@[simp] theorem mEmp_tpl (f : Emp → Emp) : (mEmp f s).tpl = s.tpl := rfl
@[simp] theorem mEmp_ses (f : Emp → Emp) : (mEmp f s).ses = s.ses := rfl
@[simp] theorem mEmp_trk (f : Emp → Emp) : (mEmp f s).trk = s.trk := rfl
@[simp] theorem mEmp_red (f : Emp → Emp) : (mEmp f s).red = s.red := rfl
@[simp] theorem mEmp_fin (f : Emp → Emp) : (mEmp f s).fin = s.fin := rfl
@[simp] theorem mEmp_row (f : Emp → Emp) : (mEmp f s).row = s.row := rfl
@[simp] theorem mEmp_gas (f : Emp → Emp) : (mEmp f s).gas = s.gas := rfl
@[simp] theorem mEmp_opt (f : Emp → Emp) : (mEmp f s).opt = s.opt := rfl
@[simp] theorem mEmp_spx (f : Emp → Emp) : (mEmp f s).spx = s.spx := rfl
@[simp] theorem mEmp_syn (f : Emp → Emp) : (mEmp f s).syn = s.syn := rfl
@[simp] theorem mEmp_rtr (f : Emp → Emp) : (mEmp f s).rtr = s.rtr := rfl
@[simp] theorem mEmp_lnk (f : Emp → Emp) : (mEmp f s).lnk = s.lnk := rfl
@[simp] theorem mEmp_lsu (f : Emp → Emp) : (mEmp f s).lsu = s.lsu := rfl
@[simp] theorem mEmp_rru (f : Emp → Emp) : (mEmp f s).rru = s.rru := rfl
@[simp] theorem mEmp_flt (f : Emp → Emp) : (mEmp f s).flt = s.flt := rfl
@[simp] theorem mEmp_pwr (f : Emp → Emp) : (mEmp f s).pwr = s.pwr := rfl
@[simp] theorem mEmp_rst (f : Emp → Emp) : (mEmp f s).rst = s.rst := rfl
@[simp] theorem mEmp_dbg (f : Emp → Emp) : (mEmp f s).dbg = s.dbg := rfl

@[simp] theorem mTpl_ccc (f : Tpl → Tpl) : (mTpl f s).ccc = s.ccc := rfl
@[simp] theorem mTpl_tick (f : Tpl → Tpl) : (mTpl f s).tick = s.tick := rfl
@[simp] theorem mTpl_free (f : Tpl → Tpl) : (mTpl f s).free = s.free := rfl
@[simp] theorem mTpl_pending (f : Tpl → Tpl) : (mTpl f s).pending = s.pending := rfl
@[simp] theorem mTpl_hdrs (f : Tpl → Tpl) : (mTpl f s).hdrs = s.hdrs := rfl
@[simp] theorem mTpl_heldLow (f : Tpl → Tpl) : (mTpl f s).heldLow = s.heldLow := rfl
@[simp] theorem mTpl_msix (f : Tpl → Tpl) : (mTpl f s).msix = s.msix := rfl
@[simp] theorem mTpl_mem (f : Tpl → Tpl) : (mTpl f s).mem = s.mem := rfl
@[simp] theorem mTpl_emp (f : Tpl → Tpl) : (mTpl f s).emp = s.emp := rfl
@[simp] theorem mTpl_ctl (f : Tpl → Tpl) : (mTpl f s).ctl = s.ctl := rfl
@[simp] theorem mTpl_que (f : Tpl → Tpl) : (mTpl f s).que = s.que := rfl
@[simp] theorem mTpl_tiles (f : Tpl → Tpl) : (mTpl f s).tiles = s.tiles := rfl
@[simp] theorem mTpl_tpl (f : Tpl → Tpl) : (mTpl f s).tpl = f s.tpl := rfl
@[simp] theorem mTpl_ses (f : Tpl → Tpl) : (mTpl f s).ses = s.ses := rfl
@[simp] theorem mTpl_trk (f : Tpl → Tpl) : (mTpl f s).trk = s.trk := rfl
@[simp] theorem mTpl_red (f : Tpl → Tpl) : (mTpl f s).red = s.red := rfl
@[simp] theorem mTpl_fin (f : Tpl → Tpl) : (mTpl f s).fin = s.fin := rfl
@[simp] theorem mTpl_row (f : Tpl → Tpl) : (mTpl f s).row = s.row := rfl
@[simp] theorem mTpl_gas (f : Tpl → Tpl) : (mTpl f s).gas = s.gas := rfl
@[simp] theorem mTpl_opt (f : Tpl → Tpl) : (mTpl f s).opt = s.opt := rfl
@[simp] theorem mTpl_spx (f : Tpl → Tpl) : (mTpl f s).spx = s.spx := rfl
@[simp] theorem mTpl_syn (f : Tpl → Tpl) : (mTpl f s).syn = s.syn := rfl
@[simp] theorem mTpl_rtr (f : Tpl → Tpl) : (mTpl f s).rtr = s.rtr := rfl
@[simp] theorem mTpl_lnk (f : Tpl → Tpl) : (mTpl f s).lnk = s.lnk := rfl
@[simp] theorem mTpl_lsu (f : Tpl → Tpl) : (mTpl f s).lsu = s.lsu := rfl
@[simp] theorem mTpl_rru (f : Tpl → Tpl) : (mTpl f s).rru = s.rru := rfl
@[simp] theorem mTpl_flt (f : Tpl → Tpl) : (mTpl f s).flt = s.flt := rfl
@[simp] theorem mTpl_pwr (f : Tpl → Tpl) : (mTpl f s).pwr = s.pwr := rfl
@[simp] theorem mTpl_rst (f : Tpl → Tpl) : (mTpl f s).rst = s.rst := rfl
@[simp] theorem mTpl_dbg (f : Tpl → Tpl) : (mTpl f s).dbg = s.dbg := rfl

@[simp] theorem mTile_ccc (i : Nat) (f : Tile → Tile) : (mTile i f s).ccc = s.ccc := rfl
@[simp] theorem mTile_tick (i : Nat) (f : Tile → Tile) : (mTile i f s).tick = s.tick := rfl
@[simp] theorem mTile_free (i : Nat) (f : Tile → Tile) : (mTile i f s).free = s.free := rfl
@[simp] theorem mTile_pending (i : Nat) (f : Tile → Tile) : (mTile i f s).pending = s.pending := rfl
@[simp] theorem mTile_hdrs (i : Nat) (f : Tile → Tile) : (mTile i f s).hdrs = s.hdrs := rfl
@[simp] theorem mTile_heldLow (i : Nat) (f : Tile → Tile) : (mTile i f s).heldLow = s.heldLow := rfl
@[simp] theorem mTile_msix (i : Nat) (f : Tile → Tile) : (mTile i f s).msix = s.msix := rfl
@[simp] theorem mTile_mem (i : Nat) (f : Tile → Tile) : (mTile i f s).mem = s.mem := rfl
@[simp] theorem mTile_emp (i : Nat) (f : Tile → Tile) : (mTile i f s).emp = s.emp := rfl
@[simp] theorem mTile_ctl (i : Nat) (f : Tile → Tile) : (mTile i f s).ctl = s.ctl := rfl
@[simp] theorem mTile_que (i : Nat) (f : Tile → Tile) : (mTile i f s).que = s.que := rfl
@[simp] theorem mTile_tiles (i : Nat) (f : Tile → Tile) : (mTile i f s).tiles = Sparse.modify {} s.tiles i f := rfl
@[simp] theorem mTile_tpl (i : Nat) (f : Tile → Tile) : (mTile i f s).tpl = s.tpl := rfl
@[simp] theorem mTile_ses (i : Nat) (f : Tile → Tile) : (mTile i f s).ses = s.ses := rfl
@[simp] theorem mTile_trk (i : Nat) (f : Tile → Tile) : (mTile i f s).trk = s.trk := rfl
@[simp] theorem mTile_red (i : Nat) (f : Tile → Tile) : (mTile i f s).red = s.red := rfl
@[simp] theorem mTile_fin (i : Nat) (f : Tile → Tile) : (mTile i f s).fin = s.fin := rfl
@[simp] theorem mTile_row (i : Nat) (f : Tile → Tile) : (mTile i f s).row = s.row := rfl
@[simp] theorem mTile_gas (i : Nat) (f : Tile → Tile) : (mTile i f s).gas = s.gas := rfl
@[simp] theorem mTile_opt (i : Nat) (f : Tile → Tile) : (mTile i f s).opt = s.opt := rfl
@[simp] theorem mTile_spx (i : Nat) (f : Tile → Tile) : (mTile i f s).spx = s.spx := rfl
@[simp] theorem mTile_syn (i : Nat) (f : Tile → Tile) : (mTile i f s).syn = s.syn := rfl
@[simp] theorem mTile_rtr (i : Nat) (f : Tile → Tile) : (mTile i f s).rtr = s.rtr := rfl
@[simp] theorem mTile_lnk (i : Nat) (f : Tile → Tile) : (mTile i f s).lnk = s.lnk := rfl
@[simp] theorem mTile_lsu (i : Nat) (f : Tile → Tile) : (mTile i f s).lsu = s.lsu := rfl
@[simp] theorem mTile_rru (i : Nat) (f : Tile → Tile) : (mTile i f s).rru = s.rru := rfl
@[simp] theorem mTile_flt (i : Nat) (f : Tile → Tile) : (mTile i f s).flt = s.flt := rfl
@[simp] theorem mTile_pwr (i : Nat) (f : Tile → Tile) : (mTile i f s).pwr = s.pwr := rfl
@[simp] theorem mTile_rst (i : Nat) (f : Tile → Tile) : (mTile i f s).rst = s.rst := rfl
@[simp] theorem mTile_dbg (i : Nat) (f : Tile → Tile) : (mTile i f s).dbg = s.dbg := rfl

@[simp] theorem mHdr_ccc (i : Nat) (f : Hdr → Hdr) : (mHdr i f s).ccc = s.ccc := rfl
@[simp] theorem mHdr_tick (i : Nat) (f : Hdr → Hdr) : (mHdr i f s).tick = s.tick := rfl
@[simp] theorem mHdr_free (i : Nat) (f : Hdr → Hdr) : (mHdr i f s).free = s.free := rfl
@[simp] theorem mHdr_pending (i : Nat) (f : Hdr → Hdr) : (mHdr i f s).pending = s.pending := rfl
@[simp] theorem mHdr_hdrs (i : Nat) (f : Hdr → Hdr) : (mHdr i f s).hdrs = Sparse.modify {} s.hdrs i f := rfl
@[simp] theorem mHdr_heldLow (i : Nat) (f : Hdr → Hdr) : (mHdr i f s).heldLow = s.heldLow := rfl
@[simp] theorem mHdr_msix (i : Nat) (f : Hdr → Hdr) : (mHdr i f s).msix = s.msix := rfl
@[simp] theorem mHdr_mem (i : Nat) (f : Hdr → Hdr) : (mHdr i f s).mem = s.mem := rfl
@[simp] theorem mHdr_emp (i : Nat) (f : Hdr → Hdr) : (mHdr i f s).emp = s.emp := rfl
@[simp] theorem mHdr_ctl (i : Nat) (f : Hdr → Hdr) : (mHdr i f s).ctl = s.ctl := rfl
@[simp] theorem mHdr_que (i : Nat) (f : Hdr → Hdr) : (mHdr i f s).que = s.que := rfl
@[simp] theorem mHdr_tiles (i : Nat) (f : Hdr → Hdr) : (mHdr i f s).tiles = s.tiles := rfl
@[simp] theorem mHdr_tpl (i : Nat) (f : Hdr → Hdr) : (mHdr i f s).tpl = s.tpl := rfl
@[simp] theorem mHdr_ses (i : Nat) (f : Hdr → Hdr) : (mHdr i f s).ses = s.ses := rfl
@[simp] theorem mHdr_trk (i : Nat) (f : Hdr → Hdr) : (mHdr i f s).trk = s.trk := rfl
@[simp] theorem mHdr_red (i : Nat) (f : Hdr → Hdr) : (mHdr i f s).red = s.red := rfl
@[simp] theorem mHdr_fin (i : Nat) (f : Hdr → Hdr) : (mHdr i f s).fin = s.fin := rfl
@[simp] theorem mHdr_row (i : Nat) (f : Hdr → Hdr) : (mHdr i f s).row = s.row := rfl
@[simp] theorem mHdr_gas (i : Nat) (f : Hdr → Hdr) : (mHdr i f s).gas = s.gas := rfl
@[simp] theorem mHdr_opt (i : Nat) (f : Hdr → Hdr) : (mHdr i f s).opt = s.opt := rfl
@[simp] theorem mHdr_spx (i : Nat) (f : Hdr → Hdr) : (mHdr i f s).spx = s.spx := rfl
@[simp] theorem mHdr_syn (i : Nat) (f : Hdr → Hdr) : (mHdr i f s).syn = s.syn := rfl
@[simp] theorem mHdr_rtr (i : Nat) (f : Hdr → Hdr) : (mHdr i f s).rtr = s.rtr := rfl
@[simp] theorem mHdr_lnk (i : Nat) (f : Hdr → Hdr) : (mHdr i f s).lnk = s.lnk := rfl
@[simp] theorem mHdr_lsu (i : Nat) (f : Hdr → Hdr) : (mHdr i f s).lsu = s.lsu := rfl
@[simp] theorem mHdr_rru (i : Nat) (f : Hdr → Hdr) : (mHdr i f s).rru = s.rru := rfl
@[simp] theorem mHdr_flt (i : Nat) (f : Hdr → Hdr) : (mHdr i f s).flt = s.flt := rfl
@[simp] theorem mHdr_pwr (i : Nat) (f : Hdr → Hdr) : (mHdr i f s).pwr = s.pwr := rfl
@[simp] theorem mHdr_rst (i : Nat) (f : Hdr → Hdr) : (mHdr i f s).rst = s.rst := rfl
@[simp] theorem mHdr_dbg (i : Nat) (f : Hdr → Hdr) : (mHdr i f s).dbg = s.dbg := rfl

@[simp] theorem mRing_ccc (i : Nat) (f : Ring → Ring) : (mRing i f s).ccc = s.ccc := rfl
@[simp] theorem mRing_tick (i : Nat) (f : Ring → Ring) : (mRing i f s).tick = s.tick := rfl
@[simp] theorem mRing_free (i : Nat) (f : Ring → Ring) : (mRing i f s).free = s.free := rfl
@[simp] theorem mRing_pending (i : Nat) (f : Ring → Ring) : (mRing i f s).pending = s.pending := rfl
@[simp] theorem mRing_hdrs (i : Nat) (f : Ring → Ring) : (mRing i f s).hdrs = s.hdrs := rfl
@[simp] theorem mRing_heldLow (i : Nat) (f : Ring → Ring) : (mRing i f s).heldLow = s.heldLow := rfl
@[simp] theorem mRing_msix (i : Nat) (f : Ring → Ring) : (mRing i f s).msix = s.msix := rfl
@[simp] theorem mRing_mem (i : Nat) (f : Ring → Ring) : (mRing i f s).mem = s.mem := rfl
@[simp] theorem mRing_emp (i : Nat) (f : Ring → Ring) : (mRing i f s).emp = s.emp := rfl
@[simp] theorem mRing_ctl (i : Nat) (f : Ring → Ring) : (mRing i f s).ctl = s.ctl := rfl
@[simp] theorem mRing_tiles (i : Nat) (f : Ring → Ring) : (mRing i f s).tiles = s.tiles := rfl
@[simp] theorem mRing_tpl (i : Nat) (f : Ring → Ring) : (mRing i f s).tpl = s.tpl := rfl
@[simp] theorem mRing_ses (i : Nat) (f : Ring → Ring) : (mRing i f s).ses = s.ses := rfl
@[simp] theorem mRing_trk (i : Nat) (f : Ring → Ring) : (mRing i f s).trk = s.trk := rfl
@[simp] theorem mRing_red (i : Nat) (f : Ring → Ring) : (mRing i f s).red = s.red := rfl
@[simp] theorem mRing_fin (i : Nat) (f : Ring → Ring) : (mRing i f s).fin = s.fin := rfl
@[simp] theorem mRing_row (i : Nat) (f : Ring → Ring) : (mRing i f s).row = s.row := rfl
@[simp] theorem mRing_gas (i : Nat) (f : Ring → Ring) : (mRing i f s).gas = s.gas := rfl
@[simp] theorem mRing_opt (i : Nat) (f : Ring → Ring) : (mRing i f s).opt = s.opt := rfl
@[simp] theorem mRing_spx (i : Nat) (f : Ring → Ring) : (mRing i f s).spx = s.spx := rfl
@[simp] theorem mRing_syn (i : Nat) (f : Ring → Ring) : (mRing i f s).syn = s.syn := rfl
@[simp] theorem mRing_rtr (i : Nat) (f : Ring → Ring) : (mRing i f s).rtr = s.rtr := rfl
@[simp] theorem mRing_lnk (i : Nat) (f : Ring → Ring) : (mRing i f s).lnk = s.lnk := rfl
@[simp] theorem mRing_lsu (i : Nat) (f : Ring → Ring) : (mRing i f s).lsu = s.lsu := rfl
@[simp] theorem mRing_rru (i : Nat) (f : Ring → Ring) : (mRing i f s).rru = s.rru := rfl
@[simp] theorem mRing_flt (i : Nat) (f : Ring → Ring) : (mRing i f s).flt = s.flt := rfl
@[simp] theorem mRing_pwr (i : Nat) (f : Ring → Ring) : (mRing i f s).pwr = s.pwr := rfl
@[simp] theorem mRing_rst (i : Nat) (f : Ring → Ring) : (mRing i f s).rst = s.rst := rfl
@[simp] theorem mRing_dbg (i : Nat) (f : Ring → Ring) : (mRing i f s).dbg = s.dbg := rfl

@[simp] theorem mPort_ccc (i : Nat) (f : Port → Port) : (mPort i f s).ccc = s.ccc := rfl
@[simp] theorem mPort_tick (i : Nat) (f : Port → Port) : (mPort i f s).tick = s.tick := rfl
@[simp] theorem mPort_free (i : Nat) (f : Port → Port) : (mPort i f s).free = s.free := rfl
@[simp] theorem mPort_pending (i : Nat) (f : Port → Port) : (mPort i f s).pending = s.pending := rfl
@[simp] theorem mPort_hdrs (i : Nat) (f : Port → Port) : (mPort i f s).hdrs = s.hdrs := rfl
@[simp] theorem mPort_heldLow (i : Nat) (f : Port → Port) : (mPort i f s).heldLow = s.heldLow := rfl
@[simp] theorem mPort_msix (i : Nat) (f : Port → Port) : (mPort i f s).msix = s.msix := rfl
@[simp] theorem mPort_mem (i : Nat) (f : Port → Port) : (mPort i f s).mem = s.mem := rfl
@[simp] theorem mPort_emp (i : Nat) (f : Port → Port) : (mPort i f s).emp = s.emp := rfl
@[simp] theorem mPort_ctl (i : Nat) (f : Port → Port) : (mPort i f s).ctl = s.ctl := rfl
@[simp] theorem mPort_que (i : Nat) (f : Port → Port) : (mPort i f s).que = s.que := rfl
@[simp] theorem mPort_tiles (i : Nat) (f : Port → Port) : (mPort i f s).tiles = s.tiles := rfl
@[simp] theorem mPort_tpl (i : Nat) (f : Port → Port) : (mPort i f s).tpl = s.tpl := rfl
@[simp] theorem mPort_ses (i : Nat) (f : Port → Port) : (mPort i f s).ses = s.ses := rfl
@[simp] theorem mPort_trk (i : Nat) (f : Port → Port) : (mPort i f s).trk = s.trk := rfl
@[simp] theorem mPort_red (i : Nat) (f : Port → Port) : (mPort i f s).red = s.red := rfl
@[simp] theorem mPort_fin (i : Nat) (f : Port → Port) : (mPort i f s).fin = s.fin := rfl
@[simp] theorem mPort_row (i : Nat) (f : Port → Port) : (mPort i f s).row = s.row := rfl
@[simp] theorem mPort_gas (i : Nat) (f : Port → Port) : (mPort i f s).gas = s.gas := rfl
@[simp] theorem mPort_opt (i : Nat) (f : Port → Port) : (mPort i f s).opt = s.opt := rfl
@[simp] theorem mPort_spx (i : Nat) (f : Port → Port) : (mPort i f s).spx = s.spx := rfl
@[simp] theorem mPort_syn (i : Nat) (f : Port → Port) : (mPort i f s).syn = s.syn := rfl
@[simp] theorem mPort_rtr (i : Nat) (f : Port → Port) : (mPort i f s).rtr = s.rtr := rfl
@[simp] theorem mPort_lsu (i : Nat) (f : Port → Port) : (mPort i f s).lsu = s.lsu := rfl
@[simp] theorem mPort_rru (i : Nat) (f : Port → Port) : (mPort i f s).rru = s.rru := rfl
@[simp] theorem mPort_flt (i : Nat) (f : Port → Port) : (mPort i f s).flt = s.flt := rfl
@[simp] theorem mPort_pwr (i : Nat) (f : Port → Port) : (mPort i f s).pwr = s.pwr := rfl
@[simp] theorem mPort_rst (i : Nat) (f : Port → Port) : (mPort i f s).rst = s.rst := rfl
@[simp] theorem mPort_dbg (i : Nat) (f : Port → Port) : (mPort i f s).dbg = s.dbg := rfl

@[simp] theorem mBkt_ccc (i : Nat) (f : Bkt → Bkt) : (mBkt i f s).ccc = s.ccc := rfl
@[simp] theorem mBkt_tick (i : Nat) (f : Bkt → Bkt) : (mBkt i f s).tick = s.tick := rfl
@[simp] theorem mBkt_free (i : Nat) (f : Bkt → Bkt) : (mBkt i f s).free = s.free := rfl
@[simp] theorem mBkt_pending (i : Nat) (f : Bkt → Bkt) : (mBkt i f s).pending = s.pending := rfl
@[simp] theorem mBkt_hdrs (i : Nat) (f : Bkt → Bkt) : (mBkt i f s).hdrs = s.hdrs := rfl
@[simp] theorem mBkt_heldLow (i : Nat) (f : Bkt → Bkt) : (mBkt i f s).heldLow = s.heldLow := rfl
@[simp] theorem mBkt_msix (i : Nat) (f : Bkt → Bkt) : (mBkt i f s).msix = s.msix := rfl
@[simp] theorem mBkt_mem (i : Nat) (f : Bkt → Bkt) : (mBkt i f s).mem = s.mem := rfl
@[simp] theorem mBkt_emp (i : Nat) (f : Bkt → Bkt) : (mBkt i f s).emp = s.emp := rfl
@[simp] theorem mBkt_ctl (i : Nat) (f : Bkt → Bkt) : (mBkt i f s).ctl = s.ctl := rfl
@[simp] theorem mBkt_que (i : Nat) (f : Bkt → Bkt) : (mBkt i f s).que = s.que := rfl
@[simp] theorem mBkt_tiles (i : Nat) (f : Bkt → Bkt) : (mBkt i f s).tiles = s.tiles := rfl
@[simp] theorem mBkt_tpl (i : Nat) (f : Bkt → Bkt) : (mBkt i f s).tpl = s.tpl := rfl
@[simp] theorem mBkt_ses (i : Nat) (f : Bkt → Bkt) : (mBkt i f s).ses = s.ses := rfl
@[simp] theorem mBkt_trk (i : Nat) (f : Bkt → Bkt) : (mBkt i f s).trk = s.trk := rfl
@[simp] theorem mBkt_red (i : Nat) (f : Bkt → Bkt) : (mBkt i f s).red = s.red := rfl
@[simp] theorem mBkt_fin (i : Nat) (f : Bkt → Bkt) : (mBkt i f s).fin = s.fin := rfl
@[simp] theorem mBkt_row (i : Nat) (f : Bkt → Bkt) : (mBkt i f s).row = s.row := rfl
@[simp] theorem mBkt_opt (i : Nat) (f : Bkt → Bkt) : (mBkt i f s).opt = s.opt := rfl
@[simp] theorem mBkt_spx (i : Nat) (f : Bkt → Bkt) : (mBkt i f s).spx = s.spx := rfl
@[simp] theorem mBkt_syn (i : Nat) (f : Bkt → Bkt) : (mBkt i f s).syn = s.syn := rfl
@[simp] theorem mBkt_rtr (i : Nat) (f : Bkt → Bkt) : (mBkt i f s).rtr = s.rtr := rfl
@[simp] theorem mBkt_lnk (i : Nat) (f : Bkt → Bkt) : (mBkt i f s).lnk = s.lnk := rfl
@[simp] theorem mBkt_lsu (i : Nat) (f : Bkt → Bkt) : (mBkt i f s).lsu = s.lsu := rfl
@[simp] theorem mBkt_rru (i : Nat) (f : Bkt → Bkt) : (mBkt i f s).rru = s.rru := rfl
@[simp] theorem mBkt_flt (i : Nat) (f : Bkt → Bkt) : (mBkt i f s).flt = s.flt := rfl
@[simp] theorem mBkt_pwr (i : Nat) (f : Bkt → Bkt) : (mBkt i f s).pwr = s.pwr := rfl
@[simp] theorem mBkt_rst (i : Nat) (f : Bkt → Bkt) : (mBkt i f s).rst = s.rst := rfl
@[simp] theorem mBkt_dbg (i : Nat) (f : Bkt → Bkt) : (mBkt i f s).dbg = s.dbg := rfl

@[simp] theorem mObj_ccc (i : Nat) (f : Obj → Obj) : (mObj i f s).ccc = s.ccc := rfl
@[simp] theorem mObj_tick (i : Nat) (f : Obj → Obj) : (mObj i f s).tick = s.tick := rfl
@[simp] theorem mObj_free (i : Nat) (f : Obj → Obj) : (mObj i f s).free = s.free := rfl
@[simp] theorem mObj_pending (i : Nat) (f : Obj → Obj) : (mObj i f s).pending = s.pending := rfl
@[simp] theorem mObj_hdrs (i : Nat) (f : Obj → Obj) : (mObj i f s).hdrs = s.hdrs := rfl
@[simp] theorem mObj_heldLow (i : Nat) (f : Obj → Obj) : (mObj i f s).heldLow = s.heldLow := rfl
@[simp] theorem mObj_msix (i : Nat) (f : Obj → Obj) : (mObj i f s).msix = s.msix := rfl
@[simp] theorem mObj_mem (i : Nat) (f : Obj → Obj) : (mObj i f s).mem = s.mem := rfl
@[simp] theorem mObj_emp (i : Nat) (f : Obj → Obj) : (mObj i f s).emp = s.emp := rfl
@[simp] theorem mObj_ctl (i : Nat) (f : Obj → Obj) : (mObj i f s).ctl = s.ctl := rfl
@[simp] theorem mObj_que (i : Nat) (f : Obj → Obj) : (mObj i f s).que = s.que := rfl
@[simp] theorem mObj_tiles (i : Nat) (f : Obj → Obj) : (mObj i f s).tiles = s.tiles := rfl
@[simp] theorem mObj_tpl (i : Nat) (f : Obj → Obj) : (mObj i f s).tpl = s.tpl := rfl
@[simp] theorem mObj_ses (i : Nat) (f : Obj → Obj) : (mObj i f s).ses = s.ses := rfl
@[simp] theorem mObj_trk (i : Nat) (f : Obj → Obj) : (mObj i f s).trk = s.trk := rfl
@[simp] theorem mObj_red (i : Nat) (f : Obj → Obj) : (mObj i f s).red = s.red := rfl
@[simp] theorem mObj_fin (i : Nat) (f : Obj → Obj) : (mObj i f s).fin = s.fin := rfl
@[simp] theorem mObj_row (i : Nat) (f : Obj → Obj) : (mObj i f s).row = s.row := rfl
@[simp] theorem mObj_gas (i : Nat) (f : Obj → Obj) : (mObj i f s).gas = s.gas := rfl
@[simp] theorem mObj_opt (i : Nat) (f : Obj → Obj) : (mObj i f s).opt = s.opt := rfl
@[simp] theorem mObj_spx (i : Nat) (f : Obj → Obj) : (mObj i f s).spx = s.spx := rfl
@[simp] theorem mObj_rtr (i : Nat) (f : Obj → Obj) : (mObj i f s).rtr = s.rtr := rfl
@[simp] theorem mObj_lnk (i : Nat) (f : Obj → Obj) : (mObj i f s).lnk = s.lnk := rfl
@[simp] theorem mObj_lsu (i : Nat) (f : Obj → Obj) : (mObj i f s).lsu = s.lsu := rfl
@[simp] theorem mObj_rru (i : Nat) (f : Obj → Obj) : (mObj i f s).rru = s.rru := rfl
@[simp] theorem mObj_flt (i : Nat) (f : Obj → Obj) : (mObj i f s).flt = s.flt := rfl
@[simp] theorem mObj_pwr (i : Nat) (f : Obj → Obj) : (mObj i f s).pwr = s.pwr := rfl
@[simp] theorem mObj_rst (i : Nat) (f : Obj → Obj) : (mObj i f s).rst = s.rst := rfl
@[simp] theorem mObj_dbg (i : Nat) (f : Obj → Obj) : (mObj i f s).dbg = s.dbg := rfl

@[simp] theorem mWin_ccc (i : Nat) (f : Window → Window) : (mWin i f s).ccc = s.ccc := rfl
@[simp] theorem mWin_tick (i : Nat) (f : Window → Window) : (mWin i f s).tick = s.tick := rfl
@[simp] theorem mWin_free (i : Nat) (f : Window → Window) : (mWin i f s).free = s.free := rfl
@[simp] theorem mWin_pending (i : Nat) (f : Window → Window) : (mWin i f s).pending = s.pending := rfl
@[simp] theorem mWin_hdrs (i : Nat) (f : Window → Window) : (mWin i f s).hdrs = s.hdrs := rfl
@[simp] theorem mWin_heldLow (i : Nat) (f : Window → Window) : (mWin i f s).heldLow = s.heldLow := rfl
@[simp] theorem mWin_msix (i : Nat) (f : Window → Window) : (mWin i f s).msix = s.msix := rfl
@[simp] theorem mWin_mem (i : Nat) (f : Window → Window) : (mWin i f s).mem = s.mem := rfl
@[simp] theorem mWin_emp (i : Nat) (f : Window → Window) : (mWin i f s).emp = s.emp := rfl
@[simp] theorem mWin_ctl (i : Nat) (f : Window → Window) : (mWin i f s).ctl = s.ctl := rfl
@[simp] theorem mWin_que (i : Nat) (f : Window → Window) : (mWin i f s).que = s.que := rfl
@[simp] theorem mWin_tiles (i : Nat) (f : Window → Window) : (mWin i f s).tiles = s.tiles := rfl
@[simp] theorem mWin_tpl (i : Nat) (f : Window → Window) : (mWin i f s).tpl = s.tpl := rfl
@[simp] theorem mWin_ses (i : Nat) (f : Window → Window) : (mWin i f s).ses = s.ses := rfl
@[simp] theorem mWin_trk (i : Nat) (f : Window → Window) : (mWin i f s).trk = s.trk := rfl
@[simp] theorem mWin_red (i : Nat) (f : Window → Window) : (mWin i f s).red = s.red := rfl
@[simp] theorem mWin_fin (i : Nat) (f : Window → Window) : (mWin i f s).fin = s.fin := rfl
@[simp] theorem mWin_row (i : Nat) (f : Window → Window) : (mWin i f s).row = s.row := rfl
@[simp] theorem mWin_gas (i : Nat) (f : Window → Window) : (mWin i f s).gas = s.gas := rfl
@[simp] theorem mWin_opt (i : Nat) (f : Window → Window) : (mWin i f s).opt = s.opt := rfl
@[simp] theorem mWin_spx (i : Nat) (f : Window → Window) : (mWin i f s).spx = s.spx := rfl
@[simp] theorem mWin_rtr (i : Nat) (f : Window → Window) : (mWin i f s).rtr = s.rtr := rfl
@[simp] theorem mWin_lnk (i : Nat) (f : Window → Window) : (mWin i f s).lnk = s.lnk := rfl
@[simp] theorem mWin_lsu (i : Nat) (f : Window → Window) : (mWin i f s).lsu = s.lsu := rfl
@[simp] theorem mWin_rru (i : Nat) (f : Window → Window) : (mWin i f s).rru = s.rru := rfl
@[simp] theorem mWin_flt (i : Nat) (f : Window → Window) : (mWin i f s).flt = s.flt := rfl
@[simp] theorem mWin_pwr (i : Nat) (f : Window → Window) : (mWin i f s).pwr = s.pwr := rfl
@[simp] theorem mWin_rst (i : Nat) (f : Window → Window) : (mWin i f s).rst = s.rst := rfl
@[simp] theorem mWin_dbg (i : Nat) (f : Window → Window) : (mWin i f s).dbg = s.dbg := rfl

end Sys2Proof.Laws
end

