-- ==== Sys2Proof/Laws/Parts.lean ====
section
/-! SUPPORT. Laws/Parts.lean: the elements of the state's arrays: what each reads as after an update, and that two updates
of one element are one. -/

namespace Sys2Proof.Laws

open Sys2Proof.Machine Sys2Proof.Safety

variable {α : Type} {s : State}

theorem sparse_erase_insert {m : Sparse α} (i : Nat) (v : α) : Sparse.erase (Sparse.insert i v m) i = Sparse.erase m i := by
  induction m with
  | nil => simp [Sparse.erase, Sparse.insert]
  | cons q m ih =>
    simp only [Sparse.insert]
    split
    · simp [Sparse.erase]
    · simp only [Sparse.erase, List.filter_cons] at ih ⊢
      rw [ih]

theorem sparse_erase_erase {m : Sparse α} (i : Nat) : Sparse.erase (Sparse.erase m i) i = Sparse.erase m i := by
  simp [Sparse.erase, List.filter_filter]

theorem sparse_set_set [DecidableEq α] (d : α) (m : Sparse α) (i : Nat) (a b : α) :
    Sparse.set d (Sparse.set d m i a) i b = Sparse.set d m i b := by
  have e : Sparse.erase (Sparse.set d m i a) i = Sparse.erase m i := by
    unfold Sparse.set
    split
    · exact sparse_erase_erase i
    · rw [sparse_erase_insert, sparse_erase_erase]
  simp only [Sparse.set] at e ⊢
  rw [e]

theorem sparse_modify_modify [DecidableEq α] (d : α) (m : Sparse α) (i : Nat) (f g : α → α) :
    Sparse.modify d (Sparse.modify d m i f) i g = Sparse.modify d m i (fun x => g (f x)) := by
  simp only [Sparse.modify, sparse_set_set, sparse_get_set_self]

theorem sparse_modify_congr [DecidableEq α] (d : α) (m : Sparse α) (i : Nat) {f g : α → α}
    (h : f (Sparse.get d m i) = g (Sparse.get d m i)) : Sparse.modify d m i f = Sparse.modify d m i g := by
  simp only [Sparse.modify, h]

theorem tileOf_mTile (i j : Nat) (f : Tile → Tile) : tileOf (mTile i f s) j = if j = i then f (tileOf s i) else tileOf s j :=
  sparse_get_modify _ _ _ _ _

theorem mTile_mTile (i : Nat) (f g : Tile → Tile) : mTile i g (mTile i f s) = mTile i (fun x => g (f x)) s := by
  simp only [mTile, sparse_modify_modify]

theorem mTile_congr (i : Nat) {f g : Tile → Tile} (h : f (tileOf s i) = g (tileOf s i)) : mTile i f s = mTile i g s := by
  simp only [mTile, sparse_modify_congr _ _ _ h]

theorem ringOf_mRing (i j : Nat) (f : Ring → Ring) : ringOf (mRing i f s) j = if j = i then f (ringOf s i) else ringOf s j :=
  sparse_get_modify _ _ _ _ _

theorem mRing_mRing (i : Nat) (f g : Ring → Ring) : mRing i g (mRing i f s) = mRing i (fun x => g (f x)) s := by
  simp only [mRing, mQue, sparse_modify_modify]

theorem mRing_congr (i : Nat) {f g : Ring → Ring} (h : f (ringOf s i) = g (ringOf s i)) : mRing i f s = mRing i g s := by
  simp only [mRing, mQue, sparse_modify_congr _ _ _ h]

theorem portOf_mPort (i j : Nat) (f : Port → Port) : portOf (mPort i f s) j = if j = i then f (portOf s i) else portOf s j :=
  sparse_get_modify _ _ _ _ _

theorem mPort_mPort (i : Nat) (f g : Port → Port) : mPort i g (mPort i f s) = mPort i (fun x => g (f x)) s := by
  simp only [mPort, mLnk, sparse_modify_modify]

theorem mPort_congr (i : Nat) {f g : Port → Port} (h : f (portOf s i) = g (portOf s i)) : mPort i f s = mPort i g s := by
  simp only [mPort, mLnk, sparse_modify_congr _ _ _ h]

theorem bktOf_mBkt (i j : Nat) (f : Bkt → Bkt) : bktOf (mBkt i f s) j = if j = i then f (bktOf s i) else bktOf s j :=
  sparse_get_modify _ _ _ _ _

theorem mBkt_mBkt (i : Nat) (f g : Bkt → Bkt) : mBkt i g (mBkt i f s) = mBkt i (fun x => g (f x)) s := by
  simp only [mBkt, mGas, sparse_modify_modify]

theorem mBkt_congr (i : Nat) {f g : Bkt → Bkt} (h : f (bktOf s i) = g (bktOf s i)) : mBkt i f s = mBkt i g s := by
  simp only [mBkt, mGas, sparse_modify_congr _ _ _ h]

theorem objOf_mObj (i j : Nat) (f : Obj → Obj) : objOf (mObj i f s) j = if j = i then f (objOf s i) else objOf s j :=
  sparse_get_modify _ _ _ _ _

theorem mObj_mObj (i : Nat) (f g : Obj → Obj) : mObj i g (mObj i f s) = mObj i (fun x => g (f x)) s := by
  simp only [mObj, mSyn, sparse_modify_modify]

theorem mObj_congr (i : Nat) {f g : Obj → Obj} (h : f (objOf s i) = g (objOf s i)) : mObj i f s = mObj i g s := by
  simp only [mObj, mSyn, sparse_modify_congr _ _ _ h]

theorem winOf_mWin (i j : Nat) (f : Window → Window) : winOf (mWin i f s) j = if j = i then f (winOf s i) else winOf s j :=
  sparse_get_modify _ _ _ _ _

theorem mWin_mWin (i : Nat) (f g : Window → Window) : mWin i g (mWin i f s) = mWin i (fun x => g (f x)) s := by
  simp only [mWin, mSyn, sparse_modify_modify]

theorem mWin_congr (i : Nat) {f g : Window → Window} (h : f (winOf s i) = g (winOf s i)) : mWin i f s = mWin i g s := by
  simp only [mWin, mSyn, sparse_modify_congr _ _ _ h]

theorem hdrOf_mHdr (i j : Nat) (f : Hdr → Hdr) : hdrOf (mHdr i f s) j = if j = i then f (hdrOf s i) else hdrOf s j :=
  sparse_get_modify _ _ _ _ _

theorem mHdr_mHdr (i : Nat) (f g : Hdr → Hdr) : mHdr i g (mHdr i f s) = mHdr i (fun x => g (f x)) s := by
  simp only [mHdr, sparse_modify_modify]

theorem mHdr_congr (i : Nat) {f g : Hdr → Hdr} (h : f (hdrOf s i) = g (hdrOf s i)) : mHdr i f s = mHdr i g s := by
  simp only [mHdr, sparse_modify_congr _ _ _ h]

theorem slotGet_putSlot (i j : Nat) (x : Session) : slot? (putSlot i x s) j = if j = i then some x else slot? s j := by
  have e : ∀ l : List (Nat × Session), (∀ p ∈ l, p.1 ≠ i) → assoc? (Sparse.insert i x l) j = if j = i then some x else assoc? l j := by
    intro l hl
    induction l with
    | nil => by_cases h : j = i <;> simp [Sparse.insert, assoc?, h, Ne.symm]
    | cons q l ih =>
      have hq := hl q (by simp)
      have ih := ih fun p hp => hl p (by simp [hp])
      simp only [Sparse.insert]
      split
      · by_cases h : j = i
        · simp [assoc?, h]
        · have : (i == j) = false := by simpa using fun k => h k.symm
          simp [assoc?, h, this]
      · by_cases h : q.1 = j
        · have : j ≠ i := fun k => hq (h.trans k)
          simp [assoc?, h, this]
        · have hb : (q.1 == j) = false := by simpa using h
          simpa [assoc?, hb] using ih
  have f : ∀ l : List (Nat × Session), j ≠ i → assoc? (assocErase l i) j = assoc? l j := by
    intro l hj
    simp only [assoc?, assocErase, List.find?_filter]
    congr 2
    funext p
    by_cases h : p.1 = j
    · simp [h, hj]
    · simp [h]
  show assoc? (Sparse.insert i x (assocErase s.ses.slots i)) j = _
  rw [e _ fun p hp => by simpa using (List.mem_filter.1 hp).2]
  split
  · rfl
  · rename_i h; exact f _ h

theorem slotGet_mSlot (i j : Nat) (f : Session → Session) :
    slot? (mSlot i f s) j = if j = i then (slot? s i).map f else slot? s j := by
  unfold mSlot
  split
  · rename_i h; split
    · rename_i e; rw [e, h]; rfl
    · rfl
  · rename_i x h; rw [slotGet_putSlot, h]; rfl

/-- A counter goes up by n and stays at its limit; reaching it sets SAT of its page as well (16 R472). -/
theorem bump_eq {w : Nat} (p : Nat) (get : State → BitVec w) (put : BitVec w → State → State) (n : Nat) (s : State) :
    bump p get put n s = put (satAdd (get s) n) s ∨ bump p get put n s = setSat p (put (satAdd (get s) n) s) := by
  unfold bump; dsimp only; split
  · exact .inr rfl
  · exact .inl rfl

/-- A vector that is not masked becomes pending, unless its request is outstanding. -/
theorem pending_raiseVec (v : Nat) (h : vecMasked s v = false) :
    Sparse.get false (raiseVec v s).msix.pendingVecs v = true ∨ (raiseVec v s).msix.outstanding = some (BitVec.ofNat 9 v) := by
  unfold raiseVec
  split
  · rename_i c
    simp only [h, Bool.false_or, beq_iff_eq] at c
    exact .inr c
  · simp only [sparse_get_set_self, true_or]

/-- A message to the CMC changes FLT's MBX_LOST alone, or nothing, of page FLT. -/
theorem flt_sendMbx (type : Nat) (ws : List W32) (s : State) :
    (sendMbx type ws s).flt = s.flt ∨ (sendMbx type ws s).flt = { s.flt with mbxLost := true } := by
  unfold sendMbx
  split
  · exact .inl rfl
  · split
    · exact .inr rfl
    · exact .inl rfl

end Sys2Proof.Laws
end

