-- ==== Sys2Proof/Laws/PerInstr.lean ====
section
/-! SUPPORT. Laws/PerInstr.lean: the family Queue: no command's frame has the queue of waiting commands among the parts
that the command may change. -/

namespace Sys2Proof.Laws.Queue

open Sys2Proof.Machine

/-- The queue is not among the parts that a command may change. -/
def Statement (i : Instr) : Prop := Safety.Group.pending ∉ Safety.touches i

theorem of_elem {i : Instr} (h : (Safety.touches i).elem .pending = false) : Statement i :=
  fun m => by rw [List.elem_eq_true_of_mem m] at h; cases h

theorem tailTransfer (port : Fin 64) (word : W64) (ecc : Ecc) : Statement (.tailTransfer port word ecc) := of_elem rfl
theorem cdataBeat (port : Fin 64) (beat : BitVec 512) (last : Bool) (ecc : Ecc) : Statement (.cdataBeat port beat last ecc) := of_elem rfl
theorem ddataDeposit (port : Fin 64) (header : W64) (beat : BitVec 512) (ecc : Ecc) : Statement (.ddataDeposit port header beat ecc) := of_elem rfl
theorem odataTransfer (port : Fin 64) : Statement (.odataTransfer port) := of_elem rfl
theorem intakeSlot : Statement .intakeSlot := of_elem rfl
theorem expertDispatchRoute (slot : Fin 4096) : Statement (.expertDispatchRoute slot) := of_elem rfl
theorem chunkIssue : Statement .chunkIssue := of_elem rfl
theorem tagExhausted : Statement .tagExhausted := of_elem rfl
theorem chunkRetire (tag : Fin 65536) : Statement (.chunkRetire tag) := of_elem rfl
theorem msixRequest (vec : Fin 262) : Statement (.msixRequest vec) := of_elem rfl
theorem msixAck : Statement .msixAck := of_elem rfl
theorem csqWdogKick : Statement .csqWdogKick := of_elem rfl
theorem csqWatchdog : Statement .csqWatchdog := of_elem rfl
theorem sequencerResume : Statement .sequencerResume := of_elem rfl
theorem rdataReturn (tag : EmpTag) (poison : Byte) (ecc : Ecc) : Statement (.rdataReturn tag poison ecc) := of_elem rfl
theorem wackReturn (tag : EmpTag) : Statement (.wackReturn tag) := of_elem rfl
theorem schedModeLost (cause : SchedCause) : Statement (.schedModeLost cause) := of_elem rfl
theorem empTimingWrite (value : W32) : Statement (.empTimingWrite value) := of_elem rfl
theorem configWrite (who : Requester) (word : BitVec 22) (value : W32) : Statement (.configWrite who word value) := of_elem rfl
theorem mbxInDoorbell (value : W32) : Statement (.mbxInDoorbell value) := of_elem rfl
theorem mbxOutDbClear (value : W32) : Statement (.mbxOutDbClear value) := of_elem rfl
theorem keyLoad (slot : Fin 40) (key : BitVec 256) (fixed : W32) : Statement (.keyLoad slot key fixed) := of_elem rfl
theorem keyReq (port : Fin 10) (dir : Dir) : Statement (.keyReq port dir) := of_elem rfl
theorem keyTimeout (port : Fin 10) (dir : Dir) : Statement (.keyTimeout port dir) := of_elem rfl
theorem zeroise : Statement .zeroise := of_elem rfl
theorem attMessage (port : Fin 10) (msg : Byte) (bytes : List Byte) : Statement (.attMessage port msg bytes) := of_elem rfl
theorem attestationFlit (port : Fin 10) (flit : PhyFlit) : Statement (.attestationFlit port flit) := of_elem rfl
theorem attestTimeout (port : Fin 10) : Statement (.attestTimeout port) := of_elem rfl
theorem dozeRequest : Statement .dozeRequest := of_elem rfl
theorem sleepRequest : Statement .sleepRequest := of_elem rfl
theorem sleepEntryDone : Statement .sleepEntryDone := of_elem rfl
theorem runRequest : Statement .runRequest := of_elem rfl
theorem wakeSource (cause : WakeFrom) : Statement (.wakeSource cause) := of_elem rfl
theorem pwrGood : Statement .pwrGood := of_elem rfl
theorem sleepWakeDone : Statement .sleepWakeDone := of_elem rfl
theorem dozeWakeDone : Statement .dozeWakeDone := of_elem rfl
theorem thrLimitChange (limit : Byte) : Statement (.thrLimitChange limit) := of_elem rfl
theorem throttleInForce : Statement .throttleInForce := of_elem rfl
theorem peakClr (value : W32) : Statement (.peakClr value) := of_elem rfl
theorem rstColdN : Statement .rstColdN := of_elem rfl
theorem rstWarmN : Statement .rstWarmN := of_elem rfl
theorem rstEngN : Statement .rstEngN := of_elem rfl
theorem rstDone : Statement .rstDone := of_elem rfl
theorem ctxRstReq (ctx : Fin 64) : Statement (.ctxRstReq ctx) := of_elem rfl
theorem ctxRstAck (ctx : Fin 64) : Statement (.ctxRstAck ctx) := of_elem rfl
theorem debugFreezeRequest (source : FreezeSource) : Statement (.debugFreezeRequest source) := of_elem rfl
theorem debugFreezeDone : Statement .debugFreezeDone := of_elem rfl
theorem debugFreezeEnd (source : FreezeSource) : Statement (.debugFreezeEnd source) := of_elem rfl
theorem dbgSelWrite (value : DbgWrite) : Statement (.dbgSelWrite value) := of_elem rfl
theorem dbgDataRead (high : DbgRead) : Statement (.dbgDataRead high) := of_elem rfl
theorem ringMapWrite (value : W32) : Statement (.ringMapWrite value) := of_elem rfl
theorem routeHold : Statement .routeHold := of_elem rfl
theorem holdDone : Statement .holdDone := of_elem rfl
theorem routeHoldRelease : Statement .routeHoldRelease := of_elem rfl
theorem headerRoute (input : Fin 11) : Statement (.headerRoute input) := of_elem rfl
theorem phyLock (port : Fin 10) : Statement (.phyLock port) := of_elem rfl
theorem linkLost (port : Fin 10) (lock : Bool) (laneOk : W16) : Statement (.linkLost port lock laneOk) := of_elem rfl
theorem trainingFlit (port : Fin 10) (flit : PhyFlit) : Statement (.trainingFlit port flit) := of_elem rfl
theorem trainingTimeout (port : Fin 10) : Statement (.trainingTimeout port) := of_elem rfl
theorem portRetrain (port : Fin 10) (value : W32) : Statement (.portRetrain port value) := of_elem rfl
theorem portMapWrite (port : Fin 10) (value : W32) : Statement (.portMapWrite port value) := of_elem rfl
theorem flitReceive (port : Fin 10) (flit : BitVec 1024) (frame : W32) (index : Fin 63) (uncorrectable : Bool) (fecCorr : Byte) : Statement (.flitReceive port flit frame index uncorrectable fecCorr) := of_elem rfl
theorem lcfReceive (port : Fin 10) (flit : PhyFlit) (uncorrectable : Bool) : Statement (.lcfReceive port flit uncorrectable) := of_elem rfl
theorem lcfSend (port : Fin 10) : Statement (.lcfSend port) := of_elem rfl
theorem retryTimeout (port : Fin 10) : Statement (.retryTimeout port) := of_elem rfl
theorem chunkReceive : Statement .chunkReceive := of_elem rfl
theorem doorbell (who : Requester) (ctx : Fin 64) (ring : Fin 256) (count : W32) : Statement (.doorbell who ctx ring count) := of_elem rfl
theorem tplInstall : Statement .tplInstall := of_elem rfl
theorem tplRead : Statement .tplRead := of_elem rfl
theorem tplInvalidate : Statement .tplInvalidate := of_elem rfl
theorem regionEntryWrite (value : W32) : Statement (.regionEntryWrite value) := of_elem rfl
theorem ringEnable (value : W32) : Statement (.ringEnable value) := of_elem rfl
theorem ringDisable (value : W32) : Statement (.ringDisable value) := of_elem rfl
theorem abort : Statement .abort := of_elem rfl
theorem nodeCombine (slot : Fin 4096) (seq : W32) (level : Fin 5) (node : Fin 16) : Statement (.nodeCombine slot seq level node) := of_elem rfl
theorem absent : Statement .absent := of_elem rfl
theorem redFailLogClear (value : W32) : Statement (.redFailLogClear value) := of_elem rfl
theorem admissionScan : Statement .admissionScan := of_elem rfl
theorem grant : Statement .grant := of_elem rfl
theorem revoke : Statement .revoke := of_elem rfl
theorem admitMsg : Statement .admitMsg := of_elem rfl
theorem firm : Statement .firm := of_elem rfl
theorem refuse : Statement .refuse := of_elem rfl
theorem retract : Statement .retract := of_elem rfl
theorem go : Statement .go := of_elem rfl
theorem stageAfterTimeout (slot : Fin 4096) : Statement (.stageAfterTimeout slot) := of_elem rfl
theorem slotReturn : Statement .slotReturn := of_elem rfl
theorem transposeRowBlock (slot : Fin 4096) (block : Nat) : Statement (.transposeRowBlock slot block) := of_elem rfl
theorem depositEntryWrite (value : W64) : Statement (.depositEntryWrite value) := of_elem rfl
theorem finChunk : Statement .finChunk := of_elem rfl
theorem rowPass (slot : Fin 4096) : Statement (.rowPass slot) := of_elem rfl
theorem rowStatisticsFinal (slot : Fin 4096) (block : Nat) : Statement (.rowStatisticsFinal slot block) := of_elem rfl
theorem finEntryCommit (value : W64) : Statement (.finEntryCommit value) := of_elem rfl
theorem rowEntryCommit (value : W64) : Statement (.rowEntryCommit value) := of_elem rfl
theorem entryIndexWrite (reg : IndexReg) (value : W32) : Statement (.entryIndexWrite reg value) := of_elem rfl
theorem preloadSweep : Statement .preloadSweep := of_elem rfl
theorem releaseContribution : Statement .releaseContribution := of_elem rfl
theorem stepDeadline : Statement .stepDeadline := of_elem rfl
theorem release : Statement .release := of_elem rfl
theorem updateWave : Statement .updateWave := of_elem rfl
theorem mirrorSend (bucket : Fin 4096) : Statement (.mirrorSend bucket) := of_elem rfl
theorem mirrorPacket : Statement .mirrorPacket := of_elem rfl
theorem mirrorAck : Statement .mirrorAck := of_elem rfl
theorem mirrorTimeout (bucket : Fin 4096) : Statement (.mirrorTimeout bucket) := of_elem rfl
theorem commitVote : Statement .commitVote := of_elem rfl
theorem commit : Statement .commit := of_elem rfl
theorem stepEnable (value : W32) : Statement (.stepEnable value) := of_elem rfl
theorem stepDisable (value : W32) : Statement (.stepDisable value) := of_elem rfl
theorem bucketEntryCommit (value : W64) : Statement (.bucketEntryCommit value) := of_elem rfl
theorem optEntryCommit (value : W32) : Statement (.optEntryCommit value) := of_elem rfl
theorem uprogWrite (value : W32) : Statement (.uprogWrite value) := of_elem rfl
theorem expertPacket : Statement .expertPacket := of_elem rfl
theorem expertCombineOutput (slot : Fin 4096) : Statement (.expertCombineOutput slot) := of_elem rfl
theorem clearToSend : Statement .clearToSend := of_elem rfl
theorem receiveReady (slot : Fin 4096) : Statement (.receiveReady slot) := of_elem rfl
theorem stashRelease (who : Requester) (ctx : Fin 64) (stash : Fin 16) (value : W32) : Statement (.stashRelease who ctx stash value) := of_elem rfl
theorem stashCfgWrite (value : W64) : Statement (.stashCfgWrite value) := of_elem rfl
theorem spxEntryCommit (value : W64) : Statement (.spxEntryCommit value) := of_elem rfl
theorem segmentWrite (value : W64) : Statement (.segmentWrite value) := of_elem rfl
theorem windowSet (ctx : Fin 64) (value : W32) : Statement (.windowSet ctx value) := of_elem rfl
theorem windowAdd (ctx : Fin 64) (value : W32) : Statement (.windowAdd ctx value) := of_elem rfl
theorem monitorArm (ctx : Fin 64) (value : W64) : Statement (.monitorArm ctx value) := of_elem rfl
theorem syncTimeout (waiter : Waiter) : Statement (.syncTimeout waiter) := of_elem rfl
theorem preempt (value : W32) : Statement (.preempt value) := of_elem rfl
theorem resume (value : W32) : Statement (.resume value) := of_elem rfl
theorem signal : Statement .signal := of_elem rfl
theorem arrive : Statement .arrive := of_elem rfl
theorem crownTimeout (chan : Fin 64) : Statement (.crownTimeout chan) := of_elem rfl
theorem synDbgSelWrite (value : W32) : Statement (.synDbgSelWrite value) := of_elem rfl
theorem dbgWaiterRead : Statement .dbgWaiterRead := of_elem rfl
theorem gapRecord : Statement .gapRecord := of_elem rfl
theorem captureModeWrite (value : W32) : Statement (.captureModeWrite value) := of_elem rfl
theorem captureFreeze : Statement .captureFreeze := of_elem rfl
theorem replayGo : Statement .replayGo := of_elem rfl
theorem replayStop : Statement .replayStop := of_elem rfl
theorem replayDelivery (port : Fin 10) : Statement (.replayDelivery port) := of_elem rfl
theorem replayForcedChoice (record : Nat) : Statement (.replayForcedChoice record) := of_elem rfl
theorem eccSingleBit (mem : Fin 12) : Statement (.eccSingleBit mem) := of_elem rfl
theorem eccDoubleBit (mem : Fin 12) (word : W32) : Statement (.eccDoubleBit mem word) := of_elem rfl
theorem eccLogClear (value : W32) : Statement (.eccLogClear value) := of_elem rfl
theorem lateContribution (slot : Fin 4096) : Statement (.lateContribution slot) := of_elem rfl
theorem histClear (value : W32) : Statement (.histClear value) := of_elem rfl
theorem adopt : Statement .adopt := of_elem rfl
theorem returnGen : Statement .returnGen := of_elem rfl
theorem restore : Statement .restore := of_elem rfl
theorem restoreRecordVerify (bucket : Fin 4096) : Statement (.restoreRecordVerify bucket) := of_elem rfl
theorem recTimeout : Statement .recTimeout := of_elem rfl
theorem seed : Statement .seed := of_elem rfl
theorem setGen : Statement .setGen := of_elem rfl
theorem lost : Statement .lost := of_elem rfl
theorem remirror : Statement .remirror := of_elem rfl
theorem injectArm (value : W32) : Statement (.injectArm value) := of_elem rfl
theorem stragglerExpiry (slot : Fin 4096) : Statement (.stragglerExpiry slot) := of_elem rfl
theorem silentChipExpiry : Statement .silentChipExpiry := of_elem rfl
theorem authLogClear (value : W32) : Statement (.authLogClear value) := of_elem rfl
theorem ucodeDataWrite (value : W32) : Statement (.ucodeDataWrite value) := of_elem rfl
theorem csqStart (value : W32) : Statement (.csqStart value) := of_elem rfl
theorem microcodeCheckDone : Statement .microcodeCheckDone := of_elem rfl
theorem pageErrClear (page : Fin 19) (value : W32) : Statement (.pageErrClear page value) := of_elem rfl
theorem pageIrqClear (page : Fin 19) (value : W32) : Statement (.pageIrqClear page value) := of_elem rfl
theorem pageIrqMaskWrite (page : Fin 19) (value : W32) : Statement (.pageIrqMaskWrite page value) := of_elem rfl
theorem trainingFlitSend (port : Fin 10) : Statement (.trainingFlitSend port) := of_elem rfl
theorem phyPresentChange (port : Fin 10) (present : Bool) : Statement (.phyPresentChange port present) := of_elem rfl
theorem remoteSignalComplete (ring : Fin 256) : Statement (.remoteSignalComplete ring) := of_elem rfl
theorem schedRise : Statement .schedRise := of_elem rfl

end Sys2Proof.Laws.Queue
end

