-- ==== Sys2Proof/Tests/Slice0.lean ====
section
/-! SUPPORT. Tests/Slice0.lean: what the WellFormed checks refuse, a witness for the hypotheses of each statement, and small
tests whose expected results are worked out by hand from the rule that the test's comment names. -/

namespace Sys2Proof.Tests.Slice0

open Sys2Proof.Machine Sys2Proof.Safety Sys2Proof.Laws

set_option Elab.async false

/-! ### Small states -/

/-- The sequencer runs and the memory port has its latency. -/
def up : State := { ctl := { run := true, rdLat := 1 } }

/-- A machine of two chips on the X axis; this one is chip 0, a worker. -/
def pair : Rtr := { shape := 0x8422, role := 0, axisMap := 0xE4 }

def upPair : State := { up with rtr := pair }

def d0 : Desc :=
  { opc := 0, redOp := 0, fmtIn := 0, fmtOut := 0, axis := 0, ring := false, adapt := false, stageOk := false, fin := false,
    mask := false, fence := false, vc := 1, gsid := 7, count := 1, gsize := 1, lscale := 0, stageCfg := 0, srcOff := 0,
    srcReg := 0, bucket := 0, dstOff := 0, dstReg := 0, auxOff := 0, auxReg := 0, doneObj := 0, doneMode := 2,
    doneValue := 0, waitObj := 0, waitCond := 0, waitValue := 0, step := 0, peer := 0, dirty := false }

/-- A session of one chip: GSID 7, context 0, made by ring 0. -/
def x0 (opc : Nat) (st : SesState) : Session :=
  { gsid := 7, ctx := 0, src := .ring 0 0, d := { d0 with opc := opc }, st := st, n := 1, rank := 0, base := 0 }

def withSession (x : Session) (s : State) : State := { s with ses := { s.ses with slots := [(0, x)] } }

/-- A packet of chip 0 for itself. -/
def pkt (ptype : Nat) (body : List Byte) : Packet :=
  { dst := ⟨0, 0, 0, 0⟩, gen := 0, src := ⟨0, 0, 0, 0⟩, srcGen := 0, ptype := ptype, len := 1, flags := 0, hops := 0,
    session := 7, vc := 0, body := body, tag := none, ring := none, reads := [], ccc := 0, inport := 10, invc := 0 }

def withPacket (k : Packet) (s : State) : State := { s with rtr := { s.rtr with inbox := [k] } }

/-- A band message of session 7 has arrived. -/
def withBand (m : BandMsg) (s : State) : State := withPacket (pkt 0x10 (Band.body ⟨0, 0, m⟩)) s

/-- The message that takeBand finds. -/
def bandFound (t : Nat) (s : State) : Option BandMsg := (takeBand t s).map fun r => r.2.1.msg

/-! ### What the WellFormed checks refuse -/

/-- A length that the header beat's 16 bits cannot hold. -/
theorem test_attMessage_refused : Instr.wf (.attMessage 0 1 (List.replicate 65536 0)) = false := by
  simp only [Instr.wf, attMessageOk, List.length_replicate]; decide

/-- The longest length that they can. -/
theorem test_attMessage_boundary : Instr.wf (.attMessage 0 1 (List.replicate 65535 0)) = true := by
  simp only [Instr.wf, attMessageOk, List.length_replicate]; decide

theorem test_rowStatisticsFinal_refused :
    Instr.wf (.rowStatisticsFinal 0 (2 ^ 36)) = false ∧ Instr.wf (.rowStatisticsFinal 0 (2 ^ 36 - 1)) = true := by decide +kernel

theorem test_transposeRowBlock_refused :
    Instr.wf (.transposeRowBlock 0 (2 ^ 36)) = false ∧ Instr.wf (.transposeRowBlock 0 (2 ^ 36 - 1)) = true := by decide +kernel

theorem test_replayForcedChoice_refused :
    Instr.wf (.replayForcedChoice (2 ^ 64)) = false ∧ Instr.wf (.replayForcedChoice (2 ^ 64 - 1)) = true := by decide +kernel

/-! ### Witnesses of the statements' hypotheses -/

theorem witness_StepRunsFront : { State.reset with pending := [.routeHold] }.pending = .routeHold :: [] := rfl

/-- The clocks are gated: the engine dozes, with an access that waits and, or not, its wake under way. -/
def gated : State := { up with pwr := { cur := 1, waiting := [.routeHold] } }

theorem witness_IdleStepIsOneCycle : gated.pending = [] ∧ awake (idleCycle gated) = false ∧ State.reset.pending = [] ∧
    awake (idleCycle State.reset) = true ∧ (43 + 1 : BitVec 64).toNat % 44 = 0 := by decide +kernel

theorem witness_gated : ctlOn gated = false ∧ fabricOn gated = false ∧ ctlOn up = true ∧ fabricOn up = true ∧
    awake gated = false ∧ awake up = true ∧ pageOn gated 4 = false ∧ pageOn gated 13 = false ∧ pageOn up 4 = true := by
  decide +kernel

theorem witness_QueueIsConsumed : (∃ t, step { State.reset with pending := [.routeHold] } = .next t) ∧
    { State.reset with pending := [.routeHold] }.pending ≠ [] ∧ ∃ t, step State.reset = .next t := ⟨⟨_, rfl⟩, by decide, _, rfl⟩

theorem witness_MemoryStaysCanonical : Memory.wf State.reset.mem ∧ ∃ t, step { State.reset with pending := [.routeHold] } = .next t :=
  ⟨⟨List.Pairwise.nil, fun _ h => nomatch h⟩, _, rfl⟩

theorem witness_CommandsTouchOnlyTheirParts :
    (∃ t, exec .routeHold State.reset = .next t) ∧ Group.mem ∉ touches .routeHold := ⟨⟨_, rfl⟩, by decide +kernel⟩

theorem witness_KeysComeFromKeyLoad :
    (∀ slot key fixed, Instr.zeroise ≠ .keyLoad slot key fixed) ∧ ∃ t, exec .zeroise State.reset = .next t :=
  ⟨fun _ _ _ h => (nomatch h), _, rfl⟩

/-- A read of the first beat and a write of the next are issued on sub-channel 0 with tag 1023. -/
def issuedBoth : State := { up with emp := { out := [(1023, ⟨0, false, 0, 1⟩), (1023, ⟨1, true, 1, 1⟩)] } }

theorem witness_WellFormedCommandsRun :
    (issued? issuedBoth false 0 1023).isSome = true ∧ (issued? issuedBoth true 0 1023).isSome = true ∧
    ({ up with msix := { outstanding := some 261 } } : State).msix.outstanding.isSome = true ∧
    issued? issuedBoth false 7 1023 = none ∧ issued? issuedBoth true 0 1022 = none ∧ up.msix.outstanding = none := by decide +kernel

theorem witness_TailWordIsTaken : tailReady up 63 = true ∧ awake up = true ∧
    tailReady { up with pwr := { entry := some 0 } } 63 = true ∧ awake { up with pwr := { entry := some 0 } } = false ∧
    tailReady gated 63 = false ∧ gated.rst.done = true ∧
    tailReady (mTile 63 (fun t => { t with intake := List.replicate 4 (0, 0, false) }) up) 63 = false := by decide +kernel

/-- Port 0 with an open part of each kind, the bound one a beat before its last. -/
def openPart (u : PartUse) : State := mTile 0 (fun t => { t with parts := [{ idx := 0, use := u }] }) up

theorem witness_TileDataMoves :
    ((tileOf (openPart .unresolved) 0).parts.find? isOpen).map (·.use) = some .unresolved ∧
    ((tileOf (openPart .discard) 0).parts.find? isOpen).map (·.use) = some .discard ∧
    ((tileOf (openPart (.bound 0 0 1)) 0).parts.find? isOpen).map (·.use) = some (.bound 0 0 1) ∧
    ctlOn (openPart (.bound 0 0 1)) = true ∧ cdataHeld (openPart (.bound 0 0 1)) (tileOf (openPart (.bound 0 0 1)) 0) < 256 ∧
    (true = true ↔ 0 + 1 = 1) ∧ ¬(false = true ↔ 0 + 1 = 1) ∧ (tileOf up 0).parts.find? isOpen = none ∧
    (let s := mTile 0 (fun t => { t with parts := [{ idx := 0, beats := 256 }] }) up
     256 ≤ cdataHeld s (tileOf s 0)) := by decide +kernel

/-- Bucket 0 of context 0 takes deposits: 32 elements, valid. -/
def oneBucket : State :=
  { up with que := { tcp := [(0, { ctx := 0, en := true })] },
            gas := { buckets := [(0, BitVec.ofNat 512 (2 ^ 63 + 32 * 2 ^ 128))] } }

theorem witness_DepositIsJudged :
    (tileOf oneBucket 0).held = none ∧ gasStopped oneBucket = false ∧ depCheck oneBucket 0 0 = .accept ∧
    depRoom oneBucket 0 = true ∧ depCheck { oneBucket with opt := { step := 0xFFFF } } 0 0 = .hold ∧
    depCheck { oneBucket with gas := { buckets := [(0, BitVec.ofNat 512 (2 ^ 63 + 2 ^ 6 + 32 * 2 ^ 128))] } } 0 0 = .frozen ∧
    oneBucket.gas.frozenDrops ≠ BitVec.allOnes _ ∧ oneBucket.gas.frozenDrops + 1 ≠ BitVec.allOnes _ ∧
    depCheck up 0 0 = .reject cContextMismatch ∧ awake oneBucket = true ∧
    (tileOf (mTile 0 (fun t => { t with held := some (0, 0) }) up) 0).held.isSome = true ∧
    gated.pwr.cur ≠ 0 ∧ gated.rst.done = true := by decide +kernel

/-- The period's budget of sub-channel 0 is spent. -/
theorem witness_DepositIsJudged_full :
    let s : State := { oneBucket with gas := { oneBucket.gas with used := [(0, 20000)] } }
    depCheck s 0 0 = .accept ∧ depRoom s 0 = false := by decide +kernel

/-- Slot 79 belongs to ring 240, which has a descriptor. -/
def ringAhead : State :=
  { up with que := { slot := 79, rings := [(240, { enable := true, sizeLog2 := 4, producer := 1 })] } }

theorem witness_IntakeSlotServes :
    intakeOn up = true ∧ up.que.slot < 64 ∧ portHeld up up.que.slot = false ∧
    portHeld { up with que := { tcp := [(0, { ctx := 1, en := true })] }, syn := { preempted := 2 } } 0 = true ∧
    intakeOn ringAhead = true ∧ 64 ≤ ringAhead.que.slot ∧ ringOffers ringAhead 240 = true ∧ ringPending ringAhead 255 = false := by
  decide +kernel

/-- Ring 240's head is a barrier whose channel has not released: it stands. -/
theorem witness_IntakeSlotServes_stall :
    let s := mRing 240 (fun g => { g with cur := some d0, headState := .barrier 0 0 }) ringAhead
    ringPending s 240 = true ∧ ringOffers s 240 = false ∧ headStand s 240 = some (.barrier 0 0) := by decide +kernel

/-- An exchange of one chip has its chunk to issue. -/
def issuing : State := withSession (x0 0x03 .run) upPair

/-- The tags below n are held. -/
def tagsBelow (n : Nat) : List (Nat × Tag) := (List.range n).map fun t => (t, { slot := 0, gsid := 7, seq := 0 })

theorem tagsBelow_held (n : Nat) : lowestFree (tagsBelow n) n = none := by
  refine List.find?_eq_none.2 fun i hi => ?_
  have hi : i < n := Nat.lt_of_lt_of_le (List.mem_range.1 hi) (Nat.min_le_left _ _)
  have : (tagsBelow n).any (fun p => p.1 == i) = true :=
    List.any_eq_true.2 ⟨_, List.mem_map.2 ⟨i, List.mem_range.2 hi, rfl⟩, beq_self_eq_true i⟩
  rw [this]
  exact Bool.false_ne_true

/-- The next to issue is a chunk of a session with no injected fault. -/
def chunkNext (s : State) : Bool :=
  match nextIssue s with
  | some (_, x, .chunk ..) => !injFor s 5 x.gsid
  | _ => false

theorem chunkNext_spec {s : State} (h : chunkNext s = true) :
    ∃ i x seq act, nextIssue s = some (i, x, .chunk seq act) ∧ injFor s 5 x.gsid = false := by
  unfold chunkNext at h
  split at h
  · rename_i i x seq act e; exact ⟨i, x, seq, act, e, by simpa using h⟩
  · cases h

theorem witness_ChunksAreIssued :
    issueStopped issuing = false ∧ chunkNext issuing = true ∧ freeTag issuing = some 0 ∧
    25000 ≤ ({ issuing with tick := 25000, trk := { stallStart := some 0 } } : State).tick - 0 ∧
    issuing.rru.run = false ∧ issuing.trk.reported = false ∧ ctlOn issuing = true ∧ issueStopped gated = true := by decide +kernel

/-- The exchange with some tags held. -/
def tagged (l : List (Nat × Tag)) : State := { issuing with trk := { tags := l } }

theorem chunkNext_tagged (l : List (Nat × Tag)) : chunkNext (tagged l) = true := by with_unfolding_all rfl

theorem freeTag_tagged (l : List (Nat × Tag)) (h : lowestFree l 65536 = none) : freeTag (tagged l) = none := h

theorem witness_ChunksAreIssued_none : ∃ s, chunkNext s = true ∧ issueStopped s = false ∧ freeTag s = none :=
  ⟨_, chunkNext_tagged _, rfl, freeTag_tagged _ (tagsBelow_held _)⟩

/-- Tag 65535 is held by session 7, whose chunk has or has not met its destination. -/
def oneTag (met : Bool) (s : State) : State := { s with trk := { tags := [(65535, { slot := 0, gsid := 7, seq := 0, retired := met })] } }

theorem witness_TagsRetire : ctlOn up = true ∧
    assoc? (oneTag false up).trk.tags 65535 = some { slot := 0, gsid := 7, seq := 0, retired := false } ∧
    assoc? (oneTag true up).trk.tags 65535 = some { slot := 0, gsid := 7, seq := 0, retired := true } ∧
    slotOfGsid (oneTag true up) 7 = none ∧ slotOfGsid (oneTag true issuing) 7 = some 0 := by decide +kernel

/-- Vector 261 is unmasked and pending. -/
def vec261 : State := { up with que := { unmasked := [(261, true)] }, msix := { pendingVecs := [(261, true)] } }

theorem witness_MsixIsPresentedAndAcknowledged :
    (261 : BitVec 9).toNat ≤ 261 ∧ vec261.msix.outstanding = none ∧ vecMasked vec261 261 = false ∧
    Sparse.get false vec261.msix.pendingVecs 261 = true ∧
    ({ up with msix := { outstanding := some 3 } } : State).msix.outstanding = some 3 ∧
    Sparse.get false vec261.msix.pendingVecs 260 = false ∧ vec261.msix.outstanding ≠ some (BitVec.ofNat 9 260) ∧
    vecMasked { vec261 with que := { unmasked := [(260, true)] } } 260 = false := by decide +kernel

/-- The watchdog's count has reached TIMEOUT_TICKS, the value that 0 is taken as. -/
def wdogOut (expired : Bool) : State :=
  { up with ctl := { run := true, wdogTimeout := 0, wdogCount := 1, expired := expired } }

theorem witness_WatchdogRestartsThenHalts :
    ctlOn (wdogOut true) = true ∧ ctlOn gated = false ∧
    (wdogOut true).ctl.run = true ∧ max 1 (wdogOut true).ctl.wdogTimeout.toNat ≤ (wdogOut true).ctl.wdogCount ∧
    (wdogOut true).ctl.expired = true ∧ (wdogOut false).ctl.expired = false ∧ up.ctl.wdogCount < max 1 up.ctl.wdogTimeout.toNat ∧
    ({ up with ctl := { restarting := true } } : State).ctl.restarting = true ∧ up.ctl.restarting = false := by decide +kernel

theorem witness_SequencerImageIsLoaded :
    ctlOn State.reset = true ∧ ctlOn gated = false ∧
    ucodeLocked State.reset = false ∧ State.reset.ctl.halted = false ∧ ucodeLocked up = true ∧
    ({ State.reset with ctl := { crcCheck := some 0 } } : State).ctl.crcCheck = some State.reset.ctl.ucodeCrc ∧
    (1 : W32) ≠ State.reset.ctl.ucodeCrc := by decide +kernel

/-- A read, and a completion record's write, with 1 request each on the port or with 2; ring 255's vector is unmasked. -/
def asked (left : Nat) : State :=
  { issuedBoth with
    emp := { issuedBoth.emp with reads := [⟨0, 0, 1, .other, [], left⟩], writes := [⟨1, .record 255, left⟩], nextTag := 2 },
    que := { unmasked := [(255, true)] } }

theorem witness_MemoryReturnsAreMatched : ∀ left ∈ [1, 2],
    issued? (asked left) false 0 1023 = some (1023, ⟨0, false, 0, 1⟩) ∧
    (asked left).emp.reads.find? (fun r => r.tag == 0) = some ⟨0, 0, 1, .other, [], left⟩ ∧
    poisonInjected (asked left) .other = false ∧ ((1 : Byte) ≠ 0 ∧ Ecc.clean = .clean) ∧
    issued? (asked left) true 0 1023 = some (1023, ⟨1, true, 1, 1⟩) ∧
    (asked left).emp.writes.find? (fun w => w.tag == 1) = some ⟨1, .record 255, left⟩ ∧
    vecMasked (asked left) 255 = false := by decide +kernel

/-- Each field at its last admitted value or the value after it: RD_LAT 96 or 95, REF_OFFSET 1759 or 1760, REF_LEN 160 or 161. -/
theorem witness_MemoryTimingIsWatched :
    refOpen { up with ctl := { run := true, rdLat := 1, refOffset := 100, refLen := 10 } } = false ∧
    refOpen { up with ccc := 109, ctl := { refOffset := 100, refLen := 10 } } = true ∧
    ({ up with emp := { sched := true } } : State).emp.sched = true ∧ up.emp.sched = false ∧
    (1759 : BitVec 11).toNat < 1760 ∧ (160 : Byte).toNat ≤ 160 ∧
    ((rdLatBad (BitVec.ofNat 32 (96 + 1759 * 2 ^ 8 + 160 * 2 ^ 19)), refOffsetBad (BitVec.ofNat 32 (96 + 1759 * 2 ^ 8 + 160 * 2 ^ 19)),
      refLenBad (BitVec.ofNat 32 (96 + 1759 * 2 ^ 8 + 160 * 2 ^ 19))) = (false, false, false)) ∧
    ((rdLatBad 95, refOffsetBad 95, refLenBad 95) = (true, false, false)) ∧
    ((rdLatBad (BitVec.ofNat 32 (1760 * 2 ^ 8)), refOffsetBad (BitVec.ofNat 32 (1760 * 2 ^ 8)), refLenBad (BitVec.ofNat 32 (1760 * 2 ^ 8))) =
      (false, true, false)) ∧
    ((rdLatBad (BitVec.ofNat 32 (161 * 2 ^ 19)), refOffsetBad (BitVec.ofNat 32 (161 * 2 ^ 19)), refLenBad (BitVec.ofNat 32 (161 * 2 ^ 19))) =
      (false, false, true)) ∧ fabricOn up = true ∧ fabricOn gated = false := by decide +kernel

/-- The last word of the last page, and the first and last words of windows. -/
theorem witness_ConfigurationBusWrites :
    accessOn .cmc (4 * (7 : BitVec 22).toNat) up = true ∧ accessOn .cmc 0x4020 gated = false ∧
    accessOn (.context 63) (18 * 0x1000 + 4 * 0x3FF) up = true ∧
    0x800000 ≤ 4 * (0x200000 : BitVec 22).toNat ∧ accessOn (.context 63) (4 * (0x2FBFFF : BitVec 22).toNat) up = true ∧
    (4 * (0x2FBFFF : BitVec 22).toNat - 0x800000) / 0x10000 ≠ (63 : Fin 64).val ∧ pageOn up 18 = true := by decide +kernel

/-- Page FLT's ERR bit is set and masked, its vector not. -/
def errBehindMask : State := { up with hdrs := [(15, { irqErr := true })], que := { unmasked := [(pageVec 15, true)] } }

theorem witness_MailboxesAndPageHeaders :
    (1 : W32).getLsbD 0 = true ∧ up.pwr.inFull = false ∧ ({ up with pwr := { inFull := true } } : State).pwr.inFull = true ∧
    (0 : W32).getLsbD 0 = false ∧ (0x80000000 : W32).getLsbD 31 = true ∧ (0 : W32).getLsbD 31 = false ∧
    pageOn errBehindMask 15 = true ∧ pageOn gated 15 = false ∧
    (hdrOf errBehindMask 15).irqErr = true ∧ (hdrOf errBehindMask 15).maskErr = true ∧ (hdrOf errBehindMask 15).irqSat = false ∧
    (hdrOf up 15).irqErr = false ∧ vecMasked errBehindMask (pageVec 15) = false := by decide +kernel

/-- Port 9 in a state. -/
def port9 (f : Port → Port) : State := mPort 9 f up

/-- Port 9 has asked for its receive key, in KEYS or UP; a ZEROISE began 4 or 5 cycles ago. -/
theorem witness_KeysAreLoaded :
    loadDiscarded up = false ∧ keyReqOf (portOf up ((39 : Fin 40).val / 4)) ((39 : Fin 40).val / 2 % 2 == 1) = none ∧
    (∀ st ∈ [5, 6], keyReqOf (portOf (port9 fun q => { q with st := st, rxReq := some 3 }) ((39 : Fin 40).val / 4))
      ((39 : Fin 40).val / 2 % 2 == 1) = some 3) ∧
    (39 : Fin 40).val % 2 = ((portOf up 9).rxEpoch + 1) % 2 ∧ (38 : Fin 40).val % 2 ≠ ((portOf up 9).rxEpoch + 1) % 2 ∧
    loadDiscarded { up with ccc := 14, lsu := { zeroised := some 10 } } = true ∧
    loadDiscarded { up with ccc := 15, lsu := { zeroised := some 10 } } = false ∧
    keyWanted (port9 fun q => { q with st := 5 }) 9 (Dir.isRx .rx) = true ∧ keyWanted up 9 (Dir.isRx .rx) = false := by
  decide +kernel

/-- An attestation flit: kind 0, control code 3, message type 1, index 0, one byte, last as given. -/
def attFlit (last : Nat) : BitVec 1024 := BitVec.ofNat 1024 (3 * 2 ^ 32 + 2 ^ 40 + last * 2 ^ 48 + 2 ^ 80)

theorem witness_AttestationIsCarried :
    (portOf (port9 fun q => { q with st := 4 }) 9).st = 4 ∧ (portOf (port9 fun q => { q with st := 4 }) 9).attIdx = 0 ∧
    (portOf up 9).st ≠ 4 ∧ (1 ≤ (List.replicate 3 (0 : Byte)).length ∧ (List.replicate 3 (0 : Byte)).length ≤ 12288) ∧
    4 < (5 : Byte).toNat ∧ injectedBad (port9 fun q => { q with st := 4 }) 9 = false ∧
    (portOf (fecCounted 9 255 (port9 fun q => { q with st := 4 })) 9).st = 4 ∧
    (portOf (port9 fun q => { q with st := 4, attIdx := 1 }) 9).attIdx ≠ 0 ∧
    (∀ last ∈ [0, 1], leAt (leBytes 128 (attFlit last).toNat) 0 1 % 4 = 0 ∧ leAt (leBytes 128 (attFlit last).toNat) 4 1 = 3 ∧
      leAt (leBytes 128 (attFlit last).toNat) 5 1 = 1 ∧ leAt (leBytes 128 (attFlit last).toNat) 8 2 = 0 ∧
      leAt (leBytes 128 (attFlit last).toNat) 10 2 = 1 ∧
      bit (leAt (leBytes 128 (attFlit last).toNat) 6 1) 0 = (last == 1)) := by decide +kernel

/-- A message of one byte more than the limit. -/
theorem witness_AttestationIsCarried_long : 12288 < (List.replicate 12289 (0 : Byte)).length := by
  rw [List.length_replicate]; decide

theorem witness_PortTimersExpire :
    max 1 up.lsu.attTimeout.toNat ≤ stateAge { port9 fun q => { q with st := 4 } with tick := 125000 } 9 ∧
    stateAge { port9 fun q => { q with st := 4 } with tick := 124999 } 9 < max 1 up.lsu.attTimeout.toNat ∧
    max 1 up.lsu.keyTimeout.toNat ≤ stateAge { port9 fun q => { q with st := 5 } with tick := 25000 } 9 ∧
    stateAge { port9 fun q => { q with st := 5 } with tick := 24999 } 9 < max 1 up.lsu.keyTimeout.toNat ∧
    (let s : State := { port9 fun q => { q with st := 6, rxReq := some 0 } with tick := 25000 }
     (portOf s 9).st = 6 ∧ keyReqOf (portOf s 9) (Dir.isRx .rx) = some 0 ∧ max 1 s.lsu.keyTimeout.toNat ≤ s.tick - 0) ∧
    2500 ≤ stateAge { port9 fun q => { q with st := 1 } with tick := 2500 } 9 ∧
    250 ≤ stateAge { port9 fun q => { q with st := 2 } with tick := 250 } 9 ∧
    stateAge { port9 fun q => { q with st := 2 } with tick := 249 } 9 < 250 ∧
    2 ≤ (portOf (port9 fun q => { q with attempts := 2 }) 9).attempts.toNat ∧ (portOf up 9).attempts.toNat < 2 := by decide +kernel

/-- The power unit in a state. -/
def pwr (f : Pwr → Pwr) (s : State) : State := { s with pwr := f s.pwr }

/-- The clock at 100 ticks. -/
def late : State := { up with tick := 100 }

theorem witness_PowerStatesAreRequested :
    late.pwr.cur = 0 ∧ late.pwr.entry = none ∧ late.trk.tags = [] ∧ late.rst.ctx = [] ∧ (oneTag false late).trk.tags ≠ [] ∧
    late.pwr.cur ≠ 2 ∧ late.pwr.waking = none ∧ stepSessionHeld late = false ∧
    stepSessionHeld (withSession { x0 0x01 .run with d := { d0 with opc := 0x01, step := 1 } } late) = true ∧
    (pwr (fun p => { p with entry := some 90 }) late).pwr.entry = some 90 ∧ 90 + 10 ≤ late.tick ∧ late.tick < 91 + 10 ∧
    (pwr (fun p => { p with cur := 1 }) late).pwr.cur = 1 ∧ (pwr (fun p => { p with cur := 2 }) late).pwr.cur = 2 := by decide +kernel

/-- Waking from sleep since tick 50 and from doze since cycle 36, at tick 100 and cycle 100. -/
theorem witness_EngineWakes :
    (pwr (fun p => { p with cur := 2 }) late).pwr.cur ≠ 0 ∧ late.pwr.entry = none ∧ late.pwr.waking = none ∧
    (pwr (fun p => { p with entry := some 90 }) late).pwr.entry = some 90 ∧ awake late = true ∧
    (pwr (fun p => { p with cur := 2, waking := some 50 }) late).pwr.waking = some 50 ∧ late.pwr.good = true ∧
    50 + 50 ≤ late.tick ∧ late.rst.pendingKind = 0 ∧ ({ late with rst := { pendingKind := 1 } } : State).rst.pendingKind ≠ 0 ∧
    36 + 64 ≤ ({ late with ccc := 100 } : State).ccc.toNat ∧ late.pwr.thrNew = [] ∧
    (pwr (fun p => { p with thrNew := [(12, 1), (170, 2)] }) late).pwr.thrNew = [(12, 1)] ++ [(170, 2)] := by decide +kernel

/-- The pin at the two ends of the clamp and one code beyond each; a change sampled at tick 98. -/
theorem witness_ThrottleComesIntoForce :
    (clampLimit 11, clampLimit 12, clampLimit 170, clampLimit 171) = (12, 12, 170, 170) ∧
    clampLimit (pwr (fun p => { p with thrPin := 169 }) late).pwr.thrPin ≠ thrLast (pwr (fun p => { p with thrPin := 169 }) late).pwr ∧
    clampLimit (pwr (fun p => { p with thrPin := 255 }) late).pwr.thrPin = thrLast (pwr (fun p => { p with thrPin := 255 }) late).pwr ∧
    (pwr (fun p => { p with thrNew := [(12, 98)] }) late).pwr.thrNew = [(12, 98)] ∧ 98 + 2 ≤ late.tick ∧ late.pwr.cur = 0 ∧
    late.ccc.toNat % 16 = 0 ∧ ({ late with ccc := 15 } : State).ccc.toNat % 16 ≠ 0 ∧ late.tick < 99 + 2 ∧ gated.pwr.cur ≠ 0 ∧
    (1 : W32).getLsbD 0 = true ∧ (0 : W32).getLsbD 0 = false := by decide +kernel

theorem witness_ResetsClearTheEngine : up.pwr.cur ≠ 2 ∧ (pwr (fun p => { p with cur := 1 }) up).pwr.cur ≠ 2 := by decide +kernel

/-- A reset of a kind was released at tick 84. -/
def released (kind : Nat) : State := { late with rst := { kind := kind, release := 84, done := false } }

theorem witness_ResetCompletes :
    (pwr (fun p => { p with cur := 2 }) late).pwr.cur = 2 ∧ late.pwr.entry = none ∧ (released 3).rst.kind ≠ 0 ∧
    (released 3).rst.pendingKind = 0 ∧ (released 3).rst.release + 16 ≤ (released 3).tick ∧ (released 3).rst.kind ≠ 1 ∧
    (released 1).rst.kind = 1 ∧ (released 1).msix.outstanding = none ∧ (released 1).emp.writes = [] ∧
    ({ released 1 with emp := { writes := [⟨0, .other, 1⟩] } } : State).emp.writes ≠ [] ∧ late.rst.kind = 0 ∧
    ({ released 1 with tick := 99 } : State).tick < 84 + 16 := by decide +kernel

theorem witness_ContextResets :
    (63 : Fin 64).val ∉ up.rst.ctx ∧ (63 : Fin 64).val ∈ ({ up with rst := { ctx := [63] } } : State).rst.ctx ∧
    ctxWriting { up with rst := { ctx := [63] } } 63 = false ∧
    ctxWriting { up with rst := { ctx := [63] }, que := { rings := [(255, { ctx := 63 })] }, emp := { writes := [⟨0, .record 255, 1⟩] } } 63 = true ∧
    slot? issuing 0 = some (x0 0x03 .run) ∧ (x0 0x03 .run).st ≠ .rejected := by decide +kernel

/-- The debug page in a state. -/
def dbg (f : Dbg → Dbg) (s : State) : State := { s with dbg := f s.dbg }

theorem witness_DebugFreezes :
    ctlOn up = true ∧ ctlOn gated = false ∧ freezeAsked (dbg (fun d => { d with freeze := true }) up) = true ∧ up.dbg.frozen = false ∧
    up.trk.tags = [] ∧ gasWriting up = false ∧ up.dbg.freeze = false ∧ up.dbg.freezeIn = false ∧ (oneTag false up).trk.tags ≠ [] ∧
    gasWriting { up with emp := { writes := [⟨0, .gas 0, 1⟩] } } = true ∧
    (dbg (fun d => { d with freezeIn := true }) up).dbg.freezeIn = true := by decide +kernel

/-- Object 5 has the head of ring 255 waiting. -/
def oneWaiter : State :=
  { up with que := { rings := [(255, { headState := .wait 5 0 })] }, syn := { dbgSel := 5 } }

theorem witness_DebugWindowsRead :
    ctlOn up = true ∧ fabricOn up = true ∧ ctlOn gated = false ∧ fabricOn gated = false ∧
    bits (8 : W32).toNat 3 0 ≤ 8 ∧ 8 < bits (9 : W32).toNat 3 0 ∧
    (dbg (fun d => { d with sel := 5, addr := 262143 }) up).dbg.sel.toNat < 6 ∧
    (dbg (fun d => { d with sel := 5, addr := 262143 }) up).dbg.addr.toNat <
      dbgWords (dbg (fun d => { d with sel := 5, addr := 262143 }) up) ∧
    dbgFree (dbg (fun d => { d with sel := 5, addr := 262143 }) up) = false ∧
    dbgFree (dbg (fun d => { d with sel := 1, addr := 16383 }) up) = true ∧
    (dbg (fun d => { d with sel := 1, addr := 16383 }) up).dbg.addr.toNat < dbgWords (dbg (fun d => { d with sel := 1 }) up) ∧
    6 ≤ (dbg (fun d => { d with sel := 6 }) up).dbg.sel.toNat ∧ (dbg (fun d => { d with sel := 6 }) up).dbg.frozen = false ∧
    dbgWords (dbg (fun d => { d with sel := 5, addr := 262144 }) up) ≤ (dbg (fun d => { d with sel := 5, addr := 262144 }) up).dbg.addr.toNat ∧
    dbgWaiter oneWaiter ≠ 0 ∧ dbgWaiter up = 0 := by decide +kernel

/-- A packet of this chip whose first flit went to port 9. -/
def injectingPair : State :=
  mPort 9 (fun q => { q with current := some (⟨{ (pkt 0x01 []) with inport := 10 }, false⟩, 1) }) upPair

theorem witness_RoutesAreHeld :
    fabricOn upPair = true ∧ fabricOn gated = false ∧ injecting injectingPair = true ∧
    ({ upPair with rtr := { pair with hold := false } } : State).rtr.hold = false ∧
    upPair.rtr.hold = true ∧ injecting upPair = false ∧ upPair.rtr.holdDone = true ∧
    ringMapBad upPair (RingMap.mk ((31 : W32).extractLsb' 0 5) ((31 : W32).extractLsb' 5 5) ((31 : W32).getLsbD 10)) = false ∧
    ringMapBad upPair (RingMap.mk ((0 : W32).extractLsb' 0 5) ((0 : W32).extractLsb' 5 5) ((0 : W32).getLsbD 10)) = true ∧
    ({ upPair with rtr := { pair with holdDone := false } } : State).rtr.holdDone = false := by decide +kernel

/-- A packet at the router input of port 9. -/
def headed (k : Packet) : State := { upPair with rtr := { pair with inputs := [(9, [k])] } }

/-- To this chip; to this chip with another map's number; to the other chip. -/
def hereChunk : Packet := { pkt 0x01 [] with inport := 9 }
def hereReserved : Packet := pkt 0x10 [0x7F]
def staleChunk : Packet := { hereChunk with gen := 1 }
def awayBand : Packet := { pkt 0x10 [0x01] with dst := ⟨1, 0, 0, 0⟩ }

/-- A top-k packet to the other chip: the link has agreed no capability. -/
def awayTopk : Packet := { pkt 0x03 [] with dst := ⟨1, 0, 0, 0⟩, inport := 9, vc := 1 }

def hereBand : Packet := pkt 0x10 [0x01]

theorem witness_HeadersAreRouted : fabricOn (headed hereChunk) = true ∧
    nextHeader (headed hereChunk) [hereChunk] = some hereChunk ∧ decideRoute (headed hereChunk) hereChunk = .deliver ∧
    hereChunk.isBand = false ∧ nextHeader (headed hereBand) [hereBand] = some hereBand ∧
    decideRoute (headed hereBand) hereBand = .deliver ∧ hereBand.isBand = true ∧ bandReserved hereBand = false ∧
    nextHeader (headed hereReserved) [hereReserved] = some hereReserved ∧
    decideRoute (headed hereReserved) hereReserved = .deliver ∧ hereReserved.isBand = true ∧ bandReserved hereReserved = true ∧
    nextHeader (headed staleChunk) [staleChunk] = some staleChunk ∧ decideRoute (headed staleChunk) staleChunk = .drop ∧
    nextHeader (headed awayBand) [awayBand] = some awayBand ∧
    decideRoute (headed awayBand) awayBand = .go 0 true 0 false false ∧ capLacks (headed awayBand) 0 awayBand = false ∧
    nextHeader (headed awayTopk) [awayTopk] = some awayTopk ∧ decideRoute (headed awayTopk) awayTopk = .go 0 false 1 false false ∧
    capLacks (headed awayTopk) 0 awayTopk = true ∧ fenced (headed awayTopk) = false ∧ nextHeader up [] = none := by
  decide +kernel

/-- A recorded message is fenced while a replay runs. -/
theorem witness_HeadersAreRouted_fenced : fenced { up with rru := { run := true } } = true := rfl

/-- Port 9 is in the map. -/
def port9On : State := { up with rtr := { portMap := [(9, 0x80000)] } }

theorem witness_PhyEventsMoveThePort :
    (portOf (port9 fun q => { q with st := 1 }) 9).st = 1 ∧ (portOf up 9).st ≠ 1 ∧
    (portOf (port9 fun q => { q with st := 6 }) 9).st = 6 ∧ (0xFFFE : W16) ≠ 0xFFFF ∧ (portOf up 9).st ≠ 6 ∧ (portOf up 9).st = 0 ∧
    (portOf (port9 fun q => { q with st := 5 }) 9).st ≠ 0 ∧ mayTrain (mPort 9 (fun q => { q with present := true }) up) 9 = false ∧
    mayTrain (mPort 9 (fun q => { q with present := true }) port9On) 9 = true := by decide +kernel

/-- A training flit: kind 0, control code 2. -/
def trainFlit : BitVec 1024 := BitVec.ofNat 1024 (2 * 2 ^ 32)

theorem witness_PortsTrain :
    injectedBad (port9 fun q => { q with st := 2 }) 9 = false ∧ (portOf (fecCounted 9 255 (port9 fun q => { q with st := 2 })) 9).st = 2 ∧
    (portOf (fecCounted 9 255 up) 9).st ≠ 2 ∧
    leAt (leBytes 128 trainFlit.toNat) 0 1 % 4 = 0 ∧ leAt (leBytes 128 trainFlit.toNat) 4 1 = 2 ∧
    (portOf (port9 fun q => { q with st := 2 }) 9).st = 2 ∧ (1 : W32).getLsbD 0 = true ∧ (0 : W32).getLsbD 0 = false ∧
    fabricOn up = true ∧ fabricOn gated = false ∧ up.rtr.holdDone = true ∧
    (0 : W32).getLsbD 19 = false ∧ (0x80000 : W32).getLsbD 19 = true ∧ (portOf up 9).st = 0 ∧
    (portOf (port9 fun q => { q with st := 7 }) 9).st = 7 ∧ (portOf (port9 fun q => { q with st := 6 }) 9).st ≠ 0 ∧
    (portOf (port9 fun q => { q with st := 6 }) 9).st ≠ 7 ∧
    ({ up with rtr := { holdDone := false } } : State).rtr.holdDone = false := by decide +kernel

/-- Port 9 is UP with its keys loaded. -/
def upPort : State :=
  { port9 fun q => { q with st := 6 } with lsu := { keys := [(36, { loaded := true }), (38, { loaded := true })] } }

/-- The first 112 bytes of a link control flit of frame 0. -/
def lcfHead : List Byte := leBytes 112 (2 ^ 32)

/-- A link control flit with a tag of 16 bytes. -/
def lcf (tag : List Byte) : BitVec 1024 := BitVec.ofNat 1024 (leNat (lcfHead ++ tag))

/-- The tag that upPort computes over a flit. -/
def tagOf (l : List Byte) : List Byte := frameTag (rxFrameStart 9 upPort) 9 l

theorem tagOf_length (l : List Byte) : (tagOf l).length = 16 := by with_unfolding_all rfl

theorem tagOf_head (l r : List Byte) (h : slice l 0 112 = slice r 0 112) : tagOf l = tagOf r := by
  simp only [tagOf, frameTag, h]

theorem lcf_bytes (tag : List Byte) (h : tag.length = 16) : leBytes 128 (lcf tag).toNat = lcfHead ++ tag := by
  have e : (lcfHead ++ tag).length = 128 := by
    rw [List.length_append, h, lcfHead, leBytes_length]
  have lt := leNat_lt (lcfHead ++ tag)
  rw [e] at lt
  have : (lcf tag).toNat = leNat (lcfHead ++ tag) := by
    rw [lcf, BitVec.toNat_ofNat]
    exact Nat.mod_eq_of_lt (Nat.lt_of_lt_of_le lt (by decide +kernel))
  rw [this, ← e, leBytes_leNat]

theorem lcf_tag (tag : List Byte) (h : tag.length = 16) : slice (lcfHead ++ tag) 112 16 = tag := by
  have := slice_after lcfHead tag
  rwa [h, show lcfHead.length = 112 from leBytes_length _ _] at this

theorem lcf_head (tag : List Byte) (i n : Nat) (h : i + n ≤ 112) : slice (lcfHead ++ tag) i n = slice lcfHead i n :=
  slice_before _ _ _ _ (by rw [show lcfHead.length = 112 from leBytes_length _ _]; exact h)

/-- A flit whose tag is the one computed. -/
theorem witness_FramesAreExchanged_tag : ∃ flit : BitVec 1024,
    leAt (leBytes 128 flit.toNat) 4 1 = 1 ∧ BitVec.ofNat 32 (leAt (leBytes 128 flit.toNat) 8 4) = (portOf upPort 9).rxSeq ∧
    frameTag (rxFrameStart 9 upPort) 9 (leBytes 128 flit.toNat) = slice (leBytes 128 flit.toNat) 112 16 := by
  refine ⟨lcf (tagOf lcfHead), ?_⟩
  rw [lcf_bytes _ (tagOf_length _), lcf_tag _ (tagOf_length _)]
  simp only [leAt, lcf_head _ 4 1 (by decide), lcf_head _ 8 4 (by decide)]
  exact ⟨by decide +kernel, by decide +kernel, tagOf_head _ _ (lcf_head _ 0 112 (by decide))⟩

/-- A flit whose tag is another: of two flits that differ in their tags alone, one. -/
theorem witness_FramesAreExchanged_forged : ∃ flit : BitVec 1024,
    leAt (leBytes 128 flit.toNat) 4 1 = 1 ∧ BitVec.ofNat 32 (leAt (leBytes 128 flit.toNat) 8 4) = (portOf upPort 9).rxSeq ∧
    frameTag (rxFrameStart 9 upPort) 9 (leBytes 128 flit.toNat) ≠ slice (leBytes 128 flit.toNat) 112 16 := by
  have wit : ∀ t : List Byte, t.length = 16 → tagOf lcfHead ≠ t → ∃ flit : BitVec 1024,
      leAt (leBytes 128 flit.toNat) 4 1 = 1 ∧ BitVec.ofNat 32 (leAt (leBytes 128 flit.toNat) 8 4) = (portOf upPort 9).rxSeq ∧
      tagOf (leBytes 128 flit.toNat) ≠ slice (leBytes 128 flit.toNat) 112 16 := by
    intro t ht hne
    refine ⟨lcf t, ?_⟩
    rw [lcf_bytes _ ht, lcf_tag _ ht, tagOf_head _ _ (lcf_head t 0 112 (by decide))]
    simp only [leAt, lcf_head _ 4 1 (by decide), lcf_head _ 8 4 (by decide)]
    exact ⟨by decide +kernel, by decide +kernel, hne⟩
  by_cases h : tagOf lcfHead = List.replicate 16 0
  · exact wit (List.replicate 16 1) rfl (by rw [h]; decide)
  · exact wit (List.replicate 16 0) rfl h

/-- A frame sent and not acknowledged. -/
def sentFrame : Frame := { seq := 0, flits := [], lcf := none, replays := 0, epoch := 0 }

theorem witness_FramesAreExchanged :
    injectedBad upPort 9 = false ∧ portUp (fecCounted 9 255 upPort) 9 = true ∧ leAt (leBytes 128 (BitVec.ofNat 1024 1).toNat) 0 1 % 4 ≠ 0 ∧
    (0 : Fin 63).val = (portOf (fecCounted 9 255 upPort) 9).rxIdx ∧ rxKeyReady (fecCounted 9 255 upPort) 9 = true ∧
    serialGt (portOf (fecCounted 9 255 upPort) 9).rxSeq (portOf (fecCounted 9 255 upPort) 9).rxSeq = false ∧
    fenced (rxFrameStart 9 (fecCounted 9 255 upPort)) = false ∧
    serialGt (portOf (mPort 9 (fun q => { q with rxSeq := 1 }) upPort) 9).rxSeq 0 = true ∧
    portUp (countUncorr 9 (fecCounted 9 255 upPort)) 9 = true ∧ framing (countUncorr 9 (fecCounted 9 255 upPort)) 9 = true ∧
    framing (fecCounted 9 255 upPort) 9 = true ∧ (portOf upPort 9).discarding = false ∧
    framing upPort 9 = true ∧ txKeyReady upPort 9 = true ∧ lcfDue upPort 9 = true ∧ retryHeld (portOf upPort 9) < retryFlits ∧
    (portOf (mPort 9 (fun q => { q with retry := [sentFrame] }) upPort) 9).retry = [sentFrame] ∧ (portOf upPort 9).retry = [] ∧
    framing (mPort 9 (fun q => { q with retry := [sentFrame] }) upPort) 9 = true ∧
    max 1 upPort.lnk.timeoutLoops.toNat * creditLoop upPort 9 ≤ (({ upPort with tick := 1000 } : State).tick - 0) * 4000 ∧
    (upPort.tick - (portOf upPort 9).ackTick) * 4000 < max 1 upPort.lnk.timeoutLoops.toNat * creditLoop upPort 9 := by
  decide +kernel

theorem witness_PacketsReachTheirBlocks : ctlOn up = true ∧
    (takeInbox isChunkPkt (withPacket (pkt 0x01 []) up)).isSome = true ∧
    (takeInbox isExpertPkt (withPacket (pkt 0x04 []) up)).isSome = true ∧
    empReady up = true ∧ (takeInbox isMirrorPkt (withPacket (pkt 0x05 []) up)).isSome = true ∧
    bandFound 0x07 (withBand (.clearToSend 1 0) (withSession (x0 0x04 .run) up)) = some (.clearToSend 1 0) ∧
    slotOfGsid (withSession (x0 0x04 .run) up) 7 = some 0 ∧ slot? (withSession (x0 0x04 .run) up) 0 = some (x0 0x04 .run) ∧
    slot? issuing 0 = some (x0 0x03 .run) ∧ (x0 0x03 .run).d.opc ≠ 0x04 ∧ slotOfGsid up 7 = none ∧
    (x0 0x04 .run).d.opc = 0x04 ∧ (x0 0x04 .run).d.count = 1 ∧ (x0 0x04 .run).d.count ≠ 2 ∧ (x0 0x04 .run).d.fmtOut = 0 := by
  decide +kernel

/-- Ring 255 of context 63 is enabled, with 16 descriptors. -/
def ring255 (enable : Bool) : State :=
  { upPair with que := { rings := [(255, { enable := enable, sizeLog2 := 4, ctx := 63, producer := 1 })] } }

/-- Values at the ends of the ring: PRODUCER + 15 = DONE + 16 is taken and DONE + 17 is not. -/
theorem witness_DoorbellsAreTaken :
    ctlOn (ring255 true) = true ∧ ctlOn gated = false ∧
    mayReach (.context 62) 62 (ringOf (ring255 true) 255).ctx.toNat = false ∧
    mayReach (.context 63) 63 (ringOf (ring255 true) 255).ctx.toNat = true ∧
    (ringOf (ring255 true) 255).ctx.toNat ∈ ({ ring255 true with rst := { ctx := [63] } } : State).rst.ctx ∧
    (ringOf (ring255 true) 255).ctx.toNat ∉ (ring255 true).rst.ctx ∧ (ring255 true).rtr.isSpare = false ∧
    State.reset.rtr.isSpare = true ∧
    (ringOf (ring255 true) 255).enable = true ∧ serialGe 16 (ringOf (ring255 true) 255).producer = true ∧
    (16 - (ringOf (ring255 true) 255).done).toNat ≤ 2 ^ (ringOf (ring255 true) 255).sizeLog2.toNat ∧
    2 ^ (ringOf (ring255 true) 255).sizeLog2.toNat < (17 - (ringOf (ring255 true) 255).done).toNat ∧
    serialGe 0 (ringOf (ring255 true) 255).producer = false ∧ (ringOf (ring255 false) 255).enable = false := by decide +kernel

/-- A template for a sum over one chip: one tile, one element a part, ledger scale -16, no completion signal. -/
def tplGood : Nat := 1 + 2 ^ 28 + (1 + 2 ^ 40 + 0xF0 * 2 ^ 48) * 2 ^ 64 + 2 ^ 128 + 2 * 2 ^ 340

def staging : State :=
  { upPair with tpl := { data := [(0, 0x10000001), (2, 1), (3, 0x00F00100), (4, 1), (10, 0x00200000)] } }

theorem witness_TemplatesAreWritten :
    ctlOn staging = true ∧ ctlOn gated = false ∧
    tplStaged staging = BitVec.ofNat 512 tplGood ∧ tplOpen staging staging.tpl.index.toNat = 0 ∧
    tplBad staging (tplStaged staging) = false ∧ tplOpen up up.tpl.index.toNat = 0 ∧ tplBad up (tplStaged up) = true ∧
    0 < tplOpen (withSession { x0 0x01 .run with src := .tpl 0 0 0 } staging) staging.tpl.index.toNat := by decide +kernel

/-- SIZE_LOG2 at 4 and 16, and one beyond each end; a region of kind 3. -/
theorem witness_RingsAndRegionsAreConfigured :
    ctlOn up = true ∧ ctlOn gated = false ∧
    regionUsers up (bits up.ses.regIndex.toNat 21 16) (bits up.ses.regIndex.toNat 7 0) = 0 ∧
    regionBad up ((1 : W32).getLsbD 0) (bits (1 : W32).toNat 5 4) up.ses.regBase.toNat up.ses.regLen.toNat = false ∧
    regionBad up ((0x31 : W32).getLsbD 0) (bits (0x31 : W32).toNat 5 4) up.ses.regBase.toNat up.ses.regLen.toNat = true ∧
    0 < regionUsers (withSession (x0 0x03 .run) up) 0 0 ∧ (33 : W32).getLsbD 0 = true ∧
    (ringOf up up.que.ringIndex.toNat).enable = false ∧ (ringOf up up.que.ringIndex.toNat).idle = true ∧
    (bits (9 : W32).toNat 5 1, bits (33 : W32).toNat 5 1) = (4, 16) ∧ bits (7 : W32).toNat 5 1 < 4 ∧ 16 < bits (35 : W32).toNat 5 1 ∧
    (8 : W32).getLsbD 0 = false ∧
    (ringOf ({ up with que := { rings := [(0, { enable := true })] } } : State) 0).enable = true ∧
    (ringOf ({ up with que := { rings := [(0, { enable := true })] } } : State) 0).idle = true ∧
    (ringOf ({ up with que := { rings := [(0, { producer := 1 })] } } : State) 0).idle = false ∧
    cfgNamed up [0x02] up.ses.depIndex.toNat = false ∧
    cfgNamed (withSession { x0 0x02 .run with d := { d0 with opc := 0x02 } } up) [0x02] up.ses.depIndex.toNat = true := by decide +kernel

/-- Word 0 of a row entry: RMS mode 3 with a hold of 2; K is 1. -/
def rowWord (mode : Nat) : Nat := mode + 2 * 2 ^ 18

theorem witness_TableEntriesAreCommitted : ctlOn up = true ∧ ctlOn gated = false ∧
    cfgNamed up [0x01, 0x0B] up.fin.index.toNat = false ∧
    cfgNamed (withSession (x0 0x0B .run) up) [0x01, 0x0B] up.fin.index.toNat = true ∧
    finBad (joinWords [(0 : W64).toNat &&& finMask0, (match up.fin.held with
      | some h => h.toNat
      | none => bits (finEntry up up.fin.index.toNat) 127 64) &&& finMask1]) = false ∧
    finBad (joinWords [(0xFF : W64).toNat &&& finMask0, (match up.fin.held with
      | some h => h.toNat
      | none => bits (finEntry up up.fin.index.toNat) 127 64) &&& finMask1]) = true ∧
    cfgNamed up [0x06] up.row.index.toNat = false ∧ cfgNamed (withSession (x0 0x06 .run) up) [0x06] up.row.index.toNat = true ∧
    rowBad (joinWords [rowWord 3 &&& rowMask0, heldWord [(1, BitVec.ofNat 64 (2 ^ 32))] 0 1 &&& rowMask1, 0]) = false ∧
    rowBad (joinWords [0, 0, 0]) = true ∧
    cfgNamed up [0x08, 0x09, 0x0A] up.spx.index.toNat = false ∧
    cfgNamed (withSession (x0 0x0A .run) up) [0x08, 0x09, 0x0A] up.spx.index.toNat = true ∧
    spxBad (joinWords [(0 : W64).toNat &&& spxMask0, heldWord [(1, 1)] 0 1, 0]) = false ∧ spxBad (joinWords [0, 0, 0]) = true ∧
    up.opt.en = false ∧ ({ up with opt := { en := true } } : State).opt.en = true ∧
    assoc? ({ up with opt := { held := [(15, 7)] } } : State).opt.held 15 = some 7 ∧ stashNamed up up.spx.stashIndex.toNat = false ∧
    stashNamed (withSession { x0 0x05 .run with stash := some (0, 0) } up) 0 = true ∧
    (bits (BitVec.ofNat 64 (2 ^ 32 + 30 * 2 ^ 16)).toNat 20 16, bits (BitVec.ofNat 64 (2 ^ 32 + 12 * 2 ^ 16)).toNat 20 16) = (30, 12) ∧
    stNent (BitVec.ofNat 64 (2 ^ 32 + 30 * 2 ^ 16) &&& 0x80001FFF001F3FFF) ≠ 0 ∧
    bits (BitVec.ofNat 64 (2 ^ 32 + 11 * 2 ^ 16)).toNat 20 16 < 12 ∧ 30 < bits (BitVec.ofNat 64 (2 ^ 32 + 31 * 2 ^ 16)).toNat 20 16 ∧
    stNent (BitVec.ofNat 64 (30 * 2 ^ 16) &&& 0x80001FFF001F3FFF) = 0 := by decide +kernel

theorem witness_NodesTakeOperands : ctlOn issuing = true ∧
    slot? issuing 0 = some (x0 0x03 .run) ∧ (x0 0x03 .run).st = .run ∧ datapathOff issuing = false ∧ (x0 0x03 .run).d.opc ≠ 0x08 ∧
    (x0 0x08 .run).d.opc = 0x08 ∧ (x0 0x03 .wait).st ≠ .run ∧ datapathOff gated = true ∧
    bandFound 0x05 (withBand (.absent 0 0 0 1) issuing) = some (.absent 0 0 0 1) ∧
    slotOfGsid issuing 7 = some 0 ∧ bandFound 0x06 (withBand (.slotReturn 0 1) issuing) = some (.slotReturn 0 1) ∧
    bandFound 0x04 (withBand (.abort 1 0 false) issuing) = some (.abort 1 0 false) := by decide +kernel

/-- Session 7 at this chip in a state of admission, needing one palm buffer. -/
def waiting (st : SesState) : State := withSession { x0 0x01 st with palm := 1 } { upPair with tick := 2500 }

theorem witness_MembersAreAdmitted :
    intakeOn upPair = true ∧ intakeOn gated = false ∧ upPair.rtr.shapeOk = true ∧ upPair.rtr.isSpare = false ∧
    bandFound 0x12 (withBand .admitted (waiting .held)) = some .admitted ∧
    ((memberSession (waiting .held) 7 0).map fun p => p.2.st) = some .held ∧
    ((memberSession (waiting .wait) 7 0).map fun p => p.2.st) = some .wait ∧
    bandFound 0x15 (withBand .retract (waiting .firm)) = some .retract ∧
    bandFound 0x16 (withBand .go (waiting .firm)) = some .go ∧
    ((memberSession (waiting .firm) 7 0).map fun p => p.2.st) = some .firm ∧
    (slot? (waiting .wait) 0).map (mayConsider (waiting .wait)) = some true ∧
    (slot? (waiting .wait) 0).map (·.palm) = some 1 ∧ (waiting .wait).rru.run = false ∧
    max 1 (waiting .wait).ses.stageAfter.toNat ≤ (waiting .wait).tick - 0 ∧
    2499 - 0 < max 1 (waiting .wait).ses.stageAfter.toNat := by decide +kernel

/-- Session 7 coordinated at this chip for a group of two, the first or both of which have granted. -/
def home7 (granted : BitVec 16) (admitted : Bool) : State :=
  { upPair with ses := { homes := [{ gsid := 7, ctx := 0, step := 0, axis := 0, gsize := 2, rank0 := ⟨0, 0, 0, 0⟩,
                                     granted := granted, admitted := admitted }] } }

/-- The coordinated session that a message finds. -/
def homeFound (t : Nat) (s : State) : Option Bool :=
  match homeMsg t s with
  | .inl (some (h, _, _)) => some h.admitted
  | _ => none

theorem witness_HomesCoordinate : intakeOn upPair = true ∧ intakeOn gated = false ∧
    bandFound 0x10 (withBand (.grant 1 false 0 2 0 ⟨0, 0, 0, 0⟩) upPair) = some (.grant 1 false 0 2 0 ⟨0, 0, 0, 0⟩) ∧
    home? upPair 7 = none ∧
    (home? (home7 1 false) 7).map (fun h => (h.step, h.axis, h.gsize, h.rank0, h.granted.getLsbD 1)) =
      some (0, 0, 2, ⟨0, 0, 0, 0⟩, false) ∧
    (home? (home7 3 false) 7).map (fun h => (h.admitted, h.granted)) = some (false, fullMask 2) ∧ (1 : BitVec 16) ≠ fullMask 2 ∧
    homeFound 0x11 (withBand .revoke (home7 3 false)) = some false ∧
    homeFound 0x13 (withBand .firm (home7 3 true)) = some true ∧ homeFound 0x14 (withBand .refuse (home7 3 true)) = some true := by
  decide +kernel

/-- A row session of one row of one element in a mode, with its blocks. -/
def rowSes (mode rowNext : Nat) (rows : Sparse RowBlock) : State :=
  withSession { x0 0x06 .run with rowNext := rowNext, rows := rows }
    { upPair with row := { entries := [(0, BitVec.ofNat 192 (rowWord mode + 2 ^ 96))] } }

def passOf (s : State) : Option (Nat × Nat) := (slot? s 0).bind (nextPass s 0)

/-- A gather of 16 elements of four bytes, all received, that is transposed: rows 16, columns 1. -/
def transposing : State :=
  withSession { x0 0x02 .run with d := { d0 with opc := 0x02, count := 16 }, got := [(0, true)] }
    { upPair with ses := { dep := [(0, BitVec.ofNat 64 (2 ^ 63 + 1 + 16 * 2 ^ 8 + 2 ^ 32))] } }

def onSession (s : State) (f : State → Session → Bool) : Option Bool := (slot? s 0).map (f s)

/-- A chunk that waits to enter FIN. -/
def finItem : FinItem := ⟨0, 7, 0, 0, [], 0, [], [], [], none⟩

theorem witness_OutputsAreFinished :
    empReady up = true ∧ datapathOff up = false ∧ finNext { up with fin := { queue := [finItem] } } = some finItem ∧
    issueStopped (rowSes 0 0 []) = false ∧ onSession (rowSes 0 0 []) sessionFree = some true ∧
    passOf (rowSes 0 0 []) = some (1, 0) ∧ passOf (rowSes 2 1 [(0, { firstDone := true, final0 := true })]) = some (2, 0) ∧
    passOf (rowSes 0 1 [(0, { firstDone := true, final0 := true })]) = some (3, 0) ∧ passOf (rowSes 0 1 []) = none ∧
    onSession (rowSes 3 1 [(0, { stat0 := [0] })]) (fun s x => decide ((blockOf x 0).stat0 ≠ [] ∧ (blockOf x 0).final0 = false ∧
      3 ≤ rowMode (rowE s x))) = some true ∧
    onSession (rowSes 1 1 [(0, { stat0 := [0] })]) (fun s x => decide (rowMode (rowE s x) < 2)) = some true ∧
    onSession (rowSes 2 1 [(0, { stat0 := [0], final0 := true, stat1 := [0] })]) (fun s x => decide (rowMode (rowE s x) = 2 ∧
      (blockOf x 0).final0 = true ∧ (blockOf x 0).final1 = false ∧ (blockOf x 0).stat1 ≠ [])) = some true := by decide +kernel

/-- The block of a transposed gather has arrived, and no write touches its bytes. -/
theorem witness_OutputsAreFinished_transpose :
    onSession transposing (fun s x => decide (ctlOn s = true ∧ x.d.opc = 0x02 ∧ x.st = .run ∧ 0 < transposeBlocks s x.d ∧
      Sparse.get false x.tblocks 0 = false ∧ empReady s = true) &&
      gatherHas x (0 * rowBlockRows x.d.fmtOut * depCols (depEntry s x.d.stageCfg))
        (rowBlockRows x.d.fmtOut * depCols (depEntry s x.d.stageCfg)) && !writesTo s 0 64) = some true := by decide +kernel

def blockWork : LocalOp := { reads := [0], tag := none, seq := 0, work := .block [] }

theorem witness_OutputsAreFinished_block : slot? transposing 0 ≠ none ∧ blockWork.work = .block [] ∧ blockWork.sats = 0 := by
  decide +kernel

/-- An expert session of one token of one element; its routing entry is at address 0. -/
def expert (opc : Nat) (mem : List Host.Cell) : State :=
  withSession (x0 opc .run)
    { upPair with mem := mem, spx := { entries := [(0, BitVec.ofNat 192 (1 + 2 ^ 16 + 2 ^ 32 + 2 ^ 63 + 2 ^ 84))] } }

/-- A stash of one place, which is taken. -/
def stashFull (waited : Bool) : State :=
  withSession { x0 0x05 .run with stash := some (0, 1), stashWaited := waited }
    { upPair with spx := { stash := [(0, { cfg := BitVec.ofNat 64 (2 ^ 32) })] } }

theorem witness_ExpertsAndReceiversProceed :
    issueStopped (expert 0x09 []) = false ∧ onSession (expert 0x09 []) sessionFree = some true ∧
    (x0 0x09 .run).routed = false ∧ (x0 0x09 .run).locals = [] ∧ onSession (expert 0x09 []) tableBad = some true ∧
    onSession (expert 0x09 [(2, 0xFF), (3, 0xFF)]) tableBad = some false ∧ (x0 0x0A .run).combined = false ∧
    ({ blockWork with work := .route } : LocalOp).work = .route ∧ ({ blockWork with work := .tokens } : LocalOp).work = .tokens ∧
    onSession (expert 0x0A [(12, 0xFF), (13, 0xFF), (14, 0xFF), (15, 0xFF)]) (fun s x => combineLanded s 0 x) = some true ∧
    (∀ o ∈ (x0 0x0A .run).locals, o.work ≠ .tokens) ∧ (x0 0x05 .run).ctsSent = false ∧
    onSession (expert 0x05 []) stashReady = some true ∧
    (∀ w ∈ [true, false], onSession (stashFull w) stashReady = some false ∧
      onSession (stashFull w) (fun s x => x.stashWaited == w && sessionFree s x) = some true) ∧ issueStopped (stashFull true) = false := by
  decide +kernel

/-- All 5 places that the stash holds may be released, and a sixth not. -/
theorem witness_ExpertsAndReceiversProceed_release :
    ctlOn up = true ∧ ctlOn gated = false ∧
    mayReach (.context 5) 5 (stCtx (0x500 : W64)) = true ∧ mayReach (.context 6) 6 (stCtx (0x500 : W64)) = false ∧
    (5 : W32).toNat ≤ (({ cfg := 0x500, filled := 5 } : Stash).filled - ({ cfg := 0x500, filled := 5 } : Stash).released).toNat ∧
    (({ cfg := 0x500, filled := 5 } : Stash).filled - ({ cfg := 0x500, filled := 5 } : Stash).released).toNat < (6 : W32).toNat := by
  decide +kernel

/-- Bucket 0 is active with 20,000 elements; its group has one chip. -/
def bucket (k : Bkt) (o : Opt) : State :=
  { up with gas := { buckets := [(0, BitVec.ofNat 512 (2 ^ 63 + 20000 * 2 ^ 128))], bkt := [(0, k)] }, opt := o }

def park0 : Park :=
  { gsid := 7, ctx := 0, ring := 0, n := 0, d := d0, poison := false, infs := 0, sumSq := 0, skip := false, gsize := 1, rank := 0 }

/-- The step under way in a state of it. -/
def stepIn (st : BitVec 3) : Opt := { en := true, state := st }

def stepUp (o : Opt) : State := { up with opt := o }

theorem witness_StepIsDecided : ctlOn up = true ∧
    staleSpans (bucket {} { en := true, state := 0, step := 1 }) = [(0, 0), (1, 0)] ∧
    gasStopped (bucket {} { en := true, state := 0, step := 1 }) = false ∧
    preloadRoom (bucket {} { en := true, state := 0, step := 1 }) 0 = true ∧
    mayContribute (stepUp { stepIn 0 with failed := true }) = true ∧
    contributionDue (stepUp { stepIn 0 with failed := true }) = true ∧
    mayContribute (bucket {} (stepIn 0)) = true ∧ contributionDue (bucket {} (stepIn 0)) = false ∧
    max 1 up.opt.deadline.toNat ≤ ({ up with tick := 250000 } : State).tick - 0 ∧
    nextWave (bucket { park := some park0 } (stepIn 2)) = some 0 ∧
    (bktOf (bucket { park := some park0 } (stepIn 2)) 0).park = some park0 ∧ datapathOff up = false ∧ up.ctl.run = true ∧
    (activeBuckets (stepUp (stepIn 3))).all (tailOver (stepUp (stepIn 3))) = true ∧ chanBusy up 15 = false ∧
    up.flt.ctlLost = false ∧ up.opt.authHalt = false := by decide +kernel

theorem witness_StepIsEnabledAndCommits : ctlOn up = true ∧ ctlOn gated = false ∧
    (1 : W32).getLsbD 0 = true ∧ up.opt.en = false ∧ enableBad (mOpt (stepCtlFields 1) up) = false ∧
    enableBad (mOpt (stepCtlFields 1) (bucket {} {})) = true ∧ (0 : W32).getLsbD 0 = false ∧ (stepUp (stepIn 0)).opt.en = true ∧
    noDeposit (stepUp (stepIn 0)) = true ∧ noDeposit (bucket { deposits := 1 } (stepIn 0)) = false ∧
    (stepUp (stepIn 1)).opt.state ≠ 0 ∧
    (stepUp { stepIn 4 with commitWait := some (0, []) }).opt.commitWait = some ((stepUp (stepIn 4)).opt.step, []) ∧
    (stepUp { stepIn 4 with commitWait := some (0, [(9, 1)]) }).opt.commitWait = some (0, [(9, 1)]) ∧
    ({ up with rru := { run := true } } : State).rru.run = true ∧ up.rru.run = false := by decide +kernel

/-- The mirror's shard of 16,385 elements is updated and may be sent to its end. -/
def mirroring (at_ : Nat) : State :=
  bucket { shard := 16385, cursor := 20000, mirrorAt := at_ } { en := true, mirrorEn := true, verdict := 1, state := 3 }

/-- A mirrored bucket's seal is out. -/
def sealed : State :=
  bucket { shard := 1, sealSent := true, mirrorTick := some 0 } { en := true, mirrorEn := true, verdict := 1, state := 3 }

/-- A RESTORE runs; bucket 0's record of one element is whole. -/
def restoring : State :=
  let s := bucket { shard := 1, restored := [(0, true), (1, true), (2, true)] } {}
  let t : State := { s with flt := { recState := 1, recOp := 3 }, tick := 25000 }
  mBkt 0 (fun k => { k with restoreSeal := sealBytes t 0 (recArgStep t) }) t

/-- The first wave of a record of two, which takes 49 tags and the seal's, and the second, of one element. -/
theorem witness_MirrorsAreKept : ctlOn up = true ∧ (∀ at_ ∈ [0, 16384],
      mirrorJob (mirroring at_) 0 = some (0, true, 16385) ∧ (bktOf (mirroring at_) 0).mirrorAt = at_ ∧
      0 < min 16384 (bktQ (mirroring at_) 0 - at_) ∧ at_ + min 16384 (bktQ (mirroring at_) 0 - at_) ≤ 16385 ∧
      empReady (mirroring at_) = true ∧ issueStopped (mirroring at_) = false ∧
      tagsHeld (mirroring at_) + (1 + optNState (mirroring at_) (bkOpt (bktEntry (mirroring at_) 0))) *
        cdiv (min 16384 (bktQ (mirroring at_) 0 - at_)) 1024 + 1 ≤ 65536) ∧
    0 + min 16384 (bktQ (mirroring 0) 0 - 0) < bktQ (mirroring 0) 0 ∧
    bktQ (mirroring 16384) 0 ≤ 16384 + min 16384 (bktQ (mirroring 16384) 0 - 16384) ∧
    bandFound 0x08 (withBand (.mirrorAck 0 true) sealed) = some (.mirrorAck 0 true) ∧
    (activeBuckets sealed).find? (fun b => bkTag (bktEntry sealed b) == 0 && (bktOf sealed b).sealSent &&
      !(bktOf sealed b).mirrored) = some 0 ∧ ackStep sealed = 0 ∧ ackGen sealed = true ∧ false ≠ ackGen sealed := by decide +kernel

/-- A seal not acknowledged in time, after none or three repeats; a whole record, with its own seal or another. -/
theorem witness_MirrorsAreKept_end :
    (bktOf sealed 0).mirrorTick = some 0 ∧ sealed.opt.en = true ∧ (bktOf sealed 0).mirrored = false ∧
    sealed.opt.mirrorTimeout.toNat ≤ ({ sealed with tick := 25000 } : State).tick - 0 ∧ (bktOf sealed 0).resends < 3 ∧
    3 ≤ (bktOf (mBkt 0 (fun k => { k with resends := 3 }) sealed) 0).resends ∧ recOn sealed 4 = false ∧ recOn sealed 7 = false ∧
    recOn restoring 3 = true ∧ bkActive (bktEntry restoring 0) = true ∧ (bktOf restoring 0).verified = false ∧
    recordWhole restoring 0 = true ∧ empReady restoring = true ∧ recordOk restoring 0 = true ∧
    recordOk (mBkt 0 (fun k => { k with restoreSeal := [] }) restoring) 0 = false ∧ ctlOn restoring = true ∧
    max 1 restoring.flt.recTimeout.toNat ≤ restoring.tick - restoring.flt.recTick := by decide +kernel

theorem witness_RecoveryOperationsBegin : ctlOn up = true ∧ ctlOn gated = false ∧
    up.flt.recState ≠ 1 ∧ mirrorWriting (recBegun 5 up) = false ∧
    mirrorWriting (recBegun 5 { up with emp := { writes := [⟨0, .mirror 0 false ⟨0, 0, 0, 0⟩ 0 false, 1⟩] } }) = true ∧
    (stepUp { stepIn 0 with mirrorEn := true }).opt.mirrorEn = true ∧
    up.flt.updateBegun = false ∧ up.opt.en = false ∧ (stepUp { stepIn 4 with verdict := 1 }).opt.verdict = 1 ∧
    (stepUp { mirrorSrc := 0x10000 }).opt.mirrorSrc.getLsbD 16 = true ∧ up.opt.mirrorSrc.getLsbD 16 = false ∧
    enableBad (quiesce (recBegun 1 up)) = false ∧ enableBad (quiesce (recBegun 1 (bucket {} {}))) = true ∧
    restoring.flt.recState = 1 := by decide +kernel

/-- A RETURN of a region of 8,192 bytes, one packet, before and after it was sent. -/
def returning (pos : Nat) : State :=
  { up with opt := { mirrorLen := 8192 }, flt := { recState := 1, recOp := 2, recPos := pos } }

theorem witness_RecoveryOperationsBegin_return :
    recOn (returning 0) 2 = true ∧ 4096 * 0 < (returning 0).opt.mirrorLen.toNat / 2 ∧ issueStopped (returning 0) = false ∧
    freeTag (returning 0) = some 0 ∧ (returning 1).opt.mirrorLen.toNat / 2 ≤ 4096 * 1 ∧ mirrorWaiting (returning 1) = false := by
  decide +kernel

/-- A RESTORE with FINAL = 1 has waited REC_TIMEOUT. -/
def restoreLate : State := { up with flt := { recState := 1, recOp := 3, recTimeout := 10, recArg := 0x80060005 }, tick := 10 }

theorem witness_RecoveryOperationsBegin_lost :
    ctlOn restoreLate = true ∧ up.flt.recState ≠ 1 ∧ restoreLate.flt.recOp = 3 ∧ recOn restoreLate 3 = true ∧
    max 1 restoreLate.flt.recTimeout.toNat ≤ restoreLate.tick - restoreLate.flt.recTick ∧ recArgFinal restoreLate = true ∧
    restoreLate.pwr.outFull = false ∧ restoreLate.pwr.heldMsgs = [] ∧
    ({ restoreLate with pwr := { outFull := true } } : State).pwr.outFull = true := by decide +kernel

/-- Segment 0 of context 63 maps its virtual objects 0 to 63 to physical objects 64 to 127. -/
def mapped : State := { up with syn := { segments := [(1008, BitVec.ofNat 64 (1 + 2 ^ 20 + 2 ^ 32))] } }

/-- The same, as a wait segment (bit 1). -/
def waitMapped : State := { up with syn := { segments := [(1008, BitVec.ofNat 64 (3 + 2 ^ 20 + 2 ^ 32))] } }

theorem witness_WindowPrimitivesAct : fabricOn mapped = true ∧ fabricOn gated = false ∧
    Sys2Proof.Machine.translate mapped 63 (winOf mapped 63).obj.toNat = some (64, false) ∧
    Sys2Proof.Machine.translate { mapped with syn := { mapped.syn with windows := [(63, { obj := 63 })] } } 63 63 = some (127, false) ∧
    Sys2Proof.Machine.translate mapped 63 64 = none ∧ Sys2Proof.Machine.translate waitMapped 63 63 = some (127, true) := by
  decide +kernel

theorem witness_SegmentsMonitorsAndTimeouts : fabricOn up = true ∧ fabricOn gated = false ∧
    segEn (BitVec.ofNat 64 (1 + 2 ^ 20 + 2 ^ 32)) = true ∧ segBad (BitVec.ofNat 64 (1 + 2 ^ 20 + 2 ^ 32)) = false ∧
    segEn (Sparse.get 0 up.syn.segments (bits up.syn.segIndex.toNat 21 16 * 16 + bits up.syn.segIndex.toNat 3 0)) = false ∧
    (segEnable 0 (BitVec.ofNat 64 (1 + 2 ^ 20 + 2 ^ 32)) up).isSome = true ∧
    segEnable 0 (BitVec.ofNat 64 (3 + 2 ^ 20 + 2 ^ 32)) up = none ∧ segBad 1 = true ∧ segBad (BitVec.ofNat 64 (4095 * 2 ^ 20 + 2 * 2 ^ 32)) = true ∧
    segBad (BitVec.ofNat 64 (4095 * 2 ^ 20 + 2 ^ 32)) = false ∧
    (0 : W64).getLsbD 25 = false ∧ (0x03100000 : W64).getLsbD 25 = true ∧
    armCode mapped 63 (0x01100000 : W64).toNat 0 = cOk ∧
    (Sys2Proof.Machine.translate mapped 63 (bits (0x01100000 : W64).toNat 19 0)).isSome = true ∧
    (armCode mapped 63 (0x01F00000 : W64).toNat 0 ≠ cOk ∧ armCode mapped 63 (0x01F00000 : W64).toNat 0 ≠ cSyncIdUnmapped) ∧
    (ringOf oneWaiter 255).headState = .wait 5 0 ∧ oneWaiter.rru.run = false ∧ ctlOn oneWaiter = true ∧
    classTicks oneWaiter 5 ≤ ({ oneWaiter with tick := 25000 } : State).tick - 0 ∧
    ctlOn { oneWaiter with pwr := { cur := 1 } } = false ∧ oneWaiter.syn.expired = [] ∧
    (monOf { up with syn := { monitors := [(4095, { armed := true, phys := 5 })] } } 63 63).armed = true := by decide +kernel

theorem witness_ContextsArePreempted : fabricOn up = true ∧ fabricOn gated = false ∧
    (0x100 : W32).getLsbD 8 = true ∧ (0x200 : W32).getLsbD 9 = true ∧ (63 : W32).getLsbD 8 = false ∧ (63 : W32).getLsbD 9 = false := by
  decide +kernel

def arrival0 : Arrival :=
  { chan := 40, op := 0, fmt := 0, gsize := 0, status := .zero, epoch := 1, count := 1, value := 0, crown := ⟨0, 0, 0, 0⟩ }

/-- A combining entry at its crown since tick 0, and the head of ring 255 whose signal is out. -/
def atCrown : State :=
  { up with tick := 375000, que := { rings := [(255, { headState := .remote })] },
            syn := { combine := [{ chan := 40, crown := ⟨0, 0, 0, 0⟩, ctx := 0, step := 0, arrivals := [], mismatch := false,
                                   sent := false, start := 0, tree := ⟨[], none, true, 1⟩ }] } }

theorem witness_BandMessagesAct : fabricOn issuing = true ∧ fabricOn atCrown = true ∧ ctlOn atCrown = true ∧
    bandFound 0x01 (withBand (.signal 0 true 5 0 1) issuing) = some (.signal 0 true 5 0 1) ∧
    bandFound 0x01 (withBand (.signal 0 true 5 64 1) issuing) = some (.signal 0 true 5 64 1) ∧ (64 : Nat) ≠ 0 ∧
    gsidHeld issuing 7 = true ∧ landedOf issuing 7 < 64 ∧ gsidHeld (withSession { x0 0x03 .run with landed := 64 } up) 7 = true ∧
    64 ≤ landedOf (withSession { x0 0x03 .run with landed := 64 } up) 7 ∧
    bandFound 0x02 (withBand (.arrive arrival0) up) = some (.arrive arrival0) ∧
    bandFound 0x03 (withBand (.release arrival0) up) = some (.release arrival0) ∧
    (crownDue atCrown 40 false).isSome = true ∧ (ringOf atCrown 255).headState = .remote ∧ signalWaiting atCrown 255 = false := by
  decide +kernel

/-- 255 or 256 signals wait for sessions that this chip does not hold. -/
def fencedUp (n : Nat) : State :=
  { up with syn := { fenced := List.replicate n ⟨9, 64, 0, 0, true, 0, 1, ⟨0, 0, 0, 0⟩⟩ } }

theorem witness_BandMessagesAct_fences :
    gsidHeld (fencedUp 255) 7 = false ∧ fencePending (fencedUp 255) < 256 ∧ 256 ≤ fencePending (fencedUp 256) := by decide +kernel

/-- Capture and replay in a state. -/
def rru (r : Rru) : State := { up with rru := r }

/-- Two beats of the budget are left on the sub-channel of the next header, and then one. -/
theorem witness_CaptureIsControlled : ctlOn up = true ∧ ctlOn gated = false ∧
    (0 : W32).extractLsb' 0 2 = 0 ∧ (3 : W32).extractLsb' 0 2 ≠ 0 ∧ up.rru.mode = 0 ∧
    (rru { mode := 1 }).rru.mode ≠ 0 ∧ (rru { active := true }).rru.active = true ∧ (rru { active := true }).rru.frozen = false ∧
    up.rru.active = false ∧ capturing (rru { active := true, lostPay := 1 }) = true ∧ 0 + 1 ≠ 0 ∧
    capHdrRoom (rru { active := true, lostPay := 1, used := [(0, 2498)] }) = true ∧
    capHdrRoom (rru { active := true, lostPay := 1, used := [(0, 2499)] }) = false := by decide +kernel

/-- Two records: a step header that fits the configuration, and one more given by its bytes 8, 9, 16, 20 and 24. -/
def recorded (a b c d e : Byte) (run : Bool) (s : State) : State :=
  { s with
    mem := ([(8, 3), (19, 0xE4), (29, 0x30), (36, 0xC4), (37, 0x09), (136, a), (137, b), (144, c), (148, d), (152, e)] :
      List Host.Cell).filter fun p => p.2 != 0,
    rru := { hdrLen := 512, hdrWrite := 2, run := run, next := [(9, 1), (15, 1)] } }

/-- A band packet of port 9 with a payload; a recorded choice of class 7 for session 7. -/
def recordedPacket : State := recorded 0x91 0x08 0 0 0x10 true up
def recordedChoice : State := recorded 0xF5 0 7 7 0 true issuing

theorem witness_ReplaysRun : ctlOn up = true ∧ ctlOn gated = false ∧
    replayReady (recorded 0x91 0x08 0 0 0x10 false up) = true ∧ replayReady up = false ∧ recordedPacket.rru.run = true ∧
    up.rru.run = false ∧
    recordFrom recordedPacket (isPacketOf 9) (portNext recordedPacket 9) = some 1 ∧ 1 < (spanEnd recordedPacket).1 ∧
    recordedPacket.rru.goCcc.toNat + (recCcc (recordAt recordedPacket 1) - recordedPacket.rru.t0.toNat) ≤ recordedPacket.ccc.toNat ∧
    recKind (recordAt recordedPacket 1) = 1 ∧ recPay (recordAt recordedPacket 1) = true ∧
    recPay (recordAt (recorded 0x91 0x00 0 0 0x10 true up) 1) = false ∧
    replayAccepts recordedPacket (recordPacket recordedPacket (recordAt recordedPacket 1)) = true ∧
    recordFrom recordedChoice isForced (portNext recordedChoice 15) = some 1 ∧
    (applyForced (recordAt recordedChoice 1) recordedChoice).isSome = true := by decide +kernel

/-- Every port is UP. -/
def allUp : State := { up with lnk := { ports := (List.range 10).map fun p => (p, { st := 6 }) } }

theorem witness_ErrorsAreLoggedAndHandled :
    (∀ m : Fin 12, memOn m.val up = true ∧ eccInjected up 1 m.val = false ∧ eccInjected up 2 m.val = false) ∧
    up.ctl.run = true ∧ memOn 9 allUp = true ∧ eccInjected allUp 2 9 = false ∧ eccInjected allUp 2 8 = false ∧
    (0x80000000 : W32).getLsbD 31 = true ∧ (0 : W32).getLsbD 31 = false ∧ ctlOn up = true ∧ fabricOn up = true ∧
    ctlOn gated = false ∧ fabricOn gated = false := by decide +kernel

theorem witness_ErrorsAreLoggedAndHandled_port (word : W32) : portUp allUp (Config.bufferOwner word.toNat % 10) = true := by
  have h : ∀ p, p < 10 → portUp allUp p = true := by decide +kernel
  exact h _ (Nat.mod_lt _ (by decide))

theorem witness_FaultsAndInjections : ctlOn issuing = true ∧ ctlOn gated = false ∧
    (slot? issuing 0).map (fun x => isGradient issuing x.d x.ctx) = some false ∧ (x0 0x03 .run).st ≠ .rejected ∧
    max 1 issuing.flt.sessTimeout.toNat ≤ ({ issuing with tick := 250000 } : State).tick - 0 ∧
    (0x1A : W32).getLsbD 4 = true ∧ (0x0A : W32).getLsbD 4 = false ∧
    ((bits (0x1A : W32).toNat 3 0, bits (0x19 : W32).toNat 3 0, bits (0x17 : W32).toNat 3 0, bits (0x11 : W32).toNat 3 0) = (10, 9, 7, 1)) ∧
    (bits (0x10 : W32).toNat 3 0 = 0 ∧ 10 < bits (0x1B : W32).toNat 3 0) ∧
    portUp allUp 9 = true ∧ portUp up 9 = false ∧ bits ({ up with flt := { injTarget := 10 } } : State).flt.injTarget.toNat 3 0 = 10 ∧
    ({ x0 0x03 .run with holdUntil := some 100 } : Session).holdUntil = some 100 ∧ 100 ≤ late.tick ∧
    ({ late with flt := { silentUntil := some 100 } } : State).flt.silentUntil = some 100 := by decide +kernel

/-! ### Worked examples and values of the spec -/

/-- The next state that a command answers. -/
def after (c : Instr) (s : State) : Option State :=
  match exec c s with
  | .next t => some t
  | _ => none

/-- The CRC of the nine bytes "123456789" (06 R201). -/
theorem test_crc32c_check_value :
    crc32c [0x31, 0x32, 0x33, 0x34, 0x35, 0x36, 0x37, 0x38, 0x39] = 0xE3069283 := by decide +kernel

/-- The IV of frame 0x0A3F1200 under EPOCH 3 with fixed field 0x5C1E0B77 (14 R424's example). -/
theorem test_frame_iv :
    frameIv { up with lsu := { keys := [(3, { fixed := 0x5C1E0B77 })] } } 0 true 3 0x0A3F1200 =
      [0x77, 0x0B, 0x1E, 0x5C, 3, 0, 0, 0, 0, 0x12, 0x3F, 0x0A] := by decide +kernel

/-- Limit code 90 is 45 W (15 R458's example); codes 12 and 170 are the ends of the scale (R457). -/
theorem test_throttle_shares :
    (thrD 90, thrN 90, gasCap { up with pwr := { limit := 90 } }) = (7, 31, 4936) ∧ (thrD 170, thrN 170) = (16, 63) ∧
      (thrD 12, thrN 12) = (0, 0) := by decide +kernel

/-- W_3 on Z (07 R224's example). -/
theorem test_palm_window : wBuffers 840 = 154 := by decide +kernel

/-- Ring 1,829 of the example model under EXCLUDED 4, X0_POS 16 (03 R75's example): where logical X 0, 1, 4, 5 and 15 are. -/
theorem test_ring_map :
    ([0, 1, 4, 5, 15].map fun x =>
      (Rtr.toPhys { shape := 0x164210, ringMap := [(1829, ⟨4, 16, true⟩)] } ⟨x, 5, 2, 7⟩).x) = [16, 0, 3, 5, 15] := by
  decide +kernel

/-- The E4M3 block with elements 3.0 and 0.01 (08 R250's example). -/
theorem test_mxfp8_block :
    ((mxBlock false ([0x40400000, 0x3C23D70A] ++ List.replicate 30 0)).1.take 2,
      (mxBlock false ([0x40400000, 0x3C23D70A] ++ List.replicate 30 0)).2.1) = ([0x7C, 0x3A], 120) := by decide +kernel

/-- The first Adam update of the worked example of 09 R290: v1, v2 and v3, and the BF16 parameter. -/
theorem test_adam_first_update :
    ((ruleAdam ([0x3E800000, 0x3A800000, 0x3F600000, 0x3F7E0000, 0x35800000, 0, 0x41000000, 0x43000000, 0x3E000000, 0x3C000000])
      (laneStart 0x40000000 0x3F800000 0 0)).take 4).drop 1 = [0x3F7FC000, 0x3D800000, 0x3B000000] ∧
    (convert 1 true 0x3F7FC000).raw = 0x3F80 := by decide +kernel

/-- The root of the worked example of 06 R208: ranks 0 to 3 hold 1.0, 2^-24, 3 × 2^-62 and -0.5, with LSCALE -60. -/
def ledgerRoot : Combined :=
  let k (v : Nat) : Cuff := sourceCuff true false 0 (-60) 0 0 0 [v]
  let l := combineChunks 0 0 false (-60) [some 0x3F800000] [some 0x33800000] (k 0x3F800000) (k 0x33800000)
  let r := combineChunks 0 0 false (-60) [some 0x21400000] [some 0xBF000000] (k 0x21400000) (k 0xBF000000)
  combineChunks 0 0 true (-60) l.elems r.elems l.cuff r.cuff

theorem test_ledger_root :
    (ledgerRoot.elems, ledgerRoot.cuff.lsum, ledgerRoot.cuff.lbound, ledgerRoot.lres, ledgerRoot.limit, ledgerRoot.passes) =
      ([some 0x3F000000], 2 ^ 59 + 2 ^ 36, 2 ^ 37, 2 ^ 59, 2 ^ 37 + 5, true) := by decide +kernel

/-- The root's cuff carries LSUM at byte 16 and LBOUND at byte 40 (the same example). -/
theorem test_ledger_bytes :
    (slice (ledgerRoot.cuff.bytes 0) 16 8, slice (ledgerRoot.cuff.bytes 0) 40 6) =
      ([0, 0, 0, 0, 0x10, 0, 0, 8], [0, 0, 0, 0, 0x20, 0]) := by decide +kernel

/-- Ranks 0 and 15 of 16 hold 2^30 and -2^30, the others 1.0: the plain tree gives 0, the pair tree 14 (06 R195's example). -/
def sixteen : List (Option Nat) := [some 0x4E800000] ++ List.replicate 14 (some 0x3F800000) ++ [some 0xCE800000]

theorem test_plain_tree_loses : tree (fun a b => redOp 0 0 a b) sixteen = some 0 := by decide +kernel

theorem test_pair_tree_keeps :
    (tree (fun a b => ((combineElem 1 0 false (-60) (some a) (some b)).1).getD 0) sixteen).map finishElem = some 0x41600000 := by
  decide +kernel

/-- The root of the top-k example of 10 R317: index 9 cancels to +0 and stays in the list. -/
theorem test_topk_merge :
    let p (i v : Nat) : TopkPair := ⟨i, BitVec.ofNat 32 v, false, false⟩
    (mergePairs 0 0 9 [p 3 0x3FC00000, p 9 0x40000000] [p 9 0xC0000000, p 12 0x3E800000]).map (fun m => m.pair) =
      [p 3 0x3FC00000, p 9 0, p 12 0x3E800000] := by decide +kernel

/-- PAGE_SCRATCH of page LNK, at 0xD000 + 0x01C, holds whatever is written to it (16 R466, R470). -/
theorem test_scratch_write :
    (after (.configWrite .cmc 0x3407 0xDEADBEEF) up).map (fun t => (hdrOf t 13).scratch) = some 0xDEADBEEF := by decide +kernel

/-- DOORBELL of ring 37 in context 5 stands at 0x0085_1250 (16, addresses worked out): a COUNT for a ring that is not its
context's is dropped with ACCESS_DENIED in QUE and in the window. -/
theorem test_doorbell_address :
    (after (.configWrite (.context 5) 0x214494 1) { up with que := { rings := [(37, { ctx := 6, enable := true, sizeLog2 := 5 })] } }).map
      (fun t => ((hdrOf t 1).code, (winOf t 5).winCode, (ringOf t 37).producer)) = some (0x0303, 0x0303, 0) := by decide +kernel

/-- A pending vector is presented once it is unmasked, and its pending bit falls; while masked it waits (02 R62, R63). -/
theorem test_msix_mask :
    (after (.msixRequest 5) { up with que := { unmasked := [(5, true)] }, msix := { pendingVecs := [(5, true)] } }).map State.msix =
      some { pendingVecs := [], outstanding := some 5 } ∧
    (after (.msixRequest 5) { up with msix := { pendingVecs := [(5, true)] } }).map State.msix =
      some { pendingVecs := [(5, true)], outstanding := none } := by decide +kernel

end Sys2Proof.Tests.Slice0
end

namespace Sys2Proof.Proofs

open Sys2Proof.Machine Sys2Proof.Safety Sys2Proof.Laws

/-! ### What a command keeps

One case split over the commands, for every property at once: `exec_keeps`. -/

theorem idx_injective : Function.Injective Group.idx :=
  Function.LeftInverse.injective (g := Group.ofNat) fun g => by cases g <;> rfl

/-- The mask of a list of parts, in the sense of `Keeps`. -/
def partsMask (l : List Group) : Nat := l.foldr (fun g m => 2 ^ g.idx ||| m) 0

theorem testBit_partsMask (l : List Group) (g : Group) : (partsMask l).testBit g.idx = decide (g ∈ l) := by
  induction l with
  | nil => simp [partsMask]
  | cons a l ih =>
    have e : partsMask (a :: l) = 2 ^ a.idx ||| partsMask l := rfl
    rw [e, Nat.testBit_or, ih, Nat.testBit_two_pow]
    simp [idx_injective.eq_iff, eq_comm (a := g)]

/-- A property lives through a command when it depends on no part that the command may change but memory, and lives through
stores wherever the command may store. -/
theorem exec_keeps {P : State → Prop} {s t : State} (c : Instr)
    (K : Keeps (partsMask ((touches c).filter (· ≠ .mem))) P) (W : .mem ∈ touches c → Stores P)
    (hs : P s) (h : exec c s = .next t) : P t := by
  cases c <;> dsimp only [touches] at K W
  case tailTransfer => exact keep_execTailTransfer (K.mono (by decide)) (W (by decide)) _ _ _ _ hs h
  case cdataBeat => exact keep_execCdataBeat (K.mono (by decide)) (W (by decide)) _ _ _ _ _ hs h
  case ddataDeposit => exact keep_execDdataDeposit (K.mono (by decide)) (W (by decide)) _ _ _ _ _ hs h
  case odataTransfer => exact keep_execOdataTransfer (K.mono (by decide)) _ _ hs h
  case intakeSlot => exact keep_execIntakeSlot (K.mono (by decide)) (W (by decide)) _ hs h
  case expertDispatchRoute => exact keep_execExpertDispatchRoute (K.mono (by decide)) _ _ hs h
  case chunkIssue => exact keep_execChunkIssue (K.mono (by decide)) (W (by decide)) _ hs h
  case tagExhausted => exact keep_execTagExhausted (K.mono (by decide)) (W (by decide)) _ hs h
  case chunkRetire => exact keep_execChunkRetire (K.mono (by decide)) (W (by decide)) _ _ hs h
  case msixRequest => exact keep_execMsixRequest (K.mono (by decide)) _ _ hs h
  case msixAck => exact keep_execMsixAck (K.mono (by decide)) _ hs h
  case csqWdogKick => exact keep_execCsqWdogKick (K.mono (by decide)) _ hs h
  case csqWatchdog => exact keep_execCsqWatchdog (K.mono (by decide)) (W (by decide)) _ hs h
  case sequencerResume => exact keep_execSequencerResume (K.mono (by decide)) _ hs h
  case rdataReturn => exact keep_execRdataReturn (K.mono (by decide)) (W (by decide)) _ _ _ _ hs h
  case wackReturn => exact keep_execWackReturn (K.mono (by decide)) (W (by decide)) _ _ hs h
  case schedModeLost => exact keep_execSchedModeLost (K.mono (by decide)) (W (by decide)) _ _ hs h
  case empTimingWrite => exact keep_execEmpTimingWrite (K.mono (by decide)) (W (by decide)) _ _ hs h
  case configWrite => exact keep_execConfigWrite (K.mono (by decide)) (W (by decide)) _ _ _ _ hs h
  case mbxInDoorbell => exact keep_execMbxInDoorbell (K.mono (by decide)) _ _ hs h
  case mbxOutDbClear => exact keep_execMbxOutDbClear (K.mono (by decide)) _ _ hs h
  case keyLoad => exact keep_execKeyLoad (K.mono (by decide)) _ _ _ _ hs h
  case keyReq => exact keep_execKeyReq (K.mono (by decide)) _ _ _ hs h
  case keyTimeout => exact keep_execKeyTimeout (K.mono (by decide)) (W (by decide)) _ _ _ hs h
  case zeroise => exact keep_execZeroise (K.mono (by decide)) (W (by decide)) _ hs h
  case attMessage => exact keep_execAttMessage (K.mono (by decide)) (W (by decide)) _ _ _ _ hs h
  case attestationFlit => exact keep_execAttestationFlit (K.mono (by decide)) (W (by decide)) _ _ _ hs h
  case attestTimeout => exact keep_execAttestTimeout (K.mono (by decide)) (W (by decide)) _ _ hs h
  case dozeRequest => exact keep_execDozeRequest (K.mono (by decide)) _ hs h
  case sleepRequest => exact keep_execSleepRequest (K.mono (by decide)) _ hs h
  case sleepEntryDone => exact keep_execSleepEntryDone (K.mono (by decide)) _ hs h
  case runRequest => exact keep_execRunRequest (K.mono (by decide)) _ hs h
  case wakeSource => exact keep_execWakeSource (K.mono (by decide)) _ _ hs h
  case pwrGood => exact keep_execPwrGood (K.mono (by decide)) _ hs h
  case sleepWakeDone => exact keep_execSleepWakeDone (K.mono (by decide)) (W (by decide)) _ hs h
  case dozeWakeDone => exact keep_execDozeWakeDone (K.mono (by decide)) _ hs h
  case thrLimitChange => exact keep_execThrLimitChange (K.mono (by decide)) _ _ hs h
  case throttleInForce => exact keep_execThrottleInForce (K.mono (by decide)) _ hs h
  case peakClr => exact keep_execPeakClr (K.mono (by decide)) _ _ hs h
  case rstColdN => exact keep_execRstColdN (K.mono (by decide)) (W (by decide)) _ hs h
  case rstWarmN => exact keep_execRstWarmN (K.mono (by decide)) (W (by decide)) _ hs h
  case rstEngN => exact keep_execRstEngN (K.mono (by decide)) (W (by decide)) _ hs h
  case rstDone => exact keep_execRstDone (K.mono (by decide)) _ hs h
  case ctxRstReq => exact keep_execCtxRstReq (K.mono (by decide)) (W (by decide)) _ _ hs h
  case ctxRstAck => exact keep_execCtxRstAck (K.mono (by decide)) _ _ hs h
  case debugFreezeRequest => exact keep_execDebugFreezeRequest (K.mono (by decide)) _ _ hs h
  case debugFreezeDone => exact keep_execDebugFreezeDone (K.mono (by decide)) _ hs h
  case debugFreezeEnd => exact keep_execDebugFreezeEnd (K.mono (by decide)) (W (by decide)) _ _ hs h
  case dbgSelWrite => exact keep_execDbgSelWrite (K.mono (by decide)) (W (by decide)) _ _ hs h
  case dbgDataRead => exact keep_execDbgDataRead (K.mono (by decide)) (W (by decide)) _ _ hs h
  case ringMapWrite => exact keep_execRingMapWrite (K.mono (by decide)) (W (by decide)) _ _ hs h
  case routeHold => exact keep_execRouteHold (K.mono (by decide)) _ hs h
  case holdDone => exact keep_execHoldDone (K.mono (by decide)) _ hs h
  case routeHoldRelease => exact keep_execRouteHoldRelease (K.mono (by decide)) _ hs h
  case headerRoute => exact keep_execHeaderRoute (K.mono (by decide)) (W (by decide)) _ _ hs h
  case phyLock => exact keep_execPhyLock (K.mono (by decide)) _ _ hs h
  case linkLost => exact keep_execLinkLost (K.mono (by decide)) (W (by decide)) _ _ _ _ hs h
  case trainingFlit => exact keep_execTrainingFlit (K.mono (by decide)) (W (by decide)) _ _ _ hs h
  case trainingTimeout => exact keep_execTrainingTimeout (K.mono (by decide)) (W (by decide)) _ _ hs h
  case portRetrain => exact keep_execPortRetrain (K.mono (by decide)) (W (by decide)) _ _ _ hs h
  case portMapWrite => exact keep_execPortMapWrite (K.mono (by decide)) (W (by decide)) _ _ _ hs h
  case flitReceive => exact keep_execFlitReceive (K.mono (by decide)) (W (by decide)) _ _ _ _ _ _ _ hs h
  case lcfReceive => exact keep_execLcfReceive (K.mono (by decide)) (W (by decide)) _ _ _ _ hs h
  case lcfSend => exact keep_execLcfSend (K.mono (by decide)) (W (by decide)) _ _ hs h
  case retryTimeout => exact keep_execRetryTimeout (K.mono (by decide)) (W (by decide)) _ _ hs h
  case chunkReceive => exact keep_execChunkReceive (K.mono (by decide)) (W (by decide)) _ hs h
  case doorbell => exact keep_execDoorbell (K.mono (by decide)) (W (by decide)) _ _ _ _ _ hs h
  case tplInstall => exact keep_execTplInstall (K.mono (by decide)) (W (by decide)) _ hs h
  case tplRead => exact keep_execTplRead (K.mono (by decide)) _ hs h
  case tplInvalidate => exact keep_execTplInvalidate (K.mono (by decide)) (W (by decide)) _ hs h
  case regionEntryWrite => exact keep_execRegionEntryWrite (K.mono (by decide)) (W (by decide)) _ _ hs h
  case ringEnable => exact keep_execRingEnable (K.mono (by decide)) (W (by decide)) _ _ hs h
  case ringDisable => exact keep_execRingDisable (K.mono (by decide)) (W (by decide)) _ _ hs h
  case abort => exact keep_execAbort (K.mono (by decide)) (W (by decide)) _ hs h
  case nodeCombine => exact keep_execNodeCombine (K.mono (by decide)) (W (by decide)) _ _ _ _ _ hs h
  case absent => exact keep_execAbsent (K.mono (by decide)) (W (by decide)) _ hs h
  case redFailLogClear => exact keep_execRedFailLogClear (K.mono (by decide)) _ _ hs h
  case admissionScan => exact keep_execAdmissionScan (K.mono (by decide)) (W (by decide)) _ hs h
  case grant => exact keep_execGrant (K.mono (by decide)) (W (by decide)) _ hs h
  case revoke => exact keep_execRevoke (K.mono (by decide)) _ hs h
  case admitMsg => exact keep_execAdmitMsg (K.mono (by decide)) (W (by decide)) _ hs h
  case firm => exact keep_execFirm (K.mono (by decide)) (W (by decide)) _ hs h
  case refuse => exact keep_execRefuse (K.mono (by decide)) (W (by decide)) _ hs h
  case retract => exact keep_execRetract (K.mono (by decide)) (W (by decide)) _ hs h
  case go => exact keep_execGo (K.mono (by decide)) (W (by decide)) _ hs h
  case stageAfterTimeout => exact keep_execStageAfterTimeout (K.mono (by decide)) (W (by decide)) _ _ hs h
  case slotReturn => exact keep_execSlotReturn (K.mono (by decide)) _ hs h
  case transposeRowBlock => exact keep_execTransposeRowBlock (K.mono (by decide)) _ _ _ hs h
  case depositEntryWrite => exact keep_execDepositEntryWrite (K.mono (by decide)) (W (by decide)) _ _ hs h
  case finChunk => exact keep_execFinChunk (K.mono (by decide)) (W (by decide)) _ hs h
  case rowPass => exact keep_execRowPass (K.mono (by decide)) (W (by decide)) _ _ hs h
  case rowStatisticsFinal => exact keep_execRowStatisticsFinal (K.mono (by decide)) _ _ _ hs h
  case finEntryCommit => exact keep_execFinEntryCommit (K.mono (by decide)) (W (by decide)) _ _ hs h
  case rowEntryCommit => exact keep_execRowEntryCommit (K.mono (by decide)) (W (by decide)) _ _ hs h
  case entryIndexWrite => exact keep_execEntryIndexWrite (K.mono (by decide)) _ _ _ hs h
  case preloadSweep => exact keep_execPreloadSweep (K.mono (by decide)) (W (by decide)) _ hs h
  case releaseContribution => exact keep_execReleaseContribution (K.mono (by decide)) (W (by decide)) _ hs h
  case stepDeadline => exact keep_execStepDeadline (K.mono (by decide)) (W (by decide)) _ hs h
  case release => exact keep_execRelease (K.mono (by decide)) (W (by decide)) _ hs h
  case updateWave => exact keep_execUpdateWave (K.mono (by decide)) (W (by decide)) _ hs h
  case mirrorSend => exact keep_execMirrorSend (K.mono (by decide)) _ _ hs h
  case mirrorPacket => exact keep_execMirrorPacket (K.mono (by decide)) (W (by decide)) _ hs h
  case mirrorAck => exact keep_execMirrorAck (K.mono (by decide)) (W (by decide)) _ hs h
  case mirrorTimeout => exact keep_execMirrorTimeout (K.mono (by decide)) (W (by decide)) _ _ hs h
  case commitVote => exact keep_execCommitVote (K.mono (by decide)) (W (by decide)) _ hs h
  case commit => exact keep_execCommit (K.mono (by decide)) (W (by decide)) _ hs h
  case stepEnable => exact keep_execStepEnable (K.mono (by decide)) (W (by decide)) _ _ hs h
  case stepDisable => exact keep_execStepDisable (K.mono (by decide)) (W (by decide)) _ _ hs h
  case bucketEntryCommit => exact keep_execBucketEntryCommit (K.mono (by decide)) (W (by decide)) _ _ hs h
  case optEntryCommit => exact keep_execOptEntryCommit (K.mono (by decide)) _ _ hs h
  case uprogWrite => exact keep_execUprogWrite (K.mono (by decide)) (W (by decide)) _ _ hs h
  case expertPacket => exact keep_execExpertPacket (K.mono (by decide)) (W (by decide)) _ hs h
  case expertCombineOutput => exact keep_execExpertCombineOutput (K.mono (by decide)) _ _ hs h
  case clearToSend => exact keep_execClearToSend (K.mono (by decide)) (W (by decide)) _ hs h
  case receiveReady => exact keep_execReceiveReady (K.mono (by decide)) (W (by decide)) _ _ hs h
  case stashRelease => exact keep_execStashRelease (K.mono (by decide)) (W (by decide)) _ _ _ _ _ hs h
  case stashCfgWrite => exact keep_execStashCfgWrite (K.mono (by decide)) (W (by decide)) _ _ hs h
  case spxEntryCommit => exact keep_execSpxEntryCommit (K.mono (by decide)) (W (by decide)) _ _ hs h
  case segmentWrite => exact keep_execSegmentWrite (K.mono (by decide)) (W (by decide)) _ _ hs h
  case windowSet => exact keep_execWindowSet (K.mono (by decide)) (W (by decide)) _ _ _ hs h
  case windowAdd => exact keep_execWindowAdd (K.mono (by decide)) (W (by decide)) _ _ _ hs h
  case monitorArm => exact keep_execMonitorArm (K.mono (by decide)) (W (by decide)) _ _ _ hs h
  case syncTimeout => exact keep_execSyncTimeout (K.mono (by decide)) (W (by decide)) _ _ hs h
  case preempt => exact keep_execPreempt (K.mono (by decide)) _ _ hs h
  case resume => exact keep_execResume (K.mono (by decide)) _ _ hs h
  case signal => exact keep_execSignal (K.mono (by decide)) (W (by decide)) _ hs h
  case arrive => exact keep_execArrive (K.mono (by decide)) (W (by decide)) _ hs h
  case crownTimeout => exact keep_execCrownTimeout (K.mono (by decide)) (W (by decide)) _ _ hs h
  case synDbgSelWrite => exact keep_execSynDbgSelWrite (K.mono (by decide)) _ _ hs h
  case dbgWaiterRead => exact keep_execDbgWaiterRead (K.mono (by decide)) _ hs h
  case gapRecord => exact keep_execGapRecord (K.mono (by decide)) (W (by decide)) _ hs h
  case captureModeWrite => exact keep_execCaptureModeWrite (K.mono (by decide)) (W (by decide)) _ _ hs h
  case captureFreeze => exact keep_execCaptureFreeze (K.mono (by decide)) (W (by decide)) _ hs h
  case replayGo => exact keep_execReplayGo (K.mono (by decide)) (W (by decide)) _ hs h
  case replayStop => exact keep_execReplayStop (K.mono (by decide)) _ hs h
  case replayDelivery => exact keep_execReplayDelivery (K.mono (by decide)) _ _ hs h
  case replayForcedChoice => exact keep_execReplayForcedChoice (K.mono (by decide)) (W (by decide)) _ _ hs h
  case eccSingleBit => exact keep_execEccSingleBit (K.mono (by decide)) (W (by decide)) _ _ hs h
  case eccDoubleBit => exact keep_execEccDoubleBit (K.mono (by decide)) (W (by decide)) _ _ _ hs h
  case eccLogClear => exact keep_execEccLogClear (K.mono (by decide)) _ _ hs h
  case lateContribution => exact keep_execLateContribution (K.mono (by decide)) (W (by decide)) _ _ hs h
  case histClear => exact keep_execHistClear (K.mono (by decide)) _ _ hs h
  case adopt => exact keep_execAdopt (K.mono (by decide)) (W (by decide)) _ hs h
  case returnGen => exact keep_execReturnGen (K.mono (by decide)) (W (by decide)) _ hs h
  case restore => exact keep_execRestore (K.mono (by decide)) (W (by decide)) _ hs h
  case restoreRecordVerify => exact keep_execRestoreRecordVerify (K.mono (by decide)) (W (by decide)) _ _ hs h
  case recTimeout => exact keep_execRecTimeout (K.mono (by decide)) (W (by decide)) _ hs h
  case seed => exact keep_execSeed (K.mono (by decide)) (W (by decide)) _ hs h
  case setGen => exact keep_execSetGen (K.mono (by decide)) (W (by decide)) _ hs h
  case lost => exact keep_execLost (K.mono (by decide)) (W (by decide)) _ hs h
  case remirror => exact keep_execRemirror (K.mono (by decide)) (W (by decide)) _ hs h
  case injectArm => exact keep_execInjectArm (K.mono (by decide)) (W (by decide)) _ _ hs h
  case stragglerExpiry => exact keep_execStragglerExpiry (K.mono (by decide)) _ _ hs h
  case silentChipExpiry => exact keep_execSilentChipExpiry (K.mono (by decide)) _ hs h
  case authLogClear => exact keep_execAuthLogClear (K.mono (by decide)) _ _ hs h
  case ucodeDataWrite => exact keep_execUcodeDataWrite (K.mono (by decide)) (W (by decide)) _ _ hs h
  case csqStart => exact keep_execCsqStart (K.mono (by decide)) (W (by decide)) _ _ hs h
  case microcodeCheckDone => exact keep_execMicrocodeCheckDone (K.mono (by decide)) (W (by decide)) _ hs h
  case pageErrClear => exact keep_execPageErrClear (K.mono (by decide)) _ _ _ hs h
  case pageIrqClear => exact keep_execPageIrqClear (K.mono (by decide)) _ _ _ hs h
  case pageIrqMaskWrite => exact keep_execPageIrqMaskWrite (K.mono (by decide)) _ _ _ hs h
  case trainingFlitSend => exact keep_execTrainingFlitSend (K.mono (by decide)) (W (by decide)) _ _ hs h
  case phyPresentChange => exact keep_execPhyPresentChange (K.mono (by decide)) (W (by decide)) _ _ _ hs h
  case remoteSignalComplete => exact keep_execRemoteSignalComplete (K.mono (by decide)) (W (by decide)) _ _ hs h
  case schedRise => exact keep_execSchedRise (K.mono (by decide)) _ hs h

/-- No command has the queue among the parts that it may change. -/
theorem queue_not_touched (c : Instr) : Queue.Statement c := by
  cases c <;> exact Queue.of_elem rfl

/-- A command neither adds to the queue nor takes from it. -/
theorem exec_pending {c : Instr} {s t : State} (h : exec c s = .next t) : t.pending = s.pending := by
  have outside : (partsMask ((touches c).filter (· ≠ .mem))).testBit Group.pending.idx = false := by
    rw [testBit_partsMask]
    exact decide_eq_false fun hm => queue_not_touched c (List.mem_filter.1 hm).1
  exact exec_keeps (P := Unchanged .pending s) c (keeps_unchanged s .pending outside)
    (fun _ => stores_unchanged s .pending (by decide) (by decide)) rfl h

theorem idleCycle_pending (s : State) : (idleCycle s).pending = s.pending :=
  keep_idleCycle (P := Unchanged .pending s) (keeps_unchanged s .pending (by decide))
    (stores_unchanged s .pending (by decide) (by decide)) rfl

/-! ### The step (01 R16) -/

theorem step_of_cons {s : State} {c : Instr} {rest : List Instr} (h : s.pending = c :: rest) :
    step s = exec c { s with pending := rest } := by
  simp only [step, h]

theorem step_of_nil {s : State} (h : s.pending = []) : step s = .next (takeWaiting (idleCycle s)) := by
  simp only [step, h]

/-- Settles O1, by the step's equation for a queue that is not empty. -/
theorem stepRunsFront : Obligations.StepRunsFront := fun _ _ _ => step_of_cons

theorem takeWaiting_pending (s : State) :
    (takeWaiting s).pending = if awake s then s.pending ++ s.pwr.waiting else s.pending := by
  unfold takeWaiting; split <;> rfl

/-- Settles O3: neither a command nor an idle cycle changes the queue, so the step's own taking is all that happens to it. -/
theorem queueIsConsumed : Obligations.QueueIsConsumed := by
  intro s t h
  cases hq : s.pending with
  | nil =>
    rw [step_of_nil hq] at h
    injection h with h
    refine ⟨fun hne => absurd rfl hne, fun _ => ?_⟩
    rw [← h, takeWaiting_pending, idleCycle_pending, hq]
    split
    · exact .inr (List.nil_append _)
    · exact .inl rfl
  | cons c rest =>
    rw [step_of_cons hq] at h
    exact ⟨fun _ => exec_pending h, fun hnil => nomatch hnil⟩

/-! ### The watchdog (01 R20, R21) -/

theorem csqExpire_first {s : State} (cause : Nat) (h : s.ctl.expired = false) :
    csqExpire cause s = raiseError cCsqWatchdog (bump pgCtl (·.ctl.restarts)
      (fun v t => { t with ctl := { t.ctl with restarts := v } }) 1 { s with ctl :=
        { s.ctl with
          lastCause := BitVec.ofNat 2 cause, expired := true, issueStopped := true, wdogCount := 0, restarting := true } }) := by
  simp only [csqExpire, h]
  rfl

theorem csqExpire_second {s : State} (cause : Nat) (h : s.ctl.expired = true) :
    csqExpire cause s = raiseError cCsqHalted { s with ctl :=
      { s.ctl with
        lastCause := BitVec.ofNat 2 cause, expired := true, issueStopped := true, wdogCount := 0, run := false, halted := true,
        restarting := false } } := by
  simp only [csqExpire, h]
  rfl

theorem csqWatchdog_due {s : State} (hr : s.ctl.run = true) (hc : max 1 s.ctl.wdogTimeout.toNat ≤ s.ctl.wdogCount) :
    csqWatchdog s = csqExpire 1 s := by
  simp only [csqWatchdog, hr, ge_iff_le, hc, decide_true, Bool.and_self, if_true]

theorem csqWatchdog_early {s : State} (h : s.ctl.run = false ∨ s.ctl.wdogCount < max 1 s.ctl.wdogTimeout.toNat) :
    csqWatchdog s = s := by
  refine if_neg fun hd => ?_
  rw [Bool.and_eq_true, decide_eq_true_eq] at hd
  obtain ⟨running, due⟩ := hd
  obtain hr | hc := h
  · exact Bool.false_ne_true (hr.symm.trans running)
  · exact Nat.not_le.2 hc due

theorem exec_csqWdogKick (s : State) :
    exec .csqWdogKick s = .next (if ctlOn s then csqWdogKick s else holdAccess 5 .csqWdogKick s) := rfl

theorem exec_csqWatchdog (s : State) : exec .csqWatchdog s = .next (if ctlOn s then csqWatchdog s else s) := rfl

theorem exec_sequencerResume (s : State) :
    exec .sequencerResume s = .next (if ctlOn s then sequencerResume s else s) := rfl

theorem sequencerResume_restarting {s : State} (h : s.ctl.restarting = true) :
    sequencerResume s = { s with ctl := { s.ctl with restarting := false, issueStopped := s.flt.ctlLost } } := if_pos h

theorem sequencerResume_running {s : State} (h : s.ctl.restarting = false) : sequencerResume s = s := by
  simp only [sequencerResume, h, Bool.false_eq_true, if_false]

/-- Settles O17: a clause for each case of the watchdog's commands. -/
theorem watchdogRestartsThenHalts : Obligations.WatchdogRestartsThenHalts := by
  refine ⟨fun s on => ?_, fun s off => ?_, fun s on hr hc he => ?_, fun s on hr hc he => ?_, fun s h => ?_, fun s on h => ?_,
    fun s h => ?_⟩
  · rw [exec_csqWdogKick, if_pos on]; rfl
  · rw [exec_csqWdogKick, off, if_neg Bool.false_ne_true]
  · rw [exec_csqWatchdog, if_pos on, csqWatchdog_due hr hc, csqExpire_first 1 he]; rfl
  · rw [exec_csqWatchdog, if_pos on, csqWatchdog_due hr hc, csqExpire_second 1 he]; rfl
  · rw [exec_csqWatchdog, csqWatchdog_early h, ite_self]
  · rw [exec_sequencerResume, if_pos on, sequencerResume_restarting h]
  · rw [exec_sequencerResume, sequencerResume_running h, ite_self]

/-! ### Power requests (02 R59; 15 R455) -/

theorem exec_dozeRequest (s : State) : exec .dozeRequest s = .next (dozeRequest s) := rfl

theorem exec_sleepRequest (s : State) : exec .sleepRequest s = .next (sleepRequest s) := rfl

theorem exec_sleepEntryDone (s : State) : exec .sleepEntryDone s = .next (sleepEntryDone s) := rfl

/-- DOZE_REQUEST outside run, or during an entry, changes REQ alone. -/
theorem dozeRequest_noted {s : State} (h : s.pwr.cur ≠ 0 ∨ s.pwr.entry.isSome) :
    dozeRequest s = { s with pwr := { s.pwr with req := 1 } } :=
  if_pos (by simpa only [Bool.or_eq_true, bne_iff_ne] using h)

theorem dozeRequest_inRun {s : State} (hc : s.pwr.cur = 0) (he : s.pwr.entry = none) :
    dozeRequest s = if !s.trk.tags.isEmpty || !s.rst.ctx.isEmpty then powerNak { s with pwr := { s.pwr with req := 1 } }
      else { s with pwr := { s.pwr with req := 1, cur := 1, refused := false } } :=
  if_neg (by simp only [hc, he, bne_self_eq_false, Option.isSome_none, Bool.or_self, Bool.false_eq_true, not_false_eq_true])

/-- SLEEP_REQUEST in sleep, during an entry or during a wake changes REQ alone. -/
theorem sleepRequest_noted {s : State} (h : s.pwr.cur = 2 ∨ s.pwr.entry.isSome ∨ s.pwr.waking.isSome) :
    sleepRequest s = { s with pwr := { s.pwr with req := 2 } } :=
  if_pos (by simpa only [Bool.or_eq_true, decide_eq_true_eq, or_assoc] using h)

theorem sleepRequest_outside {s : State} (hc : s.pwr.cur ≠ 2) (he : s.pwr.entry = none) (hw : s.pwr.waking = none) :
    sleepRequest s = if !s.trk.tags.isEmpty || stepSessionHeld s then powerNak { s with pwr := { s.pwr with req := 2 } }
      else { s with pwr := { s.pwr with req := 2, entry := some s.tick, refused := false } } :=
  if_neg (by simp only [hc, he, hw, decide_false, Option.isSome_none, Bool.or_self, Bool.false_eq_true, not_false_eq_true])

theorem sleepEntryDone_entered {s : State} {t0 : Nat} (h : s.pwr.entry = some t0) :
    sleepEntryDone s = if s.tick < t0 + 10 then s
      else { s with pwr := { s.pwr with cur := 2, iso := true, good := false, entry := none } } := by
  simp only [sleepEntryDone, h]
  rfl

/-- A refusal sets REFUSED and PS_NAK and counts in NAKS; of page PWR it changes nothing else. -/
theorem powerNak_pwr (s : State) :
    (powerNak s).pwr = { s.pwr with refused := true, nak := true, naks := satAdd s.pwr.naks 1 } := by
  obtain e | e := bump_eq pgPwr (·.pwr.naks) (fun v => mPwr fun p => { p with naks := v }) 1
    (mPwr (fun p => { p with refused := true, nak := true }) s)
  · rw [powerNak, e]; rfl
  · rw [powerNak, e, setSat_pwr]; rfl

/-- Settles O26: a clause for each case of the requests. -/
theorem powerStatesAreRequested : Obligations.PowerStatesAreRequested := by
  refine ⟨fun s hc he ht hx => ?_, fun s hc he hb => ?_, fun s h => ?_, fun s hc he hw ht hx => ?_, fun s hc he hw hb => ?_,
    fun s h => ?_, fun s t0 he hd => ?_, fun s t0 he hd => ?_, fun _ s => rfl, fun s => ?_⟩
  · rw [exec_dozeRequest, dozeRequest_inRun hc he, ht, hx]; rfl
  · rw [exec_dozeRequest, dozeRequest_inRun hc he, if_pos (by simpa using hb)]
  · rw [exec_dozeRequest, dozeRequest_noted h]
  · rw [exec_sleepRequest, sleepRequest_outside hc he hw, ht, hx]; rfl
  · rw [exec_sleepRequest, sleepRequest_outside hc he hw, if_pos (by simpa using hb)]
  · rw [exec_sleepRequest, sleepRequest_noted h]
  · rw [exec_sleepEntryDone, sleepEntryDone_entered he, if_neg (Nat.not_lt.2 hd)]
  · rw [exec_sleepEntryDone, sleepEntryDone_entered he, if_pos hd]
  · exact ⟨powerNak s, rfl, by simp [powerNak_pwr]⟩

/-! ### Intake (01 R16) -/

theorem awake_of_intakeOn {s : State} (h : intakeOn s = true) : awake s = true := by
  simp only [intakeOn, Bool.and_eq_true] at h
  obtain ⟨⟨_, hawake⟩, _⟩ := h
  exact hawake

theorem ctlOn_of_awake {s : State} (h : awake s = true) : ctlOn s = true := (Bool.and_eq_true_iff.1 h).1

/-- The slot of the rotation is served in the state u in which the next is current. -/
theorem exec_intakeSlot {s u : State} (h : intakeOn s = true) (hu : u = mQue (fun q => { q with slot := (q.slot + 1) % 80 }) s) :
    exec .intakeSlot s = .next (
      if s.que.slot < 64 then if portHeld s s.que.slot then u else tailTurn s.que.slot u
      else scanRings ((List.range 16).map fun i => 16 * (s.que.slot - 64) + i) u) := by
  subst hu
  have served : exec .intakeSlot s = .next (intakeSlot s) := congrArg _ (if_pos (ctlOn_of_awake (awake_of_intakeOn h)))
  rw [served, intakeSlot, h]
  rfl

theorem scanRings_offers {u : State} {r : Nat} (rest : List Nat) (h : ringOffers u r = true) :
    scanRings (r :: rest) u = headTurn r u := if_pos h

theorem scanRings_stalled {u : State} {r : Nat} (rest : List Nat) {h : HeadState} (ho : ringOffers u r = false)
    (hp : ringPending u r = true) (hs : headStand u r = some h) : scanRings (r :: rest) u = scanRings rest (setHead r h u) := by
  simp only [scanRings, ho, hp, hs, Bool.false_eq_true, if_false, if_true]

theorem scanRings_idle {u : State} {r : Nat} (rest : List Nat) (hp : ringPending u r = false) :
    scanRings (r :: rest) u = scanRings rest u := by
  simp only [scanRings, ringOffers, hp, Bool.false_and, Bool.false_eq_true, if_false]

/-- Settles O13: the slot's port or its 16 rings, and the scan by its cases at the first ring. -/
theorem intakeSlotServes : Obligations.IntakeSlotServes := by
  intro s u on hu
  refine ⟨fun hk hp => ?_, fun hk hp => ?_, fun hk => ?_, fun _ rest => scanRings_offers rest,
    fun _ rest _ => scanRings_stalled rest, fun _ rest => scanRings_idle rest⟩
  · rw [exec_intakeSlot on hu, if_pos hk, hp, if_neg Bool.false_ne_true]
  · rw [exec_intakeSlot on hu, if_pos hk, if_pos hp]
  · rw [exec_intakeSlot on hu, if_neg (Nat.not_lt.2 hk)]

/-! ### Reset

After reset the rings, ports, objects and segments have their default contents, and no vector is unmasked. -/

theorem portOf_reset (p : Nat) : portOf State.reset p = {} := rfl

theorem ringOf_reset (r : Nat) : ringOf State.reset r = {} := rfl

theorem objOf_reset (p : Nat) : objOf State.reset p = {} := rfl

theorem segOf_reset (ctx i : Nat) : segOf State.reset ctx i = 0 := rfl

theorem vecMasked_reset (v : Nat) : vecMasked State.reset v = true := rfl

theorem segEn_zero : segEn 0 = false := rfl

/-- Settles O6: the sparse tables read their defaults, and the rest are fields of the reset state. -/
theorem resetLeavesTheStatedValues : Obligations.ResetLeavesTheStatedValues := by
  refine ⟨⟨rfl, rfl, rfl, rfl⟩, ⟨rfl, rfl, rfl, rfl, rfl, rfl, rfl⟩, ⟨rfl, rfl, rfl, rfl⟩, fun p => ?_, vecMasked_reset,
    fun r => ?_, fun p => ?_, fun ctx i => ?_, ⟨rfl, rfl, rfl⟩, ⟨rfl, rfl, rfl, rfl⟩, ⟨rfl, rfl, rfl⟩, ⟨rfl, rfl, rfl, rfl⟩,
    ⟨rfl, rfl, rfl⟩⟩
  · rw [portOf_reset]; exact ⟨rfl, rfl, rfl⟩
  · rw [ringOf_reset]; exact ⟨rfl, rfl, rfl⟩
  · rw [objOf_reset]; exact ⟨rfl, rfl⟩
  · rw [segOf_reset, segEn_zero]

end Sys2Proof.Proofs

namespace Sys2Proof.Proofs

open Sys2Proof.Machine Sys2Proof.Safety Sys2Proof.Laws

/-! ### Memory and reset (02 R43) -/

/-- The form of memory and the queue depend on no part of a command's frame but on memory, which its stores change. -/
theorem good_keeps (c : Instr) (q : List Instr) : Keeps (partsMask ((touches c).filter (· ≠ .mem))) (Good q) := by
  refine keeps_good q ?_ ?_
  · rw [testBit_partsMask]
    exact decide_eq_false fun h => of_decide_eq_true (List.mem_filter.1 h).2 rfl
  · rw [testBit_partsMask]
    exact decide_eq_false fun h => queue_not_touched c (List.mem_filter.1 h).1

theorem exec_memory_wf {c : Instr} {s t : State} (hs : Memory.wf s.mem) (h : exec c s = .next t) : Memory.wf t.mem := by
  have good : Good s.pending t := exec_keeps c (good_keeps c _) (fun _ => stores_good _) ⟨hs, rfl⟩ h
  exact good.1

theorem idleCycle_memory_wf {s : State} (hs : Memory.wf s.mem) : Memory.wf (idleCycle s).mem := by
  have good : Good s.pending (idleCycle s) := keep_idleCycle (keeps_good _ (by decide) (by decide)) (stores_good _) ⟨hs, rfl⟩
  exact good.1

theorem takeWaiting_mem (s : State) : (takeWaiting s).mem = s.mem := by
  unfold takeWaiting; split <;> rfl

/-- Settles O4: every store keeps the canonical form, so every command and every idle cycle does. -/
theorem memoryStaysCanonical : Obligations.MemoryStaysCanonical := by
  intro s t hs h
  cases hq : s.pending with
  | nil =>
    rw [step_of_nil hq] at h
    injection h with h
    rw [← h, takeWaiting_mem]
    exact idleCycle_memory_wf hs
  | cons c rest =>
    rw [step_of_cons hq] at h
    exact exec_memory_wf (s := { s with pending := rest }) hs h

/-- Settles O5: memory at reset lists no byte, and a byte that is not listed reads 0. -/
theorem resetMemoryIsCanonical : Obligations.ResetMemoryIsCanonical :=
  ⟨memory_wf_nil, rfl, rfl, fun _ => rfl⟩

/-! ### The idle cycle (02 R54, R65)

The edges of the two clocks come first; what the units do in the cycle follows them and moves no clock. -/

/-- The slow clock ticks when the cycle counter reads a multiple of 44. -/
def slowEdge (c : W64) (s : State) : State := if c.toNat % 44 = 0 then tickEdge s else s

/-- The memory budgets begin again when the cycle counter reads a multiple of 1,760. -/
def periodEdge (c : W64) (s : State) : State := if c.toNat % 1760 = 0 then newPeriod s else s

/-- The clocks' edges of an idle cycle. -/
def clockEdges (s : State) : State :=
  periodEdge (s.ccc + 1) (slowEdge (s.ccc + 1) (endPulses { s with ccc := s.ccc + 1 }))

/-- What the units do in an idle cycle. -/
def unitWork (s : State) : State :=
  empIssue (empFlush (fireLink (releaseHeld (returnCycle (releaseExpired (writeHeld (takeMessage (countCycles s))))))))

theorem idleCycle_eq (s : State) : idleCycle s = unitWork (clockEdges s) := rfl

theorem keep_unitWork {P : State → Prop} {s : State} (K : Keeps 0x1fffef54 P) (W : Stores P) (h : P s) : P (unitWork s) :=
  keep_empIssue (K.mono (by decide)) <| keep_empFlush (K.mono (by decide)) W <| keep_fireLink (K.mono (by decide)) W <|
    keep_releaseHeld (K.mono (by decide)) W <| keep_returnCycle (K.mono (by decide)) W <|
    keep_releaseExpired (K.mono (by decide)) W <| keep_writeHeld (K.mono (by decide)) <|
    keep_takeMessage (K.mono (by decide)) <| keep_countCycles (K.mono (by decide)) W h

theorem unitWork_ccc (s : State) : (unitWork s).ccc = s.ccc :=
  keep_unitWork (P := Unchanged .ccc s) (keeps_unchanged s .ccc (by decide))
    (stores_unchanged s .ccc (by decide) (by decide)) rfl

theorem unitWork_tick (s : State) : (unitWork s).tick = s.tick :=
  keep_unitWork (P := Unchanged .tick s) (keeps_unchanged s .tick (by decide))
    (stores_unchanged s .tick (by decide) (by decide)) rfl

theorem tickEdge_ccc (s : State) : (tickEdge s).ccc = s.ccc :=
  keep_tickEdge (P := Unchanged .ccc s) (keeps_unchanged s .ccc (by decide)) rfl

theorem tickEdge_tick (s : State) : (tickEdge s).tick = s.tick + 1 := by
  have K : Keeps 0x8000254 (Unchanged .tick { s with tick := s.tick + 1 }) := keeps_unchanged _ .tick (by decide)
  exact keep_isoRelease (K.mono (by decide)) <| keep_thrSample (K.mono (by decide)) <| keep_wdogTick (K.mono (by decide)) <|
    keep_powerTick (K.mono (by decide)) rfl

theorem slowEdge_ccc (c : W64) (s : State) : (slowEdge c s).ccc = s.ccc := by
  unfold slowEdge; split
  · exact tickEdge_ccc s
  · rfl

theorem slowEdge_tick (c : W64) (s : State) : (slowEdge c s).tick = s.tick + if c.toNat % 44 = 0 then 1 else 0 := by
  unfold slowEdge; split
  · exact tickEdge_tick s
  · rfl

theorem periodEdge_ccc (c : W64) (s : State) : (periodEdge c s).ccc = s.ccc := by
  unfold periodEdge; split <;> rfl

theorem periodEdge_tick (c : W64) (s : State) : (periodEdge c s).tick = s.tick := by
  unfold periodEdge; split <;> rfl

theorem clockEdges_ccc (s : State) : (clockEdges s).ccc = s.ccc + 1 :=
  (periodEdge_ccc _ _).trans (slowEdge_ccc _ _)

theorem clockEdges_tick (s : State) : (clockEdges s).tick = s.tick + if (s.ccc + 1).toNat % 44 = 0 then 1 else 0 :=
  (periodEdge_tick _ _).trans (slowEdge_tick _ _)

theorem takeWaiting_asleep {s : State} (h : awake s = false) : takeWaiting s = s := by
  rw [takeWaiting, h, if_neg Bool.false_ne_true]

theorem takeWaiting_ccc (s : State) : (takeWaiting s).ccc = s.ccc := by
  unfold takeWaiting; split <;> rfl

theorem takeWaiting_tick (s : State) : (takeWaiting s).tick = s.tick := by
  unfold takeWaiting; split <;> rfl

theorem takeWaiting_waiting {s : State} (h : awake s = true) : (takeWaiting s).pwr.waiting = [] := by
  rw [takeWaiting, if_pos h]

/-- Settles O2: the clocks' edges give the counters, and the accesses that waited join the queue when the engine is awake. -/
theorem idleStepIsOneCycle : Obligations.IdleStepIsOneCycle := by
  intro s hq
  have pending : (idleCycle s).pending = [] := (idleCycle_pending s).trans hq
  refine ⟨takeWaiting (idleCycle s), step_of_nil hq, ?_, ?_, fun asleep => ?_, fun on => ⟨?_, takeWaiting_waiting on⟩⟩
  · rw [takeWaiting_ccc, idleCycle_eq, unitWork_ccc, clockEdges_ccc]
  · rw [takeWaiting_tick, idleCycle_eq, unitWork_tick, clockEdges_tick]
  · rw [takeWaiting_asleep asleep]
    exact ⟨rfl, pending⟩
  · rw [takeWaiting_pending, if_pos on, pending, List.nil_append]

/-! ### Keys come from KEY_LOAD (02 R56) -/

theorem unchanged_refl (g : Group) (s : State) : Unchanged g s s := by
  cases g <;> first | rfl | exact fun _ m => m

/-- A part outside a command's frame is as it was; memory and its port, which stores may change, are left out. -/
theorem exec_unchanged {c : Instr} {s t : State} (g : Group) (hg : g ∉ touches c) (hmem : g ≠ .mem) (hemp : g ≠ .emp)
    (h : exec c s = .next t) : Unchanged g s t := by
  have outside : (partsMask ((touches c).filter (· ≠ .mem))).testBit g.idx = false := by
    rw [testBit_partsMask]
    exact decide_eq_false fun hm => hg (List.mem_filter.1 hm).1
  exact exec_keeps c (keeps_unchanged s g outside) (fun _ => stores_unchanged s g hmem hemp) (unchanged_refl g s) h

/-- KEY_LOAD alone has the key slots among the parts that it may change. -/
theorem keys_not_touched {c : Instr} (h : ∀ slot key fixed, c ≠ .keyLoad slot key fixed) : Group.keys ∉ touches c := by
  have elem : (touches c).elem .keys = false := by
    cases c
    case keyLoad slot key fixed => exact absurd rfl (h slot key fixed)
    all_goals rfl
  exact fun m => Bool.false_ne_true (elem.symm.trans (List.elem_eq_true_of_mem m))

/-- Settles O8: no other command has the key slots in its frame. -/
theorem keysComeFromKeyLoad : Obligations.KeysComeFromKeyLoad :=
  fun _ _ _ other h => exec_unchanged .keys (keys_not_touched other) (by decide) (by decide) h

/-! ### Which commands stop (02 R44, R62) -/

theorem exec_rdataReturn (tag : EmpTag) (poison : Byte) (ecc : Ecc) (s : State) :
    exec (.rdataReturn tag poison ecc) s =
      (issued? s false tag.sub.val tag.tag).elim (.fault .unmatchedReturn) fun k => .next (rdataReturn k poison ecc s) := by
  show execRdataReturn tag poison ecc s = _
  unfold execRdataReturn
  cases issued? s false tag.sub.val tag.tag <;> rfl

theorem exec_wackReturn (tag : EmpTag) (s : State) :
    exec (.wackReturn tag) s =
      (issued? s true tag.sub.val tag.tag).elim (.fault .unmatchedReturn) fun k => .next (wackReturn k s) := by
  show execWackReturn tag s = _
  unfold execWackReturn
  cases issued? s true tag.sub.val tag.tag <;> rfl

theorem exec_msixAck (s : State) :
    exec .msixAck s = s.msix.outstanding.elim (.fault .unmatchedReturn) fun _ =>
      .next { s with msix := { s.msix with outstanding := none } } := by
  show execMsixAck s = _
  unfold execMsixAck
  cases s.msix.outstanding <;> rfl

/-- A command whose return, if it is one, has a request outstanding answers a next state. -/
theorem exec_runs {c : Instr} {s : State}
    (hread : ∀ sub tag poison ecc, c = .rdataReturn ⟨sub, tag⟩ poison ecc → (issued? s false sub.val tag).isSome)
    (hwrite : ∀ sub tag, c = .wackReturn ⟨sub, tag⟩ → (issued? s true sub.val tag).isSome)
    (hack : c = .msixAck → s.msix.outstanding.isSome) : ∃ t, exec c s = .next t := by
  cases c
  case rdataReturn tag poison ecc =>
    obtain ⟨k, hk⟩ := Option.isSome_iff_exists.1 (hread tag.sub tag.tag poison ecc rfl)
    exact ⟨rdataReturn k poison ecc s, by rw [exec_rdataReturn, hk]; rfl⟩
  case wackReturn tag =>
    obtain ⟨k, hk⟩ := Option.isSome_iff_exists.1 (hwrite tag.sub tag.tag rfl)
    exact ⟨wackReturn k s, by rw [exec_wackReturn, hk]; rfl⟩
  case msixAck =>
    obtain ⟨v, hv⟩ := Option.isSome_iff_exists.1 (hack rfl)
    exact ⟨{ s with msix := { s.msix with outstanding := none } }, by rw [exec_msixAck, hv]; rfl⟩
  all_goals exact ⟨_, rfl⟩

/-- Settles O9: three arms of exec look for a request, and every other one answers a next state at once. -/
theorem wellFormedCommandsRun : Obligations.WellFormedCommandsRun := by
  refine ⟨fun c s => exec_runs, fun sub tag poison ecc s h => ?_, fun sub tag s h => ?_, fun s h => ?_⟩
  · rw [exec_rdataReturn, h]; rfl
  · rw [exec_wackReturn, h]; rfl
  · rw [exec_msixAck, h]; rfl

/-! ### Wake sources (02 R54, R60; 15 R456) -/

/-- A wake source changes page PWR, its header and its vector alone. -/
theorem wakeBy_unchanged (g : Group) (h : Nat.testBit 0x8000050 g.idx = false) (k : Nat) (s : State) :
    Unchanged g s (wakeBy k s) := keep_wakeBy (keeps_unchanged s g h) k (unchanged_refl g s)

section
variable (k : Nat) (s : State)

@[simp] theorem wakeBy_pending : (wakeBy k s).pending = s.pending := wakeBy_unchanged .pending (by decide) k s
@[simp] theorem wakeBy_mem : (wakeBy k s).mem = s.mem := wakeBy_unchanged .mem (by decide) k s
@[simp] theorem wakeBy_emp : (wakeBy k s).emp = s.emp := wakeBy_unchanged .emp (by decide) k s
@[simp] theorem wakeBy_ctl : (wakeBy k s).ctl = s.ctl := wakeBy_unchanged .ctl (by decide) k s
@[simp] theorem wakeBy_tiles : (wakeBy k s).tiles = s.tiles := wakeBy_unchanged .tiles (by decide) k s
@[simp] theorem wakeBy_syn : (wakeBy k s).syn = s.syn := wakeBy_unchanged .syn (by decide) k s
@[simp] theorem wakeBy_rtr : (wakeBy k s).rtr = s.rtr := wakeBy_unchanged .rtr (by decide) k s
@[simp] theorem wakeBy_lnk : (wakeBy k s).lnk = s.lnk := wakeBy_unchanged .lnk (by decide) k s
@[simp] theorem wakeBy_lsu : (wakeBy k s).lsu = s.lsu := wakeBy_unchanged .lsu (by decide) k s
@[simp] theorem wakeBy_rst : (wakeBy k s).rst = s.rst := wakeBy_unchanged .rst (by decide) k s
end

/-- Page PWR without the fields that a wake source may change: the entry, the wake and the refusal of a request. -/
def wakeless (p : Pwr) : Pwr :=
  { p with entry := none, waking := none, wakeReq := false, wakeCause := 0, refused := false, nak := false, naks := 0 }

theorem wakeBy_wakeless (k : Nat) (s : State) : wakeless (wakeBy k s).pwr = wakeless s.pwr := by
  unfold wakeBy
  dsimp only
  by_cases running : s.pwr.cur = 0 <;> cases entering : s.pwr.entry <;>
    simp only [running, if_true, if_false, Option.isSome, Bool.false_eq_true, mPwr_pwr, powerNak_pwr, wakeless]

/-- A field of page PWR that no wake source changes. -/
theorem wakeBy_field {α : Type} (f : Pwr → α) (h : ∀ p, f (wakeless p) = f p) (k : Nat) (s : State) :
    f (wakeBy k s).pwr = f s.pwr := by
  rw [← h, wakeBy_wakeless, h]

theorem wakeBy_cur (k : Nat) (s : State) : (wakeBy k s).pwr.cur = s.pwr.cur := wakeBy_field Pwr.cur (fun _ => rfl) k s

theorem awake_iff {s : State} : awake s = true ↔ s.pwr.cur = 0 ∧ s.pwr.entry = none := by
  simp only [awake, Bool.and_eq_true, beq_iff_eq, Option.isNone_iff_eq_none]

theorem wakeBy_awake {s : State} (k : Nat) (h : awake s = true) : wakeBy k s = s := by
  obtain ⟨running, noEntry⟩ := awake_iff.1 h
  simp only [wakeBy, running, noEntry, if_true]
  rfl

/-- In doze and sleep the wake starts. -/
theorem wakeBy_gated {s : State} (k : Nat) (gated : s.pwr.cur ≠ 0) (noEntry : s.pwr.entry = none)
    (still : s.pwr.waking = none) :
    wakeBy k s = { s with pwr :=
      { s.pwr with
        wakeReq := true, waking := some (if s.pwr.cur = 1 then s.ccc.toNat else s.tick), wakeCause := BitVec.ofNat 4 k } } := by
  simp only [wakeBy, noEntry, gated, if_false, Option.isSome_none, Bool.false_eq_true, mPwr, still]
  rfl

/-- An entry into sleep that is under way is cancelled. -/
theorem wakeBy_entering {s : State} {t0 : Nat} (k : Nat) (running : s.pwr.cur = 0) (entering : s.pwr.entry = some t0)
    (still : s.pwr.waking = none) :
    wakeBy k s = powerNak { s with pwr := { s.pwr with entry := none, wakeCause := BitVec.ofNat 4 k } } := by
  simp only [wakeBy, entering, running, if_true, Option.isSome_some, mPwr, still]
  rfl

/-! ### Tile ports (02 R39, R40, R42; 05 R503) -/

/-- What the check bits of a tile's word or beat give: a single-bit error is counted and a double-bit error logged (13 R389). -/
def tileEcc (p : Nat) (ecc : Ecc) (s : State) : State :=
  match ecc with
  | .clean => s
  | .single => eccSingle 10 s
  | .double => logDouble 10 p false s

theorem tailReady_wakeBy (k p : Nat) (s : State) : tailReady (wakeBy k s) p = tailReady s p := by
  unfold tailReady tileOf
  rw [wakeBy_tiles, wakeBy_ctl, wakeBy_cur, wakeBy_rst]

theorem tailReady_tileWake (p : Nat) (s : State) : tailReady (tileWake s) p = tailReady s p := by
  unfold tileWake; split
  · exact tailReady_wakeBy 4 p s
  · rfl

theorem tileWake_ready {p : Nat} {s : State} (h : tailReady s p = true) : tileWake s = if awake s then s else wakeBy 4 s := by
  have done : s.rst.done = true := (Bool.and_eq_true_iff.1 h).2
  rw [tileWake, done]
  cases awake s <;> rfl

theorem tailTransfer_ready {p : Nat} {s : State} (w : W64) (ecc : Ecc) (h : tailReady s p = true) :
    tailTransfer p w ecc s = mTile p
      (fun t =>
        { t with
          intake := t.intake ++ [(w, t.nextIdx, ecc == .double)], nextIdx := t.nextIdx + 1,
          parts := if tailKind w = 1 then t.parts else t.parts ++ [{ idx := t.nextIdx }] })
      (tileEcc p ecc (tileWake s)) := by
  have ready : ¬(!tailReady (tileWake s) p) = true := by rw [tailReady_tileWake, h]; exact Bool.false_ne_true
  unfold tailTransfer
  exact if_neg ready

theorem tailTransfer_full {p : Nat} {s : State} (w : W64) (ecc : Ecc) (h : tailReady s p = false) :
    tailTransfer p w ecc s = tileWake s := by
  have full : (!tailReady (tileWake s) p) = true := by rw [tailReady_tileWake, h]; rfl
  unfold tailTransfer
  exact if_pos full

theorem exec_tailTransfer (p : Fin 64) (w : W64) (ecc : Ecc) (s : State) :
    exec (.tailTransfer p w ecc) s = .next (tailTransfer p.val w ecc s) := rfl

/-- Settles O10: a port that is ready takes the word with what its check bits give, and a full port wakes the engine alone. -/
theorem tailWordIsTaken : Obligations.TailWordIsTaken := by
  refine ⟨fun p w ecc s u ready hu => ?_, fun p w ecc s full => ?_⟩
  · rw [exec_tailTransfer, tailTransfer_ready w ecc ready, tileWake_ready ready, ← hu]
    cases ecc <;> rfl
  · rw [exec_tailTransfer, tailTransfer_full w ecc full]
    rfl

section
variable {p : Nat} {s : State} {q : Part} (beat : BitVec 512) (last : Bool) (ecc : Ecc)
  (front : (tileOf s p).parts.find? isOpen = some q) (room : cdataHeld s (tileOf s p) < 256)
include front room

theorem cdataBeat_unresolved (use : q.use = .unresolved) :
    cdataBeat p beat last ecc s = mTile p (fun t =>
      { t with
        parts := onFirst isOpen (fun _ => some
          { q with
            data := q.data ++ leBytes 64 beat.toNat, beats := q.beats + 1, closed := last,
            bad := q.bad || (ecc == .double) }) t.parts }) (tileEcc p ecc s) := by
  simp only [cdataBeat, front, ge_iff_le, Nat.not_le.2 room, if_false, use]
  cases ecc <;> rfl

theorem cdataBeat_discard (use : q.use = .discard) :
    cdataBeat p beat last ecc s = mTile p (fun t =>
      { t with parts := onFirst isOpen (fun _ => if last then none else some q) t.parts }) (tileEcc p ecc s) := by
  simp only [cdataBeat, front, ge_iff_le, Nat.not_le.2 room, if_false, use]
  cases ecc <;> rfl

/-- A part bound to a session takes the beat, and fails with a double-bit error or where its last beat and its length differ. -/
theorem cdataBeat_bound {slot k n : Nat} {s2 : State} (use : q.use = .bound slot k n)
    (taken : s2 = mTile p (fun t =>
      { t with
        parts := onFirst isOpen (fun _ => some
          { q with data := q.data ++ leBytes 64 beat.toNat, beats := q.beats + 1, closed := last }) t.parts })
      (tileEcc p ecc s)) :
    cdataBeat p beat last ecc s =
      if (ecc == .double || last != (q.beats + 1 == n)) = true then partError p slot q.idx s2 else s2 := by
  subst taken
  simp only [cdataBeat, front, ge_iff_le, Nat.not_le.2 room, if_false, use]
  cases ecc <;> rfl
end

theorem lastBeat_wrong {last : Bool} {b n : Nat} : (last != (b == n)) = true ↔ ¬(last = true ↔ b = n) := by
  cases last <;> simp

theorem cdataBeat_noPart {p : Nat} {s : State} (beat : BitVec 512) (last : Bool) (ecc : Ecc)
    (h : (tileOf s p).parts.find? isOpen = none) : cdataBeat p beat last ecc s = s := by
  simp only [cdataBeat, h]

theorem cdataBeat_full {p : Nat} {s : State} (beat : BitVec 512) (last : Bool) (ecc : Ecc)
    (h : 256 ≤ cdataHeld s (tileOf s p)) : cdataBeat p beat last ecc s = s := by
  cases front : (tileOf s p).parts.find? isOpen with
  | none => exact cdataBeat_noPart beat last ecc front
  | some q => simp only [cdataBeat, front, ge_iff_le, h, if_true]

theorem exec_cdataBeat (p : Fin 64) (beat : BitVec 512) (last : Bool) (ecc : Ecc) (s : State) :
    exec (.cdataBeat p beat last ecc) s = .next (if ctlOn s then cdataBeat p.val beat last ecc s else s) := rfl

/-- Settles O11: a clause for each use of the oldest open part, and one for each reason not to take the beat. -/
theorem tileDataMoves : Obligations.TileDataMoves := by
  refine ⟨fun p beat last ecc s s1 q on front room h1 => ?_, fun p beat last ecc s h => ?_, fun _ _ => rfl⟩
  · obtain rfl : s1 = tileEcc p.val ecc s := h1.trans (by cases ecc <;> rfl)
    rw [exec_cdataBeat, if_pos on]
    refine ⟨fun use => ?_, fun use => ?_, fun slot k n s2 use taken => ⟨fun clean whole => ?_, fun wrong => ?_⟩⟩
    · rw [cdataBeat_unresolved beat last ecc front room use]
    · rw [cdataBeat_discard beat last ecc front room use]
    · rw [cdataBeat_bound beat last ecc front room use taken, if_neg]
      rw [Bool.or_eq_true, beq_iff_eq, lastBeat_wrong]
      exact not_or.2 ⟨clean, not_not_intro whole⟩
    · rw [cdataBeat_bound beat last ecc front room use taken, if_pos]
      rwa [Bool.or_eq_true, beq_iff_eq, lastBeat_wrong]
  · rw [exec_cdataBeat]
    split
    next on =>
      obtain off | none | full := h
      · exact absurd (off.symm.trans on) Bool.false_ne_true
      · rw [cdataBeat_noPart beat last ecc none]
      · rw [cdataBeat_full beat last ecc full]
    next => rfl

/-! ### Message-signalled interrupts (02 R62, R63) -/

theorem exec_msixRequest (vec : Fin 262) (s : State) :
    exec (.msixRequest vec) s = .next (msixRequest (BitVec.ofNat 9 vec.val) s) := rfl

theorem toNat_vector (vec : Fin 262) : (BitVec.ofNat 9 vec.val).toNat = vec.val := by
  have := vec.isLt
  rw [BitVec.toNat_ofNat, Nat.mod_eq_of_lt (by omega)]

theorem msixRequest_presents {v : BitVec 9} {s : State} (free : s.msix.outstanding = none)
    (unmasked : vecMasked s v.toNat = false) (waits : Sparse.get false s.msix.pendingVecs v.toNat = true) :
    msixRequest v s = { s with msix :=
      { outstanding := some v, pendingVecs := Sparse.set false s.msix.pendingVecs v.toNat false } } := by
  simp only [msixRequest, free, unmasked, waits]
  rfl

theorem msixRequest_outstanding {v w : BitVec 9} {s : State} (h : s.msix.outstanding = some w) : msixRequest v s = s := by
  simp only [msixRequest, h]
  rfl

/-- An event presents no request and ends none. -/
theorem raiseVec_outstanding (v : Nat) (s : State) : (raiseVec v s).msix.outstanding = s.msix.outstanding := by
  unfold raiseVec; split <;> rfl

/-- An event on a vector whose request is pending or outstanding is merged with it. -/
theorem raiseVec_merges {v : Nat} {s : State}
    (h : Sparse.get false s.msix.pendingVecs v = true ∨ s.msix.outstanding = some (BitVec.ofNat 9 v)) (u : Nat) :
    Sparse.get false (raiseVec v s).msix.pendingVecs u = Sparse.get false s.msix.pendingVecs u := by
  unfold raiseVec
  split
  next => rfl
  next quiet =>
    obtain pending | out := h
    · show Sparse.get false (Sparse.set false s.msix.pendingVecs v true) u = _
      rw [sparse_get_set]
      split
      next e => rw [e, pending]
      next => rfl
    · exact absurd (Bool.or_eq_true_iff.2 (.inr (beq_iff_eq.2 out))) quiet

/-- Settles O16: the request, the acknowledgement and the merging of events. -/
theorem msixIsPresentedAndAcknowledged : Obligations.MsixIsPresentedAndAcknowledged := by
  refine ⟨fun vec s free unmasked waits => ?_, fun vec v s out => ?_, fun v s out => ?_, fun v s unmasked _ free => ?_,
    fun v s h => ⟨raiseVec_outstanding v s, raiseVec_merges h⟩⟩
  · rw [← toNat_vector vec] at unmasked waits
    rw [exec_msixRequest, msixRequest_presents free unmasked waits, toNat_vector]
  · rw [exec_msixRequest, msixRequest_outstanding out]
  · rw [exec_msixAck, out]; rfl
  · obtain pending | out := pending_raiseVec v unmasked
    · exact pending
    · rw [raiseVec_outstanding] at out
      exact absurd out free

/-! ### Returns of the memory port (02 R43, R44, R64; 13 R394) -/

theorem exec_rdataReturn_issued {sub : Fin 8} {tag : BitVec 10} {s : State} {k : BitVec 10 × EmpReq} (poison : Byte) (ecc : Ecc)
    (h : issued? s false sub.val tag = some k) :
    exec (.rdataReturn ⟨sub, tag⟩ poison ecc) s = .next (rdataReturn k poison ecc s) := by
  rw [exec_rdataReturn, h]; rfl

theorem exec_wackReturn_issued {sub : Fin 8} {tag : BitVec 10} {s : State} {k : BitVec 10 × EmpReq}
    (h : issued? s true sub.val tag = some k) : exec (.wackReturn ⟨sub, tag⟩) s = .next (wackReturn k s) := by
  rw [exec_wackReturn, h]; rfl

section
variable {k : BitVec 10 × EmpReq} {s s1 : State} {r : RReq}
  (out : s1 = { s with emp := { s.emp with out := s.emp.out.erase k } })
  (found : s.emp.reads.find? (fun q => q.tag == k.2.op) = some r) (natural : poisonInjected s1 r.purpose = false)
include out found natural

/-- A clean return takes its request from its read, which goes on when it was the last. -/
theorem rdataReturn_clean : rdataReturn k 0 .clean s =
    if r.left ≤ 1 then cleanRead r (completeOperands r.tag (dropRead r r.purpose s1)) else dropRead r r.purpose s1 := by
  subst out
  simp only [rdataReturn, mEmp, reduceCtorEq, if_false, found, natural, bne_self_eq_false, decide_false, Bool.or_self,
    Bool.false_eq_true]

/-- A poisoned or uncorrectable return is logged as memory 11, and fails what read. -/
theorem rdataReturn_bad {poison : Byte} {ecc : Ecc} (bad : (poison ≠ 0 ∧ ecc = .clean) ∨ ecc = .double) :
    rdataReturn k poison ecc s = poisonedRead r false (dropRead r .other (logDouble 11 k.2.beat false s1)) := by
  subst out
  have unclean : (poison != 0 || decide (ecc = .double)) = true := by
    rw [Bool.or_eq_true, bne_iff_ne, decide_eq_true_eq]
    exact bad.imp_left And.left
  have uncounted : ecc ≠ .single := by
    obtain ⟨_, rfl⟩ | rfl := bad <;> exact Ecc.noConfusion
  simp only [rdataReturn, mEmp, uncounted, if_false, found, natural, unclean, Bool.true_or, if_true, Bool.false_eq_true]
end

theorem dropRead_last {r : RReq} (h : r.left ≤ 1) (p : RPurpose) (s : State) :
    dropRead r p s = { s with emp := { s.emp with reads := s.emp.reads.filter fun q => q.tag != r.tag } } := by
  simp only [dropRead, mEmp, if_pos h]

theorem dropRead_others {r : RReq} (h : 1 < r.left) (p : RPurpose) (s : State) :
    dropRead r p s = { s with emp :=
      { s.emp with
        reads := s.emp.reads.map fun q => if q.tag = r.tag then { q with left := q.left - 1, purpose := p } else q } } := by
  simp only [dropRead, mEmp, if_neg (Nat.not_le.2 h)]

theorem wackReturn_write {k : BitVec 10 × EmpReq} {s s1 : State} {w : WReq}
    (out : s1 = { s with emp := { s.emp with out := s.emp.out.erase k } })
    (found : s.emp.writes.find? (fun q => q.tag == k.2.op) = some w) :
    wackReturn k s =
      if w.left ≤ 1 then
        wackFor w.purpose { s1 with emp := { s1.emp with writes := s1.emp.writes.filter fun q => q.tag != w.tag } }
      else { s1 with emp :=
        { s1.emp with writes := s1.emp.writes.map fun q => if q.tag = w.tag then { q with left := q.left - 1 } else q } } := by
  subst out
  simp only [wackReturn, mEmp, found]

/-- Settles O19: a return is of a read's last request or of another, clean or not; a write's likewise. -/
theorem memoryReturnsAreMatched : Obligations.MemoryReturnsAreMatched := by
  refine ⟨fun sub tag s s1 k r issued out found natural => ⟨fun last => ?_, fun more => ?_⟩,
    fun sub tag poison ecc s s1 k r issued bad out found natural => ?_,
    fun sub tag s s1 k w issued out found => ⟨fun last => ?_, fun more => ?_, fun ring last purpose unmasked => ?_⟩⟩
  · rw [exec_rdataReturn_issued _ _ issued, rdataReturn_clean out found natural, if_pos last, dropRead_last last]
  · rw [exec_rdataReturn_issued _ _ issued, rdataReturn_clean out found natural, if_neg (Nat.not_le.2 more),
      dropRead_others more]
  · rw [exec_rdataReturn_issued _ _ issued, rdataReturn_bad out found natural bad]
  · rw [exec_wackReturn_issued issued, wackReturn_write out found, if_pos last]
  · rw [exec_wackReturn_issued issued, wackReturn_write out found, if_neg (Nat.not_le.2 more)]
  · refine ⟨_, (exec_wackReturn_issued issued).trans (congrArg _ ((wackReturn_write out found).trans (if_pos last))), ?_, ?_⟩
    · rw [purpose, out]
      exact raiseVec_mem _ ring
    · rw [purpose]
      refine pending_raiseVec ring ?_
      rw [out]
      exact unmasked

/-! ### The memory port's modes and timing (02 R45, R48) -/

theorem exec_schedModeLost (cause : SchedCause) (s : State) :
    exec (.schedModeLost cause) s = .next (schedModeLost cause s) := rfl

theorem schedModeLost_outside (s : State) : schedModeLost .refwinOutside s =
    if refOpen s then s else raiseError cSchedModeLost { s with ctl := { s.ctl with schedLost := true } } := rfl

theorem schedModeLost_fell (s : State) : schedModeLost .schedFell s =
    if s.emp.sched then
      raiseError cSchedModeLost { s with emp := { s.emp with sched := false }, ctl := { s.ctl with schedLost := true } }
    else s := rfl

/-- The window holds LEN cycles of the period, from OFFSET on. -/
theorem refOpen_iff {s : State} (hoff : s.ctl.refOffset.toNat < 1760) (hlen : s.ctl.refLen.toNat ≤ 160) :
    refOpen s = true ↔ ∃ i < s.ctl.refLen.toNat, s.ccc.toNat % 1760 = (s.ctl.refOffset.toNat + i) % 1760 := by
  rw [refOpen, decide_eq_true_eq]
  constructor
  · intro inside
    exact ⟨_, inside, by omega⟩
  · rintro ⟨i, hi, at_i⟩
    omega

/-- The fields of EMP_TIMING that a write changes. -/
def empTimingPut (v : W32) (s : State) : State :=
  { s with ctl :=
    { s.ctl with
      rdLat := if rdLatBad v then s.ctl.rdLat else v.extractLsb' 0 8,
      refOffset := if refOffsetBad v then s.ctl.refOffset else v.extractLsb' 8 11,
      refLen := if refLenBad v then s.ctl.refLen else v.extractLsb' 19 8,
      schedLost := s.ctl.schedLost && !v.getLsbD 28 } }

/-- A field that a write of EMP_TIMING refuses is recorded. -/
def empTimingRefuse (bad : Bool) (s : State) : State := if bad then pageErr pgCtl cConfigInvalid s else s

theorem empTimingWrite_eq (v : W32) (s : State) : empTimingWrite v s =
    empTimingRefuse (refLenBad v) (empTimingRefuse (refOffsetBad v) (empTimingRefuse (rdLatBad v) (empTimingPut v s))) := rfl

theorem empTimingRefuse_false (s : State) : empTimingRefuse false s = s := rfl

theorem empTimingRefuse_true (s : State) : empTimingRefuse true s = pageErr pgCtl cConfigInvalid s := rfl

theorem empTimingRefuse_ctl (bad : Bool) (s : State) : (empTimingRefuse bad s).ctl = s.ctl := by
  cases bad
  · rfl
  · exact pageErr_ctl s pgCtl cConfigInvalid

theorem exec_empTimingWrite (v : W32) (s : State) :
    exec (.empTimingWrite v) s = .next (if fabricOn s then empTimingWrite v s else holdAccess 5 (.empTimingWrite v) s) := rfl

theorem rdLatBad_iff (v : W32) : rdLatBad v = true ↔ 1 ≤ bits v.toNat 7 0 ∧ bits v.toNat 7 0 ≤ 95 := by
  rw [rdLatBad, Bool.and_eq_true, decide_eq_true_eq, decide_eq_true_eq]

theorem refOffsetBad_iff (v : W32) : refOffsetBad v = true ↔ 1759 < bits v.toNat 18 8 := decide_eq_true_iff

theorem refLenBad_iff (v : W32) : refLenBad v = true ↔ 160 < bits v.toNat 26 19 := decide_eq_true_iff

/-- Settles O20: the two ways to lose the mode, the refresh window, and EMP_TIMING's write by the fields it refuses. -/
theorem memoryTimingIsWatched : Obligations.MemoryTimingIsWatched := by
  refine ⟨fun s h => ?_, fun s h => ?_, fun s h => ?_, fun s h => ?_, fun s => refOpen_iff, fun s => rfl,
    fun v s s1 on put => ?_, fun v => ⟨rdLatBad_iff v, refOffsetBad_iff v, refLenBad_iff v⟩, fun v s off => ?_⟩
  · rw [exec_schedModeLost, schedModeLost_outside, h, if_neg Bool.false_ne_true]
  · rw [exec_schedModeLost, schedModeLost_outside, if_pos h]
  · rw [exec_schedModeLost, schedModeLost_fell, if_pos h]
  · rw [exec_schedModeLost, schedModeLost_fell, h, if_neg Bool.false_ne_true]
  · obtain rfl : s1 = empTimingPut v s := put
    rw [exec_empTimingWrite, if_pos on, empTimingWrite_eq]
    refine ⟨fun lat offset len => ?_, fun lat offset len => ?_, fun lat offset len => ?_, fun lat offset len => ?_,
      _, rfl, ?_⟩
    · simp only [lat, offset, len, empTimingRefuse_false]
    · simp only [lat, offset, len, empTimingRefuse_false, empTimingRefuse_true]
    · simp only [lat, offset, len, empTimingRefuse_false, empTimingRefuse_true]
    · simp only [lat, offset, len, empTimingRefuse_false, empTimingRefuse_true]
    · rw [empTimingRefuse_ctl, empTimingRefuse_ctl, empTimingRefuse_ctl]
  · rw [exec_empTimingWrite, off, if_neg Bool.false_ne_true]

/-! ### The configuration bus (02 R52, R54; 16 R466, R470) -/

theorem exec_configWrite_on {who : Requester} {word : BitVec 22} {a : Nat} {s : State} (v : W32) (at_a : 4 * word.toNat = a)
    (on : accessOn who a s = true) :
    exec (.configWrite who word v) s =
      .next (mDbg (fun d => { d with busError := (busWrite who a v s).1 }) (busWrite who a v s).2) := by
  subst at_a
  exact congrArg _ (if_pos on)

theorem exec_configWrite_gated {who : Requester} {word : BitVec 22} {s : State} (v : W32)
    (off : accessOn who (4 * word.toNat) s = false) :
    exec (.configWrite who word v) s = .next (holdAccess 5 (.configWrite who word v) s) :=
  congrArg _ (if_neg (off ▸ Bool.false_ne_true))

/-- A context's write to a privileged page is dropped with an ERROR response, and the page records it (00 R9). -/
theorem busWrite_denied (c : Fin 64) {a : Nat} (v : W32) (s : State) (h : a / 0x1000 ≤ 18) :
    busWrite (.context c) a v s = (true, pageErr (a / 0x1000) cAccessDenied s) := by
  have page : a < 0x800000 := by omega
  simp only [busWrite, page, if_true, denyPage, h]

/-- A context's write to a window that is not its own gets an ERROR response alone (02 R52). -/
theorem busWrite_foreign {c : Fin 64} {a : Nat} (v : W32) (s : State) (hw : 0x800000 ≤ a)
    (hc : (a - 0x800000) / 0x10000 ≠ c.val) :
    busWrite (.context c) a v s = (true, s) := by
  simp only [busWrite, Nat.not_lt.2 hw, if_false, beq_eq_false_iff_ne.2 hc.symm, Bool.and_false, Bool.false_eq_true]

/-- The CMC writes PAGE_SCRATCH at offset 0x1C of a page's header. -/
theorem busWrite_scratch {page : Nat} (v : W32) (s : State) (h : page ≤ 18) :
    busWrite .cmc (page * 0x1000 + 0x1C) v s = (false, mHdr page (fun g => { g with scratch := v }) s) := by
  have below : page * 0x1000 + 0x1C < 0x800000 := by omega
  have at_page : (page * 0x1000 + 0x1C) / 0x1000 = page := by omega
  have at_scratch : (page * 0x1000 + 0x1C) % 0x1000 = 0x1C := by omega
  simp only [busWrite, below, if_true, writePage, at_page, at_scratch, Nat.not_lt.2 h, if_false]
  rfl

/-- The byte address of word off of a page. -/
theorem pageWord_addr {page off : Nat} (hp : page < 19) (ho : off < 0x400) :
    4 * (BitVec.ofNat 22 (page * 0x400 + off)).toNat = page * 0x1000 + 4 * off := by
  rw [BitVec.toNat_ofNat, Nat.mod_eq_of_lt (by omega)]
  omega

theorem accessOn_scratch {page : Nat} (s : State) (h : page ≤ 18) : accessOn .cmc (page * 0x1000 + 0x1C) s = pageOn s page := by
  have below : page * 0x1000 + 0x1C < 0x800000 := by omega
  have at_page : (page * 0x1000 + 0x1C) / 0x1000 = page := by omega
  have not_timing : page * 0x1000 + 0x1C ≠ 0x58 := by omega
  have not_capture : ¬(0xF028 ≤ page * 0x1000 + 0x1C ∧ page * 0x1000 + 0x1C < 0xF058) := by omega
  simp only [accessOn, below, if_true, at_page, not_timing, ← Bool.decide_and, not_capture, decide_false, Bool.or_self,
    Bool.false_eq_true, if_false]

/-- Settles O21: the write by its requester and address; a page's scratch word stands at word 7 of its header. -/
theorem configurationBusWrites : Obligations.ConfigurationBusWrites := by
  refine ⟨fun _ _ v _ => exec_configWrite_on v rfl, fun _ _ v _ => exec_configWrite_gated v, fun c page off v s on => ?_,
    fun c word v s window on foreign => ?_, fun page v s on => ?_⟩
  · have at_page : (page.val * 0x1000 + 4 * off.val) / 0x1000 = page.val := by omega
    rw [exec_configWrite_on v (pageWord_addr page.isLt off.isLt) on, busWrite_denied c v s (by omega), at_page]
  · rw [exec_configWrite_on v rfl on, busWrite_foreign v s window foreign]
    rfl
  · have valid : page.val ≤ 18 := Nat.lt_succ_iff.1 page.isLt
    rw [exec_configWrite_on v (pageWord_addr page.isLt (by decide)) ((accessOn_scratch s valid).trans on),
      busWrite_scratch v s valid]

/-! ### Keys (02 R56 to R58; 14 R426, R428) -/

theorem exec_keyLoad (slot : Fin 40) (key : BitVec 256) (fixed : W32) (s : State) :
    exec (.keyLoad slot key fixed) s = .next (keyLoad slot.val key fixed s) := rfl

theorem exec_keyReq (port : Fin 10) (dir : Dir) (s : State) :
    exec (.keyReq port dir) s = .next (keyReq port.val (Dir.isRx dir) s) := rfl

theorem keyLoad_taken {slot : Nat} {s : State} (key : BitVec 256) (fixed : W32) (h : loadDiscarded s = false) :
    keyLoad slot key fixed s = takeKey slot key fixed s := if_neg (h ▸ Bool.false_ne_true)

theorem keyLoad_discarded {slot : Nat} {s : State} (key : BitVec 256) (fixed : W32) (h : loadDiscarded s = true) :
    keyLoad slot key fixed s = s := if_pos h

theorem loadDiscarded_iff (s : State) : loadDiscarded s = true ↔ ∃ z, s.lsu.zeroised = some z ∧ (s.ccc - z).toNat < 5 := by
  unfold loadDiscarded
  cases s.lsu.zeroised <;> simp

/-- The key stands in its slot, and KEY_ACK names the slot. -/
def keyStored (slot : Nat) (key : BitVec 256) (fixed : W32) (s : State) : State :=
  { s with lsu :=
    { s.lsu with
      keys := Sparse.set {} s.lsu.keys slot { key := key, fixed := fixed, loaded := true }, keyAck := some slot } }

theorem takeKey_unasked {slot : Nat} {rx : Bool} {s : State} (key : BitVec 256) (fixed : W32) (hrx : rx = (slot / 2 % 2 == 1))
    (h : keyReqOf (portOf s (slot / 4)) rx = none) :
    takeKey slot key fixed s = pump (slot / 4) (keyStored slot key fixed s) := by
  subst hrx
  simp only [takeKey, h, Option.isSome_none, Bool.false_eq_true, if_false]
  rfl

/-- A load that a request asked for ends the request; on an UP port the slot of the next epoch is that direction's next key. -/
theorem takeKey_asked {slot t0 : Nat} {rx : Bool} {s : State} (key : BitVec 256) (fixed : W32) (hrx : rx = (slot / 2 % 2 == 1))
    (h : keyReqOf (portOf s (slot / 4)) rx = some t0) :
    takeKey slot key fixed s = pump (slot / 4) (
      if (portOf s (slot / 4)).st = 6 ∧
          slot % 2 = ((if rx then (portOf s (slot / 4)).rxEpoch else (portOf s (slot / 4)).txEpoch) + 1) % 2 then
        mPort (slot / 4) (fun q => if rx then { q with rxNext := true } else { q with txNext := true })
          (setKeyReq (slot / 4) rx none (keyStored slot key fixed s))
      else setKeyReq (slot / 4) rx none (keyStored slot key fixed s)) := by
  subst hrx
  simp only [takeKey, h, Option.isSome_some, if_true, Bool.and_eq_true, decide_eq_true_eq]
  rfl

theorem keyReq_wanted {p : Nat} {rx : Bool} {s : State} (h : keyWanted s p rx = true) :
    keyReq p rx s = setKeyReq p rx (some s.tick) s := if_pos h

theorem keyReq_unwanted {p : Nat} {rx : Bool} {s : State} (h : keyWanted s p rx = false) : keyReq p rx s = s :=
  if_neg (h ▸ Bool.false_ne_true)

/-- The state at ZEROISE whose links still have to go down. -/
def keysErased (s : State) : State := mLsu (fun l => { l with keys := [], keyAck := none, zeroised := some s.ccc }) s

/-- Taking the links down loads no key. -/
theorem zeroise_keys (s : State) : (zeroise s).lsu.keys = [] := by
  have K : Keeps 0xfe84550 (Unchanged .keys (keysErased s)) := keeps_unchanged _ .keys (by decide)
  have W : Stores (Unchanged .keys (keysErased s)) := stores_unchanged _ .keys (by decide) (by decide)
  have noNew : Unchanged .keys (keysErased s) (zeroise s) :=
    keep_foldS (fun p u hu => keep_ite _ (keep_linkDown K W p none true false hu) hu) (List.range 10) (fun _ m => m)
  exact List.eq_nil_iff_forall_not_mem.2 fun k m => List.not_mem_nil (noNew k m)

/-- Settles O23: a load by its request and its port, a discarded load, a request, and the erasure. -/
theorem keysAreLoaded : Obligations.KeysAreLoaded := by
  refine ⟨fun slot key fixed s s1 rx kept hrx h1 => ?_, fun slot key fixed s gone => ?_, loadDiscarded_iff,
    fun port dir s wanted => ?_, fun port dir s unwanted => ?_,
    fun s => ⟨zeroise s, rfl, zeroise_keys s⟩⟩
  · rw [exec_keyLoad, keyLoad_taken key fixed kept, h1]
    refine ⟨fun none => ?_, fun t0 asked notUp => ?_, fun t0 e asked up he => ⟨fun next => ?_, fun other => ?_⟩⟩
    · rw [takeKey_unasked key fixed hrx none]
      rfl
    · rw [takeKey_asked key fixed hrx asked, if_neg fun c => notUp c.1]
      rfl
    · rw [takeKey_asked key fixed hrx asked, ← he, if_pos ⟨up, next⟩]
      rfl
    · rw [takeKey_asked key fixed hrx asked, ← he, if_neg fun c => other c.2]
      rfl
  · rw [exec_keyLoad, keyLoad_discarded key fixed gone]
  · rw [exec_keyReq, keyReq_wanted wanted]
  · rw [exec_keyReq, keyReq_unwanted unwanted]

/-! ### The wake and the power limit (02 R59 to R61; 15 R456, R457) -/

theorem pwrGood_idle {s : State} (still : s.pwr.waking = none) : pwrGood s = { s with pwr := { s.pwr with good := true } } := by
  simp only [pwrGood, mPwr, isoRelease, still, Option.map_none, ite_self]

/-- In a wake from sleep the restore's time starts no earlier than 40 ticks before PWR_GOOD. -/
theorem pwrGood_waking {s : State} {t0 : Nat} (waking : s.pwr.waking = some t0) (asleep : s.pwr.cur = 2) :
    pwrGood s = { s with pwr :=
      { s.pwr with
        good := true, waking := some (max t0 (s.tick - 40)),
        iso := if max t0 (s.tick - 40) + 40 ≤ s.tick then false else s.pwr.iso } } := by
  simp only [pwrGood, mPwr, isoRelease, waking, asleep, if_true, Option.map_some, ge_iff_le, decide_true, Bool.true_and,
    decide_eq_true_eq]
  split <;> rfl

theorem exec_pwrGood (s : State) : exec .pwrGood s = .next (pwrGood s) := rfl

theorem exec_sleepWakeDone (s : State) : exec .sleepWakeDone s = .next (sleepWakeDone s) := rfl

theorem exec_dozeWakeDone (s : State) : exec .dozeWakeDone s = .next (dozeWakeDone s) := rfl

theorem sleepWakeDone_due {s : State} {t0 : Nat} (waking : s.pwr.waking = some t0) (asleep : s.pwr.cur = 2)
    (good : s.pwr.good = true) (due : t0 + 50 ≤ s.tick) :
    sleepWakeDone s = if s.rst.pendingKind = 0 then toRun s else resetNow s.rst.pendingKind (toRun s) := by
  simp only [sleepWakeDone, waking, asleep, good, Nat.not_lt.2 due, bne_self_eq_false, Bool.not_true, decide_false,
    Bool.or_self, Bool.false_eq_true, if_false]

theorem dozeWakeDone_due {s : State} {c : Nat} (waking : s.pwr.waking = some c) (doze : s.pwr.cur = 1)
    (due : c + 64 ≤ s.ccc.toNat) : dozeWakeDone s = toRun s := by
  simp only [dozeWakeDone, waking, doze, Nat.not_lt.2 due, bne_self_eq_false, decide_false, Bool.or_self, Bool.false_eq_true,
    if_false]

theorem toRun_unchangedLimit {s : State} (h : s.pwr.thrNew = []) : toRun s = { s with
    ctl := { s.ctl with wdogCount := 0 }, pwr := { s.pwr with cur := 0, waking := none, wakeReq := false, iso := false } } := by
  simp only [toRun, mCtl, mPwr, h, List.getLast?_nil]

/-- The last limit sampled during the wake is in force after it. -/
theorem toRun_newLimit {s : State} {l : List (Byte × Nat)} {limit : Byte} {t0 : Nat} (h : s.pwr.thrNew = l ++ [(limit, t0)]) :
    toRun s = { s with
      ctl := { s.ctl with wdogCount := 0 },
      pwr := putLimit limit { s.pwr with cur := 0, waking := none, wakeReq := false, iso := false, thrNew := [] } } := by
  simp only [toRun, mCtl, mPwr, h, List.getLast?_concat]

/-- Settles O27: the sources, what each starts, the rails, and the ends of the two wakes. -/
theorem engineWakes : Obligations.EngineWakes := by
  refine ⟨fun reserved _ => by cases reserved <;> rfl, fun _ => ⟨rfl, rfl, rfl, rfl, rfl, rfl⟩, fun k s => wakeBy_gated k,
    fun k t0 s => wakeBy_entering k,
    fun k s => wakeBy_awake k, fun s still => ?_, fun s t0 waking asleep => ?_,
    fun s t0 waking asleep good due => ⟨fun none => ?_, fun waits => ?_⟩, fun s c waking doze due => ?_,
    fun s => toRun_unchangedLimit, fun s l limit t0 => toRun_newLimit⟩
  · rw [exec_pwrGood, pwrGood_idle still]
  · rw [exec_pwrGood, pwrGood_waking waking asleep]
  · rw [exec_sleepWakeDone, sleepWakeDone_due waking asleep good due, if_pos none]
  · rw [exec_sleepWakeDone, sleepWakeDone_due waking asleep good due, if_neg waits]
  · rw [exec_dozeWakeDone, dozeWakeDone_due waking doze due]

theorem thrSample_changed {s : State} (h : clampLimit s.pwr.thrPin ≠ thrLast s.pwr) :
    thrSample s = { s with pwr := { s.pwr with thrNew := s.pwr.thrNew ++ [(clampLimit s.pwr.thrPin, s.tick)] } } := by
  simp only [thrSample, mPwr, if_neg h]

theorem thrSample_same {s : State} (h : clampLimit s.pwr.thrPin = thrLast s.pwr) : thrSample s = s := by
  simp only [thrSample, mPwr, if_pos h]

theorem clampLimit_toNat (l : Byte) :
    (clampLimit l).toNat = if l.toNat < 12 then 12 else if 170 < l.toNat then 170 else l.toNat := by
  unfold clampLimit
  split
  · rfl
  · split <;> rfl

section
variable {s : State} {limit : Byte} {t0 : Nat} {rest : List (Byte × Nat)} (oldest : s.pwr.thrNew = (limit, t0) :: rest)
include oldest

theorem throttleInForce_due (late : t0 + 2 ≤ s.tick) (frame : s.ccc.toNat % 16 = 0) (running : s.pwr.cur = 0) :
    throttleInForce s = { s with pwr := putLimit limit { s.pwr with thrNew := rest } } := by
  simp only [throttleInForce, oldest, Nat.not_lt.2 late, frame, running, decide_false, bne_self_eq_false, Bool.or_self,
    Bool.false_eq_true, if_false, mPwr]

theorem throttleInForce_early (h : s.tick < t0 + 2 ∨ s.ccc.toNat % 16 ≠ 0 ∨ s.pwr.cur ≠ 0) : throttleInForce s = s := by
  have early : (decide (s.tick < t0 + 2) || s.ccc.toNat % 16 != 0 || s.pwr.cur != 0) = true := by
    simpa only [Bool.or_eq_true, decide_eq_true_eq, bne_iff_ne, or_assoc] using h
  simp only [throttleInForce, oldest, early, if_true]
end

theorem exec_throttleInForce (s : State) : exec .throttleInForce s = .next (throttleInForce s) := rfl

theorem exec_peakClr (v : W32) (s : State) :
    exec (.peakClr v) s = .next (if v.getLsbD 0 then { s with pwr := { s.pwr with peak := 0 } } else s) := rfl

/-- Settles O28: the level, its sample, and the change's turn at a frame boundary. -/
theorem throttleComesIntoForce : Obligations.ThrottleComesIntoForce := by
  refine ⟨fun _ _ => rfl, fun s => thrSample_changed, fun s => thrSample_same, clampLimit_toNat,
    fun s limit t0 rest oldest late frame running => ?_, fun s limit t0 rest oldest early => ?_, fun v s set => ?_,
    fun v s clear => ?_⟩
  · rw [exec_throttleInForce, throttleInForce_due oldest late frame running]
    rfl
  · rw [exec_throttleInForce, throttleInForce_early oldest early]
  · rw [exec_peakClr, if_pos set]
  · rw [exec_peakClr, clear, if_neg Bool.false_ne_true]

/-! ### Resets (02 R68, R69; 15 R448 to R450) -/

theorem exec_rstColdN (s : State) : exec .rstColdN s = .next (assertReset 3 s) := rfl

theorem exec_rstWarmN (s : State) : exec .rstWarmN s = .next (assertReset 2 s) := rfl

theorem exec_rstEngN (s : State) : exec .rstEngN s = .next (assertReset 1 s) := rfl

theorem exec_rstDone (s : State) : exec .rstDone s = .next (rstDone s) := rfl

theorem assertReset_asleep {s : State} (kind : Nat) (h : s.pwr.cur = 2) :
    assertReset kind s = mRst (fun r => { r with pendingKind := max kind r.pendingKind, done := false }) (wakeBy 7 s) := if_pos h

theorem assertReset_now {s : State} (kind : Nat) (h : s.pwr.cur ≠ 2) :
    assertReset kind s = resetNow kind (wakeBy 7 s) := if_neg h

section
variable (k : Nat) (s : State)

theorem wakeBy_mbxOut : (wakeBy k s).pwr.mbxOut = s.pwr.mbxOut := wakeBy_field Pwr.mbxOut (fun _ => rfl) k s

theorem wakeBy_mbxIn : (wakeBy k s).pwr.mbxIn = s.pwr.mbxIn := wakeBy_field Pwr.mbxIn (fun _ => rfl) k s

theorem wakeBy_dozeTicks : (wakeBy k s).pwr.dozeTicks = s.pwr.dozeTicks := wakeBy_field Pwr.dozeTicks (fun _ => rfl) k s

theorem wakeBy_sleepTicks : (wakeBy k s).pwr.sleepTicks = s.pwr.sleepTicks := wakeBy_field Pwr.sleepTicks (fun _ => rfl) k s

theorem wakeBy_thrPin : (wakeBy k s).pwr.thrPin = s.pwr.thrPin := wakeBy_field Pwr.thrPin (fun _ => rfl) k s
end

theorem keptRtr_wakeBy (k : Nat) (s : State) : keptRtr (wakeBy k s) = keptRtr s := by
  rw [keptRtr, wakeBy_rtr, keptRtr]

section
variable (kind : Nat) (s : State)

theorem resetNow_mem : (resetNow kind s).mem = s.mem := by
  unfold resetNow; split <;> rfl

theorem resetNow_pending : (resetNow kind s).pending = s.pending := by
  unfold resetNow; split <;> rfl

theorem resetNow_done : (resetNow kind s).rst.done = false := rfl

/-- A reset that is not over yet is followed by one of the stronger of the two kinds. -/
theorem resetNow_kind : kind ≤ (resetNow kind s).rst.kind := by
  have strongest : (resetNow kind s).rst.kind = max kind s.rst.kind := rfl
  rw [strongest]
  exact Nat.le_max_left _ _

/-- Every reset empties the sessions, the rings, the tags, the buckets and the templates. -/
theorem resetNow_empties : (resetNow kind s).ses = {} ∧ (resetNow kind s).que = {} ∧ (resetNow kind s).trk = {} ∧
    (resetNow kind s).gas = {} ∧ (resetNow kind s).tpl = {} := by
  unfold resetNow; split <;> exact ⟨rfl, rfl, rfl, rfl, rfl⟩
end

/-- A cold reset also empties the sync objects, the router's configuration and the keys, and page PWR but for two fields. -/
theorem resetNow_cold (s : State) : (resetNow 3 s).lsu.keys = [] ∧ (resetNow 3 s).syn = {} ∧ (resetNow 3 s).rtr = {} ∧
    (resetNow 3 s).pwr = { lastReset := 3, thrPin := s.pwr.thrPin } := ⟨rfl, rfl, rfl, rfl⟩

/-- A warm reset keeps the Always-on domain. -/
theorem resetNow_warm (s : State) : (resetNow 2 s).lsu.keys = [] ∧ (resetNow 2 s).syn = {} ∧ (resetNow 2 s).rtr = {} ∧
    (resetNow 2 s).pwr = { s.pwr with lastReset := 2 } := ⟨rfl, rfl, rfl, rfl⟩

/-- An engine reset keeps the Fabric and Always-on domains, and the sync segments; LIVE objects become ORPHANED. -/
theorem resetNow_engine (s : State) : (resetNow 1 s).lsu = s.lsu ∧ (resetNow 1 s).lnk = s.lnk ∧
    (resetNow 1 s).rtr = keptRtr s ∧
    (resetNow 1 s).syn = { s.syn with
      objects := Sparse.mapAll {} s.syn.objects fun _ o => if o.st = .live then { o with st := .orphaned } else o } ∧
    (resetNow 1 s).pwr = { s.pwr with lastReset := 1 } := ⟨rfl, rfl, rfl, rfl, rfl⟩

/-- Settles O29: a reset acts on the state that the wake source leaves, which differs in none of the fields named. -/
theorem resetsClearTheEngine : Obligations.ResetsClearTheEngine := by
  intro s notAsleep
  refine ⟨⟨resetNow 3 (wakeBy 7 s), ?_⟩, ⟨resetNow 2 (wakeBy 7 s), ?_⟩, ⟨resetNow 1 (wakeBy 7 s), ?_⟩⟩
  · obtain ⟨ses, que, trk, gas, tpl⟩ := resetNow_empties 3 (wakeBy 7 s)
    obtain ⟨keys, syn, rtr, pwr⟩ := resetNow_cold (wakeBy 7 s)
    rw [exec_rstColdN, assertReset_now 3 notAsleep, pwr, wakeBy_thrPin, resetNow_mem, wakeBy_mem, resetNow_pending,
      wakeBy_pending]
    exact ⟨rfl, ses, que, trk, gas, tpl, keys, syn, rtr, rfl, rfl, rfl, resetNow_done _ _, resetNow_kind _ _⟩
  · obtain ⟨ses, que, trk, gas, tpl⟩ := resetNow_empties 2 (wakeBy 7 s)
    obtain ⟨keys, syn, rtr, pwr⟩ := resetNow_warm (wakeBy 7 s)
    rw [exec_rstWarmN, assertReset_now 2 notAsleep, pwr, resetNow_mem, wakeBy_mem, resetNow_pending, wakeBy_pending]
    exact ⟨rfl, ses, que, trk, gas, tpl, keys, syn, rtr, wakeBy_mbxOut 7 s, wakeBy_mbxIn 7 s, wakeBy_dozeTicks 7 s,
      wakeBy_sleepTicks 7 s, rfl, rfl, rfl, resetNow_done _ _, resetNow_kind _ _⟩
  · obtain ⟨ses, que, trk, gas, tpl⟩ := resetNow_empties 1 (wakeBy 7 s)
    obtain ⟨lsu, lnk, rtr, syn, pwr⟩ := resetNow_engine (wakeBy 7 s)
    rw [exec_rstEngN, assertReset_now 1 notAsleep, lsu, wakeBy_lsu, lnk, wakeBy_lnk, rtr, keptRtr_wakeBy, syn, wakeBy_syn, pwr,
      resetNow_mem, wakeBy_mem, resetNow_pending, wakeBy_pending]
    exact ⟨rfl, ses, que, trk, gas, tpl, rfl, rfl, rfl, rfl, rfl, wakeBy_mbxOut 7 s, wakeBy_mbxIn 7 s, wakeBy_dozeTicks 7 s,
      wakeBy_sleepTicks 7 s, rfl, rfl, rfl, resetNow_done _ _, resetNow_kind _ _⟩

theorem setSat_outstanding (p : Nat) (s : State) : (setSat p s).msix.outstanding = s.msix.outstanding := by
  unfold setSat
  dsimp only
  split
  · exact raiseVec_outstanding _ _
  · rfl

theorem powerNak_outstanding (s : State) : (powerNak s).msix.outstanding = s.msix.outstanding := by
  obtain e | e := bump_eq pgPwr (·.pwr.naks) (fun v => mPwr fun p => { p with naks := v }) 1
    (mPwr (fun p => { p with refused := true, nak := true }) s)
  · rw [powerNak, e]; rfl
  · rw [powerNak, e, setSat_outstanding]; rfl

theorem wakeBy_outstanding (k : Nat) (s : State) : (wakeBy k s).msix.outstanding = s.msix.outstanding := by
  unfold wakeBy
  dsimp only
  by_cases running : s.pwr.cur = 0 <;> cases entering : s.pwr.entry <;>
    simp only [running, if_true, if_false, Option.isSome, Bool.false_eq_true, mPwr_msix, powerNak_outstanding]

/-- Requests that the engine has presented outlive its reset. -/
theorem resetNow_engine_requests (s : State) : (resetNow 1 s).rst.done = false ∧
    (resetNow 1 s).msix.outstanding = s.msix.outstanding ∧ (resetNow 1 s).emp.writes.length = s.emp.writes.length :=
  ⟨rfl, rfl, List.length_map _⟩

theorem resetQuiet_iff (s : State) :
    resetQuiet s = true ↔ (s.rst.kind = 1 → s.msix.outstanding = none ∧ s.emp.writes = []) := by
  simp only [resetQuiet, Bool.or_eq_true, Bool.and_eq_true, bne_iff_ne, Option.isNone_iff_eq_none, List.isEmpty_iff,
    Decidable.imp_iff_not_or]

theorem rstDone_due {s : State} (kind : s.rst.kind ≠ 0) (acted : s.rst.pendingKind = 0) (due : s.rst.release + 16 ≤ s.tick)
    (quiet : resetQuiet s = true) :
    rstDone s = sendMbx 0x03 [3, w32 s.rst.kind, w32 0] { s with rst := { s.rst with done := true, kind := 0 } } := by
  refine if_neg ?_
  simp only [kind, acted, Nat.not_lt.2 due, quiet, decide_false, bne_self_eq_false, Bool.not_true, Bool.or_self,
    Bool.false_eq_true, not_false_eq_true]

theorem rstDone_early {s : State} (h : s.rst.kind = 0 ∨ s.tick < s.rst.release + 16 ∨ resetQuiet s = false) :
    rstDone s = s := by
  refine if_pos ?_
  simp only [Bool.or_eq_true, decide_eq_true_eq, Bool.not_eq_true']
  obtain h | h | h := h
  · exact .inl (.inl (.inl h))
  · exact .inl (.inr h)
  · exact .inr h

/-- Settles O30: a reset in sleep, RST_DONE's conditions, and what an engine reset keeps for it. -/
theorem resetCompletes : Obligations.ResetCompletes := by
  refine ⟨fun c k s hc asleep _ => ?_, fun s kind acted due quiet => ?_, fun s kind waits => ?_, fun s h => ?_,
    fun s => ⟨assertReset 1 s, exec_rstEngN s, ?_⟩⟩
  · rw [← assertReset_asleep k asleep]
    obtain ⟨rfl, rfl⟩ | ⟨rfl, rfl⟩ | ⟨rfl, rfl⟩ := hc <;> rfl
  · rw [exec_rstDone, rstDone_due kind acted due ((resetQuiet_iff s).2 quiet)]
  · rw [exec_rstDone, rstDone_early (.inr (.inr _))]
    rw [Bool.eq_false_iff, Ne, resetQuiet_iff]
    intro quiet
    obtain ⟨none, empty⟩ := quiet kind
    exact waits.elim (· none) (· empty)
  · rw [exec_rstDone, rstDone_early (h.imp_right .inl)]
  · by_cases asleep : s.pwr.cur = 2
    · rw [assertReset_asleep 1 asleep]
      exact ⟨rfl, wakeBy_outstanding 7 s, congrArg (fun e : Emp => e.writes.length) (wakeBy_emp 7 s)⟩
    · rw [assertReset_now 1 asleep]
      obtain ⟨low, request, writes⟩ := resetNow_engine_requests (wakeBy 7 s)
      rw [wakeBy_outstanding] at request
      rw [wakeBy_emp] at writes
      exact ⟨low, request, writes⟩

/-! ### Debug freeze (02 R66; 16 R494) -/

section
variable (s : State)

theorem exec_freezeRequest_input : exec (.debugFreezeRequest .input) s = .next (debugFreezeRequest .input s) :=
  congrArg _ (if_pos (Bool.or_true _))

theorem exec_freezeEnd_input : exec (.debugFreezeEnd .input) s = .next (debugFreezeEnd .input s) :=
  congrArg _ (if_pos (Bool.or_true _))

theorem freezeNow_register (unlock : Bool) : freezeNow (.register unlock) s = ctlOn s := Bool.or_false _

/-- A request through the debug bus acts while the clocks run and waits for the wake otherwise. -/
theorem exec_freezeRequest_register (unlock : Bool) : exec (.debugFreezeRequest (.register unlock)) s =
    .next (if ctlOn s then debugFreezeRequest (.register unlock) s
      else holdAccess 5 (.debugFreezeRequest (.register unlock)) s) := by
  rw [← freezeNow_register s unlock]; rfl

theorem exec_freezeEnd_register (unlock : Bool) : exec (.debugFreezeEnd (.register unlock)) s =
    .next (if ctlOn s then debugFreezeEnd (.register unlock) s else holdAccess 5 (.debugFreezeEnd (.register unlock)) s) := by
  rw [← freezeNow_register s unlock]; rfl

theorem exec_debugFreezeDone : exec .debugFreezeDone s = .next (if ctlOn s then debugFreezeDone s else s) := rfl
end

theorem debugFreezeRequest_asked {src : FreezeSource} {s : State} (h : freezeAsked (freezeReq src true s) = true) :
    debugFreezeRequest src s = mDbg (fun d => { d with issueStopped := true }) (freezeReq src true s) := if_pos h

theorem debugFreezeRequest_ignored {src : FreezeSource} {s : State} (h : freezeAsked (freezeReq src true s) = false) :
    debugFreezeRequest src s = freezeReq src true s := if_neg (Bool.eq_false_iff.1 h)

theorem debugFreezeEnd_asked {src : FreezeSource} {s : State} (h : freezeAsked (freezeReq src false s) = true) :
    debugFreezeEnd src s = freezeReq src false s := if_pos h

theorem debugFreezeEnd_last {src : FreezeSource} {s : State} (h : freezeAsked (freezeReq src false s) = false) :
    debugFreezeEnd src s =
      releaseHeld (mDbg (fun d => { d with frozen := false, issueStopped := false }) (freezeReq src false s)) :=
  if_neg (Bool.eq_false_iff.1 h)

theorem debugFreezeDone_frozen {s : State} (asked : freezeAsked s = true) (running : s.dbg.frozen = false)
    (noTags : s.trk.tags = []) (quiet : gasWriting s = false) :
    debugFreezeDone s = bump pgDbg (·.dbg.freezes) (fun v t => { t with dbg := { t.dbg with freezes := v } }) 1
      { s with dbg := { s.dbg with frozen := true } } := by
  simp only [debugFreezeDone, asked, running, noTags, quiet]
  rfl

theorem debugFreezeDone_waits {s : State} (h : s.trk.tags ≠ [] ∨ gasWriting s = true) : debugFreezeDone s = s := by
  refine if_pos ?_
  simp only [Bool.or_eq_true, Bool.not_eq_true', List.isEmpty_eq_false_iff]
  exact h.elim (fun tags => .inl (.inr tags)) .inr

/-- Settles O32: each source's request and end, by whether a request stands then. -/
theorem debugFreezes : Obligations.DebugFreezes := by
  refine ⟨fun s => ?_, fun s on => ?_, fun s on off offIn => ?_, fun s on asked running noTags quiet => ?_, fun s h => ?_,
    fun s off => ?_, fun s stands => ?_, fun s on off => ?_, fun s on stands => ?_, fun s on asked => ?_,
    fun unlock s gated => ⟨?_, ?_⟩⟩
  · have asked : freezeAsked (freezeReq .input true s) = true := Bool.or_true _
    rw [exec_freezeRequest_input, debugFreezeRequest_asked asked]
    rfl
  · have asked : freezeAsked (freezeReq (.register true) true s) = true := Bool.true_or _
    rw [exec_freezeRequest_register, if_pos on, debugFreezeRequest_asked asked]
    rfl
  · have none : freezeAsked (freezeReq (.register false) true s) = false := Bool.or_eq_false_iff.2 ⟨off, offIn⟩
    rw [exec_freezeRequest_register, if_pos on, debugFreezeRequest_ignored none]
    rfl
  · rw [exec_debugFreezeDone, if_pos on, debugFreezeDone_frozen asked running noTags quiet]
  · rw [exec_debugFreezeDone, debugFreezeDone_waits h, ite_self]
  · have none : freezeAsked (freezeReq .input false s) = false := Bool.or_eq_false_iff.2 ⟨off, rfl⟩
    rw [exec_freezeEnd_input, debugFreezeEnd_last none]
    rfl
  · have still : freezeAsked (freezeReq .input false s) = true := Bool.or_eq_true_iff.2 (.inl stands)
    rw [exec_freezeEnd_input, debugFreezeEnd_asked still]
    rfl
  · have none : freezeAsked (freezeReq (.register true) false s) = false := Bool.or_eq_false_iff.2 ⟨rfl, off⟩
    rw [exec_freezeEnd_register, if_pos on, debugFreezeEnd_last none]
    rfl
  · have still : freezeAsked (freezeReq (.register true) false s) = true := Bool.or_eq_true_iff.2 (.inr stands)
    rw [exec_freezeEnd_register, if_pos on, debugFreezeEnd_asked still]
    rfl
  · have still : freezeAsked (freezeReq (.register false) false s) = true := asked
    rw [exec_freezeEnd_register, if_pos on, debugFreezeEnd_asked still]
    rfl
  · rw [exec_freezeRequest_register, gated, if_neg Bool.false_ne_true]
  · rw [exec_freezeEnd_register, gated, if_neg Bool.false_ne_true]

/-! ### The debug window (02 R66; 16 R495) -/

theorem exec_dbgSelWrite (unlock : Bool) (v : W32) (s : State) : exec (.dbgSelWrite ⟨unlock, v⟩) s =
    .next (if ctlOn s then dbgSelWrite v (sampleUnlock unlock s) else holdAccess 5 (.dbgSelWrite ⟨unlock, v⟩) s) := rfl

theorem exec_dbgDataRead (unlock high : Bool) (s : State) : exec (.dbgDataRead ⟨unlock, high⟩) s =
    .next (if ctlOn s then dbgDataRead high (sampleUnlock unlock s) else holdAccess 5 (.dbgDataRead ⟨unlock, high⟩) s) := rfl

theorem exec_synDbgSelWrite (v : W32) (s : State) : exec (.synDbgSelWrite v) s =
    .next (if fabricOn s then synDbgSelWrite v s else holdAccess 5 (.synDbgSelWrite v) s) := rfl

theorem exec_dbgWaiterRead (s : State) : exec .dbgWaiterRead s =
    .next (if fabricOn s then dbgWaiterRead s else holdAccess 5 .dbgWaiterRead s) := rfl

theorem unlocked_iff {s : State} : s.dbg.unlock = true ↔ ¬(!s.dbg.unlock) = true := by
  rw [Bool.not_eq_true', Bool.not_eq_false]

theorem dbgSelWrite_locked {s : State} (v : W32) (h : s.dbg.unlock = false) : dbgSelWrite v s = s :=
  if_pos (by rw [h]; rfl)

theorem dbgDataRead_locked {s : State} (high : Bool) (h : s.dbg.unlock = false) :
    dbgDataRead high s = { s with dbg := { s.dbg with readData := 0 } } := if_pos (by rw [h]; rfl)

section
variable {s : State} (unlocked : s.dbg.unlock = true)
include unlocked

theorem dbgSelWrite_unlocked (v : W32) : dbgSelWrite v s =
    if 8 < bits v.toNat 3 0 then pageErr pgDbg cConfigInvalid s
    else { s with dbg := { s.dbg with sel := v.extractLsb' 0 4 } } := if_neg (unlocked_iff.1 unlocked)

theorem dbgDataRead_high : dbgDataRead true s =
    { s with dbg := { s.dbg with readData := s.dbg.latch, addr := s.dbg.addr + 1 } } :=
  (if_neg (unlocked_iff.1 unlocked)).trans (if_pos rfl)

/-- The targets 6 to 8 are read while frozen only. -/
theorem dbgDataRead_denied (target : 6 ≤ s.dbg.sel.toNat) (running : s.dbg.frozen = false) :
    dbgDataRead false s = dbgLatch 0 (pageErr pgDbg cAccessDenied s) := by
  have denied : (decide (6 ≤ s.dbg.sel.toNat) && !s.dbg.frozen) = true := by rw [running, decide_eq_true target]; rfl
  calc dbgDataRead false s = _ := if_neg (unlocked_iff.1 unlocked)
    _ = _ := if_neg Bool.false_ne_true
    _ = _ := if_pos denied

theorem dbgDataRead_low (served : s.dbg.sel.toNat < 6 ∨ s.dbg.frozen = true) : dbgDataRead false s =
    if dbgWords s ≤ s.dbg.addr.toNat then dbgLatch 0 (pageErr pgDbg cFieldInvalid s)
    else if dbgFree s then { dbgLatch (dbgWord s s.dbg.addr.toNat) s with free := s.free + 1 }
    else dbgLatch (dbgWord s s.dbg.addr.toNat) s := by
  have allowed : ¬(decide (6 ≤ s.dbg.sel.toNat) && !s.dbg.frozen) = true := by
    rw [Bool.and_eq_true, decide_eq_true_eq, Bool.not_eq_true']
    rintro ⟨target, running⟩
    exact served.elim (Nat.not_lt.2 target) (Bool.eq_false_iff.1 running)
  calc dbgDataRead false s = _ := if_neg (unlocked_iff.1 unlocked)
    _ = _ := if_neg Bool.false_ne_true
    _ = _ := if_neg allowed

theorem dbgDataRead_outside (served : s.dbg.sel.toNat < 6 ∨ s.dbg.frozen = true) (h : dbgWords s ≤ s.dbg.addr.toNat) :
    dbgDataRead false s = dbgLatch 0 (pageErr pgDbg cFieldInvalid s) := by
  rw [dbgDataRead_low unlocked served, if_pos h]

theorem dbgDataRead_word (served : s.dbg.sel.toNat < 6 ∨ s.dbg.frozen = true) (h : s.dbg.addr.toNat < dbgWords s)
    (known : dbgFree s = false) : dbgDataRead false s = dbgLatch (dbgWord s s.dbg.addr.toNat) s := by
  rw [dbgDataRead_low unlocked served, if_neg (Nat.not_le.2 h), known, if_neg Bool.false_ne_true]

/-- A word of the palm, and of a data memory in use, is a free value (log 22). -/
theorem dbgDataRead_freeWord (served : s.dbg.sel.toNat < 6 ∨ s.dbg.frozen = true) (h : s.dbg.addr.toNat < dbgWords s)
    (free : dbgFree s = true) : dbgDataRead false s = { dbgLatch (Config.freeWord s.free) s with free := s.free + 1 } := by
  have word : dbgWord s s.dbg.addr.toNat = Config.freeWord s.free := if_pos free
  rw [dbgDataRead_low unlocked served, if_neg (Nat.not_le.2 h), if_pos free, word]
end

theorem dbgWaiterRead_next {s : State} (h : dbgWaiter s ≠ 0) : dbgWaiterRead s = { s with
    syn := { s.syn with dbgNext := s.syn.dbgNext + 1 }, dbg := { s.dbg with readData := dbgWaiter s } } := by
  simp only [dbgWaiterRead, if_neg h]
  rfl

theorem dbgWaiterRead_end {s : State} (h : dbgWaiter s = 0) :
    dbgWaiterRead s = { s with dbg := { s.dbg with readData := 0 } } := by
  simp only [dbgWaiterRead, h]
  rfl

/-- Settles O33: the select's write, the two halves of a read by its target and index, and the list of waiters. -/
theorem debugWindowsRead : Obligations.DebugWindowsRead := by
  refine ⟨fun v s on => ⟨fun target => ?_, fun reserved => ?_, ?_⟩, fun s s1 on h1 => ?_, fun high s on => ?_,
    fun _ _ => rfl, fun v s on => ?_, fun s on next => ?_, fun s on none => ?_,
    fun unlock high v s off => ⟨?_, ?_⟩, fun v s off => ⟨?_, ?_⟩⟩
  · rw [exec_dbgSelWrite, if_pos on, dbgSelWrite_unlocked rfl v, if_neg (Nat.not_lt.2 target)]
    rfl
  · rw [exec_dbgSelWrite, if_pos on, dbgSelWrite_unlocked rfl v, if_pos reserved]
    rfl
  · rw [exec_dbgSelWrite, if_pos on, dbgSelWrite_locked v rfl]
    rfl
  · obtain rfl : s1 = sampleUnlock true s := h1
    simp only [exec_dbgDataRead, on, if_true]
    refine ⟨fun served inside known => ?_, fun served inside free => ?_, fun target running => ?_,
      fun served outside => ?_, ?_⟩
    · exact congrArg _ (dbgDataRead_word (s := sampleUnlock true s) rfl served inside known)
    · exact congrArg _ (dbgDataRead_freeWord (s := sampleUnlock true s) rfl served inside free)
    · exact congrArg _ (dbgDataRead_denied (s := sampleUnlock true s) rfl target running)
    · exact congrArg _ (dbgDataRead_outside (s := sampleUnlock true s) rfl served outside)
    · exact congrArg _ (dbgDataRead_high (s := sampleUnlock true s) rfl)
  · rw [exec_dbgDataRead, if_pos on, dbgDataRead_locked high rfl]
    rfl
  · rw [exec_synDbgSelWrite, if_pos on]
    rfl
  · rw [exec_dbgWaiterRead, if_pos on, dbgWaiterRead_next next]
  · rw [exec_dbgWaiterRead, if_pos on, dbgWaiterRead_end none]
  · rw [exec_dbgSelWrite, off, if_neg Bool.false_ne_true]
  · rw [exec_dbgDataRead, off, if_neg Bool.false_ne_true]
  · rw [exec_synDbgSelWrite, off, if_neg Bool.false_ne_true]
  · rw [exec_dbgWaiterRead, off, if_neg Bool.false_ne_true]

/-! ### Events of the PHY (02 R50, R51; 04 R126) -/

theorem exec_phyLock (port : Fin 10) (s : State) : exec (.phyLock port) s = .next (phyLock port.val s) := rfl

theorem exec_linkLost (port : Fin 10) (lock : Bool) (lanes : W16) (s : State) :
    exec (.linkLost port lock lanes) s = .next (linkLost port.val lock lanes s) := rfl

theorem exec_phyPresentChange (port : Fin 10) (present : Bool) (s : State) :
    exec (.phyPresentChange port present) s = .next (phyPresentChange port.val present s) := rfl

theorem phyLock_waiting {p : Nat} {s : State} (h : (portOf s p).st = 1) :
    phyLock p s = mPort p (fun q =>
      { q with
        lock := true, laneOk := 0xFFFF, trainReq := false, seenRx := false, rxSeen := false, txSeen := false, st := 2,
        stateTick := s.tick }) s := by
  simp only [phyLock, h, if_true, setPortState, mPort_mPort]
  rfl

theorem phyLock_other {p : Nat} {s : State} (h : (portOf s p).st ≠ 1) :
    phyLock p s = mPort p (fun q => { q with lock := true, laneOk := 0xFFFF }) s := if_neg h

/-- The loss of the lock or of a lane takes a link that is up down. -/
theorem linkLost_eq (p : Nat) (lock : Bool) (lanes : W16) (s : State) : linkLost p lock lanes s =
    if (portOf s p).st = 6 ∧ (lock = false ∨ lanes ≠ 0xFFFF) then
      linkDown p (some cLinkLost) true false (mPort p (fun q => { q with lock := lock, laneOk := lanes }) s)
    else mPort p (fun q => { q with lock := lock, laneOk := lanes }) s := by
  simp only [linkLost, Bool.and_eq_true, decide_eq_true_eq, Bool.or_eq_true, Bool.not_eq_true', bne_iff_ne]

theorem phyAppears_eq (p : Nat) (s : State) : phyPresentChange p true s =
    if (portOf s p).st = 0 ∧ mayTrain (mPort p (fun q => { q with present := true }) s) p = true then
      toPhyWait p (mPort p (fun q => { q with present := true }) s)
    else mPort p (fun q => { q with present := true }) s := by
  simp only [phyPresentChange, if_true, Bool.and_eq_true, decide_eq_true_eq]

theorem phyGoes_eq (p : Nat) (s : State) : phyPresentChange p false s =
    if (portOf s p).st = 6 then linkDown p (some cLinkLost) true false (mPort p (fun q => { q with present := false }) s)
    else if (portOf s p).st = 0 then mPort p (fun q => { q with present := false }) s
    else toDown p (mPort p (fun q => { q.cleared with lost := q.lost, queues := q.queues })
      (freeKeys p (mPort p (fun q => { q with present := false }) s))) := by
  simp only [phyPresentChange, Bool.false_eq_true, if_false]

/-- Settles O36: the lock, the losses and the PHY's presence, by the port's state. -/
theorem phyEventsMoveThePort : Obligations.PhyEventsMoveThePort := by
  refine ⟨fun port s waits => ?_, fun port s other => ?_, fun port lock lanes s up lost => ?_, fun port lock lanes s kept => ?_,
    fun port s s1 h1 => ⟨fun down may => ?_, fun stays => ?_⟩, fun port s s1 h1 => ⟨fun up => ?_, fun down => ?_,
      fun notDown notUp => ?_⟩⟩
  · rw [exec_phyLock, phyLock_waiting waits]
  · rw [exec_phyLock, phyLock_other other]
  · rw [exec_linkLost, linkLost_eq, if_pos ⟨up, lost⟩]
  · rw [exec_linkLost, linkLost_eq, if_neg]
    rintro ⟨up, lost⟩
    obtain notUp | ⟨locked, lanesUp⟩ := kept
    · exact notUp up
    · exact lost.elim (fun unlocked => Bool.false_ne_true (unlocked.symm.trans locked)) (· lanesUp)
  · subst h1
    rw [exec_phyPresentChange, phyAppears_eq, if_pos ⟨down, may⟩]
  · subst h1
    rw [exec_phyPresentChange, phyAppears_eq, if_neg]
    rintro ⟨down, may⟩
    exact stays.elim (· down) fun mayNot => Bool.false_ne_true (mayNot.symm.trans may)
  · rw [exec_phyPresentChange, phyGoes_eq, if_pos up, h1]
  · have notUp : (portOf s port.val).st ≠ 6 := by rw [down]; decide
    rw [exec_phyPresentChange, phyGoes_eq, if_neg notUp, if_pos down, h1]
  · rw [exec_phyPresentChange, phyGoes_eq, if_neg notUp, if_neg notDown, h1]

end Sys2Proof.Proofs

namespace Sys2Proof.Proofs

open Sys2Proof.Machine Sys2Proof.Safety Sys2Proof.Laws

/-! ### Route holds (03 R76, R89, R90) -/

section
variable (s : State)

theorem exec_routeHold :
    exec .routeHold s = .next (if fabricOn s then routeHold s else holdAccess 5 .routeHold s) := rfl

theorem exec_holdDone : exec .holdDone s = .next (if fabricOn s then holdDone s else s) := rfl

theorem exec_routeHoldRelease : exec .routeHoldRelease s =
    .next (if fabricOn s then routeHoldRelease s else holdAccess 5 .routeHoldRelease s) := rfl

theorem exec_ringMapWrite (v : W32) : exec (.ringMapWrite v) s =
    .next (if fabricOn s then ringMapWrite v s else holdAccess 5 (.ringMapWrite v) s) := rfl
end

theorem holdDone_quiet {s : State} (held : s.rtr.hold = true) (quiet : injecting s = false) :
    holdDone s = { s with rtr := { s.rtr with holdDone := true } } := if_pos (by rw [held, quiet]; rfl)

/-- The guard of an action that b holds back. -/
theorem and_not_eq_false {a b : Bool} (h : a = false ∨ b = true) : (a && !b) = false := by
  rwa [Bool.and_eq_false_iff, Bool.not_eq_false']

theorem holdDone_waits {s : State} (h : s.rtr.hold = false ∨ injecting s = true) : holdDone s = s :=
  if_neg (Bool.eq_false_iff.1 (and_not_eq_false h))

section
variable {v : W32} {s : State} {e : RingMap}
  (entry : e = { excluded := v.extractLsb' 0 5, x0 := v.extractLsb' 5 5, dead := v.getLsbD 10 })
include entry

theorem ringMapWrite_taken (held : s.rtr.holdDone = true) (good : ringMapBad s e = false) : ringMapWrite v s =
    mRtr (fun r => { r with ringMap := Sparse.set {} r.ringMap r.ringIndex.toNat e }) s := by
  subst entry
  exact if_neg (by rw [held, good]; decide)

theorem ringMapWrite_refused (h : s.rtr.holdDone = false ∨ ringMapBad s e = true) :
    ringMapWrite v s = pageErr pgRtr cConfigInvalid s := by
  subst entry
  refine if_pos ?_
  rw [Bool.or_eq_true, Bool.not_eq_true']
  exact h
end

/-- Settles O34: the hold, its acknowledge, the map's write and the release, each with the Fabric domain running and gated. -/
theorem routesAreHeld : Obligations.RoutesAreHeld := by
  refine ⟨fun s on => ?_, fun s on held quiet => ?_, fun s waits => ?_,
    fun v s e on entry => ⟨fun held good => ?_, fun refused => ?_⟩, fun s s1 on h1 => ?_, fun v s gated => ⟨?_, ?_, ?_⟩⟩
  · rw [exec_routeHold, if_pos on]
    rfl
  · rw [exec_holdDone, if_pos on, holdDone_quiet held quiet]
  · rw [exec_holdDone, holdDone_waits waits, ite_self]
  · rw [exec_ringMapWrite, if_pos on, ringMapWrite_taken entry held good]
  · rw [exec_ringMapWrite, if_pos on, ringMapWrite_refused entry refused]
  · rw [exec_routeHoldRelease, if_pos on, h1]
    rfl
  · rw [exec_routeHold, gated, if_neg Bool.false_ne_true]
  · rw [exec_routeHoldRelease, gated, if_neg Bool.false_ne_true]
  · rw [exec_ringMapWrite, gated, if_neg Bool.false_ne_true]

/-! ### Routing of headers (03 R83 to R87, R91; 04 R130; 11 R349) -/

theorem exec_headerRoute (i : Fin 11) (s : State) :
    exec (.headerRoute i) s = .next (if fabricOn s then headerRoute i.val s else s) := rfl

theorem headerRoute_idle {i : Nat} {s : State} (nothing : nextHeader s (Sparse.get [] s.rtr.inputs i) = none) :
    headerRoute i s = s := by
  simp only [headerRoute, nothing]

section
variable {i : Nat} {s s1 : State} {k : Packet} (offered : nextHeader s (Sparse.get [] s.rtr.inputs i) = some k)
  (taken : s1 = mRtr (fun r => { r with inputs := Sparse.modify [] r.inputs i (·.erase k) }) s)
include offered taken

theorem headerRoute_deliver (here : decideRoute s k = .deliver) : headerRoute i s =
    if k.isBand && bandReserved k then leaveBuffer k (countBandDrop s1)
    else if k.isBand then wakeBy 2 (leaveBuffer k (mRtr (fun r => { r with inbox := r.inbox ++ [k] }) s1))
    else leaveBuffer k (mRtr (fun r => { r with inbox := r.inbox ++ [k] }) s1) := by
  simp only [headerRoute, offered, here, taken]

theorem headerRoute_drop (lost : decideRoute s k = .drop) : headerRoute i s = leaveBuffer k (discardPkt k s1) := by
  simp only [headerRoute, offered, lost, taken]

/-- Only a port that is not fenced discards a packet for a capability that its link lacks. -/
theorem headerRoute_go {p v : Nat} {enter on7 counted : Bool} (onward : decideRoute s k = .go p enter v on7 counted)
    {s2 : State} (chosen : s2 = if counted && !fenced s then choice 0 0 0 s1 else s1) : headerRoute i s =
    if capLacks s p k && !fenced s then leaveBuffer k (discardPkt k s2)
    else queueTo p
      { k with vc := v, hops := min 255 (k.hops + 1), flags := k.flags - 2 * b2n (bit k.flags 1) + 2 * b2n on7 } enter s2 := by
  simp only [headerRoute, offered, onward, taken, chosen]
end

/-- Settles O35: the packet that the input offers, by what is decided of it. -/
theorem headersAreRouted : Obligations.HeadersAreRouted := by
  refine ⟨fun i s s1 k on offered taken => ?_, fun i s nothing => ?_⟩
  · rw [exec_headerRoute, if_pos on]
    refine ⟨fun here bulk => ?_, fun here band known => ?_, fun here band reserved => ?_, fun lost => ?_,
      fun p enter v on7 counted s2 onward chosen => ⟨fun goes => ?_, fun lacks unfenced => ?_⟩⟩
    · rw [headerRoute_deliver offered taken here, bulk, Bool.false_and, if_neg Bool.false_ne_true,
        if_neg Bool.false_ne_true]
    · rw [headerRoute_deliver offered taken here, band, known, Bool.and_false, if_neg Bool.false_ne_true, if_pos rfl]
    · rw [headerRoute_deliver offered taken here, band, reserved, Bool.and_true, if_pos rfl]
    · rw [headerRoute_drop offered taken lost]
    · rw [headerRoute_go offered taken onward chosen, and_not_eq_false goes, if_neg Bool.false_ne_true]
    · rw [headerRoute_go offered taken onward chosen, lacks, unfenced, Bool.not_false, Bool.and_true, if_pos rfl]
  · rw [exec_headerRoute, headerRoute_idle nothing, ite_self]

end Sys2Proof.Proofs

namespace Sys2Proof.Proofs

open Sys2Proof.Machine Sys2Proof.Safety Sys2Proof.Laws

/-! ### Received flits (04 R121, R133; 13 R417) -/

section
variable {p fec : Nat} {s0 : State} (uninjected : injectedBad s0 p = false)
include uninjected

/-- Where no fault is injected, a flit that the PHY corrected has its corrected symbols counted alone. -/
theorem meetFlit_corrected : meetFlit p false fec s0 = (false, fecCounted p fec s0) := by
  simp only [meetFlit, uninjected, Bool.or_false, Bool.false_eq_true, if_false]
  rfl

/-- A flit that the PHY could not correct is counted as such too. -/
theorem meetFlit_uncorrectable : meetFlit p true fec s0 = (true, countUncorr p (fecCounted p fec s0)) := by
  simp only [meetFlit, uninjected, Bool.or_false, Bool.false_eq_true, if_false, if_true]
  rfl
end

/-! ### Traffic flits of a frame (04 R111, R113, R121) -/

theorem exec_flitReceive (port : Fin 10) (flit : BitVec 1024) (frame : W32) (index : Fin 63) (bad : Bool) (fec : Byte)
    (s : State) : exec (.flitReceive port flit frame index bad fec) s =
      .next (flitReceive port.val flit frame index.val bad fec.toNat s) := rfl

theorem flitReceive_uncorrectable {p fec : Nat} {s0 s : State} (flit : BitVec 1024) (frame : W32) (index : Nat)
    (uninjected : injectedBad s0 p = false) (counted : s = countUncorr p (fecCounted p fec s0)) (up : portUp s p = true) :
    flitReceive p flit frame index true fec s0 = badFlit p s := by
  simp only [flitReceive, meetFlit_uncorrectable uninjected, ← counted, up, Bool.not_true, Bool.false_eq_true, if_false,
    if_true]

theorem serialGt_self (a : W32) : serialGt a a = false := by
  rw [serialGt, bne_self_eq_false, Bool.false_and]

section
variable {p fec : Nat} {flit : BitVec 1024} {s0 s : State} (uninjected : injectedBad s0 p = false)
  (counted : s = fecCounted p fec s0) (up : portUp s p = true) (traffic : leAt (leBytes 128 flit.toNat) 0 1 % 4 ≠ 0)
include uninjected counted up traffic

theorem flitReceive_duplicate {frame : W32} (index : Nat) (accepted : serialGt (portOf s p).rxSeq frame = true) :
    flitReceive p flit frame index false fec s0 = countDup p 1 s := by
  simp only [flitReceive, meetFlit_corrected uninjected, ← counted, up, Bool.not_true, Bool.false_eq_true, if_false, traffic,
    accepted, if_true]

/-- The next flit of the frame is held as it came and decrypted at its place for the reassembly. -/
theorem flitReceive_next (keyed : rxKeyReady s p = true) {s1 s2 : State} (started : s1 = rxFrameStart p s)
    (held : s2 = mPort p (fun q =>
      { q with
        rxFlits := q.rxFlits ++
          [⟨BitVec.ofNat 32 (leAt (leBytes 128 flit.toNat) 0 4), slice (leBytes 128 flit.toNat) 4 124⟩],
        rxIdx := q.rxIdx + 1, rxF := q.rxF + 1, discarding := false }) s1) (unfenced : fenced s2 = false) :
    flitReceive p flit (portOf s p).rxSeq (portOf s p).rxIdx false fec s0 =
      reassemble p (portOf s p).rxSeq (BitVec.ofNat 32 (leAt (leBytes 128 flit.toNat) 0 4))
        (gcmCrypt (gcmKeys s1 p true (portOf s1 p).rxEpoch) (frameIv s1 p true (portOf s1 p).rxEpoch (portOf s p).rxSeq)
          (124 * (portOf s p).rxIdx) (slice (leBytes 128 flit.toNat) 4 124)) s2 := by
  simp only [flitReceive, meetFlit_corrected uninjected, ← counted, up, Bool.not_true, Bool.false_eq_true, if_false, traffic,
    serialGt_self, bne_self_eq_false, Bool.or_false, keyed, ← started, ← held, unfenced]
end

/-! ### Link control flits (04 R111, R113, R120, R121, R123) -/

theorem exec_lcfReceive (port : Fin 10) (flit : PhyFlit) (bad : Bool) (s : State) :
    exec (.lcfReceive port flit bad) s = .next (lcfReceive port.val flit.bits bad flit.fecCorr.toNat s) := rfl

theorem lcfReceive_uncorrectable {p fec : Nat} {s0 s : State} (flit : BitVec 1024) (uninjected : injectedBad s0 p = false)
    (counted : s = countUncorr p (fecCounted p fec s0)) (frames : framing s p = true) :
    lcfReceive p flit true fec s0 = badFlit p s := by
  simp only [lcfReceive, meetFlit_uncorrectable uninjected, ← counted, frames, Bool.not_true, Bool.false_eq_true, if_false,
    if_true]

section
variable {p fec : Nat} {flit : BitVec 1024} {s0 s : State} {b : List Byte} {seq : W32}
  (uninjected : injectedBad s0 p = false) (counted : s = fecCounted p fec s0) (frames : framing s p = true)
  (bytes : b = leBytes 128 flit.toNat) (control : leAt b 0 1 % 4 = 0) (code : leAt b 4 1 = 1)
  (frame : seq = BitVec.ofNat 32 (leAt b 8 4))
include uninjected counted frames bytes control code frame

theorem lcfReceive_duplicate (accepted : serialGt (portOf s p).rxSeq seq = true) :
    lcfReceive p flit false fec s0 = countDup p 1 s := by
  simp only [lcfReceive, meetFlit_corrected uninjected, ← counted, frames, ← bytes, control, code, ← frame, accepted,
    bne_self_eq_false, Bool.or_false, Bool.not_true, Bool.false_eq_true, if_false, if_true]

/-- The LCF of the frame under way ends it, well or not, by its tag. -/
theorem lcfReceive_current (current : (portOf s p).rxSeq = seq) (receiving : (portOf s p).discarding = false)
    (keyed : rxKeyReady s p = true) : lcfReceive p flit false fec s0 =
      if frameTag (rxFrameStart p s) p b = slice b 112 16 then
        pump p (linkUp p (applyLcf p b (passFrame p seq (rxFrameStart p s))))
      else authFail p seq (rxFrameStart p s) := by
  simp only [lcfReceive, meetFlit_corrected uninjected, ← counted, frames, ← bytes, control, code, ← frame, current,
    serialGt_self, receiving, keyed, bne_self_eq_false, Bool.or_false, Bool.false_and, Bool.not_true, Bool.false_eq_true,
    if_false, bne_iff_ne, ite_not]
end

theorem exec_lcfSend (port : Fin 10) (s : State) : exec (.lcfSend port) s = .next (lcfSend port.val s) := rfl

theorem lcfSend_due {p : Nat} {s : State} (frames : framing s p = true) (keyed : txKeyReady s p = true)
    (due : lcfDue s p = true) (room : retryHeld (portOf s p) < retryFlits) :
    lcfSend p s = pump p (linkUp p (lcfEmit p s)) :=
  if_pos (by rw [frames, keyed, due, decide_eq_true room]; rfl)

/-! ### The retry timer (04 R123) -/

theorem exec_retryTimeout (port : Fin 10) (s : State) : exec (.retryTimeout port) s = .next (retryTimeout port.val s) := rfl

theorem retryTimeout_empty {p : Nat} {s : State} (empty : (portOf s p).retry = []) : retryTimeout p s = s := by
  simp only [retryTimeout, empty]

/-- With frames held, the oldest is asked for again when the link carries frames and the time is over. -/
theorem retryTimeout_held {p : Nat} {s : State} {f : Frame} {rest : List Frame} (held : (portOf s p).retry = f :: rest) :
    retryTimeout p s =
      if framing s p = true ∧
          max 1 s.lnk.timeoutLoops.toNat * creditLoop s p ≤ (s.tick - (portOf s p).ackTick) * 4000 then
        askReplay p f.seq s
      else s := by
  simp only [retryTimeout, held, Bool.and_eq_true, decide_eq_true_eq, ge_iff_le]

theorem retryTimeout_early {p : Nat} {s : State}
    (early : (s.tick - (portOf s p).ackTick) * 4000 < max 1 s.lnk.timeoutLoops.toNat * creditLoop s p) :
    retryTimeout p s = s := by
  cases held : (portOf s p).retry with
  | nil => exact retryTimeout_empty held
  | cons f rest =>
    rw [retryTimeout_held held, if_neg]
    rintro ⟨-, due⟩
    exact Nat.not_lt.2 due early

/-- Settles O38: a flit by its place in the stream, an LCF by its frame and tag, and the two sides of the retry timer. -/
theorem framesAreExchanged : Obligations.FramesAreExchanged := by
  refine ⟨fun port flit index fec s0 s s1 s2 b uninjected counted up bytes traffic place keyed _ started held unfenced => ?_,
    fun port flit frame index fec s0 s uninjected counted up traffic accepted => ?_,
    fun port flit frame index fec s0 s uninjected counted => ⟨fun up => ?_, fun frames => ?_⟩,
    fun port flit fec s0 s b seq uninjected counted frames bytes control code frame => ⟨fun accepted => ?_,
      fun _ current receiving keyed => ⟨fun tagged => ?_, fun forged => ?_⟩⟩,
    fun port s frames keyed due room => ?_, fun port s f rest held frames due => ?_, fun port s quiet => ?_⟩
  · subst bytes
    rw [exec_flitReceive, place, flitReceive_next uninjected counted up traffic keyed started held unfenced]
  · rw [exec_flitReceive, flitReceive_duplicate uninjected counted up traffic index accepted]
  · rw [exec_flitReceive, flitReceive_uncorrectable flit frame index uninjected counted up, badFlit]
  · rw [exec_lcfReceive, lcfReceive_uncorrectable flit uninjected counted frames, badFlit]
  · rw [exec_lcfReceive, lcfReceive_duplicate uninjected counted frames bytes control code frame accepted]
  · rw [exec_lcfReceive, lcfReceive_current uninjected counted frames bytes control code frame current receiving keyed,
      if_pos tagged]
  · rw [exec_lcfReceive, lcfReceive_current uninjected counted frames bytes control code frame current receiving keyed,
      if_neg forged]
  · rw [exec_lcfSend, lcfSend_due frames keyed due room]
  · rw [exec_retryTimeout, retryTimeout_held held, if_pos ⟨frames, due⟩]
  · rw [exec_retryTimeout, quiet.elim retryTimeout_empty retryTimeout_early]

/-! ### The timers of a port (04 R126; 14 R428, R435) -/

theorem exec_attestTimeout (port : Fin 10) (s : State) :
    exec (.attestTimeout port) s = .next (attestTimeout port.val s) := rfl

theorem exec_keyTimeout (port : Fin 10) (dir : Dir) (s : State) :
    exec (.keyTimeout port dir) s = .next (keyTimeout port.val (Dir.isRx dir) s) := rfl

theorem exec_trainingTimeout (port : Fin 10) (s : State) :
    exec (.trainingTimeout port) s = .next (trainingTimeout port.val s) := rfl

theorem attestTimeout_eq (p : Nat) (s : State) : attestTimeout p s =
    if (portOf s p).st = 4 ∧ max 1 s.lsu.attTimeout.toNat ≤ stateAge s p then trainTimeout p cAttestFailed s else s := by
  simp only [attestTimeout, Bool.and_eq_true, decide_eq_true_eq, ge_iff_le]

theorem trainingTimeout_eq (p : Nat) (s : State) : trainingTimeout p s =
    if ((portOf s p).st = 1 ∧ 2500 ≤ stateAge s p) ∨ ((portOf s p).st = 2 ∧ 250 ≤ stateAge s p) then
      trainTimeout p cLinkTrainFailed s
    else s := by
  simp only [trainingTimeout, Bool.or_eq_true, Bool.and_eq_true, decide_eq_true_eq, ge_iff_le]

/-- A request of a direction has waited for KEY_TIMEOUT (14 R428). -/
def keyLate (p : Nat) (rx : Bool) (s : State) : Bool :=
  (keyReqOf (portOf s p) rx).any fun t0 => decide (max 1 s.lsu.keyTimeout.toNat ≤ s.tick - t0)

theorem keyLate_iff {p : Nat} {rx : Bool} {s : State} : keyLate p rx s = true ↔
    ∃ t0, keyReqOf (portOf s p) rx = some t0 ∧ max 1 s.lsu.keyTimeout.toNat ≤ s.tick - t0 := by
  simp only [keyLate, Option.any_eq_true, decide_eq_true_eq]

theorem keyTimeout_eq (p : Nat) (rx : Bool) (s : State) : keyTimeout p rx s =
    if (portOf s p).st = 5 ∧ (keyLate p rx s = true ∨ max 1 s.lsu.keyTimeout.toNat ≤ stateAge s p) then
      raiseSecurity cKeyTimeout (trainTimeout p cKeyTimeout (mPort p (fun q => { q with failCode := cKeyTimeout }) s))
    else if (portOf s p).st = 6 ∧ keyLate p rx s = true then keyMissing p s
    else s := by
  cases asked : keyReqOf (portOf s p) rx <;>
    simp only [keyTimeout, keyLate, asked, Option.any_none, Option.any_some, Bool.and_eq_true, Bool.or_eq_true,
      decide_eq_true_eq, ge_iff_le]

section
variable {p : Nat} {s s1 : State} (code : W16)
  (counted : s1 = mPort p (fun q => { q with attempts := BitVec.ofNat 2 ((portOf s p).attempts.toNat + 1) }) s)
include counted

theorem trainTimeout_third (third : 2 ≤ (portOf s p).attempts.toNat) : trainTimeout p code s = failPort p code s1 := by
  rw [trainTimeout, if_pos (Nat.succ_le_succ third), counted]

theorem trainTimeout_again (again : (portOf s p).attempts.toNat < 2) : trainTimeout p code s =
    toPhyWait p (mPort p (fun q => { q.cleared with lost := q.lost, queues := q.queues }) (freeKeys p s1)) := by
  rw [trainTimeout, if_neg (Nat.not_le.2 (Nat.succ_lt_succ again)), counted]
end

/-- Settles O25: each timer by the port's state and the time, and what a failed attempt does by its number. -/
theorem portTimersExpire : Obligations.PortTimersExpire := by
  refine ⟨fun port s attesting due => ?_, fun port s early => ?_, fun port dir s keys due => ?_,
    fun port dir s t0 up asked late => ?_, fun port dir s young recent => ?_, fun port s waiting due => ?_,
    fun port s exchanging due => ?_, fun port s early => ?_,
    fun port code s s1 counted => ⟨trainTimeout_third code counted, trainTimeout_again code counted⟩⟩
  · rw [exec_attestTimeout, attestTimeout_eq, if_pos ⟨attesting, due⟩]
  · rw [exec_attestTimeout, attestTimeout_eq, if_neg]
    rintro ⟨attesting, due⟩
    exact early.elim (Nat.not_lt.2 due) (· attesting)
  · rw [exec_keyTimeout, keyTimeout_eq, if_pos ⟨keys, due.symm.imp_left keyLate_iff.2⟩]
  · have notKeys : (portOf s port.val).st ≠ 5 := by rw [up]; decide
    rw [exec_keyTimeout, keyTimeout_eq, if_neg (notKeys ·.1), if_pos ⟨up, keyLate_iff.2 ⟨t0, asked, late⟩⟩]
  · have notLate : ¬keyLate port.val (Dir.isRx dir) s = true := by
      rw [keyLate_iff]
      rintro ⟨t0, asked, late⟩
      exact Nat.not_lt.2 late (recent t0 asked)
    rw [exec_keyTimeout, keyTimeout_eq, if_neg fun due => due.2.elim notLate (Nat.not_le.2 young),
      if_neg (notLate ·.2)]
  · rw [exec_trainingTimeout, trainingTimeout_eq, if_pos (.inl ⟨waiting, due⟩)]
  · rw [exec_trainingTimeout, trainingTimeout_eq, if_pos (.inr ⟨exchanging, due⟩)]
  · rw [exec_trainingTimeout, trainingTimeout_eq, if_neg]
    rintro (⟨-, due⟩ | ⟨-, due⟩) <;> omega

/-! ### Training (04 R126, R127, R137; 03 R104; 02 R54) -/

theorem exec_trainingFlit (port : Fin 10) (flit : PhyFlit) (s : State) :
    exec (.trainingFlit port flit) s = .next (trainingFlit port.val flit.bits flit.fecCorr.toNat s) := rfl

theorem exec_trainingFlitSend (port : Fin 10) (s : State) :
    exec (.trainingFlitSend port) s = .next (trainingFlitSend port.val s) := rfl

theorem exec_portRetrain (port : Fin 10) (v : W32) (s : State) : exec (.portRetrain port v) s =
    .next (if fabricOn s then portRetrain port.val v s else holdAccess 5 (.portRetrain port v) s) := rfl

theorem exec_portMapWrite (port : Fin 10) (v : W32) (s : State) : exec (.portMapWrite port v) s =
    .next (if fabricOn s then portMapWrite port.val v s else holdAccess 5 (.portMapWrite port v) s) := rfl

/-- What a training flit of the partner leaves of it in the port. -/
def partnerRecorded (b : List Byte) (q : Port) : Port :=
  { q with
    seenRx := true, rxSeen := q.rxSeen || bit (leAt b 6 1) 0, peerVersion := BitVec.ofNat 4 (leAt b 5 1),
    peerCaps := BitVec.ofNat 4 (leAt b 8 4), partner := some (Coord.ofWord (leAt b 12 4)) }

/-- A flit is recorded when it is a training flit that meets its port in EXCHANGE. -/
theorem trainingFlit_eq {p fec : Nat} {flit : BitVec 1024} {s0 s : State} {b : List Byte}
    (uninjected : injectedBad s0 p = false) (counted : s = fecCounted p fec s0) (bytes : b = leBytes 128 flit.toNat) :
    trainingFlit p flit fec s0 =
      if (portOf s p).st = 2 ∧ leAt b 0 1 % 4 = 0 ∧ leAt b 4 1 = 2 then exchangeDone p (mPort p (partnerRecorded b) s)
      else s := by
  simp only [trainingFlit, meetFlit_corrected uninjected, ← counted, ← bytes, Bool.false_or, Bool.or_eq_true, bne_iff_ne,
    ne_eq, ← Classical.not_and_iff_not_or_not, ite_not, and_assoc]
  rfl

theorem trainingFlitSend_exchanging {p : Nat} {s : State} (exchanging : (portOf s p).st = 2) : trainingFlitSend p s =
    exchangeDone p (mPort p (fun q =>
      { q with wire := q.wire ++ [trainingBytes s p], txSeen := q.txSeen || q.seenRx }) s) :=
  if_neg (by rw [exchanging]; decide)

theorem trainingFlitSend_other {p : Nat} {s : State} (other : (portOf s p).st ≠ 2) : trainingFlitSend p s = s :=
  if_pos (bne_iff_ne.2 other)

theorem exchangeDone_exchanging {p : Nat} {s : State} (exchanging : (portOf s p).st = 2) :
    exchangeDone p s = if (portOf s p).rxSeen && (portOf s p).txSeen then mapCheck p s else s := by
  rw [exchangeDone, exchanging]
  rfl

theorem portRetrain_one {v : W32} (p : Nat) (s : State) (one : v.getLsbD 0 = true) : portRetrain p v s =
    linkDown p none false false (mPort p (fun q => { q with attempts := 0 }) s) := if_pos one

theorem portRetrain_zero {v : W32} (p : Nat) (s : State) (zero : v.getLsbD 0 = false) : portRetrain p v s = s :=
  if_neg (Bool.eq_false_iff.1 zero)

theorem portMapWrite_refused {p : Nat} {s : State} (v : W32) (injects : s.rtr.holdDone = false) :
    portMapWrite p v s = pageErr pgRtr cConfigInvalid s := if_pos (by rw [injects]; rfl)

section
variable {p : Nat} {v : W32} {s s1 : State} (held : s.rtr.holdDone = true)
  (written : s1 = mRtr (fun r => { r with portMap := Sparse.set 0 r.portMap p (v.extractLsb' 0 20) }) s)
include held written

theorem portMapWrite_disable (off : v.getLsbD 19 = false) : portMapWrite p v s =
    if (portOf s p).st = 0 then s1 else linkDown p none false false s1 := by
  simp only [portMapWrite, held, off, ← written, Bool.not_true, Bool.not_false, Bool.false_eq_true, if_false, if_true]

theorem portMapWrite_enable (on : v.getLsbD 19 = true) : portMapWrite p v s =
    if (portOf s p).st = 0 ∨ (portOf s p).st = 7 then toDown p (mPort p (fun q => { q with attempts := 0 }) s1) else s1 := by
  simp only [portMapWrite, held, on, ← written, Bool.not_true, Bool.false_eq_true, if_false, Bool.or_eq_true,
    decide_eq_true_eq]
end

/-- Settles O37: the flits of EXCHANGE both ways and its end, then the two registers, with the Fabric domain running and
gated. -/
theorem portsTrain : Obligations.PortsTrain := by
  refine ⟨fun port flit fec s0 s b uninjected counted bytes => ⟨fun exchanging control code => ?_, fun other => ?_⟩,
    fun port s exchanging => ?_, fun port s other => ?_, fun p s exchanging => exchangeDone_exchanging exchanging,
    fun port v s running => ⟨fun one => ?_, fun zero => ?_⟩,
    fun port v s s1 running written => ⟨fun injects => ?_, fun held off down => ?_, fun held off notDown => ?_,
      fun held on starts => ?_, fun held on notDown notFailed => ?_⟩,
    fun port v s gated => ⟨?_, ?_⟩⟩
  · rw [exec_trainingFlit, trainingFlit_eq uninjected counted bytes, if_pos ⟨exchanging, control, code⟩]
    rfl
  · rw [exec_trainingFlit, trainingFlit_eq uninjected counted bytes, if_neg]
    rwa [Classical.not_and_iff_not_or_not, Classical.not_and_iff_not_or_not]
  · rw [exec_trainingFlitSend, trainingFlitSend_exchanging exchanging]
  · rw [exec_trainingFlitSend, trainingFlitSend_other other]
  · rw [exec_portRetrain, if_pos running, portRetrain_one _ _ one]
  · rw [exec_portRetrain, if_pos running, portRetrain_zero _ _ zero]
  · rw [exec_portMapWrite, if_pos running, portMapWrite_refused v injects]
  · rw [exec_portMapWrite, if_pos running, portMapWrite_disable held written off, if_pos down]
  · rw [exec_portMapWrite, if_pos running, portMapWrite_disable held written off, if_neg notDown]
  · rw [exec_portMapWrite, if_pos running, portMapWrite_enable held written on, if_pos starts]
  · rw [exec_portMapWrite, if_pos running, portMapWrite_enable held written on, if_neg (not_or.2 ⟨notDown, notFailed⟩)]
  · rw [exec_portRetrain, gated, if_neg Bool.false_ne_true]
  · rw [exec_portMapWrite, gated, if_neg Bool.false_ne_true]

end Sys2Proof.Proofs

namespace Sys2Proof.Proofs

open Sys2Proof.Machine Sys2Proof.Safety Sys2Proof.Laws

/-! ### Tags that retire (05 R165, R167) -/

theorem exec_chunkRetire (tag : Fin 65536) (s : State) :
    exec (.chunkRetire tag) s = .next (if ctlOn s then chunkRetire tag.val s else s) := rfl

/-- A tag freed: it leaves the list of tags in use, and no stall for a tag stands any more. -/
def tagFreed (t : Nat) (s : State) : State :=
  { s with
    trk := { s.trk with tags := assocErase s.trk.tags t, stallStart := none, reported := false },
    que := { s.que with rings := Sparse.mapAll {} s.que.rings fun _ r => { r with tagStall := false } } }

section
variable {t : Nat} {s : State} {g : Tag} (inUse : assoc? s.trk.tags t = some g)
include inUse

theorem chunkRetire_early (early : g.retired = false) : chunkRetire t s = s := by
  simp only [chunkRetire, inUse, early, Bool.not_false, if_true]

/-- The session that held the tag is looked up by its GSID, which the freeing of a tag does not change. -/
theorem chunkRetire_met (met : g.retired = true) : chunkRetire t s =
    (slotOfGsid s g.gsid).elim (tagFreed t s) fun i => tryComplete i (progress i (tagFreed t s)) := by
  simp only [chunkRetire, inUse, met, Bool.not_true, Bool.false_eq_true, if_false, mTrk, mQue, slotOfGsid, tagFreed]
  cases Option.map Prod.fst (s.ses.slots.find? _) <;> rfl
end

/-- Settles O15: by whether the chunk of the tag has met its destination, and whether a session holds its GSID. -/
theorem tagsRetire : Obligations.TagsRetire := by
  intro tag s g on inUse
  rw [exec_chunkRetire, if_pos on]
  refine ⟨fun early => ?_, fun met => ⟨tagFreed tag.val s, rfl, fun gone => ?_, fun i named => ?_⟩⟩
  · rw [chunkRetire_early inUse early]
  · rw [chunkRetire_met inUse met, gone, Option.elim_none]
  · rw [chunkRetire_met inUse met, named, Option.elim_some]

/-! ### Template entries (05 R151, R178; 02 R54) -/

theorem exec_tplInstall (s : State) : exec .tplInstall s =
    .next (if ctlOn s then tplInstall s else holdAccess 5 .tplInstall s) := rfl

theorem exec_tplRead (s : State) : exec .tplRead s =
    .next (if ctlOn s then tplRead s else holdAccess 5 .tplRead s) := rfl

theorem exec_tplInvalidate (s : State) : exec .tplInvalidate s =
    .next (if ctlOn s then tplInvalidate s else holdAccess 5 .tplInvalidate s) := rfl

theorem tplInstall_held {s : State} (held : 0 < tplOpen s s.tpl.index.toNat) :
    tplInstall s = pageErr pgTpl cTemplateBusy s := if_pos held

theorem tplInstall_free {s : State} (free : tplOpen s s.tpl.index.toNat = 0) : tplInstall s =
    if tplBad s (tplStaged s) then pageErr pgTpl cConfigInvalid s
    else { s with tpl :=
      { s.tpl with entries := Sparse.set 0 s.tpl.entries s.tpl.index.toNat (tplStaged s) } } :=
  if_neg (Nat.not_lt.2 (Nat.le_of_eq free))

theorem tplInvalidate_held {s : State} (held : 0 < tplOpen s s.tpl.index.toNat) :
    tplInvalidate s = pageErr pgTpl cTemplateBusy s := if_pos held

theorem tplInvalidate_free {s : State} (free : tplOpen s s.tpl.index.toNat = 0) : tplInvalidate s =
    { s with tpl := { s.tpl with
      entries := Sparse.modify 0 s.tpl.entries s.tpl.index.toNat fun e => e &&& ~~~(1#512 <<< 63) } } :=
  if_neg (Nat.not_lt.2 (Nat.le_of_eq free))

/-- The first n elements set one after another read as they were set, and the others as before. -/
theorem sparse_get_setRange {α : Type} [DecidableEq α] (d : α) (m : Sparse α) (w : Nat → α) (n k : Nat) :
    Sparse.get d ((List.range n).foldl (fun m k => Sparse.set d m k (w k)) m) k =
      if k < n then w k else Sparse.get d m k := by
  induction n with
  | zero => rfl
  | succ n ih =>
    rw [List.range_succ, List.foldl_append, List.foldl_cons, List.foldl_nil, sparse_get_set, ih]
    obtain below | rfl | above := Nat.lt_trichotomy k n
    · rw [if_neg (Nat.ne_of_lt below), if_pos below, if_pos (Nat.lt_succ_of_lt below)]
    · rw [if_pos rfl, if_pos (Nat.lt_succ_self k)]
    · rw [if_neg (Nat.ne_of_gt above), if_neg (Nat.lt_asymm above), if_neg (Nat.not_lt.2 above)]

theorem tplRead_data {k : Nat} (s : State) (h : k < 16) : Sparse.get 0 (tplRead s).tpl.data k =
    BitVec.ofNat 32 (bits (tplOf s s.tpl.index.toNat).toNat (32 * k + 31) (32 * k)) :=
  (sparse_get_setRange (0 : W32) []
    (fun k => BitVec.ofNat 32 (bits (tplOf s s.tpl.index.toNat).toNat (32 * k + 31) (32 * k))) 16 k).trans (if_pos h)

/-- Settles O41: an install and an invalidation by whether a session holds the entry, the read by its words, each with the
Control domain running and gated. -/
theorem templatesAreWritten : Obligations.TemplatesAreWritten := by
  refine ⟨fun s on free => ⟨fun good => ?_, fun bad => ?_, ?_⟩, fun s on held => ⟨?_, ?_⟩,
    fun s on => ⟨tplRead s, ?_, rfl, rfl, fun k => tplRead_data s, rfl, rfl⟩, fun s gated => ⟨?_, ?_, ?_⟩⟩
  · rw [exec_tplInstall, if_pos on, tplInstall_free free, good, if_neg Bool.false_ne_true]
  · rw [exec_tplInstall, if_pos on, tplInstall_free free, if_pos bad]
  · rw [exec_tplInvalidate, if_pos on, tplInvalidate_free free]
  · rw [exec_tplInstall, if_pos on, tplInstall_held held]
  · rw [exec_tplInvalidate, if_pos on, tplInvalidate_held held]
  · rw [exec_tplRead, if_pos on]
  · rw [exec_tplInstall, gated, if_neg Bool.false_ne_true]
  · rw [exec_tplRead, gated, if_neg Bool.false_ne_true]
  · rw [exec_tplInvalidate, gated, if_neg Bool.false_ne_true]

/-! ### The issue stage (05 R166, R167; 12 R371, R372) -/

theorem exec_chunkIssue (s : State) : exec .chunkIssue s = .next (if ctlOn s then chunkIssue s else s) := rfl

theorem exec_tagExhausted (s : State) : exec .tagExhausted s = .next (if ctlOn s then tagExhausted s else s) := rfl

/-- Where the clocks are gated, issue is stopped. -/
theorem ctlOn_of_issuing {s : State} (issuing : issueStopped s = false) : ctlOn s = true := by
  simp only [issueStopped, Bool.or_eq_false_iff, Bool.not_eq_false'] at issuing
  obtain ⟨⟨⟨_, hawake⟩, _⟩, _⟩ := issuing
  exact ctlOn_of_awake hawake

theorem chunkIssue_stopped {s : State} (stopped : issueStopped s = true) : chunkIssue s = s := if_pos stopped

/-- A chunk's turn: it takes the lowest free tag, or stalls. -/
theorem chunkIssue_chunk {s : State} {i seq : Nat} {x : Session} {act : Nat → State → State}
    (issuing : issueStopped s = false) (turn : nextIssue s = some (i, x, .chunk seq act))
    (uninjected : injFor s 5 x.gsid = false) : chunkIssue s =
      (freeTag s).elim (tagStall x s) fun k => tryComplete i (settleLocals i (act k (decision 2 i x.gsid k 0 seq
        (mTrk (fun q => { q with lastServed := some i }) s)))) := by
  simp only [chunkIssue, issuing, turn, uninjected, Bool.false_eq_true, if_false]
  cases freeTag s <;> rfl

theorem tagExhausted_due {s : State} {t0 : Nat} (stalled : s.trk.stallStart = some t0) (unreported : s.trk.reported = false)
    (live : s.rru.run = false) (due : s.trk.stallWarn.toNat ≤ s.tick - t0) : tagExhausted s = reportStall s := by
  simp only [tagExhausted, stalled, unreported, live, decide_eq_false (Nat.not_lt.2 due), Bool.or_self, Bool.false_eq_true,
    if_false]

/-- Settles O14: a chunk's turn with a tag free and with none, issue stopped, and the report of a stall. -/
theorem chunksAreIssued : Obligations.ChunksAreIssued := by
  refine ⟨fun s i seq k x act issuing turn uninjected free => ?_, fun s i seq x act issuing turn uninjected none => ?_,
    fun s stopped => ?_, fun s t0 on stalled unreported live due => ?_⟩
  · rw [exec_chunkIssue, if_pos (ctlOn_of_issuing issuing), chunkIssue_chunk issuing turn uninjected, free, Option.elim_some]
  · rw [exec_chunkIssue, if_pos (ctlOn_of_issuing issuing), chunkIssue_chunk issuing turn uninjected, none, Option.elim_none]
  · rw [exec_chunkIssue, chunkIssue_stopped stopped, ite_self]
  · rw [exec_tagExhausted, if_pos on, tagExhausted_due stalled unreported live due, reportStall]

/-! ### Packets at their chip (05 R141; 09 R294; 10 R322, R324) -/

theorem exec_chunkReceive (s : State) : exec .chunkReceive s = .next (if ctlOn s then chunkReceive s else s) := rfl

theorem exec_expertPacket (s : State) : exec .expertPacket s = .next (if ctlOn s then expertPacket s else s) := rfl

theorem exec_mirrorPacket (s : State) : exec .mirrorPacket s = .next (if ctlOn s then mirrorPacket s else s) := rfl

theorem exec_clearToSend (s : State) : exec .clearToSend s = .next (if ctlOn s then clearToSend s else s) := rfl

theorem takeInbox_found {ok : Packet → Bool} {s : State} {k : Packet} (found : s.rtr.inbox.find? ok = some k) :
    takeInbox ok s = some (k, { s with rtr := { s.rtr with inbox := s.rtr.inbox.erase k } }) := by
  simp only [takeInbox, found, mRtr]

section
variable {s s1 : State} {k : Packet}

theorem chunkReceive_taken (taken : takeInbox isChunkPkt s = some (k, s1)) : chunkReceive s = placeChunk k s1 := by
  simp only [chunkReceive, taken]

theorem expertPacket_taken (taken : takeInbox isExpertPkt s = some (k, s1)) :
    expertPacket s = if (expertHdr k).kind ≤ 2 then placeExpert k s1 else s1 := by
  simp only [expertPacket, taken]

theorem mirrorPacket_taken (ready : empReady s = true) (taken : takeInbox isMirrorPkt s = some (k, s1)) :
    mirrorPacket s = if forRestore s1 k then restorePacket k s1 else buddyPacket k s1 := by
  simp only [mirrorPacket, ready, taken, Bool.not_true, Bool.false_eq_true, if_false]

variable {m : Band} (taken : takeBand 0x07 s = some (k, m, s1))
include taken

theorem clearToSend_unnamed (unnamed : slotOfGsid s1 k.session = none) : clearToSend s = s1 := by
  simp only [clearToSend, taken, unnamed]
  split
  next hit => cases hit
  next => rfl

/-- The message against the session that it names. -/
theorem clearToSend_named {count fmt i : Nat} {x : Session} (msg : m.msg = .clearToSend count fmt)
    (named : slotOfGsid s1 k.session = some i) (session : slot? s1 i = some x) : clearToSend s =
      if x.d.opc ≠ 0x04 then s1
      else if x.d.count ≠ count ∨ x.d.fmtOut ≠ fmt then endSpx i cFieldInvalid s1
      else progress i (mSlot i (fun x => { x with cts := true }) s1) := by
  simp only [clearToSend, taken, msg, named, session, Bool.or_eq_true, bne_iff_ne]
end

/-- Settles O39: the packet that each command takes, and a CLEAR_TO_SEND by the session that it names. -/
theorem packetsReachTheirBlocks : Obligations.PacketsReachTheirBlocks := by
  refine ⟨fun s s1 k on taken => ?_, fun s s1 k on taken => ?_, fun s s1 k on ready taken => ?_,
    fun s s1 k m count fmt i x on taken msg named session => ?_, fun s s1 k m on taken unnamed => ?_,
    fun ok s k => takeInbox_found⟩
  · rw [exec_chunkReceive, if_pos on, chunkReceive_taken taken]
  · rw [exec_expertPacket, if_pos on, expertPacket_taken taken]
  · rw [exec_mirrorPacket, if_pos on, mirrorPacket_taken ready taken]
  · rw [exec_clearToSend, if_pos on, clearToSend_named taken msg named session]
    refine ⟨fun send sameCount sameFmt => ?_, fun send other => ?_, fun other => ?_⟩
    · rw [if_neg (not_not_intro send), if_neg (not_or.2 ⟨not_not_intro sameCount, not_not_intro sameFmt⟩)]
    · rw [if_neg (not_not_intro send), if_pos other]
    · rw [if_pos other]
  · rw [exec_clearToSend, if_pos on, clearToSend_unnamed taken unnamed]

/-! ### Doorbells (05 R153, R156, R175; 03 R95; 02 R54, R70; 15 R456) -/

theorem exec_doorbell (who : Requester) (ctx : Fin 64) (ring : Fin 256) (count : W32) (s : State) :
    exec (.doorbell who ctx ring count) s =
      .next (if ctlOn s then doorbell who ctx.val ring.val count (bellWake who ctx.val ring.val count s)
        else holdAccess (if bellAccepted who ctx.val ring.val count s then 3 else 5) (.doorbell who ctx ring count) s) := rfl

@[simp] theorem wakeBy_que (k : Nat) (s : State) : (wakeBy k s).que = s.que := wakeBy_unchanged .que (by decide) k s

theorem bellOk_iff {g : Ring} {p : W32} :
    bellOk g p = true ↔ serialGe p g.producer = true ∧ (p - g.done).toNat ≤ 2 ^ g.sizeLog2.toNat := by
  rw [bellOk, Bool.and_eq_true, decide_eq_true_eq]

theorem bellOk_false {g : Ring} {p : W32}
    (h : serialGe p g.producer = false ∨ 2 ^ g.sizeLog2.toNat < (p - g.done).toNat) : bellOk g p = false :=
  Bool.eq_false_iff.2 fun ok =>
    h.elim (fun before => Bool.false_ne_true (before.symm.trans (bellOk_iff.1 ok).1))
      fun beyond => Nat.not_le.2 beyond (bellOk_iff.1 ok).2

section
variable {who : Requester} {ctx r : Nat} {p : W32} {s : State} {g : Ring} (ring : g = ringOf s r)
include ring

theorem bellAccepted_iff : bellAccepted who ctx r p s = true ↔
    mayReach who ctx g.ctx.toNat = true ∧ g.ctx.toNat ∉ s.rst.ctx ∧ s.rtr.isSpare = false ∧ g.enable = true ∧
      bellOk g p = true := by
  simp only [bellAccepted, ← ring, Bool.and_eq_true, Bool.not_eq_true', List.contains_eq_mem, decide_eq_false_iff_not,
    and_assoc]

theorem doorbell_denied (foreign : mayReach who ctx g.ctx.toNat = false) :
    doorbell who ctx r p s = denyWindow pgQue ctx s := by
  simp only [doorbell, ← ring, foreign, Bool.not_false, if_true]

variable (reach : mayReach who ctx g.ctx.toNat = true)
include reach

theorem doorbell_inReset (inReset : g.ctx.toNat ∈ s.rst.ctx) : doorbell who ctx r p s = s := by
  simp only [doorbell, ← ring, reach, List.contains_eq_mem, inReset, decide_true, Bool.not_true, Bool.false_eq_true, if_false,
    if_true]

/-- A doorbell that is neither denied nor discarded. -/
theorem doorbell_heard (live : g.ctx.toNat ∉ s.rst.ctx) : doorbell who ctx r p s =
    if s.rtr.isSpare then ringCode r cSpareInactive s
    else if !g.enable then ringCode r cQueueDisabled s
    else if bellOk g p then mRing r (fun g => { g with producer := p }) s
    else raiseError cDoorbellInvalid (ringCode r cDoorbellInvalid s) := by
  simp only [doorbell, ← ring, reach, List.contains_eq_mem, live, decide_false, Bool.not_true, Bool.false_eq_true, if_false]
end

section
variable {who : Requester} {ctx r : Nat} {p : W32} {s : State}

theorem bellWake_refused (refused : ¬bellAccepted who ctx r p s = true) : bellWake who ctx r p s = s :=
  if_neg fun h => refused (Bool.and_eq_true_iff.1 h).2

theorem bellWake_accepted (accepted : bellAccepted who ctx r p s = true) :
    bellWake who ctx r p s = if s.pwr.entry.isSome then wakeBy 3 s else s := by
  rw [bellWake, accepted, Bool.and_true]

theorem doorbell_accepted (accepted : bellAccepted who ctx r p s = true) :
    doorbell who ctx r p s = mRing r (fun g => { g with producer := p }) s := by
  obtain ⟨reach, live, active, enabled, ok⟩ := (bellAccepted_iff rfl).1 accepted
  rw [doorbell_heard rfl reach live, active, enabled, ok]
  rfl
end

/-- A wake source changes nothing by which a doorbell is accepted. -/
theorem bellAccepted_wakeBy (who : Requester) (ctx r : Nat) (p : W32) (k : Nat) (s : State) :
    bellAccepted who ctx r p (wakeBy k s) = bellAccepted who ctx r p s := by
  simp only [bellAccepted, ringOf, wakeBy_que, wakeBy_rst, wakeBy_rtr]

section
variable {who : Requester} {ctx : Fin 64} {ring : Fin 256} {count : W32} {s : State} (on : ctlOn s = true)
include on

theorem exec_doorbell_refused (refused : ¬bellAccepted who ctx.val ring.val count s = true) :
    exec (.doorbell who ctx ring count) s = .next (doorbell who ctx.val ring.val count s) := by
  rw [exec_doorbell, if_pos on, bellWake_refused refused]

theorem exec_doorbell_accepted (accepted : bellAccepted who ctx.val ring.val count s = true) :
    exec (.doorbell who ctx ring count) s = .next (mRing ring.val (fun g => { g with producer := count })
      (if s.pwr.entry.isSome then wakeBy 3 s else s)) := by
  have still : bellAccepted who ctx.val ring.val count (if s.pwr.entry.isSome then wakeBy 3 s else s) = true := by
    split
    · rwa [bellAccepted_wakeBy]
    · exact accepted
  rw [exec_doorbell, if_pos on, bellWake_accepted accepted, doorbell_accepted still]
end

/-- Settles O40: a doorbell by the first of its checks that fails, one that passes them all, and one to gated clocks. -/
theorem doorbellsAreTaken : Obligations.DoorbellsAreTaken := by
  refine ⟨fun who ctx r p s g on ring => ⟨fun foreign => ?_, fun reach inReset => ?_, fun reach live => ⟨fun spare => ?_,
    fun active disabled => ?_, fun active enabled => ⟨fun after fits => ?_, fun out => ?_⟩⟩⟩, fun who ctx r p s gated => ?_⟩
  · rw [exec_doorbell_refused on (by simp [bellAccepted_iff ring, foreign]), doorbell_denied ring foreign]
  · rw [exec_doorbell_refused on (by simp [bellAccepted_iff ring, inReset]), doorbell_inReset ring reach inReset]
  · rw [exec_doorbell_refused on (by simp [bellAccepted_iff ring, spare]), doorbell_heard ring reach live, if_pos spare]
  · rw [exec_doorbell_refused on (by simp [bellAccepted_iff ring, disabled]), doorbell_heard ring reach live, active, disabled]
    rfl
  · rw [exec_doorbell_accepted on ((bellAccepted_iff ring).2 ⟨reach, live, active, enabled, bellOk_iff.2 ⟨after, fits⟩⟩)]
  · rw [exec_doorbell_refused on (by simp [bellAccepted_iff ring, bellOk_false out]), doorbell_heard ring reach live, active,
      enabled, bellOk_false out]
    rfl
  · rw [exec_doorbell, gated, if_neg Bool.false_ne_true]

/-! ### Regions, rings and deposit entries (05 R160, R174, R175; 07 R241; 02 R54) -/

section
variable (v : W32) (s : State)

theorem exec_regionEntryWrite : exec (.regionEntryWrite v) s =
    .next (if ctlOn s then regionEntryWrite v s else holdAccess 5 (.regionEntryWrite v) s) := rfl

theorem exec_ringEnable : exec (.ringEnable v) s =
    .next (if ctlOn s then ringEnable v s else holdAccess 5 (.ringEnable v) s) := rfl

theorem exec_ringDisable : exec (.ringDisable v) s =
    .next (if ctlOn s then ringDisable v s else holdAccess 5 (.ringDisable v) s) := rfl

theorem exec_depositEntryWrite (w : W64) : exec (.depositEntryWrite w) s =
    .next (if ctlOn s then depositEntryWrite w s else holdAccess 5 (.depositEntryWrite w) s) := rfl
end

section
variable {v : W32} {s : State} {reg ctx : Nat} (selected : reg = bits s.ses.regIndex.toNat 7 0)
  (owner : ctx = bits s.ses.regIndex.toNat 21 16)
include selected owner

theorem regionEntryWrite_used (used : 0 < regionUsers s ctx reg) :
    regionEntryWrite v s = pageErr pgSes cRegionBusy s := by
  subst selected owner
  exact if_pos used

theorem regionEntryWrite_unused (unused : regionUsers s ctx reg = 0) : regionEntryWrite v s =
    if regionBad s (v.getLsbD 0) (bits v.toNat 5 4) s.ses.regBase.toNat s.ses.regLen.toNat then
      pageErr pgSes cConfigInvalid s
    else { s with ses := { s.ses with regions := (Sparse.set {} s.ses.regions
      (ctx * 256 + reg)
      { base := s.ses.regBase, len := s.ses.regLen, valid := v.getLsbD 0, rd := v.getLsbD 1, wr := v.getLsbD 2,
        kind := BitVec.ofNat 2 (bits v.toNat 5 4) }) } } := by
  subst selected owner
  exact if_neg (Nat.not_lt.2 (Nat.le_of_eq unused))
end

theorem ringEnable_on {v : W32} (s : State) (on : v.getLsbD 0 = true) : ringEnable v s = ringCfgWrite v s := if_pos on

theorem ringDisable_off {v : W32} (s : State) (off : v.getLsbD 0 = false) : ringDisable v s = ringCfgWrite v s :=
  if_neg (Bool.eq_false_iff.1 off)

/-- What a write of RING_CFG makes of an idle disabled ring: it takes its size and context, and with ENABLE its counts are 0. -/
def ringConfigured (v : W32) (g : Ring) : Ring :=
  let g1 : Ring :=
    { g with
      sizeLog2 := BitVec.ofNat 5 (bits v.toNat 5 1), ctx := BitVec.ofNat 6 (bits v.toNat 11 6), enable := v.getLsbD 0 }
  if v.getLsbD 0 then { g1 with producer := 0, head := 0, done := 0, written := [] } else g1

theorem ringConfigured_on {v : W32} (on : v.getLsbD 0 = true) : ringConfigured v = fun g =>
    { g with
      sizeLog2 := BitVec.ofNat 5 (bits v.toNat 5 1), ctx := BitVec.ofNat 6 (bits v.toNat 11 6), enable := true,
      producer := 0, head := 0, done := 0, written := [] } := by
  funext g
  rw [ringConfigured, on]
  rfl

theorem ringConfigured_off {v : W32} (off : v.getLsbD 0 = false) : ringConfigured v = fun g =>
    { g with
      sizeLog2 := BitVec.ofNat 5 (bits v.toNat 5 1), ctx := BitVec.ofNat 6 (bits v.toNat 11 6), enable := false } := by
  funext g
  rw [ringConfigured, off]
  rfl

section
variable {v : W32} {s : State} {g : Ring} (ring : g = ringOf s s.que.ringIndex.toNat)
include ring

theorem ringCfgWrite_turnedOff (enabled : g.enable = true) (off : v.getLsbD 0 = false) :
    ringCfgWrite v s = ringOff s.que.ringIndex.toNat s := by
  simp only [ringCfgWrite, ← ring, enabled, off, Bool.not_false, Bool.and_self, if_true]

/-- A ring that is not idle is refused, unless the write turns it off. -/
theorem ringCfgWrite_busy (busy : g.idle = false) (kept : (g.enable && !v.getLsbD 0) = false) :
    ringCfgWrite v s = pageErr pgQue cRegionBusy s := by
  simp only [ringCfgWrite, ← ring, busy, kept, Bool.not_false, Bool.false_eq_true, if_false, if_true]

theorem ringCfgWrite_alreadyOn (idle : g.idle = true) (enabled : g.enable = true) (on : v.getLsbD 0 = true) :
    ringCfgWrite v s = s := by
  simp only [ringCfgWrite, ← ring, idle, enabled, on, Bool.not_true, Bool.and_false, Bool.false_eq_true, if_false, if_true]

theorem ringCfgWrite_idle (idle : g.idle = true) (disabled : g.enable = false) : ringCfgWrite v s =
    if bits v.toNat 5 1 < 4 ∨ 16 < bits v.toNat 5 1 then pageErr pgQue cConfigInvalid s
    else mRing s.que.ringIndex.toNat (ringConfigured v) s := by
  subst ring
  simp only [ringCfgWrite, idle, disabled, Bool.not_true, Bool.false_and, Bool.false_eq_true, if_false, Bool.or_eq_true,
    decide_eq_true_eq, gt_iff_lt]
  rfl

theorem ringCfgWrite_sized (idle : g.idle = true) (disabled : g.enable = false) (low : 4 ≤ bits v.toNat 5 1)
    (high : bits v.toNat 5 1 ≤ 16) : ringCfgWrite v s = mRing s.que.ringIndex.toNat (ringConfigured v) s := by
  rw [ringCfgWrite_idle ring idle disabled, if_neg (not_or.2 ⟨Nat.not_lt.2 low, Nat.not_lt.2 high⟩)]
end

theorem depositEntryWrite_eq (v : W64) (s : State) : depositEntryWrite v s =
    if cfgNamed s [0x02] s.ses.depIndex.toNat then pageErr pgSes cRegionBusy s
    else { s with ses := { s.ses with dep := Sparse.set 0 s.ses.dep s.ses.depIndex.toNat (v &&& 0x80FFFFFFFFFFFF01) } } := rfl

/-- Settles O42: a region entry by its users and its values, a ring by its state and the write's ENABLE, a deposit entry by
whether it is named, and each with the clocks gated. -/
theorem ringsAndRegionsAreConfigured : Obligations.RingsAndRegionsAreConfigured := by
  refine ⟨fun v s reg ctx on selected owner => ⟨fun unused good => ?_, fun unused bad => ?_, fun used => ?_⟩,
    fun v s g on en ring => ⟨fun disabled idle low high => ?_, fun busy => ?_, fun idle enabled => ?_,
      fun idle disabled size => ?_⟩,
    fun v s g on off ring => ⟨fun enabled => ?_, fun disabled idle low high => ?_⟩,
    fun v s on => ⟨fun unnamed => ?_, fun named => ?_⟩, fun v w s gated => ⟨?_, ?_, ?_, ?_⟩⟩
  · rw [exec_regionEntryWrite, if_pos on, regionEntryWrite_unused selected owner unused, good, if_neg Bool.false_ne_true]
  · rw [exec_regionEntryWrite, if_pos on, regionEntryWrite_unused selected owner unused, if_pos bad]
  · rw [exec_regionEntryWrite, if_pos on, regionEntryWrite_used selected owner used]
  · rw [exec_ringEnable, if_pos on, ringEnable_on s en, ringCfgWrite_sized ring idle disabled low high, ringConfigured_on en]
  · rw [exec_ringEnable, if_pos on, ringEnable_on s en, ringCfgWrite_busy ring busy (by rw [en, Bool.not_true, Bool.and_false])]
  · rw [exec_ringEnable, if_pos on, ringEnable_on s en, ringCfgWrite_alreadyOn ring idle enabled en]
  · rw [exec_ringEnable, if_pos on, ringEnable_on s en, ringCfgWrite_idle ring idle disabled, if_pos size]
  · rw [exec_ringDisable, if_pos on, ringDisable_off s off, ringCfgWrite_turnedOff ring enabled off]
  · rw [exec_ringDisable, if_pos on, ringDisable_off s off, ringCfgWrite_sized ring idle disabled low high,
      ringConfigured_off off]
  · rw [exec_depositEntryWrite, if_pos on, depositEntryWrite_eq, unnamed, if_neg Bool.false_ne_true]
  · rw [exec_depositEntryWrite, if_pos on, depositEntryWrite_eq, if_pos named]
  · rw [exec_regionEntryWrite, gated, if_neg Bool.false_ne_true]
  · rw [exec_ringEnable, gated, if_neg Bool.false_ne_true]
  · rw [exec_ringDisable, gated, if_neg Bool.false_ne_true]
  · rw [exec_depositEntryWrite, gated, if_neg Bool.false_ne_true]

end Sys2Proof.Proofs

namespace Sys2Proof.Proofs

open Sys2Proof.Machine Sys2Proof.Safety Sys2Proof.Laws

/-! ### The member's side of admission (07 R231, R232, R238; 03 R72, R95; 01 R17) -/

theorem exec_admissionScan (s : State) : exec .admissionScan s = .next (if ctlOn s then admissionScan s else s) := rfl

theorem exec_admitMsg (s : State) : exec .admitMsg s = .next (if intakeOn s then admitMsg s else s) := rfl

theorem exec_retract (s : State) : exec .retract s = .next (if intakeOn s then retract s else s) := rfl

theorem exec_go (s : State) : exec .go s = .next (if intakeOn s then go s else s) := rfl

theorem exec_stageAfterTimeout (slot : Fin 4096) (s : State) :
    exec (.stageAfterTimeout slot) s = .next (if ctlOn s then stageAfterTimeout slot.val false s else s) := rfl

/-- A sequencer that takes work has its clocks. -/
theorem ctlOn_of_intakeOn {s : State} (on : intakeOn s = true) : ctlOn s = true := ctlOn_of_awake (awake_of_intakeOn on)

theorem mayAdmit_iff {s : State} : mayAdmit s = true ↔ s.rtr.shapeOk = true ∧ s.rtr.isSpare = false := by
  rw [mayAdmit, Bool.and_eq_true, Bool.not_eq_true']

theorem admissionScan_on {s : State} (on : intakeOn s = true) (may : mayAdmit s = true) : admissionScan s =
    foldS ((byKey s (s.ses.slots.filter fun p => p.2.st == .wait)).map Prod.fst) s considerSession := by
  simp only [admissionScan, on, may, Bool.not_true, Bool.or_self, Bool.false_eq_true, if_false]

theorem admissionScan_off {s : State} (off : intakeOn s = false) : admissionScan s = s := by
  simp only [admissionScan, off, Bool.not_false, Bool.true_or, if_true]

/-- Outside a replay a timer is out at its limit and after. -/
theorem timerOut_live {s : State} (live : s.rru.run = false) (start limit : Nat) :
    timerOut s start limit false = decide (limit ≤ s.tick - start) := by
  rw [timerOut, live, Bool.not_false, Bool.true_and, Bool.false_or]

section
variable {s s1 : State} {k : Packet} {m : Band} {i : Nat} {x : Session}

section
variable (taken : takeBand 0x12 s = some (k, m, s1)) (member : memberSession s1 k.session m.step = some (i, x))
include taken member

theorem admitMsg_held (held : x.st = .held) : admitMsg s = sendHome x .firm (setAdmit i .firm s1) := by
  simp only [admitMsg, taken, member, held]

theorem admitMsg_waiting (waiting : x.st = .wait) : admitMsg s = choice 1 0 x.gsid (sendHome x .refuse s1) := by
  simp only [admitMsg, taken, member, waiting]
end

/-- The member session is looked for once the message is counted. -/
theorem retract_firm {s0 : State} (taken : takeBand 0x15 s = some (k, m, s0))
    (counted : s1 = bump pgSes (·.ses.admitRetracts) (fun v => mSes fun e => { e with admitRetracts := v }) 1 s0)
    (member : memberSession s1 k.session m.step = some (i, x)) (firm : x.st = .firm) : retract s = setAdmit i .held s1 := by
  subst counted
  simp only [retract, taken, member, firm, if_true]

theorem go_firm (taken : takeBand 0x16 s = some (k, m, s1)) (member : memberSession s1 k.session m.step = some (i, x))
    (firm : x.st = .firm) (may : mayAdmit s1 = true) : go s = enterRun i s1 := by
  simp only [go, taken, member, firm, may, decide_true, Bool.and_self, if_true]

/-- The timeout of a session that may be considered and needs palm, outside a replay: by the time that it has waited. -/
theorem stageAfterTimeout_live (session : slot? s i = some x) (on : intakeOn s = true) (may : mayAdmit s = true)
    (considered : mayConsider s x = true) (needs : x.palm ≠ 0) (live : s.rru.run = false) : stageAfterTimeout i false s =
      if max 1 s.ses.stageAfter.toNat ≤ s.tick - x.waitTick then
        if x.palm ≤ palmAll && spaceFits s x false then holdSpace i x false s else stageTurn i x (x.palm ≤ palmAll) s
      else s := by
  simp only [stageAfterTimeout, session, on, may, considered, needs, timerOut_live live, Bool.not_true, Bool.false_or,
    decide_false, Bool.not_eq_true', decide_eq_false_iff_not, ite_not]
end

/-- Settles O45: the scan, each message by the state of the session that it names, and the timeout by the time waited. -/
theorem membersAreAdmitted : Obligations.MembersAreAdmitted := by
  refine ⟨fun s on shape spare => ?_, fun s s1 k m i x on taken member => ⟨fun held => ?_, fun waiting => ?_⟩,
    fun s s0 s1 k m i x on taken counted member firm => ?_, fun s s1 k m i x on taken member firm shape spare => ?_,
    fun slot s x session on shape spare considered needs live => ⟨fun due => ?_, fun early => ?_⟩,
    fun s off => ⟨?_, ?_, ?_, ?_⟩⟩
  · rw [exec_admissionScan, if_pos (ctlOn_of_intakeOn on), admissionScan_on on (mayAdmit_iff.2 ⟨shape, spare⟩)]
  · rw [exec_admitMsg, if_pos on, admitMsg_held taken member held]
  · rw [exec_admitMsg, if_pos on, admitMsg_waiting taken member waiting]
  · rw [exec_retract, if_pos on, retract_firm taken counted member firm]
  · rw [exec_go, if_pos on, go_firm taken member firm (mayAdmit_iff.2 ⟨shape, spare⟩)]
  · rw [exec_stageAfterTimeout, if_pos (ctlOn_of_intakeOn on),
      stageAfterTimeout_live session on (mayAdmit_iff.2 ⟨shape, spare⟩) considered needs live, if_pos due]
  · rw [exec_stageAfterTimeout, if_pos (ctlOn_of_intakeOn on),
      stageAfterTimeout_live session on (mayAdmit_iff.2 ⟨shape, spare⟩) considered needs live, if_neg (Nat.not_le.2 early)]
  · rw [exec_admissionScan, admissionScan_off off, ite_self]
  · rw [exec_admitMsg, off, if_neg Bool.false_ne_true]
  · rw [exec_retract, off, if_neg Bool.false_ne_true]
  · rw [exec_go, off, if_neg Bool.false_ne_true]

/-! ### The home's side of admission (07 R229, R231) -/

theorem exec_grant (s : State) : exec .grant s = .next (if intakeOn s then grant s else s) := rfl

theorem exec_revoke (s : State) : exec .revoke s = .next (if intakeOn s then revoke s else s) := rfl

theorem exec_firm (s : State) : exec .firm s = .next (if intakeOn s then firm s else s) := rfl

theorem exec_refuse (s : State) : exec .refuse s = .next (if intakeOn s then refuse s else s) := rfl

section
variable {s s1 : State} {k : Packet} {m : Band} {need axis gsize rank : Nat} {staged : Bool} {r0 : Coord}
  (taken : takeBand 0x10 s = some (k, m, s1)) (msg : m.msg = .grant need staged axis gsize rank r0)
include taken msg

theorem grant_first (uncoordinated : home? s1 k.session = none) : grant s = homeAdmit
    { gsid := k.session, ctx := m.ctx, step := m.step, axis := axis, gsize := gsize, rank0 := r0, granted := rankBit rank }
    s1 := by
  simp only [grant, taken, msg, uncoordinated]

/-- A GRANT that agrees with the coordination in step and group joins it, from a rank that has not granted. -/
theorem grant_further {h : HomeSes} (coordinated : home? s1 k.session = some h) (sameStep : h.step = m.step)
    (sameAxis : h.axis = axis) (sameSize : h.gsize = gsize) (sameRank0 : h.rank0 = r0)
    (ungranted : h.granted.getLsbD rank = false) :
    grant s = homeAdmit { h with granted := h.granted ||| rankBit rank } s1 := by
  simp only [grant, taken, msg, coordinated, sameStep, sameAxis, sameSize, sameRank0, ungranted, bne_self_eq_false,
    Bool.or_self, Bool.false_eq_true, if_false]
end

theorem homeAdmit_complete {h : HomeSes} (unadmitted : h.admitted = false) (all : h.granted = fullMask h.gsize) (s : State) :
    homeAdmit h s = homeSend h .admitted (putHome { h with admitted := true, firm := 0 } s) := by
  simp only [homeAdmit, unadmitted, all, Bool.not_false, decide_true, Bool.and_self, if_true]

theorem homeAdmit_incomplete {h : HomeSes} (other : h.admitted = true ∨ h.granted ≠ fullMask h.gsize) (s : State) :
    homeAdmit h s = putHome h s := by
  rw [homeAdmit, if_neg]
  rw [Bool.and_eq_true, Bool.not_eq_true', decide_eq_true_eq]
  exact fun ⟨unadmitted, all⟩ =>
    other.elim (fun admitted => Bool.false_ne_true (unadmitted.symm.trans admitted)) fun incomplete => incomplete all

section
variable {s s1 : State} {h : HomeSes} {r : Nat}

theorem revoke_known (known : homeMsg 0x11 s = .inl (some (h, r, s1))) : revoke s =
    if h.granted &&& ~~~(rankBit r) = 0 && !h.admitted then dropHome h.gsid s1
    else putHome { h with granted := h.granted &&& ~~~(rankBit r) } s1 := by
  simp only [revoke, known]

theorem firm_known (known : homeMsg 0x13 s = .inl (some (h, r, s1))) (admitted : h.admitted = true) : firm s =
    if h.firm ||| rankBit r = fullMask h.gsize then homeSend h .go (dropHome h.gsid s1)
    else putHome { h with firm := h.firm ||| rankBit r } s1 := by
  simp only [firm, known, admitted, Bool.not_true, Bool.false_eq_true, if_false]

theorem refuse_known (known : homeMsg 0x14 s = .inl (some (h, r, s1))) (admitted : h.admitted = true) : refuse s =
    homeSend h .retract (putHome { h with admitted := false, firm := 0, granted := h.granted &&& ~~~(rankBit r) } s1) := by
  simp only [refuse, known, admitted, Bool.not_true, Bool.false_eq_true, if_false]
end

/-- Settles O46: a GRANT by whether its session is coordinated, the admission by the ranks that have granted, and each further
message by the home's record. -/
theorem homesCoordinate : Obligations.HomesCoordinate := by
  refine ⟨fun s s1 k m need axis gsize rank staged r0 on taken msg => ⟨fun uncoordinated => ?_,
      fun h coordinated sameStep sameAxis sameSize sameRank0 ungranted => ?_⟩,
    fun h s => ⟨fun unadmitted all => homeAdmit_complete unadmitted all s, fun other => homeAdmit_incomplete other s⟩,
    fun s s1 h r on known => ?_, fun s s1 h r on known admitted => ?_, fun s s1 h r on known admitted => ?_,
    fun s off => ⟨?_, ?_, ?_, ?_⟩⟩
  · rw [exec_grant, if_pos on, grant_first taken msg uncoordinated]
  · rw [exec_grant, if_pos on, grant_further taken msg coordinated sameStep sameAxis sameSize sameRank0 ungranted]
  · rw [exec_revoke, if_pos on, revoke_known known]
  · rw [exec_firm, if_pos on, firm_known known admitted]
  · rw [exec_refuse, if_pos on, refuse_known known admitted]
  · rw [exec_grant, off, if_neg Bool.false_ne_true]
  · rw [exec_revoke, off, if_neg Bool.false_ne_true]
  · rw [exec_firm, off, if_neg Bool.false_ne_true]
  · rw [exec_refuse, off, if_neg Bool.false_ne_true]

end Sys2Proof.Proofs

namespace Sys2Proof.Proofs

open Sys2Proof.Machine Sys2Proof.Safety Sys2Proof.Laws

/-! ### Entries committed by word 0 (08 R263, R265; 09 R290, R300, R303; 10 R330, R332; 16 R471; 02 R54) -/

section
variable (v : W32) (w : W64) (s : State)

theorem exec_finEntryCommit : exec (.finEntryCommit w) s =
    .next (if ctlOn s then finEntryCommit w s else holdAccess 5 (.finEntryCommit w) s) := rfl

theorem exec_rowEntryCommit : exec (.rowEntryCommit w) s =
    .next (if ctlOn s then rowEntryCommit w s else holdAccess 5 (.rowEntryCommit w) s) := rfl

theorem exec_spxEntryCommit : exec (.spxEntryCommit w) s =
    .next (if ctlOn s then spxEntryCommit w s else holdAccess 5 (.spxEntryCommit w) s) := rfl

theorem exec_bucketEntryCommit : exec (.bucketEntryCommit w) s =
    .next (if ctlOn s then bucketEntryCommit w s else holdAccess 5 (.bucketEntryCommit w) s) := rfl

theorem exec_optEntryCommit : exec (.optEntryCommit v) s =
    .next (if ctlOn s then optEntryCommit v s else holdAccess 5 (.optEntryCommit v) s) := rfl

theorem exec_uprogWrite : exec (.uprogWrite v) s =
    .next (if ctlOn s then uprogWrite v s else holdAccess 5 (.uprogWrite v) s) := rfl

theorem exec_entryIndexWrite (reg : IndexReg) : exec (.entryIndexWrite reg v) s =
    .next (if ctlOn s then entryIndexWrite reg v s else holdAccess 5 (.entryIndexWrite reg v) s) := rfl

theorem exec_stashCfgWrite : exec (.stashCfgWrite w) s =
    .next (if ctlOn s then stashCfgWrite w s else holdAccess 5 (.stashCfgWrite w) s) := rfl
end

/-- A page's commit: refused to an entry in use, then to one that breaks a rule, each from the state that the refusal leaves. -/
def commitEntry (named bad : Bool) (page : Nat) (refused committed : State) : State :=
  if named then pageErr page cRegionBusy refused else if bad then pageErr page cConfigInvalid refused else committed

/-- The three outcomes of a command that is a page's commit. -/
theorem commit_outcomes {named bad : Bool} {page : Nat} {refused committed : State} {out : Host.Outcome State Fault Refusal}
    (h : out = .next (commitEntry named bad page refused committed)) :
    (named = true → out = .next (pageErr page cRegionBusy refused)) ∧
    (named = false → bad = true → out = .next (pageErr page cConfigInvalid refused)) ∧
    (named = false → bad = false → out = .next committed) := by
  refine ⟨fun used => ?_, fun free broken => ?_, fun free good => ?_⟩
  · rw [h, commitEntry, if_pos used]
  · rw [h, commitEntry, free, if_neg Bool.false_ne_true, if_pos broken]
  · rw [h, commitEntry, free, if_neg Bool.false_ne_true, good, if_neg Bool.false_ne_true]

/-- The finish entry that a write of word 0 makes with the held word. -/
def finCommitted (v : W64) (s : State) : Nat :=
  joinWords [v.toNat &&& finMask0, (match s.fin.held with
    | some h => h.toNat
    | none => bits (finEntry s s.fin.index.toNat) 127 64) &&& finMask1]

theorem finEntryCommit_eq {v : W64} {s : State} {e : Nat} (entry : e = finCommitted v s) : finEntryCommit v s =
    commitEntry (cfgNamed s [0x01, 0x0B] s.fin.index.toNat) (finBad e) pgFin { s with fin := { s.fin with held := none } }
      { s with fin :=
        { s.fin with
          held := none, entries := Sparse.set 0 s.fin.entries s.fin.index.toNat (BitVec.ofNat 128 e) } } := by
  subst entry
  rfl

theorem rowEntryCommit_eq {v : W64} {s : State} {e : Nat} (entry : e = joinWords [v.toNat &&& rowMask0,
      heldWord s.row.held (rowEntry s s.row.index.toNat) 1 &&& rowMask1,
      heldWord s.row.held (rowEntry s s.row.index.toNat) 2 &&& rowMask2]) : rowEntryCommit v s =
    commitEntry (cfgNamed s [0x06] s.row.index.toNat) (rowBad e) pgRow { s with row := { s.row with held := [] } }
      { s with row :=
        { s.row with
          held := [], entries := Sparse.set 0 s.row.entries s.row.index.toNat (BitVec.ofNat 192 e) } } := by
  subst entry
  rfl

theorem spxEntryCommit_eq {v : W64} {s : State} {e : Nat} (entry : e = joinWords [v.toNat &&& spxMask0,
      heldWord s.spx.held (spxEntry s s.spx.index.toNat) 1,
      heldWord s.spx.held (spxEntry s s.spx.index.toNat) 2 &&& spxMask2]) : spxEntryCommit v s =
    commitEntry (cfgNamed s [0x08, 0x09, 0x0A] s.spx.index.toNat) (spxBad e) pgSpx { s with spx := { s.spx with held := [] } }
      { s with spx :=
        { s.spx with
          held := [], entries := Sparse.set 0 s.spx.entries s.spx.index.toNat (BitVec.ofNat 192 e) } } := by
  subst entry
  rfl

/-- The checks of a stash entry: its size and its places (10 R332). -/
def stashBad (v cfg : W64) : Bool := bits v.toNat 20 16 < 12 || bits v.toNat 20 16 > 30 || stNent cfg = 0

theorem stashBad_iff {v cfg : W64} :
    stashBad v cfg = true ↔ bits v.toNat 20 16 < 12 ∨ 30 < bits v.toNat 20 16 ∨ stNent cfg = 0 := by
  simp only [stashBad, Bool.or_eq_true, decide_eq_true_eq, gt_iff_lt, or_assoc]

theorem stashCfgWrite_eq {v cfg : W64} (kept : cfg = v &&& 0x80001FFF001F3FFF) (s : State) : stashCfgWrite v s =
    commitEntry (stashNamed s s.spx.stashIndex.toNat) (stashBad v cfg) pgSpx s
      { s with spx :=
        { s.spx with
          stash := (Sparse.modify {} s.spx.stash s.spx.stashIndex.toNat
            fun e => if stValid cfg && !stValid e.cfg then { cfg := cfg } else { e with cfg := cfg }) } } := by
  subst kept
  rfl

theorem bucketEntryCommit_disabled {s : State} (v : W64) (disabled : s.opt.en = false) : bucketEntryCommit v s =
    mBkt s.gas.bktIndex.toNat (fun k => { k with shard := 0 })
      { s with gas :=
        { s.gas with
          held := [], buckets := (Sparse.set 0 s.gas.buckets s.gas.bktIndex.toNat (BitVec.ofNat 512 (joinWords
            ((List.range 8).map fun i => (if i = 0 then v.toNat
              else heldWord s.gas.held (bktEntry s s.gas.bktIndex.toNat) i) &&& bktMask i)))) } } := by
  rw [bucketEntryCommit, disabled, if_neg Bool.false_ne_true]
  rfl

theorem bucketEntryCommit_enabled {s : State} (v : W64) (enabled : s.opt.en = true) :
    bucketEntryCommit v s = mGas (fun g => { g with held := [] }) (pageErr pgGas cRegionBusy s) := if_pos enabled

theorem uprogWrite_eq (v : W32) (s : State) : uprogWrite v s =
    if s.opt.en then pageErr pgOpt cRegionBusy s
    else { s with opt := { s.opt with uprog := Sparse.set 0 s.opt.uprog s.opt.upIndex.toNat v } } := rfl

/-! The words of an optimizer entry (09 R305) -/

/-- Words of 32 bits joined from word 0 on. -/
def joinWords32 (ws : List Nat) : Nat := ws.foldr (fun w n => w + 2 ^ 32 * n) 0

theorem joinWords32_lt {ws : List Nat} (small : ∀ w ∈ ws, w < 2 ^ 32) : joinWords32 ws < 2 ^ (32 * ws.length) := by
  induction ws with
  | nil => exact Nat.two_pow_pos _
  | cons w ws ih =>
    have hw : w < 2 ^ 32 := small w List.mem_cons_self
    have tail := ih fun u hu => small u (List.mem_cons_of_mem w hu)
    have hcons : joinWords32 (w :: ws) = w + 2 ^ 32 * joinWords32 ws := rfl
    rw [hcons, List.length_cons, Nat.mul_succ, Nat.pow_add]
    omega

/-- A vector with room for every word holds them all. -/
theorem toNat_ofNat_joinWords32 {ws : List Nat} {m : Nat} (small : ∀ w ∈ ws, w < 2 ^ 32) (room : 32 * ws.length = m) :
    (BitVec.ofNat m (joinWords32 ws)).toNat = joinWords32 ws := by
  subst room
  rw [BitVec.toNat_ofNat, Nat.mod_eq_of_lt (joinWords32_lt small)]

theorem bits_joinWords32 {ws : List Nat} (small : ∀ w ∈ ws, w < 2 ^ 32) {n : Nat} (hn : n < ws.length) :
    bits (joinWords32 ws) (32 * n + 31) (32 * n) = ws[n] := by
  induction ws generalizing n with
  | nil => exact absurd hn (Nat.not_lt_zero n)
  | cons w ws ih =>
    have width (k : Nat) : k + 31 + 1 - k = 32 := by omega
    have hw : w < 2 ^ 32 := small w List.mem_cons_self
    have hcons : joinWords32 (w :: ws) = w + 2 ^ 32 * joinWords32 ws := rfl
    cases n with
    | zero =>
      rw [bits, hcons, width, Nat.shiftRight_zero, Nat.add_mul_mod_self_left, Nat.mod_eq_of_lt hw]
      rfl
    | succ n =>
      have rest : (w + 2 ^ 32 * joinWords32 ws) >>> (32 * (n + 1)) = joinWords32 ws >>> (32 * n) := by
        rw [Nat.mul_succ, Nat.add_comm (32 * n), Nat.shiftRight_add, Nat.shiftRight_eq_div_pow _ 32,
          Nat.add_mul_div_left _ _ (by decide), Nat.div_eq_of_lt hw, Nat.zero_add]
      have tail := ih (fun u hu => small u (List.mem_cons_of_mem w hu)) (Nat.lt_of_succ_lt_succ hn)
      rw [bits, width] at tail
      rw [bits, hcons, width, rest, tail]
      rfl

/-- Word n of the entry that OPT_ENTRY_COMMIT writes: B1T and B2T change only while the step is disabled. -/
def optCommitted (v : W32) (s : State) (n : Nat) : Nat :=
  if n = 0 then v.toNat &&& 0xBF1FFFFF
  else if s.opt.en && (n == 8 || n == 9) then optWord s s.opt.entIndex.toNat n
  else match assoc? s.opt.held n with
    | some x => x.toNat
    | none => optWord s s.opt.entIndex.toNat n

theorem optCommitted_zero (v : W32) (s : State) : optCommitted v s 0 = v.toNat &&& 0xBF1FFFFF := if_pos rfl

theorem optWord_lt (s : State) (i n : Nat) : optWord s i n < 2 ^ 32 := by
  rw [optWord, bits, show 32 * n + 31 + 1 - 32 * n = 32 by omega]
  exact Nat.mod_lt _ (by decide)

theorem optCommitted_lt (v : W32) (s : State) (n : Nat) : optCommitted v s n < 2 ^ 32 := by
  unfold optCommitted
  split
  · exact Nat.and_lt_two_pow _ (by decide)
  · split
    · exact optWord_lt s _ n
    · split
      · exact BitVec.isLt _
      · exact optWord_lt s _ n

theorem optCommitted_held {v : W32} {s : State} {n : Nat} {w : W32} (first : 1 ≤ n) (held : assoc? s.opt.held n = some w)
    (writable : s.opt.en = false ∨ (n ≠ 8 ∧ n ≠ 9)) : optCommitted v s n = w.toNat := by
  have unlocked : ¬(s.opt.en && (n == 8 || n == 9)) = true := by
    simp only [Bool.and_eq_true, Bool.or_eq_true, beq_iff_eq]
    rintro ⟨en, at_⟩
    rcases writable with off | ⟨h8, h9⟩
    · exact Bool.false_ne_true (off.symm.trans en)
    · exact at_.elim h8 h9
  rw [optCommitted, if_neg (Nat.ne_of_gt first), if_neg unlocked, held]

theorem optEntryCommit_eq (v : W32) (s : State) : optEntryCommit v s =
    { s with opt :=
      { s.opt with
        entries := Sparse.set 0 s.opt.entries s.opt.entIndex.toNat
          (BitVec.ofNat 512 (joinWords32 ((List.range 16).map (optCommitted v s)))),
        held := [] } } := rfl

theorem optEntryCommit_ses (v : W32) (s : State) : (optEntryCommit v s).ses = s.ses := mOpt_ses s _

theorem optEntryCommit_gas (v : W32) (s : State) : (optEntryCommit v s).gas = s.gas := mOpt_gas s _

theorem optWord_optEntryCommit (v : W32) (s : State) {n : Nat} (hn : n < 16) :
    optWord (optEntryCommit v s) s.opt.entIndex.toNat n = optCommitted v s n := by
  have small : ∀ w ∈ (List.range 16).map (optCommitted v s), w < 2 ^ 32 := by
    simp only [List.mem_map]
    rintro _ ⟨k, _, rfl⟩
    exact optCommitted_lt v s k
  have len : ((List.range 16).map (optCommitted v s)).length = 16 := by rw [List.length_map, List.length_range]
  rw [optWord, optEntryCommit_eq]
  simp only [sparse_get_set_self]
  rw [toNat_ofNat_joinWords32 small (by rw [len]), bits_joinWords32 small (Nat.lt_of_lt_of_eq hn len.symm), List.getElem_map,
    List.getElem_range]

/-- Settles O43: the commits of the pages by whether the entry is in use and what it breaks, those of the step by its enable,
the optimizer's entry word by word, the index registers, and each with the clocks gated. -/
theorem tableEntriesAreCommitted : Obligations.TableEntriesAreCommitted := by
  refine ⟨fun v s s1 e on forgot entry => ?_, fun v s s1 e on forgot entry => ?_, fun v s s1 e on forgot entry => ?_,
    fun v s on => ⟨fun disabled => ?_, fun enabled => ?_⟩, fun v s on => ?_,
    fun v s on => ⟨fun disabled => ?_, fun enabled => ?_⟩, fun v s on => ?_, fun v cfg s on kept => ?_, fun v w reg s gated => ?_⟩
  · subst forgot
    exact commit_outcomes (by rw [exec_finEntryCommit, if_pos on, finEntryCommit_eq entry])
  · subst forgot
    exact commit_outcomes (by rw [exec_rowEntryCommit, if_pos on, rowEntryCommit_eq entry])
  · subst forgot
    exact commit_outcomes (by rw [exec_spxEntryCommit, if_pos on, spxEntryCommit_eq entry])
  · rw [exec_bucketEntryCommit, if_pos on, bucketEntryCommit_disabled v disabled]
  · rw [exec_bucketEntryCommit, if_pos on, bucketEntryCommit_enabled v enabled]
  · refine ⟨optEntryCommit v s, ?_, rfl, ?_, fun n w first last held writable => ?_, optEntryCommit_ses v s,
      optEntryCommit_gas v s⟩
    · rw [exec_optEntryCommit, if_pos on]
    · rw [optWord_optEntryCommit v s (by decide), optCommitted_zero]
    · rw [optWord_optEntryCommit v s (Nat.lt_succ_of_le last), optCommitted_held first held writable]
  · rw [exec_uprogWrite, if_pos on, uprogWrite_eq, disabled, if_neg Bool.false_ne_true]
  · rw [exec_uprogWrite, if_pos on, uprogWrite_eq, if_pos enabled]
  · simp only [exec_entryIndexWrite, if_pos on]
    exact ⟨rfl, rfl, rfl, rfl, rfl, rfl, rfl⟩
  · have written := exec_stashCfgWrite v s
    rw [if_pos on, stashCfgWrite_eq kept] at written
    obtain ⟨used, broken, good⟩ := commit_outcomes written
    refine ⟨used, fun free => ⟨fun h => broken free (stashBad_iff.2 h), fun low high places => good free ?_⟩⟩
    rw [← Bool.not_eq_true, stashBad_iff]
    exact not_or.2 ⟨Nat.not_lt.2 low, not_or.2 ⟨Nat.not_lt.2 high, places⟩⟩
  · simp only [exec_finEntryCommit, exec_rowEntryCommit, exec_spxEntryCommit, exec_bucketEntryCommit, exec_optEntryCommit,
      exec_uprogWrite, exec_entryIndexWrite, exec_stashCfgWrite, gated, Bool.false_eq_true, if_false, and_self]

end Sys2Proof.Proofs

namespace Sys2Proof.Proofs

open Sys2Proof.Machine Sys2Proof.Safety Sys2Proof.Laws

/-! ### The finishing, row and transposing units (08 R248, R256, R259, R260; 07 R227) -/

theorem exec_finChunk (s : State) : exec .finChunk s = .next (if ctlOn s then finChunk s else s) := rfl

theorem exec_rowPass (slot : Fin 4096) (s : State) :
    exec (.rowPass slot) s = .next (if ctlOn s then rowPass slot.val s else s) := rfl

theorem exec_rowStatisticsFinal (slot : Fin 4096) (b : Nat) (s : State) :
    exec (.rowStatisticsFinal slot b) s = .next (if ctlOn s then rowStatisticsFinal slot.val b s else s) := rfl

theorem exec_transposeRowBlock (slot : Fin 4096) (b : Nat) (s : State) :
    exec (.transposeRowBlock slot b) s = .next (if ctlOn s then transposeRowBlock slot.val b s else s) := rfl

/-- A datapath that serves has its clocks. -/
theorem ctlOn_of_serving {s : State} (serving : datapathOff s = false) : ctlOn s = true := by
  obtain ⟨clocked, _⟩ := Bool.or_eq_false_iff.1 serving
  rw [ctlOn, ← Bool.not_eq_false', ← bne, clocked]

theorem finChunk_next {s : State} {it : FinItem} (ready : empReady s = true) (serving : datapathOff s = false)
    (next : finNext s = some it) : finChunk s =
      tryComplete it.slot (finishItem it { s with fin := { s.fin with queue := s.fin.queue.erase it } }) := by
  simp only [finChunk, ready, serving, next, Bool.not_true, Bool.or_self, Bool.false_eq_true, if_false]
  rfl

/-- The pass of a class on a block. -/
def runPass (slot : Nat) (x : Session) (s : State) : Nat × Nat → State
  | (1, b) => firstPass slot b x s
  | (2, b) => midPass slot b x s
  | (_, b) => tryComplete slot (lastPass slot b x s)

/-- ROW runs the next pass of a row session that may issue, if there is one. -/
theorem rowPass_issuing {slot : Nat} {s : State} {x : Session} (session : slot? s slot = some x) (opc : x.d.opc = 0x06)
    (issuing : issueStopped s = false) (free : sessionFree s x = true) :
    rowPass slot s = (nextPass s slot x).elim s (runPass slot x s) := by
  simp only [rowPass, session, opc, issuing, free, bne_self_eq_false, Bool.not_true, Bool.or_self, Bool.false_eq_true, if_false]
  cases nextPass s slot x with
  | none => rfl
  | some p => obtain ⟨_ | _ | _ | _ | c, b⟩ := p <;> rfl

/-- Write the record of row i of a block whose first row is given. -/
def rowRecordPut (x : Session) (blk : RowBlock) (first i : Nat) (s : State) : State :=
  thimblePut (thimbleAt s x (first + i)) (rowValues s x (statAt s x blk i)).1 (rowValues s x (statAt s x blk i)).2 s

theorem rowRecordPut_eq (x : Session) (blk : RowBlock) (first : Nat) : rowRecordPut x blk first = fun i s =>
    thimblePut (thimbleAt s x (first + i)) (rowValues s x (statAt s x blk i)).1 (rowValues s x (statAt s x blk i)).2 s := rfl

theorem rowRecordPut_entries (x : Session) (blk : RowBlock) (first i : Nat) (s : State) :
    (rowRecordPut x blk first i s).row.entries = s.row.entries := by
  rw [rowRecordPut, thimblePut, mRow_row]

/-- The rows of a block are those of the session's row entry. -/
theorem blockRows_of_entries {s t : State} (same : t.row.entries = s.row.entries) (x : Session) (b : Nat) :
    blockRows t x b = blockRows s x b := by
  simp only [blockRows, rowsOf, rowE, rowEntry, same]

/-- Write the records of a block's rows, by its reduced statistics. -/
def rowRecordsPut (s : State) (x : Session) (b : Nat) : State :=
  foldS (List.range (blockRows s x b).2) s (rowRecordPut x (blockOf x b) (blockRows s x b).1)

theorem foldS_nil {α : Type} (s : State) (f : α → State → State) : foldS [] s f = s := rfl

theorem foldS_cons {α : Type} (a : α) (l : List α) (s : State) (f : α → State → State) :
    foldS (a :: l) s f = foldS l (f a s) f := rfl

/-- No record moves the rows of a block, so its first row may be taken from the state that each record meets. -/
theorem foldS_rowRecordPut (x : Session) (blk : RowBlock) (b : Nat) (l : List Nat) (s : State) :
    foldS l s (rowRecordPut x blk (blockRows s x b).1) = foldS l s fun i t => rowRecordPut x blk (blockRows t x b).1 i t := by
  induction l generalizing s with
  | nil => rw [foldS_nil, foldS_nil]
  | cons i l ih =>
    have rest := ih (rowRecordPut x blk (blockRows s x b).1 i s)
    rw [blockRows_of_entries (rowRecordPut_entries x blk _ i s)] at rest
    rw [foldS_cons, foldS_cons, rest]

theorem rowRecordsPut_eq (s : State) (x : Session) (b : Nat) : rowRecordsPut s x b =
    foldS (List.range (blockRows s x b).2) s fun i s =>
      thimblePut (thimbleAt s x ((blockRows s x b).1 + i)) (rowValues s x (statAt s x (blockOf x b) i)).1
        (rowValues s x (statAt s x (blockOf x b) i)).2 s :=
  foldS_rowRecordPut x (blockOf x b) b _ s

section
variable {slot b : Nat} {s : State} {x : Session} (session : slot? s slot = some x) (opc : x.d.opc = 0x06)
  (reduced : (blockOf x b).stat0 ≠ []) (serving : datapathOff s = false)
include session opc reduced serving

/-- Mode 2 reduces a block's statistics twice: those of its first pass, then those of its middle pass. -/
theorem rowStatisticsFinal_twice (mode : rowMode (rowE s x) = 2) : rowStatisticsFinal slot b s =
    if (blockOf x b).final0 = false then mBlock slot b (fun k => { k with final0 := true }) s
    else if (blockOf x b).final1 = true ∨ (blockOf x b).stat1 = [] then s
    else mBlock slot b (fun k => { k with final1 := true }) (rowRecordsPut s x b) := by
  simp [rowStatisticsFinal, session, opc, serving, mode, reduced, rowRecordsPut, rowRecordPut_eq]

/-- Every other mode reduces them once, and of these the forward ones write the records. -/
theorem rowStatisticsFinal_once (mode : rowMode (rowE s x) ≠ 2) : rowStatisticsFinal slot b s =
    if (blockOf x b).final0 = true then s
    else mBlock slot b (fun k => { k with final0 := true })
      (if 3 ≤ rowMode (rowE s x) then s else rowRecordsPut s x b) := by
  simp [rowStatisticsFinal, session, opc, serving, mode, reduced, rowRecordsPut, rowRecordPut_eq]
end

/-- The columns of a block, each with its place in the transposed copy, from the bytes of the plain one. -/
def blockColumns (s : State) (x : Session) (b : Nat) : List (Nat × List Byte) :=
  let e := depEntry s x.d.stageCfg
  let k := rowBlockRows x.d.fmtOut
  (List.range (depCols e)).map fun c =>
    (regAddr s x.ctx x.d.auxReg (x.d.auxOff + (c * depRows e + b * k) * fmtSize x.d.fmtOut),
      (List.range k).flatMap fun r => plainElem s x ((b * k + r) * depCols e + c))

theorem transposeRowBlock_arrived {slot b : Nat} {s : State} {x : Session} {e a k sz : Nat}
    (session : slot? s slot = some x) (opc : x.d.opc = 0x02) (running : x.st = .run) (inside : b < transposeBlocks s x.d)
    (fresh : Sparse.get false x.tblocks b = false) (entry : e = depEntry s x.d.stageCfg) (rows : k = rowBlockRows x.d.fmtOut)
    (size : sz = fmtSize x.d.fmtOut) (arrived : gatherHas x (b * k * depCols e) (k * depCols e) = true)
    (ready : empReady s = true) (addr : a = regAddr s x.ctx x.d.dstReg (x.d.dstOff + b * k * depCols e * sz))
    (unwritten : writesTo s a (k * depCols e * sz) = false) : transposeRowBlock slot b s = addLocal slot
      { reads := [s.emp.nextTag], tag := none, seq := b, work := .block (blockColumns s x b) }
      (mSlot slot (fun y => { y with tblocks := Sparse.set false y.tblocks b true })
        (empRead (.session slot x.gsid) a (k * depCols e * sz) [] s)) := by
  subst addr entry rows size
  simp only [transposeRowBlock, session, opc, running, fresh, arrived, ready, unwritten, Nat.not_le.2 inside,
    bne_self_eq_false, decide_false, Bool.not_true, Bool.or_self, Bool.false_eq_true, if_false]
  rfl

/-- What the block's work counted is counted when its read has returned, and then its columns are written in their order. -/
theorem runLocal_block {slot : Nat} {o : LocalOp} {s : State} {x : Session} {ws : List (Nat × List Byte)}
    (session : slot? s slot = some x) (work : o.work = .block ws) : runLocal slot o s =
      foldS ws (countOut { OutRun.empty with sats := o.sats, nans := o.nans, mxs := o.mxs } s) fun w s =>
        empWrite (.session slot 0 none) w.1 w.2 s := by
  simp only [runLocal, session, work]

/-- Settles O47: FIN by its next chunk, ROW by its next pass, the statistics of a block by the mode and what is final, and
the transposed block when it is read and when the read has returned. -/
theorem outputsAreFinished : Obligations.OutputsAreFinished := by
  refine ⟨fun s it ready serving next => ?_,
    fun slot s x b session opc issuing free => ⟨fun first => ?_, fun middle => ?_, fun last => ?_, fun idle => ?_⟩,
    fun slot b s x recs session opc reduced serving written => ⟨fun backward fresh => ?_, fun forward fresh => ?_,
      fun twice fresh => ?_, fun twice sums fresh stat1 => ?_, fun once marked => ?_⟩,
    fun slot b s x e a n k sz session on opc running inside fresh entry rows size number arrived ready addr unwritten => ?_,
    fun slot o s x ws session work sats nans mxs => ?_⟩
  · rw [exec_finChunk, if_pos (ctlOn_of_serving serving), finChunk_next ready serving next]
  · rw [exec_rowPass, if_pos (ctlOn_of_issuing issuing), rowPass_issuing session opc issuing free, first]
    rfl
  · rw [exec_rowPass, if_pos (ctlOn_of_issuing issuing), rowPass_issuing session opc issuing free, middle]
    rfl
  · rw [exec_rowPass, if_pos (ctlOn_of_issuing issuing), rowPass_issuing session opc issuing free, last]
    rfl
  · rw [exec_rowPass, if_pos (ctlOn_of_issuing issuing), rowPass_issuing session opc issuing free, idle]
    rfl
  · rw [exec_rowStatisticsFinal, if_pos (ctlOn_of_serving serving),
      rowStatisticsFinal_once session opc reduced serving (by omega), fresh, if_neg Bool.false_ne_true, if_pos backward]
  · rw [exec_rowStatisticsFinal, if_pos (ctlOn_of_serving serving),
      rowStatisticsFinal_once session opc reduced serving (by omega), fresh, if_neg Bool.false_ne_true, if_neg (by omega),
      rowRecordsPut_eq, written]
  · rw [exec_rowStatisticsFinal, if_pos (ctlOn_of_serving serving),
      rowStatisticsFinal_twice session opc reduced serving twice, if_pos fresh]
  · rw [exec_rowStatisticsFinal, if_pos (ctlOn_of_serving serving),
      rowStatisticsFinal_twice session opc reduced serving twice, sums, if_neg Bool.false_ne_true.symm,
      if_neg (not_or.2 ⟨Bool.eq_false_iff.1 fresh, stat1⟩), rowRecordsPut_eq, written]
  · rw [exec_rowStatisticsFinal, if_pos (ctlOn_of_serving serving),
      rowStatisticsFinal_once session opc reduced serving once, if_pos marked]
  · subst number
    rw [exec_transposeRowBlock, if_pos on, transposeRowBlock_arrived session opc running inside fresh entry rows size arrived
      ready addr unwritten, blockColumns, ← entry, ← rows, ← size]
  · rw [runLocal_block session work, sats, nans, mxs]

end Sys2Proof.Proofs

namespace Sys2Proof.Proofs

open Sys2Proof.Machine Sys2Proof.Safety Sys2Proof.Laws

/-! ### Deposits (09 R270 to R274; 13 R389; 15 R456) -/

/-- What becomes of a deposit whose data are whole, by the verdict of R271. -/
def judgeDeposit (p : Nat) (h : W64) (beat : BitVec 512) (s : State) : State :=
  match depCheck s p h with
  | .reject code => rejectDeposit p code s
  | .frozen => bump pgGas (·.gas.frozenDrops) (fun v => mGas fun g => { g with frozenDrops := v }) 1 s
  | .hold => mTile p (fun t => { t with held := some (h, beat) }) s
  | .accept => if depRoom s h then applyDeposit p h beat s else s

theorem exec_ddataDeposit (p : Fin 64) (h : W64) (beat : BitVec 512) (ecc : Ecc) (s : State) :
    exec (.ddataDeposit p h beat ecc) s = .next (deposit p.val h beat ecc s) := rfl

theorem awake_of_gasStopped {s : State} (going : gasStopped s = false) : awake s = true := by
  simp only [gasStopped, Bool.or_eq_false_iff, Bool.not_eq_false'] at going
  obtain ⟨⟨_, awoken⟩, _⟩ := going
  exact awoken

theorem gasStopped_of_gated {s : State} (gated : s.pwr.cur ≠ 0) : gasStopped s = true := by
  have asleep : awake s = false := Bool.eq_false_iff.2 fun h => gated (awake_iff.1 h).1
  rw [gasStopped, asleep, Bool.not_false, Bool.or_true, Bool.true_or]

theorem tileWake_awake {s : State} (h : awake s = true) : tileWake s = s := by
  rw [tileWake, h, Bool.not_true, Bool.and_false, if_neg Bool.false_ne_true]

theorem tileWake_gated {s : State} (gated : s.pwr.cur ≠ 0) (done : s.rst.done = true) : tileWake s = wakeBy 4 s := by
  have asleep : awake s = false := Bool.eq_false_iff.2 fun h => gated (awake_iff.1 h).1
  rw [tileWake, asleep, done, Bool.not_false, Bool.and_true, if_pos rfl]

section
variable (p : Nat) (h : W64) (beat : BitVec 512) (ecc : Ecc) (s : State)

/-- The deposit wakes the engine, is taken where its port and the store let it, and is judged where its data are whole. -/
theorem deposit_eq : deposit p h beat ecc s =
    if (tileOf (tileWake s) p).held.isSome || gasStopped (tileWake s) then tileWake s
    else if ecc = .double then rejectDeposit p cTcpDataError (logDouble 10 p false (tileWake s))
    else judgeDeposit p h beat (if ecc = .single then eccSingle 10 (tileWake s) else tileWake s) := by
  cases ecc <;> rfl

variable {p s}

theorem deposit_waits (waits : (tileOf (tileWake s) p).held.isSome = true ∨ gasStopped (tileWake s) = true) :
    deposit p h beat ecc s = tileWake s := by
  rw [deposit_eq, if_pos (Bool.or_eq_true_iff.2 waits)]

theorem deposit_taken (free : (tileOf s p).held = none) (going : gasStopped s = false) : deposit p h beat ecc s =
    if ecc = .double then rejectDeposit p cTcpDataError (logDouble 10 p false s)
    else judgeDeposit p h beat (if ecc = .single then eccSingle 10 s else s) := by
  rw [deposit_eq, tileWake_awake (awake_of_gasStopped going), free, going]
  rfl

theorem judgeDeposit_accept (verdict : depCheck s p h = .accept) :
    judgeDeposit p h beat s = if depRoom s h then applyDeposit p h beat s else s := by rw [judgeDeposit, verdict]

theorem judgeDeposit_hold (verdict : depCheck s p h = .hold) :
    judgeDeposit p h beat s = mTile p (fun t => { t with held := some (h, beat) }) s := by rw [judgeDeposit, verdict]

theorem judgeDeposit_frozen (verdict : depCheck s p h = .frozen) : judgeDeposit p h beat s =
    bump pgGas (·.gas.frozenDrops) (fun v => mGas fun g => { g with frozenDrops := v }) 1 s := by rw [judgeDeposit, verdict]

theorem judgeDeposit_reject {code : W16} (verdict : depCheck s p h = .reject code) :
    judgeDeposit p h beat s = rejectDeposit p code s := by rw [judgeDeposit, verdict]
end

theorem satAdd_one {w : Nat} {c : BitVec w} (h : c ≠ BitVec.allOnes w) : satAdd c 1 = c + 1 := by
  have room : c.toNat + 1 < 2 ^ w := by
    have : c.toNat ≠ 2 ^ w - 1 := fun e => h (BitVec.eq_of_toNat_eq (by rw [e, BitVec.toNat_allOnes]))
    have := c.isLt
    omega
  rw [satAdd, if_pos room, BitVec.ofNat_add, BitVec.ofNat_toNat, BitVec.setWidth_eq]
  rfl

/-- A counter that has not reached its end, and does not reach it now, counts on. -/
theorem bump_counts {w : Nat} {p : Nat} {get : State → BitVec w} {put : BitVec w → State → State} {s : State}
    (below : get s ≠ BitVec.allOnes w) (short : get s + 1 ≠ BitVec.allOnes w) : bump p get put 1 s = put (get s + 1) s := by
  simp only [bump, satAdd_one below, beq_false_of_ne short, Bool.and_false, Bool.false_eq_true, if_false]

/-- Settles O12: a deposit that is taken by its check bits and its verdict, and one that is not by what keeps it out. -/
theorem depositIsJudged : Obligations.DepositIsJudged := by
  refine ⟨fun p h beat ecc s u whole free going counted => ?_, fun p h beat s free going => ?_,
    fun p h beat ecc s awoken waits => ?_, fun p h beat ecc s gated done => ?_⟩
  · rw [exec_ddataDeposit, deposit_taken h beat ecc free going, if_neg whole, ← counted]
    refine ⟨fun accept room => ?_, fun accept full => ?_, fun hold => ?_, fun frozen below short => ?_, fun code reject => ?_⟩
    · rw [judgeDeposit_accept h beat accept, if_pos room]
    · rw [judgeDeposit_accept h beat accept, full, if_neg Bool.false_ne_true]
    · rw [judgeDeposit_hold h beat hold]
    · rw [judgeDeposit_frozen h beat frozen, bump_counts below short]
      rfl
    · rw [judgeDeposit_reject h beat reject]
  · rw [exec_ddataDeposit, deposit_taken h beat .double free going, if_pos rfl]
  · have unwoken := tileWake_awake awoken
    rw [exec_ddataDeposit, deposit_waits h beat ecc (by rwa [unwoken]), unwoken]
  · have woken := tileWake_gated gated done
    have stopped : gasStopped (tileWake s) = true := gasStopped_of_gated (by rwa [woken, wakeBy_cur])
    rw [exec_ddataDeposit, deposit_waits h beat ecc (.inr stopped), woken]

end Sys2Proof.Proofs

namespace Sys2Proof.Proofs

open Sys2Proof.Machine Sys2Proof.Safety Sys2Proof.Laws

/-! ### The step's enable (09 R269, R295; 02 R54) -/

theorem exec_stepEnable (v : W32) (s : State) :
    exec (.stepEnable v) s = .next (if ctlOn s then stepEnable v s else holdAccess 5 (.stepEnable v) s) := rfl

theorem exec_stepDisable (v : W32) (s : State) :
    exec (.stepDisable v) s = .next (if ctlOn s then stepDisable v s else holdAccess 5 (.stepDisable v) s) := rfl

section
variable {v : W32} {s : State}

theorem stepEnable_on (s : State) (on : v.getLsbD 0 = true) : stepEnable v s = stepCtlWrite v s := if_pos on

theorem stepDisable_off (s : State) (off : v.getLsbD 0 = false) : stepDisable v s = stepCtlWrite v s :=
  if_neg (Bool.eq_false_iff.1 off)

theorem stepCtlWrite_kept (kept : v.getLsbD 0 = s.opt.en) : stepCtlWrite v s = mOpt (stepCtlFields v) s :=
  if_pos (beq_iff_eq.2 kept)

theorem stepCtlWrite_rising (on : v.getLsbD 0 = true) (disabled : s.opt.en = false) : stepCtlWrite v s =
    if enableBad (mOpt (stepCtlFields v) s) then pageErr pgOpt cConfigInvalid (mOpt (stepCtlFields v) s)
    else startStep (mOpt (stepCtlFields v) s) := by
  rw [stepCtlWrite, on, disabled]
  rfl

theorem stepCtlWrite_falling (off : v.getLsbD 0 = false) (enabled : s.opt.en = true) : stepCtlWrite v s =
    if s.opt.state = 0 ∧ noDeposit s = true then
      mOpt (fun o => { o with en := false, state := 6 }) (mOpt (stepCtlFields v) s)
    else pageErr pgOpt cConfigInvalid (mOpt (stepCtlFields v) s) := by
  rw [stepCtlWrite, off, enabled]
  simp only [Bool.and_eq_true, decide_eq_true_eq]
  rfl
end

/-! ### The step's commit (09 R297; 12 R384) -/

theorem exec_commit (s : State) : exec .commit s = .next (if ctlOn s then commit s else s) := rfl

theorem commit_due {s : State} (due : s.opt.commitWait = some (s.opt.step, [])) (voted : s.opt.state = 4) : commit s =
    if s.rru.run then replayCommit (decision 7 15 s.opt.step.toNat 0 0 0 s).ctl.digest s.opt.step.toNat s.opt.attempt.toNat
      (commitStep s)
    else commitStep s := by
  simp only [commit, due, voted, bne_self_eq_false, Bool.or_self, Bool.false_eq_true, if_false]

theorem commit_awaiting {s : State} {u : W16} {f : Nat × W32} {rest : List (Nat × W32)}
    (awaiting : s.opt.commitWait = some (u, f :: rest)) : commit s = s := by
  simp only [commit, awaiting]

/-- Page OPT without what deposits and the advance of the constants may change. -/
def stepState (o : Opt) : Opt := { o with deadlineStart := none, entries := [] }

/-- The next step begins in ACCUM with its first attempt; what had failed ahead of it has failed it. -/
def nextStep (o : Opt) : Opt :=
  { o with
    committed := o.step, step := o.step + 1, gen := !o.gen, advanceB := false, consts := [], repeatA := [], repeatB := [],
    attempt := 0, failed := o.failedNext, failedNext := false, late := false, voted := false, commitWait := none, state := 0 }

theorem foldS_opt {α : Type} {f : α → State → State} (H : ∀ a s, (f a s).opt = s.opt) (l : List α) (s : State) :
    (foldS l s f).opt = s.opt :=
  keep_foldS (P := fun t => t.opt = s.opt) (fun a t h => (H a t).trans h) l rfl

section
variable (s : State)

theorem preloadSpan_opt (b sp : Nat) : (preloadSpan b sp s).opt = s.opt :=
  keep_preloadSpan (P := Unchanged .opt s) (keeps_unchanged s .opt (by decide)) (stores_unchanged s .opt (by decide) (by decide))
    b sp rfl

theorem accumulate_opt (b beat : Nat) (es : List F32) : (accumulate b beat es s).opt = s.opt :=
  keep_accumulate (P := Unchanged .opt s) (keeps_unchanged s .opt (by decide)) (stores_unchanged s .opt (by decide) (by decide))
    b beat es rfl

theorem localPrim_opt (ctx v : Nat) (set : Bool) (val : W32) (source : Nat) : (localPrim ctx v set val source s).2.opt = s.opt :=
  keep_localPrim (P := Unchanged .opt s) (keeps_unchanged s .opt (by decide)) (stores_unchanged s .opt (by decide) (by decide))
    ctx v set val source rfl

theorem rejectDeposit_opt (p : Nat) (code : W16) : (rejectDeposit p code s).opt = s.opt :=
  keep_rejectDeposit (P := Unchanged .opt s) (keeps_unchanged s .opt (by decide)) (stores_unchanged s .opt (by decide) (by decide))
    p code rfl

theorem tileWake_opt : (tileWake s).opt = s.opt := by
  rw [tileWake, apply_ite State.opt, wakeBy_unchanged .opt (by decide) 4 s, ite_self]

theorem retirePark_opt (b : Nat) (code : W16) (flags : Nat) (signal : Bool) : (retirePark b code flags signal s).opt = s.opt :=
  keep_retirePark (P := Unchanged .opt s) (keeps_unchanged s .opt (by decide)) (stores_unchanged s .opt (by decide) (by decide))
    b code flags signal rfl

theorem staleAll_opt : (staleAll s).opt = s.opt :=
  keep_staleAll (P := Unchanged .opt s) (keeps_unchanged s .opt (by decide)) rfl

theorem digestRecord_opt : (digestRecord s).opt = s.opt :=
  keep_digestRecord (P := Unchanged .opt s) (keeps_unchanged s .opt (by decide)) (stores_unchanged s .opt (by decide) (by decide))
    rfl

/-- The last bucket to become ready starts the deadline; a deposit changes nothing else of the step. -/
theorem countDeposit_stepState (p b : Nat) : stepState (countDeposit p b s).opt = stepState s.opt := by
  simp only [countDeposit, apply_ite State.opt, apply_ite stepState, mOpt_opt, pageErr_opt, raiseVec_opt, localPrim_opt, mBkt_opt,
    ite_self]
  simp only [stepState, ite_self]

theorem applyDeposit_stepState (p : Nat) (h : W64) (beat : BitVec 512) :
    stepState (applyDeposit p h beat s).opt = stepState s.opt := by
  have accumulated (l : List (Nat × Nat)) (es : List F32) (b : Nat) (t : State) : (foldS l t fun q s =>
      if 16 * q.2 < bkCount (bktEntry s b) then accumulate b q.2 ((es.drop (16 * q.1)).take 16) s else s).opt = t.opt :=
    foldS_opt (fun q t => by rw [apply_ite State.opt, accumulate_opt, ite_self]) l t
  rw [applyDeposit, countDeposit_stepState, accumulated, apply_ite State.opt, preloadSpan_opt, ite_self]

theorem judgeDeposit_stepState (p : Nat) (h : W64) (beat : BitVec 512) :
    stepState (judgeDeposit p h beat s).opt = stepState s.opt := by
  cases verdict : depCheck s p h with
  | reject code => rw [judgeDeposit_reject h beat verdict, rejectDeposit_opt]
  | frozen =>
    rw [judgeDeposit_frozen h beat verdict]
    obtain e | e := bump_eq pgGas (·.gas.frozenDrops) (fun v => mGas fun g => { g with frozenDrops := v }) 1 s
    · rw [e, mGas_opt]
    · rw [e, setSat_opt, mGas_opt]
  | hold => rw [judgeDeposit_hold h beat verdict, mTile_opt]
  | accept =>
    rw [judgeDeposit_accept h beat verdict, apply_ite State.opt, apply_ite stepState, applyDeposit_stepState, ite_self]

theorem deposit_stepState (p : Nat) (h : W64) (beat : BitVec 512) (ecc : Ecc) :
    stepState (deposit p h beat ecc s).opt = stepState s.opt := by
  simp only [deposit_eq, apply_ite State.opt, apply_ite stepState, rejectDeposit_opt, logDouble_opt, judgeDeposit_stepState,
    eccSingle_opt, tileWake_opt, ite_self]

theorem releaseHeld_stepState : stepState (releaseHeld s).opt = stepState s.opt := by
  refine keep_foldS (P := fun t => stepState t.opt = stepState s.opt) (fun p t same => ?_) _ rfl
  dsimp only
  split
  · exact same
  · rw [apply_ite State.opt, apply_ite stepState, deposit_stepState, mTile_opt, ite_self, same]

/-- The advance of the constants changes the entries alone. -/
theorem advanceB_entries : ∃ e, (advanceB s).opt = { s.opt with entries := e } := by
  refine keep_foldS (P := fun t => ∃ e, t.opt = { s.opt with entries := e }) (fun k t entered => ?_) _ ⟨_, rfl⟩
  obtain ⟨e, entered⟩ := entered
  rw [mOpt_opt, entered]
  exact ⟨_, rfl⟩

/-- COMMIT, first: the committed step's decisions are recorded, the step counts on, and the constants advance where they are to. -/
def stepCommitted (s : State) : State :=
  let t := digestRecord (decision 7 15 s.opt.step.toNat 0 0 0 s)
  let t1 := mOpt (fun o => { o with committed := s.opt.step, step := s.opt.step + 1 })
    { t with
      ctl := { t.ctl with digest := 0, decisions := 0, stepStart := s.ccc, expired := false }
      rru := { t.rru with timeDigest := 0, commits := t.rru.commits + 1 } }
  mOpt (fun o => { o with gen := !o.gen, advanceB := false, consts := [] })
    (if s.opt.verdict = 1 || s.opt.advanceB then advanceB t1 else t1)

/-- COMMIT, then: the step's parked descriptors retire with their flags, and its buckets and their spans are those of the next. -/
def parksCommitted (u : W16) (s : State) : State :=
  foldS ((parksOf s u).map fun b => (b, 2 * b2n (bktOf s b).poison + 4 * b2n ((bktOf s b).park.any Park.skip)))
    (staleAll (mGas (fun g => { g with bkt := Sparse.mapAll {} g.bkt fun _ k => k.fresh, rejRaised := false }) s))
    fun p s => retirePark p.1 cOk p.2 true s

/-- COMMIT, last: the marks of the step's own course fall. -/
def stepRestarted (s : State) : State :=
  mFlt (fun f => { f with updateBegun := false, holds := 0 }) (mSes (fun e => { e with abortList := [] }) (mOpt (fun o =>
    { o with
      repeatA := [], repeatB := [], attempt := 0, failed := o.failedNext, failedNext := false, late := false, voted := false,
      deadlineStart := none, commitWait := none, state := 0 }) s))

theorem commitStep_eq : commitStep s =
    stepHeader (raiseStep (releaseHeld (stepRestarted (parksCommitted s.opt.step (stepCommitted s))))) := rfl

theorem stepCommitted_opt : ∃ e, (stepCommitted s).opt =
    { s.opt with
      committed := s.opt.step, step := s.opt.step + 1, gen := !s.opt.gen, advanceB := false, consts := [], entries := e } := by
  have recorded : (digestRecord (decision 7 15 s.opt.step.toNat 0 0 0 s)).opt = s.opt := by rw [digestRecord_opt, decision_opt]
  unfold stepCommitted
  dsimp only
  split
  · obtain ⟨e, advanced⟩ := advanceB_entries _
    rw [mOpt_opt, advanced, mOpt_opt, recorded]
    exact ⟨e, rfl⟩
  · rw [mOpt_opt, mOpt_opt, recorded]
    exact ⟨_, rfl⟩

theorem parksCommitted_opt (u : W16) : (parksCommitted u s).opt = s.opt := by
  rw [parksCommitted, foldS_opt fun (p : Nat × Nat) t => retirePark_opt t p.1 cOk p.2 true, staleAll_opt, mGas_opt]

theorem commitStep_stepState : stepState (commitStep s).opt = stepState (nextStep s.opt) := by
  obtain ⟨e, committed⟩ := stepCommitted_opt s
  rw [commitStep_eq, stepHeader_opt, raiseStep_opt, releaseHeld_stepState, stepRestarted, mFlt_opt, mSes_opt, mOpt_opt,
    parksCommitted_opt, committed]
  rfl

/-- A field of page OPT that neither the deposits held so far nor the constants change is the next step's. -/
theorem commitStep_field {α : Type} (f : Opt → α) (h : ∀ o, f (stepState o) = f o) :
    f (commitStep s).opt = f (nextStep s.opt) := by
  rw [← h, commitStep_stepState, h]
end

/-- Settles O50: a write of STEP_CTL by its EN and the step's, COMMIT by the frames awaited, and the step that follows. -/
theorem stepIsEnabledAndCommits : Obligations.StepIsEnabledAndCommits := by
  refine ⟨fun v s on up => ⟨fun disabled sound => ?_, fun disabled bad => ?_, fun enabled => ?_⟩,
    fun v s on down => ⟨fun enabled accum empty => ?_, fun enabled busy => ?_, fun disabled => ?_⟩,
    fun v s off => ⟨?_, ?_⟩, fun s on due voted => ⟨fun live => ?_, fun replayed => ?_⟩, fun s u f rest on awaiting => ?_,
    fun s => ?_⟩
  · rw [exec_stepEnable, if_pos on, stepEnable_on s up, stepCtlWrite_rising up disabled, if_neg (Bool.eq_false_iff.1 sound)]
    rfl
  · rw [exec_stepEnable, if_pos on, stepEnable_on s up, stepCtlWrite_rising up disabled, if_pos bad]
    rfl
  · rw [exec_stepEnable, if_pos on, stepEnable_on s up, stepCtlWrite_kept (up.trans enabled.symm)]
    rfl
  · rw [exec_stepDisable, if_pos on, stepDisable_off s down, stepCtlWrite_falling down enabled, if_pos ⟨accum, empty⟩]
    rfl
  · have refused : ¬(s.opt.state = 0 ∧ noDeposit s = true) := fun ⟨accum, empty⟩ =>
      busy.elim (· accum) (Bool.eq_false_iff.1 · empty)
    rw [exec_stepDisable, if_pos on, stepDisable_off s down, stepCtlWrite_falling down enabled, if_neg refused]
    rfl
  · rw [exec_stepDisable, if_pos on, stepDisable_off s down, stepCtlWrite_kept (down.trans disabled.symm)]
    rfl
  · rw [exec_stepEnable, if_neg (Bool.eq_false_iff.1 off)]
  · rw [exec_stepDisable, if_neg (Bool.eq_false_iff.1 off)]
  · rw [exec_commit, if_pos on, commit_due due voted, if_neg (Bool.eq_false_iff.1 live)]
  · rw [exec_commit, if_pos on, commit_due due voted, if_pos replayed]
  · rw [exec_commit, if_pos on, commit_awaiting awaiting]
  · have kept {α : Type} (f : Opt → α) (h : ∀ o, f (stepState o) = f o) := commitStep_field s f h
    exact ⟨kept Opt.committed fun _ => rfl, kept Opt.step fun _ => rfl, kept Opt.state fun _ => rfl,
      kept Opt.attempt fun _ => rfl, kept Opt.gen fun _ => rfl⟩

end Sys2Proof.Proofs

namespace Sys2Proof.Proofs

open Sys2Proof.Machine Sys2Proof.Safety Sys2Proof.Laws

/-! ### The step's cycle (09 R275, R280, R285, R296) -/

theorem exec_preloadSweep (s : State) : exec .preloadSweep s = .next (if ctlOn s then preloadSweep s else s) := rfl

theorem exec_releaseContribution (s : State) :
    exec .releaseContribution s = .next (if ctlOn s then releaseContribution s else s) := rfl

theorem exec_stepDeadline (s : State) : exec .stepDeadline s = .next (if ctlOn s then stepDeadline false s else s) := rfl

theorem exec_updateWave (s : State) : exec .updateWave s = .next (if ctlOn s then updateWave s else s) := rfl

theorem exec_commitVote (s : State) : exec .commitVote s = .next (if ctlOn s then commitVote s else s) := rfl

section
variable {s : State}

theorem preloadSweep_stale {sp b : Nat} {rest : List (Nat × Nat)} (enabled : s.opt.en = true) (going : gasStopped s = false)
    (stale : staleSpans s = (sp, b) :: rest) : preloadSweep s = if preloadRoom s b then preloadSpan b sp s else s := by
  simp only [preloadSweep, enabled, going, stale, Bool.not_true, Bool.or_self, Bool.false_eq_true, if_false]

theorem releaseContribution_due (may : mayContribute s = true) (due : contributionDue s = true) :
    releaseContribution s = sendContribution false s :=
  if_pos (Bool.and_eq_true_iff.2 ⟨may, due⟩)

theorem stepDeadline_live {t0 : Nat} (started : s.opt.deadlineStart = some t0) (may : mayContribute s = true)
    (early : contributionDue s = false) (live : s.rru.run = false) : stepDeadline false s =
      if max 1 s.opt.deadline.toNat ≤ s.tick - t0 then sendContribution true s else s := by
  simp only [stepDeadline, started, may, early, timerOut_live live, Bool.not_false, Bool.and_self, Bool.true_and,
    decide_eq_true_eq]

theorem updateWave_next {b : Nat} {k : Park} (enabled : s.opt.en = true) (update : s.opt.state = 2) (going : gasStopped s = false)
    (serving : datapathOff s = false) (running : s.ctl.run = true) (next : nextWave s = some b)
    (parked : (bktOf s b).park = some k) : updateWave s = runWave b k s := by
  simp only [updateWave, enabled, update, going, serving, running, next, parked, bne_self_eq_false, Bool.not_true, Bool.or_self,
    Bool.false_eq_true, if_false]

theorem commitVote_due (enabled : s.opt.en = true) (tail : s.opt.state = 3) (kept : s.flt.ctlLost = false)
    (authentic : s.opt.authHalt = false) (free : chanBusy s 15 = false) (tailsOver : (activeBuckets s).all (tailOver s) = true) :
    commitVote s = stepArrival 15 15 ⟨false, (activeBuckets s).any fun b => (bktOf s b).tailFail, false, false, false⟩ 0
      (mOpt (fun o => { o with state := 4, voted := true })
        (decision 6 15 s.opt.step.toNat 0 (b2n ((activeBuckets s).any fun b => (bktOf s b).tailFail)) 0 s)) := by
  simp only [commitVote, enabled, tail, kept, authentic, free, tailsOver, bne_self_eq_false, Bool.not_true, Bool.or_self,
    Bool.false_eq_true, if_false]
end

/-- Settles O49: each command of the step's cycle by what it waits for. -/
theorem stepIsDecided : Obligations.StepIsDecided := by
  refine ⟨fun s sp b rest on enabled going stale room => ?_, fun s on may due => ?_,
    fun s t0 on started may early live late => ?_, fun s b k on enabled update going serving running next parked => ?_,
    fun s on enabled tail kept authentic free tailsOver => ?_⟩
  · rw [exec_preloadSweep, if_pos on, preloadSweep_stale enabled going stale, if_pos room]
  · rw [exec_releaseContribution, if_pos on, releaseContribution_due may due]
  · rw [exec_stepDeadline, if_pos on, stepDeadline_live started may early live, if_pos late]
  · rw [exec_updateWave, if_pos on, updateWave_next enabled update going serving running next parked]
  · rw [exec_commitVote, if_pos on, commitVote_due enabled tail kept authentic free tailsOver]

end Sys2Proof.Proofs

namespace Sys2Proof.Proofs

open Sys2Proof.Machine Sys2Proof.Safety Sys2Proof.Laws

/-! ### Mirrors (09 R293, R294) -/

theorem exec_mirrorSend (bucket : Fin 4096) (s : State) :
    exec (.mirrorSend bucket) s = .next (if ctlOn s then mirrorSend bucket.val s else s) := rfl

theorem exec_mirrorAck (s : State) : exec .mirrorAck s = .next (if ctlOn s then mirrorAck s else s) := rfl

theorem exec_mirrorTimeout (bucket : Fin 4096) (s : State) :
    exec (.mirrorTimeout bucket) s = .next (if ctlOn s then mirrorTimeout bucket.val s else s) := rfl

section
variable {b : Nat} {s : State}

/-- A job that reaches the wave's end, with the tags for its parts, sends them all, and the seal after the last. -/
theorem mirrorSend_wave {step : W16} {gen : Bool} {limit i n parts : Nat} (ready : empReady s = true)
    (issuing : issueStopped s = false) (job : mirrorJob s b = some (step, gen, limit)) (start : i = (bktOf s b).mirrorAt)
    (length : n = min 16384 (bktQ s b - i)) (states : parts = 1 + optNState s (bkOpt (bktEntry s b))) (nonempty : 0 < n)
    (reach : i + n ≤ limit) (tags : tagsHeld s + parts * cdiv n 1024 + 1 ≤ 65536) {t : State}
    (sent : t = mBkt b (fun k => { k with mirrorAt := i + n })
      (foldS (List.range parts) s fun p s' => sendPart b p i n step gen s')) :
    mirrorSend b s = if bktQ s b ≤ i + n then sendSeal b step gen t else t := by
  have may : ¬((i + n > limit || tagsHeld s + parts * cdiv n 1024 + 1 > 65536) = true) := by
    simp only [Bool.or_eq_true, decide_eq_true_eq]
    omega
  subst sent
  simp only [mirrorSend, ready, issuing, job, ← start, ← length, ← states, Nat.ne_of_gt nonempty, Bool.not_true, Bool.or_self,
    Bool.false_eq_true, if_false, may]

/-- The bucket whose sealed record an acknowledgement names is mirrored, if it names the step and the generation sent. -/
theorem mirrorAck_named {s1 : State} {k : Packet} {m : Band} {tag : Nat} {gen : Bool}
    (taken : takeBand 0x08 s = some (k, m, s1)) (msg : m.msg = .mirrorAck tag gen)
    (named : (activeBuckets s1).find? (fun b => bkTag (bktEntry s1 b) == tag && (bktOf s1 b).sealSent &&
      !(bktOf s1 b).mirrored) = some b) : mirrorAck s =
        if m.step = ackStep s1 ∧ gen = ackGen s1 then
          countSent (mBkt b (fun k => { k with mirrored := true, mirrorTick := none }) s1)
        else s1 := by
  simp only [mirrorAck, taken, msg, named, Bool.and_eq_true, beq_iff_eq]

theorem mirrorTimeout_late {t0 : Nat} (waiting : (bktOf s b).mirrorTick = some t0) (stepping : s.opt.en = true ∨ recOn s 4 = true)
    (unmirrored : (bktOf s b).mirrored = false) (late : s.opt.mirrorTimeout.toNat ≤ s.tick - t0) :
    mirrorTimeout b s = mirrorMissing b s := by
  simp only [mirrorTimeout, waiting, Bool.or_eq_true_iff.2 stepping, unmirrored, Nat.not_lt.2 late, decide_false, Bool.not_true,
    Bool.or_self, Bool.false_eq_true, if_false]

theorem mirrorMissing_again (few : (bktOf s b).resends < 3) : mirrorMissing b s =
    mBkt b (fun k => { k.unsent with resends := k.resends + 1 })
      (bump pgOpt (·.opt.mirrorResends) (fun v => mOpt fun o => { o with mirrorResends := v }) 1 s) := if_pos few

/-- A record of the step's tail that was sent four times fails its bucket. -/
theorem mirrorMissing_fails (all : 3 ≤ (bktOf s b).resends) (seeding : recOn s 4 = false) (remirroring : recOn s 7 = false) :
    mirrorMissing b s = mBkt b (fun k => { k with tailFail := true, mirrorTick := none }) (pageErr pgOpt cMirrorFailed s) := by
  simp only [mirrorMissing, Nat.not_lt.2 all, seeding, remirroring, Bool.false_eq_true, if_false]
end

/-! ### Restored records (13 R405, R406) -/

theorem exec_restoreRecordVerify (bucket : Fin 4096) (s : State) :
    exec (.restoreRecordVerify bucket) s = .next (if ctlOn s then restoreRecordVerify bucket.val s else s) := rfl

theorem exec_recTimeout (s : State) : exec .recTimeout s = .next (if ctlOn s then recTimeout s else s) := rfl

section
variable {b : Nat} {s : State} (restoring : recOn s 3 = true)
include restoring

/-- A whole record is read back, and its seal decides what follows. -/
theorem restoreRecordVerify_whole {u : State} (active : bkActive (bktEntry s b) = true) (unverified : (bktOf s b).verified = false)
    (whole : recordWhole s b = true) (ready : empReady s = true)
    (readBack : u = empRead (.restore b) (stateAddr s b 0 0) (recordBytes s b - 64)
      (cellsOf s [(paramAddr s b 0, paramRun s b)]) s) : restoreRecordVerify b s =
        if recordOk s b then tryEndRestore (mFlt (fun f => { f with recDone := f.recDone + 1 })
          (mBkt b (fun k => { k with verified := true })
            (writeSpan (.restore b) (paramAddr s b 0) (paramRun s b) false u)))
        else failRestore u := by
  subst readBack
  simp only [restoreRecordVerify, restoring, active, unverified, whole, ready, Bool.not_true, Bool.or_self, Bool.false_eq_true,
    if_false]

theorem recTimeout_late (late : max 1 s.flt.recTimeout.toNat ≤ s.tick - s.flt.recTick) : recTimeout s = failRestore s :=
  if_pos (Bool.and_eq_true_iff.2 ⟨restoring, decide_eq_true late⟩)
end

/-- Settles O51: a wave by whether it ends the record, an acknowledgement by what it names, a missing one by the repeats so
far, and a restored record by its seal. -/
theorem mirrorsAreKept : Obligations.MirrorsAreKept := by
  refine ⟨fun bucket s step gen limit i n parts on ready issuing job start length states nonempty reach tags t sent =>
      ⟨fun more => ?_, fun last => ?_⟩,
    fun s s1 k m tag b gen on taken msg named => ⟨fun sameStep sameGen => ?_, fun other => ?_⟩,
    fun bucket s t0 on waiting stepping unmirrored late => ⟨fun few => ?_, fun all seeding remirroring => ?_⟩,
    fun bucket s u on restoring active unverified whole ready readBack => ⟨fun good => ?_, fun bad => ?_⟩,
    fun s on restoring late => ?_⟩
  · rw [exec_mirrorSend, if_pos on, mirrorSend_wave ready issuing job start length states nonempty reach tags sent,
      if_neg (Nat.not_le.2 more)]
  · rw [exec_mirrorSend, if_pos on, mirrorSend_wave ready issuing job start length states nonempty reach tags sent, if_pos last]
  · rw [exec_mirrorAck, if_pos on, mirrorAck_named taken msg named, if_pos ⟨sameStep, sameGen⟩]
  · rw [exec_mirrorAck, if_pos on, mirrorAck_named taken msg named,
      if_neg fun ⟨sameStep, sameGen⟩ => other.elim (· sameStep) (· sameGen)]
  · rw [exec_mirrorTimeout, if_pos on, mirrorTimeout_late waiting stepping unmirrored late, mirrorMissing_again few]
    rfl
  · rw [exec_mirrorTimeout, if_pos on, mirrorTimeout_late waiting stepping unmirrored late,
      mirrorMissing_fails all seeding remirroring]
  · rw [exec_restoreRecordVerify, if_pos on, restoreRecordVerify_whole restoring active unverified whole ready readBack,
      if_pos good]
  · rw [exec_restoreRecordVerify, if_pos on, restoreRecordVerify_whole restoring active unverified whole ready readBack,
      if_neg (Bool.eq_false_iff.1 bad)]
  · rw [exec_recTimeout, if_pos on, recTimeout_late restoring late]

end Sys2Proof.Proofs

namespace Sys2Proof.Proofs

open Sys2Proof.Machine Sys2Proof.Safety Sys2Proof.Laws

/-! ### Expert dispatch and combine (10 R319, R320, R323) -/

theorem exec_expertDispatchRoute (slot : Fin 4096) (s : State) :
    exec (.expertDispatchRoute slot) s = .next (if ctlOn s then expertDispatchRoute slot.val s else s) := rfl

theorem exec_expertCombineOutput (slot : Fin 4096) (s : State) :
    exec (.expertCombineOutput slot) s = .next (if ctlOn s then expertCombineOutput slot.val s else s) := rfl

theorem empRead_nextTag (p : RPurpose) (addr bytes : Nat) (undo : List Host.Cell) (s : State) :
    (empRead p addr bytes undo s).emp.nextTag = s.emp.nextTag + 1 := rfl

/-- Read a session's whole routing table, 16 bytes for each token (10 R319). -/
def readTable (slot : Nat) (x : Session) (s : State) : State :=
  empRead (.session slot x.gsid) (regAddr s x.ctx x.d.auxReg x.d.auxOff) (16 * tokenCount s x) [] s

/-- Read every row of a combine's destination block, assigned or not (10 R323). -/
def readRows (slot : Nat) (x : Session) (s s1 : State) : State :=
  let e := spxEntry s x.d.stageCfg
  empRead (.session slot x.gsid) (expertAddr s x 2 0) (x.n * spxELocal e * spxCap e * rowBytes x.d.fmtIn (spxRow e)) [] s1

section
variable {slot : Nat} {s : State} {x : Session} (session : slot? s slot = some x)
include session

/-- A dispatch that may issue and has not read its table reads it, and routes once the read has returned. -/
theorem expertDispatchRoute_issuing (opc : x.d.opc = 0x09) (unrouted : x.routed = false) (unread : x.locals = [])
    (issuing : issueStopped s = false) (free : sessionFree s x = true) : expertDispatchRoute slot s =
      addLocal slot { reads := [s.emp.nextTag], tag := none, seq := 0, work := .route }
        (progress slot (readTable slot x s)) := by
  simp only [expertDispatchRoute, session, opc, unrouted, unread, issuing, free, bne_self_eq_false, List.isEmpty_nil,
    Bool.not_true, Bool.or_self, Bool.false_eq_true, if_false]
  rfl

/-- A combine that may issue and whose rows have landed reads its table and then its rows, and writes its tokens once both
reads have returned. -/
theorem expertCombineOutput_landed (opc : x.d.opc = 0x0A) (uncombined : x.combined = false)
    (unread : ∀ o ∈ x.locals, o.work ≠ .tokens) (issuing : issueStopped s = false) (free : sessionFree s x = true)
    (landed : combineLanded s slot x = true) : expertCombineOutput slot s =
      addLocal slot { reads := [s.emp.nextTag, (readTable slot x s).emp.nextTag], tag := none, seq := 0, work := .tokens }
        (progress slot (readRows slot x s (readTable slot x s))) := by
  have noTokens : (x.locals.any fun o => o.work == .tokens) = false :=
    List.any_eq_false.2 fun o held tokens => unread o held (eq_of_beq tokens)
  simp only [expertCombineOutput, session, opc, uncombined, noTokens, issuing, free, landed, bne_self_eq_false,
    Bool.not_true, Bool.or_self, Bool.false_eq_true, if_false]
  rfl

/-- What a session's work counted is counted when its reads have returned. -/
theorem runLocal_route {o : LocalOp} (work : o.work = .route) : runLocal slot o s =
    routeTable slot x (countOut { OutRun.empty with sats := o.sats, nans := o.nans, mxs := o.mxs } s) := by
  simp only [runLocal, session, work]

theorem runLocal_tokens {o : LocalOp} (work : o.work = .tokens) : runLocal slot o s =
    writeTokens slot x (countOut { OutRun.empty with sats := o.sats, nans := o.nans, mxs := o.mxs } s) := by
  simp only [runLocal, session, work]
end

theorem routeTable_bad {x : Session} {s : State} (slot : Nat) (bad : tableBad s x = true) :
    routeTable slot x s = endSpx slot cRoutingInvalid s := if_pos bad

theorem routeTable_good {x : Session} {s : State} (slot : Nat) (good : tableBad s x = false) : routeTable slot x s =
    mSlot slot (fun y => { y with routed := true, progTick := s.tick })
      (writeSlots slot x (assignAll s x).slots.reverse s) := if_neg (Bool.eq_false_iff.1 good)

/-! ### RECEIVE (10 R324, R326) -/

theorem exec_receiveReady (slot : Fin 4096) (s : State) :
    exec (.receiveReady slot) s = .next (if ctlOn s then receiveReady slot.val s else s) := rfl

/-- A RECEIVE that may issue and has not said so: it sends CLEAR_TO_SEND, or counts the first time that its stash is full. -/
theorem receiveReady_issuing {slot : Nat} {s : State} {x : Session} (session : slot? s slot = some x) (opc : x.d.opc = 0x05)
    (unsent : x.ctsSent = false) (issuing : issueStopped s = false) (free : sessionFree s x = true) : receiveReady slot s =
      if stashReady s x then sendBand (memberOf s x x.d.peer) x.ctx x.d.step x.gsid (.clearToSend x.d.count x.d.fmtOut)
        (mSlot slot (fun y => { y with ctsSent := true, progTick := s.tick }) s)
      else if x.stashWaited then s
      else bump pgSpx (·.spx.stashFullEvents) (fun v => mSpx fun p => { p with stashFullEvents := v }) 1
        (mSlot slot (fun y => { y with stashWaited := true }) s) := by
  simp only [receiveReady, session, opc, unsent, issuing, free, bne_self_eq_false, Bool.not_true, Bool.or_self,
    Bool.false_eq_true, if_false]

/-! ### The stash (10 R325, R327; 16 R497; 02 R54) -/

theorem exec_stashRelease (who : Requester) (ctx : Fin 64) (stash : Fin 16) (v : W32) (s : State) :
    exec (.stashRelease who ctx stash v) s = .next (if ctlOn s then stashRelease who ctx.val stash.val v s
      else holdAccess 5 (.stashRelease who ctx stash v) s) := rfl

section
variable {who : Requester} {ctx i : Nat} {s : State} {e : Stash} (stash : e = stashOf s i) (v : W32)
include stash

theorem stashRelease_denied (foreign : mayReach who ctx (stCtx e.cfg) = false) :
    stashRelease who ctx i v s = denyWindow pgSpx ctx s := by
  simp only [stashRelease, ← stash, foreign, Bool.not_false, if_true]

/-- A release that reaches the stash gives back the entries that it names, where so many are held. -/
theorem stashRelease_reached (reach : mayReach who ctx (stCtx e.cfg) = true) : stashRelease who ctx i v s =
    if (e.filled - e.released).toNat < v.toNat then pageErr pgSpx cConfigInvalid s
    else mSpx (fun p => { p with stash := Sparse.modify {} p.stash i fun e => { e with released := e.released + v } }) s := by
  simp only [stashRelease, ← stash, reach, Bool.not_true, Bool.false_eq_true, if_false, gt_iff_lt]
end

/-- Settles O48: a dispatch and a combine by the reads that they make and what follows when these have returned, a RECEIVE by its
stash, and a release by its requester and what the stash holds. -/
theorem expertsAndReceiversProceed : Obligations.ExpertsAndReceiversProceed := by
  refine ⟨fun slot s x session opc unrouted unread issuing free => ?_,
    fun slot x s => ⟨routeTable_bad slot, routeTable_good slot⟩,
    fun slot o s x session => ⟨runLocal_route session, runLocal_tokens session⟩,
    fun slot s x e rows session opc uncombined unread issuing free landed entry size => ?_,
    fun slot s x session opc unsent issuing free => ?_,
    fun who ctx stash v s e on entry => ⟨fun reach within => ?_, fun reach beyond => ?_, fun foreign => ?_⟩,
    fun who ctx stash v s gated => ?_⟩
  · rw [exec_expertDispatchRoute, if_pos (ctlOn_of_issuing issuing),
      expertDispatchRoute_issuing session opc unrouted unread issuing free, readTable]
  · subst entry size
    rw [exec_expertCombineOutput, if_pos (ctlOn_of_issuing issuing),
      expertCombineOutput_landed session opc uncombined unread issuing free landed, readRows, readTable, empRead_nextTag]
  · rw [exec_receiveReady, if_pos (ctlOn_of_issuing issuing), receiveReady_issuing session opc unsent issuing free]
    refine ⟨fun ready => ?_, fun full waited => ?_, fun full first => ?_⟩
    · rw [if_pos ready]
    · rw [if_neg (Bool.eq_false_iff.1 full), if_pos waited]
    · rw [if_neg (Bool.eq_false_iff.1 full), if_neg (Bool.eq_false_iff.1 first)]
  · rw [exec_stashRelease, if_pos on, stashRelease_reached entry v reach, if_neg (Nat.not_lt.2 within)]
  · rw [exec_stashRelease, if_pos on, stashRelease_reached entry v reach, if_pos beyond]
  · rw [exec_stashRelease, if_pos on, stashRelease_denied entry v foreign]
  · rw [exec_stashRelease, if_neg (Bool.eq_false_iff.1 gated)]

end Sys2Proof.Proofs

namespace Sys2Proof.Proofs

open Sys2Proof.Machine Sys2Proof.Safety Sys2Proof.Laws

/-! ### What a change of an object leaves unchanged (11 R338, R340, R342) -/

section
variable {s : State}

@[simp] theorem empRecord_syn (p : WPurpose) (addr : Nat) (bytes : List Byte) : (empRecord p addr bytes s).syn = s.syn :=
  keep_empRecord (P := Unchanged .syn s) (keeps_unchanged s .syn (by decide)) (stores_unchanged s .syn (by decide) (by decide))
    p addr bytes rfl

@[simp] theorem traceRec_syn (p ctx source : Nat) (chip : Coord) : (traceRec p ctx source chip s).syn = s.syn :=
  keep_traceRec (P := Unchanged .syn s) (keeps_unchanged s .syn (by decide)) (stores_unchanged s .syn (by decide) (by decide))
    p ctx source chip rfl

/-- A monitor that fires writes its record and disarms; no object changes. -/
theorem fireMonitor_objects (c m : Nat) (code : W16) : (fireMonitor c m code s).syn.objects = s.syn.objects := by
  simp only [fireMonitor]
  split
  · rw [mTile_syn, mMon, mSyn_syn]
  · rw [empRecord_syn, mMon, mSyn_syn]

theorem evalMonitors_objects (p : Nat) : (evalMonitors p s).syn.objects = s.syn.objects := by
  refine keep_foldl (P := fun t => t.syn.objects = s.syn.objects) (fun t e same => ?_) s.syn.monitors rfl
  dsimp only
  split
  · rw [fireMonitor_objects, same]
  · exact same

theorem objOf_of_objects {t : State} (same : t.syn.objects = s.syn.objects) (p : Nat) : objOf t p = objOf s p := by
  rw [objOf, objOf, same]

/-- SET replaces an object's value and ADD adds to it, whatever becomes of its state (11 R338, R345). -/
theorem applyPrim_value (p : Nat) (set : Bool) (v : W32) (issued : Bool) (ctx source : Nat) (chip : Coord) :
    (objOf (applyPrim p set v issued ctx source chip s) p).value = if set then v else (objOf s p).value + v := by
  rw [applyPrim, objOf_of_objects (congrArg Syn.objects (traceRec_syn ..)), objOf_of_objects (evalMonitors_objects p), objOf_mObj,
    if_pos rfl]
  split
  · split
    · split <;> rfl
    · rfl
  · rfl

/-- SET and ADD change the store, memory and its port, and the tile ports, and no other part. -/
theorem applyPrim_unchanged (g : Group) (outside : Nat.testBit 0x200900 g.idx = false) (hmem : g ≠ .mem) (hemp : g ≠ .emp)
    (p : Nat) (set : Bool) (v : W32) (issued : Bool) (ctx source : Nat) (chip : Coord) :
    Unchanged g s (applyPrim p set v issued ctx source chip s) :=
  keep_applyPrim (keeps_unchanged s g outside) (stores_unchanged s g hmem hemp) p set v issued ctx source chip (unchanged_refl g s)

theorem applyPrim_ses (p : Nat) (set : Bool) (v : W32) (issued : Bool) (ctx source : Nat) (chip : Coord) :
    (applyPrim p set v issued ctx source chip s).ses = s.ses :=
  applyPrim_unchanged .ses (by decide) (by decide) (by decide) p set v issued ctx source chip

theorem applyPrim_que (p : Nat) (set : Bool) (v : W32) (issued : Bool) (ctx source : Nat) (chip : Coord) :
    (applyPrim p set v issued ctx source chip s).que = s.que :=
  applyPrim_unchanged .que (by decide) (by decide) (by decide) p set v issued ctx source chip
end

/-! ### Window primitives (11 R334, R337, R366) -/

theorem exec_windowSet (ctx : Fin 64) (v : W32) (s : State) : exec (.windowSet ctx v) s =
    .next (if fabricOn s then windowPrim ctx.val true v s else holdAccess 5 (.windowSet ctx v) s) := rfl

theorem exec_windowAdd (ctx : Fin 64) (v : W32) (s : State) : exec (.windowAdd ctx v) s =
    .next (if fabricOn s then windowPrim ctx.val false v s else holdAccess 5 (.windowAdd ctx v) s) := rfl

section
variable {c : Nat} {s : State} (set : Bool) (v : W32)

theorem windowPrim_owned {p : Nat} (owned : Sys2Proof.Machine.translate s c (winOf s c).obj.toNat = some (p, false)) :
    windowPrim c set v s = applyPrim p set v true c 320 s.rtr.self s := by
  simp only [windowPrim, owned]

theorem windowPrim_unmapped (unmapped : Sys2Proof.Machine.translate s c (winOf s c).obj.toNat = none) :
    windowPrim c set v s = winRecord c cSyncIdUnmapped s := by
  simp only [windowPrim, unmapped]

theorem windowPrim_waited {p : Nat} (waited : Sys2Proof.Machine.translate s c (winOf s c).obj.toNat = some (p, true)) :
    windowPrim c set v s = winRecord c cAccessDenied s := by
  simp only [windowPrim, waited]
end

/-- Settles O53: by what maps the window's selected object; an owned one takes the primitive's value. -/
theorem windowPrimitivesAct : Obligations.WindowPrimitivesAct := by
  refine ⟨fun ctx v s p on => ⟨fun owned => ⟨⟨_, exec_windowSet ctx v s, ?_⟩, ⟨_, exec_windowAdd ctx v s, ?_⟩⟩,
    fun unmapped => ⟨?_, ?_⟩, fun waited => ⟨?_, ?_⟩⟩, fun ctx v s gated => ⟨?_, ?_⟩⟩
  · rw [if_pos on, windowPrim_owned true v owned]
    exact ⟨applyPrim_value .., applyPrim_ses .., applyPrim_que ..⟩
  · rw [if_pos on, windowPrim_owned false v owned]
    exact ⟨applyPrim_value .., applyPrim_ses .., applyPrim_que ..⟩
  · rw [exec_windowSet, if_pos on, windowPrim_unmapped true v unmapped]
  · rw [exec_windowAdd, if_pos on, windowPrim_unmapped false v unmapped]
  · rw [exec_windowSet, if_pos on, windowPrim_waited true v waited]
  · rw [exec_windowAdd, if_pos on, windowPrim_waited false v waited]
  · rw [exec_windowSet, if_neg (Bool.eq_false_iff.1 gated)]
  · rw [exec_windowAdd, if_neg (Bool.eq_false_iff.1 gated)]

end Sys2Proof.Proofs

namespace Sys2Proof.Proofs

open Sys2Proof.Machine Sys2Proof.Safety Sys2Proof.Laws

/-! ### Segments (11 R336, R364) -/

theorem exec_segmentWrite (v : W64) (s : State) : exec (.segmentWrite v) s =
    .next (if fabricOn s then segmentWrite v s else holdAccess 5 (.segmentWrite v) s) := rfl

/-- A segment of the store with its word replaced. -/
def segmentPut (i : Nat) (v : W64) (s : State) : State :=
  mSyn (fun y => { y with segments := Sparse.set 0 y.segments i v }) s

section
variable {v0 v : W64} {s : State} (word : v = v0 &&& BitVec.ofNat 64 (2 ^ 45 - 1 - 48))
include word

theorem segmentWrite_bad (bad : segBad v = true) : segmentWrite v0 s = pageErr pgSyn cConfigInvalid s := by
  simp only [segmentWrite, ← word, bad, if_true]

/-- An enabled segment over a disabled one is mapped, if its objects allow it. -/
theorem segmentWrite_enables {i : Nat} (index : i = bits s.syn.segIndex.toNat 21 16 * 16 + bits s.syn.segIndex.toNat 3 0)
    (good : segBad v = false) (enabled : segEn v = true) (disabled : segEn (Sparse.get 0 s.syn.segments i) = false) :
    segmentWrite v0 s =
      (segEnable (bits s.syn.segIndex.toNat 21 16) v s).elim (pageErr pgSyn cRegionBusy s) (segmentPut i v) := by
  simp only [segmentWrite, ← word, ← index, good, enabled, disabled, Bool.not_true, Bool.not_false, Bool.and_false,
    Bool.false_eq_true, if_false, if_true]
  cases segEnable (bits s.syn.segIndex.toNat 21 16) v s <;> rfl
end

/-! ### Monitors (11 R342, R367) -/

theorem exec_monitorArm (ctx : Fin 64) (v : W64) (s : State) : exec (.monitorArm ctx v) s =
    .next (if fabricOn s then monitorArm ctx.val v s else holdAccess 5 (.monitorArm ctx v) s) := rfl

/-- The selected monitor armed on a physical object, and fired at once where its condition holds. -/
def monitorArmed (c m : Nat) (cfg : W64) (p start : Nat) (s : State) : State :=
  let t := mMon c m (fun mo => { mo with armed := true, phys := p, start := start }) s
  if condHolds (bits cfg.toNat 23 20) (objOf t p).value (BitVec.ofNat 32 (bits cfg.toNat 63 32)) then fireMonitor c m cOk t else t

section
variable {c m : Nat} {v cfg : W64} {s s1 s2 : State} {code : W16}
  (config : cfg = v &&& BitVec.ofNat 64 (2 ^ 64 - 1 - 2 ^ 25)) (index : m = (winOf s c).monIndex.toNat)
  (disarmed : s1 = mMon c m (fun mo => { mo with cfg := cfg, armed := false }) s)
include config index disarmed

theorem monitorArm_disarms (off : v.getLsbD 25 = false) : monitorArm c v s = s1 := by
  simp only [monitorArm, ← config, ← index, ← disarmed, off, Bool.not_false, if_true]

variable (on : v.getLsbD 25 = true) (check : code = armCode s1 c cfg.toNat (monOf s1 c m).target.toNat)
  (recorded : s2 = mMon c m (fun mo => { mo with code := code }) s1)
include on check recorded

/-- A check that fails, other than that of the object, leaves its code with the monitor alone. -/
theorem monitorArm_refused (failed : code ≠ cOk) (mapped : code ≠ cSyncIdUnmapped) : monitorArm c v s = s2 := by
  simp only [monitorArm, ← config, ← index, ← disarmed, on, ← check, ← recorded, bne_iff_ne.2 failed, mapped, Bool.not_true,
    Bool.false_eq_true, if_false, if_true]

theorem monitorArm_arms (passed : code = cOk) {p : Nat} {w : Bool}
    (object : Sys2Proof.Machine.translate s2 c (bits cfg.toNat 19 0) = some (p, w)) :
    monitorArm c v s = monitorArmed c m cfg p s.tick s2 := by
  simp only [monitorArm, ← config, ← index, ← disarmed, on, ← check, ← recorded, bne_eq_false_iff_eq.2 passed, object, Bool.not_true,
    Bool.false_eq_true, if_false, monitorArmed]
end

/-! ### Timeouts (11 R343; 01 R36) -/

theorem exec_syncTimeout (w : Waiter) (s : State) : exec (.syncTimeout w) s = .next (syncTimeout w none s) := rfl

theorem waitOf_ring {r : Fin 256} {s : State} {p start : Nat} (waiting : (ringOf s r.val).headState = .wait p start) :
    waitOf s (.ring r) = some (p, start, timeoutCode s p) := by
  simp only [waitOf, waiting]

theorem waitOf_monitor {c m : Fin 64} {s : State} (armed : (monOf s c.val m.val).armed = true) : waitOf s (.monitor c m) =
    some ((monOf s c.val m.val).phys, (monOf s c.val m.val).start, timeoutCode s (monOf s c.val m.val).phys) := by
  simp only [waitOf, armed, if_true]

section
variable {w : Waiter} {s : State} {p start : Nat} {code : W16} (waits : waitOf s w = some (p, start, code))
  (live : s.rru.run = false) (late : classTicks s p ≤ s.tick - start)
include waits live late

theorem syncTimeout_releases (on : ctlOn s = true) : syncTimeout w none s = releaseWaiter w code s := by
  simp only [syncTimeout, waits, timerOut_live live, late, on, decide_true, Bool.not_true, Option.isSome_none, Bool.false_eq_true,
    if_false, if_true]

/-- While the clocks are gated the first expiry is noted and asks for the wake. -/
theorem syncTimeout_noted (gated : ctlOn s = false) (first : s.syn.expired = []) :
    syncTimeout w none s = wakeBy 6 (mSyn (fun y => { y with expired := [(w, code)] }) s) := by
  simp only [syncTimeout, waits, timerOut_live live, late, gated, first, decide_true, Bool.not_true, Option.isSome_none, List.any_nil,
    Bool.false_eq_true, if_false, mSyn, List.nil_append]
end

theorem releaseWaiter_ring {r : Fin 256} {s : State} {p start : Nat} {c0 : W16} (waits : waitOf s (.ring r) = some (p, start, c0))
    (code : W16) : releaseWaiter (.ring r) code s = headDone r.val code 0 (countTimeout p code s) := by
  simp only [releaseWaiter, waits]

theorem releaseWaiter_monitor {c m : Fin 64} {s : State} {p start : Nat} {c0 : W16}
    (waits : waitOf s (.monitor c m) = some (p, start, c0)) (code : W16) :
    releaseWaiter (.monitor c m) code s = fireMonitor c.val m.val code (countTimeout p code s) := by
  simp only [releaseWaiter, waits]

/-- Settles O54: a segment by its range and its objects, a monitor by its checks, and a timeout by its waiter and the clock. -/
theorem segmentsMonitorsAndTimeouts : Obligations.SegmentsMonitorsAndTimeouts := by
  refine ⟨fun v0 v s i on word index => ⟨fun bad => ?_, fun good enabled disabled => ⟨fun t allowed => ?_, fun busy => ?_⟩⟩,
    fun ctx v cfg s s1 s2 m code on config index disarmed check recorded => ⟨fun off => ?_, fun arm failed mapped => ?_,
      fun p w s3 arm passed object armed => ?_⟩,
    fun r s p start waiting live late => ⟨fun on => ?_, fun gated first => ?_⟩,
    fun c m s mo monitor armed live on late => ?_, fun ctx v s gated => ⟨?_, ?_⟩⟩
  · rw [exec_segmentWrite, if_pos on, segmentWrite_bad word bad]
  · rw [exec_segmentWrite, if_pos on, segmentWrite_enables word index good enabled disabled, allowed]
    rfl
  · rw [exec_segmentWrite, if_pos on, segmentWrite_enables word index good enabled disabled, busy]
    rfl
  · rw [exec_monitorArm, if_pos on, monitorArm_disarms config index disarmed off]
  · rw [exec_monitorArm, if_pos on, monitorArm_refused config index disarmed arm check recorded failed mapped]
  · rw [exec_monitorArm, if_pos on, monitorArm_arms config index disarmed arm check recorded passed object, armed]
    rfl
  · have waits := waitOf_ring waiting
    rw [exec_syncTimeout, syncTimeout_releases waits live late on, releaseWaiter_ring waits]
  · rw [exec_syncTimeout, syncTimeout_noted (waitOf_ring waiting) live late gated first]
    rfl
  · subst monitor
    have waits := waitOf_monitor armed
    rw [exec_syncTimeout, syncTimeout_releases waits live late on, releaseWaiter_monitor waits]
  · rw [exec_segmentWrite, if_neg (Bool.eq_false_iff.1 gated)]
  · rw [exec_monitorArm, if_neg (Bool.eq_false_iff.1 gated)]

end Sys2Proof.Proofs

namespace Sys2Proof.Proofs

open Sys2Proof.Machine Sys2Proof.Safety Sys2Proof.Laws

/-! ### Pre-emption (11 R344, R345) -/

theorem exec_preempt (v : W32) (s : State) :
    exec (.preempt v) s = .next (if fabricOn s then preempt v s else holdAccess 5 (.preempt v) s) := rfl

theorem exec_resume (v : W32) (s : State) :
    exec (.resume v) s = .next (if fabricOn s then resume v s else holdAccess 5 (.resume v) s) := rfl

section
variable {v : W32}

theorem preempt_requested (s : State) (request : v.getLsbD 8 = true) : preempt v s =
    orphanAll (bits v.toNat 5 0) (mSyn (fun y => { y with preempted := y.preempted ||| (1#64 <<< bits v.toNat 5 0) }) s) :=
  if_pos request

theorem preempt_other (s : State) (other : v.getLsbD 8 = false) : preempt v s = s := if_neg (Bool.eq_false_iff.1 other)

theorem resume_requested (s : State) (request : v.getLsbD 9 = true) : resume v s =
    mSyn (fun y =>
      { y with
        preempted := y.preempted &&& ~~~(1#64 <<< bits v.toNat 5 0),
        objects := Sparse.mapAll {} y.objects fun _ o =>
          if o.ctx.toNat = bits v.toNat 5 0 && o.st = .orphaned && !o.rewritten then { o with st := .live } else o }) s :=
  if_pos request

theorem resume_other (s : State) (other : v.getLsbD 9 = false) : resume v s = s := if_neg (Bool.eq_false_iff.1 other)
end

/-- Settles O55: a write by the bit that makes it a request, while the store's clock runs and while it is gated. -/
theorem contextsArePreempted : Obligations.ContextsArePreempted := by
  refine ⟨fun v s on request => ?_, fun v s on request => ?_, fun v s on noPreempt noResume => ⟨?_, ?_⟩,
    fun v s gated => ⟨?_, ?_⟩⟩
  · rw [exec_preempt, if_pos on, preempt_requested s request, orphanAll]
    rfl
  · rw [exec_resume, if_pos on, resume_requested s request]
    rfl
  · rw [exec_preempt, if_pos on, preempt_other s noPreempt]
  · rw [exec_resume, if_pos on, resume_other s noResume]
  · rw [exec_preempt, if_neg (Bool.eq_false_iff.1 gated)]
  · rw [exec_resume, if_neg (Bool.eq_false_iff.1 gated)]

/-! ### Signals (11 R346 to R348) -/

theorem exec_signal (s : State) : exec .signal s = .next (if fabricOn s then signal s else s) := rfl

theorem exec_remoteSignalComplete (r : Fin 256) (s : State) :
    exec (.remoteSignalComplete r) s = .next (if ctlOn s then remoteSignalComplete r.val s else s) := rfl

/-- Hold a signal until its fence's bytes have landed. -/
def fenceSignal (f : Fenced) (s : State) : State := mSyn (fun y => { y with fenced := y.fenced ++ [f] }) s

/-- Drop a signal that finds the pending table full, with its count and its vector. -/
def dropSignal (s : State) : State :=
  raiseVec 256 (bump pgSyn (·.syn.fenceDrops) (fun v => mSyn fun y => { y with fenceDrops := v }) 1 s)

/-- The signal that a message of a packet carries. -/
def signalOf (s : State) (k : Packet) (b : Band) (obj need source : Nat) (set : Bool) (value : W32) : Fenced :=
  { gsid := k.session, need := need, ctx := b.ctx, obj := obj, set := set, value := value, source := source,
    chip := s.rtr.toLogical k.src }

section
variable {s s1 : State} {k : Packet} {b : Band} {obj need source : Nat} {set : Bool} {value : W32}
  (taken : takeBand 0x01 s = some (k, b, s1)) (msg : b.msg = .signal obj set value need source)
include taken msg

theorem signal_taken : signal s =
    if need = 0 then applySignal (signalOf s k b obj need source set value) s1
    else if gsidHeld s1 k.session then
      if need ≤ landedOf s1 k.session then applySignal (signalOf s k b obj need source set value) s1
      else fenceSignal (signalOf s k b obj need source set value) s1
    else if 256 ≤ fencePending s1 then dropSignal s1
    else fenceSignal (signalOf s k b obj need source set value) s1 := by
  simp only [signal, taken, msg, ge_iff_le, signalOf, fenceSignal, dropSignal]

theorem signal_unfenced (unfenced : need = 0) : signal s = applySignal (signalOf s k b obj need source set value) s1 := by
  rw [signal_taken taken msg, if_pos unfenced]

variable (fence : need ≠ 0)
include fence

theorem signal_held (held : gsidHeld s1 k.session = true) : signal s =
    if need ≤ landedOf s1 k.session then applySignal (signalOf s k b obj need source set value) s1
    else fenceSignal (signalOf s k b obj need source set value) s1 := by
  rw [signal_taken taken msg, if_neg fence, if_pos held]

theorem signal_notHeld (unheld : gsidHeld s1 k.session = false) : signal s =
    if 256 ≤ fencePending s1 then dropSignal s1 else fenceSignal (signalOf s k b obj need source set value) s1 := by
  rw [signal_taken taken msg, if_neg fence, if_neg (Bool.eq_false_iff.1 unheld)]
end

theorem remoteSignalComplete_placed {r : Nat} {s : State} (remote : (ringOf s r).headState = .remote)
    (placed : signalWaiting s r = false) : remoteSignalComplete r s = headDone r cOk 0 s :=
  if_pos (by rw [decide_eq_true remote, placed]; rfl)

/-! ### Combination (11 R353, R356; 12 R371) -/

theorem exec_arrive (s : State) : exec .arrive s = .next (if fabricOn s then arrive s else s) := rfl

theorem exec_release (s : State) : exec .release s = .next (if fabricOn s then release s else s) := rfl

theorem exec_crownTimeout (chan : Fin 64) (s : State) :
    exec (.crownTimeout chan) s = .next (if fabricOn s then crownTimeout chan.val false s else s) := rfl

theorem arrive_taken {s s1 : State} {k : Packet} {b : Band} {a : Arrival} (taken : takeBand 0x02 s = some (k, b, s1))
    (msg : b.msg = .arrive a) : arrive s = takeArrival k.inport b.ctx b.step a s1 := by
  simp only [arrive, taken, msg]

theorem release_taken {s s1 : State} {k : Packet} {b : Band} {a : Arrival} (taken : takeBand 0x03 s = some (k, b, s1))
    (msg : b.msg = .release a) : release s = takeRelease b.ctx b.step a s1 := by
  simp only [release, taken, msg]

theorem crownTimeout_due {c : Nat} {s : State} {e : Combine} {forced : Bool} (due : crownDue s c forced = some e) :
    crownTimeout c forced s = crownRelease e true (choice 5 0 0 (putEntry { e with sent := true } s)) := by
  simp only [crownTimeout, due]

/-- Settles O56: a signal by its fence, its session and the room for it, and each other message by the one that it takes. -/
theorem bandMessagesAct : Obligations.BandMessagesAct := by
  refine ⟨fun s s1 k b obj need source set value f on taken msg carried => ?_, fun s s1 k b a on taken msg => ?_,
    fun s s1 k b a on taken msg => ?_, fun chan s e on due => ?_, fun r s on remote placed => ?_⟩
  · rw [exec_signal, if_pos on, carried]
    refine ⟨fun unfenced => ?_, fun fence held landed => ?_, fun fence held missing => ?_, fun fence unheld room => ?_,
      fun fence unheld full => ?_⟩
    · rw [signal_unfenced taken msg unfenced, signalOf]
    · rw [signal_held taken msg fence held, if_pos landed, signalOf]
    · rw [signal_held taken msg fence held, if_neg (Nat.not_le.2 missing)]
      rfl
    · rw [signal_notHeld taken msg fence unheld, if_neg (Nat.not_le.2 room)]
      rfl
    · rw [signal_notHeld taken msg fence unheld, if_pos full, dropSignal]
  · rw [exec_arrive, if_pos on, arrive_taken taken msg]
  · rw [exec_release, if_pos on, release_taken taken msg]
  · rw [exec_crownTimeout, if_pos on, crownTimeout_due due]
  · rw [exec_remoteSignalComplete, if_pos on, remoteSignalComplete_placed remote placed]

end Sys2Proof.Proofs

namespace Sys2Proof.Proofs

open Sys2Proof.Machine Sys2Proof.Safety Sys2Proof.Laws

/-! ### Capture control (12 R377 to R379, R387; 02 R54) -/

theorem exec_captureModeWrite (v : W32) (s : State) :
    exec (.captureModeWrite v) s = .next (if ctlOn s then capCtlWrite v s else holdAccess 5 (.captureModeWrite v) s) := rfl

theorem exec_captureFreeze (s : State) :
    exec .captureFreeze s = .next (if ctlOn s then freezeCapture 0 s else holdAccess 5 .captureFreeze s) := rfl

theorem exec_gapRecord (s : State) : exec .gapRecord s = .next (if ctlOn s then gapRecord s else s) := rfl

/-- The mode that a write of CAP_CTL sets: 3 is taken as 2 (R387). -/
def capModeOf (v : W32) : BitVec 2 := if v.extractLsb' 0 2 = 3 then 2 else v.extractLsb' 0 2

theorem capModeOf_eq_zero (v : W32) : capModeOf v = 0 ↔ v.extractLsb' 0 2 = 0 := by
  unfold capModeOf
  split
  case isTrue three => simp [three]
  case isFalse => rfl

/-- The fields of CAP_CTL that a write sets. -/
def capFieldsSet (v : W32) (s : State) : State :=
  mRru (fun r => { r with mode := capModeOf v, mirrorPay := v.getLsbD 2, trigMask := v.extractLsb' 16 12 }) s

/-- A capture that starts, before its step header. -/
def captureBegun (s : State) : State :=
  mRru (fun r =>
    { r with
      active := true, frozen := false, hdrWrite := 0, payWrite := 0, hdrWrapped := false, payWrapped := false,
      lostHdr := 0, lostPay := 0 }) s

/-- What a write of CAP_CTL does before its FREEZE bit acts. -/
def capModeSet (v : W32) (s : State) : State :=
  if capModeOf v = 0 then mRru (fun r => { r with active := false }) (capFieldsSet v s)
  else if s.rru.mode = 0 then stepHeader (captureBegun (capFieldsSet v s))
  else capFieldsSet v s

theorem capCtlWrite_eq (v : W32) (s : State) :
    capCtlWrite v s = if v.getLsbD 4 then freezeCapture 0 (capModeSet v s) else capModeSet v s := rfl

section
variable {v : W32}

theorem capModeSet_off (s : State) (off : v.extractLsb' 0 2 = 0) :
    capModeSet v s = mRru (fun r => { r with active := false }) (capFieldsSet v s) :=
  if_pos ((capModeOf_eq_zero v).2 off)

variable {s : State} (mode : v.extractLsb' 0 2 ≠ 0)
include mode

theorem capModeSet_kept (was : s.rru.mode ≠ 0) : capModeSet v s = capFieldsSet v s := by
  rw [capModeSet, if_neg (mt (capModeOf_eq_zero v).1 mode), if_neg was]

theorem capModeSet_started (was : s.rru.mode = 0) : capModeSet v s = stepHeader (captureBegun (capFieldsSet v s)) := by
  rw [capModeSet, if_neg (mt (capModeOf_eq_zero v).1 mode), if_pos was]
end

theorem freezeCapture_running {code : W16} {s : State} (active : s.rru.active = true) (live : s.rru.frozen = false) :
    freezeCapture code s = mRru (fun r => { r with frozen := true, active := false })
      (if empReady s then hdrRecord s.ccc.toNat 7 15 0 none (leBytes 2 code.toNat) s else s) :=
  if_neg (by simp [active, live])

theorem freezeCapture_stopped {code : W16} {s : State} (stopped : s.rru.active = false ∨ s.rru.frozen = true) :
    freezeCapture code s = s :=
  if_pos (by simpa using stopped)

theorem gapRecord_written {s : State} (running : capturing s = true) (lost : s.rru.lostHdr + s.rru.lostPay ≠ 0)
    (room : capHdrRoom s = true) :
    gapRecord s = mRru (fun r => { r with lostHdr := 0, lostPay := 0 })
      (hdrPaid s.ccc.toNat 6 15 0 none (leBytes 4 s.rru.lostHdr ++ leBytes 4 s.rru.lostPay) s) :=
  if_neg (by simpa [running, room] using lost)

/-- Settles O57: a write of CAP_CTL by the mode that it gives and the mode that was set, a freeze by whether capture runs. -/
theorem captureIsControlled : Obligations.CaptureIsControlled := by
  refine ⟨fun v s t on => ⟨fun off set => ?_, fun mode was set => ?_, fun mode was set => ?_⟩,
    fun s u on active live record => ?_, fun s on stopped => ?_, fun s u on running lost room record => ?_,
    fun v s gated => ⟨?_, ?_⟩⟩
  · have fields : capModeSet v s = t := by
      rw [capModeSet_off s off, capFieldsSet, (capModeOf_eq_zero v).2 off, set]
      rfl
    rw [exec_captureModeWrite, if_pos on, capCtlWrite_eq, fields]
  · rw [exec_captureModeWrite, if_pos on, capCtlWrite_eq, capModeSet_kept mode was, set]
    rfl
  · rw [exec_captureModeWrite, if_pos on, capCtlWrite_eq, capModeSet_started mode was, set]
    rfl
  · rw [exec_captureFreeze, if_pos on, freezeCapture_running active live, record]
    rfl
  · rw [exec_captureFreeze, if_pos on, freezeCapture_stopped stopped]
  · rw [exec_gapRecord, if_pos on, gapRecord_written running lost room, ← record]
    rfl
  · rw [exec_captureModeWrite, if_neg (Bool.eq_false_iff.1 gated)]
  · rw [exec_captureFreeze, if_neg (Bool.eq_false_iff.1 gated)]

/-! ### The start and the stop of a replay (12 R380, R384; 02 R54) -/

theorem exec_replayGo (s : State) :
    exec .replayGo s = .next (if ctlOn s then replayGo s else holdAccess 5 .replayGo s) := rfl

theorem exec_replayStop (s : State) :
    exec .replayStop s = .next (if ctlOn s then replayStop s else holdAccess 5 .replayStop s) := rfl

/-- A replay that starts at record n: time counts from that record's, and every port's next record is looked for after it. -/
def replayBegun (n : Nat) (s : State) : State :=
  mRru (fun r =>
    { r with
      run := true, goCcc := s.ccc, t0 := BitVec.ofNat 64 (recCcc (recordAt s n)), commits := 0,
      next := (List.range 16).foldl (fun m p => Sparse.set 0 m p (BitVec.ofNat 64 (n + 1))) [],
      digestPos := BitVec.ofNat 64 (n + 1) }) s

theorem replayGo_ready {s : State} (ready : replayReady s = true) : replayGo s = replayBegun s.rru.replayStart.toNat s :=
  if_neg (by simp [ready])

theorem replayGo_refused {s : State} (unready : replayReady s = false) : replayGo s = pageErr pgRru cConfigInvalid s :=
  if_pos (by simp [unready])

theorem replayStop_running {s : State} (run : s.rru.run = true) : replayStop s = endReplay 4 s := if_pos run

theorem replayStop_idle {s : State} (idle : s.rru.run = false) : replayStop s = s := if_neg (Bool.eq_false_iff.1 idle)

/-! ### Delivered records and forced choices (12 R382 to R384) -/

theorem exec_replayDelivery (port : Fin 10) (s : State) :
    exec (.replayDelivery port) s = .next (if ctlOn s then replayDelivery port.val s else s) := rfl

theorem exec_replayForcedChoice (n : Nat) (s : State) :
    exec (.replayForcedChoice n) s = .next (if ctlOn s then replayForcedChoice n s else s) := rfl

/-- The cycle in which a replay's record n is due: the cycle of GO, plus its time since the starting header's (R382). -/
def recordDue (s : State) (n : Nat) : Nat := s.rru.goCcc.toNat + (recCcc (recordAt s n) - s.rru.t0.toNat)

/-- Record n at the router input of port p, with its lateness counted and the port's next record after it. -/
def recordDelivered (p n : Nat) (s : State) : State :=
  mRru (fun r => { r with next := Sparse.set 0 r.next p (BitVec.ofNat 64 (n + 1)) })
    (bump pgRru (·.rru.slip) (fun v => mRru fun r => { r with slip := v }) (s.ccc.toNat - recordDue s n)
      (mRtr (fun t => { t with inputs := Sparse.modify [] t.inputs p (· ++ [recordPacket s (recordAt s n)]) }) s))

section
variable {s : State} {n : Nat} (run : s.rru.run = true) (due : recordDue s n ≤ s.ccc.toNat)
include run due

section
variable {p : Nat} (next : recordFrom s (isPacketOf p) (portNext s p) = some n) (inSpan : n < (spanEnd s).1)
include next inSpan

theorem replayDelivery_due : replayDelivery p s =
    if recKind (recordAt s n) = 1 ∧ recPay (recordAt s n) = false then endReplay 2 s
    else if replayAccepts s (recordPacket s (recordAt s n)) then closeSpan (recordDelivered p n s)
    else s := by
  have noEnd : ¬(spanEnd s).1 ≤ n := Nat.not_le.2 inSpan
  have noWait : ¬s.ccc.toNat < s.rru.goCcc.toNat + (recCcc (recordAt s n) - s.rru.t0.toNat) := Nat.not_lt.2 due
  simp only [replayDelivery, run, next, noEnd, noWait, if_false, Bool.not_true, Bool.false_eq_true, Bool.and_eq_true,
    decide_eq_true_eq, Bool.not_eq_true', ite_not, recordDelivered, recordDue, ← Bool.not_eq_true]

theorem replayDelivery_delivers (whole : ¬(recKind (recordAt s n) = 1 ∧ recPay (recordAt s n) = false))
    (accepted : replayAccepts s (recordPacket s (recordAt s n)) = true) :
    replayDelivery p s = closeSpan (recordDelivered p n s) := by
  rw [replayDelivery_due run due next inSpan, if_neg whole, if_pos accepted]

theorem replayDelivery_noPayload (bulk : recKind (recordAt s n) = 1) (bare : recPay (recordAt s n) = false) :
    replayDelivery p s = endReplay 2 s := by
  rw [replayDelivery_due run due next inSpan, if_pos ⟨bulk, bare⟩]
end

theorem replayForcedChoice_applied {t : State} (next : recordFrom s isForced (portNext s 15) = some n)
    (applied : applyForced (recordAt s n) s = some t) :
    replayForcedChoice n s = mRru (fun q => { q with next := Sparse.set 0 q.next 15 (BitVec.ofNat 64 (n + 1)) }) t := by
  have noWait : ¬s.ccc.toNat < s.rru.goCcc.toNat + (recCcc (recordAt s n) - s.rru.t0.toNat) := Nat.not_lt.2 due
  simp only [replayForcedChoice, run, next, applied, noWait, bne_self_eq_false, Bool.not_true, Bool.or_self,
    Bool.false_eq_true, if_false]
end

/-- Settles O58: a start by what must hold before it, a stop by whether a replay runs, a delivery by whether the record has the
payload that it needs, and the choice that exists. -/
theorem replaysRun : Obligations.ReplaysRun := by
  refine ⟨fun s on ready => ?_, fun s on unready => ?_, fun s on => ⟨fun run => ?_, fun idle => ?_⟩,
    fun port s n on run next inSpan due => ⟨fun whole accepted => ?_, fun bulk bare => ?_⟩,
    fun n s t on run next due applied => ?_, fun s gated => ⟨?_, ?_⟩⟩
  · rw [exec_replayGo, if_pos on, replayGo_ready ready]
    rfl
  · rw [exec_replayGo, if_pos on, replayGo_refused unready]
  · rw [exec_replayStop, if_pos on, replayStop_running run]
    rfl
  · rw [exec_replayStop, if_pos on, replayStop_idle idle]
  · rw [exec_replayDelivery, if_pos on, replayDelivery_delivers run due next inSpan whole accepted]
    rfl
  · rw [exec_replayDelivery, if_pos on, replayDelivery_noPayload run due next inSpan bulk bare]
    rfl
  · rw [exec_replayForcedChoice, if_pos on, replayForcedChoice_applied run due next applied]
    rfl
  · rw [exec_replayGo, if_neg (Bool.eq_false_iff.1 gated)]
  · rw [exec_replayStop, if_neg (Bool.eq_false_iff.1 gated)]

end Sys2Proof.Proofs

namespace Sys2Proof.Proofs

open Sys2Proof.Machine Sys2Proof.Safety Sys2Proof.Laws

/-! ### The frame of the commands (15 R448; 16 R473) -/

/-- A command that may store to memory may change the memory port as well. -/
theorem emp_touched_of_mem {c : Instr} (stores : .mem ∈ touches c) : .emp ∈ touches c := by
  have both : (!(touches c).elem .mem || (touches c).elem .emp) = true := by cases c <;> rfl
  rw [List.elem_eq_true_of_mem stores, Bool.not_true, Bool.false_or] at both
  exact List.mem_of_elem_eq_true both

/-- Settles O7: a part outside the frame depends on no part inside it, and where the command may store, memory and its port are
inside. -/
theorem commandsTouchOnlyTheirParts : Obligations.CommandsTouchOnlyTheirParts := by
  intro c s t g h untouched
  have outside : (partsMask ((touches c).filter (· ≠ .mem))).testBit g.idx = false := by
    rw [testBit_partsMask]
    exact decide_eq_false fun listed => untouched (List.mem_filter.1 listed).1
  refine exec_keeps c (keeps_unchanged s g outside) (fun stores => stores_unchanged s g ?_ ?_) (unchanged_refl g s) h
  · exact fun isMem => untouched (isMem ▸ stores)
  · exact fun isEmp => untouched (isEmp ▸ emp_touched_of_mem stores)

/-! ### The sequencer's image (15 R451, R459; 02 R54) -/

theorem exec_ucodeDataWrite (v : W32) (s : State) :
    exec (.ucodeDataWrite v) s = .next (if ctlOn s then ucodeDataWrite v s else holdAccess 5 (.ucodeDataWrite v) s) := rfl

theorem exec_csqStart (v : W32) (s : State) :
    exec (.csqStart v) s = .next (if ctlOn s then csqStart v s else holdAccess 5 (.csqStart v) s) := rfl

theorem exec_microcodeCheckDone (s : State) :
    exec .microcodeCheckDone s = .next (if ctlOn s then microcodeCheckDone s else s) := rfl

section
variable {s : State}

theorem ucodeDataWrite_locked (v : W32) (locked : ucodeLocked s = true) :
    ucodeDataWrite v s = pageErr pgCtl cConfigInvalid s := if_pos locked

theorem ucodeDataWrite_open (v : W32) (unlocked : ucodeLocked s = false) : ucodeDataWrite v s = { s with ctl :=
    { s.ctl with ucode := Sparse.set 0 s.ctl.ucode s.ctl.ucodeAddr.toNat v, ucodeAddr := s.ctl.ucodeAddr + 1 } } :=
  if_neg (Bool.eq_false_iff.1 unlocked)

/-- CSQ_START writes START as 1, whatever the word's own bit 31. -/
theorem startBit_set (v : W32) : (v ||| 0x80000000).getLsbD 31 = true := by
  rw [BitVec.getLsbD_or]
  exact Bool.or_true _

theorem csqStart_open (v : W32) (unlocked : ucodeLocked s = false) (live : s.ctl.halted = false) :
    csqStart v s = { s with ctl :=
      { s.ctl with
        csqLen := (v ||| 0x80000000).extractLsb' 0 17,
        crcCheck := some (imageCrc s (if (v ||| 0x80000000).extractLsb' 0 17 = 0 then 65536
          else ((v ||| 0x80000000).extractLsb' 0 17).toNat)) } } := by
  have starts : ¬(!(v ||| 0x80000000).getLsbD 31) = true := by rw [startBit_set]; exact Bool.false_ne_true
  have taken : ¬(ucodeLocked s || s.ctl.halted) = true := by rw [unlocked, live]; exact Bool.false_ne_true
  exact (if_neg starts).trans (if_neg taken)

theorem microcodeCheckDone_matches (crc : s.ctl.crcCheck = some s.ctl.ucodeCrc) {s2 : State} (started : s2 = { s with ctl :=
      { s.ctl with crcCheck := none, run := true, restarting := false, issueStopped := s.flt.ctlLost, wdogCount := 0 } }) :
    microcodeCheckDone s = sendMbx 0x01 [1, csqStatus s2, 0x14301] s2 := by
  subst started
  simp only [microcodeCheckDone, crc, if_true]
  rfl

theorem microcodeCheckDone_differs {c : W32} (crc : s.ctl.crcCheck = some c) (differs : c ≠ s.ctl.ucodeCrc) :
    microcodeCheckDone s = pageErr pgCtl cConfigInvalid { s with ctl := { s.ctl with crcCheck := none } } := by
  simp only [microcodeCheckDone, crc, differs, if_false]
  rfl

/-- The CMC writes a register of page CTL at a word above its header. -/
theorem busWrite_ctlWord {a : Nat} {t : State} (v : W32) (header : 0x20 ≤ a) (page : a < 0x1000)
    (narrow : wide s 0 (a / 8 * 8) = none) (written : writeNarrow s 0 a v = some t) : busWrite .cmc a v s = (false, t) := by
  have below : a < 0x800000 := by omega
  have first : a / 0x1000 = 0 := by omega
  have offset : a % 0x1000 = a := by omega
  have valid : ¬0 > 18 := by omega
  simp only [busWrite, below, if_true, writePage, first, offset, valid, if_false, Nat.not_lt.2 header, narrow, written]

theorem accessOn_ctlWord {a : Nat} (page : a < 0x1000) (notTiming : a ≠ 0x58) : accessOn .cmc a s = ctlOn s := by
  have below : a < 0x800000 := by omega
  have first : a / 0x1000 = 0 := by omega
  have notCapture : ¬0xF028 ≤ a := by omega
  simp only [accessOn, below, if_true, first, notTiming, notCapture, decide_false, Bool.false_and, Bool.or_self,
    Bool.false_eq_true, if_false]
  rfl

theorem guarded_ctl (p : Nat) (ok : Bool) (f : State → State) (s : State) :
    (guarded p ok f s).ctl = if ok then (f s).ctl else s.ctl := by
  cases ok
  · exact pageErr_ctl s p cConfigInvalid
  · rfl
end

/-- Settles O18: an image word and a start by whether the image may change, the check's end by the CRC found, and the two
registers that the CMC writes over the bus. -/
theorem sequencerImageIsLoaded : Obligations.SequencerImageIsLoaded := by
  refine ⟨fun v s on unlocked => ?_, fun v s on locked => ?_, fun v s on unlocked live => ?_, fun s on crc => ⟨_, rfl, ?_⟩,
    fun s c on crc differs => ?_, fun v s on => ?_, fun v s on => ?_, fun v s gated => ⟨?_, ?_⟩⟩
  · rw [exec_ucodeDataWrite, if_pos on, ucodeDataWrite_open v unlocked]
  · rw [exec_ucodeDataWrite, if_pos on, ucodeDataWrite_locked v locked]
  · rw [exec_csqStart, if_pos on, csqStart_open v unlocked live]
  · rw [exec_microcodeCheckDone, if_pos on, microcodeCheckDone_matches crc rfl]
  · rw [exec_microcodeCheckDone, if_pos on, microcodeCheckDone_differs crc differs]
  · have running : accessOn .cmc 0x60 s = true := (accessOn_ctlWord (by decide) (by decide)).trans on
    refine ⟨_, exec_configWrite_on v rfl running, ?_⟩
    rw [busWrite_ctlWord v (by decide) (by decide) rfl rfl, mDbg_ctl, guarded_ctl]
    cases ucodeLocked s <;> rfl
  · have running : accessOn .cmc 0x68 s = true := (accessOn_ctlWord (by decide) (by decide)).trans on
    refine ⟨_, exec_configWrite_on v rfl running, ?_⟩
    rw [busWrite_ctlWord v (by decide) (by decide) rfl rfl]
    rfl
  · rw [exec_ucodeDataWrite, if_neg (Bool.eq_false_iff.1 gated)]
  · rw [exec_csqStart, if_neg (Bool.eq_false_iff.1 gated)]

end Sys2Proof.Proofs

namespace Sys2Proof.Proofs

open Sys2Proof.Machine Sys2Proof.Safety Sys2Proof.Laws

/-! ### The mailbox's doorbells (16 R492) -/

theorem exec_mbxInDoorbell (v : W32) (s : State) : exec (.mbxInDoorbell v) s = .next (mbxInDoorbell v s) := rfl

theorem exec_mbxOutDbClear (v : W32) (s : State) : exec (.mbxOutDbClear v) s = .next (mbxOutDbClear v s) := rfl

section
variable {v : W32} {s : State}

theorem mbxInDoorbell_sent (sends : v.getLsbD 0 = true) (empty : s.pwr.inFull = false) :
    mbxInDoorbell v s = { s with pwr := { s.pwr with inFull := true } } := by
  unfold mbxInDoorbell
  rw [sends, empty]
  rfl

theorem mbxInDoorbell_ignored (ignored : v.getLsbD 0 = false ∨ s.pwr.inFull = true) : mbxInDoorbell v s = s :=
  if_neg (Bool.eq_false_iff.1 (and_not_eq_false ignored))

theorem mbxOutDbClear_one (one : v.getLsbD 0 = true) : mbxOutDbClear v s = { s with pwr := { s.pwr with outFull := false } } :=
  if_pos one

theorem mbxOutDbClear_zero (zero : v.getLsbD 0 = false) : mbxOutDbClear v s = s := if_neg (Bool.eq_false_iff.1 zero)
end

/-! ### The header of a page (16 R466 to R470; 02 R54) -/

section
variable (page : Fin 19) (v : W32) (s : State)

theorem exec_pageErrClear : exec (.pageErrClear page v) s =
    .next (if pageOn s page.val then pageErrClear page.val v s else holdAccess 5 (.pageErrClear page v) s) := rfl

theorem exec_pageIrqClear : exec (.pageIrqClear page v) s =
    .next (if pageOn s page.val then pageIrqClear page.val v s else holdAccess 5 (.pageIrqClear page v) s) := rfl

theorem exec_pageIrqMaskWrite : exec (.pageIrqMaskWrite page v) s =
    .next (if pageOn s page.val then pageIrqMaskWrite page.val v s else holdAccess 5 (.pageIrqMaskWrite page v) s) := rfl
end

section
variable {p : Nat} {v : W32} {s : State}

theorem pageErrClear_one (one : v.getLsbD 31 = true) :
    pageErrClear p v s = mHdr p (fun h => { h with code := 0, count := 0 }) s := if_pos one

theorem pageErrClear_zero (zero : v.getLsbD 31 = false) : pageErrClear p v s = s := if_neg (Bool.eq_false_iff.1 zero)

/-- The mask bits of a page, written. -/
def pageMasked (p : Nat) (v : W32) (s : State) : State :=
  mHdr p (fun h => { h with maskErr := v.getLsbD 0, maskSat := v.getLsbD 1 }) s

theorem and_and_not_eq_false {a b c : Bool} (h : a = false ∨ b = false ∨ c = true) : (a && b && !c) = false := by
  obtain rfl | rfl | rfl := h
  · rfl
  · rw [Bool.and_false, Bool.false_and]
  · exact Bool.and_false _

/-- A bit that is set becomes unmasked. -/
theorem pageIrqMaskWrite_unmasks
    (unmasks : ((hdrOf s p).irqErr = true ∧ (hdrOf s p).maskErr = true ∧ v.getLsbD 0 = false) ∨
      ((hdrOf s p).irqSat = true ∧ (hdrOf s p).maskSat = true ∧ v.getLsbD 1 = false)) :
    pageIrqMaskWrite p v s = raiseVec (pageVec p) (pageMasked p v s) :=
  if_pos (by simpa only [Bool.or_eq_true, Bool.and_eq_true, Bool.not_eq_true', and_assoc] using unmasks)

theorem pageIrqMaskWrite_quiet
    (err : (hdrOf s p).irqErr = false ∨ (hdrOf s p).maskErr = false ∨ v.getLsbD 0 = true)
    (sat : (hdrOf s p).irqSat = false ∨ (hdrOf s p).maskSat = false ∨ v.getLsbD 1 = true) :
    pageIrqMaskWrite p v s = pageMasked p v s :=
  if_neg (by rw [and_and_not_eq_false err, and_and_not_eq_false sat]; exact Bool.false_ne_true)

theorem pageDomain_lt : pageDomain p < 8 := by
  unfold pageDomain
  split
  · decide
  · split <;> decide

/-- PAGE_STATUS: DOMAIN below bit 3, ERR_PENDING at it. -/
theorem pageStatus_domain : pageStatus s p % 8 = pageDomain p := by
  rw [pageStatus, Nat.add_mul_mod_self_left, Nat.mod_eq_of_lt pageDomain_lt]

theorem pageStatus_pending : pageStatus s p / 8 = if (hdrOf s p).count = 0 then 0 else 1 := by
  rw [pageStatus, Nat.add_mul_div_left _ _ (by decide), Nat.div_eq_of_lt pageDomain_lt, Nat.zero_add]
  by_cases none_yet : (hdrOf s p).count = 0 <;> simp [none_yet, b2n]

/-- A privileged read of a word of a page's header changes nothing. -/
theorem busRead_header {off : Nat} (valid : p ≤ 18) (header : off < 0x20) :
    busRead .cmc (p * 0x1000 + off) s = (false, w32 (readHeader s p off), s) := by
  have below : p * 0x1000 + off < 0x800000 := by omega
  have at_page : (p * 0x1000 + off) / 0x1000 = p := by omega
  have at_word : (p * 0x1000 + off) % 0x1000 = off := by omega
  simp only [busRead, below, if_true, readPage, at_page, at_word, Nat.not_lt.2 valid, if_false, header]
end

/-- Settles O22: a doorbell by its bit 0 and FULL, a header's write by its bits and its page's domain, and a read word by word. -/
theorem mailboxesAndPageHeaders : Obligations.MailboxesAndPageHeaders := by
  refine ⟨fun v s sends empty => ?_, fun v s one => ?_, fun v s zero => ⟨?_, ?_⟩, fun v s full => ?_,
    fun page v s on => ⟨fun one => ?_, fun zero => ?_, ?_, pageMasked page.val v s, rfl, fun unmasks => ?_, fun err sat => ?_⟩,
    fun page v s gated => ⟨?_, ?_, ?_⟩,
    fun page s => ⟨_, rfl, rfl, pageStatus_domain, pageStatus_pending, rfl, rfl, rfl, rfl, fun i => ?_⟩⟩
  · rw [exec_mbxInDoorbell, mbxInDoorbell_sent sends empty]
  · rw [exec_mbxOutDbClear, mbxOutDbClear_one one]
  · rw [exec_mbxInDoorbell, mbxInDoorbell_ignored (.inl zero)]
  · rw [exec_mbxOutDbClear, mbxOutDbClear_zero zero]
  · rw [exec_mbxInDoorbell, mbxInDoorbell_ignored (.inr full)]
  · rw [exec_pageErrClear, if_pos on, pageErrClear_one one]
  · rw [exec_pageErrClear, if_pos on, pageErrClear_zero zero]
  · rw [exec_pageIrqClear, if_pos on]
    rfl
  · rw [exec_pageIrqMaskWrite, if_pos on, pageIrqMaskWrite_unmasks unmasks]
  · rw [exec_pageIrqMaskWrite, if_pos on, pageIrqMaskWrite_quiet err sat]
  · rw [exec_pageErrClear, if_neg (Bool.eq_false_iff.1 gated)]
  · rw [exec_pageIrqClear, if_neg (Bool.eq_false_iff.1 gated)]
  · rw [exec_pageIrqMaskWrite, if_neg (Bool.eq_false_iff.1 gated)]
  · exact busRead_header (Nat.lt_succ_iff.1 page.isLt) (by omega)

/-! ### Attestation messages (14 R432) -/

theorem exec_attMessage (port : Fin 10) (msg : Byte) (bytes : List Byte) (s : State) :
    exec (.attMessage port msg bytes) s = .next (attMessage port.val msg.toNat bytes s) := rfl

theorem exec_attestationFlit (port : Fin 10) (flit : BitVec 1024) (fec : Byte) (s : State) :
    exec (.attestationFlit port ⟨flit, fec⟩) s = .next (attestationFlit port.val flit fec.toNat s) := rfl

section
variable {p msg : Nat} {bytes : List Byte} {s : State}

theorem attMessage_ignored (ignored : (portOf s p).st ≠ 4 ∨ bytes = []) : attMessage p msg bytes s = s :=
  if_pos (by simpa only [Bool.or_eq_true, bne_iff_ne, List.isEmpty_iff] using ignored)

section
variable (attesting : (portOf s p).st = 4) (some_bytes : bytes ≠ [])
include attesting some_bytes

theorem attMessage_offered : ¬((portOf s p).st != 4 || bytes.isEmpty) = true := by
  simpa only [Bool.or_eq_true, bne_iff_ne, List.isEmpty_iff, not_or, Decidable.not_not] using And.intro attesting some_bytes

theorem attMessage_refused (refused : msg = 0 ∨ 4 < msg ∨ 12288 < bytes.length) :
    attMessage p msg bytes s = attestFail p s :=
  (if_neg (attMessage_offered attesting some_bytes)).trans
    (if_pos (by simpa only [Bool.or_eq_true, decide_eq_true_eq, or_assoc, gt_iff_lt, attMax] using refused))

theorem attMessage_carried (kind : 1 ≤ msg ∧ msg ≤ 3) (short : bytes.length ≤ 12288) :
    attMessage p msg bytes s = mPort p (fun q => { q with wire := q.wire ++ attFlits msg bytes }) s := by
  have taken : ¬(decide (msg = 0) || decide (msg > 4) || decide (bytes.length > attMax)) = true := by
    have longest : attMax = 12288 := rfl
    simp only [Bool.or_eq_true, decide_eq_true_eq]
    omega
  have notDone : (msg != 4) = true := bne_iff_ne.2 (by omega)
  exact (if_neg (attMessage_offered attesting some_bytes)).trans ((if_neg taken).trans (if_pos notDone))
end
end

/-- A slice has the length asked for; zeros fill it. -/
theorem length_slice (l : List Byte) (i n : Nat) : (slice l i n).length = n := by
  simp [slice]

/-- A whole message of type 1 to 3 is handed over. -/
theorem attPass_handed {p msg : Nat} {buf : List Byte} {s : State} (kind : msg ≤ 3) : attPass p msg buf s =
    mLsu (fun l => { l with attOut := l.attOut ++ [(p, msg, buf)] })
      (mPort p (fun q => { q with attBuf := [], attMsg := 0, attIdx := 0 }) s) :=
  if_pos (bne_iff_ne.2 (by omega))

section
variable {p fec : Nat} {flit : BitVec 1024} {s0 s : State} {b : List Byte} (uninjected : injectedBad s0 p = false)
  (counted : s = fecCounted p fec s0) (bytes : b = leBytes 128 flit.toNat) (attesting : (portOf s p).st = 4)
  (control : leAt b 0 1 % 4 = 0) (attestation : leAt b 4 1 = 3)
include uninjected counted bytes attesting control attestation

/-- In ATTEST an attestation flit joins its message, unless its number, its type or a length breaks the order. -/
theorem attestationFlit_met {buf : List Byte} (joined : buf = (portOf s p).attBuf ++ slice b 16 (leAt b 10 2)) :
    attestationFlit p flit fec s0 =
      if leAt b 5 1 = 0 ∨ 4 < leAt b 5 1 ∨ leAt b 8 2 ≠ (portOf s p).attIdx ∨
          ((portOf s p).attIdx ≠ 0 ∧ leAt b 5 1 ≠ (portOf s p).attMsg) ∨ leAt b 10 2 = 0 ∨ 112 < leAt b 10 2 ∨
          12288 < buf.length then attestFail p s
      else if bit (leAt b 6 1) 0 then attPass p (leAt b 5 1) buf s
      else mPort p (fun q => { q with attBuf := buf, attMsg := leAt b 5 1, attIdx := q.attIdx + 1 }) s := by
  subst counted bytes joined
  simp only [attestationFlit, meetFlit_corrected uninjected, attesting, control, attestation, bne_self_eq_false, Bool.or_self,
    Bool.false_eq_true, if_false, Bool.or_eq_true, Bool.and_eq_true, decide_eq_true_eq, bne_iff_ne, or_assoc, attMax, gt_iff_lt]

theorem attestationFlit_misplaced (misplaced : leAt b 8 2 ≠ (portOf s p).attIdx) :
    attestationFlit p flit fec s0 = attestFail p s := by
  rw [attestationFlit_met uninjected counted bytes attesting control attestation rfl, if_pos (.inr (.inr (.inl misplaced)))]

theorem attestationFlit_inOrder (kind : 1 ≤ leAt b 5 1 ∧ leAt b 5 1 ≤ 4) (next : leAt b 8 2 = (portOf s p).attIdx)
    (same : (portOf s p).attIdx = 0 ∨ leAt b 5 1 = (portOf s p).attMsg) (some_bytes : 1 ≤ leAt b 10 2)
    (fits : leAt b 10 2 ≤ 112) (room : (portOf s p).attBuf.length + leAt b 10 2 ≤ 12288) :
    attestationFlit p flit fec s0 =
      if bit (leAt b 6 1) 0 then attPass p (leAt b 5 1) ((portOf s p).attBuf ++ slice b 16 (leAt b 10 2)) s
      else mPort p (fun q =>
        { q with attBuf := (portOf s p).attBuf ++ slice b 16 (leAt b 10 2), attMsg := leAt b 5 1, attIdx := q.attIdx + 1 }) s := by
  rw [attestationFlit_met uninjected counted bytes attesting control attestation rfl, if_neg]
  have length : (slice b 16 (leAt b 10 2)).length = leAt b 10 2 := length_slice _ _ _
  rw [List.length_append]
  omega
end

/-- Settles O24: a message by the port's state, its length and its type, and a flit by its place in its message. -/
theorem attestationIsCarried : Obligations.AttestationIsCarried := by
  refine ⟨fun port msg bytes s => ⟨fun attesting low high some_bytes short => ?_, fun ignored => ?_,
      fun attesting some_bytes refused => ?_⟩,
    fun port flit fec s0 s b uninjected counted bytes attesting control attestation next same some_bytes fits room =>
      ⟨fun low high more => ?_, fun low high last => ?_⟩,
    fun port flit fec s0 s b uninjected counted bytes attesting control attestation misplaced => ?_⟩
  · rw [exec_attMessage, attMessage_carried attesting (List.ne_nil_of_length_pos some_bytes) ⟨low, high⟩ short]
  · rw [exec_attMessage, attMessage_ignored ignored]
  · have none_or_long : msg.toNat = 0 ∨ 4 < msg.toNat ∨ 12288 < bytes.length := refused.imp_left (congrArg BitVec.toNat)
    rw [exec_attMessage, attMessage_refused attesting some_bytes none_or_long]
  · rw [exec_attestationFlit, attestationFlit_inOrder uninjected counted bytes attesting control attestation ⟨low, high⟩ next
      same some_bytes fits room, if_neg (Bool.eq_false_iff.1 more)]
    exact congrArg _ (mPort_congr _ rfl)
  · rw [exec_attestationFlit, attestationFlit_inOrder uninjected counted bytes attesting control attestation ⟨low, by omega⟩
      next same some_bytes fits room, if_pos last, attPass_handed high]
  · rw [exec_attestationFlit, attestationFlit_misplaced uninjected counted bytes attesting control attestation misplaced]

end Sys2Proof.Proofs

namespace Sys2Proof.Proofs

open Sys2Proof.Machine Sys2Proof.Safety Sys2Proof.Laws

/-! ### Context resets (15 R448, R449, R459; 11 R344) -/

theorem exec_ctxRstReq (ctx : Fin 64) (s : State) : exec (.ctxRstReq ctx) s = .next (ctxRstReq ctx.val s) := rfl

theorem exec_ctxRstAck (ctx : Fin 64) (s : State) : exec (.ctxRstAck ctx) s = .next (ctxRstAck ctx.val s) := rfl

/-- The context is marked as being reset, and its window shows it. -/
def ctxMarked (c : Nat) (s : State) : State :=
  mWin c (fun w => { w with resetPending := true }) { s with rst := { s.rst with ctx := s.rst.ctx ++ [c] } }

/-- The counts of the context's rings stand at their producer counts, with no record written. -/
def ctxRingsSettled (c : Nat) (s : State) : State :=
  foldS (ctxRings s c) s fun r s => mRing r (fun g => { g with head := g.producer, done := g.producer, written := [] }) s

section
variable {c : Nat} {s : State}

theorem ctxRstReq_merged (running : c ∈ s.rst.ctx) : ctxRstReq c s = s := if_pos (List.contains_iff_mem.2 running)

theorem ctxRstReq_begins {s1 s2 s3 s4 : State} (new : c ∉ s.rst.ctx) (marked : s1 = ctxMarked c s)
    (sessions : s2 = foldS (ctxSlots s1 c) s1 endForReset) (parks : s3 = foldS (ctxParks s2 c) s2 endParkForReset)
    (rings : s4 = foldS (ctxRings s3 c) s3 clearRing) : ctxRstReq c s = ctxObjects c s4 := by
  subst marked sessions parks rings
  exact if_neg (new ∘ List.contains_iff_mem.1)

theorem endForReset_live {slot : Nat} {x : Session} (session : slot? s slot = some x) (live : x.st ≠ .rejected) :
    endForReset slot s = endSession slot cContextReset s := by
  simp only [endForReset, session, live, if_false]

theorem ctxRstAck_waits (waits : c ∉ s.rst.ctx ∨ ctxWriting s c = true) : ctxRstAck c s = s :=
  if_pos (by simpa only [Bool.or_eq_true, Bool.not_eq_true', List.contains_eq_mem, decide_eq_false_iff_not] using waits)

theorem ctxRstAck_settles (running : c ∈ s.rst.ctx) (written : ctxWriting s c = false) {s1 : State}
    (settled : s1 = ctxRingsSettled c s) : ctxRstAck c s =
      resetMessage 0 c (mWin c (fun w => { w with resetPending := false })
        (mRst (fun r => { r with ctx := r.ctx.erase c, ctxAck := r.ctxAck ++ [c] }) s1)) := by
  subst settled
  have due : ¬(!s.rst.ctx.contains c || ctxWriting s c) = true := by
    rw [List.contains_iff_mem.2 running, written]
    exact Bool.false_ne_true
  exact if_neg due
end

/-- Settles O31: a request by whether the context is being reset, and the acknowledgement by its records. -/
theorem contextResets : Obligations.ContextResets := by
  refine ⟨fun ctx s s1 s2 s3 s4 new marked sessions parks rings => ?_, fun slot s x session live => endForReset_live session live,
    fun ctx s running => ?_, fun ctx s s1 running written settled => ?_, fun ctx s waits => ?_⟩
  · rw [exec_ctxRstReq, ctxRstReq_begins new marked sessions parks rings]
    rfl
  · rw [exec_ctxRstReq, ctxRstReq_merged running]
  · rw [exec_ctxRstAck, ctxRstAck_settles running written settled]
    rfl
  · rw [exec_ctxRstAck, ctxRstAck_waits waits]

/-! ### A link that goes down (13 R395; 04 R501) -/

theorem portOf_of_lnk {s t : State} (same : t.lnk = s.lnk) (p : Nat) : portOf t p = portOf s p := by
  rw [portOf, portOf, same]

theorem portUp_of_lnk {s t : State} (same : t.lnk = s.lnk) (p : Nat) : portUp t p = portUp s p := by
  rw [portUp, portUp, portOf_of_lnk same]

section
variable (p : Nat) (s : State)

theorem toDown_st : (portOf (toDown p s) p).st = if mayTrain s p then 1 else 0 := by
  unfold toDown toPhyWait
  split <;> rw [portOf_mPort, if_pos rfl]

theorem toDown_failCode : (portOf (toDown p s) p).failCode = (portOf s p).failCode := by
  unfold toDown toPhyWait
  split <;> rw [portOf_mPort, if_pos rfl]

theorem portUp_toDown : portUp (toDown p s) p = false := by
  rw [portUp, toDown_st]
  split <;> rfl

theorem linkDown_failCode (code : W16) (inj : Bool) :
    (portOf (linkDown p (some code) true inj s) p).failCode = code := by
  rw [linkDown]
  rw [toDown_failCode, if_pos rfl, portOf_of_lnk (raiseFault_lnk _ _ _ _ _), portOf_mPort, if_pos rfl]
end

/-! ### Errors of the memories (13 R389 to R393; 01 R19) -/

theorem exec_eccSingleBit (mem : Fin 12) (s : State) :
    exec (.eccSingleBit mem) s = .next (if memOn mem.val s then eccSingleBit mem.val s else s) := rfl

theorem exec_eccDoubleBit (mem : Fin 12) (word : W32) (s : State) :
    exec (.eccDoubleBit mem word) s = .next (if memOn mem.val s then eccDoubleBit mem.val word.toNat s else s) := rfl

section
variable {mem : Nat} {s : State} (uninjected : eccInjected s 1 mem = false)
include uninjected

theorem eccSingleBit_other (other : 2 ≤ mem) : eccSingleBit mem s = eccSingleAs mem false s := by
  have notSequencer : ¬mem ≤ 1 := by omega
  simp only [eccSingleBit, uninjected, Bool.false_eq_true, if_false, notSequencer]

theorem eccSingleBit_sequencer (sequencer : mem ≤ 1) : eccSingleBit mem s = eccSingleAs mem false
    (bump pgCtl (·.ctl.eccCorrected) (fun v => mCtl fun k => { k with eccCorrected := v }) 1 s) := by
  simp only [eccSingleBit, uninjected, Bool.false_eq_true, if_false, sequencer, if_true]
end

/-! A double-bit error that no injection is armed for is logged; what follows is its memory's. -/

section
variable {mem word : Nat} {s t : State} (uninjected : eccInjected s 2 mem = false) (logged : t = logDouble mem word false s)
include uninjected logged

theorem eccDoubleBit_sequencer (memory : mem ≤ 1) (running : t.ctl.run = true) : eccDoubleBit mem word s = csqExpire 2 t := by
  subst logged
  obtain rfl | rfl : mem = 0 ∨ mem = 1 := by omega
  · simp only [eccDoubleBit, uninjected, Bool.false_and, Bool.false_eq_true, if_false, running, if_true]
  · simp only [eccDoubleBit, uninjected, Bool.false_and, Bool.false_eq_true, if_false, running, if_true]

theorem eccDoubleBit_control (memory : 2 ≤ mem ∧ mem ≤ 4) : eccDoubleBit mem word s = controlLoss mem word false t := by
  subst logged
  obtain rfl | rfl | rfl : mem = 2 ∨ mem = 3 ∨ mem = 4 := by omega
  · simp only [eccDoubleBit, uninjected, Bool.false_and, Bool.false_eq_true, if_false]
  · simp only [eccDoubleBit, uninjected, Bool.false_and, Bool.false_eq_true, if_false]
  · simp only [eccDoubleBit, uninjected, Bool.false_and, Bool.false_eq_true, if_false]

theorem eccDoubleBit_palm (memory : mem = 5) : eccDoubleBit mem word s =
    (palmOwner t word).elim t fun i => failSession i cSramUncorrectable t := by
  subst logged memory
  simp only [eccDoubleBit, uninjected, Bool.false_and, Bool.false_eq_true, if_false]
  cases palmOwner (logDouble 5 word false s) word <;> rfl

theorem eccDoubleBit_thimble (memory : mem = 6) {u : State}
    (marked : u = mRow (fun r => { r with bad := Sparse.set false r.bad word true }) t) :
    eccDoubleBit mem word s = (thimbleOwner t word).elim u fun i => failSession i cSramUncorrectable u := by
  subst logged memory marked
  simp only [eccDoubleBit, uninjected, Bool.false_and, Bool.false_eq_true, if_false]
  cases thimbleOwner (logDouble 6 word false s) word <;> rfl

theorem eccDoubleBit_objects (memory : mem = 7) :
    eccDoubleBit mem word s = reportCode cSramUncorrectable (rewriteObject (word / 2) t) := by
  subst logged memory
  simp only [eccDoubleBit, uninjected, Bool.false_and, Bool.false_eq_true, if_false]

theorem eccDoubleBit_receiveBuffer (memory : mem = 8) (up : portUp t (Config.bufferOwner word % 10) = true) :
    eccDoubleBit mem word s = badFlit (Config.bufferOwner word % 10) t := by
  subst logged memory
  simp only [eccDoubleBit, uninjected, Bool.false_and, Bool.false_eq_true, if_false, up, if_true]

theorem eccDoubleBit_carried (memory : 10 ≤ mem) : eccDoubleBit mem word s = t := by
  subst logged
  obtain ⟨k, rfl⟩ := Nat.exists_eq_add_of_le' memory
  simp only [eccDoubleBit, uninjected, Bool.false_and, Bool.false_eq_true, if_false]
end

/-- The state in which a double-bit error is logged: an injection armed for the word has fired. -/
def doubleLogged (mem word : Nat) (inj : Bool) (s : State) : State :=
  logDouble mem word inj (if inj then fireInject s else s)

theorem doubleLogged_lnk (mem word : Nat) (inj : Bool) (s : State) : (doubleLogged mem word inj s).lnk = s.lnk := by
  cases inj <;> simp [doubleLogged]

/-- A double-bit error of a retry buffer, injected or not, takes the link down. -/
theorem eccDoubleBit_retryBuffer {word : Nat} {s : State} {inj : Bool}
    (armed : inj = (eccInjected s 2 9 && bits s.flt.injTarget.toNat 35 4 == word))
    (up : portUp s (Config.bufferOwner word % 10) = true) : eccDoubleBit 9 word s =
      linkDown (Config.bufferOwner word % 10) (some cSramUncorrectable) true inj (doubleLogged 9 word inj s) := by
  have still_up : portUp (doubleLogged 9 word inj s) (Config.bufferOwner word % 10) = true :=
    (portUp_of_lnk (doubleLogged_lnk 9 word inj s) _).trans up
  subst armed
  exact if_pos still_up

/-! ### The logs' clears (06 R212; 13 R419; 14 R444; 02 R54) -/

section
variable (v : W32) (s : State)

theorem exec_eccLogClear : exec (.eccLogClear v) s =
    .next (if ctlOn s then eccLogClear v s else holdAccess 5 (.eccLogClear v) s) := rfl

theorem exec_redFailLogClear : exec (.redFailLogClear v) s =
    .next (if ctlOn s then redFailLogClear v s else holdAccess 5 (.redFailLogClear v) s) := rfl

theorem exec_authLogClear : exec (.authLogClear v) s =
    .next (if fabricOn s then authLogClear v s else holdAccess 5 (.authLogClear v) s) := rfl

theorem exec_histClear : exec (.histClear v) s =
    .next (if ctlOn s then histClear v s else holdAccess 5 (.histClear v) s) := rfl
end

section
variable {v : W32} (s : State)

theorem eccLogClear_valid (valid : v.getLsbD 31 = true) : eccLogClear v s = { s with flt := { s.flt with eccLog := 0 } } :=
  if_pos valid

theorem redFailLogClear_valid (valid : v.getLsbD 31 = true) : redFailLogClear v s =
    { s with red := { s.red with failGsid := 0, failSeq := 0, failInfo := 0, failDelta := 0 } } := if_pos valid

theorem authLogClear_valid (valid : v.getLsbD 31 = true) : authLogClear v s =
    { s with lsu := { s.lsu with authLog := 0, authLogSeq := 0, authLogCcc := 0 } } := if_pos valid

theorem logClear_other (other : v.getLsbD 31 = false) :
    eccLogClear v s = s ∧ redFailLogClear v s = s ∧ authLogClear v s = s :=
  ⟨if_neg (Bool.eq_false_iff.1 other), if_neg (Bool.eq_false_iff.1 other), if_neg (Bool.eq_false_iff.1 other)⟩
end

/-- CLEAR stands in bit 1 of the word that HIST_CLEAR writes, and its other fields are those of the word given. -/
theorem histClear_eq (v : W32) (s : State) : histClear v s = { s with flt :=
    { s.flt with
      histEn := v.getLsbD 0, maxLevel := if v.extractLsb' 4 3 = 0 then 1 else v.extractLsb' 4 3, hist := [],
      lateWorst := [] } } := by
  have clear : (v ||| 2).getLsbD 1 = true := by rw [BitVec.getLsbD_or]; exact Bool.or_true _
  have enable : (v ||| 2).getLsbD 0 = v.getLsbD 0 := by rw [BitVec.getLsbD_or]; exact Bool.or_false _
  have level : (v ||| 2).extractLsb' 4 3 = v.extractLsb' 4 3 := by rw [BitVec.extractLsb'_or]; exact BitVec.or_zero
  rw [histClear, histCtlWrite, if_pos clear, enable, level]
  rfl

theorem fabricOn_of_ctlOn {s : State} (on : ctlOn s = true) : fabricOn s = true := by
  rw [fabricOn, on, Bool.true_or]

theorem fabricOn_of_portUp {s : State} {p : Nat} (port : p < 10) (up : portUp s p = true) : fabricOn s = true :=
  Bool.or_eq_true_iff.2 (.inr (List.any_eq_true.2 ⟨p, List.mem_range.2 port, up⟩))

/-- Settles O59: an error by its memory, a log's clear by VALID, and each clear by the clock of its page. -/
theorem errorsAreLoggedAndHandled : Obligations.ErrorsAreLoggedAndHandled := by
  refine ⟨fun mem s on uninjected => ⟨fun other => ?_, fun sequencer => ?_⟩,
    fun word s t mem on uninjected logged => ⟨fun memory running => ?_, fun low high => ?_, fun memory => ?_,
      fun memory u marked => ?_, fun memory => ?_, fun memory up => ?_, fun memory up => ?_, fun memory => ?_⟩,
    fun word s up => ?_, fun v s valid => ⟨fun on => ?_, fun on => ?_, fun on => ?_⟩, fun v s on other => ?_, fun v s on => ?_,
    fun v s => ⟨fun gated => ⟨?_, ?_, ?_⟩, fun gated => ?_⟩⟩
  · rw [exec_eccSingleBit, if_pos on, eccSingleBit_other uninjected other]
  · rw [exec_eccSingleBit, if_pos on, eccSingleBit_sequencer uninjected sequencer]
  · have still_running : t.ctl.run = true := by rw [logged, logDouble_ctl, running]
    rw [exec_eccDoubleBit, if_pos on, eccDoubleBit_sequencer uninjected logged memory still_running]
  · rw [exec_eccDoubleBit, if_pos on, eccDoubleBit_control uninjected logged ⟨low, high⟩]
  · rw [exec_eccDoubleBit, if_pos on, eccDoubleBit_palm uninjected logged memory]
  · rw [exec_eccDoubleBit, if_pos on, eccDoubleBit_thimble uninjected logged memory marked]
  · rw [exec_eccDoubleBit, if_pos on, eccDoubleBit_objects uninjected logged memory]
  · have still_up : portUp t (Config.bufferOwner word.toNat % 10) = true := by
      rw [logged, portUp_of_lnk (logDouble_lnk _ _ _ _), up]
    rw [exec_eccDoubleBit, if_pos on, eccDoubleBit_receiveBuffer uninjected logged memory still_up]
  · rw [memory] at uninjected logged on
    have unarmed : false = (eccInjected s 2 9 && bits s.flt.injTarget.toNat 35 4 == word.toNat) := by
      rw [uninjected, Bool.false_and]
    rw [exec_eccDoubleBit, memory, if_pos on, eccDoubleBit_retryBuffer unarmed up, logged]
    rfl
  · rw [exec_eccDoubleBit, if_pos on, eccDoubleBit_carried uninjected logged memory]
  · have on : memOn (9 : Fin 12).val s = true := fabricOn_of_portUp (Nat.mod_lt _ (by decide)) up
    have down : eccDoubleBit (9 : Fin 12).val word.toNat s = _ := eccDoubleBit_retryBuffer rfl up
    rw [exec_eccDoubleBit, if_pos on, down]
    exact ⟨_, rfl, portUp_toDown _ _, linkDown_failCode _ _ _ _⟩
  · rw [exec_eccLogClear, if_pos on, eccLogClear_valid s valid]
  · rw [exec_redFailLogClear, if_pos on, redFailLogClear_valid s valid]
  · rw [exec_authLogClear, if_pos on, authLogClear_valid s valid]
  · obtain ⟨ecc, red, auth⟩ := logClear_other s other
    rw [exec_eccLogClear, exec_redFailLogClear, exec_authLogClear, if_pos on, if_pos on, if_pos (fabricOn_of_ctlOn on), ecc, red,
      auth]
    exact ⟨rfl, rfl, rfl⟩
  · rw [exec_histClear, if_pos on, histClear_eq]
  · rw [exec_eccLogClear, if_neg (Bool.eq_false_iff.1 gated)]
  · rw [exec_redFailLogClear, if_neg (Bool.eq_false_iff.1 gated)]
  · rw [exec_histClear, if_neg (Bool.eq_false_iff.1 gated)]
  · rw [exec_authLogClear, if_neg (Bool.eq_false_iff.1 gated)]

end Sys2Proof.Proofs

namespace Sys2Proof.Proofs

open Sys2Proof.Machine Sys2Proof.Safety Sys2Proof.Laws

/-! ### The session watchdog and the expiries (13 R398, R417) -/

theorem exec_lateContribution (slot : Fin 4096) (s : State) :
    exec (.lateContribution slot) s = .next (if ctlOn s then lateContribution slot.val s else s) := rfl

theorem exec_stragglerExpiry (slot : Fin 4096) (s : State) :
    exec (.stragglerExpiry slot) s = .next (if ctlOn s then stragglerExpiry slot.val s else s) := rfl

theorem exec_silentChipExpiry (s : State) : exec .silentChipExpiry s = .next (silentChipExpiry s) := rfl

section
variable {slot : Nat} {s : State} {x : Session} (session : slot? s slot = some x)
include session

theorem lateContribution_late (other : isGradient s x.d x.ctx = false) (live : x.st ≠ .rejected)
    (late : max 1 s.flt.sessTimeout.toNat ≤ s.tick - x.progTick) :
    lateContribution slot s = endSession slot cLateContribution { s with flt :=
      { s.flt with
        lastLate := BitVec.ofNat 32 x.gsid,
        lastLateInfo := BitVec.ofNat 7 (if awaitsAdmission x then 64 else x.d.axis % 4 + awaitRank s x % 16 * 4) } } := by
  have watched : ¬(isGradient s x.d x.ctx || x.st == .rejected || decide (s.tick - x.progTick < max 1 s.flt.sessTimeout.toNat)) =
      true := by
    simp only [other, Bool.false_or, Bool.or_eq_true, beq_iff_eq, decide_eq_true_eq, not_or]
    exact ⟨live, Nat.not_lt.2 late⟩
  simp only [lateContribution, session]
  exact if_neg watched

theorem stragglerExpiry_due {t0 : Nat} (injected : x.holdUntil = some t0) (due : t0 ≤ s.tick) :
    stragglerExpiry slot s = mSlot slot (fun y => { y with held := false, holdUntil := none }) s := by
  simp only [stragglerExpiry, session, injected]
  exact if_pos due
end

theorem silentChipExpiry_due {s : State} {t0 : Nat} (silent : s.flt.silentUntil = some t0) (due : t0 ≤ s.tick) :
    silentChipExpiry s = foldS (List.range 10) { s with flt := { s.flt with silent := false, silentUntil := none } }
      fun p s => if (portOf s p).st = 0 then toDown p s else s := by
  simp only [silentChipExpiry, silent, Nat.not_lt.2 due, if_false]
  rfl

/-! ### Injected faults (13 R417, R422; 02 R54) -/

theorem exec_injectArm (v : W32) (s : State) :
    exec (.injectArm v) s = .next (if ctlOn s then injectArm v s else holdAccess 5 (.injectArm v) s) := rfl

/-- The fields of INJ_CTL, written; no firing has been counted. -/
def injectSet (v : W32) (s : State) : State :=
  { s with flt :=
    { s.flt with injKind := v.extractLsb' 0 4, injArm := v.getLsbD 4, injRepeat := v.extractLsb' 8 8, injFired := 0 } }

section
variable {v : W32} {s : State}

theorem injOn_injectSet (k : Nat) : injOn (injectSet v s) k = (v.getLsbD 4 && bits v.toNat 3 0 == k) := by
  rw [injOn, injectSet, BitVec.extractLsb'_toNat]
  rfl

theorem injectArm_refused (arms : v.getLsbD 4 = true) (kind : bits v.toNat 3 0 = 0 ∨ 10 < bits v.toNat 3 0) :
    injectArm v s = pageErr pgFlt cConfigInvalid { s with flt := { s.flt with injArm := false } } :=
  if_pos (by simpa only [arms, Bool.true_and, Bool.or_eq_true, beq_iff_eq, decide_eq_true_eq, gt_iff_lt] using kind)

theorem injectArm_set (kind : v.getLsbD 4 = false ∨ (1 ≤ bits v.toNat 3 0 ∧ bits v.toNat 3 0 ≤ 10)) :
    injectArm v s = fireNow (injectSet v s) := by
  have known : ¬(v.getLsbD 4 && (bits v.toNat 3 0 == 0 || decide (bits v.toNat 3 0 > 10))) = true := by
    simp only [Bool.and_eq_true, Bool.or_eq_true, beq_iff_eq, decide_eq_true_eq, not_and]
    intro arms
    obtain disarms | inRange := kind
    · exact absurd arms (Bool.eq_false_iff.1 disarms)
    · omega
  exact if_neg known

/-- A fault that no kind's own event makes fire at once stands armed. -/
theorem fireNow_waits {t : State} (notSilence : injOn t 9 = false)
    (notLink : injOn t 7 = false ∨ 10 ≤ bits t.flt.injTarget.toNat 3 0 ∨ portUp t (bits t.flt.injTarget.toNat 3 0) = false) :
    fireNow t = t := by
  have waits : ¬(injOn t 7 && decide (bits t.flt.injTarget.toNat 3 0 < 10) && portUp t (bits t.flt.injTarget.toNat 3 0)) =
      true := by
    simp only [Bool.and_eq_true, decide_eq_true_eq, not_and, Bool.not_eq_true]
    intro ⟨armed, port⟩
    obtain unarmed | outside | down := notLink
    · exact absurd armed (Bool.eq_false_iff.1 unarmed)
    · omega
    · exact down
  rw [fireNow, if_neg (Bool.eq_false_iff.1 notSilence)]
  exact if_neg waits

theorem fireNow_silence {t : State} (silence : injOn t 9 = true) : fireNow t = goSilent (fireInject t) := if_pos silence

theorem fireNow_link {t : State} {p : Nat} (target : p = bits t.flt.injTarget.toNat 3 0) (notSilence : injOn t 9 = false)
    (link : injOn t 7 = true) (port : p < 10) (up : portUp t p = true) :
    fireNow t = linkDown p (some cLinkLost) true true (fireInject t) := by
  subst target
  rw [fireNow, if_neg (Bool.eq_false_iff.1 notSilence), fireLink]
  simp only [link, port, up, decide_true, Bool.and_self, if_true]
end

/-- Settles O60: the watchdog of a session, a write of INJ_CTL by its ARM and its kind, and the two expiries. -/
theorem faultsAndInjections : Obligations.FaultsAndInjections := by
  refine ⟨fun slot s x on session other live late => ?_, fun v s t kind p on hk hp written => ⟨fun disarms => ?_,
      fun arms low high notLink notSilence => ?_, fun arms silence => ?_, fun arms link port up => ?_, fun arms link target => ?_,
      fun arms outside => ?_⟩,
    fun v s gated => ?_, fun slot s x t0 on session injected due => ?_, fun s t0 silent due => ?_⟩
  · rw [exec_lateContribution, if_pos on, lateContribution_late session other live late]
  · have unarmed (k : Nat) : injOn (injectSet v s) k = false := by rw [injOn_injectSet, disarms, Bool.false_and]
    rw [exec_injectArm, if_pos on, injectArm_set (.inl disarms), fireNow_waits (unarmed 9) (.inl (unarmed 7)), written, injectSet]
  · subst hk
    have other {k : Nat} (h : bits v.toNat 3 0 ≠ k) : injOn (injectSet v s) k = false := by
      rw [injOn_injectSet, arms, Bool.true_and, beq_eq_false_iff_ne.2 h]
    rw [exec_injectArm, if_pos on, injectArm_set (.inr ⟨low, high⟩), fireNow_waits (other notSilence) (.inl (other notLink)),
      written, injectSet]
  · have armed : injOn (injectSet v s) 9 = true := by rw [injOn_injectSet, arms, ← hk, silence]; rfl
    rw [exec_injectArm, if_pos on, injectArm_set (.inr (by omega)), fireNow_silence armed, written, injectSet]
  · have armed : injOn (injectSet v s) 7 = true := by rw [injOn_injectSet, arms, ← hk, link]; rfl
    have notSilence : injOn (injectSet v s) 9 = false := by rw [injOn_injectSet, arms, ← hk, link]; rfl
    rw [exec_injectArm, if_pos on, injectArm_set (.inr (by omega)),
      fireNow_link (t := injectSet v s) hp notSilence armed port up, written, injectSet]
  · have notSilence : injOn (injectSet v s) 9 = false := by rw [injOn_injectSet, arms, ← hk, link]; rfl
    rw [hp] at target
    rw [exec_injectArm, if_pos on, injectArm_set (.inr (by omega)), fireNow_waits notSilence (.inr target), written, injectSet]
  · rw [exec_injectArm, if_pos on, injectArm_refused arms (hk ▸ outside)]
  · rw [exec_injectArm, if_neg (Bool.eq_false_iff.1 gated)]
  · rw [exec_stragglerExpiry, if_pos on, stragglerExpiry_due session injected due]
  · rw [exec_silentChipExpiry, silentChipExpiry_due silent due]

end Sys2Proof.Proofs

namespace Sys2Proof.Proofs

open Sys2Proof.Machine Sys2Proof.Safety Sys2Proof.Laws

/-! ### A requested vector stays requested (02 R63; 16 R469) -/

/-- A vector is masked, or its request is pending or outstanding. -/
def VecRequested (v : Nat) (s : State) : Prop :=
  vecMasked s v = true ∨ Sparse.get false s.msix.pendingVecs v = true ∨ s.msix.outstanding = some (BitVec.ofNat 9 v)

section
variable {v : Nat} {s t : State}

theorem VecRequested.of_same (h : VecRequested v s) (masks : t.que = s.que) (requests : t.msix = s.msix) :
    VecRequested v t := by
  rw [VecRequested, vecMasked, masks, requests]
  exact h

theorem vecRequested_raiseVec_self (v : Nat) (s : State) : VecRequested v (raiseVec v s) := by
  cases masked : vecMasked s v
  · exact .inr (pending_raiseVec v masked)
  · refine .inl ?_
    rw [vecMasked, raiseVec_que]
    exact masked

theorem VecRequested.raiseVec (h : VecRequested v s) (w : Nat) : VecRequested v (raiseVec w s) := by
  unfold Machine.raiseVec
  split
  · exact h
  · obtain masked | pending | outstanding := h
    · exact .inl masked
    · refine .inr (.inl ?_)
      show Sparse.get false (Sparse.set false s.msix.pendingVecs w true) v = true
      by_cases same : v = w
      · rw [same, sparse_get_set_self]
      · rw [sparse_get_set_ne _ _ _ same, pending]
    · exact .inr (.inr outstanding)

theorem VecRequested.setSat (h : VecRequested v s) (p : Nat) : VecRequested v (setSat p s) := by
  unfold Machine.setSat
  dsimp only
  split
  · exact (h.of_same (t := mHdr p (fun h => { h with irqSat := true }) s) rfl rfl).raiseVec _
  · exact h.of_same rfl rfl

theorem VecRequested.bump {w : Nat} (h : VecRequested v s) (p : Nat) (get : State → BitVec w) (put : BitVec w → State → State)
    (n : Nat) (frame : ∀ c s, (put c s).que = s.que ∧ (put c s).msix = s.msix) : VecRequested v (bump p get put n s) := by
  have counted : VecRequested v (put (satAdd (get s) n) s) := h.of_same (frame _ s).1 (frame _ s).2
  obtain e | e := bump_eq p get put n s
  · rwa [e]
  · rw [e]
    exact counted.setSat p

theorem VecRequested.hdrRecord (h : VecRequested v s) (ccc kind port vc : Nat) (pay : Option Nat) (rest : List Byte) :
    VecRequested v (hdrRecord ccc kind port vc pay rest s) := by
  unfold Machine.hdrRecord
  dsimp only
  split
  · exact h
  · refine VecRequested.bump ?_ _ _ _ _ fun _ _ => ⟨rfl, rfl⟩
    exact h.of_same rfl rfl

theorem VecRequested.freezeCapture (h : VecRequested v s) (code : W16) : VecRequested v (freezeCapture code s) := by
  unfold Machine.freezeCapture
  split
  · exact h
  · dsimp only
    split
    · exact (h.hdrRecord _ _ _ _ _ _).of_same rfl rfl
    · exact h.of_same rfl rfl

theorem VecRequested.reportCode (h : VecRequested v s) (code : W16) : VecRequested v (reportCode code s) := by
  unfold Machine.reportCode
  dsimp only
  split
  · exact h.freezeCapture code
  · exact h
end

/-! ### Messages to the CMC (02 R55; 13 R416) -/

section
variable {s : State} (type : Nat) (ws : List W32)

theorem sendMbx_free (empty : s.pwr.outFull = false) (waiting : s.pwr.heldMsgs = []) : sendMbx type ws s = writeMbx ws s := by
  unfold sendMbx
  rw [empty, waiting]
  rfl

/-- While the mailbox is full a message leaves it as it is. -/
theorem sendMbx_full (full : s.pwr.outFull = true) :
    (sendMbx type ws s).pwr.outFull = true ∧ (sendMbx type ws s).pwr.mbxOut = s.pwr.mbxOut := by
  unfold sendMbx
  rw [full, Bool.not_true, Bool.false_and, if_neg Bool.false_ne_true]
  split
  · exact ⟨full, rfl⟩
  · exact ⟨full, rfl⟩

/-- A message to the CMC changes no field of page FLT but MBX_LOST. -/
theorem sendMbx_field {α : Type} (f : Flt → α) (other : ∀ q : Flt, f { q with mbxLost := true } = f q) :
    f (sendMbx type ws s).flt = f s.flt := by
  obtain same | lost := flt_sendMbx type ws s
  · rw [same]
  · rw [lost, other]

/-- A type of which a message is held for the mailbox. -/
def MbxHolds (type : Nat) (s : State) : Prop := ∃ m ∈ s.pwr.heldMsgs, m.1 = type

theorem mbxHolds_sendMbx_self (full : s.pwr.outFull = true) : MbxHolds type (sendMbx type ws s) := by
  unfold sendMbx
  rw [full, Bool.not_true, Bool.false_and, if_neg Bool.false_ne_true]
  split
  · rename_i held
    obtain ⟨m, listed, same⟩ := List.any_eq_true.1 held
    refine ⟨(type, ws), List.mem_map.2 ⟨m, listed, if_pos (beq_iff_eq.1 same)⟩, rfl⟩
  · exact ⟨(type, ws), List.mem_append_right _ (List.mem_singleton_self _), rfl⟩

theorem MbxHolds.sendMbx {k : Nat} (held : MbxHolds k s) : MbxHolds k (sendMbx type ws s) := by
  obtain ⟨m, listed, rfl⟩ := held
  unfold Machine.sendMbx
  split
  · exact ⟨m, listed, rfl⟩
  · split
    · refine ⟨_, List.mem_map_of_mem listed, ?_⟩
      split
      · rename_i same; exact same.symm
      · rfl
    · exact ⟨m, List.mem_append_left _ listed, rfl⟩
end

theorem writeMbx_word {ws : List W32} {s : State} {i : Nat} (h : i < 8) :
    Sparse.get 0 (writeMbx ws s).pwr.mbxOut i = ws.getD i 0 :=
  (sparse_get_setRange 0 [] (fun i => ws.getD i 0) 8 i).trans (if_pos h)

/-! ### The report of a loss (13 R409, R416) -/

/-- The page of an operation that has ended, before its message. -/
def recEnded (code : W16) (f : Flt) : Flt := { f with recState := if code = cOk then 2 else 3, recCode := code }

/-- The step machine is off, and the lost step is recorded. -/
def lossNoted (s : State) : State :=
  mOpt (fun o => { o with en := false, state := 6 })
    (mFlt (fun f => { f with lostStep := BitVec.ofNat 17 ((recArgStep s).toNat + 65536) }) s)

/-- A recovery operation ends with the step lost. -/
def lossEnd (code : W16) (s : State) : State := endRec code (reportLost s)

section
variable (code : W16) (s : State)

theorem endRec_eq : endRec code s = sendMbx 0x41 [w32 (0x41 + code.toNat * 65536), w32 s.flt.recOp.toNat, w32 (recArgStep s).toNat]
    (mFlt (recEnded code) (reportCode code s)) := rfl

theorem reportLost_eq : reportLost s =
    sendMbx 0x42 [w32 (0x42 + cStateLost.toNat * 65536), w32 (recArgStep s).toNat]
      (raiseStep (reportCode cStateLost (lossNoted s))) := rfl

theorem recState_endRec : (endRec code s).flt.recState ≠ 1 := by
  rw [endRec_eq, sendMbx_field _ _ Flt.recState fun _ => rfl]
  show (if code = cOk then 2 else 3) ≠ (1 : BitVec 2)
  split <;> decide

theorem lostStep_lossEnd : (lossEnd code s).flt.lostStep = BitVec.ofNat 17 ((recArgStep s).toNat + 65536) := by
  have ended : (lossEnd code s).flt.lostStep = (reportLost s).flt.lostStep := by
    rw [lossEnd, endRec_eq, sendMbx_field _ _ Flt.lostStep fun _ => rfl, mFlt_flt, reportCode_flt]
    rfl
  rw [ended, reportLost_eq, sendMbx_field _ _ Flt.lostStep fun _ => rfl, raiseStep_flt, reportCode_flt]
  rfl

theorem opt_lossEnd : (lossEnd code s).opt.en = false := by
  simp only [lossEnd, endRec_eq, reportLost_eq, sendMbx_opt, mFlt_opt, reportCode_opt, raiseStep_opt, lossNoted, mOpt_opt]

theorem ses_lossEnd : (lossEnd code s).ses = s.ses := by
  simp only [lossEnd, endRec_eq, reportLost_eq, sendMbx_ses, mFlt_ses, reportCode_ses, raiseStep_ses, lossNoted, mOpt_ses, mFlt_ses]

theorem que_lossEnd : (lossEnd code s).que = s.que := by
  simp only [lossEnd, endRec_eq, reportLost_eq, sendMbx_que, mFlt_que, reportCode_que, raiseStep_que, lossNoted, mOpt_que, mFlt_que]

/-- The step vector is requested by the report, and nothing after it takes the request back. -/
theorem vecRequested_lossEnd : VecRequested 261 (lossEnd code s) := by
  have raised : VecRequested 261 (reportLost s) :=
    (vecRequested_raiseVec_self 261 (reportCode cStateLost (lossNoted s))).of_same (sendMbx_que _ _ _) (sendMbx_msix _ _ _)
  rw [lossEnd, endRec_eq]
  exact (raised.reportCode code).of_same (sendMbx_que _ _ _) (sendMbx_msix _ _ _)

/-- The mailbox that the report finds is the one that the loss found. -/
theorem pwr_beforeReport : (raiseStep (reportCode cStateLost (lossNoted s))).pwr = s.pwr := by
  rw [raiseStep_pwr, reportCode_pwr, lossNoted, mOpt_pwr, mFlt_pwr]

theorem pwr_beforeEnd : (mFlt (recEnded code) (reportCode code s)).pwr = s.pwr := by
  rw [mFlt_pwr, reportCode_pwr]

/-- A mailbox that is empty takes STATE_LOST, and the message that ends the operation is held behind it. -/
theorem mbx_lossEnd_free (empty : s.pwr.outFull = false) (waiting : s.pwr.heldMsgs = []) :
    (lossEnd code s).pwr.outFull = true ∧
      Sparse.get 0 (lossEnd code s).pwr.mbxOut 0 = w32 (0x42 + cStateLost.toNat * 65536) ∧
      Sparse.get 0 (lossEnd code s).pwr.mbxOut 1 = w32 (recArgStep s).toNat := by
  have before := pwr_beforeReport s
  have report : reportLost s = writeMbx [w32 (0x42 + cStateLost.toNat * 65536), w32 (recArgStep s).toNat] _ :=
    sendMbx_free 0x42 _ (before ▸ empty) (before ▸ waiting)
  have full : (mFlt (recEnded code) (reportCode code (reportLost s))).pwr.outFull = true := by
    rw [pwr_beforeEnd, report]
    rfl
  have words (i : Nat) (h : i < 8) : Sparse.get 0 (lossEnd code s).pwr.mbxOut i =
      [w32 (0x42 + cStateLost.toNat * 65536), w32 (recArgStep s).toNat].getD i 0 := by
    rw [lossEnd, endRec_eq, (sendMbx_full 0x41 _ full).2, pwr_beforeEnd, report, writeMbx_word h]
  exact ⟨(sendMbx_full 0x41 _ full).1, words 0 (by decide), words 1 (by decide)⟩

/-- While the mailbox is full the message is held. -/
theorem mbx_lossEnd_full (full : s.pwr.outFull = true) : MbxHolds 0x42 (lossEnd code s) := by
  have report : MbxHolds 0x42 (reportLost s) := mbxHolds_sendMbx_self 0x42 _ (pwr_beforeReport s ▸ full)
  have before : MbxHolds 0x42 (mFlt (recEnded code) (reportCode code (reportLost s))) := by
    rw [MbxHolds, pwr_beforeEnd]
    exact report
  rw [lossEnd, endRec_eq]
  exact before.sendMbx 0x41 _

/-- The end of an operation with the step lost leaves what a loss leaves; the operation's own changes before it concern neither
the arguments, the masks nor the mailbox. -/
theorem lossReported_lossEnd {u : State} (arg : recArgStep u = recArgStep s) (masks : u.que = s.que) (mailbox : u.pwr = s.pwr) :
    lossReported s (lossEnd code u) := by
  refine ⟨opt_lossEnd code u, recState_endRec code _, arg ▸ lostStep_lossEnd code u, ?_, fun empty waiting => ?_, fun full => ?_⟩
  · refine (vecRequested_lossEnd code u).imp_left fun masked => ?_
    rwa [vecMasked, que_lossEnd, masks] at masked
  · rw [← mailbox] at empty waiting
    rw [← arg]
    exact mbx_lossEnd_free code u empty waiting
  · rw [← mailbox] at full
    exact mbx_lossEnd_full code u full
end

/-! ### How a recovery operation begins (13 R401, R402; 02 R54) -/

section
variable (s : State)

theorem exec_lost : exec .lost s = .next (if ctlOn s then lost s else holdAccess 5 .lost s) := rfl

theorem exec_setGen : exec .setGen s = .next (if ctlOn s then setGen s else holdAccess 5 .setGen s) := rfl

theorem exec_seed : exec .seed s = .next (if ctlOn s then seed s else holdAccess 5 .seed s) := rfl

theorem exec_remirror : exec .remirror s = .next (if ctlOn s then remirror s else holdAccess 5 .remirror s) := rfl

theorem exec_returnGen : exec .returnGen s = .next (if ctlOn s then returnGen s else holdAccess 5 .returnGen s) := rfl

theorem exec_restore : exec .restore s = .next (if ctlOn s then restore s else holdAccess 5 .restore s) := rfl

theorem exec_adopt : exec .adopt s = .next (if ctlOn s then adopt s else holdAccess 5 .adopt s) := rfl
end

section
variable {s : State} {op : Nat} (act : State → State)

theorem startRec_idle (idle : s.flt.recState ≠ 1) : startRec op act s = act (recBegun op s) := by
  have free : ¬(s.flt.recState = 1 && !(op == 6 && recOn s 3)) = true := by
    rw [decide_eq_false idle, Bool.false_and]
    exact Bool.false_ne_true
  exact if_neg free

theorem startRec_busy (busy : s.flt.recState = 1) (other : (op == 6) = false) :
    startRec op act s = pageErr pgFlt cConfigInvalid s := by
  have refused : (s.flt.recState = 1 && !(op == 6 && recOn s 3)) = true := by
    rw [decide_eq_true busy, other]
    rfl
  exact if_pos refused

/-- LOST alone stops a RESTORE (R409). -/
theorem startRec_stopsRestore (restoring : recOn s 3 = true) : startRec 6 act s = act (recBegun 6 s) := by
  have stops : ¬(s.flt.recState = 1 && !((6 : Nat) == 6 && recOn s 3)) = true := by
    rw [restoring, beq_self_eq_true, Bool.and_self, Bool.not_true, Bool.and_false]
    exact Bool.false_ne_true
  exact if_neg stops
end

theorem recOn_restoring {s : State} (running : s.flt.recState = 1) (restore : s.flt.recOp = 3) : recOn s 3 = true := by
  rw [recOn, running, restore]
  rfl

/-! ### LOST, and a RESTORE that fails for good (13 R406, R409) -/

theorem lost_ends {s : State} (may : s.flt.recState ≠ 1 ∨ s.flt.recOp = 3) : lost s = lossEnd cOk (recBegun 6 s) := by
  by_cases idle : s.flt.recState ≠ 1
  · exact startRec_idle _ idle
  · exact startRec_stopsRestore _ (recOn_restoring (not_not.1 idle) (may.resolve_left idle))

/-- The step machine is off as a RESTORE fails. -/
def restoreFailed (s : State) : State := mOpt (fun o => { o with en := false, state := 6 }) s

theorem failRestore_final {s : State} (final : recArgFinal s = true) : failRestore s = lossEnd cStateLost (restoreFailed s) :=
  if_pos final

theorem lossReported_failRestore {s : State} (final : recArgFinal s = true) : lossReported s (failRestore s) := by
  rw [failRestore_final final]
  exact lossReported_lossEnd cStateLost s rfl rfl rfl

/-! ### The other operations (13 R403 to R405, R407, R408) -/

section
variable {s u : State} (idle : s.flt.recState ≠ 1)
include idle

theorem setGen_begins (begun : u = recBegun 5 s) : setGen s =
    if mirrorWriting u then endRec cConfigInvalid u
    else endRec cOk { u with opt := { u.opt with gen := recArgGen u } } := by
  subst begun
  exact startRec_idle _ idle

theorem seed_begins (begun : u = recBegun 4 s) : seed s =
    if s.opt.en = true ∧ s.opt.state = 0 ∧ s.flt.updateBegun = false ∧ s.opt.mirrorEn = true then resendAll u
    else endRec cConfigInvalid u := by
  subst begun
  refine (startRec_idle _ idle).trans (if_congr ?_ rfl rfl)
  simp only [Bool.and_eq_true, Bool.not_eq_true', beq_iff_eq, and_assoc]
  rfl

theorem remirror_begins (begun : u = recBegun 7 s) : remirror s =
    if s.opt.en = true ∧ s.opt.verdict = 1 ∧ (s.opt.state = 3 ∨ s.opt.state = 4) then resendAll u
    else endRec cConfigInvalid (pageErr pgFlt cConfigInvalid u) := by
  subst begun
  refine (startRec_idle _ idle).trans (if_congr ?_ rfl rfl)
  simp only [Bool.and_eq_true, Bool.or_eq_true, beq_iff_eq, and_assoc]
  rfl

theorem returnGen_begins : returnGen s =
    if s.opt.mirrorSrc.getLsbD 16 then recBegun 2 s else endRec cConfigInvalid (recBegun 2 s) :=
  startRec_idle _ idle

theorem restore_begins (quiet : u = quiesce (recBegun 3 s)) : restore s =
    mFlt (fun f => { f with recExpect := BitVec.ofNat 13 (activeBuckets u).length })
      (foldS (activeBuckets u) u fun b s => mBkt b (fun k => { k with restored := [], restoreSeal := [], verified := false }) s) := by
  subst quiet
  exact startRec_idle _ idle

theorem adopt_begins (quiet : u = quiesce (recBegun 1 s)) : adopt s =
    if enableBad u then endRec cConfigInvalid u
    else endRec cOk (raiseStep (releaseHeld (enStart
      (if recArgPhase (recBegun 1 s) then adoptForward (adoptCommon u) else adoptRewind (adoptCommon u))))) := by
  subst quiet
  exact startRec_idle _ idle
end

/-! ### The cycles of a RETURN (13 R404) -/

section
variable {s : State} {n i : Nat} (returning : recOn s 2 = true) (half : n = s.opt.mirrorLen.toNat / 2) (next : i = s.flt.recPos)
include returning half next

theorem returnCycle_issues {t : Nat} (more : 4096 * i < n) (issuing : issueStopped s = false) (free : freeTag s = some t) :
    returnCycle s = mFlt (fun f => { f with recPos := i + 1 }) (returnPacket n i t s) := by
  subst half next
  simp only [returnCycle, returning, ge_iff_le, Nat.not_le.2 more, issuing, free, Bool.not_true, Bool.false_eq_true, if_false]

theorem returnCycle_ends (all : n ≤ 4096 * i) (accepted : mirrorWaiting s = false) : returnCycle s = endRec cOk s := by
  subst half next
  simp only [returnCycle, returning, ge_iff_le, all, accepted, Bool.not_true, Bool.false_eq_true, if_false, if_true]
end

/-- While one operation runs another is refused, and while the clocks are gated each waits; LOST alone is not so bound. -/
theorem recOp_refusedOrHeld {c : Instr} (s : State) (listed : c ∈ [.setGen, .seed, .remirror, .returnGen, .restore, .adopt]) :
    (ctlOn s = true → s.flt.recState = 1 → exec c s = .next (pageErr pgFlt cConfigInvalid s)) ∧
    (ctlOn s = false → exec c s = .next (holdAccess 5 c s)) := by
  simp only [List.mem_cons, List.not_mem_nil, or_false] at listed
  obtain rfl | rfl | rfl | rfl | rfl | rfl := listed
  all_goals exact ⟨fun on busy => congrArg _ ((if_pos on).trans (startRec_busy _ busy rfl)),
    fun gated => congrArg _ (if_neg (Bool.eq_false_iff.1 gated))⟩

/-- Settles O52: LOST and the RESTORE that fails for good by what a loss leaves, and each other operation by the conditions that
its begin has. -/
theorem recoveryOperationsBegin : Obligations.RecoveryOperationsBegin := by
  refine ⟨fun s on may => ⟨lossEnd cOk (recBegun 6 s), ?_, lossReported_lossEnd cOk s rfl rfl rfl, ses_lossEnd _ _⟩,
    fun s on restoring late final => ⟨failRestore s, ?_, lossReported_failRestore final, ?_⟩,
    fun s final => lossReported_failRestore final,
    fun s on idle => ⟨fun u begun => ⟨fun quiet => ?_, fun writing => ?_⟩,
      fun u begun => ⟨fun enabled start unbegun mirrors => ?_, fun unmet => ?_⟩,
      fun u begun => ⟨fun enabled update tail => ?_, fun unmet => ?_⟩, fun named => ?_, fun unnamed => ?_, fun u quiet => ?_,
      fun u quiet => ⟨fun good => ?_, fun bad => ?_⟩⟩,
    fun s n i t returning half next => ⟨returnCycle_issues returning half next, returnCycle_ends returning half next⟩,
    fun c s listed => recOp_refusedOrHeld s listed⟩
  · rw [exec_lost, if_pos on, lost_ends may]
  · rw [exec_recTimeout, if_pos on, recTimeout_late restoring late]
  · rw [failRestore_final final]
    exact ses_lossEnd cStateLost (restoreFailed s)
  · rw [exec_setGen, if_pos on, setGen_begins idle begun, if_neg (Bool.eq_false_iff.1 quiet)]
  · rw [exec_setGen, if_pos on, setGen_begins idle begun, if_pos writing]
  · rw [exec_seed, if_pos on, seed_begins idle begun, if_pos ⟨enabled, start, unbegun, mirrors⟩]
  · have refused : ¬(s.opt.en = true ∧ s.opt.state = 0 ∧ s.flt.updateBegun = false ∧ s.opt.mirrorEn = true) := by
      simpa only [not_and_or, Bool.not_eq_true, Bool.not_eq_false] using unmet
    rw [exec_seed, if_pos on, seed_begins idle begun, if_neg refused]
  · rw [exec_remirror, if_pos on, remirror_begins idle begun, if_pos ⟨enabled, update, tail⟩]
  · have refused : ¬(s.opt.en = true ∧ s.opt.verdict = 1 ∧ (s.opt.state = 3 ∨ s.opt.state = 4)) := by
      simpa only [not_and_or, not_or, Bool.not_eq_true] using unmet
    rw [exec_remirror, if_pos on, remirror_begins idle begun, if_neg refused]
  · rw [exec_returnGen, if_pos on, returnGen_begins idle, if_pos named]
  · rw [exec_returnGen, if_pos on, returnGen_begins idle, if_neg (Bool.eq_false_iff.1 unnamed)]
  · rw [exec_restore, if_pos on, restore_begins idle quiet]
  · rw [exec_adopt, if_pos on, adopt_begins idle quiet, if_neg (Bool.eq_false_iff.1 good)]
  · rw [exec_adopt, if_pos on, adopt_begins idle quiet, if_pos bad]

end Sys2Proof.Proofs
